-- ==== Sys2Proof/Word.lean ====
section
/-! DEFINITION. Word types of the machine: payload widths, the 40-bit tag and the token (01 R9). -/
namespace Sys2Proof

abbrev Byte := BitVec 8
abbrev W32 := BitVec 32
abbrev W64 := BitVec 64
abbrev W256 := BitVec 256

/-- A token's tag: THR in [39:24], WAVE in [23:0] (R9, Table 1.1). -/
structure Tag where
  thr  : BitVec 16
  wave : BitVec 24
  deriving DecidableEq, Repr

/-- A token as software sees it (R9). `wide` tells a 256-bit token from a 64-bit one (whose payload sits in the
low 64 bits, the rest zero). `deps` is no field of the hardware's: it names the memory operations that a release fed by
the token covers, each with the place where they count (R240, R242; assumption 12). -/
structure Tok where
  payload : W256
  wide    : Bool
  tag     : Tag
  e       : Bool
  s       : Bool
  deps    : List (Nat × Nat)
  deriving DecidableEq, Repr

end Sys2Proof
end

