-- ==== Sys2Proof/Syntax.lean ====
section
/-! DEFINITION. The syntax of everything the part performs: one constructor of `Instr` per row of
spec/opcode_table.json, the records of Tables 2.6 to 2.11 first, then the part's own steps and the inputs of the world
around it. Encodings are turned into names here once; the machine never sees a raw field. -/
namespace Sys2Proof

/-- An operand position (R12). -/
inductive Pos where
  | a | b | c
  deriving DecidableEq, Repr

/-- Immediate substitution (R41, R42): none, a position filled from IMM, or one filled from the extended word. -/
inductive Subst where
  | none
  | imm (p : Pos) (v : W32)
  | ext (p : Pos) (v : W64)
  deriving DecidableEq, Repr

/-- A target half-word (R37, Table 2.4). -/
structure Target where
  dx   : BitVec 6
  dy   : BitVec 6
  pe   : BitVec 5
  slot : BitVec 3
  opnd : Pos
  deriving DecidableEq, Repr

/-- Rounding modes (R81). -/
inductive Rm where
  | rne | rtz | rdn | rup | rna
  deriving DecidableEq, Repr

/-- ORD of a memory-class record (R49, Table 3.1). -/
inductive Ord where
  | unord | ord | acq | rel
  deriving DecidableEq, Repr

/-- SCOPE (R238, Table 11.1). -/
inductive Scope where
  | cl | die | dev | sys
  deriving DecidableEq, Repr

/-- SIZE (R151): 1, 2, 4, 8 or 32 bytes. -/
inductive Size where
  | b | h | w | d | v
  deriving DecidableEq, Repr

/-- The three sequence numbers of an ordered record (R25). -/
structure Seq where
  pred : BitVec 10
  own  : BitVec 10
  succ : BitVec 10
  deriving DecidableEq, Repr

/-- CMP's relations in FN order (Table 5.3). -/
inductive CmpRel where
  | eq | ne | lt | le | ltu | leu | gt | ge | gtu | geu
  deriving DecidableEq, Repr

/-- EXT's forms in FN order (R130). -/
inductive ExtFn where
  | sb | sh | sw | zb | zh | zw
  deriving DecidableEq, Repr

/-- FMA's sign combinations in FN order (Table 6.1). -/
inductive FmaFn where
  | pp | pn | np | nn
  deriving DecidableEq, Repr

/-- FCMP's relations in FN order (Table 6.4). -/
inductive FcmpRel where
  | eq | ne | lt | le | gt | ge | un | or
  deriving DecidableEq, Repr

/-- AMO's functions in FN order (Table 11.5). -/
inductive AmoFn where
  | add | and | or | xor | min | max | minu | maxu | swap | fadd | fmin | fmax
  deriving DecidableEq, Repr

/-- Fields of a control-group record (R45). -/
structure CtlRec where
  v    : Bool
  sub  : Subst
  tgts : List Target
  deriving DecidableEq, Repr

/-- Fields of an integer-group record (R46); `lane` is MOD[39:38]. -/
structure IntRec where
  v    : Bool
  lane : BitVec 2
  sub  : Subst
  tgts : List Target
  deriving DecidableEq, Repr

/-- Fields of a float-group record (R47); `rm` is none for the slot's default. -/
structure FltRec where
  fs   : BitVec 5
  v    : Bool
  rm   : Option Rm
  sat  : Bool
  na   : Bool
  nb   : Bool
  nc   : Bool
  sub  : Subst
  tgts : List Target
  deriving DecidableEq, Repr

/-- Fields of a vector-group record (R48). -/
structure VecRec where
  fs   : BitVec 5
  rm   : Option Rm
  sat  : Bool
  sub  : Subst
  tgts : List Target
  deriving DecidableEq, Repr

/-- Fields of a memory-class record (R49). -/
structure MemRec where
  fs    : BitVec 5
  v     : Bool
  ord   : Ord
  scope : Scope
  size  : Size
  nth   : Bool
  seq   : Seq
  sub   : Subst
  tgts  : List Target
  deriving DecidableEq, Repr

/-- Fields of a transfer record (R51, R301); `fs` is XACC's. -/
structure XferRec where
  fs   : BitVec 5
  nth  : Bool
  seq  : Seq
  tgts : List Target
  deriving DecidableEq, Repr

/-- Handles of an MMA on tiles (R50): C is 0xFF for none. -/
structure MmaRec where
  d    : BitVec 4
  ta   : BitVec 8
  tb   : BitVec 8
  tc   : BitVec 8
  tgts : List Target
  deriving DecidableEq, Repr

/-- A cluster-relative place of a slot: image-relative cluster column and row, PE and slot (R11, R19). -/
structure Place where
  x    : Nat
  y    : Nat
  pe   : Nat
  slot : Nat
  deriving DecidableEq, Repr

/-- What a DATA_RETURN step brings back: a message reaching an L1 or RDC, or the result of one operation. -/
inductive Ret where
  | msg (n : Nat)
  | op (id : Nat)
  deriving DecidableEq, Repr

/-- Coherence state of a sector (Tables 10.9, 19.4). -/
inductive Mesi where
  | i | s | e | m
  deriving DecidableEq, Repr

/-- Data that the host sends, and whether it is poisoned (R402). -/
structure HostData where
  bytes : List Byte
  psn   : Bool
  deriving DecidableEq, Repr

/-- A host access of device memory through CXL.mem or MEMBAR (R391), or of its own memory. `caches` marks a host that
keeps a copy (CXL mode with MEM set): `excl` one held in E or M; `psn` marks written data as poisoned. `no` tells apart equal accesses (assumption 64). -/
structure HostAcc where
  pa     : Nat
  len    : Nat
  wr     : Option (List Byte)
  caches : Bool
  excl   : Bool
  psn    : Bool
  no     : Nat
  deriving DecidableEq, Repr

/-- What an inbound fabric access asks of the target (R397). Atomics carry the function, operands and captured entry. -/
inductive InKind where
  | load (len : Nat)
  | store (data : List Byte)
  | amo (fn : AmoFn) (size : Size) (b : W64) (fmt : W64)
  | cas (size : Size) (b c : W64)
  | xred (b : W64) (fmt : W64)
  | xrd
  | chunkRead (len : Nat)
  | chunkWrite (data : List Byte) (poison : Bool)
  deriving DecidableEq, Repr

/-- An inbound access: source node, target physical address, key ID applied at the target, and the access (R397, R398). `no` tells
apart equal accesses (assumption 64). -/
structure InAcc where
  src  : BitVec 20
  pa   : Nat
  key  : Nat
  kind : InKind
  no   : Nat
  deriving DecidableEq, Repr

/-- What an HBM read meets: the three outcomes of R408; a burst that fails the interface's CRC and is repeated (R409); or,
on an integrity page, a counter block (level 0) or a tree node above it that fails its check (R416). -/
inductive HbmOutcome where
  | clean | corrected | uncorrectable
  | crc
  | treeFail (level : Nat)
  deriving DecidableEq, Repr

/-- An array that meets an uncorrectable error (R230, R411): a cluster's L1, a die's RDC, the sector's home L2 slice, a
cluster's tile store or accumulator store (the address is then a byte offset in that store); or an array's corrected error. -/
inductive Holder where
  | l1 (c : Nat)
  | rdc (d : Nat)
  | l2
  | tile (c : Nat)
  | acc (c : Nat)
  | corrected
  | hostLink
  deriving DecidableEq, Repr

/-- What bring-up found (R428, R429): failing clusters, dies and stacks that passed, the link mode, width and rate, fabric ports
up, and the populated bytes of each die window. -/
structure BringUp where
  badCl : List Nat
  dieOk : BitVec 4
  stkOk : BitVec 12
  mode  : BitVec 2
  width : BitVec 6
  gts   : BitVec 8
  ports : BitVec 96
  memcap : W64
  deriving DecidableEq, Repr

/-- A node of the sweep's flush (R368): a cluster, the front end, or an engine that held a transfer. -/
inductive SweepNode where
  | cluster (k : Nat)
  | frontEnd
  | engine (x : Nat)
  deriving DecidableEq, Repr

/-- One constructor per row of spec/opcode_table.json. -/
inductive Instr where
  -- control group (Table 2.6)
  | pass (r : CtlRec)
  | const (val : Subst) (tgts : List Target)
  | steerT (r : CtlRec)
  | steerF (r : CtlRec)
  | select (r : CtlRec)
  | waveAdv (r : CtlRec)
  | waveSet (r : CtlRec)
  | loopGate (r : CtlRec)
  | loopOpen (r : CtlRec) (k : BitVec 7)
  | loopClose (r : CtlRec)
  | spawn (r : CtlRec)
  | tagGet (r : CtlRec)
  | tagSet (r : CtlRec)
  | tagThr (r : CtlRec)
  | tagWav (r : CtlRec)
  | call (r : CtlRec)
  | ret (r : CtlRec)
  | sinkDrop
  | sinkEos
  | sinkCount
  | eosMake (r : CtlRec)
  | errTest (r : CtlRec)
  | errClear (r : CtlRec)
  | errMake (r : CtlRec) (code : BitVec 8)
  | sysTrap (code : BitVec 16) (tgts : List Target)
  | sysBrk (code : BitVec 16) (tgts : List Target)
  | sysQry (sel : BitVec 8) (tgts : List Target)
  | sysClk (tgts : List Target)
  -- integer group (Table 2.7)
  | add (r : IntRec)
  | sub (r : IntRec)
  | mulLo (r : IntRec)
  | mulHis (r : IntRec)
  | mulHiu (r : IntRec)
  | divS (r : IntRec)
  | divU (r : IntRec)
  | remS (r : IntRec)
  | remU (r : IntRec)
  | and (r : IntRec)
  | or (r : IntRec)
  | xor (r : IntRec)
  | andn (r : IntRec)
  | shl (r : IntRec)
  | shrL (r : IntRec)
  | shrA (r : IntRec)
  | rotL (r : IntRec)
  | rotR (r : IntRec)
  | bcntClz (r : IntRec)
  | bcntCtz (r : IntRec)
  | bcntPopc (r : IntRec)
  | minS (r : IntRec)
  | minU (r : IntRec)
  | maxS (r : IntRec)
  | maxU (r : IntRec)
  | abs (r : IntRec)
  | cmp (rel : CmpRel) (r : IntRec)
  | ext (fn : ExtFn) (r : IntRec)
  | bfx (r : IntRec)
  | bfi (r : IntRec)
  | lea (sh : BitVec 3) (r : IntRec)
  | addsS (r : IntRec)
  | addsU (r : IntRec)
  | mula (r : IntRec)
  -- float group (Table 2.8)
  | fadd (r : FltRec)
  | fsub (r : FltRec)
  | fmul (r : FltRec)
  | fma (fn : FmaFn) (r : FltRec)
  | fdiv (r : FltRec)
  | fsqrt (r : FltRec)
  | frcp (r : FltRec)
  | frsq (r : FltRec)
  | fexp2 (r : FltRec)
  | flog2 (r : FltRec)
  | fminNum (r : FltRec)
  | fminIeee (r : FltRec)
  | fmaxNum (r : FltRec)
  | fmaxIeee (r : FltRec)
  | fabs (r : FltRec)
  | fneg (r : FltRec)
  | fcps (r : FltRec)
  | fcmp (rel : FcmpRel) (r : FltRec)
  | fcls (r : FltRec)
  | fcvtFf (dst : BitVec 5) (r : FltRec)
  | fcvtFi (r : FltRec)
  | fcvtFiu (r : FltRec)
  | fcvtIf (dst : BitVec 5) (r : FltRec)
  | fcvtIuf (dst : BitVec 5) (r : FltRec)
  | frnd (dir : Rm) (r : FltRec)
  | fscl (r : FltRec)
  | fxp (r : FltRec)
  -- vector group (Table 2.9)
  | vbcast (r : VecRec)
  | vlaneGet (r : VecRec)
  | vlanePut (r : VecRec)
  | vshuf (pat : W32) (r : VecRec)
  | vperm (r : VecRec)
  | vredAdd (r : VecRec)
  | vredMax (r : VecRec)
  | vredMin (r : VecRec)
  | vredAmax (r : VecRec)
  | vscan (r : VecRec)
  | vmask (r : VecRec)
  | vsel (r : VecRec)
  | vpack (dst : BitVec 5) (r : VecRec)
  | vunpk (dst : BitVec 5) (hi : Bool) (r : VecRec)
  | vbexp (scl : BitVec 5) (r : VecRec)
  | vqnt (dst : BitVec 5) (r : VecRec)
  | vdqnt (dst : BitVec 5) (r : VecRec)
  | vdot (r : VecRec)
  -- memory, atomic, coherence and format-table groups (Table 2.10)
  | ld (r : MemRec)
  | st (r : MemRec)
  | ldx (r : MemRec)
  | stx (r : MemRec)
  | mnop (r : MemRec)
  | pf (r : MemRec)
  | amo (fn : AmoFn) (r : MemRec)
  | cas (r : MemRec)
  | red (fn : AmoFn) (r : MemRec)
  | xred (r : MemRec)
  | xrd (r : MemRec)
  | fenceAcq (r : MemRec)
  | fenceRel (r : MemRec)
  | fenceAr (r : MemRec)
  | fenceSc (r : MemRec)
  | own (r : MemRec)
  | invRegion (r : MemRec)
  | invAll (r : MemRec)
  | wbk (r : MemRec)
  | ftset (r : MemRec)
  | ftget (fs : BitVec 5) (tgts : List Target)
  | ftsync (fs : BitVec 5) (r : CtlRec)
  -- tile and matrix group (Table 2.11)
  | tld (h : BitVec 8) (tgts : List Target)
  | tldAcc (h : BitVec 4) (tgts : List Target)
  | tst (h : BitVec 8) (tgts : List Target)
  | tstAcc (h : BitVec 4) (tgts : List Target)
  | tzero (h : BitVec 8) (tgts : List Target)
  | tzeroAcc (h : BitVec 4) (tgts : List Target)
  | tempty (h : BitVec 8) (tgts : List Target)
  | tcvt (src dst : BitVec 8) (tgts : List Target)
  | ttrn (src dst : BitVec 8) (tgts : List Target)
  | tdesc (h : BitVec 8) (tgts : List Target)
  | tqry (h : BitVec 8) (tgts : List Target)
  | tqryAcc (h : BitVec 4) (tgts : List Target)
  | mmaDense (m : MmaRec)
  | mmaAcca (fs : BitVec 5) (clmp : Bool) (psh : BitVec 6) (m : MmaRec)
  | mmaMx (sa sb : BitVec 8) (m : MmaRec)
  | mmaTwo (ba bb sa sb : BitVec 8) (m : MmaRec)
  | isect (tgts : List Target)
  | sstrm (fs : BitVec 5) (tgts : List Target)
  | spacc (h : BitVec 8) (tgts : List Target)
  -- transfer group (R51)
  | xcopy (r : XferRec)
  | xgath (r : XferRec)
  | xscat (r : XferRec)
  | xtile (r : XferRec)
  | xfill (r : XferRec)
  | xacc (r : XferRec)
  -- matching, wave-order units and results
  | tokenArrival (n : Nat)
  | refill (inst : Nat) (pl : Place) (tag : Tag)
  | ageOverride (cl pe : Nat)
  | cwCopyUpdate (inst cl pe : Nat) (thr : BitVec 16)
  | orderedRequest (op : Nat)
  | unorderedRequest (op : Nat)
  | dataReturn (r : Ret)
  | releasePerformed (op : Nat)
  | handOff (op : Nat)
  | return_ (op : Nat)
  | divideComplete (op : Nat)
  | iterativeFloatComplete (op : Nat)
  | ftsetPerformed (op : Nat)
  | probe (inst : Nat)
  -- caches and coherence; n counts the messages in flight
  | registration (n : Nat)
  | grant (n : Nat)
  | revoke (n : Nat)
  | recall (n : Nat)
  | writeBack (n : Nat)
  | homeRead (n : Nat)
  | forwardedRead (n : Nat)
  | l1Eviction (cl : Nat) (line : Nat)
  | l2Eviction (line : Nat)
  | rdcEviction (die : Nat) (sector : Nat)
  | ownerLost (cl : Nat) (sector : Nat)
  | directoryRequest (n : Nat)
  | directoryInvalidate (n : Nat)
  | sectorError (at_ : Holder) (sector : Nat)
  | snoopFilterEviction (sector : Nat)
  | snpData (die : Nat) (sector : Nat)
  | snpInv (die : Nat) (sector : Nat)
  | snpCur (die : Nat) (sector : Nat)
  | go (die : Nat) (sector : Nat) (st : Mesi) (data : HostData)
  | hostAccess (a : HostAcc)
  | bisnpResponse (sector : Nat) (dirty : Option HostData)
  -- the scale-up fabric
  | flitCrcFailure (port n : Nat)
  | replay (port : Nat)
  | retrain (port : Nat) (ok : Bool)
  | portDown (port : Nat)
  | pathTimeout (node : BitVec 20)
  | inboundAccess (a : InAcc)
  | refusal (id : Nat)
  -- memory reliability
  | hbmRead (sector : Nat) (o : HbmOutcome)
  | channelRetrain (sector : Nat) (wr ok : Bool)
  | directoryByteError (sector : Nat) (corrected : Bool)
  -- queues, launch and scheduling
  | kick (q : Nat) (bytes : Nat)
  | packetConsume (q : Nat)
  | signalRecheck (launch : Nat)
  | placement (launch : Nat)
  | triggerStore (off : Nat) (val : W64) (bytes : Nat) (by_ : Option Nat)
  | run (ctx : Nat) (trig : BitVec 4)
  | preemption (launch : Nat)
  | compaction (launch : Nat)
  | faultEntryWrite (ctx : Nat)
  | faultEntryRetry (ctx : Nat)
  -- faults and translation
  -- transfers, tiles, matrix unit
  | admission (x : Nat)
  | engineTake (x : Nat)
  | claim (x : Nat)
  | transferChunk (x : Nat)
  | transferComplete (x : Nat)
  | tileCompletion (op : Nat)
  | mmaStart (cl : Nat)
  | mmaComplete (cl : Nat)
  | sstrmToken (op : Nat)
  -- pre-emption
  | sweep (inst : Nat)
  | marker (inst : Nat) (node : SweepNode) (k : Nat)
  | restore (inst : Nat)
  -- power, errors, keys, reset and registers
  | sensorSample (temps : List (BitVec 16))
  | powerUpdate (pkg : BitVec 16) (dies : List (BitVec 16))
  | fatalError (cause : BitVec 8)
  | bringUp (b : BringUp)
  | thresholdWrite (val : W64)
  | counterWrite (off : Nat) (val : W64)
  | registerWrite (off : Nat) (val : W64)
  | revokeAnswer (n : Nat)
  | returnedSector (n : Nat)
  -- steps and commands without arguments
  | cacheClear
  | cacheSet
  | memClear
  | memSet
  | ctxload
  | ctxdrop
  | qmap
  | qunmap
  | ctxfmt
  | instend
  | cloff
  | clon
  | resumeReplay
  | resumeFail
  | resumeReply
  | shoot
  | shootdownComplete
  | holdingInstance
  | kcmdLoad
  | kcmdClear
  | inten
  | warmReset
  | coldReset
  | hostLinkDown
  deriving DecidableEq, Repr

end Sys2Proof
end

