-- ==== Sys2Proof/Machine/Shape.lean ====
section
/-! DEFINITION. Tables 2.6 to 2.11: which operand positions each record uses, their widths, the width of its result,
the legal V, and which immediates its class permits (R39 to R44). -/
namespace Sys2Proof.Machine

/-- Widths of Tables 2.6 to 2.11 (R39): 64 bits, 256 bits, the V bit's width, either width. -/
inductive PW where
  | s | v | eq | star
  deriving DecidableEq, Repr

/-- Operand positions (none: not used), the result's width (none: no token), and V where the table fixes it
(none: 0 or 1). -/
structure Shape where
  a   : Option PW
  b   : Option PW
  c   : Option PW
  res : Option PW
  v   : Option Bool
  deriving DecidableEq, Repr

/-- Positions a..c of a record that allows V 0 or 1, with result "=". -/
def shEq (a b c : Option PW) : Shape := ⟨a, b, c, some .eq, none⟩
/-- A scalar record (V = 0) with a 64-bit result. -/
def shS (a b c : Option PW) : Shape := ⟨a, b, c, some .s, some false⟩
/-- A vector-group record with a 256-bit result (V = 1). -/
def shV (a b c : Option PW) : Shape := ⟨a, b, c, some .v, some true⟩
/-- A record that emits nothing, V = 0. -/
def shN (a : Option PW) : Shape := ⟨a, none, none, none, some false⟩

/-- The row's shape; `none` for the steps that are no records (Tables 2.6 to 2.11). -/
def shape : Instr → Option Shape
  | .pass _ | .waveAdv _ | .loopOpen _ _ | .eosMake _ | .errClear _ | .errMake _ _ => some (shEq (some .eq) none none)
  | .const _ _ => some (shS (some .star) none none)
  | .steerT _ | .steerF _ => some (shEq (some .s) (some .eq) none)
  | .select _ => some (shEq (some .s) (some .eq) (some .eq))
  | .waveSet _ | .loopGate _ | .loopClose _ | .spawn _ | .tagSet _ | .tagThr _ | .tagWav _ | .call _ =>
    some (shEq (some .eq) (some .s) none)
  | .tagGet _ | .errTest _ => some (shS (some .star) none none)
  | .ret _ => some ⟨some .eq, none, none, none, none⟩
  | .sinkDrop | .sinkEos | .sinkCount => some (shN (some .star))
  | .sysTrap _ _ | .sysBrk _ _ | .sysQry _ _ | .sysClk _ => some (shS (some .star) none none)
  | .add _ | .sub _ | .mulLo _ | .mulHis _ | .mulHiu _ | .and _ | .or _ | .xor _ | .andn _ | .shl _ | .shrL _ | .shrA _
  | .rotL _ | .rotR _ | .minS _ | .minU _ | .maxS _ | .maxU _ | .cmp _ _ | .addsS _ | .addsU _ =>
    some (shEq (some .eq) (some .eq) none)
  | .divS _ | .divU _ | .remS _ | .remU _ | .bfx _ | .lea _ _ => some (shS (some .s) (some .s) none)
  | .bcntClz _ | .bcntCtz _ | .bcntPopc _ | .abs _ => some (shEq (some .eq) none none)
  | .ext _ _ => some (shS (some .s) none none)
  | .bfi _ => some (shS (some .s) (some .s) (some .s))
  | .mula _ => some (shEq (some .eq) (some .eq) (some .eq))
  | .fadd _ | .fsub _ | .fmul _ | .fdiv _ | .fminNum _ | .fminIeee _ | .fmaxNum _ | .fmaxIeee _ | .fcps _ | .fcmp _ _
  | .fscl _ => some (shEq (some .eq) (some .eq) none)
  | .fma _ _ => some (shEq (some .eq) (some .eq) (some .eq))
  | .fsqrt _ | .frcp _ | .frsq _ | .fexp2 _ | .flog2 _ | .fabs _ | .fneg _ | .fcls _ | .fcvtFf _ _ | .frnd _ _ | .fxp _ =>
    some (shEq (some .eq) none none)
  | .fcvtFi _ | .fcvtFiu _ | .fcvtIf _ _ | .fcvtIuf _ _ => some (shS (some .s) none none)
  | .vbcast _ => some (shV (some .s) none none)
  | .vlaneGet _ => some ⟨some .v, some .s, none, some .s, some false⟩
  | .vlanePut _ => some (shV (some .v) (some .s) (some .s))
  | .vshuf _ _ | .vperm _ | .vpack _ _ => some (shV (some .v) (some .v) none)
  | .vredAdd _ | .vredMax _ | .vredMin _ | .vredAmax _ | .vmask _ | .vbexp _ _ => some (shS (some .v) none none)
  | .vscan _ | .vunpk _ _ _ => some (shV (some .v) none none)
  | .vsel _ => some (shV (some .s) (some .v) (some .v))
  | .vqnt _ _ | .vdqnt _ _ => some (shV (some .v) (some .s) none)
  | .vdot _ => some (shS (some .v) (some .v) none)
  | .ld _ => some (shEq (some .s) none none)
  | .st _ => some (shEq (some .s) (some .eq) none)
  | .ldx _ => some (shV (some .s) (some .v) none)
  | .stx _ => some (shV (some .s) (some .v) (some .v))
  | .mnop _ | .fenceAcq _ | .fenceRel _ | .fenceAr _ | .fenceSc _ | .ftsync _ _ => some (shEq (some .eq) none none)
  | .pf _ => some (shN (some .s))
  | .amo _ _ | .red _ _ | .xred _ | .invRegion _ | .wbk _ => some (shS (some .s) (some .s) none)
  | .cas _ => some (shS (some .s) (some .s) (some .s))
  | .xrd _ | .own _ | .ftset _ => some (shS (some .s) none none)
  | .invAll _ | .ftget _ _ => some (shS (some .star) none none)
  | .tld _ _ | .tldAcc _ _ | .tst _ _ | .tstAcc _ _ | .tdesc _ _ | .sstrm _ _ | .spacc _ _ => some (shS (some .s) none none)
  | .tzero _ _ | .tzeroAcc _ _ | .tempty _ _ | .tcvt _ _ _ | .ttrn _ _ _ | .tqry _ _ | .tqryAcc _ _ | .mmaDense _
  | .mmaAcca _ _ _ _ | .mmaMx _ _ _ | .mmaTwo _ _ _ _ _ => some (shS (some .star) none none)
  | .isect _ => some (shS (some .s) (some .s) none)
  | .xcopy _ | .xgath _ | .xscat _ | .xtile _ | .xfill _ | .xacc _ => some (shS (some .v) none none)
  | .tokenArrival _ | .refill _ _ _ | .ageOverride _ _ | .cwCopyUpdate _ _ _ _ | .orderedRequest _ | .unorderedRequest _
  | .dataReturn _ | .releasePerformed _ | .handOff _ | .return_ _ | .divideComplete _ | .iterativeFloatComplete _
  | .ftsetPerformed _ | .probe _ | .registration _ | .grant _ | .revoke _ | .recall _ | .writeBack _ | .homeRead _
  | .forwardedRead _ | .l1Eviction _ _ | .l2Eviction _ | .rdcEviction _ _ | .ownerLost _ _ | .directoryRequest _
  | .directoryInvalidate _ | .sectorError _ _ | .snoopFilterEviction _ | .snpData _ _ | .snpInv _ _ | .snpCur _ _
  | .go _ _ _ _ | .hostAccess _ | .bisnpResponse _ _ | .cacheClear | .cacheSet | .memClear | .memSet
  | .flitCrcFailure _ _ | .replay _ | .retrain _ _ | .portDown _ | .pathTimeout _ | .inboundAccess _ | .refusal _
  | .hbmRead _ _ | .channelRetrain _ _ _ | .directoryByteError _ _ | .kick _ _ | .packetConsume _ | .signalRecheck _
  | .placement _ | .triggerStore _ _ _ _ | .run _ _ | .preemption _ | .compaction _ | .faultEntryWrite _
  | .faultEntryRetry _ | .ctxload | .ctxdrop | .qmap | .qunmap | .ctxfmt | .instend | .cloff | .clon | .resumeReplay
  | .resumeFail | .resumeReply | .shoot | .shootdownComplete | .admission _ | .engineTake _ | .claim _
  | .transferChunk _ | .transferComplete _ | .tileCompletion _ | .mmaStart _ | .mmaComplete _ | .sstrmToken _ | .sweep _
  | .marker _ _ _ | .restore _ | .sensorSample _ | .powerUpdate _ _ | .holdingInstance | .fatalError _ | .kcmdLoad
  | .kcmdClear | .inten | .warmReset | .coldReset | .bringUp _ | .thresholdWrite _ | .counterWrite _ _
  | .registerWrite _ _ | .revokeAnswer _ | .returnedSector _ | .hostLinkDown => none

/-- The width a position takes. -/
def Shape.at (sh : Shape) : Pos → Option PW
  | .a => sh.a
  | .b => sh.b
  | .c => sh.c

/-- The position's width in the record's own terms: does it take 256-bit tokens, given V; none for "*" (R39). -/
def PW.wide (v : Bool) : PW → Option Bool
  | .s => some false
  | .v => some true
  | .eq => some v
  | .star => none

/-- The targets a record names. -/
def targetsOf : Instr → List Target
  | .pass r | .steerT r | .steerF r | .select r | .waveAdv r | .waveSet r | .loopGate r | .loopOpen r _ | .loopClose r
  | .spawn r | .tagGet r | .tagSet r | .tagThr r | .tagWav r | .call r | .ret r | .eosMake r | .errTest r | .errClear r
  | .errMake r _ | .ftsync _ r => r.tgts
  | .const _ t | .sysTrap _ t | .sysBrk _ t | .sysQry _ t | .sysClk t | .ftget _ t | .tld _ t | .tldAcc _ t | .tst _ t
  | .tstAcc _ t | .tzero _ t | .tzeroAcc _ t | .tempty _ t | .tcvt _ _ t | .ttrn _ _ t | .tdesc _ t | .tqry _ t
  | .tqryAcc _ t | .isect t | .sstrm _ t | .spacc _ t => t
  | .add r | .sub r | .mulLo r | .mulHis r | .mulHiu r | .divS r | .divU r | .remS r | .remU r | .and r | .or r | .xor r
  | .andn r | .shl r | .shrL r | .shrA r | .rotL r | .rotR r | .bcntClz r | .bcntCtz r | .bcntPopc r | .minS r | .minU r
  | .maxS r | .maxU r | .abs r | .cmp _ r | .ext _ r | .bfx r | .bfi r | .lea _ r | .addsS r | .addsU r | .mula r => r.tgts
  | .fadd r | .fsub r | .fmul r | .fma _ r | .fdiv r | .fsqrt r | .frcp r | .frsq r | .fexp2 r | .flog2 r | .fminNum r
  | .fminIeee r | .fmaxNum r | .fmaxIeee r | .fabs r | .fneg r | .fcps r | .fcmp _ r | .fcls r | .fcvtFf _ r | .fcvtFi r
  | .fcvtFiu r | .fcvtIf _ r | .fcvtIuf _ r | .frnd _ r | .fscl r | .fxp r => r.tgts
  | .vbcast r | .vlaneGet r | .vlanePut r | .vshuf _ r | .vperm r | .vredAdd r | .vredMax r | .vredMin r | .vredAmax r
  | .vscan r | .vmask r | .vsel r | .vpack _ r | .vunpk _ _ r | .vbexp _ r | .vqnt _ r | .vdqnt _ r | .vdot r => r.tgts
  | .ld r | .st r | .ldx r | .stx r | .mnop r | .pf r | .amo _ r | .cas r | .red _ r | .xred r | .xrd r | .fenceAcq r
  | .fenceRel r | .fenceAr r | .fenceSc r | .own r | .invRegion r | .invAll r | .wbk r | .ftset r => r.tgts
  | .mmaDense m | .mmaAcca _ _ _ m | .mmaMx _ _ m | .mmaTwo _ _ _ _ m => m.tgts
  | .xcopy r | .xgath r | .xscat r | .xtile r | .xfill r | .xacc r => r.tgts
  | _ => []

/-- The substitution a record carries (R41). -/
def substOf : Instr → Subst
  | .pass r | .steerT r | .steerF r | .select r | .waveAdv r | .waveSet r | .loopGate r | .loopOpen r _ | .loopClose r
  | .spawn r | .tagGet r | .tagSet r | .tagThr r | .tagWav r | .call r | .ret r | .eosMake r | .errTest r | .errClear r
  | .errMake r _ | .ftsync _ r => r.sub
  | .add r | .sub r | .mulLo r | .mulHis r | .mulHiu r | .divS r | .divU r | .remS r | .remU r | .and r | .or r | .xor r
  | .andn r | .shl r | .shrL r | .shrA r | .rotL r | .rotR r | .bcntClz r | .bcntCtz r | .bcntPopc r | .minS r | .minU r
  | .maxS r | .maxU r | .abs r | .cmp _ r | .ext _ r | .bfx r | .bfi r | .lea _ r | .addsS r | .addsU r | .mula r => r.sub
  | .fadd r | .fsub r | .fmul r | .fma _ r | .fdiv r | .fsqrt r | .frcp r | .frsq r | .fexp2 r | .flog2 r | .fminNum r
  | .fminIeee r | .fmaxNum r | .fmaxIeee r | .fabs r | .fneg r | .fcps r | .fcmp _ r | .fcls r | .fcvtFf _ r | .fcvtFi r
  | .fcvtFiu r | .fcvtIf _ r | .fcvtIuf _ r | .frnd _ r | .fscl r | .fxp r => r.sub
  | .vbcast r | .vlaneGet r | .vlanePut r | .vshuf _ r | .vperm r | .vredAdd r | .vredMax r | .vredMin r | .vredAmax r
  | .vscan r | .vmask r | .vsel r | .vpack _ r | .vunpk _ _ r | .vbexp _ r | .vqnt _ r | .vdqnt _ r | .vdot r => r.sub
  | .ld r | .st r | .ldx r | .stx r | .mnop r | .pf r | .amo _ r | .cas r | .red _ r | .xred r | .xrd r | .fenceAcq r
  | .fenceRel r | .fenceAr r | .fenceSc r | .own r | .invRegion r | .invAll r | .wbk r | .ftset r => r.sub
  | _ => .none

/-- The record's V bit (R36): its own field, or the value its table fixes. -/
def vOf (i : Instr) : Bool :=
  match i with
  | .pass r | .steerT r | .steerF r | .select r | .waveAdv r | .waveSet r | .loopGate r | .loopOpen r _ | .loopClose r
  | .spawn r | .tagGet r | .tagSet r | .tagThr r | .tagWav r | .call r | .ret r | .eosMake r | .errTest r | .errClear r
  | .errMake r _ | .ftsync _ r => r.v
  | .add r | .sub r | .mulLo r | .mulHis r | .mulHiu r | .divS r | .divU r | .remS r | .remU r | .and r | .or r | .xor r
  | .andn r | .shl r | .shrL r | .shrA r | .rotL r | .rotR r | .bcntClz r | .bcntCtz r | .bcntPopc r | .minS r | .minU r
  | .maxS r | .maxU r | .abs r | .cmp _ r | .ext _ r | .bfx r | .bfi r | .lea _ r | .addsS r | .addsU r | .mula r => r.v
  | .fadd r | .fsub r | .fmul r | .fma _ r | .fdiv r | .fsqrt r | .frcp r | .frsq r | .fexp2 r | .flog2 r | .fminNum r
  | .fminIeee r | .fmaxNum r | .fmaxIeee r | .fabs r | .fneg r | .fcps r | .fcmp _ r | .fcls r | .fcvtFf _ r | .fcvtFi r
  | .fcvtFiu r | .fcvtIf _ r | .fcvtIuf _ r | .frnd _ r | .fscl r | .fxp r => r.v
  | .ld r | .st r | .ldx r | .stx r | .mnop r | .pf r | .amo _ r | .cas r | .red _ r | .xred r | .xrd r | .fenceAcq r
  | .fenceRel r | .fenceAr r | .fenceSc r | .own r | .invRegion r | .invAll r | .wbk r | .ftset r => r.v
  | i => ((shape i).bind (·.v)).getD false

/-- The groups of the opcode map, as far as substitution tells them apart (R41, R42, R43). `fields` marks a class
whose IMM carries fields of its own, where substitution needs the extended word. -/
inductive Grp where
  | ctl | int | flt | vec | mem | noSub
  deriving DecidableEq, Repr

def grpOf : Instr → Grp
  | .pass _ | .steerT _ | .steerF _ | .select _ | .waveAdv _ | .waveSet _ | .loopGate _ | .loopOpen _ _ | .loopClose _
  | .spawn _ | .tagGet _ | .tagSet _ | .tagThr _ | .tagWav _ | .call _ | .ret _ | .eosMake _ | .errTest _ | .errClear _
  | .errMake _ _ | .const _ _ | .sysTrap _ _ | .sysBrk _ _ | .sysQry _ _ | .sysClk _ | .sinkDrop | .sinkEos | .sinkCount =>
    .ctl
  | .add _ | .sub _ | .mulLo _ | .mulHis _ | .mulHiu _ | .divS _ | .divU _ | .remS _ | .remU _ | .and _ | .or _ | .xor _
  | .andn _ | .shl _ | .shrL _ | .shrA _ | .rotL _ | .rotR _ | .bcntClz _ | .bcntCtz _ | .bcntPopc _ | .minS _ | .minU _
  | .maxS _ | .maxU _ | .abs _ | .cmp _ _ | .ext _ _ | .bfx _ | .bfi _ | .lea _ _ | .addsS _ | .addsU _ | .mula _ => .int
  | .fadd _ | .fsub _ | .fmul _ | .fma _ _ | .fdiv _ | .fsqrt _ | .frcp _ | .frsq _ | .fexp2 _ | .flog2 _ | .fminNum _
  | .fminIeee _ | .fmaxNum _ | .fmaxIeee _ | .fabs _ | .fneg _ | .fcps _ | .fcmp _ _ | .fcls _ | .fcvtFf _ _ | .fcvtFi _
  | .fcvtFiu _ | .fcvtIf _ _ | .fcvtIuf _ _ | .frnd _ _ | .fscl _ | .fxp _ => .flt
  | .vbcast _ | .vlaneGet _ | .vlanePut _ | .vshuf _ _ | .vperm _ | .vredAdd _ | .vredMax _ | .vredMin _ | .vredAmax _
  | .vscan _ | .vmask _ | .vsel _ | .vpack _ _ | .vunpk _ _ _ | .vbexp _ _ | .vqnt _ _ | .vdqnt _ _ | .vdot _ => .vec
  | .ld _ | .st _ | .ldx _ | .stx _ | .mnop _ | .pf _ | .amo _ _ | .cas _ | .red _ _ | .xred _ | .xrd _ | .fenceAcq _
  | .fenceRel _ | .fenceAr _ | .fenceSc _ | .own _ | .invRegion _ | .invAll _ | .wbk _ | .ftset _ | .ftget _ _
  | .ftsync _ _ => .mem
  | _ => .noSub

/-- Whether IMM carries fields of the instruction's own, so that substitution requires XI = 1 (R41). -/
def immFields : Instr → Bool
  | .const _ _ | .loopOpen _ _ | .errMake _ _ | .sysTrap _ _ | .sysBrk _ _ | .sysQry _ _ | .sysClk _ => true
  | .fcvtFf _ _ | .fcvtFi _ | .fcvtFiu _ | .fcvtIf _ _ | .fcvtIuf _ _ => true
  | .vshuf _ _ | .vpack _ _ | .vunpk _ _ _ | .vbexp _ _ | .vqnt _ _ | .vdqnt _ _ => true
  | i => decide (grpOf i = .mem)

/-- R41: the position may be substituted: used, not "*", some other used position stays token-fed, and the class
permits substitution. -/
def mayTake (i : Instr) (p : Pos) : Bool :=
  match shape i with
  | none => false
  | some sh =>
    decide (grpOf i ≠ .noSub) &&
    (match sh.at p with
     | some .star => false
     | some _ => true
     | none => false) &&
    ([Pos.a, .b, .c].any fun q => decide (q ≠ p) && (sh.at q).isSome)

/-- R41 and R44 for the substitution a record carries. -/
def substOk (i : Instr) : Bool :=
  match substOf i with
  | .none => true
  | .imm p _ => mayTake i p && !immFields i
  | .ext p _ => mayTake i p

/-- The positions fed by tokens: used and not substituted (R12). -/
def tokenFed (i : Instr) (p : Pos) : Bool :=
  match shape i with
  | none => false
  | some sh => (sh.at p).isSome &&
    (match substOf i with
     | .none => true
     | .imm q _ => decide (q ≠ p)
     | .ext q _ => decide (q ≠ p))

/-- Whether the record's result is 256 bits wide. -/
def resWide (i : Instr) : Bool :=
  match (shape i).bind (·.res) with
  | some w => (w.wide (vOf i)).getD false
  | none => false

end Sys2Proof.Machine
end

