-- ==== Sys2Proof/WellFormed.lean ====
section
/-! DEFINITION. Well-formed records: the values the class rules of R39 to R51 and R25 allow, beyond what the types of
`Instr` already say. The steps that are no records are well-formed with any arguments. -/
namespace Sys2Proof
open Sys2Proof.Machine

/-- At most four targets, none where the result is "none" (reason COUNT of Table 2.12). -/
def countOk (i : Instr) : Bool :=
  match shape i with
  | none => true
  | some sh => decide ((targetsOf i).length ≤ 4) && (sh.res.isSome || (targetsOf i).isEmpty)

/-- V as the table allows (reason VECTOR). -/
def vectorOk (i : Instr) : Bool :=
  match shape i with
  | none => true
  | some sh =>
    match sh.v with
    | none => true
    | some v => decide (vOf i = v)

/-- RM and SAT allowed (Tables 2.8 and 2.9). -/
def rmAllowed : Instr → Bool
  | .fadd _ | .fsub _ | .fmul _ | .fma _ _ | .fdiv _ | .fsqrt _ | .frcp _ | .frsq _ | .fexp2 _ | .flog2 _
  | .fcvtFf _ _ | .fcvtFi _ | .fcvtFiu _ | .fcvtIf _ _ | .fcvtIuf _ _ | .fscl _
  | .vredAdd _ | .vscan _ | .vpack _ _ | .vunpk _ _ _ | .vqnt _ _ | .vdqnt _ _ | .vdot _ => true
  | _ => false

/-- The negate bits allowed: of a, b and c (Table 2.8). -/
def negAllowed : Instr → Bool × Bool × Bool
  | .fadd _ | .fsub _ | .fmul _ | .fdiv _ | .fminNum _ | .fminIeee _ | .fmaxNum _ | .fmaxIeee _ | .fcps _ | .fcmp _ _ =>
    (true, true, false)
  | .fma _ _ => (true, true, true)
  | .fsqrt _ | .frcp _ | .frsq _ | .fexp2 _ | .flog2 _ | .fabs _ | .fneg _ | .frnd _ _ | .fscl _ => (true, false, false)
  | _ => (false, false, false)

def fltFields (i : Instr) (r : FltRec) : Bool :=
  (rmAllowed i || (r.rm.isNone && !r.sat)) && ((negAllowed i).1 || !r.na) && ((negAllowed i).2.1 || !r.nb) &&
  ((negAllowed i).2.2 || !r.nc)

/-- The FCVT forms from an integer have FS zero (R146). -/
def fsZero (r : FltRec) : Bool := decide (r.fs = 0#5)

def vecFields (i : Instr) (r : VecRec) : Bool := rmAllowed i || (r.rm.isNone && !r.sat)

/-- Integer MOD[39:38]: zero in a scalar form (R46). -/
def intFields (r : IntRec) : Bool := r.v || decide (r.lane = 0#2)

/-- Sequence fields (R25): zero with ORD = 0; otherwise OWN lies in 0 to 1021. -/
def seqOk (o : Ord) (q : Seq) : Bool :=
  match o with
  | .unord => decide (q.pred = 0#10 ∧ q.own = 0#10 ∧ q.succ = 0#10)
  | _ => decide (q.own.toNat ≤ 1021)

/-- ORD, SIZE, Scope and FS columns of Table 2.10; SCOPE is zero unless ORD is 2 or 3 or the column says "used" (R49). -/
def memFields (ords : List Ord) (sizes : List Size) (scopeUsed fsUsed : Bool) (r : MemRec) : Bool :=
  ords.contains r.ord && sizes.contains r.size && (fsUsed || decide (r.fs = 0#5)) &&
  (scopeUsed || decide (r.ord = .acq) || decide (r.ord = .rel) || decide (r.scope = .cl)) && seqOk r.ord r.seq

/-- Size column of LD and ST: 0 to 3 when V = 0, 4 when V = 1. -/
def ldSizes (v : Bool) : List Size := if v then [.v] else [.b, .h, .w, .d]

/-- Whether an AMO function is a float one (FN 9 to 11). -/
def AmoFn.isFloat : AmoFn → Bool
  | .fadd | .fmin | .fmax => true
  | _ => false

def amoSizes (fn : AmoFn) : List Size := if fn.isFloat then [.h, .w, .d] else [.w, .d]

/-- The field rules of each class (reason FIELD of Table 2.12), beyond reserved bits. -/
def fieldsOk : Instr → Bool
  | .loopOpen _ k => decide (1 ≤ k.toNat ∧ k.toNat ≤ 64)
  | .errMake _ code => decide (1 ≤ code.toNat ∧ code.toNat ≤ 10)
  | .sysQry sel _ => decide (sel.toNat ≤ 7)
  | .add r | .sub r | .mulLo r | .mulHis r | .mulHiu r | .divS r | .divU r | .remS r | .remU r | .and r | .or r | .xor r
  | .andn r | .shl r | .shrL r | .shrA r | .rotL r | .rotR r | .bcntClz r | .bcntCtz r | .bcntPopc r | .minS r | .minU r
  | .maxS r | .maxU r | .abs r | .cmp _ r | .ext _ r | .bfx r | .bfi r | .lea _ r | .addsS r | .addsU r | .mula r => intFields r
  | .fadd r => fltFields (.fadd r) r
  | .fsub r => fltFields (.fsub r) r
  | .fmul r => fltFields (.fmul r) r
  | .fma fn r => fltFields (.fma fn r) r
  | .fdiv r => fltFields (.fdiv r) r
  | .fsqrt r => fltFields (.fsqrt r) r
  | .frcp r => fltFields (.frcp r) r
  | .frsq r => fltFields (.frsq r) r
  | .fexp2 r => fltFields (.fexp2 r) r
  | .flog2 r => fltFields (.flog2 r) r
  | .fminNum r => fltFields (.fminNum r) r
  | .fminIeee r => fltFields (.fminIeee r) r
  | .fmaxNum r => fltFields (.fmaxNum r) r
  | .fmaxIeee r => fltFields (.fmaxIeee r) r
  | .fabs r => fltFields (.fabs r) r
  | .fneg r => fltFields (.fneg r) r
  | .fcps r => fltFields (.fcps r) r
  | .fcmp rel r => fltFields (.fcmp rel r) r
  | .fcls r => fltFields (.fcls r) r
  | .fcvtFf d r => fltFields (.fcvtFf d r) r
  | .fcvtFi r => fltFields (.fcvtFi r) r
  | .fcvtFiu r => fltFields (.fcvtFiu r) r
  | .fcvtIf d r => fltFields (.fcvtIf d r) r && fsZero r
  | .fcvtIuf d r => fltFields (.fcvtIuf d r) r && fsZero r
  | .frnd m r => fltFields (.frnd m r) r
  | .fscl r => fltFields (.fscl r) r
  | .fxp r => fltFields (.fxp r) r
  | .vbcast r => vecFields (.vbcast r) r
  | .vlaneGet r => vecFields (.vlaneGet r) r
  | .vlanePut r => vecFields (.vlanePut r) r
  | .vshuf p r => vecFields (.vshuf p r) r
  | .vperm r => vecFields (.vperm r) r
  | .vredMax r => vecFields (.vredMax r) r
  | .vredMin r => vecFields (.vredMin r) r
  | .vredAmax r => vecFields (.vredAmax r) r
  | .vmask r => vecFields (.vmask r) r
  | .vsel r => vecFields (.vsel r) r
  | .vbexp k r => vecFields (.vbexp k r) r
  | .ld r => memFields [.unord, .ord, .acq] (ldSizes r.v) false false r
  | .st r => memFields [.unord, .ord, .rel] (ldSizes r.v) false false r
  | .ldx r | .stx r => memFields [.unord, .ord] [.b, .h, .w, .d] false false r
  | .mnop r => memFields [.ord] [.b] false false r
  | .pf r => memFields [.unord] [.b] false false r
  | .amo fn r => memFields [.unord, .ord, .acq, .rel] (amoSizes fn) true fn.isFloat r
  | .cas r => memFields [.unord, .ord, .acq, .rel] [.w, .d] true false r
  | .red fn r => memFields [.unord, .ord, .rel] (amoSizes fn) true fn.isFloat r && decide (fn ≠ .swap)
  | .xred r => memFields [.unord, .ord, .rel] [.b] true true r
  | .xrd r => memFields [.unord, .ord, .acq] [.b] true true r
  | .fenceAcq r | .fenceRel r | .fenceAr r | .fenceSc r => memFields [.ord] [.b] true false r
  | .own r => memFields [.unord, .ord] [.w, .d, .v] false false r
  | .invRegion r | .invAll r | .wbk r => memFields [.ord] [.b] true false r
  | .ftset r => memFields [.ord] [.b] false true r
  | .xcopy r | .xgath r | .xscat r | .xtile r | .xfill r => decide (r.fs = 0#5) && seqOk .ord r.seq
  | .xacc r => seqOk .ord r.seq
  | .mmaAcca _ _ _ m => decide (m.ta.toNat ≤ 15)
  | .mmaMx sa sb _ | .mmaTwo _ _ sa sb _ => decide (sa ≠ 0xFF#8) && decide (sb ≠ 0xFF#8)
  | _ => true

/-- CONST's value sits in IMM or in the extended word; its position is written `.a` (R102). -/
def constOk : Instr → Bool
  | .const (.imm p _) _ => decide (p = .a)
  | .const (.ext p _) _ => decide (p = .a)
  | .const .none _ => false
  | _ => true

/-- A record that placement accepts by its own words (reasons 0x03 to 0x08 of Table 2.12). -/
def wellFormed (i : Instr) : Bool :=
  countOk i && vectorOk i && fieldsOk i && constOk i && substOk i

end Sys2Proof
end

