-- ==== Sys2Proof/Decode.lean ====
section
/-! DEFINITION. The decoder of records (R36 to R52), total on any list of 64-bit words, refusing by the reasons 0x03 to
0x09 of Table 2.12 in code order (R54), and the encoder beside it, from the same tables. -/
namespace Sys2Proof
open Sys2Proof.Machine

/-- Reasons 0x03 to 0x09 of Table 2.12, as far as the record's own words decide them. -/
inductive DecodeErr where
  | opcode | function | count | vector | field | immediate | target
  deriving DecidableEq, Repr

/-- The reason code of Table 2.12. -/
def DecodeErr.code : DecodeErr → Nat
  | .opcode => 0x03
  | .function => 0x04
  | .count => 0x05
  | .vector => 0x06
  | .field => 0x07
  | .immediate => 0x08
  | .target => 0x09

/-- The fields of a record's words before they have meanings (Table 2.3). -/
structure Raw where
  opc : BitVec 8
  fn  : BitVec 4
  fs  : BitVec 5
  v   : Bool
  nt  : BitVec 3
  ims : BitVec 2
  xi  : Bool
  md  : BitVec 8
  imm : W32
  ext : W64
  tw  : List W32
  deriving DecidableEq, Repr

def word (ws : List W64) (k : Nat) : W64 := ws.getD k 0#64

/-- The 32-bit halves of a word, high half first (R37: target 0 is bits [63:32]). -/
def halves (w : W64) : List W32 := [w.extractLsb' 32 32, w.extractLsb' 0 32]

/-- Length of a record in words: 1 + XI + ceil(NT/2) (R36). -/
def recordLen (xi : Bool) (nt : Nat) : Nat := 1 + (if xi then 1 else 0) + (nt + 1) / 2

/-- Table 2.3 read off the words; words the list lacks read as zero. -/
def rawOfWords (ws : List W64) : Raw :=
  let w := word ws 0
  let xi := w.getLsbD 40
  let t := if xi then 2 else 1
  { opc := w.extractLsb' 56 8, fn := w.extractLsb' 52 4, fs := w.extractLsb' 47 5, v := w.getLsbD 46,
    nt := w.extractLsb' 43 3, ims := w.extractLsb' 41 2, xi := xi, md := w.extractLsb' 32 8, imm := w.extractLsb' 0 32,
    ext := if xi then word ws 1 else 0#64,
    tw := halves (word ws t) ++ halves (word ws (t + 1)) }

/-- The words of raw fields: the operation word, the extended word when XI = 1, the target words (R36). -/
def wordsOfRaw (r : Raw) : List W64 :=
  [r.opc ++ r.fn ++ r.fs ++ BitVec.ofBool r.v ++ r.nt ++ r.ims ++ BitVec.ofBool r.xi ++ r.md ++ r.imm] ++
  (if r.xi then [r.ext] else []) ++
  (match r.nt.toNat with
   | 0 => []
   | 1 | 2 => [(r.tw.getD 0 0#32) ++ (r.tw.getD 1 0#32)]
   | _ => [(r.tw.getD 0 0#32) ++ (r.tw.getD 1 0#32), (r.tw.getD 2 0#32) ++ (r.tw.getD 3 0#32)])

/-- OPND (Table 2.4): 3 is invalid, refused by `decode` as reason TARGET. -/
def posOfBits (b : BitVec 2) : Pos := if b = 0#2 then .a else if b = 1#2 then .b else .c
def bitsOfPos : Pos → BitVec 2
  | .a => 0#2
  | .b => 1#2
  | .c => 2#2

def targetOfBits (w : W32) : Target :=
  { dx := w.extractLsb' 26 6, dy := w.extractLsb' 20 6, pe := w.extractLsb' 15 5, slot := w.extractLsb' 12 3,
    opnd := posOfBits (w.extractLsb' 10 2) }
def bitsOfTarget (t : Target) : W32 := t.dx ++ t.dy ++ t.pe ++ t.slot ++ bitsOfPos t.opnd ++ 0#10

/-- The targets NT counts; none when NT is 5 to 7. -/
def targetsOfRaw (r : Raw) : List Target := (r.tw.take (if r.nt.toNat ≤ 4 then r.nt.toNat else 0)).map targetOfBits

/-- IMS (R36): 0 none, 1 b, 2 c, 3 a. -/
def substOfRaw (r : Raw) : Subst :=
  let mk (p : Pos) : Subst := if r.xi then .ext p r.ext else .imm p r.imm
  if r.ims = 0#2 then .none else if r.ims = 1#2 then mk .b else if r.ims = 2#2 then mk .c else mk .a
def imsOf : Subst → BitVec 2
  | .none => 0#2
  | .imm .b _ | .ext .b _ => 1#2
  | .imm .c _ | .ext .c _ => 2#2
  | .imm .a _ | .ext .a _ => 3#2

def rmOfBits (b : BitVec 3) : Option Rm :=
  match b.toNat with
  | 1 => some .rne
  | 2 => some .rtz
  | 3 => some .rdn
  | 4 => some .rup
  | 5 => some .rna
  | _ => none
def bitsOfRm : Option Rm → BitVec 3
  | none => 0#3
  | some .rne => 1#3
  | some .rtz => 2#3
  | some .rdn => 3#3
  | some .rup => 4#3
  | some .rna => 5#3

def ordOfBits (b : BitVec 2) : Ord := if b = 0#2 then .unord else if b = 1#2 then .ord else if b = 2#2 then .acq else .rel
def bitsOfOrd : Ord → BitVec 2
  | .unord => 0#2
  | .ord => 1#2
  | .acq => 2#2
  | .rel => 3#2
def scopeOfBits (b : BitVec 2) : Scope := if b = 0#2 then .cl else if b = 1#2 then .die else if b = 2#2 then .dev else .sys
def bitsOfScope : Scope → BitVec 2
  | .cl => 0#2
  | .die => 1#2
  | .dev => 2#2
  | .sys => 3#2
/-- SIZE 5 to 7 are refused as reason FIELD: they read as 0 here and fail the comparison in `decode`. -/
def sizeOfBits (b : BitVec 3) : Size :=
  match b.toNat with
  | 1 => .h
  | 2 => .w
  | 3 => .d
  | 4 => .v
  | _ => .b
def bitsOfSize : Size → BitVec 3
  | .b => 0#3
  | .h => 1#3
  | .w => 2#3
  | .d => 3#3
  | .v => 4#3

def seqOfBits (imm : W32) : Seq :=
  { pred := imm.extractLsb' 20 10, own := imm.extractLsb' 10 10, succ := imm.extractLsb' 0 10 }
def bitsOfSeq (q : Seq) : W32 := 0#2 ++ q.pred ++ q.own ++ q.succ

def ctlOf (r : Raw) : CtlRec := { v := r.v, sub := substOfRaw r, tgts := targetsOfRaw r }
def intOf (r : Raw) : IntRec := { v := r.v, lane := r.md.extractLsb' 6 2, sub := substOfRaw r, tgts := targetsOfRaw r }
def fltOf (r : Raw) : FltRec :=
  { fs := r.fs, v := r.v, rm := rmOfBits (r.md.extractLsb' 5 3), sat := r.md.getLsbD 4, na := r.md.getLsbD 3,
    nb := r.md.getLsbD 2, nc := r.md.getLsbD 1, sub := substOfRaw r, tgts := targetsOfRaw r }
def vecOf (r : Raw) : VecRec :=
  { fs := r.fs, rm := rmOfBits (r.md.extractLsb' 5 3), sat := r.md.getLsbD 4, sub := substOfRaw r, tgts := targetsOfRaw r }
def memOf (r : Raw) : MemRec :=
  { fs := r.fs, v := r.v, ord := ordOfBits (r.md.extractLsb' 6 2), scope := scopeOfBits (r.md.extractLsb' 4 2),
    size := sizeOfBits (r.md.extractLsb' 1 3), nth := r.md.getLsbD 0, seq := seqOfBits r.imm, sub := substOfRaw r,
    tgts := targetsOfRaw r }
def xferOf (r : Raw) : XferRec := { fs := r.fs, nth := r.md.getLsbD 0, seq := seqOfBits r.imm, tgts := targetsOfRaw r }
def mmaOf (r : Raw) : MmaRec :=
  { d := r.imm.extractLsb' 24 4, ta := r.imm.extractLsb' 16 8, tb := r.imm.extractLsb' 8 8, tc := r.imm.extractLsb' 0 8,
    tgts := targetsOfRaw r }

/-- What the opcode map gives for OPC and FN: an unassigned opcode, an unassigned function of an assigned opcode, or the
instruction that the record's fields name (Tables 2.6 to 2.11, R52). -/
inductive Built where
  | badOpc
  | badFn
  | ok (i : Instr)
  deriving DecidableEq, Repr

/-- The instruction of FN among a list in FN order. -/
def pickFn (r : Raw) (l : List Instr) : Built :=
  match l[r.fn.toNat]? with
  | some i => .ok i
  | none => .badFn

def dst5 (r : Raw) : BitVec 5 := r.imm.extractLsb' 0 5
def h8 (r : Raw) : BitVec 8 := r.imm.extractLsb' 0 8
def h4 (r : Raw) : BitVec 4 := r.imm.extractLsb' 0 4
def src8 (r : Raw) : BitVec 8 := r.imm.extractLsb' 8 8
def accBit (r : Raw) : Bool := r.md.getLsbD 0

/-- The control group (Table 2.6). -/
def buildCtl (r : Raw) : Built :=
  let t := targetsOfRaw r
  match r.opc.toNat with
  | 0x01 => pickFn r [.pass (ctlOf r)]
  | 0x02 => pickFn r [.const (if r.xi then .ext .a r.ext else .imm .a r.imm) t]
  | 0x03 => pickFn r [.steerT (ctlOf r), .steerF (ctlOf r)]
  | 0x04 => pickFn r [.select (ctlOf r)]
  | 0x05 => pickFn r [.waveAdv (ctlOf r), .waveSet (ctlOf r)]
  | 0x06 => pickFn r [.loopGate (ctlOf r), .loopOpen (ctlOf r) (r.imm.extractLsb' 0 7), .loopClose (ctlOf r)]
  | 0x07 => pickFn r [.spawn (ctlOf r)]
  | 0x08 => pickFn r [.tagGet (ctlOf r), .tagSet (ctlOf r), .tagThr (ctlOf r), .tagWav (ctlOf r)]
  | 0x09 => pickFn r [.call (ctlOf r)]
  | 0x0A => pickFn r [.ret (ctlOf r)]
  | 0x0B => pickFn r [.sinkDrop, .sinkEos, .sinkCount]
  | 0x0C => pickFn r [.eosMake (ctlOf r)]
  | 0x0D => pickFn r [.errTest (ctlOf r), .errClear (ctlOf r), .errMake (ctlOf r) (h8 r)]
  | 0x0E => pickFn r [.sysTrap (r.imm.extractLsb' 0 16) t, .sysBrk (r.imm.extractLsb' 0 16) t, .sysQry (h8 r) t, .sysClk t]
  | _ => .badOpc

/-- The integer group (Table 2.7). -/
def buildInt (r : Raw) : Built :=
  let i := intOf r
  match r.opc.toNat with
  | 0x10 => pickFn r [.add i]
  | 0x11 => pickFn r [.sub i]
  | 0x12 => pickFn r [.mulLo i, .mulHis i, .mulHiu i]
  | 0x13 => pickFn r [.divS i, .divU i]
  | 0x14 => pickFn r [.remS i, .remU i]
  | 0x15 => pickFn r [.and i]
  | 0x16 => pickFn r [.or i]
  | 0x17 => pickFn r [.xor i]
  | 0x18 => pickFn r [.andn i]
  | 0x19 => pickFn r [.shl i]
  | 0x1A => pickFn r [.shrL i, .shrA i]
  | 0x1B => pickFn r [.rotL i, .rotR i]
  | 0x1C => pickFn r [.bcntClz i, .bcntCtz i, .bcntPopc i]
  | 0x1D => pickFn r [.minS i, .minU i]
  | 0x1E => pickFn r [.maxS i, .maxU i]
  | 0x1F => pickFn r [.abs i]
  | 0x20 => pickFn r [.cmp .eq i, .cmp .ne i, .cmp .lt i, .cmp .le i, .cmp .ltu i, .cmp .leu i, .cmp .gt i, .cmp .ge i,
      .cmp .gtu i, .cmp .geu i]
  | 0x21 => pickFn r [.ext .sb i, .ext .sh i, .ext .sw i, .ext .zb i, .ext .zh i, .ext .zw i]
  | 0x22 => pickFn r [.bfx i]
  | 0x23 => pickFn r [.bfi i]
  | 0x24 => pickFn r [.lea (r.md.extractLsb' 0 3) i]
  | 0x25 => pickFn r [.addsS i, .addsU i]
  | 0x26 => pickFn r [.mula i]
  | _ => .badOpc

/-- The float group (Table 2.8). FRND takes FN 1 to 5 only. -/
def buildFlt (r : Raw) : Built :=
  let f := fltOf r
  match r.opc.toNat with
  | 0x30 => pickFn r [.fadd f]
  | 0x31 => pickFn r [.fsub f]
  | 0x32 => pickFn r [.fmul f]
  | 0x33 => pickFn r [.fma .pp f, .fma .pn f, .fma .np f, .fma .nn f]
  | 0x34 => pickFn r [.fdiv f]
  | 0x35 => pickFn r [.fsqrt f]
  | 0x36 => pickFn r [.frcp f]
  | 0x37 => pickFn r [.frsq f]
  | 0x38 => pickFn r [.fexp2 f]
  | 0x39 => pickFn r [.flog2 f]
  | 0x3A => pickFn r [.fminNum f, .fminIeee f]
  | 0x3B => pickFn r [.fmaxNum f, .fmaxIeee f]
  | 0x3C => pickFn r [.fabs f]
  | 0x3D => pickFn r [.fneg f]
  | 0x3E => pickFn r [.fcps f]
  | 0x3F => pickFn r [.fcmp .eq f, .fcmp .ne f, .fcmp .lt f, .fcmp .le f, .fcmp .gt f, .fcmp .ge f, .fcmp .un f,
      .fcmp .or f]
  | 0x40 => pickFn r [.fcls f]
  | 0x41 => pickFn r [.fcvtFf (dst5 r) f, .fcvtFi f, .fcvtFiu f, .fcvtIf (dst5 r) f, .fcvtIuf (dst5 r) f]
  | 0x42 =>
    if r.fn = 0#4 then .badFn
    else pickFn { r with fn := r.fn - 1#4 } [.frnd .rne f, .frnd .rtz f, .frnd .rdn f, .frnd .rup f, .frnd .rna f]
  | 0x43 => pickFn r [.fscl f]
  | 0x44 => pickFn r [.fxp f]
  | _ => .badOpc

/-- The vector group (Table 2.9). -/
def buildVec (r : Raw) : Built :=
  let f := vecOf r
  match r.opc.toNat with
  | 0x50 => pickFn r [.vbcast f]
  | 0x51 => pickFn r [.vlaneGet f, .vlanePut f]
  | 0x52 => pickFn r [.vshuf r.imm f]
  | 0x53 => pickFn r [.vperm f]
  | 0x54 => pickFn r [.vredAdd f, .vredMax f, .vredMin f, .vredAmax f]
  | 0x55 => pickFn r [.vscan f]
  | 0x56 => pickFn r [.vmask f]
  | 0x57 => pickFn r [.vsel f]
  | 0x58 => pickFn r [.vpack (dst5 r) f]
  | 0x59 => pickFn r [.vunpk (dst5 r) (r.imm.getLsbD 5) f]
  | 0x5A => pickFn r [.vbexp (dst5 r) f]
  | 0x5B => pickFn r [.vqnt (dst5 r) f]
  | 0x5C => pickFn r [.vdqnt (dst5 r) f]
  | 0x5D => pickFn r [.vdot f]
  | _ => .badOpc

/-- The memory, atomic, coherence and format-table groups (Table 2.10). FN 8 of RED is unassigned (R52). -/
def buildMem (r : Raw) : Built :=
  let m := memOf r
  match r.opc.toNat with
  | 0x60 => pickFn r [.ld m]
  | 0x61 => pickFn r [.st m]
  | 0x62 => pickFn r [.ldx m]
  | 0x63 => pickFn r [.stx m]
  | 0x64 => pickFn r [.mnop m]
  | 0x65 => pickFn r [.pf m]
  | 0x70 => pickFn r [.amo .add m, .amo .and m, .amo .or m, .amo .xor m, .amo .min m, .amo .max m, .amo .minu m,
      .amo .maxu m, .amo .swap m, .amo .fadd m, .amo .fmin m, .amo .fmax m]
  | 0x71 => pickFn r [.cas m]
  | 0x72 =>
    if r.fn = 8#4 then .badFn
    else pickFn r [.red .add m, .red .and m, .red .or m, .red .xor m, .red .min m, .red .max m, .red .minu m,
      .red .maxu m, .red .swap m, .red .fadd m, .red .fmin m, .red .fmax m]
  | 0x73 => pickFn r [.xred m]
  | 0x74 => pickFn r [.xrd m]
  | 0x75 => pickFn r [.fenceAcq m, .fenceRel m, .fenceAr m, .fenceSc m]
  | 0x80 => pickFn r [.own m]
  | 0x81 => pickFn r [.invRegion m, .invAll m]
  | 0x82 => pickFn r [.wbk m]
  | 0x88 => pickFn r [.ftset m]
  | 0x89 => pickFn r [.ftget r.fs (targetsOfRaw r)]
  | 0x8A => pickFn r [.ftsync r.fs (ctlOf r)]
  | _ => .badOpc

/-- The tile, matrix and transfer groups (Table 2.11). -/
def buildTile (r : Raw) : Built :=
  let t := targetsOfRaw r
  let acc (x y : Instr) : Instr := if accBit r then x else y
  match r.opc.toNat with
  | 0x90 => pickFn r [acc (.tldAcc (h4 r) t) (.tld (h8 r) t)]
  | 0x91 => pickFn r [acc (.tstAcc (h4 r) t) (.tst (h8 r) t)]
  | 0x92 => pickFn r [acc (.tzeroAcc (h4 r) t) (.tzero (h8 r) t)]
  | 0x93 => pickFn r [.tempty (h8 r) t]
  | 0x94 => pickFn r [.tcvt (src8 r) (h8 r) t]
  | 0x95 => pickFn r [.ttrn (src8 r) (h8 r) t]
  | 0x96 => pickFn r [.tdesc (h8 r) t]
  | 0x97 => pickFn r [.mmaDense (mmaOf r),
      .mmaAcca r.fs (r.md.getLsbD 7) (r.md.extractLsb' 1 6) (mmaOf r),
      .mmaMx (r.ext.extractLsb' 8 8) (r.ext.extractLsb' 0 8) (mmaOf r),
      .mmaTwo (r.ext.extractLsb' 24 8) (r.ext.extractLsb' 16 8) (r.ext.extractLsb' 8 8) (r.ext.extractLsb' 0 8) (mmaOf r)]
  | 0x98 => pickFn r [.isect t]
  | 0x99 => pickFn r [.sstrm r.fs t]
  | 0x9A => pickFn r [.spacc (h8 r) t]
  | 0x9B => pickFn r [acc (.tqryAcc (h4 r) t) (.tqry (h8 r) t)]
  | 0xB0 => pickFn r [.xcopy (xferOf r)]
  | 0xB1 => pickFn r [.xgath (xferOf r)]
  | 0xB2 => pickFn r [.xscat (xferOf r)]
  | 0xB3 => pickFn r [.xtile (xferOf r)]
  | 0xB4 => pickFn r [.xfill (xferOf r)]
  | 0xB5 => pickFn r [.xacc (xferOf r)]
  | _ => .badOpc

/-- The opcode map, split by the high bits of OPC. -/
def build (r : Raw) : Built :=
  if r.opc.toNat < 0x10 then buildCtl r
  else if r.opc.toNat < 0x30 then buildInt r
  else if r.opc.toNat < 0x50 then buildFlt r
  else if r.opc.toNat < 0x60 then buildVec r
  else if r.opc.toNat < 0x90 then buildMem r
  else buildTile r

/-- IMM and the extended word that a substitution takes (R42). -/
def subImm : Subst → W32
  | .imm _ v => v
  | _ => 0#32
def subExt : Subst → W64
  | .ext _ v => v
  | _ => 0#64
def subXi : Subst → Bool
  | .ext _ _ => true
  | _ => false

/-- MOD of each class. -/
def intMod (r : IntRec) (sh : BitVec 3) : BitVec 8 := r.lane ++ 0#3 ++ sh
def fltMod (r : FltRec) : BitVec 8 :=
  bitsOfRm r.rm ++ BitVec.ofBool r.sat ++ BitVec.ofBool r.na ++ BitVec.ofBool r.nb ++ BitVec.ofBool r.nc ++ 0#1
def vecMod (r : VecRec) : BitVec 8 := bitsOfRm r.rm ++ BitVec.ofBool r.sat ++ 0#4
def memMod (r : MemRec) : BitVec 8 := bitsOfOrd r.ord ++ bitsOfScope r.scope ++ bitsOfSize r.size ++ BitVec.ofBool r.nth
def xferMod (r : XferRec) : BitVec 8 := 0x40#8 ||| (0#7 ++ BitVec.ofBool r.nth)

/-- OPC and FN. -/
def opcFn : Instr → Nat × Nat
  | .pass _ => (0x01, 0)
  | .const _ _ => (0x02, 0)
  | .steerT _ => (0x03, 0)
  | .steerF _ => (0x03, 1)
  | .select _ => (0x04, 0)
  | .waveAdv _ => (0x05, 0)
  | .waveSet _ => (0x05, 1)
  | .loopGate _ => (0x06, 0)
  | .loopOpen _ _ => (0x06, 1)
  | .loopClose _ => (0x06, 2)
  | .spawn _ => (0x07, 0)
  | .tagGet _ => (0x08, 0)
  | .tagSet _ => (0x08, 1)
  | .tagThr _ => (0x08, 2)
  | .tagWav _ => (0x08, 3)
  | .call _ => (0x09, 0)
  | .ret _ => (0x0A, 0)
  | .sinkDrop => (0x0B, 0)
  | .sinkEos => (0x0B, 1)
  | .sinkCount => (0x0B, 2)
  | .eosMake _ => (0x0C, 0)
  | .errTest _ => (0x0D, 0)
  | .errClear _ => (0x0D, 1)
  | .errMake _ _ => (0x0D, 2)
  | .sysTrap _ _ => (0x0E, 0)
  | .sysBrk _ _ => (0x0E, 1)
  | .sysQry _ _ => (0x0E, 2)
  | .sysClk _ => (0x0E, 3)
  | .add _ => (0x10, 0)
  | .sub _ => (0x11, 0)
  | .mulLo _ => (0x12, 0)
  | .mulHis _ => (0x12, 1)
  | .mulHiu _ => (0x12, 2)
  | .divS _ => (0x13, 0)
  | .divU _ => (0x13, 1)
  | .remS _ => (0x14, 0)
  | .remU _ => (0x14, 1)
  | .and _ => (0x15, 0)
  | .or _ => (0x16, 0)
  | .xor _ => (0x17, 0)
  | .andn _ => (0x18, 0)
  | .shl _ => (0x19, 0)
  | .shrL _ => (0x1A, 0)
  | .shrA _ => (0x1A, 1)
  | .rotL _ => (0x1B, 0)
  | .rotR _ => (0x1B, 1)
  | .bcntClz _ => (0x1C, 0)
  | .bcntCtz _ => (0x1C, 1)
  | .bcntPopc _ => (0x1C, 2)
  | .minS _ => (0x1D, 0)
  | .minU _ => (0x1D, 1)
  | .maxS _ => (0x1E, 0)
  | .maxU _ => (0x1E, 1)
  | .abs _ => (0x1F, 0)
  | .cmp r _ => (0x20, match r with
      | .eq => 0 | .ne => 1 | .lt => 2 | .le => 3 | .ltu => 4 | .leu => 5 | .gt => 6 | .ge => 7 | .gtu => 8 | .geu => 9)
  | .ext f _ => (0x21, match f with
      | .sb => 0 | .sh => 1 | .sw => 2 | .zb => 3 | .zh => 4 | .zw => 5)
  | .bfx _ => (0x22, 0)
  | .bfi _ => (0x23, 0)
  | .lea _ _ => (0x24, 0)
  | .addsS _ => (0x25, 0)
  | .addsU _ => (0x25, 1)
  | .mula _ => (0x26, 0)
  | .fadd _ => (0x30, 0)
  | .fsub _ => (0x31, 0)
  | .fmul _ => (0x32, 0)
  | .fma f _ => (0x33, match f with
      | .pp => 0 | .pn => 1 | .np => 2 | .nn => 3)
  | .fdiv _ => (0x34, 0)
  | .fsqrt _ => (0x35, 0)
  | .frcp _ => (0x36, 0)
  | .frsq _ => (0x37, 0)
  | .fexp2 _ => (0x38, 0)
  | .flog2 _ => (0x39, 0)
  | .fminNum _ => (0x3A, 0)
  | .fminIeee _ => (0x3A, 1)
  | .fmaxNum _ => (0x3B, 0)
  | .fmaxIeee _ => (0x3B, 1)
  | .fabs _ => (0x3C, 0)
  | .fneg _ => (0x3D, 0)
  | .fcps _ => (0x3E, 0)
  | .fcmp r _ => (0x3F, match r with
      | .eq => 0 | .ne => 1 | .lt => 2 | .le => 3 | .gt => 4 | .ge => 5 | .un => 6 | .or => 7)
  | .fcls _ => (0x40, 0)
  | .fcvtFf _ _ => (0x41, 0)
  | .fcvtFi _ => (0x41, 1)
  | .fcvtFiu _ => (0x41, 2)
  | .fcvtIf _ _ => (0x41, 3)
  | .fcvtIuf _ _ => (0x41, 4)
  | .frnd m _ => (0x42, match m with
      | .rne => 1 | .rtz => 2 | .rdn => 3 | .rup => 4 | .rna => 5)
  | .fscl _ => (0x43, 0)
  | .fxp _ => (0x44, 0)
  | .vbcast _ => (0x50, 0)
  | .vlaneGet _ => (0x51, 0)
  | .vlanePut _ => (0x51, 1)
  | .vshuf _ _ => (0x52, 0)
  | .vperm _ => (0x53, 0)
  | .vredAdd _ => (0x54, 0)
  | .vredMax _ => (0x54, 1)
  | .vredMin _ => (0x54, 2)
  | .vredAmax _ => (0x54, 3)
  | .vscan _ => (0x55, 0)
  | .vmask _ => (0x56, 0)
  | .vsel _ => (0x57, 0)
  | .vpack _ _ => (0x58, 0)
  | .vunpk _ _ _ => (0x59, 0)
  | .vbexp _ _ => (0x5A, 0)
  | .vqnt _ _ => (0x5B, 0)
  | .vdqnt _ _ => (0x5C, 0)
  | .vdot _ => (0x5D, 0)
  | .ld _ => (0x60, 0)
  | .st _ => (0x61, 0)
  | .ldx _ => (0x62, 0)
  | .stx _ => (0x63, 0)
  | .mnop _ => (0x64, 0)
  | .pf _ => (0x65, 0)
  | .amo f _ => (0x70, amoFn f)
  | .cas _ => (0x71, 0)
  | .red f _ => (0x72, amoFn f)
  | .xred _ => (0x73, 0)
  | .xrd _ => (0x74, 0)
  | .fenceAcq _ => (0x75, 0)
  | .fenceRel _ => (0x75, 1)
  | .fenceAr _ => (0x75, 2)
  | .fenceSc _ => (0x75, 3)
  | .own _ => (0x80, 0)
  | .invRegion _ => (0x81, 0)
  | .invAll _ => (0x81, 1)
  | .wbk _ => (0x82, 0)
  | .ftset _ => (0x88, 0)
  | .ftget _ _ => (0x89, 0)
  | .ftsync _ _ => (0x8A, 0)
  | .tld _ _ | .tldAcc _ _ => (0x90, 0)
  | .tst _ _ | .tstAcc _ _ => (0x91, 0)
  | .tzero _ _ | .tzeroAcc _ _ => (0x92, 0)
  | .tempty _ _ => (0x93, 0)
  | .tcvt _ _ _ => (0x94, 0)
  | .ttrn _ _ _ => (0x95, 0)
  | .tdesc _ _ => (0x96, 0)
  | .mmaDense _ => (0x97, 0)
  | .mmaAcca _ _ _ _ => (0x97, 1)
  | .mmaMx _ _ _ => (0x97, 2)
  | .mmaTwo _ _ _ _ _ => (0x97, 3)
  | .isect _ => (0x98, 0)
  | .sstrm _ _ => (0x99, 0)
  | .spacc _ _ => (0x9A, 0)
  | .tqry _ _ | .tqryAcc _ _ => (0x9B, 0)
  | .xcopy _ => (0xB0, 0)
  | .xgath _ => (0xB1, 0)
  | .xscat _ => (0xB2, 0)
  | .xtile _ => (0xB3, 0)
  | .xfill _ => (0xB4, 0)
  | .xacc _ => (0xB5, 0)
  | _ => (0x00, 0)
where
  amoFn : AmoFn → Nat
    | .add => 0
    | .and => 1
    | .or => 2
    | .xor => 3
    | .min => 4
    | .max => 5
    | .minu => 6
    | .maxu => 7
    | .swap => 8
    | .fadd => 9
    | .fmin => 10
    | .fmax => 11

/-- FS: the field where the class uses one, otherwise zero (R36). -/
def fsOf : Instr → BitVec 5
  | .fadd r | .fsub r | .fmul r | .fma _ r | .fdiv r | .fsqrt r | .frcp r | .frsq r | .fexp2 r | .flog2 r | .fminNum r
  | .fminIeee r | .fmaxNum r | .fmaxIeee r | .fabs r | .fneg r | .fcps r | .fcmp _ r | .fcls r | .fcvtFf _ r | .fcvtFi r
  | .fcvtFiu r | .fcvtIf _ r | .fcvtIuf _ r | .frnd _ r | .fscl r | .fxp r => r.fs
  | .vbcast r | .vlaneGet r | .vlanePut r | .vshuf _ r | .vperm r | .vredAdd r | .vredMax r | .vredMin r | .vredAmax r
  | .vscan r | .vmask r | .vsel r | .vpack _ r | .vunpk _ _ r | .vbexp _ r | .vqnt _ r | .vdqnt _ r | .vdot r => r.fs
  | .ld r | .st r | .ldx r | .stx r | .mnop r | .pf r | .amo _ r | .cas r | .red _ r | .xred r | .xrd r | .fenceAcq r
  | .fenceRel r | .fenceAr r | .fenceSc r | .own r | .invRegion r | .invAll r | .wbk r | .ftset r => r.fs
  | .ftget fs _ | .ftsync fs _ | .sstrm fs _ | .mmaAcca fs _ _ _ => fs
  | .xcopy r | .xgath r | .xscat r | .xtile r | .xfill r | .xacc r => r.fs
  | _ => 0#5

/-- MOD (R45 to R51). -/
def modOf : Instr → BitVec 8
  | .add r | .sub r | .mulLo r | .mulHis r | .mulHiu r | .divS r | .divU r | .remS r | .remU r | .and r | .or r | .xor r
  | .andn r | .shl r | .shrL r | .shrA r | .rotL r | .rotR r | .bcntClz r | .bcntCtz r | .bcntPopc r | .minS r | .minU r
  | .maxS r | .maxU r | .abs r | .cmp _ r | .ext _ r | .bfx r | .bfi r | .addsS r | .addsU r | .mula r => intMod r 0#3
  | .lea sh r => intMod r sh
  | .fadd r | .fsub r | .fmul r | .fma _ r | .fdiv r | .fsqrt r | .frcp r | .frsq r | .fexp2 r | .flog2 r | .fminNum r
  | .fminIeee r | .fmaxNum r | .fmaxIeee r | .fabs r | .fneg r | .fcps r | .fcmp _ r | .fcls r | .fcvtFf _ r | .fcvtFi r
  | .fcvtFiu r | .fcvtIf _ r | .fcvtIuf _ r | .frnd _ r | .fscl r | .fxp r => fltMod r
  | .vbcast r | .vlaneGet r | .vlanePut r | .vshuf _ r | .vperm r | .vredAdd r | .vredMax r | .vredMin r | .vredAmax r
  | .vscan r | .vmask r | .vsel r | .vpack _ r | .vunpk _ _ r | .vbexp _ r | .vqnt _ r | .vdqnt _ r | .vdot r => vecMod r
  | .ld r | .st r | .ldx r | .stx r | .mnop r | .pf r | .amo _ r | .cas r | .red _ r | .xred r | .xrd r | .fenceAcq r
  | .fenceRel r | .fenceAr r | .fenceSc r | .own r | .invRegion r | .invAll r | .wbk r | .ftset r => memMod r
  | .tldAcc _ _ | .tstAcc _ _ | .tzeroAcc _ _ | .tqryAcc _ _ => 1#8
  | .mmaAcca _ clmp psh _ => BitVec.ofBool clmp ++ psh ++ 0#1
  | .xcopy r | .xgath r | .xscat r | .xtile r | .xfill r | .xacc r => xferMod r
  | _ => 0#8

def mmaImm (m : MmaRec) : W32 := 0#4 ++ m.d ++ m.ta ++ m.tb ++ m.tc

/-- IMM (R45 to R51): class fields, or what a substitution takes. -/
def immOf : Instr → W32
  | .const v _ => subImm v
  | .loopOpen _ k => 0#25 ++ k
  | .errMake _ c => 0#24 ++ c
  | .sysTrap c _ | .sysBrk c _ => 0#16 ++ c
  | .sysQry s _ => 0#24 ++ s
  | .fcvtFf d _ | .fcvtIf d _ | .fcvtIuf d _ => 0#27 ++ d
  | .fcvtFi _ | .fcvtFiu _ => 0#32
  | .vshuf p _ => p
  | .vpack d _ | .vqnt d _ | .vdqnt d _ | .vbexp d _ => 0#27 ++ d
  | .vunpk d h _ => 0#26 ++ BitVec.ofBool h ++ d
  | .ld r | .st r | .ldx r | .stx r | .mnop r | .pf r | .amo _ r | .cas r | .red _ r | .xred r | .xrd r | .fenceAcq r
  | .fenceRel r | .fenceAr r | .fenceSc r | .own r | .invRegion r | .invAll r | .wbk r | .ftset r => bitsOfSeq r.seq
  | .xcopy r | .xgath r | .xscat r | .xtile r | .xfill r | .xacc r => bitsOfSeq r.seq
  | .tld h _ | .tst h _ | .tzero h _ | .tempty h _ | .tdesc h _ | .tqry h _ | .spacc h _ => 0#24 ++ h
  | .tldAcc h _ | .tstAcc h _ | .tzeroAcc h _ | .tqryAcc h _ => 0#28 ++ h
  | .tcvt s d _ | .ttrn s d _ => 0#16 ++ s ++ d
  | .mmaDense m | .mmaAcca _ _ _ m | .mmaMx _ _ m | .mmaTwo _ _ _ _ m => mmaImm m
  | .ftget _ _ => 0#32
  | .ftsync _ _ => 0#32
  | i => subImm (substOf i)

/-- The extended word and whether it is present (R44). -/
def extOf : Instr → Option W64
  | .const (.ext _ v) _ => some v
  | .const _ _ => none
  | .mmaMx sa sb _ => some (0#48 ++ sa ++ sb)
  | .mmaTwo ba bb sa sb _ => some (0#32 ++ ba ++ bb ++ sa ++ sb)
  | i =>
    match substOf i with
    | .ext _ v => some v
    | _ => none

/-- The raw fields of an instruction that is a record. -/
def rawOf (i : Instr) : Raw :=
  let t := (targetsOf i).map bitsOfTarget
  { opc := BitVec.ofNat 8 (opcFn i).1, fn := BitVec.ofNat 4 (opcFn i).2, fs := fsOf i, v := vOf i,
    nt := BitVec.ofNat 3 (targetsOf i).length, ims := imsOf (substOf i), xi := (extOf i).isSome, md := modOf i,
    imm := immOf i, ext := (extOf i).getD 0#64,
    tw := [t.getD 0 0#32, t.getD 1 0#32, t.getD 2 0#32, t.getD 3 0#32] }

/-- The record's words (R36). -/
def encode (i : Instr) : List W64 := wordsOfRaw (rawOf i)

/-- Target half-words judged under FIELD: bits [9:0] of each target, and the unused low half when NT is odd (R37). -/
def targetBitsOk (r : Raw) : Bool :=
  let n := r.nt.toNat
  ((r.tw.take n).all fun w => decide (w.extractLsb' 0 10 = 0#10)) &&
  (n % 2 == 0 || decide (r.tw.getD n 0#32 = 0#32))

/-- A requested substitution that R41 refuses. -/
def subRefused (i : Instr) (r : Raw) : Bool := decide (r.ims ≠ 0#2) && (decide (substOf i = .none) || !substOk i)

/-- R54: the IMM bits are judged under FIELD unless a refused substitution with XI = 0 would take them. -/
def immJudged (i : Instr) (r : Raw) : Bool := r.xi || !subRefused i r

/-- The class rules of reason FIELD. What a refused substitution would take, the extended word or IMM, is not judged (R54, Table
2.12): some value of it must pass, and one of 0 and 1 does wherever any does. -/
def classOk (i : Instr) (r : Raw) : Bool :=
  if subRefused i r then
    [0#32, 1#32].any fun m =>
      match build (if r.xi then { r with ext := 0#64 } else { r with imm := m }) with
      | .ok j => fieldsOk j
      | _ => false
  else fieldsOk i

/-- Reason FIELD: class rules, and every bit of FS, MOD, IMM and the extended word that the fields do not account for. -/
def fieldOk (i : Instr) (r : Raw) : Bool :=
  let e := rawOf i
  classOk i r && decide (e.fs = r.fs) && decide (e.md = r.md) && (!immJudged i r || decide (e.imm = r.imm)) &&
  (!(r.xi && e.xi && decide (r.ims = 0#2)) || decide (e.ext = r.ext)) && targetBitsOk r

/-- Reason IMMEDIATE: IMS against R41, XI against R44. -/
def immediateOk (i : Instr) (r : Raw) : Bool :=
  let e := rawOf i
  decide (e.ims = r.ims) && decide (e.xi = r.xi) && substOk i

/-- Reason TARGET, as far as the record's own words decide it: OPND 3. -/
def opndOk (r : Raw) : Bool := (r.tw.take r.nt.toNat).all fun w => decide (w.extractLsb' 10 2 ≠ 3#2)

/-- The instruction of a record's words against reasons 0x03 to 0x08, in code order (R54): what an edge into its slot is
judged by. -/
def decodeBody (ws : List W64) : Except DecodeErr Instr :=
  let r := rawOfWords ws
  match build r with
  | .badOpc => .error .opcode
  | .badFn => .error .function
  | .ok i =>
    if !(decide (r.nt.toNat ≤ 4) && ((shape i).any (·.res.isSome) || decide (r.nt = 0#3))) then .error .count
    else if !((((shape i).bind (·.v)).all fun v => decide (v = r.v)) && decide (vOf i = r.v)) then .error .vector
    else if !fieldOk i r then .error .field
    else if !immediateOk i r then .error .immediate
    else .ok i

/-- The decoder: the instruction of a record's words, or the first reason that refuses it, in code order (R54). -/
def decode (ws : List W64) : Except DecodeErr Instr :=
  match decodeBody ws with
  | .error e => .error e
  | .ok i => if !opndOk (rawOfWords ws) then .error .target else .ok i

/-- The number of words of the record that begins with this operation word (R36). -/
def wordsNeeded (w : W64) : Nat := recordLen (w.getLsbD 40) (w.extractLsb' 43 3).toNat

/-- The host's probe of the decoder: bit 0 is the least significant bit of the operation word, later words count on from
it; the bits above `nbits` are zero, up to the longest record of four words (R36). -/
def tableWords (nbits w : Nat) : List W64 :=
  let x := w % 2 ^ (min nbits 256)
  [BitVec.ofNat 64 x, BitVec.ofNat 64 (x >>> 64), BitVec.ofNat 64 (x >>> 128), BitVec.ofNat 64 (x >>> 192)]

def decodeTableWord (nbits w : Nat) : Option Instr :=
  match decode (tableWords nbits w) with
  | .ok i => some i
  | .error _ => none

end Sys2Proof
end

