-- ==== Sys2Proof/Config.lean ====
section
/-! DEFINITION. What the spec leaves open: free values (constants without a body, so that no proof can see them)
and the few values of one implementation. -/
namespace Sys2Proof

/-- How many counts of the 1 GHz timestamp pass in the machine's n-th step (R5: no figure binds; assumption 1). -/
opaque Config.tick : Nat → BitVec 16

/-- The data key that a peer node has loaded under a key ID: a fact of that node (R395, R397; assumption 17). -/
opaque Config.peerKey : BitVec 20 → Nat → W256

/-- Which of the translations that its slice has cached for an address an access uses, or, past their number, that it walks: in the n-th step,
for an address, for the k-th access from the last (R347, R348; assumption 9). -/
opaque Config.tlbPick : Nat → Nat → Nat → Nat

/-- The translation slice of a die that serves an address, "a fixed hash of VA[55:16]" (R347; assumption 5). -/
opaque Config.tlbSlice : Nat → Fin 64

/-- STEP, the silicon stepping, "per part" (R385; assumption 4). -/
opaque Config.stepping : BitVec 8

/-- The home slice chosen "by a fixed hash of the physical line address" within a die (R207; assumption 5). -/
opaque Config.homeSlice : Nat → Fin 128

/-- The stack of a die that holds a device address, "a fixed hash, not visible to software" (R379; assumption 5). -/
opaque Config.stackOf : Nat → Fin 3

/-- The HBM channel, of all channels of the package, that holds a sector; not visible to software (R379, R409; assumption 5). -/
opaque Config.channelOf : Nat → Nat

/-- The set of a directory array in which a sector's entry stands (R226; assumption 5). -/
opaque Config.dirSet : Nat → Nat

/-- The ordering lane, "a fixed hash of target address bits [51:8]" (R400; assumption 5). -/
opaque Config.lane : Nat → Fin 16

/-- The 56-bit MAC of an integrity sector: data key, stored bytes, PA[51:6], MAJOR, MINOR. The spec gives neither the
function nor the derivation of the MAC key (R416; assumption 6). -/
opaque Config.mac : W256 → List Byte → Nat → Nat → Nat → BitVec 56

/-- The end-to-end code of a sector: stored bytes, metadata bits [15:0], PA[51:6]. The spec names a symbol code over 8-bit symbols, not which
(R408; assumption 59). -/
opaque Config.e2e : List Byte → BitVec 16 → Nat → BitVec 48

/-- The SEC-DED check over a directory byte; the spec does not say which code (R407; assumption 59). -/
opaque Config.dchk : BitVec 8 → BitVec 5

/-- The 56-bit MAC that a tree node keeps of a child: the child's level and number, and its fields. The spec does not give the function (R415,
R416; assumption 6). -/
opaque Config.treeMac : Nat → Nat → List Nat → BitVec 56

/-- The bits an element keeps when a tile instruction ends on poison: "its earlier bits or the loaded bits" (R276),
and which of two overlapping writes remains (R268, R278): true takes the new bits (assumption 7). -/
opaque Config.tearNew : Nat → Bool

/-- The source element whose value a destination container that overlaps the source holds: "some element" (R278; assumption 7). -/
opaque Config.overlapFrom : Nat → Nat

/-- FXP's lane where floor(log2) does not fit in a lane of that width: the spec states no result. By the entry and the
code (R149; assumption 13). -/
opaque Config.fxpLane : W64 → Nat → Nat

/-- How far past the next element or chunk a lookahead reads when the n-th choice is made: the spec allows it and bounds it (R289, R316, R351;
assumption 55). -/
opaque Config.readAhead : Nat → Nat

/-- The address in the POISON token of an instruction that met an error in a tile or accumulator store, where there is no
memory address: the spec gives none (R411; assumption 29). -/
opaque Config.poisonAddr : Nat → BitVec 56

end Sys2Proof
end

