-- ==== Sys2Proof/Machine/State.lean ====
section
/-! DEFINITION. The whole state of the part as plain data, and the state right after a cold reset. -/
namespace Sys2Proof.Machine

/-- Why the machine stops. -/
inductive Fault where
  /-- Raised by `step` alone: the slot chosen to fire holds words that do not decode. Placement loads only records it has
  accepted (R11, R53), so no run reaches it; safe. -/
  | badRecord
  deriving DecidableEq, Repr

/-- Why an instruction has no meaning. -/
inductive Refusal where
  /-- Raised by an arm of `exec` whose instruction has no meaning yet; safe. -/
  | notModelled (mnemonic : String)
  deriving DecidableEq, Repr

/-- Byte memory: strictly rising addresses, no listed byte zero; an unlisted byte reads zero (R428; assumption 2). -/
abbrev Memory := List Host.Cell

/-- What moves next: a PE selects and fires a record (R16), or one of the part's steps or inputs takes place. -/
inductive Pick where
  | fire (cl pe : Nat)
  | event (i : Instr)
  deriving DecidableEq, Repr

/-- The record being fired: its instance, place, tag and the operand tokens it consumed (R13). A substituted or unused
position holds a token with the immediate's payload, E and S clear (R42). -/
structure Firing where
  inst  : Nat
  place : Place
  tag   : Tag
  a     : Tok
  b     : Tok
  c     : Tok
  deriving DecidableEq, Repr

/-- Table 7.1. -/
inductive ThrState where
  | free | live | caller | ended
  deriving DecidableEq, Repr

/-- A call frame of a child thread (R169). -/
structure Frame where
  caller : BitVec 16
  crec   : Place
  rwave  : BitVec 24
  s      : Bool
  deriving DecidableEq, Repr

/-- An entry of the thread table with its wave-order state (R24, R160). `last` is OWN and SUCC of the last performed
operation. `eos` marks a CALLER whose end of stream has come. `chain` names the chain that CALL joins (R240).
`acq` is an acquire performed by the chain whose value has not been obtained (R241); `cov` names operations of other
chains that are sequenced before an operation of this one (R240). -/
structure Thread where
  thr   : BitVec 16
  st    : ThrState
  cw    : BitVec 24
  last  : Option (BitVec 10 × BitVec 10)
  frame : Option Frame
  eos   : Bool
  chain : Nat
  acq   : Option Nat
  cov   : List Nat
  deriving DecidableEq, Repr

/-- One partial operand set (R176). `since` is one more than the time since which its record has been ready, 0 when it is not (R180);
`recs` names, by position (0 to 2), the spill records that hold its tokens while it is spilled (R177; assumption 36). -/
structure PSet where
  place   : Place
  tag     : Tag
  a       : Option Tok
  b       : Option Tok
  c       : Option Tok
  spilled : Bool
  since   : Nat
  recs    : List (Nat × Nat)
  deriving DecidableEq, Repr

/-- A sending or receiving node of an instance (R182, R368). -/
structure Node where
  node : SweepNode
  sent : W64
  recv : W64
  act  : Bool
  deriving DecidableEq, Repr

/-- Where an instance stands: running; in a sweep, with the nodes of its flush and the markers that have reached clusters
(R368); or saved. -/
inductive InstPhase where
  | running
  | sweeping (nodes : List SweepNode) (marks : List (SweepNode × Nat))
  | saved
  deriving DecidableEq, Repr

/-- A placed or saved instance (R19, R328): identity, rectangle, loaded slots, matching-store and spilled sets, threads, footprints (chain, read, write) of completed transfers (R306), format table, flags and counts, launch data.
`brkAt` is the count in which it stopped, with the PEs (cluster, PE) that have fired in it since (R122; assumption 50).
`errAt` is one more than the count in which the error whose place is recorded came, 0 when none has or the instance has been saved since (R111; assumption 50).
What a save block has no field for (assumption 37): `xpsn` and `xfl`, each saved transfer's first poisoned chunk and its flags; `failed`, FID and address of a FAIL
recorded there; `strm`, place word and FID of each parked SSTRM in record order; `told`, FID and former descriptor of each parked TLD.ACC. -/
structure Inst where
  iid      : Nat
  ctx      : Nat
  num      : W32
  epoch    : BitVec 8
  x0       : Nat
  y0       : Nat
  w        : Nat
  h        : Nat
  phase    : InstPhase
  injected : Bool
  stopped  : Bool
  ending   : Bool
  moving   : Bool
  slots    : List (Place × List W64)
  sets     : List PSet
  threads  : List Thread
  xdone    : List (Nat × List (Nat × Nat) × List (Nat × Nat))
  fmt      : List W64
  flags    : BitVec 5
  sinkCnt  : W64
  errCnt   : W32
  errCode  : Byte
  errTag   : Tag
  errPlace : Place
  bases    : List (Nat × Nat × BitVec 16 × BitVec 24)
  forced   : List (Place × Tag)
  nodes    : List Node
  probe1   : Option (W64 × W64)
  brkAt    : Option (Nat × List (Nat × Nat))
  cls      : Nat
  fdom     : W32
  path     : List W64
  spillB   : Nat
  spillN   : Nat
  saveB    : Nat
  pkt      : List W64
  queue    : Nat
  trig     : Option (BitVec 4)
  tstart   : Nat
  order    : Nat
  xpsn     : List (Option Nat)
  xfl      : List (BitVec 5)
  errAt    : Nat
  failed   : List (W32 × Nat)
  strm     : List (W64 × W32)
  told     : List (W32 × W64)
  deriving DecidableEq, Repr

/-- Who sent a token: a slot, a transfer engine's transfer, or the front end's injection point (R15). -/
inductive Src where
  | slot (p : Place)
  | xfer (id : Nat)
  | inject
  deriving DecidableEq, Repr

/-- A token in flight to one operand position (R9); `node` is the node that counts it as sent, `sent` the step in which it was
(assumption 51). -/
structure Flight where
  inst : Nat
  src  : Src
  node : SweepNode
  sent : Nat
  dst  : Place
  opnd : Pos
  tok  : Tok
  deriving DecidableEq, Repr

/-- Where an operation in progress stands. -/
inductive Phase where
  /-- an ordered request on its way to its wave-order unit -/
  | wouNet
  /-- waiting outside its unit, all of whose pending entries are in use (R27) -/
  | wouOut
  /-- in one of the unit's pending entries (R27) -/
  | wouPend
  /-- a linked release that waits for what it covers (R242) -/
  | release
  /-- an unordered request on its way to its L1 (R152) -/
  | l1Net
  /-- parked under a fault identifier (R352) -/
  | parked (fid : W32)
  /-- performed; words are on their way from homes, owners or directories -/
  | miss
  /-- waits at a home, a target or the host until its access can be performed there -/
  | home
  /-- the peer access has been issued in this lane position (R397) -/
  | peer
  /-- performed; the result token has not been emitted -/
  | done
  /-- result emitted; registrations or write-backs are outstanding -/
  | acks
  /-- in the PE's divider or iterative float unit (R129, R139) -/
  | divide
  | iter
  /-- a linked FTSET on its way to every cluster (R91) -/
  | ftset
  /-- a CALL's hand-off or a RET's return that waits (R169, R170) -/
  | callHold
  | retHold
  /-- an FTSYNC that waits for captures (R96) -/
  | sync
  /-- an outstanding SYS.TRAP or SYS.BRK (R121, R122) -/
  | trap (fid : W32)
  /-- a tile operation, a queued MMA, the MMA in progress, a stream reader (12) -/
  | tile
  | mmaQ
  | mmaRun
  | stream
  deriving DecidableEq, Repr

/-- What the frame of an access holds (R210, R211, R379): an S, D or U page of device memory, host memory cached under
CXL.cache or not, peer memory, the MMIO window, or nothing. -/
inductive Kind where
  | s | d | u | hostc | hostu | peer | mmio | hole
  deriving DecidableEq, Repr

/-- One element of an access after translation: addresses, bytes, kind, and key ID (plus 256 on an INTEG page, R346); a peer's element
has its aperture's number there. `page` is the size of the page that translated it. -/
structure El where
  va   : Nat
  pa   : Nat
  len  : Nat
  kind : Kind
  key  : Nat
  page : Nat := 65536
  deriving DecidableEq, Repr

/-- What is known of a word: the bytes that `mask` marks, its poison mark, and whether word and mark are known whole (`sure`); what is lacking comes
with the grant that the word waits for (R215, R410). -/
structure Part where
  data : W32
  mask : BitVec 4
  sure : Bool
  psn  : Bool
  deriving DecidableEq, Repr

/-- An instruction in progress after its firing. `els` are its translated elements and `left` those not yet carried out;
`stale` marks a fill overtaken by an acquire of its L1, which caches nothing (R218). `got` holds the words obtained (physical word address, value, poison);
`snap` words as this L1 had them when a later store of it wrote them (R29);
`cap` the format entries captured at firing (R89); `seqNo` the place in the chain's performing order; `err` an error
token's payload that it will emit instead of a result; `act` the tile or format entry it works with; `todo` a RESUME's
action recorded during a sweep, with its reply (Table 17.7's ACT). `replay` is the place of a replay that has not been performed in the
order in which replays were issued again, 0 for none (R358). -/
structure Op where
  id    : Nat
  inst  : Nat
  place : Place
  tag   : Tag
  ins   : Instr
  a     : Tok
  b     : Tok
  c     : Tok
  cl    : Nat
  cap   : List (Nat × W64)
  ph    : Phase
  arr   : Nat
  chain : Nat
  seqNo : Nat
  err   : Option W64
  got   : List (Nat × W32 × Bool)
  snap  : List (Nat × Part)
  els   : List El
  left  : List Nat
  stale : Bool
  val   : W256
  n     : Nat
  act   : Option (Nat × W64)
  todo  : Option (Nat × W64)
  replay : Nat
  deriving DecidableEq, Repr

/-- Where a transfer stands (R297 to R318). -/
inductive XPhase where
  | port
  | admitted
  | claim
  | running
  | parked (fid : W32)
  | finish
  /-- restored while its context's table is full: to be admitted again in STATE `st` of Table 17.6 (R298, R318) -/
  | again (st : Nat) (fid : W32)
  deriving DecidableEq, Repr

/-- A transfer's pin on a 64 KiB window of one of its streams (source 0, destination 1, index 2), with the leaf that
translates it (R316). -/
structure Pin where
  stream : Nat
  win    : Nat
  leaf   : W64
  size   : Nat
  deriving DecidableEq, Repr

/-- A transfer from its hand-over to its completion. `rd`, `wr` are footprints (start, length); `hsel`, `entry` XTILE's
handle and tile entry; `next` the next chunk; `idx` the index words read so far, with poison; `els` the chunk's translated
accesses; `psnFrom` the first chunk written poisoned; `err` the error payload of its completion; `fl` the flags it will
raise; `act` its engine; `todo` a RESUME's action recorded during a sweep (Table 17.6's ACT). `arr` is its place in the port's queue, later in
admission order; `replay` as an operation's (R358); `ahead` source bytes of later chunks that have been read ahead, with poison (R316). -/
structure Xfer where
  id      : Nat
  inst    : Nat
  ctx     : Nat
  place   : Place
  tag     : Tag
  ins     : Instr
  req     : W256
  as_     : Bool
  deps    : List (Nat × Nat)
  cap     : List (Nat × W64)
  cl      : Nat
  ph      : XPhase
  arr     : Nat
  chain   : Nat
  seqNo   : Nat
  rd      : List (Nat × Nat)
  wr      : List (Nat × Nat)
  hsel    : Nat
  entry   : W64
  next    : Nat
  idx     : List (W32 × Bool)
  els     : Option (List El)
  psnFrom : Option Nat
  err     : Option W64
  fl      : BitVec 5
  pins    : List Pin
  act     : Option Nat
  todo    : Nat
  replay  : Nat
  ahead   : List (Nat × List (Byte × Bool))
  deriving DecidableEq, Repr

/-- State of an S-page word in an L1 (Table 10.3); I words are not listed. -/
inductive WSt where
  | v | p | o
  deriving DecidableEq, Repr

/-- An S-page word in an L1. `have_` marks bytes with a value, `wr` bytes this cluster has written while P, `whole` that one write since then
covered all four (R410). `prev` is what others still see of a word that an 8-byte store shares with a word whose registration has not been performed
(R155, R239; assumption 57). `evict` marks an eviction that waits for the grant (R220). -/
structure L1Word where
  cl    : Nat
  ctx   : Nat
  va    : Nat
  pa    : Nat
  st    : WSt
  data  : W32
  key   : Nat
  have_ : BitVec 4
  wr    : BitVec 4
  whole : Bool
  psn   : Bool
  prev  : Option Part
  evict : Bool
  deriving DecidableEq, Repr

/-- A D-page or host sector in an L1 (Table 10.9); I sectors are not listed. -/
structure L1Sec where
  cl   : Nat
  ctx  : Nat
  va   : Nat
  pa   : Nat
  st   : Mesi
  key  : Nat
  data : List W32
  psn  : BitVec 16
  deriving DecidableEq, Repr

/-- A sector held in its home L2 slice: plaintext words, dirty mark, per-word poison marks, key ID (R410, R413). -/
structure L2Sec where
  pa    : Nat
  data  : List W32
  dirty : Bool
  pz    : BitVec 16
  key   : Nat
  deriving DecidableEq, Repr

/-- Registration fields of a sector at its home, or in the record of die d's RDC (Table 10.5, R219). `wdie` names, for
a word owned through a remote die, that die: RDM gives only the candidates (assumption 15). -/
structure RegRec where
  rdc   : Option Nat
  pa    : Nat
  owna  : BitVec 7
  ownb  : BitVec 7
  lrua  : Bool
  wcode : List (BitVec 2)
  wdie  : List Nat
  rdm   : BitVec 4
  deriving DecidableEq, Repr

/-- A sector in a die's RDC (R228, R388). -/
structure RdcSec where
  die  : Nat
  pa   : Nat
  st   : Mesi
  key  : Nat
  data : List W32
  psn  : BitVec 16
  deriving DecidableEq, Repr

/-- A directory entry beside a home slice, or of die d's RDC (R226, R228). -/
structure DirEnt where
  rdc     : Option Nat
  pa      : Nat
  em      : Bool
  holders : BitVec 128
  lru     : Nat
  deriving DecidableEq, Repr

/-- An end of a coherence message: an L1, an RDC, or the home of the message's address. -/
inductive Agent where
  | l1 (c : Nat)
  | rdc (d : Nat)
  | home
  deriving DecidableEq, Repr

/-- What an L1 or RDC asks a directory for (Table 10.9). -/
inductive DReq where
  | shared | excl | upgrade
  deriving DecidableEq, Repr

/-- Coherence messages. Words are numbered 0 to 15 within the message's sector; a mask marks bytes of a word. -/
inductive Body where
  /-- registration of words, each with the mask of bytes written (R214) -/
  | reg (ws : List (Nat × BitVec 4))
  /-- grant of words with their values and poison marks -/
  | grant (ws : List (Nat × W32 × Bool))
  /-- revoke of words from the previous owner (R215) -/
  | revoke (ws : List Nat)
  /-- the previous owner's answer: its words; and whether its die still owns a word -/
  | answer (ws : List (Nat × Part)) (more : Bool)
  /-- recall of words (R217, R222) -/
  | recall (ws : List Nat)
  /-- write-back of words -/
  | wb (ws : List (Nat × W32 × Bool))
  /-- read of words for operation `op` issued by cluster `cl` (R214) -/
  | read (op cl : Nat) (ws : List Nat)
  /-- a read forwarded to an owner: `cap` holds words, each with the cluster that held it, as they were when the read was performed or when they
  left that cluster before it had been answered (R155, R215) -/
  | fwd (op cl : Nat) (ws : List Nat) (cap : List (Nat × Nat × Part))
  /-- words read, on their way to the requester -/
  | fill (op : Nat) (ws : List (Nat × W32 × Bool))
  /-- request to a directory -/
  | dreq (k : DReq)
  /-- directory's invalidate and share request -/
  | inval
  | share
  /-- a holder's answer: the sector when it held E or M, with whether it was modified -/
  | dret (data : Option (List W32 × BitVec 16)) (dirty evict : Bool)
  /-- sector granted in a state -/
  | dgrant (st : Mesi) (data : List W32) (psn : BitVec 16)
  deriving DecidableEq, Repr

/-- A message on its way between two agents, about one sector. `held` marks a request that has been delivered and waits
there; messages of one pair are delivered in order (R209). -/
structure Msg where
  src  : Agent
  dst  : Agent
  pa   : Nat
  key  : Nat
  body : Body
  held : Bool
  deriving DecidableEq, Repr

/-- A word whose new owner waits for its grant until the previous owner has answered (R215). `base` gives the bytes of
the previous owner's own grant, once known; `up` marks an RDC that answers a revoke of the home. -/
structure GWait where
  rdc  : Option Nat
  pa   : Nat
  dest   : Agent
  from_ : Agent
  ans  : Option Part
  base : Option (W32 × Bool)
  up   : Bool
  deriving DecidableEq, Repr

/-- A directory request at a home or RDC that waits for holders' answers (R225). -/
structure DWait where
  rdc  : Option Nat
  pa   : Nat
  req  : Option Msg
  need : List Agent
  deriving DecidableEq, Repr

/-- A registration of one word requested and not granted, with the operations that wait for it (R218). -/
structure RegOut where
  cl  : Nat
  pa  : Nat
  ops : List Nat
  deriving DecidableEq, Repr

/-- A cached translation: of one of die d's 64 slices, or of the front end's walker (R347). -/
structure Tlb where
  die  : Option Nat
  slice : Nat
  asid : BitVec 16
  va   : Nat
  size : Nat
  leaf : W64
  pte  : Nat
  deriving DecidableEq, Repr

/-- Caches, homes, directories and translations. `psn` lists sectors with PSN = 1 in HBM metadata (of a peer's memory, poisoned words), `dirb` directory bytes
other than zero (R407); `snoop` the snoop filter (R229); `bisnp` BISnp requests to the host not yet answered, with
whether they invalidate (R391); `rdcReq` RDC requests to the host that await GO (R389); `dirRec` sectors whose holders
are all being invalidated after a directory-byte error, with whether one held it in M (R412); `outCh` channels
out of service (R409); `crc` where a sector's burst stands: 1 to 5 interface failures in a row, of which 5 waits for the retraining, then 6 for a read and
7 for a write that the retrained channel has still to carry (R409); `rdFail` sectors whose next read gives poison, since it still failed then (R409); `meta_` the metadata words last written to HBM (Table 21.1); a sector it lacks has not been written since its stack was
cleared. -/
structure Coh where
  l1w    : List L1Word
  l1d    : List L1Sec
  l2     : List L2Sec
  reg    : List RegRec
  rdc    : List RdcSec
  dir    : List DirEnt
  msgs   : List Msg
  gwait  : List GWait
  dwait  : List DWait
  regOut : List RegOut
  tlb    : List Tlb
  psn    : List Nat
  dirb   : List (Nat × Byte)
  snoop  : List (Nat × BitVec 4)
  bisnp  : List (Nat × Bool)
  rdcReq : List (Nat × Nat × DReq)
  dirRec : List (Nat × Bool)
  outCh  : List Nat
  crc    : List (Nat × Nat)
  rdFail : List Nat
  meta_  : List (Nat × W64)
  deriving DecidableEq, Repr

/-- Accumulator descriptor with its reader count (Table 12.3, R270). -/
structure AccD where
  st      : BitVec 2
  rows    : BitVec 7
  cols    : BitVec 7
  cur     : Tag
  readers : Nat
  deriving DecidableEq, Repr

/-- Tile units of all clusters: directory entries (key 256·cluster + handle, absent: empty form), reader counts,
accumulator descriptors (key 16·cluster + handle, absent: EMPTY), tile-store bytes (key 2^20·cluster + offset),
accumulator words (key 2^18·cluster + 2^14·handle + 128·row + col), and 8-byte units with uncorrectable errors (R411). -/
structure Tiles where
  dir     : List (Nat × W64)
  readers : List (Nat × Nat)
  acc     : List (Nat × AccD)
  bytes   : Memory
  words   : List (Nat × W32)
  badT    : List Nat
  badA    : List Nat
  deriving DecidableEq, Repr

/-- A fault-queue entry (Table 16.6) with the instance it belongs to. -/
structure FEntry where
  fid    : W32
  kind   : Byte
  src    : BitVec 4
  acc    : BitVec 4
  level  : Byte
  va     : W64
  place  : W64
  sheet0 : W64
  sheet1 : W64
  fdom   : W32
  data   : W64
  time   : W64
  inst   : Nat
  deriving DecidableEq, Repr

/-- A resident context (Table 15.1) with its fault queue (Table 16.5), default format table, FID and instance counters,
entries waiting to be written (in FID order) and outstanding entries. -/
structure Ctx where
  handle  : Nat
  asid    : BitVec 16
  key     : Nat
  dbg     : Bool
  ptroot  : Nat
  fqdesc  : Nat
  save    : Nat
  saveSz  : Nat
  spoolSz : Nat
  spool   : Nat
  rootRcb : W64
  fqRing  : Nat
  fqLog   : Nat
  fqVec   : BitVec 16
  nextFid : W32
  nextInst : W32
  fmt     : List W64
  held    : List FEntry
  out     : List FEntry
  feFail  : Bool
  deriving DecidableEq, Repr

/-- A mapped queue (Table 15.3). `halted` marks a queue that waits for a kick after a failed access, `told` that its FRONT entry since the
last kick has been written (R333). -/
structure Queue where
  q      : Nat
  ctx    : Nat
  desc   : Nat
  ring   : Nat
  logn   : Nat
  ridx   : W64
  halted : Bool
  told   : Bool
  deriving DecidableEq, Repr

/-- A consumed packet that has not been placed or ended. `waits` are the wait signals not yet read as at most 0 (R327);
`since` is the time it began to wait for space (R338). -/
structure Launch where
  id    : Nat
  q     : Nat
  ctx   : Nat
  pkt   : List W64
  waits : List Nat
  since : Option Nat
  deriving DecidableEq, Repr

/-- A resident graph (R336). `rect` is reserved for it (x0, y0, w, h); `active` is its running instance; `hdr` the image
header last read, `since` as a launch's for a run that waits for space. -/
structure Resident where
  ctx     : Nat
  trig    : BitVec 4
  pkt     : List W64
  queue   : Nat
  path    : List W64
  cls     : Nat
  fdom    : W32
  spillB  : Nat
  spillN  : Nat
  saveB   : Nat
  rect    : Option (Nat × Nat × Nat × Nat)
  active  : Option Nat
  pending : BitVec 16
  ending  : Bool
  hdr     : List W64
  since   : Option Nat
  deriving DecidableEq, Repr

/-- The front end: contexts, queues, launches, residencies, fair-share deficits (context, RCB, class, deficit) and the
RCB visited last in each class (R338), command registers (Table 15.9) with the command in progress and its arguments, out-of-service clusters (CLOFF; since bring-up),
clusters of the holding instance (R427), and round-robin memory of the engines (R299). -/
structure Front where
  ctxs     : List Ctx
  queues   : List Queue
  launches : List Launch
  resident : List Resident
  deficit  : List (Nat × W64 × Nat × Nat)
  visited  : List (Nat × Nat × W64)
  arg0     : W64
  arg1     : W64
  cur0     : W64
  cur1     : W64
  busy     : Bool
  cmd      : Byte
  stat     : Byte
  res      : W64
  off      : List Nat
  dead     : List Nat
  holdCl   : List Nat
  rr       : List (Nat × Nat)
  loaded   : Bool
  deriving DecidableEq, Repr

/-- A SHOOT in progress (R349): range, context (none: every context, GLB = 1), and the pins and accesses its second
phase waits for. -/
structure Shoot where
  va    : Nat
  nwin  : Nat
  ctx   : Option Nat
  drain : Bool
  ops   : List Nat
  deriving DecidableEq, Repr

/-- Fault and translation registers (Table 16.8) with the command in progress. `hits` is the model's own: the FIDs that a RESUME acts on, while it
waits for the access of a saved instance's block and is tried again (R357). -/
structure FaultRegs where
  arg0   : W64
  arg1   : W64
  busy   : Bool
  cmd    : Byte
  stat   : Byte
  res    : W64
  fatal  : Bool
  fcause : Byte
  shoot  : Option Shoot
  hits   : Option (List W32)
  deriving DecidableEq, Repr

/-- An RDC's answer to a snoop (Table 19.4). -/
inductive SnpRsp where
  | iHitI | sHitSE | iHitSE | vHitV | sFwdM | iFwdM | vFwdV
  deriving DecidableEq, Repr

/-- What the device sends over the host link, requests that await an answer (`Coh.bisnp`, `Coh.rdcReq`) apart: the answer of die d's RDC to a
snoop, an eviction from state `st` (CleanEvictNoData, CleanEvict, DirtyEvict), or the bytes of a host read with their poison
(R388, R391). -/
inductive HostMsg where
  | answer (die sec : Nat) (r : SnpRsp) (data : Option (List W32 × BitVec 16))
  | evict (die sec : Nat) (st : Mesi) (data : Option (List W32 × BitVec 16))
  | data (pa : Nat) (bs : List (Byte × Bool))
  deriving DecidableEq, Repr

/-- Identity, link and node registers (Table 19.3), the MSI-X table and pending bits (Table 19.2), the interrupt
messages sent (vector, address, data; R387), `popul` the populated bytes of each die window that bring-up found (MEMCAP before the carve-out), and what else has gone out to the host, each latest first. -/
structure Link where
  memcap : W64
  popul  : W64
  mode   : BitVec 2
  width  : BitVec 6
  gts    : BitVec 8
  cache  : Bool
  mem    : Bool
  fatVec : BitVec 16
  msix   : List (Nat × W64)
  pba    : List Nat
  sent   : List (BitVec 16 × W64 × W32)
  out    : List HostMsg
  deriving DecidableEq, Repr

/-- A request flit in a port's replay buffer: the operation or transfer it carries and which of its elements or chunks,
lane, destination, and whether the receiver has discarded it (R399, R400). Port 96 stands for none: no port is up. The buffer keeps the order of
the sequence numbers, which count on from its oldest flit (assumption 20). -/
structure Flit where
  port : Nat
  id   : Nat
  el   : Nat
  lane : Nat
  node : BitVec 20
  lost : Bool
  deriving DecidableEq, Repr

/-- What a target answers a peer's access with: bytes with their poison; an atomic's value and flags; that an atomic met poison; an
acknowledgement; or a refusal (R397, R398, R402). -/
inductive InRes where
  | data (bs : List (Byte × Bool))
  | value (v : W64) (fl : BitVec 5)
  | poison
  | ack
  | refused
  deriving DecidableEq, Repr

/-- The scale-up fabric: node register fields, aperture table, ports up, CRC failures of a port since a flit of it last
arrived, flits in flight, destinations without a path with the time since when, and the port of the last attempt (R394 to R402, R417).
`asked` are ports whose peer's flits are discarded until a replay that has been asked for; `rx` counts CRC failures of a peer's flits since one of
them last arrived (R399). `out` are the answers to peers' accesses, latest first (R397, R398, R402). -/
structure Fabric where
  nv     : Bool
  lsin   : Bool
  bulkin : Bool
  nodeid : BitVec 20
  apert  : List (Nat × W64)
  up     : BitVec 96
  fails  : List (Nat × Nat)
  flits  : List Flit
  cut    : List (BitVec 20 × Nat)
  last   : Nat
  asked  : List Nat
  rx     : List (Nat × Nat)
  out    : List (InAcc × InRes)
  deriving DecidableEq, Repr

/-- A log entry (Table 21.2). -/
structure LogEnt where
  ctr  : Byte
  die  : BitVec 4
  unit : BitVec 10
  pa   : W64
  time : W64
  deriving DecidableEq, Repr

/-- A node of a die's integrity tree, its level counted from the counter blocks: the node counter and the MACs of its children by their number,
of which those it lacks are as they were built (R415). -/
structure TreeNode where
  level : Nat
  idx   : Nat
  ctr   : W64
  macs  : List (Nat × BitVec 56)
  deriving DecidableEq, Repr

/-- Error counters in table order from HBMCE, the log, key and integrity registers, loaded keys, and the integrity
carve-out: MAC words by sector, MAJOR and MINORs by 4 KiB group, counter blocks and tree nodes that failed as (level, a group
below it), the tree's nodes, and what the counter caches hold as (level, number), latest last (R415, R416). `kcmd` is the command in
progress: LOAD, CLEAR, or 3 for a write that sets INTEN. -/
structure Ras where
  ctrs  : List W32
  logW  : W64
  log   : List LogEnt
  inten : Bool
  ksel  : Byte
  kdata : List W64
  kbusy : Bool
  kstat : Byte
  kcmd  : BitVec 2
  keys  : List (Nat × W256)
  macs  : List (Nat × BitVec 56)
  groups : List (Nat × Nat × List Nat)
  badGrp : List (Nat × Nat)
  tree   : List TreeNode
  verified : List (Nat × Nat)
  deriving DecidableEq, Repr

/-- Power, thermal and bring-up registers (Table 22.1), the dies held by the power override (R420), HOLD as it was at the last update (`holdOn`, R424),
whether a trip has removed power from the compute dies (`dieOff`, R422), and whether the reset under way is a cold one (`wasCold`), which COLD tells
once bring-up has finished. -/
structure Power where
  sensors : List (Bool × BitVec 16)
  prs     : List (BitVec 4)
  refr    : List (BitVec 2)
  easy    : Byte
  light   : Byte
  half    : Byte
  padm    : Bool
  pkgpwr  : BitVec 16
  diepwr  : BitVec 16
  heldBy    : List Bool
  hold    : Bool
  holdOn  : Bool
  dieOff  : Bool
  setpt   : BitVec 16
  hyst    : BitVec 16
  ready   : Bool
  cold    : Bool
  wasCold : Bool
  dieok   : BitVec 4
  stkok   : BitVec 12
  clout   : BitVec 9
  deriving DecidableEq, Repr

/-- The machine. `time` is the timestamp counter (R120); `tick` counts steps and picks the free values (Config); `agenda`
says what moves next (assumption 3); `inbox` holds outside accesses that have arrived and wait; `nextId` names
operations, transfers, instances and launches. -/
structure State where
  time    : Nat
  tick    : Nat
  agenda  : List Pick
  inbox   : List Instr
  firing  : Firing
  nextId  : Nat
  insts   : List Inst
  flights : List Flight
  ops     : List Op
  xfers   : List Xfer
  mem     : Memory
  co      : Coh
  tiles   : Tiles
  fe      : Front
  ft      : FaultRegs
  link    : Link
  fab     : Fabric
  ras     : Ras
  pwr     : Power
  deriving DecidableEq, Repr

def Tag.zero : Tag := ⟨0#16, 0#24⟩
def Place.zero : Place := ⟨0, 0, 0, 0⟩
def Tok.zero : Tok := ⟨0#256, false, Tag.zero, false, false, []⟩

def Firing.reset : Firing := ⟨0, Place.zero, Tag.zero, Tok.zero, Tok.zero, Tok.zero⟩

def Coh.reset : Coh :=
  { l1w := [], l1d := [], l2 := [], reg := [], rdc := [], dir := [], msgs := [], gwait := [], dwait := [], regOut := [],
    tlb := [], psn := [], dirb := [], snoop := [], bisnp := [], rdcReq := [], dirRec := [], outCh := [], crc := [], rdFail := [], meta_ := [] }

def Tiles.reset : Tiles := { dir := [], readers := [], acc := [], bytes := [], words := [], badT := [], badA := [] }

def Front.reset : Front :=
  { ctxs := [], queues := [], launches := [], resident := [], deficit := [], visited := [], arg0 := 0#64, arg1 := 0#64, cur0 := 0#64, cur1 := 0#64,
    busy := false, cmd := 0#8, stat := 0#8, res := 0#64, off := [], dead := [], holdCl := [], rr := [], loaded := false }

def FaultRegs.reset : FaultRegs :=
  { arg0 := 0#64, arg1 := 0#64, busy := false, cmd := 0#8, stat := 0#8, res := 0#64, fatal := false, fcause := 0#8, shoot := none, hits := none }

/-- MEMCAP is 192 GiB on the CG768-W (R379). The MSI-X entries the list lacks are masked, with zero address and data
(assumption 10). -/
def Link.reset : Link :=
  { memcap := 0x3000000000#64, popul := 0x3000000000#64, mode := 0#2, width := 0#6, gts := 0#8, cache := false, mem := false, fatVec := 0xFFFF#16,
    msix := [], pba := [], sent := [], out := [] }

def Fabric.reset : Fabric :=
  { nv := false, lsin := false, bulkin := false, nodeid := 0#20, apert := [], up := 0#96, fails := [], flits := [], cut := [], last := 0, asked := [], rx := [], out := [] }

def Ras.reset : Ras :=
  { ctrs := List.replicate 14 0#32, logW := 0#64, log := [], inten := false, ksel := 0#8, kdata := List.replicate 4 0#64,
    kbusy := false, kstat := 0#8, kcmd := 0#2, keys := [], macs := [], groups := [], badGrp := [], tree := [], verified := [] }

def Power.reset (cold : Bool) : Power :=
  { sensors := List.replicate 48 (false, 0#16), prs := List.replicate 4 0#4, refr := List.replicate 12 0#2, easy := 108#8,
    light := 104#8, half := 100#8, padm := false, pkgpwr := 0#16, diepwr := 0#16, heldBy := List.replicate 4 false,
    hold := false, holdOn := false, dieOff := false, setpt := 0#16, hyst := 50#16, ready := false, cold := false, wasCold := cold, dieok := 0#4, stkok := 0#12, clout := 0#9 }

/-- Right after a cold reset, before bring-up has finished (R428): nothing resident, device memory zero, every register at
its reset value. -/
def State.reset : State :=
  { time := 0, tick := 0, agenda := [], inbox := [], firing := Firing.reset, nextId := 1, insts := [], flights := [], ops := [],
    xfers := [], mem := [], co := Coh.reset, tiles := Tiles.reset, fe := Front.reset, ft := FaultRegs.reset,
    link := Link.reset, fab := Fabric.reset, ras := Ras.reset, pwr := Power.reset true }

end Sys2Proof.Machine
end

