-- ==== Sys2Proof/Machine/Mem.lean ====
section
/-! DEFINITION. Byte memory in one canonical form: strictly rising addresses, and no listed byte zero, which is what an
unlisted byte reads as (R428; assumption 2). Little-endian multi-byte access (R151). -/
namespace Sys2Proof.Machine

/-- Reading one byte. -/
def memGet : Memory → Nat → Byte
  | [], _ => 0#8
  | (k, v) :: t, a => if k = a then v else memGet t a

/-- Writing one byte; writing zero removes the entry. -/
def memSet : Memory → Nat → Byte → Memory
  | [], a, v => if v = 0#8 then [] else [(a, v)]
  | (k, w) :: t, a, v =>
    if a < k then (if v = 0#8 then (k, w) :: t else (a, v) :: (k, w) :: t)
    else if a = k then (if v = 0#8 then t else (a, v) :: t)
    else (k, w) :: memSet t a v

/-- Every listed address exceeds `lo` (none: any) and rises; no listed byte is zero. -/
def memWfFrom : Option Nat → Memory → Bool
  | _, [] => true
  | lo, (k, v) :: t => (lo.all fun l => decide (l < k)) && decide (v ≠ 0#8) && memWfFrom (some k) t

/-- The canonical form. -/
def memWf (m : Memory) : Bool := memWfFrom none m

/-- `n` bytes from `a` upward. -/
def memRead (m : Memory) (a n : Nat) : List Byte := (List.range n).map fun k => memGet m (a + k)

/-- Writing bytes from `a` upward. -/
def memWrite (m : Memory) (a : Nat) : List Byte → Memory
  | [] => m
  | b :: t => memWrite (memSet m a b) (a + 1) t

/-- Little-endian value of bytes. -/
def natOfBytes : List Byte → Nat
  | [] => 0
  | b :: t => b.toNat + 256 * natOfBytes t

/-- The `n` low bytes of a number, lowest first. -/
def bytesOfNat (v : Nat) : Nat → List Byte
  | 0 => []
  | n + 1 => BitVec.ofNat 8 v :: bytesOfNat (v / 256) n

/-- Removing every listed byte of `[a, a + n)`: they read zero. -/
def memClearRange (m : Memory) (a n : Nat) : Memory := m.filter fun c => decide (c.1 < a ∨ a + n ≤ c.1)

/-- An association list by key: reading, and writing with the default value dropped. -/
def assocGet {β : Type} (d : β) : List (Nat × β) → Nat → β
  | [], _ => d
  | (k, v) :: t, a => if k = a then v else assocGet d t a

def assocSet {β : Type} (l : List (Nat × β)) (a : Nat) (v : β) : List (Nat × β) :=
  match l with
  | [] => [(a, v)]
  | (k, w) :: t => if a < k then (a, v) :: (k, w) :: t else if a = k then (a, v) :: t else (k, w) :: assocSet t a v

def assocDel {β : Type} (l : List (Nat × β)) (a : Nat) : List (Nat × β) := l.filter fun c => decide (c.1 ≠ a)

end Sys2Proof.Machine
end

