-- ==== Sys2Proof/Machine/Numbers.lean ====
section
/-! DEFINITION. Number formats (R74 to R88): the fields of a format entry, which entries are malformed or accepted by
each path, exact values, decoding, and encoding with one rounding. -/
namespace Sys2Proof.Machine

/-- Fields of a format entry (Table 4.1). -/
def fV (e : W64) : Bool := e.getLsbD 63
def fS (e : W64) : Nat := (e.extractLsb' 62 1).toNat
def fEW (e : W64) : Nat := (e.extractLsb' 58 4).toNat
def fFW (e : W64) : Nat := (e.extractLsb' 52 6).toNat
def fBIAS (e : W64) : Nat := (e.extractLsb' 40 12).toNat
def fSPV (e : W64) : Nat := (e.extractLsb' 36 4).toNat
def fOVF (e : W64) : Nat := (e.extractLsb' 34 2).toNat
def fSUBN (e : W64) : Nat := (e.extractLsb' 32 2).toNat
def fRM (e : W64) : Nat := (e.extractLsb' 29 3).toNat
def fBLK (e : W64) : Nat := (e.extractLsb' 27 2).toNat
def fSCS (e : W64) : Nat := (e.extractLsb' 22 5).toNat
def fSCL (e : W64) : Nat := (e.extractLsb' 20 2).toNat
def fBSS (e : W64) : Nat := (e.extractLsb' 15 5).toNat
def fBAND (e : W64) : Nat := (e.extractLsb' 12 3).toNat
def fW (e : W64) : Nat := fS e + fEW e + fFW e

/-- Elements per block and rows per band. -/
def blkOf (e : W64) : Nat := if fBLK e = 0 then 0 else 2 ^ (fBLK e + 2)
def bandOf (e : W64) : Nat := 16 * 2 ^ fBAND e

/-- RM of an entry (coded one lower than an instruction's). -/
def rmOfEntry (e : W64) : Rm :=
  match fRM e with
  | 1 => .rtz
  | 2 => .rdn
  | 3 => .rup
  | 4 => .rna
  | _ => .rne

/-- Table 4.2. -/
def fmtMalformed (e : W64) : Bool :=
  if !fV e then decide (e ≠ 0#64) else
  decide (e.extractLsb' 0 12 ≠ 0#12) ||
  decide (fEW e > 11 ∨ fFW e > 52 ∨ fW e = 0 ∨ fW e > 64) ||
  decide (fSPV e > 3 ∨ fOVF e > 1 ∨ fSUBN e = 3 ∨ fRM e > 4 ∨ fBAND e > 4) ||
  decide (fSPV e = 0 ∧ (fEW e < 2 ∨ fFW e = 0)) ||
  decide (fSPV e = 1 ∧ (fEW e = 0 ∨ fFW e = 0)) ||
  decide ((fSPV e = 2 ∨ fSPV e = 3) ∧ fOVF e = 0) ||
  decide (fSPV e = 3 ∧ (fS e = 1 ∨ fFW e ≠ 0 ∨ fEW e = 0 ∨ fSUBN e ≠ 0)) ||
  decide (fEW e = 0 ∧ (fSPV e ≠ 2 ∨ fSUBN e ≠ 0 ∨ fBIAS e > 63)) ||
  decide (fSCL e = 0 ∧ (fBLK e ≠ 0 ∨ fSCS e ≠ 0 ∨ fBSS e ≠ 0 ∨ fBAND e ≠ 0)) ||
  decide (fSCL e = 1 ∧ (fBLK e = 0 ∨ fBSS e ≠ 0 ∨ fBAND e ≠ 0)) ||
  decide (fSCL e = 2 ∧ fBLK e = 0) ||
  decide (fSCL e = 3)

/-- A valid entry (R74). -/
def fmtValid (e : W64) : Bool := fV e && !fmtMalformed e

/-- Table 4.4: the entries of a context's default table at its creation (R80). -/
def defaultFormats : List W64 :=
  [0xE1707F0000000000#64, 0xE0707F0000000000#64, 0xD4A00F0000000000#64, 0xD030071400000000#64, 0xD4200F0000000000#64,
   0xC810012400000000#64, 0xCC20032400000000#64, 0xC830012400000000#64, 0xA0007F3400000000#64, 0x8C50032400000000#64,
   0xC070002400000000#64, 0x8080002400000000#64, 0xC1F0002400000000#64, 0xEF43FF0000000000#64, 0xE0A07F0000000000#64] ++
  List.replicate 17 0#64

/-- The internal binary32 entry (R194). -/
def b32 : W64 := 0xE1707F0000000000#64

/-- Paths of Table 4.5. -/
def acceptScalar (e : W64) : Bool := fmtValid e
def acceptLanes (e : W64) : Bool :=
  fmtValid e && decide (fEW e ≤ 8 ∧ fFW e ≤ 23 ∧ fW e ≤ 32 ∧ fSPV e ≤ 2)
def acceptBlockScale (e : W64) : Bool := fmtValid e && decide (fSCL e = 0 ∧ fS e = 0 ∧ fW e ≤ 8)
def acceptBandScale (e : W64) : Bool := fmtValid e && decide (fSCL e = 0 ∧ fEW e ≤ 8 ∧ fFW e ≤ 10)

/-- Lane container of an entry (Table 8.1). -/
def containerOf (e : W64) : Nat :=
  if fW e ≤ 4 then 4 else if fW e ≤ 8 then 8 else if fW e ≤ 16 then 16 else if fW e ≤ 32 then 32 else 64

/-- An exact value: NaN with sign, signalling or not; infinity; zero with sign; (-1)^sign · m · 2^e with m > 0. -/
inductive Val where
  | nan (sign sig : Bool)
  | inf (sign : Bool)
  | zero (sign : Bool)
  | fin (sign : Bool) (m : Nat) (e : Int)
  deriving DecidableEq, Repr

def Val.isNan : Val → Bool
  | .nan _ _ => true
  | _ => false
def Val.isSig : Val → Bool
  | .nan _ s => s
  | _ => false
def Val.sign : Val → Bool
  | .nan s _ => s
  | .inf s => s
  | .zero s => s
  | .fin s _ _ => s
def Val.neg : Val → Val
  | .nan s g => .nan (!s) g
  | .inf s => .inf (!s)
  | .zero s => .zero (!s)
  | .fin s m e => .fin (!s) m e
def Val.abs : Val → Val
  | .nan _ g => .nan false g
  | .inf _ => .inf false
  | .zero _ => .zero false
  | .fin _ m e => .fin false m e
def Val.withSign (s : Bool) : Val → Val
  | .nan _ g => .nan s g
  | .inf _ => .inf s
  | .zero _ => .zero s
  | .fin _ m e => .fin s m e
def Val.quiet : Val → Val
  | .nan s _ => .nan s false
  | v => v
def Val.isFinite : Val → Bool
  | .zero _ => true
  | .fin _ _ _ => true
  | _ => false
def Val.isZero : Val → Bool
  | .zero _ => true
  | _ => false

/-- An integer scaled by 2^e; zero is +0. -/
def valOfInt (n : Int) (e : Int) : Val :=
  if n = 0 then .zero false else .fin (decide (n < 0)) n.natAbs e

/-- 2^k for an integer k, as far as it is a natural number. -/
def pow2 (k : Int) : Nat := 2 ^ k.toNat

/-- floor(log2) of a finite non-zero magnitude m · 2^e. -/
def topOf (m : Nat) (e : Int) : Int := (Nat.log2 m : Int) + e

/-- m1 · 2^e1 < m2 · 2^e2. -/
def dyLt (m1 : Nat) (e1 : Int) (m2 : Nat) (e2 : Int) : Bool :=
  let lo := min e1 e2
  decide (m1 * pow2 (e1 - lo) < m2 * pow2 (e2 - lo))

/-- decode(): the value of the low W bits under an entry (R76, R77), with the input flush of SUBN = 1 (R78). -/
def decodeVal (e : W64) (bits : Nat) : Val :=
  let w := fW e
  let x := bits % 2 ^ w
  let fw := fFW e
  if fEW e = 0 then
    let n : Int := if fS e = 1 ∧ x ≥ 2 ^ (w - 1) then (x : Int) - 2 ^ w else x
    valOfInt n (-(fBIAS e : Int))
  else
    let s : Bool := decide (fS e = 1 ∧ x / 2 ^ (w - 1) = 1)
    let ex := (x / 2 ^ fw) % 2 ^ fEW e
    let f := x % 2 ^ fw
    let top := 2 ^ fEW e - 1
    let bias : Int := fBIAS e
    let normal : Val := .fin s (2 ^ fw + f) ((ex : Int) - bias - fw)
    if fSPV e = 3 then (if ex = top then .nan false false else .fin false 1 ((ex : Int) - bias))
    else if ex = 0 then
      if f = 0 ∨ fSUBN e = 1 then .zero s else .fin s f (1 - bias - fw)
    else if fSPV e = 0 ∧ ex = top then
      if f = 0 then .inf s else .nan s (decide (f / 2 ^ (fw - 1) = 0))
    else if fSPV e = 1 ∧ ex = top ∧ f = 2 ^ fw - 1 then .nan s false
    else normal

/-- m · 2^(-k) rounded to an integer: the magnitude and whether it differs from the exact one (R81). -/
def roundShift (rm : Rm) (sign : Bool) (m : Nat) (k : Nat) : Nat × Bool :=
  let q := m / 2 ^ k
  let r := m % 2 ^ k
  let up : Bool :=
    match rm with
    | .rtz => false
    | .rdn => sign && decide (r ≠ 0)
    | .rup => !sign && decide (r ≠ 0)
    | .rne => decide (2 * r > 2 ^ k ∨ (2 * r = 2 ^ k ∧ r ≠ 0 ∧ q % 2 = 1))
    | .rna => decide (2 * r ≥ 2 ^ k ∧ r ≠ 0)
  (if up then q + 1 else q, decide (r ≠ 0))

/-- m · 2^e rounded to a multiple of 2^g, in units of 2^g. -/
def roundAt (rm : Rm) (sign : Bool) (m : Nat) (e g : Int) : Nat × Bool :=
  if e ≥ g then (m * pow2 (e - g), false) else roundShift rm sign m (g - e).toNat

/-- round_to_int of a finite value: signed result and whether it differs. -/
def roundToInt (rm : Rm) : Val → Int × Bool
  | .fin s m e =>
    let (q, x) := roundAt rm s m e 0
    (if s then -(q : Int) else q, x)
  | _ => (0, false)

/-- Sticky flags in the order of R87: NV 4, DZ 3, OF 2, UF 1, NX 0. -/
abbrev Flags := BitVec 5
def flNV : Flags := 0x10#5
def flDZ : Flags := 0x08#5
def flOF : Flags := 0x04#5
def flUF : Flags := 0x02#5
def flNX : Flags := 0x01#5

/-- maxfin as m · 2^e for EW ≥ 1 (R79). -/
def maxfin (e : W64) : Nat × Int :=
  let top : Int := 2 ^ fEW e - 1
  let bias : Int := fBIAS e
  let fw := fFW e
  match fSPV e with
  | 0 => (2 ^ (fw + 1) - 1, top - 1 - bias - fw)
  | 1 => (2 ^ (fw + 1) - 2, top - bias - fw)
  | 2 => (2 ^ (fw + 1) - 1, top - bias - fw)
  | _ => (1, top - 1 - bias)

/-- The sign bit of a code under the entry. -/
def signBit (e : W64) (s : Bool) : Nat := if fS e = 1 ∧ s then 2 ^ (fW e - 1) else 0

/-- The largest finite value's code with a sign (R79). -/
def largestCode (e : W64) (s : Bool) : Nat :=
  let fw := fFW e
  let top := 2 ^ fEW e - 1
  if fEW e = 0 then
    if fS e = 0 then 2 ^ fw - 1 else if s then 2 ^ (fW e - 1) else 2 ^ (fW e - 1) - 1
  else
    match fSPV e with
    | 0 => signBit e s + (top - 1) * 2 ^ fw + (2 ^ fw - 1)
    | 1 => signBit e s + top * 2 ^ fw + (2 ^ fw - 2)
    | 2 => signBit e s + top * 2 ^ fw + (2 ^ fw - 1)
    | _ => top - 1

/-- The code of a NaN (R78). -/
def nanCode (e : W64) (s : Bool) : Nat :=
  let fw := fFW e
  let top := 2 ^ fEW e - 1
  match fSPV e with
  | 0 => signBit e s + top * 2 ^ fw + 2 ^ (fw - 1)
  | 1 => signBit e s + top * 2 ^ fw + (2 ^ fw - 1)
  | _ => top

/-- Whether rounding by `rm` goes towards zero from a value of this sign. -/
def towardsZero (rm : Rm) (s : Bool) : Bool :=
  match rm with
  | .rtz => true
  | .rdn => !s
  | .rup => s
  | _ => false

/-- encode() for a finite non-zero value of an entry with EW ≥ 1. -/
def encodeFin (e : W64) (rm : Rm) (ovf : Bool) (s : Bool) (m : Nat) (x : Int) : Nat × Flags :=
  let fw := fFW e
  let minE : Int := if fSPV e = 3 then -(fBIAS e : Int) else 1 - (fBIAS e : Int)
  let g := topOf m x - fw
  let (tq, _) := roundAt rm s m x g
  let tiny := decide (topOf tq g < minE)
  if tiny && (decide (fSUBN e ≠ 0) || decide (fSPV e = 3)) then
    (if fSPV e = 3 then 0 else signBit e s, flUF ||| flNX)
  else
    let g' := max g (minE - fw)
    let (q, inexact) := roundAt rm s m x g'
    let mf := maxfin e
    if dyLt mf.1 mf.2 q g' then
      let fl := flOF ||| flNX
      if ovf || towardsZero rm s then (largestCode e s, fl)
      else if fSPV e = 0 then (signBit e s + (2 ^ fEW e - 1) * 2 ^ fw, fl)
      else (nanCode e s, fl)
    else
      let fl := if inexact then (if tiny then flUF ||| flNX else flNX) else 0#5
      if q < 2 ^ fw ∧ fSPV e ≠ 3 then (signBit e s + q, fl)
      else
        let top := topOf q g'
        let sh := Nat.log2 q - fw
        let ex := (top + (fBIAS e : Int)).toNat
        if fSPV e = 3 then (ex, fl) else (signBit e s + ex * 2 ^ fw + (q / 2 ^ sh - 2 ^ fw), fl)

/-- encode() for a finite value of a fixed-point entry (EW = 0). -/
def encodeFixed (e : W64) (rm : Rm) (v : Val) : Nat × Flags :=
  match v with
  | .fin s m x =>
    let (q, inexact) := roundAt rm s m (x + (fBIAS e : Int)) 0
    let lim := if fS e = 0 then 2 ^ fFW e - 1 else if s then 2 ^ (fW e - 1) else 2 ^ (fW e - 1) - 1
    if q > lim then (largestCode e s, flOF ||| flNX)
    else (if s then (2 ^ fW e - q) % 2 ^ fW e else q, if inexact then flNX else 0#5)
  | _ => (0, 0#5)

/-- encode(): the code and the flags raised (R82). -/
def encodeVal (e : W64) (rm : Rm) (sat : Bool) (v : Val) : Nat × Flags :=
  let ovf : Bool := sat || decide (fOVF e = 1)
  match v with
  | .nan s _ => if fSPV e ≠ 2 then (nanCode e s, 0#5) else (largestCode e s, flNV)
  | .inf s =>
    if fS e = 0 ∧ s then (0, flNV)
    else if fSPV e = 0 ∧ !ovf then (signBit e s + (2 ^ fEW e - 1) * 2 ^ fFW e, 0#5)
    else if fSPV e = 1 ∧ !ovf then (nanCode e s, flOF)
    else (largestCode e s, flOF)
  | .zero s =>
    if fEW e = 0 then (0, 0#5) else if fSPV e = 3 then (0, flNV) else (signBit e s, 0#5)
  | .fin s m x =>
    if fS e = 0 ∧ s then (0, flNV)
    else if fEW e = 0 then encodeFixed e rm v
    else encodeFin e rm ovf s m x

/-- The rounding mode in force: the instruction's, else the destination entry's (R81). -/
def rmOr (rm : Option Rm) (e : W64) : Rm := rm.getD (rmOfEntry e)

/-- convert() with no scale (R83): the code and the flags, a signalling NaN raising NV. -/
def convertCode (src dst : W64) (rm : Option Rm) (sat : Bool) (bits : Nat) : Nat × Flags :=
  let v := decodeVal src bits
  let r := encodeVal dst (rmOr rm dst) sat v.quiet
  (r.1, r.2 ||| (if v.isSig then flNV else 0#5))

/-- Exact product, and whether it is invalid (0 · inf). -/
def vmul : Val → Val → Val × Bool
  | .nan s g, _ => (.nan s g, false)
  | _, .nan s g => (.nan s g, false)
  | .inf _, .zero _ => (.nan false false, true)
  | .zero _, .inf _ => (.nan false false, true)
  | .inf s, y => (.inf (xor s y.sign), false)
  | x, .inf s => (.inf (xor x.sign s), false)
  | .zero s, y => (.zero (xor s y.sign), false)
  | x, .zero s => (.zero (xor x.sign s), false)
  | .fin s m e, .fin t n f => (.fin (xor s t) (m * n) (e + f), false)

/-- Exact sum, and whether it is invalid (inf − inf). `rdn` decides the sign of a zero sum (R138). -/
def vadd (rdn : Bool) : Val → Val → Val × Bool
  | .nan s g, _ => (.nan s g, false)
  | _, .nan s g => (.nan s g, false)
  | .inf s, .inf t => if s = t then (.inf s, false) else (.nan false false, true)
  | .inf s, _ => (.inf s, false)
  | _, .inf s => (.inf s, false)
  | .zero s, .zero t => (.zero (if s = t then s else rdn), false)
  | .zero _, y => (y, false)
  | x, .zero _ => (x, false)
  | .fin s m e, .fin t n f =>
    let lo := min e f
    let a : Int := (if s then -1 else 1) * (m * pow2 (e - lo) : Nat)
    let b : Int := (if t then -1 else 1) * (n * pow2 (f - lo) : Nat)
    let r := a + b
    (if r = 0 then .zero rdn else .fin (decide (r < 0)) r.natAbs lo, false)

/-- Strict order of two values that are no NaN, with −0 equal to +0. -/
def vlt (a b : Val) : Bool :=
  let cls : Val → Int := fun v =>
    match v with
    | .inf s => if s then -2 else 2
    | .fin s _ _ => if s then -1 else 1
    | _ => 0
  if cls a ≠ cls b then decide (cls a < cls b)
  else
    match a, b with
    | .fin s m e, .fin _ n f => if s then dyLt n f m e else dyLt m e n f
    | _, _ => false

/-- Strict order with −0 below +0 (R140, R196). -/
def vltZ (a b : Val) : Bool :=
  match a, b with
  | .zero s, .zero t => s && !t
  | _, _ => vlt a b

/-- A value between n and n + 1 units of 2^g, written so that no rounding boundary lies between it and the exact one. -/
def sticky (s : Bool) (n : Nat) (g : Int) (exact : Bool) : Val :=
  if exact then (if n = 0 then .zero s else .fin s n g) else .fin s (2 * n + 1) (g - 1)

/-- Exact quotient of finite non-zero magnitudes, as far as any rounding can tell. -/
def divFin (s : Bool) (m : Nat) (e : Int) (n : Nat) (f : Int) : Val :=
  let k := 130 + Nat.log2 n
  let q := (m * 2 ^ k) / n
  sticky s q (e - f - k) (decide ((m * 2 ^ k) % n = 0))

/-- Integer square root by bits, from bit `k - 1` down. -/
def isqrtFrom (x : Nat) : Nat → Nat → Nat
  | 0, r => r
  | k + 1, r =>
    let c := r + 2 ^ k
    isqrtFrom x k (if c * c ≤ x then c else r)

def isqrt (x : Nat) : Nat := isqrtFrom x (Nat.log2 x / 2 + 1) 0

/-- √(m · 2^e). -/
def sqrtFin (m : Nat) (e : Int) : Val :=
  let (m1, e1) := if e % 2 = 0 then (m, e) else (2 * m, e - 1)
  let x := m1 * 2 ^ 280
  let r := isqrt x
  sticky false r (e1 / 2 - 140) (decide (r * r = x))

/-- 1/√(m · 2^e). -/
def rsqrtFin (m : Nat) (e : Int) : Val :=
  let (m1, e1) := if e % 2 = 0 then (m, e) else (2 * m, e - 1)
  let k := 140 + Nat.log2 m1
  let r := isqrt (2 ^ (2 * k) / m1)
  sticky false r (-(e1 / 2) - k) (decide (r * r * m1 = 2 ^ (2 * k)))

/-- Lower bound of ln 2 · 2^p, off by less than 2^8: 2 · Σ 1 / ((2k+1) · 3^(2k+1)). -/
def ln2Terms (p : Nat) : Nat → Nat → Nat → Nat
  | 0, _, _ => 0
  | n + 1, k, pw => 2 ^ (p + 1) / ((2 * k + 1) * pw) + ln2Terms p n (k + 1) (pw * 9)
def ln2Low (p : Nat) : Nat := ln2Terms p (p / 3 + 2) 0 3

/-- Σ x^j / j! with x and the result in units of 2^(-p); off by less than the number of terms. -/
def expTerms (p x : Nat) : Nat → Nat → Nat → Nat
  | 0, _, _ => 0
  | n + 1, j, t => t + expTerms p x n (j + 1) (t * x / ((j + 1) * 2 ^ p))
def expLow (p x : Nat) : Nat := expTerms p x (p / 2 + 8) 0 (2 ^ p)

/-- 2 · Σ z^(2k+1) / (2k+1), z in units of 2^(-p). -/
def atanhTerms (p z2 : Nat) : Nat → Nat → Nat → Nat
  | 0, _, _ => 0
  | n + 1, k, t => 2 * t / (2 * k + 1) + atanhTerms p z2 n (k + 1) (t * z2 / 2 ^ p)

/-- The first of two bounds' floors that agree, along a ladder of working precisions; else the exact test's answer. -/
def ladder (f : Nat → Nat × Nat) (exact : Unit → Nat) : List Nat → Nat
  | [] => exact ()
  | p :: t =>
    let b := f p
    if b.1 = b.2 then b.1 else ladder f exact t

/-- The greatest number of k bits above r that passes a test which every smaller number passes. -/
def greatest (ok : Nat → Bool) : Nat → Nat → Nat
  | 0, r => r
  | k + 1, r => greatest ok k (if ok (r + 2 ^ k) then r + 2 ^ k else r)
/-- floor(2^x · 2^128) for x = num / 2^den in (0, 1), exactly: n is not above it when n^(2^den) ≤ 2^(num + 128 · 2^den). -/
def exp2Exact (num den : Nat) : Nat := greatest (fun n => decide (n ^ 2 ^ den ≤ 2 ^ (num + 128 * 2 ^ den))) 130 0
/-- floor(log2(x) · 2^200) for x = m / 2^(log2 m) in [1, 2), exactly: n is not above it when 2^n ≤ x^(2^200). -/
def log2Exact (m : Nat) : Nat := greatest (fun n => decide (2 ^ (n + Nat.log2 m * 2 ^ 200) ≤ m ^ 2 ^ 200)) 201 0

/-- floor(2^x · 2^128) for x = num / 2^den in (0, 1), not too near its ends, by bounds at working precision p. -/
def exp2Bounds (num den : Nat) (p : Nat) : Nat × Nat :=
  let x := num * 2 ^ p / 2 ^ den
  let lo := expLow p (x * ln2Low p / 2 ^ p)
  let err := 2 ^ 14 + 4 * p
  ((lo - err) / 2 ^ (p - 128), (lo + err) / 2 ^ (p - 128))

/-- 2^v for a finite v (R137, R139). -/
def exp2Val : Val → Val
  | .fin s m e =>
    if topOf m e ≥ 14 then .fin false (2 ^ 129 + 1) (if s then -40000 else 40000)
    else
      -- v = ip + num / 2^den
      let den := (-e).toNat
      let a : Int := (if s then -1 else 1) * (m * pow2 e : Nat)
      let ip := Int.fdiv a (2 ^ den)
      let num := (Int.fmod a (2 ^ den)).toNat
      if num = 0 then .fin false 1 ip
      else if num * 2 ^ 130 < 2 ^ den then sticky false (2 ^ 128) (ip - 128) false
      else if (2 ^ den - num) * 2 ^ 130 < 2 ^ den then sticky false (2 ^ 129 - 1) (ip - 128) false
      else sticky false (ladder (exp2Bounds num den) (fun _ => exp2Exact num den) [256, 512, 1024, 2048]) (ip - 128) false
  | _ => .fin false 1 0

/-- floor(log2(x) · 2^200) for x = m / 2^(log2 m) in (1, 2), by bounds at working precision p. -/
def log2Bounds (m : Nat) (p : Nat) : Nat × Nat :=
  let d := 2 ^ Nat.log2 m
  let z := (m - d) * 2 ^ p / (m + d)
  let ln := atanhTerms p (z * z / 2 ^ p) (p / 3 + 4) 0 z
  let lo := ln * 2 ^ p / ln2Low p
  let err := 2 ^ 14 + 4 * p
  ((lo - err) / 2 ^ (p - 200), (lo + err) / 2 ^ (p - 200))

/-- log2 of a positive finite value (R137, R139). -/
def log2Val (m : Nat) (e : Int) : Val :=
  let ex := topOf m e
  if m = 2 ^ Nat.log2 m then valOfInt ex 0
  else
    let n := ladder (log2Bounds m) (fun _ => log2Exact m) [320, 640, 1280, 2560]
    -- the result lies between ex + n / 2^200 and ex + (n + 1) / 2^200
    if ex ≥ 0 then sticky false (ex.toNat * 2 ^ 200 + n) (-200) false
    else sticky true ((-ex).toNat * 2 ^ 200 - n - 1) (-200) false

end Sys2Proof.Machine
end

