-- ==== Sys2Proof/Machine/Ops.lean ====
section
/-! DEFINITION. The shared operations of every meaning: where things lie on the grid, instances and threads, emitting
tokens (R7, R15, R97), error tokens (R17, R360), sticky flags (R87), ends of streams and recorded errors (R110, R111),
operations in progress, and taking an exception: a fault identifier and a fault-queue entry (R352 to R355). -/
namespace Sys2Proof.Machine

/-- What a meaning answers. -/
abbrev Out := Host.Outcome State Fault Refusal

/-! ### The grid (R2, R19, R331) -/

def dieAt (x y : Nat) : Nat := x / 16 + 2 * (y / 8)
/-- Logical cluster index 128·d + 16·y' + x' of a grid position (R331). -/
def clusterAt (x y : Nat) : Nat := 128 * dieAt x y + 16 * (y % 8) + x % 16
def dieOf (cl : Nat) : Nat := cl / 128
def clX (cl : Nat) : Nat := 16 * (dieOf cl % 2) + cl % 16
def clY (cl : Nat) : Nat := 8 * (dieOf cl / 2) + cl % 128 / 16

/-- Whether a die is under easy pressure: no PE fires, no MMA and no chunk begins (R421, Table 22.2). -/
def easy (s : State) (die : Nat) : Bool := decide (s.pwr.prs.getD die 0#4 = 3#4)

/-- The logical cluster of an image-relative place (R19). -/
def instCl (i : Inst) (p : Place) : Nat := clusterAt (i.x0 + p.x) (i.y0 + p.y)
/-- Row-major index of a place's cluster within the image (R19). -/
def rowIdx (i : Inst) (p : Place) : Nat := p.y * i.w + p.x
/-- The logical clusters of an instance's rectangle, in row-major order. -/
def rectCls (x0 y0 w h : Nat) : List Nat :=
  (List.range (w * h)).map fun k => clusterAt (x0 + k % w) (y0 + k / w)
def instCls (i : Inst) : List Nat := rectCls i.x0 i.y0 i.w i.h
/-- The home cluster of a thread (R21). -/
def homeCl (i : Inst) (thr : BitVec 16) : Nat :=
  let k := thr.toNat % (i.w * i.h)
  clusterAt (i.x0 + k % i.w) (i.y0 + k / i.w)

/-- A slot entry's word 0, which names a place and a tag (Table 7.5). -/
def placeWord (p : Place) (t : Tag) : W64 :=
  BitVec.ofNat 8 p.x ++ BitVec.ofNat 8 p.y ++ BitVec.ofNat 5 p.pe ++ BitVec.ofNat 3 p.slot ++ t.thr ++ t.wave

/-! ### Instances -/

def findInst (s : State) (id : Nat) : Option Inst := s.insts.find? fun i => decide (i.iid = id)
def modInst (id : Nat) (f : Inst → Inst) (s : State) : State :=
  { s with insts := s.insts.map fun i => if i.iid = id then f i else i }
/-- No PE selects, no wave-order unit performs and no engine takes anything for an instance that is being swept, saved or
ended (R318, R368 step 1, R183). -/
def halting (s : State) (id : Nat) : Bool :=
  !((findInst s id).any fun i => decide (i.phase = .running) && !i.ending)
/-- The instance that occupies a cluster: placed, not saved. -/
def instAt (s : State) (cl : Nat) : Option Inst :=
  s.insts.find? fun i => decide (i.phase ≠ .saved) && (instCls i).contains cl

/-- The record's words in a slot, and the record. -/
def slotWords (i : Inst) (p : Place) : Option (List W64) := (i.slots.find? fun c => decide (c.1 = p)).map (·.2)
def slotInstr (i : Inst) (p : Place) : Option Instr :=
  match slotWords i p with
  | none => none
  | some ws =>
    match decode ws with
    | .ok x => some x
    | .error _ => none

/-- The entry of an instance's format table. -/
def fmtOf (s : State) (inst : Nat) (k : Nat) : W64 :=
  match findInst s inst with
  | some i => i.fmt.getD k 0#64
  | none => 0#64

/-- The context of an instance. -/
def findCtx (s : State) (h : Nat) : Option Ctx := s.fe.ctxs.find? fun c => decide (c.handle = h)
def modCtx (h : Nat) (f : Ctx → Ctx) (s : State) : State :=
  { s with fe := { s.fe with ctxs := s.fe.ctxs.map fun c => if c.handle = h then f c else c } }
def ctxOfInst (s : State) (inst : Nat) : Option Ctx := (findInst s inst).bind fun i => findCtx s i.ctx

/-! ### Threads (R160) -/

/-- A THR the list does not name: FREE, CW 0, LAST none (R160). -/
def freshThread (t : BitVec 16) : Thread :=
  { thr := t, st := .free, cw := 0#24, last := none, frame := none, eos := false, chain := t.toNat, acq := none, cov := [] }
def getThr (i : Inst) (t : BitVec 16) : Thread :=
  (i.threads.find? fun x => decide (x.thr = t)).getD (freshThread t)
def putThr (l : List Thread) (th : Thread) : List Thread :=
  match l with
  | [] => [th]
  | x :: r => if x.thr = th.thr then th :: r else x :: putThr r th
def setThr (th : Thread) (i : Inst) : Inst := { i with threads := putThr i.threads th }
/-- The thread's entry in the state; an absent instance has none but fresh ones. -/
def thrOf (s : State) (inst : Nat) (t : BitVec 16) : Thread :=
  match findInst s inst with
  | some i => getThr i t
  | none => freshThread t
def modThr (inst : Nat) (t : BitVec 16) (f : Thread → Thread) (s : State) : State :=
  modInst inst (fun i => setThr (f (getThr i t)) i) s

/-- The lowest-numbered FREE THR that is `k` modulo `n`, if any (R164, R168). -/
def lowestFree (i : Inst) (k n : Nat) : Option (BitVec 16) :=
  let cand (j : Nat) : Nat := k + j * n
  let free (v : Nat) : Bool := decide (v < 65536) && decide ((getThr i (BitVec.ofNat 16 v)).st = .free)
  ((List.range (i.threads.length + 1)).find? fun j => free (cand j)).map fun j => BitVec.ofNat 16 (cand j)

/-! ### Operations in progress -/

def findOp (s : State) (id : Nat) : Option Op := s.ops.find? fun o => decide (o.id = id)
def modOp (id : Nat) (f : Op → Op) (s : State) : State :=
  { s with ops := s.ops.map fun o => if o.id = id then f o else o }
def delOp (id : Nat) (s : State) : State := { s with ops := s.ops.filter fun o => decide (o.id ≠ id) }
def findX (s : State) (id : Nat) : Option Xfer := s.xfers.find? fun x => decide (x.id = id)
def modX (id : Nat) (f : Xfer → Xfer) (s : State) : State :=
  { s with xfers := s.xfers.map fun x => if x.id = id then f x else x }
def delX (id : Nat) (s : State) : State := { s with xfers := s.xfers.filter fun x => decide (x.id ≠ id) }

/-- The firing that an operation stands for. -/
def opFiring (o : Op) : Firing := ⟨o.inst, o.place, o.tag, o.a, o.b, o.c⟩

/-- The ORD of an instruction, as far as it takes a place in a memory chain (Table 1.3). -/
def ordOf : Instr → Ord
  | .ld r | .st r | .ldx r | .stx r | .mnop r | .pf r | .amo _ r | .cas r | .red _ r | .xred r | .xrd r | .fenceAcq r
  | .fenceRel r | .fenceAr r | .fenceSc r | .own r | .invRegion r | .invAll r | .wbk r | .ftset r => r.ord
  | .xcopy _ | .xgath _ | .xscat _ | .xtile _ | .xfill _ | .xacc _ => .ord
  | _ => .unord
def seqOf : Instr → Seq
  | .ld r | .st r | .ldx r | .stx r | .mnop r | .pf r | .amo _ r | .cas r | .red _ r | .xred r | .xrd r | .fenceAcq r
  | .fenceRel r | .fenceAr r | .fenceSc r | .own r | .invRegion r | .invAll r | .wbk r | .ftset r => r.seq
  | .xcopy r | .xgath r | .xscat r | .xtile r | .xfill r | .xacc r => r.seq
  | _ => ⟨0#10, 0#10, 0#10⟩
def isOrdered (i : Instr) : Bool := decide (ordOf i ≠ .unord)

/-- A parked request of this kind waits in a wave-order unit (Table 16.4, SRC 0 and 1). -/
def parksAtUnit : Instr → Bool
  | .tld _ _ | .tldAcc _ _ | .tst _ _ | .tstAcc _ _ | .sstrm _ _ => false
  | _ => true
/-- Whether the wave-order unit of the thread's home cluster holds the operation as a request of its thread (R161): pending or waiting
outside, waiting for what a release covers, parked there, a hand-off or a return. -/
def heldRequest (home : Nat) (o : Op) : Bool :=
  match o.ph with
  | .wouOut | .wouPend | .release | .ftset | .callHold | .retHold => true
  | .parked _ => isOrdered o.ins || (parksAtUnit o.ins && decide (o.cl = home))
  | _ => false

/-- R161: an ENDED thread that no request of its own holds becomes FREE; LAST is cleared, CW kept. -/
def freeThread (ops : List Op) (i : Inst) (th : Thread) : Thread :=
  if th.st = .ended ∧ !(ops.any fun o => decide (o.inst = i.iid) && decide (o.tag.thr = th.thr) && heldRequest (homeCl i th.thr) o) then
    { th with st := .free, last := none, eos := false, acq := none }
  else th
def freeEnded (inst : Nat) (s : State) : State :=
  modInst inst (fun i => { i with threads := i.threads.map (freeThread s.ops i) }) s

/-- A new operation of the record that fires: in the given phase, with captured entries (R89). Returns its number. -/
def newOp (i : Instr) (ph : Phase) (cl : Nat) (cap : List (Nat × W64)) (s : State) : Nat × State :=
  let f := s.firing
  let th := thrOf s f.inst f.tag.thr
  let o : Op :=
    { id := s.nextId, inst := f.inst, place := f.place, tag := f.tag, ins := i, a := f.a, b := f.b, c := f.c, cl := cl,
      cap := cap, ph := ph, arr := s.nextId, chain := th.chain, seqNo := 0, err := none, got := [], snap := [], els := [], left := [],
      stale := false, val := 0#256, n := 0, act := none, todo := none, replay := 0 }
  (s.nextId, { s with nextId := s.nextId + 1, ops := s.ops ++ [o] })

/-- The cluster of the PE that fires (R21). -/
def firingCl (s : State) : Nat :=
  match findInst s s.firing.inst with
  | some i => instCl i s.firing.place
  | none => 0
/-- The home cluster of the thread that fires (R21). -/
def firingHome (s : State) : Nat :=
  match findInst s s.firing.inst with
  | some i => homeCl i s.firing.tag.thr
  | none => 0

/-- The entries captured of the named slots (R89). -/
def capture (s : State) (inst : Nat) (slots : List Nat) : List (Nat × W64) := slots.map fun k => (k, fmtOf s inst k)
def capOf (cap : List (Nat × W64)) (k : Nat) : W64 := assocGet 0#64 cap k

/-! ### Tokens -/

/-- SENT and ACT of a node (R182); a node that the list lacks is added. -/
def bumpNodes (l : List Node) (n : SweepNode) (snt rcv : Nat) : List Node :=
  match l with
  | [] => [{ node := n, sent := BitVec.ofNat 64 snt, recv := BitVec.ofNat 64 rcv, act := true }]
  | x :: r =>
    if x.node = n then
      { x with sent := x.sent + BitVec.ofNat 64 snt, recv := x.recv + BitVec.ofNat 64 rcv, act := true } :: r
    else x :: bumpNodes r n snt rcv
def bumpNode (inst : Nat) (n : SweepNode) (snt rcv : Nat) (s : State) : State :=
  modInst inst (fun i => { i with nodes := bumpNodes i.nodes n snt rcv }) s

/-- The slot that a target names, relative to the record's own cluster (R20). -/
def targetPlace (p : Place) (t : Target) : Place :=
  { x := ((p.x : Int) + t.dx.toInt).toNat, y := ((p.y : Int) + t.dy.toInt).toNat, pe := t.pe.toNat, slot := t.slot.toNat }

/-- The node of a place's cluster (R182). -/
def placeNode (s : State) (inst : Nat) (p : Place) : SweepNode :=
  match findInst s inst with
  | some i => .cluster (rowIdx i p)
  | none => .cluster 0

/-- One token to every target, in target order (emit() of R7). -/
def sendTok (inst : Nat) (src : Src) (node : SweepNode) (p : Place) (ts : List Target) (k : Tok) (s : State) : State :=
  bumpNode inst node ts.length 0
    { s with flights := s.flights ++ ts.map fun t =>
        { inst := inst, src := src, node := node, sent := s.tick, dst := targetPlace p t, opnd := t.opnd, tok := k } }

/-- A token from a slot to the record's targets. -/
def sendFrom (inst : Nat) (p : Place) (ts : List Target) (k : Tok) (s : State) : State :=
  sendTok inst (.slot p) (placeNode s inst p) p ts k s

/-- The memory operations that the operands bring (assumption 12). -/
def unionNat (a b : List (Nat × Nat)) : List (Nat × Nat) := a ++ b.filter fun x => !a.contains x
def firingDeps (f : Firing) : List (Nat × Nat) := unionNat (unionNat f.a.deps f.b.deps) f.c.deps
/-- S of the result: the OR of the operands' (R97). -/
def sOr (f : Firing) : Bool := f.a.s || f.b.s || f.c.s

/-- The code of the first operand in the order a, b, c that carries E (R17); bits [63:0] of its payload (R360). -/
def firstErr (f : Firing) : Option W64 :=
  if f.a.e then some (f.a.payload.setWidth 64)
  else if f.b.e then some (f.b.payload.setWidth 64)
  else if f.c.e then some (f.c.payload.setWidth 64)
  else none

/-- A result token under a tag, in the record's result width (R97). -/
def emitAt (f : Firing) (i : Instr) (tag : Tag) (pay : W256) (sf : Bool) (s : State) : State :=
  sendFrom f.inst f.place (targetsOf i)
    { payload := pay, wide := resWide i, tag := tag, e := false, s := sf, deps := firingDeps f } s
/-- A result token under the firing tag, S being the OR of the operands'. -/
def emitVal (f : Firing) (i : Instr) (pay : W256) (s : State) : State := emitAt f i f.tag pay (sOr f) s
/-- A 64-bit result. -/
def emit64 (f : Firing) (i : Instr) (v : W64) (s : State) : State := emitVal f i (v.setWidth 256) s

/-- The error token of err() or of R17: under the firing tag, to every target. -/
def emitErr (f : Firing) (i : Instr) (code : W64) (s : State) : State :=
  sendFrom f.inst f.place (targetsOf i)
    { payload := code.setWidth 256, wide := resWide i, tag := f.tag, e := true, s := sOr f, deps := firingDeps f } s

/-- R17 before a record's own effect. -/
def unlessErr (i : Instr) (body : State → State) (s : State) : Out :=
  match firstErr s.firing with
  | some c => .next (emitErr s.firing i c s)
  | none => .next (body s)

/-- Error codes with their detail (Table 16.10). -/
def errIllfmt (slot : Nat) : W64 := (BitVec.ofNat 5 slot).setWidth 64 <<< 8 ||| 0x01#64
def errTileOob (h : Nat) : W64 := (BitVec.ofNat 8 h).setWidth 64 <<< 8 ||| 0x02#64
def errTileState (h : Nat) : W64 := (BitVec.ofNat 8 h).setWidth 64 <<< 8 ||| 0x03#64
def errAddr (code : BitVec 8) (a : Nat) : W64 := BitVec.ofNat 56 a ++ code
def errPoison (a : Nat) : W64 := errAddr 0x04#8 a
def errAlign (a : Nat) : W64 := errAddr 0x06#8 a
def errPerm (a : Nat) : W64 := errAddr 0x07#8 a
def errDiv0 : W64 := 0x08#64
def errCallBad (entry : W32) : W64 := 0#24 ++ entry ++ 0x0A#8

/-! ### Sticky flags, ends of streams, recorded errors -/

/-- Raising flags is an OR (R87). -/
def raise (inst : Nat) (fl : Flags) (s : State) : State := modInst inst (fun i => { i with flags := i.flags ||| fl }) s

/-- end_of_stream(t): the first call ends the thread (R110, R161). -/
def endThread (th : Thread) : Thread :=
  match th.st with
  | .live => { th with st := .ended }
  | .caller => { th with eos := true }
  | _ => th
def endOfStream (inst : Nat) (t : BitVec 16) (s : State) : State :=
  freeEnded inst (modInst inst (fun i => { i with threads := i.threads.map fun th => if th.thr = t then endThread th else th }) s)
def endIf (b : Bool) (inst : Nat) (t : BitVec 16) (s : State) : State := if b then endOfStream inst t s else s

/-- Order of slots: row-major cluster index, PE, slot. -/
def slotNo (i : Inst) (p : Place) : Nat := (rowIdx i p * 32 + p.pe) * 8 + p.slot
/-- The PE of a place, numbered within the instance. -/
def peNo (i : Inst) (p : Place) : Nat := rowIdx i p * 32 + p.pe
/-- An error's code, tag and place are recorded: those of the first, and of several in one cycle, in which a PE fires once, those of the lowest cluster
and PE (R111; assumption 50). -/
def recordsPlace (now : Nat) (i : Inst) (p : Place) : Bool :=
  decide (i.errCnt = 0#32 ∨ (i.errAt = now + 1 ∧ peNo i p < peNo i i.errPlace))
/-- record_error() (R111). A second error of the PE whose error is recorded comes in a later cycle. -/
def recordError (inst : Nat) (code : Byte) (tag : Tag) (p : Place) (s : State) : State :=
  modInst inst (fun i =>
    let i' := if recordsPlace s.time i p then { i with errCode := code, errTag := tag, errPlace := p, errAt := s.time + 1 }
      else if peNo i p = peNo i i.errPlace then { i with errAt := 0 } else i
    { i' with errCnt := if i.errCnt = 0xFFFFFFFF#32 then i.errCnt else i.errCnt + 1#32 }) s

/-! ### Taking an exception: a request parks, or an entry informs (R352 to R355) -/

/-- Dies that a rectangle covers: CMAP (Table 15.8). -/
def cmapOf (i : Inst) : BitVec 4 :=
  (instCls i).foldl (fun m c => m ||| (1#4 <<< dieOf c)) 0#4
/-- Contact sheet words (Table 15.8). -/
def sheet0 (s : State) (i : Inst) : W64 :=
  let asid := ((findCtx s i.ctx).map (·.asid)).getD 0#16
  asid ++ cmapOf i ++ 0#4 ++ i.epoch ++ i.num
def sheet1 (i : Inst) : W64 :=
  BitVec.ofNat 8 i.x0 ++ BitVec.ofNat 8 i.y0 ++ BitVec.ofNat 8 i.w ++ BitVec.ofNat 8 i.h ++ 0#32

/-- The next fault identifier: rises by 1, from 2^32 − 1 to 1 (R355). -/
def nextFidOf (f : W32) : W32 := if f = 0xFFFFFFFF#32 then 1#32 else f + 1#32

/-- What an entry says beyond its instance (Table 16.6). -/
structure Why where
  kind  : Byte
  src   : BitVec 4
  acc   : BitVec 4
  level : Byte
  va    : W64
  place : W64
  data  : W64
  deriving DecidableEq, Repr

/-- Kinds 0x01 to 0x05 stay outstanding until resumed (R355). -/
def Why.stays (w : Why) : Bool := decide (1 ≤ w.kind.toNat ∧ w.kind.toNat ≤ 5)

/-- The entry for an instance (none: SHEET0, SHEET1 zero and the given FDOM). -/
def mkEntry (s : State) (inst : Option Nat) (fdom : W32) (fid : W32) (w : Why) : FEntry :=
  let i := inst.bind (findInst s)
  { fid := fid, kind := w.kind, src := w.src, acc := w.acc, level := w.level, va := w.va, place := w.place,
    sheet0 := (i.map (sheet0 s)).getD 0#64, sheet1 := (i.map sheet1).getD 0#64, fdom := (i.map (·.fdom)).getD fdom,
    data := w.data, time := BitVec.ofNat 64 s.time, inst := inst.getD 0 }

/-- TAKING AN EXCEPTION. The context's next FID is given out; the entry waits, in FID order, to be written to the fault
queue (R353), and stays outstanding when its kind does (R355). Returns the FID. -/
def takeException (ctx : Nat) (inst : Option Nat) (fdom : W32) (w : Why) (s : State) : W32 × State :=
  match findCtx s ctx with
  | none => (0#32, s)
  | some c =>
    let e := mkEntry s inst fdom c.nextFid w
    (c.nextFid, modCtx ctx (fun c =>
      { c with nextFid := nextFidOf c.nextFid, held := c.held ++ [e], out := if w.stays then c.out ++ [e] else c.out }) s)

/-- Returning from an exception: the entry is outstanding no longer (R357). -/
def endException (ctx : Nat) (fid : W32) (s : State) : State :=
  modCtx ctx (fun c => { c with out := c.out.filter fun e => decide (e.fid ≠ fid) }) s

/-- An operation's exception: the entry names its instance, place and tag. -/
def opException (o : Op) (w : Why) (s : State) : W32 × State :=
  match findInst s o.inst with
  | some i => takeException i.ctx (some o.inst) 0#32 { w with place := placeWord o.place o.tag } s
  | none => (0#32, s)

end Sys2Proof.Machine
end

