-- ==== Sys2Proof/Machine/Flags.lean ====
section
/-! DEFINITION. Sticky flags that values raise (R87): what preparing an operand raises, and the exact functions of the
float group with the flags of their invalid operations and divisions by zero (Table 6.1). -/
namespace Sys2Proof.Machine

/-- Flags of a signalling NaN consumed (R78). -/
def sigFlag (v : Val) : Flags := if v.isSig then flNV else 0#5

/-- R136: the operand's value, a signalling NaN made quiet, negated under its bit. -/
def prepVal (e : W64) (neg : Bool) (bits : Nat) : Val × Flags :=
  let v := decodeVal e bits
  let q := v.quiet
  (if neg then q.neg else q, sigFlag v)

/-- A result with the flag of an invalid operation. -/
def invalidIf (r : Val × Bool) : Val × Flags := (r.1, if r.2 then flNV else 0#5)

/-- The first NaN of a list, if any: its sign is the result's (R78, R136). -/
def firstNan : List Val → Option Val
  | [] => none
  | v :: t => if v.isNan then some (.nan v.sign false) else firstNan t

/-- The first NaN operand, else the result given. -/
def orNan (l : List Val) (r : Val × Flags) : Val × Flags :=
  match firstNan l with
  | some n => (n, 0#5)
  | none => r

/-- a + b. -/
def opAdd (rdn : Bool) (a b : Val) : Val × Flags := orNan [a, b] (invalidIf (vadd rdn a b))
def opSub (rdn : Bool) (a b : Val) : Val × Flags := orNan [a, b] (invalidIf (vadd rdn a b.neg))
def opMul (a b : Val) : Val × Flags := orNan [a, b] (invalidIf (vmul a b))

/-- ±(a · b) ± c with one rounding later; 0 · inf is invalid even when c is a quiet NaN (Table 6.1). The NaN then has the sign
of c, the first NaN operand, where R136 and R78 also give sign 0 for an invalid operation (DEDUCED; assumption 49). -/
def opFma (rdn np nc : Bool) (a b c : Val) : Val × Flags :=
  let p := vmul a b
  let x := if np then p.1.neg else p.1
  let y := if nc then c.neg else c
  match firstNan [a, b, c] with
  | some n => (n, if p.2 then flNV else 0#5)
  | none => if p.2 then (.nan false false, flNV) else invalidIf (vadd rdn x y)

/-- a / b. -/
def opDiv (a b : Val) : Val × Flags :=
  orNan [a, b] (
    let s := xor a.sign b.sign
    match a, b with
    | .zero _, .zero _ => (.nan false false, flNV)
    | .inf _, .inf _ => (.nan false false, flNV)
    | .inf _, _ => (.inf s, 0#5)
    | _, .inf _ => (.zero s, 0#5)
    | .zero _, _ => (.zero s, 0#5)
    | _, .zero _ => (.inf s, flDZ)
    | .fin _ m e, .fin _ n f => (divFin s m e n f, 0#5)
    | x, _ => (x, 0#5))

def opSqrt (a : Val) : Val × Flags :=
  match a with
  | .nan s _ => (.nan s false, 0#5)
  | .zero s => (.zero s, 0#5)
  | .inf s => if s then (.nan false false, flNV) else (.inf false, 0#5)
  | .fin s m e => if s then (.nan false false, flNV) else (sqrtFin m e, 0#5)

def opRcp (a : Val) : Val × Flags :=
  match a with
  | .nan s _ => (.nan s false, 0#5)
  | .zero s => (.inf s, flDZ)
  | .inf s => (.zero s, 0#5)
  | .fin s m e => (divFin s 1 0 m e, 0#5)

def opRsq (a : Val) : Val × Flags :=
  match a with
  | .nan s _ => (.nan s false, 0#5)
  | .zero s => (.inf s, flDZ)
  | .inf s => if s then (.nan false false, flNV) else (.zero false, 0#5)
  | .fin s m e => if s then (.nan false false, flNV) else (rsqrtFin m e, 0#5)

def opExp2 (a : Val) : Val × Flags :=
  match a with
  | .nan s _ => (.nan s false, 0#5)
  | .inf s => (if s then .zero false else .inf false, 0#5)
  | v => (exp2Val v, 0#5)

def opLog2 (a : Val) : Val × Flags :=
  match a with
  | .nan s _ => (.nan s false, 0#5)
  | .zero _ => (.inf true, flDZ)
  | .inf s => if s then (.nan false false, flNV) else (.inf false, 0#5)
  | .fin s m e => if s then (.nan false false, flNV) else (log2Val m e, 0#5)

/-- Minimum or maximum of two values (R140); `num` gives the operand that is no NaN. -/
def opMinMax (max num : Bool) (a b : Val) : Val :=
  if a.isNan && b.isNan then .nan a.sign false
  else if a.isNan then (if num then b else .nan a.sign false)
  else if b.isNan then (if num then a else .nan b.sign false)
  else if max then (if vltZ a b then b else a) else (if vltZ b a then b else a)

end Sys2Proof.Machine
end

