-- ==== Sys2Proof/Machine/Operands.lean ====
section
/-! DEFINITION. Operand forms: lanes of a payload (R124, R186), substituted operands (R42, R43), and the operand tokens
of a firing (R13). -/
namespace Sys2Proof.Machine

/-- Lane i of `w` bits. -/
def laneOf (w : Nat) (x : W256) (i : Nat) : Nat := x.toNat / 2 ^ (w * i) % 2 ^ w
/-- The first `n` lanes of `w` bits. -/
def lanesOf (w n : Nat) (x : W256) : List Nat := (List.range n).map (laneOf w x)
/-- The number whose lanes of `w` bits are these, lowest first. -/
def joinLanes (w : Nat) : List Nat → Nat
  | [] => 0
  | v :: t => v % 2 ^ w + 2 ^ w * joinLanes w t
def ofLanes (w : Nat) (l : List Nat) : W256 := BitVec.ofNat 256 (joinLanes w l)

/-- Lane width and count of an integer record (R124). -/
def intW (r : IntRec) : Nat := if r.v then 8 * 2 ^ r.lane.toNat else 64
def intN (r : IntRec) : Nat := if r.v then 256 / intW r else 1
/-- Lane container and count of a float record under its entry (R135, R185); a scalar form has one 64-bit lane. -/
def fltW (v : Bool) (e : W64) : Nat := if v then containerOf e else 64
def fltN (v : Bool) (e : W64) : Nat := if v then 256 / containerOf e else 1

/-- A lane as two's complement. -/
def sgn (w : Nat) (u : Nat) : Int := if u ≥ 2 ^ (w - 1) then (u : Int) - 2 ^ w else u
/-- An integer stored in a lane: modulo 2^w. -/
def unsgn (w : Nat) (n : Int) : Nat := (n % 2 ^ w).toNat

/-- v of R42. -/
def substVal (i : Instr) : W64 :=
  match substOf i with
  | .none => 0#64
  | .imm _ v => if grpOf i = .ctl ∨ grpOf i = .int then v.signExtend 64 else v.setWidth 64
  | .ext _ v => v

/-- The integer group's lane width in MOD[39:38] (R43). -/
def laneWidthInt : Instr → Nat
  | .add r | .sub r | .mulLo r | .mulHis r | .mulHiu r | .divS r | .divU r | .remS r | .remU r | .and r | .or r | .xor r
  | .andn r | .shl r | .shrL r | .shrA r | .rotL r | .rotR r | .bcntClz r | .bcntCtz r | .bcntPopc r | .minS r | .minU r
  | .maxS r | .maxU r | .abs r | .cmp _ r | .ext _ r | .bfx r | .bfi r | .lea _ r | .addsS r | .addsU r | .mula r => intW r
  | _ => 64

/-- The substituted operand's payload: v, replicated where the position takes 256 bits (R43). -/
def substPayload (entry : W64) (i : Instr) (wide : Bool) : W256 :=
  let v := substVal i
  if !wide then v.setWidth 256
  else
    let w := match grpOf i with
      | .int => laneWidthInt i
      | .flt | .vec => containerOf entry
      | _ => 64
    ofLanes w (List.replicate (256 / w) v.toNat)

/-- The width of a position that is no "*". -/
def posWide (i : Instr) (p : Pos) : Bool := (((shape i).bind (·.at p)).bind (PW.wide (vOf i))).getD false

/-- The operand of a position: the consumed token, the substituted value, or nothing. -/
def operandTok (entry : W64) (i : Instr) (tag : Tag) (p : Pos) (t : Option Tok) : Tok :=
  let none' : Tok := { payload := 0#256, wide := false, tag := tag, e := false, s := false, deps := [] }
  let subst : Tok := { none' with payload := substPayload entry i (posWide i p), wide := posWide i p }
  match substOf i with
  | .none => t.getD none'
  | .imm q _ => if q = p then subst else t.getD none'
  | .ext q _ => if q = p then subst else t.getD none'

/-- The firing of a record with the tokens of a complete set. -/
def mkFiring (s : State) (inst : Nat) (p : Place) (tag : Tag) (i : Instr) (a b c : Option Tok) : Firing :=
  let e := fmtOf s inst (fsOf i).toNat
  { inst := inst, place := p, tag := tag, a := operandTok e i tag .a a, b := operandTok e i tag .b b,
    c := operandTok e i tag .c c }

/-- Operand payloads of a firing as 64-bit values. -/
def a64 (f : Firing) : W64 := f.a.payload.setWidth 64
def b64 (f : Firing) : W64 := f.b.payload.setWidth 64
def c64 (f : Firing) : W64 := f.c.payload.setWidth 64

end Sys2Proof.Machine
end

