-- ==== Sys2Proof/Machine/Control.lean ====
section
/-! DEFINITION. The control group but for threads, tags, loops and calls (R97 to R123): routing, waves, sinks, ends of
streams, error tokens and system access. -/
namespace Sys2Proof.Machine

/-- R101: operand a unchanged, flags included. -/
def execPass (r : CtlRec) (s : State) : Out :=
  unlessErr (.pass r) (fun s => emitVal s.firing (.pass r) s.firing.a.payload s) s

/-- The value of CONST (R102). -/
def constVal : Subst → W64
  | .none => 0#64
  | .imm _ v => v.signExtend 64
  | .ext _ v => v

/-- R102. -/
def execConst (v : Subst) (t : List Target) (s : State) : Out :=
  unlessErr (.const v t) (fun s => emit64 s.firing (.const v t) (constVal v) s) s

/-- R103: b when the predicate is as wanted; otherwise both are consumed and nothing is emitted (R104).
An operand that carries E gives R17's error token, also where Table 18.4 lets one pass without it (assumption 54). -/
def steer (i : Instr) (want : Bool) (s : State) : State :=
  if decide (a64 s.firing ≠ 0#64) = want then emitVal s.firing i s.firing.b.payload s else s
def execSteerT (r : CtlRec) (s : State) : Out := unlessErr (.steerT r) (steer (.steerT r) true) s
def execSteerF (r : CtlRec) (s : State) : Out := unlessErr (.steerF r) (steer (.steerF r) false) s

/-- R105. -/
def execSelect (r : CtlRec) (s : State) : Out :=
  unlessErr (.select r) (fun s =>
    emitVal s.firing (.select r) (if a64 s.firing ≠ 0#64 then s.firing.b.payload else s.firing.c.payload) s) s

/-- wave_next (R7) and its relatives. -/
def waveAdd (t : Tag) (d : BitVec 24) : Tag := { t with wave := t.wave + d }

/-- R106: operand a unchanged under wave_next. An error token goes into the next wave too, as R23's chapter has it go round a loop
(DEDUCED; assumption 11). -/
def execWaveAdv (r : CtlRec) (s : State) : Out :=
  let f := s.firing
  .next (sendFrom f.inst f.place (targetsOf (.waveAdv r))
    { f.a with wide := resWide (.waveAdv r), tag := waveAdd f.tag 1#24, deps := firingDeps f } s)

/-- R107. -/
def execWaveSet (r : CtlRec) (s : State) : Out :=
  unlessErr (.waveSet r) (fun s =>
    emitAt s.firing (.waveSet r) { s.firing.tag with wave := (b64 s.firing).setWidth 24 } s.firing.a.payload (sOr s.firing) s) s

/-- R109: an error token is recorded, COUNT counts every token, EOS or an S flag ends the thread's stream. -/
def sink (count eos : Bool) (s : State) : State :=
  let f := s.firing
  let s1 := if f.a.e then recordError f.inst (f.a.payload.setWidth 8) f.tag f.place s else s
  let s2 := if count then modInst f.inst (fun i => { i with sinkCnt := i.sinkCnt + 1#64 }) s1 else s1
  endIf (eos || f.a.s) f.inst f.tag.thr s2
def execSinkDrop (s : State) : Out := .next (sink false false s)
def execSinkEos (s : State) : Out := .next (sink false true s)
def execSinkCount (s : State) : Out := .next (sink true false s)

/-- R112: operand a's payload and E, with S = 1. -/
def execEosMake (r : CtlRec) (s : State) : Out :=
  let f := s.firing
  .next (sendFrom f.inst f.place (targetsOf (.eosMake r))
    { f.a with wide := resWide (.eosMake r), tag := f.tag, s := true, deps := firingDeps f } s)

/-- R114: never an error token. -/
def execErrTest (r : CtlRec) (s : State) : Out :=
  .next (emit64 s.firing (.errTest r) (if s.firing.a.e then a64 s.firing else 0#64) s)

/-- R115: operand a with E = 0. -/
def execErrClear (r : CtlRec) (s : State) : Out := .next (emitVal s.firing (.errClear r) s.firing.a.payload s)

/-- R116: an error token with the code, unless a carries one. -/
def execErrMake (r : CtlRec) (code : BitVec 8) (s : State) : Out :=
  unlessErr (.errMake r code) (fun s => emitErr s.firing (.errMake r code) (code.setWidth 64) s) s

/-- R121, R122: an entry of kind TRAP or BREAK; the record's result waits for the reply (R357). -/
def trapEntry (i : Instr) (kind : Byte) (code : BitVec 16) (s : State) : State :=
  let (_, s1) := newOp i .done 0 [] s
  match findOp s1 s.nextId with
  | none => s1
  | some o =>
    let (fid, s2) := opException o
      { kind := kind, src := 5#4, acc := 3#4, level := 0#8, va := 0#64, place := 0#64, data := code.setWidth 64 } s1
    modOp o.id (fun o => { o with ph := .trap fid }) s2

/-- R121. -/
def execSysTrap (code : BitVec 16) (t : List Target) (s : State) : Out :=
  unlessErr (.sysTrap code t) (trapEntry (.sysTrap code t) 0x04#8 code) s

/-- R122: with the context's debug enable clear it emits 0; otherwise the instance selects no further firing. -/
def sysBrk (i : Instr) (code : BitVec 16) (s : State) : State :=
  if ((ctxOfInst s s.firing.inst).map (·.dbg)).getD false then
    modInst s.firing.inst (fun n => { n with
      stopped := true, brkAt := if n.brkAt.isSome then n.brkAt else some (s.time, [(firingCl s, s.firing.place.pe)]) })
      (trapEntry i 0x05#8 code s)
  else emit64 s.firing i 0#64 s
def execSysBrk (code : BitVec 16) (t : List Target) (s : State) : Out :=
  unlessErr (.sysBrk code t) (sysBrk (.sysBrk code t) code) s

/-- Table 5.1: what SYS.QRY returns at a place of an instance. -/
def qryVal (s : State) (i : Inst) (p : Place) (sel : BitVec 8) : W64 :=
  match sel.toNat with
  | 0 | 1 => i.flags.setWidth 64
  | 2 => i.sinkCnt
  | 3 => i.errCnt ++ 0#24 ++ (if i.errCnt = 0#32 then 0#8 else i.errCode)
  | 4 => 0#48 ++ BitVec.ofNat 8 i.w ++ BitVec.ofNat 8 i.h
  | 5 => 0#32 ++ BitVec.ofNat 8 p.x ++ BitVec.ofNat 8 p.y ++ 0#3 ++ BitVec.ofNat 5 p.pe ++ 0#5 ++ BitVec.ofNat 3 p.slot
  | 6 => 0#44 ++ BitVec.ofNat 4 (dieOf (instCl i p)) ++ BitVec.ofNat 8 i.x0 ++ BitVec.ofNat 8 i.y0
  | _ => 0#16 ++ ((findCtx s i.ctx).map (·.asid)).getD 0#16 ++ i.num

/-- R117, R118: FLAGSCLR reads and clears in one step. -/
def sysQry (i : Instr) (sel : BitVec 8) (s : State) : State :=
  match findInst s s.firing.inst with
  | none => s
  | some n =>
    let v := qryVal s n s.firing.place sel
    emit64 s.firing i v (if sel = 1#8 then modInst n.iid (fun n => { n with flags := 0#5 }) s else s)
def execSysQry (sel : BitVec 8) (t : List Target) (s : State) : Out :=
  unlessErr (.sysQry sel t) (sysQry (.sysQry sel t) sel) s

/-- R120: the timestamp when the record fires. -/
def execSysClk (t : List Target) (s : State) : Out :=
  unlessErr (.sysClk t) (fun s => emit64 s.firing (.sysClk t) (BitVec.ofNat 64 s.time) s) s

end Sys2Proof.Machine
end

