-- ==== Sys2Proof/Machine/Aes.lean ====
section
/-! DEFINITION. AES-256 encryption of one block (R413 names the cipher; its tables and key schedule are those of FIPS-197,
assumption 16). A block and a key are lists of bytes, byte 0 first. -/
namespace Sys2Proof.Machine

/-- Multiplication by x in GF(2^8). -/
def xtime (b : Nat) : Nat := if b < 128 then 2 * b else (2 * b - 256) ^^^ 0x1B

/-- The product in GF(2^8) by the low `n` bits of the second factor, most significant first. -/
def gfMulFrom (a b : Nat) : Nat → Nat → Nat
  | 0, r => r
  | n + 1, r => gfMulFrom a b n ((xtime r) ^^^ (if b.testBit n then a else 0))
def gfMul (a b : Nat) : Nat := gfMulFrom a b 8 0

/-- a^254, the inverse of a non-zero a. -/
def gfInv (a : Nat) : Nat :=
  let sq (x : Nat) : Nat := gfMul x x
  let a2 := sq a
  let a4 := sq a2
  let a8 := sq a4
  let a16 := sq a8
  let a32 := sq a16
  let a64 := sq a32
  let a128 := sq a64
  gfMul a128 (gfMul a64 (gfMul a32 (gfMul a16 (gfMul a8 (gfMul a4 a2)))))

/-- An eight-bit rotation to the left. -/
def rotl8 (b k : Nat) : Nat := (b * 2 ^ k) % 256 + b / 2 ^ (8 - k)

/-- The S-box: the inverse, then the affine map. -/
def sbox (b : Nat) : Nat :=
  let i := gfInv b
  i ^^^ rotl8 i 1 ^^^ rotl8 i 2 ^^^ rotl8 i 3 ^^^ rotl8 i 4 ^^^ 0x63

def xorList (a b : List Nat) : List Nat := List.zipWith (· ^^^ ·) a b

/-- Words of the key schedule, latest first, from the eight words of the key. -/
def keyWords : Nat → Nat → List (List Nat) → Nat → List (List Nat)
  | 0, _, ws, _ => ws
  | n + 1, i, ws, rc =>
    let t := ws.headD []
    let old := ws.getD 7 []
    if i % 8 = 0 then
      let r := (t.drop 1 ++ t.take 1).map sbox
      keyWords n (i + 1) (xorList old (xorList r [rc, 0, 0, 0]) :: ws) (xtime rc)
    else if i % 8 = 4 then keyWords n (i + 1) (xorList old (t.map sbox) :: ws) rc
    else keyWords n (i + 1) (xorList old t :: ws) rc

/-- Pieces of four. -/
def chunks4 : Nat → List Nat → List (List Nat)
  | 0, _ => []
  | n + 1, l => l.take 4 :: chunks4 n (l.drop 4)

/-- The fifteen round keys of sixteen bytes. -/
def roundKeys (key : List Nat) : List (List Nat) :=
  let ws := (keyWords 52 8 (chunks4 8 key).reverse 1).reverse
  (List.range 15).map fun r => ((ws.drop (4 * r)).take 4).flatten

/-- ShiftRows on a block whose byte 4·c + r is row r of column c. -/
def shiftRows (s : List Nat) : List Nat :=
  (List.range 16).map fun k => s.getD ((4 * ((k / 4 + k % 4) % 4)) + k % 4) 0

def mixColumn (c : List Nat) : List Nat :=
  let g (k : Nat) : Nat := c.getD (k % 4) 0
  (List.range 4).map fun r => xtime (g r) ^^^ (xtime (g (r + 1)) ^^^ g (r + 1)) ^^^ g (r + 2) ^^^ g (r + 3)
def mixColumns (s : List Nat) : List Nat := ((chunks4 4 s).map mixColumn).flatten

/-- Rounds 1 to 13 with MixColumns, the last without. -/
def aesRounds : List (List Nat) → List Nat → List Nat
  | [], s => s
  | [k], s => xorList (shiftRows (s.map sbox)) k
  | k :: t, s => aesRounds t (xorList (mixColumns (shiftRows (s.map sbox))) k)
def aesBlock (key blk : List Nat) : List Nat :=
  match roundKeys key with
  | [] => blk
  | k :: t => aesRounds t (xorList blk k)

/-- Bytes of a number, most significant first. -/
def beBytes (v n : Nat) : List Nat := (List.range n).map fun k => v / 256 ^ (n - 1 - k) % 256

/-- The keystream of a sector: four counter blocks (R413). -/
def keystream (key : W256) (pa ctr : Nat) : List Nat :=
  ((List.range 4).map fun j => aesBlock (beBytes key.toNat 32) (beBytes ((pa / 64) * 2 ^ 82 + j * 2 ^ 80 + ctr) 16)).flatten

end Sys2Proof.Machine
end

