-- ==== Sys2Proof/Machine/Hbm.lean ====
section
/-! DEFINITION. Physical memory below the caches: the address map (R379, R380), error counters and log (R417), sectors in
HBM with their poison, encryption and integrity (R407 to R416). -/
namespace Sys2Proof.Machine

/-! ### Error counters and log (R417) -/

/-- Counter numbers, in table order from HBMCE. -/
def ctrHBMCE : Nat := 0
def ctrHBMUE : Nat := 1
def ctrHBMCRC : Nat := 2
def ctrHBMLINK : Nat := 3
def ctrDIRCE : Nat := 4
def ctrDIRUE : Nat := 5
def ctrINTEG : Nat := 6
def ctrSRAMUE : Nat := 7
def ctrSRAMCE : Nat := 8
def ctrNOPATH : Nat := 9
def ctrFABCRC : Nat := 10
def ctrFABRETR : Nat := 11
def ctrHOSTERR : Nat := 12
def ctrFEACC : Nat := 13

/-- A counter rises by one and saturates. -/
def count (k : Nat) (s : State) : State :=
  let c := s.ras.ctrs.getD k 0#32
  { s with ras := { s.ras with ctrs := s.ras.ctrs.set k (if c = 0xFFFFFFFF#32 then c else c + 1#32) } }

/-- One log entry: written whole, then LOGW rises; entry i stands at i mod 64. -/
def logEvent (k : Nat) (die unit pa : Nat) (s : State) : State :=
  let e : LogEnt := { ctr := BitVec.ofNat 8 k, die := BitVec.ofNat 4 die, unit := BitVec.ofNat 10 unit,
                      pa := BitVec.ofNat 64 pa, time := BitVec.ofNat 64 s.time }
  { s with ras := { s.ras with
      log := if s.ras.log.length < 64 then s.ras.log ++ [e] else s.ras.log.set (s.ras.logW.toNat % 64) e,
      logW := s.ras.logW + 1#64 } }
def countLog (k die unit pa : Nat) (s : State) : State := logEvent k die unit pa (count k s)

/-! ### The physical map (R379, R380) -/

def sectorOf (pa : Nat) : Nat := pa / 64 * 64
def lineOf (pa : Nat) : Nat := pa / 256 * 256
def homeDie (pa : Nat) : Nat := pa / 2 ^ 38 % 4
/-- The home slice's number within the package (R207). -/
def homeOf (pa : Nat) : Nat := 128 * homeDie pa + (Config.homeSlice (pa / 256)).val
def mmioBase : Nat := 2 ^ 40
def hostBase : Nat := 2 ^ 48
def peerBase : Nat := 2 ^ 51
def isDevice (pa : Nat) : Bool := decide (pa < 2 ^ 40)
def isHost (pa : Nat) : Bool := decide (2 ^ 48 ≤ pa ∧ pa < 2 ^ 49)
def isPeer (pa : Nat) : Bool := decide (2 ^ 51 ≤ pa ∧ pa < 2 ^ 52)
def isMmio (pa : Nat) : Bool := decide (2 ^ 40 ≤ pa ∧ pa < 2 ^ 40 + 2 ^ 26)

/-- The die and the stack of an address are in service: their DIEOK and STKOK bits, once bring-up has finished (R429). -/
def stackOk (s : State) (pa : Nat) : Bool :=
  !s.pwr.ready || decide (s.pwr.stkok = 0xFFF#12 ∧ s.pwr.dieok = 0xF#4) ||
    (s.pwr.dieok.getLsbD (homeDie pa) && s.pwr.stkok.getLsbD (3 * homeDie pa + (Config.stackOf (pa / 64)).val))
/-- Populated device memory whose stack is in service (R379, R429). -/
def devicePresent (s : State) (pa : Nat) : Bool :=
  isDevice pa && decide (pa % 2 ^ 38 < s.link.memcap.toNat) && stackOk s pa
/-- The channel of a sector is out of service (R409). -/
def channelOut (s : State) (pa : Nat) : Bool := s.co.outCh.contains (Config.channelOf (pa / 64))
/-- The host link carries accesses: PCIe or CXL mode (R380, R382). -/
def hostUp (s : State) : Bool := decide (s.link.mode = 1#2 ∨ s.link.mode = 2#2)
/-- Host memory is cached under CXL.cache (R388, R392). -/
def hostCached (s : State) : Bool := decide (s.link.mode = 2#2) && s.link.cache
/-- The host may hold copies of device memory (R391). -/
def hostMem (s : State) : Bool := decide (s.link.mode = 2#2) && s.link.mem

/-- What a physical address holds under a page kind COH (R210, R211, R380). -/
def kindAt (s : State) (coh : Nat) (pa : Nat) : Kind :=
  if isDevice pa then
    if devicePresent s pa then (if coh = 0 then .s else if coh = 1 then .d else .u) else .hole
  else if isMmio pa then .mmio
  else if isHost pa then (if !hostUp s then .hole else if hostCached s && decide (coh ≠ 2) then .hostc else .hostu)
  else if isPeer pa then .peer
  else .hole

/-- A peer's memory, as the model keeps it: node n, target address o (R395; assumption 17). -/
def peerAddr (node : BitVec 20) (off : Nat) : Nat := 2 ^ 52 + node.toNat * 2 ^ 40 + off

/-- The I/O die of a fabric port (R417). -/
def portDie (p : Nat) : Nat := if p < 48 then 4 else 5
/-- The event of R380, reported once by the interface that completed the access. -/
def reportHole (cl pa : Nat) (s : State) : State :=
  if isHost pa then countLog ctrNOPATH 4 0 pa s
  else if isPeer pa then countLog ctrNOPATH (portDie s.fab.last) s.fab.last pa s
  else countLog ctrNOPATH (dieOf cl) (cl % 128) pa s

/-- Who makes an access: a cluster, a transfer engine (numbered across the package), or the front end. -/
inductive Who where
  | cluster (cl : Nat)
  | engine (k : Nat)
  | front
  deriving DecidableEq, Repr
/-- The same event, by who met it (R417). -/
def reportHoleBy (w : Who) (pa : Nat) (s : State) : State :=
  match w with
  | .cluster cl => reportHole cl pa s
  | .engine k => if isHost pa || isPeer pa then reportHole 0 pa s else countLog ctrNOPATH (k / 32) (128 + k % 32) pa s
  | .front => if isPeer pa then reportHole 0 pa s else countLog ctrNOPATH 4 0 pa s

/-! ### Sectors as sixteen words -/

/-- Byte k of a sector. -/
def secByte (d : List W32) (k : Nat) : Byte := (d.getD (k / 4) 0#32).extractLsb' (8 * (k % 4)) 8
def secBytes (d : List W32) : List Byte := (List.range 64).map (secByte d)
/-- A word of four bytes, lowest first. -/
def wordOfBytes (l : List Byte) : W32 := l.getD 3 0#8 ++ l.getD 2 0#8 ++ l.getD 1 0#8 ++ l.getD 0 0#8
/-- The words of a list of bytes. -/
def secOfBytes (l : List Byte) : List W32 := (List.range 16).map fun k => wordOfBytes ((l.drop (4 * k)).take 4)
def zeroSec : List W32 := List.replicate 16 0#32

/-- A word with some of its bytes replaced: those whose mask bit is 1. -/
def mergeWord (old new : W32) (mask : BitVec 4) : W32 :=
  let b (k : Nat) : Byte := if mask.getLsbD k then new.extractLsb' (8 * k) 8 else old.extractLsb' (8 * k) 8
  b 3 ++ b 2 ++ b 1 ++ b 0

/-- The bytes of an access within a sector at offset `off`, as a word and a mask for word k. -/
def wordPart (off : Nat) (bs : List Byte) (k : Nat) : W32 × BitVec 4 :=
  let g (j : Nat) : Option Byte := if 4 * k + j < off then none else bs[4 * k + j - off]?
  let v := ((g 3).getD 0#8) ++ ((g 2).getD 0#8) ++ ((g 1).getD 0#8) ++ ((g 0).getD 0#8)
  (v, BitVec.ofBool (g 3).isSome ++ BitVec.ofBool (g 2).isSome ++ BitVec.ofBool (g 1).isSome ++ BitVec.ofBool (g 0).isSome)

/-- Writing bytes into a sector: a whole word written clears its poison mark, fewer bytes leave it (R410). -/
def secWrite (d : List W32) (pz : BitVec 16) (off : Nat) (bs : List Byte) : List W32 × BitVec 16 :=
  ((List.range 16).map fun k => let p := wordPart off bs k; mergeWord (d.getD k 0#32) p.1 p.2,
   BitVec.ofNat 16 (((List.range 16).map fun k =>
     if pz.getLsbD k && decide ((wordPart off bs k).2 ≠ 0xF#4) then 2 ^ k else 0).foldl (· + ·) 0))

/-! ### HBM: encryption, integrity, poison -/

/-- The data key of a key ID: zero until one is loaded (assumption 18). -/
def keyData (s : State) (k : Nat) : W256 := assocGet 0#256 s.ras.keys k
/-- A key number above 255 marks an INTEG page. -/
def keyId (key : Nat) : Nat := key % 256
def keyInteg (key : Nat) : Bool := decide (key ≥ 256)

/-- The counter block of a 4 KiB group: MAJOR and the MINORs. -/
def groupOf (s : State) (pa : Nat) : Nat × List Nat :=
  match s.ras.groups.find? fun g => decide (g.1 = pa / 4096) with
  | some g => g.2
  | none => (0, List.replicate 64 0)
def minorAt (g : Nat × List Nat) (pa : Nat) : Nat := g.2.getD (pa / 64 % 64) 0
/-- The counter block of a group, or a tree node above it, has failed (R416). -/
def grpBad (s : State) (g : Nat) : Bool :=
  s.ras.badGrp.any fun b => decide (g / 2 ^ 26 = b.2 / 2 ^ 26 ∧ g % 2 ^ 26 / 8 ^ b.1 = b.2 % 2 ^ 26 / 8 ^ b.1)
/-- CTR (R413, R415). -/
def ctrOf (s : State) (key pa : Nat) : Nat :=
  if keyInteg key then
    let g := groupOf s pa
    g.1 * 128 + minorAt g pa
  else 0

/-- A sector's bytes under a key and a counter: plaintext to stored or back (R413). -/
def crypt (s : State) (key pa ctr : Nat) (d : List Byte) : List Byte :=
  if keyId key = 0 then d
  else List.zipWith (fun b k => b ^^^ BitVec.ofNat 8 k) d (keystream (keyData s (keyId key)) pa ctr)

/-- The MAC of stored bytes (R416; assumption 6). -/
def macOf (s : State) (key pa : Nat) (stored : List Byte) (maj mn : Nat) : BitVec 56 :=
  Config.mac (keyData s (keyId key)) stored (pa / 64) maj mn

/-- Sectors with PSN = 1. -/
def psnAt (s : State) (sec : Nat) : Bool := s.co.psn.contains sec
def setPsn (b : Bool) (sec : Nat) (s : State) : State :=
  let l := s.co.psn.filter fun x => decide (x ≠ sec)
  { s with co := { s.co with psn := if b then l ++ [sec] else l } }

/-! ### Sector metadata (R407, R408) -/

def dirbOf (s : State) (sec : Nat) : Byte := assocGet 0#8 s.co.dirb sec
/-- Metadata bits [15:0]: DIR, PSN, DCHK, zero (Table 21.1). -/
def metaLow (s : State) (sec : Nat) : BitVec 16 :=
  dirbOf s sec ++ BitVec.ofBool (psnAt s sec) ++ Config.dchk (dirbOf s sec) ++ 0#2
/-- A sector's metadata word as the L2 forms it. -/
def metaWord (s : State) (sec : Nat) : W64 := Config.e2e (memRead s.mem sec 64) (metaLow s sec) (sec / 64) ++ metaLow s sec
def formMeta (sec : Nat) (s : State) : State :=
  { s with co := { s.co with meta_ := assocSet s.co.meta_ sec (metaWord s sec) } }
/-- The code of a read is right: data, metadata and address are those it was formed over. -/
def metaOk (s : State) (sec : Nat) : Bool := (s.co.meta_.find? fun x => decide (x.1 = sec)).all fun x => decide (x.2 = metaWord s sec)
/-- A sector found uncorrectable: counted, logged, and written back with PSN = 1 (R408). -/
def uncorrectable (sec : Nat) (s : State) : State :=
  formMeta sec (setPsn true sec (countLog ctrHBMUE (homeDie sec) (Config.stackOf (sec / 64)).val sec s))
/-- Failures in a row of a sector's burst (R409): of the burst itself and its repeats, at most four; 6 and 7 stand for a read's and a write's burst that
its channel, retrained, is to carry again. -/
def crcFails (s : State) (sec : Nat) : Nat := assocGet 0 s.co.crc sec
/-- The burst's repeats have all failed: it waits until its channel has been retrained. -/
def burstStuck (s : State) (sec : Nat) : Bool := decide (crcFails s sec = 5)
/-- A burst that has passed the CRC ends its row of failures. -/
def burstOver (sec : Nat) (s : State) : State :=
  if crcFails s sec = 0 then s else { s with co := { s.co with crc := assocDel s.co.crc sec } }
/-- An access to a channel that is out of service, performed as R380 gives; its stack reports it (assumption 60). -/
def channelGone (sec : Nat) (s : State) : State := countLog ctrNOPATH (homeDie sec) (Config.stackOf (sec / 64)).val sec s

/-! ### The integrity tree (R415, R416) -/

/-- Levels above n counter blocks. -/
def treeDepth : Nat → Nat → Nat
  | 0, _ => 0
  | f + 1, n => if n ≤ 1 then 0 else 1 + treeDepth f ((n + 7) / 8)
/-- The levels of a die's tree, at most nine. -/
def treeTop (s : State) : Nat := treeDepth 9 (s.link.memcap.toNat / 4096)
/-- The number, across the package, of the node of a level above a group; level 0 is the counter block. -/
def treeIdx (level g : Nat) : Nat := g / 2 ^ 26 * 2 ^ 26 + g % 2 ^ 26 / 8 ^ level
def treeNode (s : State) (level idx : Nat) : TreeNode :=
  (s.ras.tree.find? fun t => decide (t.level = level ∧ t.idx = idx)).getD { level := level, idx := idx, ctr := 0#64, macs := [] }
/-- What a node's parent takes the MAC of: MAJOR and the MINORs, or MACs and counter. -/
def treeFields (s : State) (level g : Nat) : List Nat :=
  if level = 0 then let b := groupOf s (g * 4096); b.1 :: b.2
  else
    let t := treeNode s level (treeIdx level g)
    t.ctr.toNat :: t.macs.flatMap fun m => [m.1, m.2.toNat]
def treeMacOf (s : State) (level g : Nat) : BitVec 56 := Config.treeMac level (treeIdx level g) (treeFields s level g)
/-- A group's path has changed at `level`: the node above takes its MAC, its counter rises by one, and so on to the top. -/
def treeUpdate (g : Nat) : Nat → Nat → State → State
  | 0, _, s => s
  | f + 1, level, s =>
    let t := treeNode s (level + 1) (treeIdx (level + 1) g)
    let n : TreeNode := { t with ctr := t.ctr + 1#64, macs := assocSet t.macs (treeIdx level g) (treeMacOf s level g) }
    treeUpdate g f (level + 1) { s with ras := { s.ras with
      tree := (s.ras.tree.filter fun x => !(decide (x.level = t.level ∧ x.idx = t.idx))) ++ [n] } }
/-- The first level, from `level` up, whose MAC in its parent does not agree, and the levels read on the way; a block or node in the die's
counter cache has been verified, and the top node never leaves the die. -/
def treeVerify (s : State) (g : Nat) : Nat → Nat → Option Nat × List (Nat × Nat)
  | 0, _ => (none, [])
  | f + 1, level =>
    let k := (level, treeIdx level g)
    if s.ras.verified.contains k then (none, [])
    else
      match (treeNode s (level + 1) (treeIdx (level + 1) g)).macs.find? fun m => decide (m.1 = treeIdx level g) with
      | some m => if m.2 = treeMacOf s level g then let r := treeVerify s g f (level + 1); (r.1, k :: r.2) else (some level, [])
      | none => let r := treeVerify s g f (level + 1); (r.1, k :: r.2)
/-- Blocks and nodes enter the counter cache of their die, 32,768 of 64 bytes; the oldest leave (assumption 58). -/
def cacheNodes (l : List (Nat × Nat)) (s : State) : State :=
  l.foldl (fun s k =>
    let v := s.ras.verified.filter (fun x => decide (x ≠ k)) ++ [k]
    let die := v.filter fun x => decide (x.2 / 2 ^ 26 = k.2 / 2 ^ 26)
    { s with ras := { s.ras with verified := if die.length ≤ 32768 then v else v.erase (die.getD 0 k) } }) s

/-- An integrity read that fails: poisoned, counted, logged (R416). -/
def integFail (sec : Nat) (s : State) : State :=
  countLog ctrINTEG (homeDie sec) (Config.stackOf (sec / 64)).val sec s

/-- A sector whose MAC fails is poisoned: so is what HBM holds (R410, R416). -/
def macFail (sec : Nat) (s : State) : State := formMeta sec (setPsn true sec (integFail sec s))

/-- Steps 3 to 5 of an integrity read (R416): the counter block up the tree, decryption, the MAC. -/
def integFetch (key sec : Nat) (s : State) : (List W32 × BitVec 16) × State :=
  let g := groupOf s sec
  let pz : BitVec 16 := if psnAt s sec then 0xFFFF#16 else 0#16
  let v := treeVerify s (sec / 4096) (treeTop s) 0
  match v.1 with
  | some level => ((zeroSec, 0xFFFF#16), integFail sec { s with ras := { s.ras with badGrp := s.ras.badGrp ++ [(level, sec / 4096)] } })
  | none =>
    let s := cacheNodes v.2 s
    if g.1 = 0 ∧ minorAt g sec = 0 then ((zeroSec, pz), s)
    else
      let stored := memRead s.mem sec 64
      let d := secOfBytes (crypt s key sec (ctrOf s key sec) stored)
      if assocGet 0#56 s.ras.macs (sec / 64) = macOf s key sec stored g.1 (minorAt g sec) then ((d, pz), s)
      else ((d, 0xFFFF#16), macFail sec s)
/-- A sector read from HBM under a key: plaintext and marks (R408, R409, R410, R415, R416). The stored symbols are as they were written;
HBM_READ brings errors in them. A read that still failed after its channel had been retrained gives poison, once (R409). -/
def hbmFetch (key sec : Nat) (s0 : State) : (List W32 × BitVec 16) × State :=
  let s := burstOver sec s0
  if channelOut s sec then ((zeroSec, 0xFFFF#16), channelGone sec s)
  else if s.co.rdFail.contains sec then
    ((zeroSec, 0xFFFF#16), { s with co := { s.co with rdFail := s.co.rdFail.filter fun x => decide (x ≠ sec) } })
  else if !metaOk s sec then ((zeroSec, 0xFFFF#16), uncorrectable sec s)
  else if grpBad s (sec / 4096) then ((zeroSec, 0xFFFF#16), s)
  else if keyInteg key then integFetch key sec s
  else
    ((secOfBytes (crypt s key sec 0 (memRead s.mem sec 64)), if psnAt s sec then 0xFFFF#16 else 0#16), s)

/-- Every sector of a group but the one being written, encrypted again under a new MAJOR, with a new MAC; one never written holds zero data, and one
that fails its old MAC is poisoned (R415, R416). -/
def reencrypt (key grp oldMaj newMaj but_ : Nat) (minors : List Nat) (s : State) : State :=
  ((List.range 64).filter fun i => decide (i ≠ but_)).foldl (fun s i =>
    let sec := grp * 4096 + 64 * i
    let mn := minors.getD i 0
    let blank := decide (oldMaj = 0 ∧ mn = 0)
    let old := memRead s.mem sec 64
    let plain := if blank then List.replicate 64 0#8 else crypt s key sec (oldMaj * 128 + mn) old
    let s := if blank || decide (assocGet 0#56 s.ras.macs (sec / 64) = macOf s key sec old oldMaj mn) then s else macFail sec s
    let stored := crypt s key sec (newMaj * 128 + mn) plain
    formMeta sec { s with mem := memWrite s.mem sec stored,
                          ras := { s.ras with macs := assocSet s.ras.macs (sec / 64) (macOf s key sec stored newMaj mn) } }) s

/-- A write of an integrity sector: MINOR, and MAJOR when it wraps, encryption, the MAC, and the tree (R416). -/
def integStore (key sec : Nat) (plain : List Byte) (s : State) : State :=
  let g := groupOf s sec
  let i := sec / 64 % 64
  let wrap := decide (minorAt g sec = 127)
  let mn := if wrap then 0 else minorAt g sec + 1
  let maj := if wrap then g.1 + 1 else g.1
  let s := if wrap then reencrypt key (sec / 4096) g.1 maj i g.2 s else s
  let stored := crypt s key sec (maj * 128 + mn) plain
  treeUpdate (sec / 4096) (treeTop s) 0 { s with
    mem := memWrite s.mem sec stored,
    ras := { s.ras with
      macs := assocSet s.ras.macs (sec / 64) (macOf s key sec stored maj mn),
      groups := assocSet s.ras.groups (sec / 4096) (maj, g.2.set i mn) } }
/-- A sector written to HBM whole, data and metadata (R407, R410, R416). -/
def hbmStore (key sec : Nat) (d : List W32) (pz : BitVec 16) (s0 : State) : State :=
  let s := burstOver sec s0
  if channelOut s sec then channelGone sec s
  else if grpBad s (sec / 4096) then s
  else
    let s := setPsn (decide (pz ≠ 0#16)) sec s
    formMeta sec (if keyInteg key then integStore key sec (secBytes d) s
      else { s with mem := memWrite s.mem sec (crypt s key sec 0 (secBytes d)) })

end Sys2Proof.Machine
end

