-- ==== Sys2Proof/Machine/L2.lean ====
section
/-! DEFINITION. A home's L2 slice (R206, R207, R213): the registrations it keeps of the words of a sector, its copies of sectors, and the room
it makes for a line. Words of a sector are numbered 0 to 15. -/
namespace Sys2Proof.Machine

/-! ### Places and L1 words -/

/-- Where an L1's requests about a sector go: its home when that lies on the die, else the die's RDC (R219, R228). -/
def placeOf (cl sec : Nat) : Option Nat :=
  if isDevice sec && decide (homeDie sec = dieOf cl) then none else some (dieOf cl)
def agentAt : Option Nat → Agent
  | none => .home
  | some d => .rdc d
def placeAt : Agent → Option Nat
  | .rdc d => some d
  | _ => none
/-- The die whose clusters a place names by 7-bit numbers. -/
def placeDie (pl : Option Nat) (sec : Nat) : Nat := pl.getD (homeDie sec)

def l1wFind (s : State) (cl pa : Nat) : Option L1Word := s.co.l1w.find? fun x => decide (x.cl = cl ∧ x.pa = pa)
def l1wDel (cl pa : Nat) (s : State) : State :=
  { s with co := { s.co with l1w := s.co.l1w.filter fun x => !(decide (x.cl = cl ∧ x.pa = pa)) } }
def l1wPut (x : L1Word) (s : State) : State :=
  { s with co := { s.co with l1w := s.co.l1w.filter (fun y => !(decide (y.cl = x.cl ∧ y.pa = x.pa))) ++ [x] } }

/-! ### Registration records (Table 10.5) -/

def regBlank (pl : Option Nat) (sec : Nat) : RegRec :=
  { rdc := pl, pa := sec, owna := 0#7, ownb := 0#7, lrua := false, wcode := List.replicate 16 0#2,
    wdie := List.replicate 16 0, rdm := 0#4 }
def regGet (s : State) (pl : Option Nat) (sec : Nat) : RegRec :=
  (s.co.reg.find? fun r => decide (r.rdc = pl ∧ r.pa = sec)).getD (regBlank pl sec)
def regPut (r : RegRec) (s : State) : State :=
  { s with co := { s.co with reg := s.co.reg.filter (fun x => !(decide (x.rdc = r.rdc ∧ x.pa = r.pa))) ++
      (if r.wcode.all (fun c => decide (c = 0#2)) && decide (r.rdm = 0#4) then [] else [r]) } }
def codeOf (r : RegRec) (w : Nat) : BitVec 2 := r.wcode.getD w 0#2
def setCode (r : RegRec) (w : Nat) (c : BitVec 2) : RegRec := { r with wcode := r.wcode.set w c }
/-- The agent to which a word is registered. -/
def ownerOf (r : RegRec) (w : Nat) : Option Agent :=
  match (codeOf r w).toNat with
  | 1 => some (.l1 (128 * placeDie r.rdc r.pa + r.owna.toNat))
  | 2 => some (.l1 (128 * placeDie r.rdc r.pa + r.ownb.toNat))
  | 3 => some (.rdc (r.wdie.getD w 0))
  | _ => none
def fieldUsed (r : RegRec) (c : BitVec 2) : Bool := r.wcode.any fun x => decide (x = c)
/-- Words of a field. -/
def fieldWords (r : RegRec) (c : BitVec 2) : List Nat := (List.range 16).filter fun w => decide (codeOf r w = c)
def anyOwned (r : RegRec) : Bool := r.wcode.any fun c => decide (c ≠ 0#2)

/-- The field in which a local cluster stands or can be placed (R217): none when both name others. -/
def fieldFor (r : RegRec) (k : BitVec 7) : Option (BitVec 2) :=
  if fieldUsed r 1#2 && decide (r.owna = k) then some 1#2
  else if fieldUsed r 2#2 && decide (r.ownb = k) then some 2#2
  else if !fieldUsed r 1#2 then some 1#2
  else if !fieldUsed r 2#2 then some 2#2
  else none
/-- Placing a cluster in a field makes the other the less recent (R217). -/
def placeIn (r : RegRec) (k : BitVec 7) (c : BitVec 2) : RegRec :=
  if c = 1#2 then { r with owna := k, lrua := false } else { r with ownb := k, lrua := true }

/-! ### Owners, and what is on its way -/

def bisnpOut (s : State) (sec : Nat) : Bool := s.co.bisnp.any fun b => decide (b.1 = sec)
/-- Anything about the sector that is still on its way. -/
def sectorBusy (s : State) (sec : Nat) : Bool :=
  (s.co.msgs.any fun m => decide (m.pa = sec)) || (s.co.gwait.any fun g => decide (sectorOf g.pa = sec)) ||
  (s.co.dwait.any fun w => decide (w.pa = sec)) || (s.co.dirRec.any fun x => decide (x.1 = sec)) || bisnpOut s sec

/-- The L1 that owns a word, through an RDC's record where need be. -/
def ownerL1 (s : State) (sec w : Nat) : Option Nat :=
  match ownerOf (regGet s none sec) w with
  | some (.l1 c) => some c
  | some (.rdc d) =>
    match ownerOf (regGet s (some d) sec) w with
    | some (.l1 c) => some c
    | _ => none
  | _ => none
/-- The owner's copy of a registered word, when it holds all four bytes. -/
def ownerWord (s : State) (sec w : Nat) : Option L1Word :=
  (ownerL1 s sec w).bind fun c => (l1wFind s c (sec + 4 * w)).bind fun x =>
    if x.st = .v ∨ x.have_ ≠ 0xF#4 then none else some x
def registered (s : State) (sec w : Nat) : Bool := (ownerOf (regGet s none sec) w).isSome

/-! ### The home L2 -/

def l2Find (s : State) (sec : Nat) : Option L2Sec := s.co.l2.find? fun x => decide (x.pa = sec)
def l2Drop (sec : Nat) (s : State) : State :=
  { s with co := { s.co with l2 := s.co.l2.filter fun x => decide (x.pa ≠ sec) } }
def l2Put (x : L2Sec) (s : State) : State :=
  { s with co := { s.co with l2 := s.co.l2.filter (fun y => decide (y.pa ≠ x.pa)) ++ [x] } }

/-- A held sector goes to HBM when dirty, and stays, clean (R236, R410). -/
def l2Clean (x : L2Sec) (s : State) : State :=
  if x.dirty then l2Put { x with dirty := false } (hbmStore x.key x.pa x.data x.pz s) else s
/-- A held sector leaves the L2, going to HBM when dirty. -/
def l2Out (sec : Nat) (s : State) : State :=
  match l2Find s sec with
  | none => s
  | some x => l2Drop sec (if x.dirty then hbmStore x.key x.pa x.data x.pz s else s)

/-- A held sector under a key. A copy held under another key goes to HBM first and is read again, since the sector does not record its key (R413). -/
def l2Under (key : Nat) (x : L2Sec) (s : State) : L2Sec × State :=
  if x.key = key then (x, s)
  else
    let r := hbmFetch key x.pa (l2Out x.pa s)
    let y : L2Sec := { pa := x.pa, data := r.1.1, dirty := false, pz := r.1.2, key := key }
    (y, l2Put y r.2)

/-! ### Lines (R206, R208): a level that is full takes a new line only once another has left (assumption 58) -/

def linesOf (l : List Nat) : List Nat := (l.map lineOf).eraseDups
def sectorsOfLine (line : Nat) : List Nat := (List.range 4).map fun k => lineOf line + 64 * k

/-- A slice's lines. -/
def l2Lines (s : State) (sec : Nat) : List Nat := linesOf ((s.co.l2.filter fun x => decide (homeOf x.pa = homeOf sec)).map (·.pa))
/-- A recall of one word carried to its end: the owner's word is written into the home's copy under the owner's key, becomes V there, and is
unregistered. -/
def recallInto (sec : Nat) (s : State) (w : Nat) : State :=
  match ownerWord s sec w, l2Find s sec with
  | some x, some y =>
    let bit : BitVec 16 := 1#16 <<< w
    let r := l2Under x.key y s
    let s := l2Put { r.1 with data := r.1.data.set w x.data, pz := if x.psn then r.1.pz ||| bit else r.1.pz &&& ~~~bit, dirty := true } r.2
    let s := l1wPut { x with st := .v } s
    let s := (List.range 4).foldl (fun s d =>
      if (ownerOf (regGet s (some d) sec) w).isSome then regPut (setCode (regGet s (some d) sec) w 0#2) s else s) s
    regPut (setCode (regGet s none sec) w 0#2) s
  | _, _ => s
/-- A line can leave its slice: nothing about it is on its way, no burst of it waits for its channel (R409), and the owners of its registered words can
give them now. -/
def mayLeave (s : State) (line : Nat) : Bool :=
  (sectorsOfLine line).all fun sec => !sectorBusy s sec && !burstStuck s sec && (List.range 16).all fun w => !registered s sec w || (ownerWord s sec w).isSome
/-- A slice of 2 MiB has no line free for a sector. -/
def l2Full (s : State) (sec : Nat) : Bool :=
  decide (8192 ≤ s.co.l2.length) && !(l2Lines s sec).contains (lineOf sec) && decide (8192 ≤ (l2Lines s sec).length)
/-- A slice has a sector under a key, or can take its line now and HBM gives it: its burst does not wait for its channel to retrain (R409). -/
def l2Fits (key : Nat) (s : State) (sec : Nat) : Bool :=
  (!burstStuck s sec || (l2Find s sec).any fun x => decide (x.key = key)) && (!l2Full s sec || (l2Lines s sec).any (mayLeave s))
/-- Room in a slice for a sector's line: when there is none, the line held longest that can leave does, the owners of its words recalled first
(R220). -/
def l2Make (sec : Nat) (s : State) : State :=
  if !l2Full s sec then s
  else
    match (l2Lines s sec).find? (mayLeave s) with
    | some a => (sectorsOfLine a).foldl (fun s x => l2Out x ((List.range 16).foldl (recallInto x) s)) s
    | none => s
/-- The home's copy of a sector under a key. -/
def l2Get (key sec : Nat) (s : State) : L2Sec × State :=
  match l2Find s sec with
  | some x => l2Under key x s
  | none =>
    let r := hbmFetch key sec (l2Make sec s)
    let y : L2Sec := { pa := sec, data := r.1.1, dirty := false, pz := r.1.2, key := key }
    (y, l2Put y r.2)

/-- Bytes written into the home's copy (R410). -/
def l2Write (key pa : Nat) (bs : List Byte) (s : State) : State :=
  let r := l2Get key (sectorOf pa) s
  let w := secWrite r.1.data r.1.pz (pa % 64) bs
  l2Put { r.1 with data := w.1, pz := w.2, dirty := true } r.2
/-- Poison on the whole sector: a poisoned write (R410), or a sector found bad. -/
def l2Poison (key pa : Nat) (s : State) : State :=
  let r := l2Get key (sectorOf pa) s
  l2Put { r.1 with pz := 0xFFFF#16, dirty := true } r.2
/-- A poisoned write stores its bytes and marks every word of the sector (R309, R410). -/
def l2WritePoisoned (key pa : Nat) (bs : List Byte) (s : State) : State := l2Poison key pa (l2Write key pa bs s)

end Sys2Proof.Machine
end

