-- ==== Sys2Proof/Machine/Coherence.lean ====
section
/-! DEFINITION. Caches and coherence (R206 to R231): registration of S-page words at homes and RDCs, the directory of
D-page sectors, and accesses that a home performs itself. -/
namespace Sys2Proof.Machine

/-! ### Messages (R209) -/

def sendMsg (src dst : Agent) (sec key : Nat) (b : Body) (s : State) : State :=
  { s with co := { s.co with msgs := s.co.msgs ++ [{ src := src, dst := dst, pa := sec, key := key, body := b, held := false }] } }
def dropMsg (n : Nat) (s : State) : State := { s with co := { s.co with msgs := s.co.msgs.eraseIdx n } }
/-- A message that has been delivered waits behind those that waited before it. -/
def holdMsg (n : Nat) (s : State) : State :=
  match s.co.msgs[n]? with
  | none => s
  | some m =>
    if m.held then s
    else
      let l := s.co.msgs.eraseIdx n
      { s with co := { s.co with msgs := l.takeWhile (·.held) ++ { m with held := true } :: l.dropWhile (·.held) } }
/-- Requests for words or a sector. -/
def isRequest : Body → Bool
  | .reg _ | .read _ _ _ | .dreq _ => true
  | _ => false
def isDgrant : Body → Bool
  | .dgrant _ _ _ => true
  | _ => false
def isInval : Body → Bool
  | .inval | .share => true
  | _ => false
/-- A registration and a write-back of a word that it registers. -/
def regThenWb : Body → Body → Bool
  | .reg ws, .wb vs => ws.any fun x => vs.any fun v => decide (v.1 = x.1)
  | _, _ => false
/-- A message that waits where it was delivered keeps a later one about its sector behind it: a request a request, a registration the write-back of
its words, a sector granted what would take it away. -/
def keepsBack (x m : Msg) : Bool :=
  decide (x.pa = m.pa) && ((isRequest x.body && isRequest m.body) || (isDgrant x.body && isInval m.body) || regThenWb x.body m.body)
/-- The n-th message, when no earlier one of its pair about the same home is still on its way or keeps it back: messages to or from different homes
have no order (R209). -/
def arrived (s : State) (n : Nat) : Option Msg :=
  match s.co.msgs[n]? with
  | none => none
  | some m =>
    if (s.co.msgs.take n).any fun x =>
        decide (x.src = m.src ∧ x.dst = m.dst ∧ homeOf x.pa = homeOf m.pa) && (!x.held || keepsBack x m) then none else some m

/-! ### L1 words (Table 10.3) -/

/-- A word known whole. -/
def Part.full (v : W32) (psn : Bool) : Part := { data := v, mask := 0xF#4, sure := true, psn := psn }
/-- Nothing known of a word. -/
def Part.none_ : Part := { data := 0#32, mask := 0#4, sure := false, psn := false }
/-- What is lacking of a word is taken from a value granted (R214, R410). -/
def Part.add (p : Part) (v : W32 × Bool) : Part :=
  if p.sure then p else Part.full (mergeWord v.1 p.data p.mask) (p.psn || v.2)
/-- What an L1 holds of a registered or P word. -/
def partOf (x : L1Word) : Part :=
  if x.st = .o then Part.full x.data x.psn else { data := x.data, mask := x.wr, sure := x.whole, psn := x.psn }
/-- What others see of it. -/
def shownBy (x : L1Word) : Part := x.prev.getD (partOf x)
/-- What an L1 holds of a word whose registration is not over: P, or written beside a word whose registration has not been performed. -/
def unsettled (x : L1Word) : Bool := decide (x.st = .p) || x.prev.isSome
/-- The other word of an aligned 8-byte unit. -/
def mateOf (w : Nat) : Nat := if w % 2 = 0 then w + 1 else w - 1
/-- A registration of word w of a cluster has been performed: the unit's other word is seen as it stands from now on. -/
def markPlaced (cl sec w : Nat) (s : State) : State :=
  { s with co := { s.co with l1w := s.co.l1w.map fun x =>
      if x.cl = cl ∧ x.pa = sec + 4 * mateOf w then { x with prev := none } else x } }
/-- The V words of an L1 that satisfy a condition become I (R218, R235). -/
def invalidateV (cl : Nat) (p : L1Word → Bool) (s : State) : State :=
  { s with co := { s.co with l1w := s.co.l1w.filter fun x => !(decide (x.cl = cl ∧ x.st = .v) && p x) } }
/-- What an acquire at DIE scope or wider does to its L1: V words become I, and fills on their way cache nothing. -/
def acquireL1 (cl : Nat) (s : State) : State :=
  let s := invalidateV cl (fun _ => true) s
  { s with ops := s.ops.map fun o => if o.cl = cl then { o with stale := true } else o }

/-! ### Lines (R206, R208): a level that is full takes a new line only once another has left (assumption 58) -/

def l1Lines (s : State) (cl : Nat) : List Nat :=
  linesOf (((s.co.l1w.filter fun x => decide (x.cl = cl)).map (·.pa)) ++ ((s.co.l1d.filter fun x => decide (x.cl = cl)).map (·.pa)))
/-- 512 KiB of 256-byte lines. -/
def l1Room (s : State) (cl sec : Nat) : Bool :=
  decide (s.co.l1w.length + s.co.l1d.length < 2048) || (l1Lines s cl).contains (lineOf sec) || decide ((l1Lines s cl).length < 2048)
def rdcLines (s : State) (d : Nat) : List Nat :=
  linesOf (((s.co.rdc.filter fun x => decide (x.die = d)).map (·.pa)) ++ ((s.co.reg.filter fun x => decide (x.rdc = some d)).map (·.pa)))
/-- 64 MiB of lines, registration records among them. -/
def rdcRoom (s : State) (d sec : Nat) : Bool :=
  decide (s.co.rdc.length + s.co.reg.length < 262144) || (rdcLines s d).contains (lineOf sec) || decide ((rdcLines s d).length < 262144)
/-! ### Grants that wait for the previous owner (R215) -/

/-- Whether any hand-off of a word is in progress at a place. -/
def pendingAt (s : State) (pl : Option Nat) (pa : Nat) : Bool := s.co.gwait.any fun g => decide (g.rdc = pl ∧ g.pa = pa)

/-- The first wait that can be resolved: the previous owner has answered, and either with all four bytes or the value of
its own grant is known, or no grant of its own is pending. -/
def resolvableIn : List GWait → List GWait → Option GWait
  | _, [] => none
  | seen, g :: t =>
    let mine := seen.any fun e => decide (e.rdc = g.rdc ∧ e.pa = g.pa ∧ e.dest = g.from_) && !e.up
    match g.ans with
    | some p => if p.sure || g.base.isSome || !mine then some g else resolvableIn (seen ++ [g]) t
    | none => resolvableIn (seen ++ [g]) t

/-- The list without a wait, the next wait from its new owner learning the value granted. -/
def setBase (pl : Option Nat) (pa : Nat) (a : Agent) (v : W32 × Bool) : List GWait → List GWait
  | [] => []
  | g :: t =>
    if g.rdc = pl ∧ g.pa = pa ∧ g.from_ = a ∧ g.base = none ∧ a ≠ .home then { g with base := some v } :: t
    else g :: setBase pl pa a v t
def eraseWait (g : GWait) : List GWait → List GWait
  | [] => []
  | x :: t => if x = g then t else x :: eraseWait g t

/-- The word at a home, for bytes that no owner has supplied. -/
def l2Word (s : State) (pl : Option Nat) (pa : Nat) : W32 × Bool :=
  match pl, l2Find s (sectorOf pa) with
  | none, some x => (x.data.getD (pa % 64 / 4) 0#32, x.pz.getLsbD (pa % 64 / 4))
  | _, _ => (0#32, false)

/-- One resolved wait: a grant to the new owner, or an RDC's answer to its home. -/
def resolveOne (g : GWait) (s : State) : State :=
  let sec := sectorOf g.pa
  let w := g.pa % 64 / 4
  let v := (g.ans.getD Part.none_).add (g.base.getD (l2Word s g.rdc g.pa))
  let key := ((l2Find s sec).map (·.key)).getD 0
  let rest := eraseWait g s.co.gwait
  let gw := if g.up then rest else setBase g.rdc g.pa g.dest (v.data, v.psn) rest
  let s := { s with co := { s.co with gwait := gw } }
  if g.up then
    sendMsg (agentAt g.rdc) .home sec key (.answer [(w, v)] (anyOwned (regGet s g.rdc sec))) s
  else sendMsg (agentAt g.rdc) g.dest sec key (.grant [(w, v.data, v.psn)]) s

def resolveAll : Nat → State → State
  | 0, s => s
  | n + 1, s =>
    match resolvableIn [] s.co.gwait with
    | none => s
    | some g => resolveAll n (resolveOne g s)
def resolve (s : State) : State := resolveAll (s.co.gwait.length + 1) s

/-- The first wait for a word from an agent that has not answered takes this answer. -/
def answerIn (pl : Option Nat) (pa : Nat) (a : Agent) (v : Part) : List GWait → List GWait
  | [] => []
  | g :: t =>
    if g.rdc = pl ∧ g.pa = pa ∧ g.from_ = a ∧ g.ans = none then { g with ans := some v } :: t
    else g :: answerIn pl pa a v t
def putAnswer (pl : Option Nat) (pa : Nat) (a : Agent) (v : Part) (s : State) : State :=
  { s with co := { s.co with gwait := answerIn pl pa a v s.co.gwait } }
def addWait (g : GWait) (s : State) : State := { s with co := { s.co with gwait := s.co.gwait ++ [g] } }

/-! ### The directory byte (R227) and the host's copies (R391) -/

/-- DIR is written with the sector's metadata word. -/
def setDirb (sec : Nat) (b : Byte) (s : State) : State :=
  formMeta sec { s with co := { s.co with dirb := if b = 0#8 then assocDel s.co.dirb sec else assocSet s.co.dirb sec b } }
def dirbDies (b : Byte) : List Nat := (List.range 4).filter fun d => b.getLsbD (4 + d)
def dirbST (b : Byte) : Nat := (b.extractLsb' 0 3).toNat
/-- A directory byte of the given holders. -/
def mkDirb (dies : List Nat) (host em : Bool) : Byte :=
  let d : Nat := dies.foldl (fun m k => if m.testBit (4 + k) then m else m + 2 ^ (4 + k)) 0
  BitVec.ofNat 8 (d + (if host then 8 else 0) + (if dies.isEmpty && !host then 0 else if em then 3 else 1))
/-- The host may hold the sector (its bit counts as clear while MEM reads 0, R390). -/
def hostHolds (s : State) (sec : Nat) : Bool := hostMem s && (dirbOf s sec).getLsbD 3
/-- A back-invalidation request to the host, once; one that only takes the host's copy to S does not stand for one that invalidates. -/
def sendBisnp (sec : Nat) (inv : Bool) (s : State) : State :=
  if s.co.bisnp.contains (sec, inv) || s.co.bisnp.contains (sec, true) then s else { s with co := { s.co with bisnp := s.co.bisnp ++ [(sec, inv)] } }

/-! ### Registration at a home or an RDC (R214, R217, R219, Table 10.6) -/

/-- What performing a registration message gathers: grants at once, words to revoke, other RDCs that the revoke reaches (Table 10.6), words the
RDC registers at the home. -/
structure RegAcc where
  grants : List (Nat × W32 × Bool)
  revs   : List (Agent × Nat)
  asks   : List Nat
  ups    : List (Nat × BitVec 4)
  deriving DecidableEq, Repr

/-- Dies of a mask. -/
def dirsOf (m : BitVec 4) : List Nat := (List.range 4).filter fun d => m.getLsbD d
/-- A registration is performed: at the home for the L1 that sent it, or for those that wait for it at an RDC; at an RDC for a hand-off from the
owner `old` that it had there. -/
def placedBy (pl : Option Nat) (frm : Agent) (old : Option Agent) (sec w : Nat) (s : State) : State :=
  match frm, pl with
  | .l1 c, none => markPlaced c sec w s
  | .l1 c, some d =>
    if old.isSome && !(s.co.gwait.any fun g => decide (g.rdc = some d ∧ g.pa = sec + 4 * w ∧ g.from_ = .home)) then markPlaced c sec w s
    else s
  | .rdc d, _ =>
    (s.co.gwait.filter fun g => decide (g.rdc = some d ∧ g.pa = sec + 4 * w)).foldl (fun s g => match g.dest with
      | .l1 c => markPlaced c sec w s
      | _ => s) s
  | .home, _ => s
/-- One word of a registration, its sender already placed with the code given. -/
def regWord (pl : Option Nat) (frm : Agent) (sec key : Nat) (code : BitVec 2) (x : State × RegAcc) (wm : Nat × BitVec 4) :
    State × RegAcc :=
  let s := x.1
  let acc := x.2
  let w := wm.1
  let r := regGet s pl sec
  let old := ownerOf r w
  let r' := { setCode r w code with wdie := r.wdie.set w ((placeAt frm).getD 0) }
  let s := placedBy pl frm old sec w (regPut r' s)
  let s := match pl with
    | none =>
      let y := l2Get key sec s
      if wm.2 = 0xF#4 ∧ y.1.pz.getLsbD w then
        l2Put { y.1 with pz := y.1.pz &&& ~~~(1#16 <<< w), dirty := true } y.2
      else y.2
    | some _ => s
  match old with
  | none =>
    match pl with
    | none =>
      let v := l2Word s pl (sec + 4 * w)
      (s, { acc with grants := acc.grants ++ [(w, v.1, v.2)] })
    | some _ =>
      (addWait { rdc := pl, pa := sec + 4 * w, dest := frm, from_ := .home, ans := none, base := none, up := false } s,
       { acc with ups := acc.ups ++ [wm] })
  | some j =>
    if j = frm then
      let v := match frm with
        | .l1 c => match l1wFind s c (sec + 4 * w) with
          | some lw => (lw.data, lw.psn)
          | none => l2Word s pl (sec + 4 * w)
        | _ => l2Word s pl (sec + 4 * w)
      (s, { acc with grants := acc.grants ++ [(w, v.1, v.2)] })
    else
      (addWait { rdc := pl, pa := sec + 4 * w, dest := frm, from_ := j, ans := none, base := none, up := false } s,
       { acc with revs := acc.revs ++ [(j, w)],
                  asks := match j with
                    | .rdc d => acc.asks ++ (dirsOf r.rdm).filter fun k => decide (k ≠ d ∧ Agent.rdc k ≠ frm)
                    | _ => acc.asks })

/-- One message to each agent named, with its words. -/
def sendGrouped (src : Agent) (sec key : Nat) (mk : List Nat → Body) : List (Agent × Nat) → List Agent → State → State
  | [], _, s => s
  | (a, w) :: t, done, s =>
    if done.contains a then sendGrouped src sec key mk t done s
    else sendGrouped src sec key mk t (a :: done)
      (sendMsg src a sec key (mk (w :: (t.filter fun x => decide (x.1 = a)).map (·.2))) s)

/-- All words of a registration, performed at one instant, then the grants and requests it causes. -/
def regPerform (pl : Option Nat) (frm : Agent) (sec key : Nat) (code : BitVec 2) (ws : List (Nat × BitVec 4)) (s : State) :
    State :=
  let r := ws.foldl (regWord pl frm sec key code) (s, { grants := [], revs := [], asks := [], ups := [] })
  let s := sendGrouped (agentAt pl) sec key .revoke r.2.revs [] r.1
  let s := (r.2.asks.eraseDups.filter fun d => !(r.2.revs.any fun x => decide (x.1 = .rdc d))).foldl
    (fun s d => sendMsg (agentAt pl) (.rdc d) sec key (.revoke []) s) s
  let s := if r.2.ups.isEmpty then s else sendMsg (agentAt pl) .home sec key (.reg r.2.ups) s
  if r.2.grants.isEmpty then s else sendMsg (agentAt pl) frm sec key (.grant r.2.grants) s

/-- The sector's directory byte is being recovered: requests about it wait (R412). -/
def recovering (s : State) (sec : Nat) : Bool := s.co.dirRec.any fun x => decide (x.1 = sec)
/-- REGISTRATION: the request is performed, or waits for a field (R217), for the host to drop its copy (R391), for a recovery (R412) or for a
line of the RDC or the L2. -/
def registrationAt (n : Nat) (m : Msg) (ws : List (Nat × BitVec 4)) (s : State) : State :=
  let pl := placeAt m.dst
  let sec := m.pa
  let r := regGet s pl sec
  if decide (pl = none) && recovering s sec then holdMsg n s
  else if decide (pl = none) && hostHolds s sec then holdMsg n (sendBisnp sec true s)
  else if (pl.any fun d => !rdcRoom s d sec) || (decide (pl = none) && !l2Fits m.key s sec) then holdMsg n s
  else
    match m.src with
    | .l1 k =>
      let kk := BitVec.ofNat 7 (k % 128)
      match fieldFor r kk with
      | some c =>
        let s := regPerform pl m.src sec m.key c ws (dropMsg n s)
        regPut (placeIn (regGet s pl sec) kk c) s
      | none =>
        let c : BitVec 2 := if r.lrua then 1#2 else 2#2
        let fw := fieldWords r c
        let a : Agent := .l1 (128 * placeDie pl sec + (if r.lrua then r.owna else r.ownb).toNat)
        let busy := (fw.any fun w => pendingAt s pl (sec + 4 * w)) ||
          (s.co.msgs.any fun x => decide (x.pa = sec) && (match x.body with
            | .recall _ => decide (x.dst = a)
            | .wb _ => decide (x.src = a)
            | _ => false))
        holdMsg n (if busy then s else sendMsg (agentAt pl) a sec m.key (.recall fw) s)
    | .rdc d => regPerform pl m.src sec m.key 3#2 ws (regPut { r with rdm := r.rdm ||| (1#4 <<< d) } (dropMsg n s))
    | .home => dropMsg n s
def execRegistration (n : Nat) (s : State) : Out :=
  match arrived s n with
  | some m =>
    match m.body with
    | .reg ws => .next (registrationAt n m ws s)
    | _ => .next s
  | none => .next s

/-! ### Grant, revoke, answer -/

/-- The oldest outstanding registration of a word is granted. -/
def dropRegOut (cl pa : Nat) : List RegOut → List RegOut
  | [] => []
  | x :: t => if x.cl = cl ∧ x.pa = pa then t else x :: dropRegOut cl pa t
def regOutAny (s : State) (cl pa : Nat) : Bool := s.co.regOut.any fun x => decide (x.cl = cl ∧ x.pa = pa)

/-- Operations that only waited for registrations, and wait for none now, are over. -/
def acksDone (s : State) : State :=
  { s with ops := s.ops.filter fun o => !(decide (o.ph = .acks) && !(s.co.regOut.any fun x => x.ops.contains o.id)) }

/-- A captured word that is not whole is completed from the grant of the cluster that held it. -/
def completeCap (cl sec : Nat) (g : Nat × W32 × Bool) (m : Msg) : Msg :=
  match m.body with
  | .fwd op c ws cap =>
    if m.pa = sec then
      { m with body := .fwd op c ws (cap.map fun x => if x.1 = g.1 ∧ x.2.1 = cl then (x.1, cl, x.2.2.add g.2) else x) }
    else m
  | _ => m
/-- So is a word that an operation keeps of its L1. -/
def completeSnap (cl pa : Nat) (v : W32 × Bool) (o : Op) : Op :=
  if o.cl = cl then { o with snap := o.snap.map fun x => if x.1 = pa then (pa, x.2.add v) else x } else o
/-- A word's grant at an L1: P becomes O, and bytes it has not written take the granted value; a revoked registration
still counts as granted (R214, R216). A V copy of the unit's other word is older than bytes that the grant brings, and goes (R155). -/
def grantWord (cl sec : Nat) (s : State) (g : Nat × W32 × Bool) : State :=
  let pa := sec + 4 * g.1
  let s := { s with
    ops := s.ops.map (completeSnap cl pa g.2),
    co := { s.co with regOut := dropRegOut cl pa s.co.regOut, msgs := s.co.msgs.map (completeCap cl sec g) } }
  if regOutAny s cl pa then s
  else
    match l1wFind s cl pa with
    | some x =>
      if x.st = .p then
        let s := if x.wr = 0xF#4 then s else invalidateV cl (fun y => decide (y.pa = sec + 4 * mateOf g.1)) s
        l1wPut { x with st := .o, data := mergeWord g.2.1 x.data x.wr, have_ := 0xF#4, wr := 0#4, whole := false,
                        prev := x.prev.map (·.add g.2), psn := x.psn || (g.2.2 && !x.whole) } s
      else s
    | none => s

/-- The answer of an L1 for one word: all bytes when it is registered, the bytes it has written while P (R215). -/
def revokeWord (s : State) (cl sec w : Nat) : Nat × Part :=
  match l1wFind s cl (sec + 4 * w) with
  | some x => (w, if x.st = .v then Part.none_ else partOf x)
  | none => (w, Part.none_)
/-- A word in a write-back on its way from an agent. -/
def wbWordOf (s : State) (src : Agent) (sec w : Nat) : Option Part :=
  s.co.msgs.findSome? fun m =>
    if m.src = src ∧ m.pa = sec then
      (match m.body with
       | .wb ws => (ws.find? fun x => decide (x.1 = w)).map fun x => Part.full x.2.1 x.2.2
       | _ => none)
    else none
/-- What others see of a word registered to a cluster: what a write-back on its way from it carries, since a registration sent behind that has not
been performed (R239), else what its L1 holds. -/
def seenL1 (s : State) (c sec w : Nat) : Option (Nat × Part) :=
  match wbWordOf s (.l1 c) sec w with
  | some p => some (c, p)
  | none => ((l1wFind s c (sec + 4 * w)).filter fun x => decide (x.st ≠ .v)).map fun x => (c, shownBy x)
/-- The same for a word registered to an agent. -/
def seenWord (s : State) (sec w : Nat) : Agent → Option (Nat × Part)
  | .l1 c => seenL1 s c sec w
  | .rdc d =>
    match wbWordOf s (.rdc d) sec w, ownerOf (regGet s (some d) sec) w with
    | some p, _ => some (0, p)
    | none, some (.l1 c) => seenL1 s c sec w
    | none, _ => none
  | .home => none
/-- A read forwarded to an agent keeps words of it, unless it has them already (R155, R215). -/
def captureIn (src : Option Agent) (dst : Agent) (sec : Nat) (xs : List (Nat × Nat × Part)) (m : Msg) : Msg :=
  match m.body with
  | .fwd op c ws cap =>
    if m.dst = dst ∧ m.pa = sec ∧ (src = none ∨ src = some m.src) then
      { m with body := .fwd op c ws (cap ++ xs.filter fun x => ws.contains x.1 && !(cap.any fun y => decide (y.1 = x.1))) }
    else m
  | _ => m
/-- Forwarded reads of words that leave an L1 before they have been answered keep what these, and the other words of their units, were. -/
def captureFwd (cl sec : Nat) (ws : List Nat) (s : State) : State :=
  let xs := (ws ++ ws.map mateOf).eraseDups.filterMap fun w => (seenL1 s cl sec w).map fun p => (w, p)
  { s with co := { s.co with msgs := s.co.msgs.map (captureIn none (.l1 cl) sec xs) } }
/-- So do reads that a place forwarded to an agent whose write-back of a word it takes in. -/
def captureBack (pl : Option Nat) (src : Agent) (sec w : Nat) (p : Part) (s : State) : State :=
  let xs := (w, 0, p) :: ((seenWord s sec (mateOf w) src).map fun q => (mateOf w, q)).toList
  { s with co := { s.co with msgs := s.co.msgs.map (captureIn (some (agentAt pl)) src sec xs) } }
/-- A write-back of a word is on its way from an agent: it serves as the answer to a revoke that crosses it. -/
def wbOut (s : State) (src : Agent) (sec w : Nat) : Bool :=
  s.co.msgs.any fun m => decide (m.src = src ∧ m.pa = sec) && (match m.body with
    | .wb ws => ws.any fun x => decide (x.1 = w)
    | _ => false)
/-- P and O words of an L1 become I. -/
def dropOwned (cl pa : Nat) (s : State) : State :=
  match l1wFind s cl pa with
  | some x => if x.st = .v then s else l1wDel cl pa s
  | none => s

/-- A revoke at an RDC: its registration moves away; the owning cluster answers through it. One that its own write-back has crossed finds
nothing to do. -/
def revokeRdc (d sec key : Nat) (s : State) (w : Nat) : State :=
  let r := regGet s (some d) sec
  match (if wbOut s (.rdc d) sec w then none else ownerOf r w) with
  | some j =>
    let s := regPut (setCode r w 0#2) s
    let s := addWait { rdc := some d, pa := sec + 4 * w, dest := .home, from_ := j, ans := none, base := none, up := true } s
    sendMsg (.rdc d) j sec key (.revoke [w]) s
  | none => s

/-- REVOKE at an L1 or RDC (R215): of words that a write-back on its way answers for, nothing is taken. A load that kept a word as a later store
found it reads it again. An RDC that has nothing to give only
says whether its die still owns a word. -/
def revokeAt (n : Nat) (m : Msg) (ws : List Nat) (s : State) : State :=
  let s := dropMsg n s
  match m.dst with
  | .l1 c =>
    let ws := ws.filter fun w => !wbOut s m.dst m.pa w
    let a := ws.map (revokeWord s c m.pa)
    let s := captureFwd c m.pa ws s
    let s := { s with ops := s.ops.map fun o =>
      if o.cl = c then { o with snap := o.snap.filter fun p => !(ws.any fun w => decide (p.1 = m.pa + 4 * w)) } else o }
    if ws.isEmpty then s
    else sendMsg m.dst m.src m.pa m.key (.answer a false) (ws.foldl (fun s w => dropOwned c (m.pa + 4 * w) s) s)
  | .rdc d =>
    let idle := ws.all fun w => wbOut s m.dst m.pa w || (ownerOf (regGet s (some d) m.pa) w).isNone
    if idle then sendMsg m.dst m.src m.pa m.key (.answer [] (anyOwned (regGet s (some d) m.pa))) s
    else ws.foldl (revokeRdc d m.pa m.key) s
  | .home => s
def execRevoke (n : Nat) (s : State) : Out :=
  match arrived s n with
  | some m =>
    match m.body with
    | .revoke ws => .next (revokeAt n m ws s)
    | _ => .next s
  | none => .next s

/-- REVOKE_ANSWER: the answer fills the bytes that the new owner has not written; an RDC that owns no word of the sector
any more loses its RDM bit (R215, Table 10.6). -/
def answerAt (n : Nat) (m : Msg) (ws : List (Nat × Part)) (more : Bool) (s : State) : State :=
  let s := dropMsg n s
  let pl := placeAt m.dst
  let s := ws.foldl (fun s a => putAnswer pl (m.pa + 4 * a.1) m.src a.2 s) s
  let s := match m.src with
    | .rdc d =>
      let r := regGet s none m.pa
      if more || ((List.range 16).any fun w => decide (ownerOf r w = some (.rdc d))) then s
      else regPut { r with rdm := r.rdm &&& ~~~(1#4 <<< d) } s
    | _ => s
  resolve s
def execRevokeAnswer (n : Nat) (s : State) : Out :=
  match arrived s n with
  | some m =>
    match m.body with
    | .answer ws more => .next (answerAt n m ws more s)
    | _ => .next s
  | none => .next s

/-! ### Recall and write-back (R217, R220) -/

/-- A waiting load keeps a word of its L1 as a later store found it. -/
def snapped (s : State) (cl pa : Nat) : Bool := s.ops.any fun o => decide (o.cl = cl ∧ o.ph = .miss) && o.snap.any fun p => decide (p.1 = pa)
/-- A word cannot leave yet: its registration is not over, or such a load waits. -/
def stays (s : State) (x : L1Word) : Bool := unsettled x || snapped s x.cl x.pa
/-- O words of an L1 on their way home; they become V or I. -/
def writeBackWords (cl sec : Nat) (ws : List Nat) (toV : Bool) (s : State) : State :=
  let own := ws.filterMap fun w => (l1wFind s cl (sec + 4 * w)).bind fun x => if x.st = .o ∧ !stays s x then some (w, x) else none
  if own.isEmpty then s
  else
    let key := ((own.head?).map (·.2.key)).getD 0
    let s := captureFwd cl sec (own.map (·.1)) s
    let s := own.foldl (fun s x => if toV then l1wPut { x.2 with st := .v } s else l1wDel cl x.2.pa s) s
    sendMsg (.l1 cl) (agentAt (placeOf cl sec)) sec key (.wb (own.map fun x => (x.1, x.2.data, x.2.psn))) s

/-- A write-back whose grant was awaited leaves: words that an eviction has marked (R220). -/
def evictPending (cl sec : Nat) (s : State) : State :=
  let ws := (List.range 16).filter fun w => (l1wFind s cl (sec + 4 * w)).any fun x => x.evict && decide (x.st = .o) && !stays s x
  writeBackWords cl sec ws false s
/-- GRANT at an L1, or at an RDC whose clusters wait for it. -/
def grantAt (n : Nat) (m : Msg) (ws : List (Nat × W32 × Bool)) (s : State) : State :=
  let s := dropMsg n s
  match m.dst with
  | .l1 c => acksDone (evictPending c m.pa (ws.foldl (grantWord c m.pa) s))
  | .rdc d => resolve (ws.foldl (fun s g => putAnswer (some d) (m.pa + 4 * g.1) .home (Part.full g.2.1 g.2.2) s) s)
  | .home => s
def execGrant (n : Nat) (s : State) : Out :=
  match arrived s n with
  | some m =>
    match m.body with
    | .grant ws => .next (grantAt n m ws s)
    | _ => .next s
  | none => .next s
/-- An L1's S-page words of a sector leave: V words at once, O words by a write-back; the others once they have been granted (R212, R220). None
leaves while a load waits that keeps one. -/
def evictS (cl : Nat) (s : State) (sec : Nat) : State :=
  if (List.range 16).any fun w => snapped s cl (sec + 4 * w) then s
  else
  let s := invalidateV cl (fun x => decide (sectorOf x.pa = sec)) (writeBackWords cl sec (List.range 16) false s)
  { s with co := { s.co with l1w := s.co.l1w.map fun x => if x.cl = cl ∧ sectorOf x.pa = sec then { x with evict := true } else x } }

/-- RECALL at an owner L1 (a P word waits for its grant), or at an RDC, which recalls its clusters. -/
def recallAt (n : Nat) (m : Msg) (ws : List Nat) (s : State) : State :=
  match m.dst with
  | .l1 c =>
    if ws.any fun w => (l1wFind s c (m.pa + 4 * w)).any (stays s) then holdMsg n s
    else writeBackWords c m.pa ws true (dropMsg n s)
  | .rdc d =>
    if ws.any fun w => pendingAt s (some d) (m.pa + 4 * w) then holdMsg n s
    else
      let r := regGet s (some d) m.pa
      sendGrouped m.dst m.pa m.key .recall (ws.filterMap fun w => (ownerOf r w).map fun a => (a, w)) [] (dropMsg n s)
  | .home => dropMsg n s
def execRecall (n : Nat) (s : State) : Out :=
  match arrived s n with
  | some m =>
    match m.body with
    | .recall ws => .next (recallAt n m ws s)
    | _ => .next s
  | none => .next s

/-- A revoke of a word that its agent's write-back has crossed finds nothing to do when it arrives. -/
def dropRevoke (dst : Agent) (sec w : Nat) (s : State) : State :=
  { s with co := { s.co with msgs := s.co.msgs.map fun m =>
      if m.dst = dst ∧ m.pa = sec then
        (match m.body with
         | .revoke ws => { m with body := .revoke (ws.filter fun x => decide (x ≠ w)) }
         | _ => m)
      else m } }
/-- One word of a write-back: the owner's is written into L2 and unregistered, or passed on by an RDC; a displaced owner's
serves as its answer. -/
def wbWord (pl : Option Nat) (src : Agent) (sec key : Nat) (s : State) (x : Nat × W32 × Bool) : State :=
  let r := regGet s pl sec
  let s := captureBack pl src sec x.1 (Part.full x.2.1 x.2.2) s
  if ownerOf r x.1 = some src then
    let s := regPut (setCode r x.1 0#2) s
    match pl with
    | none =>
      let y := l2Get key sec s
      let bit : BitVec 16 := 1#16 <<< x.1
      l2Put { y.1 with data := y.1.data.set x.1 x.2.1, pz := if x.2.2 then y.1.pz ||| bit else y.1.pz &&& ~~~bit,
                       dirty := true } y.2
    | some d => sendMsg (.rdc d) .home sec key (.wb [x]) s
  else putAnswer pl (sec + 4 * x.1) src (Part.full x.2.1 x.2.2) (dropRevoke src sec x.1 s)
def writeBackAt (n : Nat) (m : Msg) (ws : List (Nat × W32 × Bool)) (s : State) : State :=
  resolve (ws.foldl (wbWord (placeAt m.dst) m.src m.pa m.key) (dropMsg n s))
def execWriteBack (n : Nat) (s : State) : Out :=
  match arrived s n with
  | some m =>
    match m.body with
    | .wb ws => .next (writeBackAt n m ws s)
    | _ => .next s
  | none => .next s

/-! ### Reads (R214, R219, R228) -/

/-- The words of a sector that bytes [off, off + n) touch. -/
def wordsIn (off n : Nat) : List Nat := (List.range 16).filter fun w => decide (4 * w < off + n ∧ off < 4 * w + 4)
/-- A prefetch's reads are speculative (R351). -/
def speculative (s : State) (op : Nat) : Bool := (findOp s op).any fun o => match o.ins with
  | .pf _ => true
  | _ => false

/-- The agent to which a place forwards a read of a word: its owner, but at an RDC only once the home has performed the die's registration
(R246, Table 11.2). -/
def readOwner (s : State) (pl : Option Nat) (sec w : Nat) : Option Agent :=
  match pl with
  | none => ownerOf (regGet s none sec) w
  | some d =>
    if s.co.gwait.any fun g => decide (g.rdc = some d ∧ g.pa = sec + 4 * w ∧ g.from_ = .home) then none
    else ownerOf (regGet s (some d) sec) w
/-- An RDC holds a read while one word of an 8-byte unit is registered there and the home has not granted the other's registration yet: both then
are read at one instant (R155; assumption 57). -/
def unitWaits (s : State) (pl : Option Nat) (sec : Nat) (ws : List Nat) : Bool :=
  pl.any fun d => ws.any fun w => ws.contains (mateOf w) && (readOwner s pl sec w).isSome &&
    s.co.gwait.any fun g => decide (g.rdc = some d ∧ g.pa = sec + 4 * mateOf w ∧ g.from_ = .home)
/-- Words that a forwarded read takes along as they are now: those of 8-byte units that not one owner supplies, and those of which others still see
an earlier value: each unit is read at one instant (R155, R239). -/
def capNow (s : State) (sec : Nat) (to_ : List (Agent × Nat)) (ws : List Nat) : List (Nat × Nat × Part) :=
  to_.filterMap fun x =>
    let split := ws.contains (mateOf x.2) && !(to_.contains (x.1, mateOf x.2))
    (seenWord s sec x.2 x.1).bind fun p =>
      if split || (l1wFind s p.1 (sec + 4 * x.2)).any fun y => y.prev.isSome then some (x.2, p) else none
/-- A read is forwarded to the owners, and a read of a word owned through a remote die to every RDC that RDM names (Table 10.6). -/
def forwardRead (src : Agent) (op cl sec key : Nat) (ws : List Nat) (to_ : List (Agent × Nat)) (s : State) : State :=
  let cap := capNow s sec to_ ws
  let t := sendGrouped src sec key (fun l => .fwd op cl l (cap.filter fun x => l.contains x.1)) to_ [] s
  let rs := if src = .home ∧ to_.any (fun x => (placeAt x.1).isSome) then dirsOf (regGet s none sec).rdm else []
  (rs.filter fun d => !(to_.any fun x => decide (x.1 = .rdc d))).foldl (fun s d => sendMsg src (.rdc d) sec key (.fwd op cl [] []) s) t
/-- A speculative read of a sector that would be reported (R351). -/
def quietFails (spec : Bool) (key sec : Nat) (s : State) : Bool := spec && decide ((l2Get key sec s).2.ras ≠ s.ras)
/-- A sector for a read: one that would be reported for a speculative read is not read. -/
def l2Quiet (spec : Bool) (key sec : Nat) (s : State) : Option L2Sec × State :=
  if quietFails spec key sec s then (none, s) else (some (l2Get key sec s).1, (l2Get key sec s).2)
/-- The words of 8-byte units of which an RDC has had the other word supplied by an L1 of its die, and which are no longer registered there: those
units are read again here, both words at one instant, and what has been supplied counts no more (R155; assumption 57). -/
def tornUnits (s : State) (src : Agent) (op sec : Nat) (ws : List Nat) : List Nat :=
  let wants (w : Nat) : Bool := (findOp s op).any fun o => o.els.any fun x => decide (8 ≤ x.len ∧ sectorOf x.pa = sec) && (wordsIn (x.pa % 64) x.len).contains w
  let sent (w : Nat) : Bool :=
    ((findOp s op).any fun o => o.got.any fun g => decide (g.1 = sec + 4 * w)) ||
    s.co.msgs.any fun m => decide (m.pa = sec) && (match m.body with
      | .fwd p _ vs _ => decide (p = op) && vs.contains w
      | .fill p vs => decide (p = op) && vs.any fun x => decide (x.1 = w)
      | _ => false)
  match src with
  | .rdc d => (ws.map mateOf).filter fun w => !ws.contains w && wants w && sent w && decide (ownerOf (regGet s none sec) w ≠ some (.rdc d))
  | _ => []
/-- What has been supplied of words of a read, or is about to be, counts no more. -/
def unread (op sec : Nat) (ws : List Nat) (s : State) : State :=
  modOp op (fun o => { o with got := o.got.filter fun g => !(ws.any fun w => decide (g.1 = sec + 4 * w)) })
    { s with co := { s.co with msgs := s.co.msgs.map fun m =>
        if m.pa = sec then
          (match m.body with
           | .fwd p c vs cap => if p = op then { m with body := .fwd p c (vs.filter fun w => !ws.contains w) cap } else m
           | .fill p vs => if p = op then { m with body := .fill p (vs.filter fun x => !ws.contains x.1) } else m
           | _ => m)
        else m } }
/-- HOME_READ at a home or RDC: unregistered words are supplied, registered ones forwarded to their owners. -/
def homeReadAt (n : Nat) (m : Msg) (op cl : Nat) (ws : List Nat) (s : State) : State :=
  let pl := placeAt m.dst
  let sec := m.pa
  if decide (pl = none) && (recovering s sec || !l2Fits m.key s sec) then holdMsg n s
  else if decide (pl = none) && hostHolds s sec && decide (dirbST (dirbOf s sec) = 3) then holdMsg n (sendBisnp sec false s)
  else if unitWaits s pl sec ws then holdMsg n s
  else
    let torn := tornUnits s m.src op sec ws
    let s := if torn.isEmpty then dropMsg n s else unread op sec torn (dropMsg n s)
    let ws := ws ++ torn
    let free := ws.filter fun w => (readOwner s pl sec w).isNone
    let s := forwardRead m.dst op cl sec m.key ws (ws.filterMap fun w => (readOwner s pl sec w).map fun a => (a, w)) s
    if free.isEmpty then s
    else
      match pl with
      | some d => sendMsg (.rdc d) .home sec m.key (.read op cl free) s
      | none =>
        let y := l2Quiet (speculative s op) m.key sec s
        sendMsg .home (.l1 cl) sec m.key (.fill op ((y.1.map fun z =>
          free.map fun w => (w, z.data.getD w 0#32, z.pz.getLsbD w)).getD [])) y.2
def execHomeRead (n : Nat) (s : State) : Out :=
  match arrived s n with
  | some m =>
    match m.body with
    | .read op cl ws => .next (homeReadAt n m op cl ws s)
    | _ => .next s
  | none => .next s

/-- What an agent knows of a word of a read forwarded to it: as the read took it along, or as the L1, or a write-back that has just left the
agent, has it. -/
def fwdWord (s : State) (a : Agent) (sec : Nat) (cap : List (Nat × Nat × Part)) (w : Nat) : Option Part :=
  ((cap.find? fun x => decide (x.1 = w)).map (·.2.2)).orElse fun _ =>
    match a with
    | .l1 c => (seenL1 s c sec w).map (·.2)
    | _ => wbWordOf s a sec w
/-- FORWARDED_READ at an owner: it supplies the words once it knows them whole, also those that have left it since (R215). An RDC forwards the
others to the L1s that own them. What nobody there owns, with the other word of its unit, is asked of the home again. -/
def forwardedAt (n : Nat) (m : Msg) (op cl : Nat) (ws : List Nat) (cap : List (Nat × Nat × Part)) (s : State) : State :=
  let sec := m.pa
  let know (w : Nat) : Option Part := fwdWord s m.dst sec cap w
  let next (w : Nat) : Option Agent := match m.dst with
    | .rdc d => ownerOf (regGet s (some d) sec) w
    | _ => none
  if ws.any fun w => (know w).any fun p => !p.sure then holdMsg n s
  else
    let lost (w : Nat) : Bool := ws.contains w && (know w).isNone && (next w).isNone
    let ask := ws.filter fun w => lost w || lost (mateOf w)
    let rest := ws.filter fun w => !ask.contains w
    let mine := rest.filterMap fun w => (know w).map fun p => (w, p.data, p.psn)
    let s := forwardRead m.dst op cl sec m.key rest
      (rest.filterMap fun w => if (know w).isSome then none else (next w).map fun a => (a, w)) (dropMsg n s)
    let s := if mine.isEmpty then s else sendMsg m.dst (.l1 cl) sec m.key (.fill op mine) s
    if ask.isEmpty then s else sendMsg m.dst m.src sec m.key (.read op cl ask) s
def execForwardedRead (n : Nat) (s : State) : Out :=
  match arrived s n with
  | some m =>
    match m.body with
    | .fwd op cl ws cap => .next (forwardedAt n m op cl ws cap s)
    | _ => .next s
  | none => .next s

/-! ### The directory of D pages (R225 to R228) -/

def dirGet (s : State) (pl : Option Nat) (sec : Nat) : DirEnt :=
  (s.co.dir.find? fun x => decide (x.rdc = pl ∧ x.pa = sec)).getD { rdc := pl, pa := sec, em := false, holders := 0#128, lru := 0 }
def dirPut (e : DirEnt) (s : State) : State :=
  { s with co := { s.co with dir := s.co.dir.filter (fun x => !(decide (x.rdc = e.rdc ∧ x.pa = e.pa))) ++
      (if e.holders = 0#128 then [] else [{ e with lru := s.tick }]) } }
/-- An entry changes without being used. -/
def dirKeep (e : DirEnt) (s : State) : State :=
  let l := s.co.dir.map fun x => if x.rdc = e.rdc ∧ x.pa = e.pa then { e with lru := x.lru } else x
  { s with co := { s.co with dir := l.filter fun x => decide (x.holders ≠ 0#128) } }
/-- The L1s that an entry names. -/
def dirL1s (e : DirEnt) : List Agent :=
  ((List.range 128).filter fun k => e.holders.getLsbD k).map fun k => .l1 (128 * placeDie e.rdc e.pa + k)
def addHolder (e : DirEnt) (cl : Nat) : DirEnt := { e with holders := e.holders ||| (1#128 <<< (cl % 128)) }
def delHolder (e : DirEnt) (cl : Nat) : DirEnt := { e with holders := e.holders &&& ~~~(1#128 <<< (cl % 128)) }

def l1dFind (s : State) (cl sec : Nat) : Option L1Sec := s.co.l1d.find? fun x => decide (x.cl = cl ∧ x.pa = sec)
def l1dDel (cl sec : Nat) (s : State) : State :=
  { s with co := { s.co with l1d := s.co.l1d.filter fun x => !(decide (x.cl = cl ∧ x.pa = sec)) } }
def l1dPut (x : L1Sec) (s : State) : State :=
  { s with co := { s.co with l1d := s.co.l1d.filter (fun y => !(decide (y.cl = x.cl ∧ y.pa = x.pa))) ++ [x] } }
def rdcFind (s : State) (d sec : Nat) : Option RdcSec := s.co.rdc.find? fun x => decide (x.die = d ∧ x.pa = sec)
def rdcDel (d sec : Nat) (s : State) : State :=
  { s with co := { s.co with rdc := s.co.rdc.filter fun x => !(decide (x.die = d ∧ x.pa = sec)) } }
def rdcPut (x : RdcSec) (s : State) : State :=
  { s with co := { s.co with rdc := s.co.rdc.filter (fun y => !(decide (y.die = x.die ∧ y.pa = x.pa))) ++ [x] } }
def isEM (t : Mesi) : Bool := decide (t = .e ∨ t = .m)
/-- An L1's D-page or host sector leaves: from E or M it is returned, from S silently (Table 10.9). -/
def evictD (cl : Nat) (s : State) (sec : Nat) : State :=
  match l1dFind s cl sec with
  | none => s
  | some x =>
    let s := l1dDel cl sec s
    if isEM x.st then
      sendMsg (.l1 cl) (agentAt (placeOf cl sec)) sec x.key (.dret (some (x.data, x.psn)) (decide (x.st = .m)) true) s
    else s
def evictLine (cl line : Nat) (s : State) : State := (sectorsOfLine line).foldl (fun s sec => evictD cl (evictS cl s sec) sec) s
/-- Room in an L1 for a sector's line: when there is none, the line held longest whose words are all settled leaves, or else one is marked to. -/
def l1Make (cl sec : Nat) (s : State) : Bool × State :=
  if l1Room s cl sec then (true, s)
  else
    let l := l1Lines s cl
    let stuck (a : Nat) : Bool := s.co.l1w.any fun x => decide (x.cl = cl ∧ lineOf x.pa = a) && stays s x
    match (l.find? fun a => !stuck a).orElse fun _ => l.head? with
    | none => (true, s)
    | some a => let s := evictLine cl a s; (l1Room s cl sec, s)

/-- The snoop filter's record of the RDCs that may hold a host sector (R229). -/
def snoopSet (sec d : Nat) (on : Bool) (s : State) : State :=
  let old := ((s.co.snoop.find? fun x => decide (x.1 = sec)).map (·.2)).getD 0#4
  let b := if on then old ||| (1#4 <<< d) else old &&& ~~~(1#4 <<< d)
  let l := s.co.snoop.filter fun x => decide (x.1 ≠ sec)
  { s with co := { s.co with snoop := if b = 0#4 then l else l ++ [(sec, b)] } }

/-- Data returned to a place: into the home's L2, or into the RDC's copy, which then is M when it was modified. -/
def takeData (pl : Option Nat) (sec key : Nat) (d : List W32 × BitVec 16) (dirty : Bool) (s : State) : State :=
  match pl with
  | none =>
    let y := l2Get key sec s
    l2Put { y.1 with data := d.1, pz := d.2, dirty := true } y.2
  | some k =>
    match rdcFind s k sec with
    | some x => rdcPut { x with data := d.1, psn := d.2, st := if dirty then .m else x.st } s
    | none => s

/-- The data of a place: of the home's L2, or of the RDC's copy. -/
def placeData (pl : Option Nat) (sec key : Nat) (s : State) : (List W32 × BitVec 16) × State :=
  match pl with
  | none =>
    let y := l2Get key sec s
    ((y.1.data, y.1.pz), y.2)
  | some k =>
    match rdcFind s k sec with
    | some x => ((x.data, x.psn), s)
    | none => ((zeroSec, 0#16), s)

/-- Holders other than the requester at a place: its die's L1s, and at a home the RDCs of other dies. -/
def otherL1s (s : State) (pl : Option Nat) (sec : Nat) (frm : Agent) : List Agent :=
  (dirL1s (dirGet s pl sec)).filter fun a => decide (a ≠ frm)
def otherRdcs (s : State) (pl : Option Nat) (sec : Nat) (frm : Agent) : List Agent :=
  match pl with
  | none => ((dirbDies (dirbOf s sec)).map Agent.rdc).filter fun a => decide (a ≠ frm)
  | some _ => []

/-- Operations of an L1, or of a die's L1s, that wait for a sector. -/
def waitersOf (s : State) (a : Agent) (sec : Nat) : List Op :=
  s.ops.filter fun o =>
    (match a with
     | .l1 c => decide (o.cl = c)
     | .rdc d => decide (dieOf o.cl = d)
     | .home => false) && decide (o.ph = .miss) && o.els.any fun x => decide (sectorOf x.pa = sec)
/-- Only prefetches wait for a sector. -/
def onlyAhead (s : State) (frm : Agent) (sec : Nat) : Bool :=
  let l := waitersOf s frm sec
  !l.isEmpty && l.all fun o => speculative s o.id
/-- A request for which only prefetches wait does nothing when it would be reported, or when the byte that each names is poisoned (R158, R351). -/
def vain (s t : State) (frm : Agent) (sec : Nat) (psn : BitVec 16) : Bool :=
  onlyAhead s frm sec && (decide (t.ras ≠ s.ras) ||
    (decide (psn ≠ 0#16) && (waitersOf s frm sec).all fun o => o.els.all fun x =>
      decide (sectorOf x.pa ≠ sec) || (decide (x.len = 1) && psn.getLsbD (x.pa % 64 / 4))))
/-- What waits at an RDC for a sector that it will not get. -/
def dropWaiting (frm : Agent) (sec : Nat) (s : State) : State :=
  { s with co := { s.co with msgs := s.co.msgs.filter fun m => !(decide (m.dst = frm ∧ m.pa = sec) && (match m.body with
      | .dreq _ => true
      | _ => false)) } }
/-- Granting a sector at a place with no conflicting holder left (Table 10.9, R228): E to the only holder, as far as the
place may; S beside others; M for an exclusive request. -/
def grantSector (pl : Option Nat) (frm : Agent) (k : DReq) (sec key : Nat) (s : State) : State :=
  let e := dirGet s pl sec
  let others := !(otherL1s s pl sec frm).isEmpty || !(otherRdcs s pl sec frm).isEmpty ||
    (decide (pl = none) && hostHolds s sec)
  let rdcS := match pl with
    | none => false
    | some d => ((rdcFind s d sec).map (·.st)) == some .s
  let st : Mesi := match k with
    | .shared => if others || rdcS then .s else .e
    | _ => .m
  let r := placeData pl sec key s
  if vain s r.2 frm sec r.1.2 then dropWaiting frm sec s
  else
  let s := match frm with
    | .l1 c => dirPut { addHolder (if st = .s then { e with em := false } else { e with holders := 0#128, em := true }) c with
        em := decide (st ≠ .s) } r.2
    | .rdc d =>
      let b := dirbOf r.2 sec
      if st = .s then setDirb sec (mkDirb (d :: dirbDies b) (b.getLsbD 3) false) (dirPut { e with em := false } r.2)
      else setDirb sec (mkDirb [d] false true) (dirPut { e with holders := 0#128 } r.2)
    | .home => r.2
  sendMsg (agentAt pl) frm sec key (.dgrant st r.1.1 r.1.2) s

/-- Whether a request about a sector must wait at a place: another is in progress there, or at the home the directory byte is being
recovered (R412). -/
def dirBusy (s : State) (pl : Option Nat) (sec : Nat) : Bool :=
  (s.co.dwait.any fun d => decide (d.rdc = pl ∧ d.pa = sec)) || (decide (pl = none) && recovering s sec)

/-- The RDC asks the home, or the host, for what it lacks; once. -/
def rdcAsk (d : Nat) (k : DReq) (sec key : Nat) (s : State) : State :=
  if isHost sec then
    if s.co.rdcReq.any fun r => decide (r.1 = d ∧ r.2.1 = sec) then s
    else { s with co := { s.co with rdcReq := s.co.rdcReq ++ [(d, sec, k)] } }
  else
    let out := (s.co.msgs.any fun m => decide (m.pa = sec) && (match m.body with
        | .dreq _ => decide (m.src = .rdc d)
        | .dgrant _ _ _ => decide (m.dst = .rdc d)
        | _ => false)) ||
      (s.co.dwait.any fun w => decide (w.rdc = none ∧ w.pa = sec) && (w.req.any fun m => decide (m.src = .rdc d)))
    if out then s else sendMsg (.rdc d) .home sec key (.dreq k) s

/-- Conflicting holders are told, and the request waits for their answers; with none it is granted. -/
def dirServe (pl : Option Nat) (n : Nat) (m : Msg) (k : DReq) (s : State) : State :=
  let sec := m.pa
  let e := dirGet s pl sec
  let b := dirbOf s sec
  let host := decide (pl = none) && hostHolds s sec
  let sh := decide (k = .shared)
  let need := if sh then (if e.em then otherL1s s pl sec m.src else []) ++
      (if dirbST b = 3 then otherRdcs s pl sec m.src else [])
    else otherL1s s pl sec m.src ++ otherRdcs s pl sec m.src
  let hostNeed := host && (!sh || (decide (dirbST b = 3) && (dirbDies b).isEmpty))
  let key := ((l2Find s sec).map (·.key)).getD m.key
  if need.isEmpty && !hostNeed then grantSector pl m.src k sec m.key (dropMsg n s)
  else if decide (pl = none) && quietFails (onlyAhead s m.src sec) key sec s then dropWaiting m.src sec (dropMsg n s)
  else
    let s := dropMsg n s
    -- the sector's line, with its directory byte, stays in the L2 meanwhile
    let s := if pl = none then (l2Get key sec s).2 else s
    let s := { s with co := { s.co with dwait := s.co.dwait ++ [{ rdc := pl, pa := sec, req := some m, need := need }] } }
    let s := need.foldl (fun s a => sendMsg (agentAt pl) a sec m.key (if sh then .share else .inval) s) s
    if hostNeed then sendBisnp sec (!sh) s else s

def isL1 : Agent → Bool
  | .l1 _ => true
  | _ => false
/-- Two sectors share a directory set (R226): 128 sets beside a slice, 4,096 in an RDC. -/
def sameSet (pl : Option Nat) (a b : Nat) : Bool :=
  let set (a : Nat) : Nat := Config.dirSet (a / 64) % (if pl = none then 128 else 4096)
  (pl.isSome || decide (homeOf a = homeOf b)) && decide (set a = set b)
/-- The entries of a set, and the sectors of L1s' waiting requests that have none and are to get one there. -/
def setEntries (s : State) (pl : Option Nat) (sec : Nat) : List DirEnt := s.co.dir.filter fun e => decide (e.rdc = pl) && sameSet pl e.pa sec
def setPromised (s : State) (pl : Option Nat) (sec : Nat) : List DWait :=
  s.co.dwait.filter fun w => decide (w.rdc = pl) && sameSet pl w.pa sec && (w.req.any fun m => isL1 m.src) && decide ((dirGet s pl w.pa).holders = 0#128)
/-- A directory set of sixteen entries has no place for a new one. -/
def dirFull (s : State) (pl : Option Nat) (sec : Nat) : Bool :=
  decide (16 ≤ s.co.dir.length + s.co.dwait.length) && decide ((dirGet s pl sec).holders = 0#128) &&
  decide (16 ≤ (setEntries s pl sec).length + (setPromised s pl sec).length)
/-- The least recently used entry of a set. -/
def dirVictim (s : State) (pl : Option Nat) (sec : Nat) : Option DirEnt :=
  (setEntries s pl sec).foldl (fun m e => match m with
    | none => some e
    | some x => if e.lru < x.lru then some e else some x) none
/-- Every holder that an evicted entry names is sent an invalidate. -/
def evictEntry (e : DirEnt) (s : State) : State :=
  if dirBusy s e.rdc e.pa then s
  else
    let need := dirL1s e
    let s := { s with co := { s.co with dwait := s.co.dwait ++ [{ rdc := e.rdc, pa := e.pa, req := none, need := need }] } }
    need.foldl (fun s a => sendMsg (agentAt e.rdc) a e.pa 0 .inval s) s

/-- DIRECTORY_REQUEST at a home or RDC: one that needs an entry of a full set waits until the least recently used has been evicted (R226). -/
def directoryRequestAt (n : Nat) (m : Msg) (k : DReq) (s : State) : State :=
  let pl := placeAt m.dst
  if dirBusy s pl m.pa || (decide (pl = none) && !l2Fits m.key s m.pa) then holdMsg n s
  else
    if isL1 m.src && dirFull s pl m.pa then
      (match dirVictim s pl m.pa with
       | some e => holdMsg n (evictEntry e s)
       | none => holdMsg n s)
    else
    match pl with
    | none => dirServe pl n m k s
    | some d =>
      let st := ((rdcFind s d m.pa).map (·.st)).getD .i
      if decide (k = .shared) && decide (st ≠ .i) || isEM st then dirServe pl n m k s
      else holdMsg n (rdcAsk d (if k = .shared then .shared else if st = .s then .upgrade else .excl) m.pa m.key s)
def execDirectoryRequest (n : Nat) (s : State) : Out :=
  match arrived s n with
  | some m =>
    match m.body with
    | .dreq k => .next (directoryRequestAt n m k s)
    | _ => .next s
  | none => .next s

/-- An RDC answers its home once its die's holders have: its data when it held E or M (R228). -/
def rdcAnswer (d : Nat) (m : Msg) (s : State) : State :=
  match rdcFind s d m.pa with
  | none => sendMsg (.rdc d) m.src m.pa m.key (.dret none false false) s
  | some x =>
    let s1 := match m.body with
      | .share => rdcPut { x with st := .s } s
      | _ => rdcDel d m.pa s
    sendMsg (.rdc d) m.src m.pa x.key
      (.dret (if isEM x.st then some (x.data, x.psn) else none) (decide (x.st = .m)) false) s1

/-- DIRECTORY_INVALIDATE: an invalidate or share request at an L1 (Table 10.9) or an RDC (R228). -/
def directoryInvalidateAt (n : Nat) (m : Msg) (share : Bool) (s : State) : State :=
  match m.dst with
  | .l1 c =>
    let s1 := dropMsg n s
    match l1dFind s c m.pa with
    | none => sendMsg m.dst m.src m.pa m.key (.dret none false false) s1
    | some x =>
      let s2 := if share then l1dPut { x with st := .s } s1 else l1dDel c m.pa s1
      sendMsg m.dst m.src m.pa x.key
        (.dret (if isEM x.st then some (x.data, x.psn) else none) (decide (x.st = .m)) false) s2
  | .rdc d =>
    if dirBusy s (some d) m.pa then holdMsg n s
    else
      let e := dirGet s (some d) m.pa
      let need := if share && !e.em then [] else dirL1s e
      let s1 := dropMsg n s
      if need.isEmpty then rdcAnswer d m s1
      else
        let s2 := { s1 with co := { s1.co with dwait := s1.co.dwait ++ [{ rdc := some d, pa := m.pa, req := some m, need := need }] } }
        need.foldl (fun s a => sendMsg (.rdc d) a m.pa m.key (if share then .share else .inval) s) s2
  | .home => dropMsg n s
def execDirectoryInvalidate (n : Nat) (s : State) : Out :=
  match arrived s n with
  | some m =>
    match m.body with
    | .inval => .next (directoryInvalidateAt n m false s)
    | .share => .next (directoryInvalidateAt n m true s)
    | _ => .next s
  | none => .next s

/-- Whether a waiting request invalidates its holders. -/
def waitInvalidates (w : DWait) : Bool :=
  match w.req with
  | some m =>
    match m.body with
    | .dreq .shared => false
    | .share => false
    | _ => true
  | none => true

/-- The directory forgets a holder, or notes that it holds S only. -/
def dirForget (pl : Option Nat) (sec : Nat) (a : Agent) (gone : Bool) (s : State) : State :=
  match a with
  | .l1 c =>
    let e := dirGet s pl sec
    dirKeep (if gone then { delHolder e c with em := false } else { e with em := false }) s
  | .rdc d =>
    let b := dirbOf s sec
    setDirb sec (mkDirb (if gone then (dirbDies b).filter fun x => decide (x ≠ d) else dirbDies b) (b.getLsbD 3) false) s
  | .home => s

/-- A waiting request whose holders have all answered proceeds. -/
def dirFinish (w : DWait) (s : State) : State :=
  let s := { s with co := { s.co with dwait := s.co.dwait.filter fun x => !(decide (x.rdc = w.rdc ∧ x.pa = w.pa)) } }
  match w.req with
  | none => s
  | some m =>
    match m.body with
    | .dreq k => grantSector w.rdc m.src k w.pa m.key s
    | _ => (match w.rdc with
      | some d => rdcAnswer d m s
      | none => s)

/-- A request at a home is performed, or waits on. -/
def requestAt (n : Nat) (m : Msg) (s : State) : State :=
  match m.body with
  | .reg ws => registrationAt n m ws s
  | .read op cl ws => homeReadAt n m op cl ws s
  | .dreq k => directoryRequestAt n m k s
  | _ => s
/-- Requests about a sector that its home has held back are performed in the order in which they arrived (R412). -/
def serveHeld (sec : Nat) : Nat → Nat → State → State
  | 0, _, s => s
  | f + 1, k, s =>
    match s.co.msgs[k]? with
    | none => s
    | some m =>
      if m.held && decide (m.dst = .home ∧ m.pa = sec) && isRequest m.body then
        let t := requestAt k m s
        serveHeld sec f (if t.co.msgs[k]? = some m then k + 1 else k) t
      else serveHeld sec f (k + 1) s
/-- The recovery of a directory byte is over once no answer is awaited (R412): DIR is written as zero, and the sector is
poisoned when a holder had modified it. -/
def dirRecover (sec : Nat) (s : State) : State :=
  match s.co.dirRec.find? fun x => decide (x.1 = sec) with
  | none => s
  | some x =>
    let s := { s with co := { s.co with dirRec := s.co.dirRec.filter fun y => decide (y.1 ≠ sec) } }
    let s := setDirb sec 0#8 (countLog ctrDIRUE (homeDie sec) (homeOf sec % 128) sec s)
    let s := if !x.2 then s
      else match l2Find s sec with
        | some y => l2Poison y.key sec s
        | none => formMeta sec (setPsn true sec s)
    serveHeld sec (s.co.msgs.length + 1) 0 s

/-- Whatever waits on answers about a sector at a place goes on when none is outstanding. -/
def dirProgress (pl : Option Nat) (sec : Nat) (s : State) : State :=
  match s.co.dwait.find? fun w => decide (w.rdc = pl ∧ w.pa = sec) with
  | none => s
  | some w =>
    if w.need.isEmpty && !(decide (pl = none) && bisnpOut s sec) then
      let s := dirFinish w s
      if pl = none then dirRecover sec s else s
    else s

/-- RETURNED_SECTOR: a holder's answer, or an evicted sector, at a home or RDC (R225, R228). During a directory-byte
recovery modified data of another die is discarded and noted (R412). -/
def returnedAt (n : Nat) (m : Msg) (data : Option (List W32 × BitVec 16)) (dirty evict : Bool) (s : State) : State :=
  let pl := placeAt m.dst
  let sec := m.pa
  if decide (pl = none) && data.isSome && !l2Fits m.key s sec then holdMsg n s
  else
  let s := dropMsg n s
  let rec' := decide (pl = none) && (s.co.dirRec.any fun x => decide (x.1 = sec))
  let s := match data with
    | none => s
    | some d =>
      if rec' && (match m.src with
          | .rdc _ => true
          | _ => false) then
        (if dirty then { s with co := { s.co with dirRec := s.co.dirRec.map fun x => if x.1 = sec then (sec, true) else x } } else s)
      else takeData pl sec m.key d dirty s
  if evict then
    let s := dirForget pl sec m.src true s
    match pl with
    | some d => if isHost sec && decide (m.src = .rdc d) then snoopSet sec d false s else s
    | none => s
  else
    let inv := ((s.co.dwait.find? fun w => decide (w.rdc = pl ∧ w.pa = sec)).map waitInvalidates).getD false
    let s := dirForget pl sec m.src inv s
    let s := { s with co := { s.co with dwait := s.co.dwait.map fun w =>
      if w.rdc = pl ∧ w.pa = sec then { w with need := w.need.filter fun a => decide (a ≠ m.src) } else w } }
    dirProgress pl sec s
def execReturnedSector (n : Nat) (s : State) : Out :=
  match arrived s n with
  | some m =>
    match m.body with
    | .dret data dirty evict => .next (returnedAt n m data dirty evict s)
    | _ => .next s
  | none => .next s

/-- An L1's request about a sector is on its way, waits, or has been granted. -/
def l1Asked (s : State) (cl sec : Nat) : Bool :=
  (s.co.msgs.any fun m => decide (m.pa = sec) && (match m.body with
    | .dreq _ => decide (m.src = .l1 cl)
    | .dgrant _ _ _ => decide (m.dst = .l1 cl)
    | _ => false)) ||
  (s.co.dwait.any fun w => decide (w.pa = sec) && (w.req.any fun m => decide (m.src = .l1 cl)))
/-- An L1's request about a sector, once. -/
def l1Ask (cl : Nat) (k : DReq) (sec key : Nat) (s : State) : State :=
  if l1Asked s cl sec then s else sendMsg (.l1 cl) (agentAt (placeOf cl sec)) sec key (.dreq k) s

/-! ### Accesses that a home performs itself -/

/-- A word's owner is recalled at once, when it has one. -/
def recallNow (sec key : Nat) (s : State) (w : Nat) : State :=
  if (ownerWord s sec w).isNone then s else recallInto sec (l2Get key sec s).2 w

/-- The modified copy of a device sector, with its key: an L1's before an RDC's. -/
def emCopy (s : State) (sec : Nat) : Option (Nat × List W32 × BitVec 16) :=
  match s.co.l1d.find? fun x => decide (x.pa = sec) && isEM x.st with
  | some x => some (x.key, x.data, x.psn)
  | none => (s.co.rdc.find? fun x => decide (x.pa = sec) && isEM x.st).map fun x => (x.key, x.data, x.psn)

/-- An RDC's sector downgraded to S, with the data of its die's E or M copy collected first (R228, R388). -/
def rdcShared (s : State) (x : RdcSec) : RdcSec :=
  match s.co.l1d.find? fun y => decide (y.pa = x.pa ∧ dieOf y.cl = x.die) && isEM y.st with
  | some y => { x with st := .s, data := y.data, psn := y.psn }
  | none => { x with st := .s }
/-- Every L1 and RDC copy of a sector leaves, or keeps S. -/
def dropCopies (sec : Nat) (s : State) : State :=
  { s with co := { s.co with
      l1d := s.co.l1d.filter fun x => decide (x.pa ≠ sec), rdc := s.co.rdc.filter fun x => decide (x.pa ≠ sec),
      dir := s.co.dir.filter fun x => decide (x.pa ≠ sec) } }
def shareCopies (sec : Nat) (s : State) : State :=
  { s with co := { s.co with
      l1d := s.co.l1d.map (fun x => if x.pa = sec then { x with st := .s } else x),
      rdc := s.co.rdc.map (fun x => if x.pa = sec then rdcShared s x else x),
      dir := s.co.dir.map (fun x => if x.pa = sec then { x with em := false } else x) } }

/-- Preparing a sector at its home for an access performed there (Tables 10.6, 11.4; R391): nothing about it is on its
way, the host's conflicting copy is back, holders of E or M have returned their data, and for a write the owners of the
covered words are recalled and every D-page holder invalidated. Answers whether the access can be performed now. -/
def prepare (wr : Bool) (ws : List Nat) (key sec : Nat) (s : State) : Bool × State :=
  if sectorBusy s sec || !l2Fits key s sec then (false, s)
  else if hostHolds s sec && (wr || (decide (dirbST (dirbOf s sec) = 3) && (dirbDies (dirbOf s sec)).isEmpty)) then
    (false, sendBisnp sec wr s)
  else if (List.range 16).any fun w => registered s sec w && (ownerWord s sec w).isNone then (false, s)
  else
    let s := match emCopy s sec with
      | some d => takeData none sec d.1 d.2 true s
      | none => (l2Get key sec s).2
    if wr then
      (true, setDirb sec 0#8 (dropCopies sec (ws.foldl (recallNow sec key) s)))
    else
      let b := dirbOf s sec
      (true, if dirbST b = 3 then setDirb sec (mkDirb (dirbDies b) (b.getLsbD 3) false) (shareCopies sec s) else shareCopies sec s)

/-- A prepared sector as its home gives it: registered words come from their owners; what is held under another key is seen through it (R413). -/
def homeData (key sec : Nat) (s : State) : List W32 × BitVec 16 :=
  let y := (l2Get key sec s).1
  if (List.range 16).any fun w => (ownerWord s sec w).any fun x => decide (x.key ≠ key) then
    let z := (l2Get key sec ((List.range 16).foldl (recallInto sec) s)).1
    (z.data, z.pz)
  else
    ((List.range 16).map (fun w => ((ownerWord s sec w).map (·.data)).getD (y.data.getD w 0#32)),
     BitVec.ofNat 16 (((List.range 16).map fun w =>
       if ((ownerWord s sec w).map (·.psn)).getD (y.pz.getLsbD w) then 2 ^ w else 0).foldl (· + ·) 0))

/-- Sectors that [pa, pa + n) touches. -/
def sectorsIn (pa n : Nat) : List Nat :=
  if n = 0 then [] else (List.range ((sectorOf (pa + n - 1) - sectorOf pa) / 64 + 1)).map fun k => sectorOf pa + 64 * k

/-- The words of `[pa, pa + n)` in one sector. -/
def wordsOfRange (pa n sec : Nat) : List Nat :=
  let lo := max pa sec
  let hi := min (pa + n) (sec + 64)
  wordsIn (lo - sec) (hi - lo)

/-! ### Host sectors in the dies (R229, Table 19.4) -/

/-- A sector of host memory, with the marks of its words. -/
def hostSector (s : State) (sec : Nat) : List W32 × BitVec 16 :=
  (secOfBytes (memRead s.mem sec 64),
   BitVec.ofNat 16 (((List.range 16).map fun w => if psnAt s (sec + 4 * w) then 2 ^ w else 0).foldl (· + ·) 0))
/-- A sector written to host memory: its marks go with it (R402). -/
def hostStore (sec : Nat) (d : List W32) (psn : BitVec 16) (s : State) : State :=
  (List.range 16).foldl (fun s w => setPsn (psn.getLsbD w) (sec + 4 * w) s) { s with mem := memWrite s.mem sec (secBytes d) }

def tellHost (m : HostMsg) (s : State) : State := { s with link := { s.link with out := m :: s.link.out } }
/-- The data of a modified copy in the die: an L1's before the RDC's. -/
def dieDirty (s : State) (d sec : Nat) : Option (List W32 × BitVec 16) :=
  match s.co.l1d.find? fun x => decide (x.pa = sec ∧ dieOf x.cl = d ∧ x.st = .m) with
  | some x => some (x.data, x.psn)
  | none => (s.co.rdc.find? fun x => decide (x.pa = sec ∧ x.die = d ∧ x.st = .m)).map fun x => (x.data, x.psn)
/-- The state in which a die holds a sector: M as soon as one of its L1s has written it. -/
def dieState (s : State) (d sec : Nat) : Mesi :=
  if (dieDirty s d sec).isSome then .m else ((rdcFind s d sec).map (·.st)).getD .i
/-- Modified data of a die's copies reaches the host. -/
def toHost (d sec : Nat) (s : State) : State :=
  match dieDirty s d sec with
  | some x => hostStore sec x.1 x.2 s
  | none => s
/-- A die's copies of a sector leave. -/
def dieDrop (d sec : Nat) (s : State) : State :=
  snoopSet sec d false
    { s with co := { s.co with
        l1d := s.co.l1d.filter fun x => !(decide (x.pa = sec ∧ dieOf x.cl = d)),
        rdc := s.co.rdc.filter fun x => !(decide (x.pa = sec ∧ x.die = d)),
        dir := s.co.dir.filter fun x => !(decide (x.pa = sec ∧ x.rdc = some d)) } }
/-- A die's copies keep S, with the data of a modified one. -/
def dieShare (d sec : Nat) (s : State) : State :=
  { s with co := { s.co with
      l1d := s.co.l1d.map (fun x => if x.pa = sec ∧ dieOf x.cl = d then { x with st := .s } else x),
      rdc := s.co.rdc.map (fun x => if x.pa = sec ∧ x.die = d then rdcShared s x else x),
      dir := s.co.dir.map (fun x => if x.pa = sec ∧ x.rdc = some d then { x with em := false } else x) } }
/-- The host's snoops. -/
inductive Snp where
  | data | inv | cur
  deriving DecidableEq, Repr
/-- Table 19.4's answers. -/
def snpRsp (k : Snp) (st : Mesi) : SnpRsp :=
  match st, k with
  | .i, _ => .iHitI
  | .m, .data => .sFwdM
  | .m, .inv => .iFwdM
  | .m, .cur => .vFwdV
  | _, .data => .sHitSE
  | _, .inv => .iHitSE
  | _, .cur => .vHitV
/-- A die answers a snoop and changes its state by it (Table 19.4, R388). -/
def snoopDie (k : Snp) (d sec : Nat) (s : State) : State :=
  let t := tellHost (.answer d sec (snpRsp k (dieState s d sec)) (dieDirty s d sec)) (toHost d sec s)
  match k with
  | .data => dieShare d sec t
  | .inv => dieDrop d sec t
  | .cur => t
/-- A die gives a host sector up, dirty data going to the host (Table 19.4's evictions). -/
def evictDie (d sec : Nat) (s : State) : State :=
  if dieState s d sec = .i then dieDrop d sec s
  else dieDrop d sec (tellHost (.evict d sec (dieState s d sec) (dieDirty s d sec)) (toHost d sec s))
/-- Every die's copies of a host sector go back to the host. -/
def returnSec (s : State) (sec : Nat) : State := (List.range 4).foldl (fun s d => evictDie d sec s) s
/-- The dies that hold a host sector answer the snoop that an access by the host makes; none while something about it is on its way
(assumption 19). -/
def settleHost (wr : Bool) (sec : Nat) (s : State) : Bool × State :=
  if sectorBusy s sec || (s.co.rdcReq.any fun r => decide (r.2.1 = sec)) then (false, s)
  else (true, ((List.range 4).filter fun d => decide (dieState s d sec ≠ .i)).foldl (fun s d => snoopDie (if wr then .inv else .data) d sec s) s)

/-- Preparing every sector of a range for an access performed at its place: a home, the host, a peer, or nothing. -/
def prepareRange (wr : Bool) (key pa n : Nat) (s : State) : Bool × State :=
  (sectorsIn pa n).foldl (fun x sec =>
    if !x.1 then x
    else if devicePresent x.2 sec then prepare wr (wordsOfRange pa n sec) key sec x.2
    else if isHost sec && hostUp x.2 then settleHost wr sec x.2
    else x) (true, s)

/-- Bytes of a prepared range with their poison; an address that holds nothing reads poison (R380). -/
def placeRead (key pa n : Nat) (s : State) : List (Byte × Bool) :=
  (List.range n).map fun i =>
    let a := pa + i
    let sec := sectorOf a
    if devicePresent s a then
      let d := homeData key sec s
      (secByte d.1 (a % 64), d.2.getLsbD (a % 64 / 4))
    else if isHost a && hostUp s then (memGet s.mem a, psnAt s (a / 4 * 4))
    else if isMmio a then (0#8, false)
    else (0#8, true)

/-- The bytes from an address on that lie in a sector of host memory. -/
def hostPart (sec pa : Nat) (bs : List Byte) (poison : Bool) (s : State) : State :=
  let lo := max pa sec
  let w := secWrite (hostSector s sec).1 (hostSector s sec).2 (lo % 64) ((bs.drop (lo - pa)).take (sec + 64 - lo))
  hostStore sec w.1 (if poison then 0xFFFF#16 else w.2) s
/-- Bytes written at a prepared range: into L2, or host memory; discarded where nothing is (R380). A poisoned write marks every word of each sector
that it touches, owned or not (R410). -/
def placeWrite (key pa : Nat) (bs : List Byte) (poison : Bool) (s : State) : State :=
  (sectorsIn pa bs.length).foldl (fun s sec =>
    let lo := max pa sec
    let part := (bs.drop (lo - pa)).take (sec + 64 - lo)
    if devicePresent s sec then
      (if poison then l2WritePoisoned key lo part ((List.range 16).foldl (recallNow sec key) s) else l2Write key lo part s)
    else if isHost sec && hostUp s then hostPart sec pa bs poison s
    else s) s

end Sys2Proof.Machine
end

