-- ==== Sys2Proof/Machine/Translate.lean ====
section
/-! DEFINITION. Translation (R340 to R348): the walk, the checks of Table 16.3, the A and D bits, and cached
translations of a die's slices and of the front end's walker. -/
namespace Sys2Proof.Machine

/-! ### Table entries (Table 16.2) -/

def pteV (e : W64) : Bool := e.getLsbD 63
def pteLF (e : W64) : Bool := e.getLsbD 62
def pteRD (e : W64) : Bool := e.getLsbD 61
def pteW (e : W64) : Bool := e.getLsbD 60
def pteIMG (e : W64) : Bool := e.getLsbD 59
def pteCOH (e : W64) : Nat := (e.extractLsb' 57 2).toNat
def pteINTEG (e : W64) : Bool := e.getLsbD 56
def pteF (e : W64) : Bool := e.getLsbD 55
def pteA (e : W64) : Bool := e.getLsbD 54
def pteD (e : W64) : Bool := e.getLsbD 53
def pteG (e : W64) : Bool := e.getLsbD 52
def ptePFN (e : W64) : Nat := (e.extractLsb' 16 36).toNat
def pteKEY (e : W64) : Nat := (e.extractLsb' 8 8).toNat
def pteKD (e : W64) : Bool := e.getLsbD 7

/-- Index bits of a walk level (Table 16.1). -/
def walkIndex (va lvl : Nat) : Nat :=
  if lvl = 0 then va / 2 ^ 45 % 2048 else if lvl = 1 then va / 2 ^ 34 % 2048
  else if lvl = 2 then va / 2 ^ 25 % 512 else va / 2 ^ 16 % 512
/-- What a leaf at a level maps. -/
def leafSize (lvl : Nat) : Nat := if lvl = 1 then 2 ^ 34 else if lvl = 2 then 2 ^ 25 else 2 ^ 16

/-- R343's malformed entries. -/
def pteMalformed (e : W64) (lvl : Nat) : Bool :=
  decide (e.extractLsb' 0 7 ≠ 0#7) ||
  (!pteLF e && (decide (e.extractLsb' 52 10 ≠ 0#10) || decide (pteKEY e ≠ 0))) ||
  (pteLF e && decide (lvl = 0)) || (!pteLF e && decide (lvl = 3)) ||
  (pteLF e && decide (lvl = 1) && decide (ptePFN e % 2 ^ 18 ≠ 0)) ||
  (pteLF e && decide (lvl = 2) && decide (ptePFN e % 2 ^ 9 ≠ 0)) ||
  (pteKD e && decide (pteKEY e ≠ 0))

/-! ### Page-table accesses: eight bytes at their home, plaintext (R343, R346) -/

/-- A doubleword at a prepared place and whether any of its bytes is poisoned. -/
def read64At (pa : Nat) (s : State) : W64 × Bool :=
  let l := placeRead 0 pa 8 s
  (BitVec.ofNat 64 (natOfBytes (l.map (·.1))), l.any (·.2))

/-- A compare-and-swap of eight bytes at a prepared place: whether it wrote. -/
def cas64At (pa : Nat) (old new : W64) (s : State) : Bool × State :=
  let r := read64At pa s
  if r.2 || decide (r.1 ≠ old) then (false, s) else (true, placeWrite 0 pa (bytesOfNat new.toNat 8) false s)

/-- Reports an access whose address holds nothing (R380). -/
def noteHole (w : Who) (coh pa : Nat) (s : State) : State := if kindAt s coh pa = .hole then reportHoleBy w pa s else s

/-- CXL.cache is being cleared: accesses of the host window wait (R390). -/
def cacheGoing (s : State) : Bool := s.inbox.contains .cacheClear

/-! ### The walk -/

/-- What a translation found: a leaf, its page size and its entry's address; a fault; or that a page-table access cannot
be performed yet. -/
inductive Found where
  | leaf (e : W64) (size pte : Nat)
  | fault (kind : Byte) (lvl : Nat)
  | wait
  deriving DecidableEq, Repr

/-- Levels `lvl` to 3 of the walk, by the number that remain. -/
def walkFrom (w : Who) (va : Nat) : Nat → Nat → Nat → State → Found × State
  | 0, _, _, s => (.wait, s)
  | n + 1, lvl, t, s =>
    let a := t + 8 * walkIndex va lvl
    let p := prepareRange false 0 a 8 s
    if !p.1 then (.wait, p.2)
    else
      let s := noteHole w 2 a p.2
      let r := read64At a s
      if r.2 then (.fault 0x02#8 lvl, s)
      else if !pteV r.1 then (.fault 0x01#8 lvl, s)
      else if pteMalformed r.1 lvl then (.fault 0x02#8 lvl, s)
      else if pteLF r.1 then (.leaf r.1 (leafSize lvl) a, s)
      else walkFrom w va n (lvl + 1) (ptePFN r.1 * 65536) s
def walk (w : Who) (root va : Nat) (s : State) : Found × State := walkFrom w va 4 0 root s

/-! ### What the tables say, without an access -/

/-- A doubleword as the newest copy of its sector has it. -/
def peek64 (a : Nat) (s : State) : W64 :=
  match emCopy s (sectorOf a) with
  | some d => d.2.1.getD (a % 64 / 4 + 1) 0#32 ++ d.2.1.getD (a % 64 / 4) 0#32
  | none => (read64At a s).1
/-- The leaf that a context's tables give for an address, and its page size. -/
def peekFrom (va : Nat) : Nat → Nat → Nat → State → Option (W64 × Nat)
  | 0, _, _, _ => none
  | n + 1, lvl, t, s =>
    let e := peek64 (t + 8 * walkIndex va lvl) s
    if !pteV e || pteMalformed e lvl then none
    else if pteLF e then some (e, leafSize lvl) else peekFrom va n (lvl + 1) (ptePFN e * 65536) s
def peekLeaf (c : Ctx) (va : Nat) (s : State) : Option (W64 × Nat) := peekFrom va 4 0 c.ptroot s

/-! ### Cached translations (R347, R348) -/

/-- The slice of a die that serves an address; the front end's walker has one cache. -/
def sliceOf (die : Option Nat) (va : Nat) : Nat := if die.isSome then (Config.tlbSlice (va / 65536)).val else 0
def tlbMatch (die : Option Nat) (asid : BitVec 16) (va : Nat) (t : Tlb) : Bool :=
  decide (t.die = die ∧ t.slice = sliceOf die va) && (decide (t.asid = asid) || pteG t.leaf) && decide (t.va = va / t.size * t.size)
/-- The cached translation that an access uses, when it uses one: the newest, or one that a changed table has left behind, each access by
itself (R348; assumption 9). -/
def tlbFind (s : State) (die : Option Nat) (asid : BitVec 16) (va k : Nat) : Option Tlb :=
  (s.co.tlb.filter (tlbMatch die asid va))[Config.tlbPick s.tick va k]?
def tlbPut (t : Tlb) (s : State) : State :=
  if s.co.tlb.contains t then s else { s with co := { s.co with tlb := s.co.tlb ++ [t] } }
def tlbDrop (p : Tlb → Bool) (s : State) : State := { s with co := { s.co with tlb := s.co.tlb.filter fun t => !p t } }

/-- A translation from a slice of a die (none: the front end's walker), for the k-th access from the last of an instruction. Only a leaf is ever
cached; what the slice held stays beside it until a SHOOT or a refused update of its bits. -/
def lookup (die : Option Nat) (w : Who) (c : Ctx) (va k : Nat) (s : State) : Found × State :=
  match tlbFind s die c.asid va k with
  | some t => (.leaf t.leaf t.size t.pte, s)
  | none =>
    let r := walk w c.ptroot va s
    match r.1 with
    | .leaf e size pte =>
      (r.1, tlbPut { die := die, slice := sliceOf die va, asid := c.asid, va := va / size * size, size := size, leaf := e, pte := pte } r.2)
    | _ => r

/-! ### Permission, kind and key -/

/-- What an access needs (Table 16.3). -/
structure Need where
  rd  : Bool
  wr  : Bool
  img : Bool
  deriving DecidableEq, Repr

def leafPa (e : W64) (size va : Nat) : Nat := ptePFN e * 65536 / size * size + va % size

/-- Table 16.3, with COH = 3 (R344) and INTEG without integrity or off the device (R415). -/
def permits (s : State) (e : W64) (pa : Nat) (n : Need) : Bool :=
  decide (pteCOH e ≠ 3) && (!pteINTEG e || (s.ras.inten && isDevice pa)) &&
  (!n.rd || pteRD e) && (!n.wr || pteW e) && (!n.img || pteIMG e)

/-- The key of an access (R346): plus 256 on an INTEG page. -/
def leafKey (c : Ctx) (e : W64) : Nat := (if pteKD e then c.key else pteKEY e) + (if pteINTEG e then 256 else 0)

/-- R345: sets A, and D for a write, by a compare-and-swap at the entry; false when it must be tried again, after the
cached translation has been given up. -/
def markAD (die : Option Nat) (c : Ctx) (va : Nat) (wr : Bool) (e : W64) (size pte : Nat) (s : State) : Bool × State :=
  if pteA e && (!wr || pteD e) then (true, s)
  else
    let n := e ||| (1#64 <<< 54) ||| (if wr then 1#64 <<< 53 else 0#64)
    let p := prepareRange true 0 pte 8 s
    if !p.1 then (false, p.2)
    else
      let r := cas64At pte e n p.2
      let same (t : Tlb) : Bool := decide (t.pte = pte) && tlbMatch die c.asid va t && decide (t.leaf = e)
      if r.1 then (true, tlbPut { die := die, slice := sliceOf die va, asid := c.asid, va := va / size * size, size := size, leaf := n, pte := pte }
        (tlbDrop same r.2))
      else (false, tlbDrop same r.2)

/-! ### A whole access -/

/-- A range cut at every 64 KiB boundary. -/
def winPieces (va n : Nat) : List (Nat × Nat) :=
  if n = 0 then []
  else (List.range ((va + n - 1) / 65536 - va / 65536 + 1)).map fun k =>
    let lo := max va ((va / 65536 + k) * 65536)
    (lo, min (va + n) ((va / 65536 + k + 1) * 65536) - lo)

/-- What becomes of an access's addresses: translated; parked at the first faulting element; refused by permission; or
not finished yet. -/
inductive Access where
  | ok (els : List El)
  | park (kind : Byte) (lvl va : Nat)
  | perm (va : Nat)
  | wait
  deriving DecidableEq, Repr

/-- Leaves of all elements (address and length), in order. -/
def leavesOf (die : Option Nat) (w : Who) (c : Ctx) : List (Nat × Nat) → State → List (Nat × Nat × Found) × State
  | [], s => ([], s)
  | (va, n) :: t, s =>
    let r := lookup die w c va t.length s
    let q := leavesOf die w c t r.2
    ((va, n, r.1) :: q.1, q.2)

/-- The first element that parks: a fault, or a violation on a page with F = 1 (R352). -/
def firstPark (s : State) (n : Need) : List (Nat × Nat × Found) → Option (Byte × Nat × Nat)
  | [] => none
  | (va, _, .fault k l) :: _ => some (k, l, va)
  | (va, _, .leaf e size _) :: t =>
    if pteF e && !permits s e (leafPa e size va) n then some (0x03#8, 0, va) else firstPark s n t
  | (_, _, .wait) :: _ => none
/-- The first element refused on a page with F = 0. -/
def firstPerm (s : State) (n : Need) : List (Nat × Nat × Found) → Option Nat
  | [] => none
  | (va, _, .leaf e size _) :: t => if permits s e (leafPa e size va) n then firstPerm s n t else some va
  | _ :: t => firstPerm s n t

def elOf (s : State) (c : Ctx) (x : Nat × Nat × Found) : El :=
  match x.2.2 with
  | .leaf e size _ =>
    let pa := leafPa e size x.1
    { va := x.1, pa := pa, len := x.2.1, kind := kindAt s (pteCOH e) pa, key := leafKey c e, page := size }
  | _ => { va := x.1, pa := 0, len := x.2.1, kind := .hole, key := 0 }

/-- The elements of accesses as the tables stand. -/
def peekEls (s : State) (c : Ctx) (l : List (Nat × Nat)) : List El :=
  l.filterMap fun a => (peekLeaf c a.1 s).map fun e => elOf s c (a.1, a.2, .leaf e.1 e.2 0)

/-- A and D of every element's leaf (R345). -/
def markAll (die : Option Nat) (c : Ctx) (wr : Bool) : List (Nat × Nat × Found) → State → Bool × State
  | [], s => (true, s)
  | (va, _, .leaf e size pte) :: t, s =>
    let r := markAD die c va wr e size pte s
    if r.1 then markAll die c wr t r.2 else r
  | _ :: t, s => markAll die c wr t s

/-- Rows 4 and 5 of Table 6.8 for elements whose leaves have been found, then A and D. -/
def settleLeaves (die : Option Nat) (c : Ctx) (n : Need) (l : List (Nat × Nat × Found)) (s : State) : Access × State :=
  match firstPark s n l with
  | some (k, v, va) => (.park k v va, s)
  | none =>
    if l.any fun x => decide (x.2.2 = .wait) then (.wait, s)
    else
      match firstPerm s n l with
      | some va => (.perm va, s)
      | none =>
        let m := markAll die c n.wr l s
        if m.1 then (.ok (l.map (elOf m.2 c)), m.2) else (.wait, m.2)
def translate (die : Option Nat) (w : Who) (c : Ctx) (n : Need) (vas : List (Nat × Nat)) (s : State) : Access × State :=
  let r := leavesOf die w c vas s
  settleLeaves die c n r.1 r.2

/-- A speculative access (R351): its element, with the leaf, when the page is valid, permitted and already accessed. What a walk would report is
neither reported nor kept. -/
def speculate (die : Option Nat) (w : Who) (c : Ctx) (n : Need) (va len : Nat) (s : State) : Option (El × W64 × Nat) × State :=
  let r := lookup die w c va 0 s
  if r.2.ras ≠ s.ras then (none, s)
  else
    match r.1 with
    | .leaf e size _ =>
      if pteA e && permits r.2 e (leafPa e size va) n then (some (elOf r.2 c (va, len, r.1), e, size), r.2) else (none, r.2)
    | _ => (none, r.2)

end Sys2Proof.Machine
end

