-- ==== Sys2Proof/Machine/Peer.lean ====
section
/-! DEFINITION. The requester's side of the scale-up fabric (R394 to R402): admission at issue, flits in their ordering
lanes, and a peer's memory at the far end (assumption 17). -/
namespace Sys2Proof.Machine

/-- Aperture and offset of a peer-window address (R395). -/
def apertOf (pa : Nat) : Nat := pa / 2 ^ 40 % 2048
def apertOff (pa : Nat) : Nat := pa % 2 ^ 40
def apertEntry (s : State) (pa : Nat) : W64 := assocGet 0#64 s.fab.apert (apertOf pa)
def apNode (e : W64) : BitVec 20 := e.extractLsb' 0 20

/-- R396: whether an access into the peer window is admitted; `bulk` for a transfer chunk. -/
def peerAdmits (s : State) (bulk : Bool) (pa : Nat) : Bool :=
  let e := apertEntry s pa
  s.fab.nv && e.getLsbD 63 && decide (apNode e ≠ s.fab.nodeid) &&
  (bulk || (e.getLsbD 62 && decide ((apNode e).extractLsb' 14 6 = s.fab.nodeid.extractLsb' 14 6)))

/-- The lowest port that is up; every port reaches every node of the fabric (assumption 20). -/
def portUp (s : State) : Option Nat := (List.range 96).find? fun p => s.fab.up.getLsbD p

/-- A destination that no port has reached for 100 ms (R401). -/
def cutLong (s : State) (node : BitVec 20) : Bool :=
  s.fab.cut.any fun c => decide (c.1 = node) && decide (c.2 + 100000000 ≤ s.time)

/-- Noting since when a destination has had no path. -/
def noteCut (node : BitVec 20) (s : State) : State :=
  if s.fab.cut.any fun c => decide (c.1 = node) then s
  else { s with fab := { s.fab with cut := s.fab.cut ++ [(node, s.time)] } }

/-- A request issued towards a node: element `el` of an operation or chunk of a transfer, at target address `off`. -/
def sendFlit (id el : Nat) (node : BitVec 20) (off : Nat) (s : State) : State :=
  let fl (p : Nat) : Flit := { port := p, id := id, el := el, lane := (Config.lane (off / 256)).val, node := node, lost := false }
  match portUp s with
  | some p => { s with fab := { s.fab with flits := s.fab.flits ++ [fl p], last := p } }
  | none => noteCut node { s with fab := { s.fab with flits := s.fab.flits ++ [fl 96] } }

/-- The 256-byte lines of an access, each of which has its lane (R400). -/
def laneLines (a n : Nat) : List Nat := (List.range ((a + max n 1 - 1) / 256 - a / 256 + 1)).map fun k => a / 256 + k
/-- The requests of an access towards a node, one for each line. -/
def sendLines (id el : Nat) (node : BitVec 20) (off n : Nat) (s : State) : State :=
  (laneLines off n).foldl (fun s l => sendFlit id el node (256 * l) s) s
/-- A request of an element cannot be performed at its target: it has been discarded, no port carries it, or an earlier request of its lane is
outstanding (R399, R400). The accesses of one transfer chunk are performed together (`own`), so they do not wait for one another. -/
def flitStuck (own : Bool) (id el : Nat) : List Flit → List Flit → Bool
  | _, [] => false
  | seen, f :: t =>
    (decide (f.id = id ∧ f.el = el) && (f.lost || decide (96 ≤ f.port) ||
      seen.any fun g => decide (g.node = f.node ∧ g.lane = f.lane) && !(decide (g.id = id) && (own || decide (g.el = el))))) ||
    flitStuck own id el (seen ++ [f]) t
/-- The requests of an element can be performed at their target. -/
def flitReady (own : Bool) (s : State) (id el : Nat) : Bool :=
  (s.fab.flits.any fun f => decide (f.id = id ∧ f.el = el)) && !flitStuck own id el [] s.fab.flits
/-- Requests that their target has answered leave the replay buffer, and the ports of those that arrived have no failed replay behind them
(R399). -/
def ackFlits (p : Flit → Bool) (s : State) : State :=
  let ports := (s.fab.flits.filter fun f => p f && !f.lost).map (·.port)
  { s with fab := { s.fab with flits := s.fab.flits.filter (fun f => !p f), fails := s.fab.fails.filter fun x => !ports.contains x.1 } }
def dropFlit (id el : Nat) (s : State) : State := ackFlits (fun f => decide (f.id = id ∧ f.el = el)) s
def dropFlits (id : Nat) (s : State) : State := ackFlits (fun f => decide (f.id = id)) s

/-- The node and target address of an address of a peer's memory. -/
def peerNode (a : Nat) : BitVec 20 := BitVec.ofNat 20 ((a - 2 ^ 52) / 2 ^ 40)
def peerOff (a : Nat) : Nat := a % 2 ^ 40
/-- What a peer's element has for a key: its aperture's number, and above it the aperture's KEY. -/
def peerTag (ap key : Nat) : Nat := ap + 2048 * key
def tagApert (t : Nat) : Nat := t % 2048
def tagKey (t : Nat) : Nat := t / 2048
/-- A byte of a peer's memory under a key ID, plaintext to stored or back (R395, R413; assumption 17). -/
def peerCrypt (key a : Nat) (b : Byte) : Byte :=
  if key = 0 then b
  else b ^^^ BitVec.ofNat 8 ((keystream (Config.peerKey (peerNode a) key) (sectorOf (peerOff a)) 0).getD (a % 64) 0)
/-- Bytes of a peer's memory at the address the model keeps them at, under the aperture's key (R395); there the marks are kept by word
(R402, R410). -/
def peerRead (key a n : Nat) (s : State) : List (Byte × Bool) :=
  (List.range n).map fun i => (peerCrypt key (a + i) (memGet s.mem (a + i)), psnAt s ((a + i) / 4 * 4))
def peerWrite (key a : Nat) (bs : List Byte) (poison : Bool) (s : State) : State :=
  let s := { s with mem := memWrite s.mem a ((List.range bs.length).map fun i => peerCrypt key (a + i) (bs.getD i 0#8)) }
  if poison then
    (sectorsIn a bs.length).foldl (fun s sec => (List.range 16).foldl (fun s w => setPsn true (sec + 4 * w) s) s) s
  else
    (List.range (bs.length / 4 + 1)).foldl (fun s k =>
      let w := (a + 3) / 4 * 4 + 4 * k
      if w + 4 ≤ a + bs.length then setPsn false w s else s) s

/-- An admitted element in the peer window: its address becomes the target's, with the aperture's entry as it stands; a
destination without a path for 100 ms holds nothing (R401). -/
def peerEl (s : State) (x : El) : El :=
  if x.kind = .peer then
    let e := apertEntry s x.pa
    if (portUp s).isNone && cutLong s (apNode e) then { x with kind := .hole }
    else { x with pa := peerAddr (apNode e) (apertOff x.pa), key := peerTag (apertOf x.pa) (e.extractLsb' 48 8).toNat }
  else x

end Sys2Proof.Machine
end

