-- ==== Sys2Proof/Machine/Rmw.lean ====
section
/-! DEFINITION. What an atomic computes at its place (R256 to R261): AMO, CAS and RED functions, exact accumulate cells,
and the format slots that they accept. -/
namespace Sys2Proof.Machine

def sizeBytes : Size → Nat
  | .b => 1
  | .h => 2
  | .w => 4
  | .d => 8
  | .v => 32

def amoFloat : AmoFn → Bool
  | .fadd | .fmin | .fmax => true
  | _ => false

/-- R256's requirement on the slot of FN 9 to 11. -/
def amoSlotOk (n : Nat) (e : W64) : Bool :=
  fmtValid e && decide (1 ≤ fEW e ∧ fSPV e ≤ 2 ∧ fW e = 8 * n)
/-- R260: FP32, BF16 or FP64. -/
def xredSlotOk (e : W64) : Bool :=
  fmtValid e && decide (fS e = 1 ∧ fSPV e = 0) &&
  (decide (fEW e = 8 ∧ fFW e = 23 ∧ fBIAS e = 127) || decide (fEW e = 8 ∧ fFW e = 7 ∧ fBIAS e = 127) ||
   decide (fEW e = 11 ∧ fFW e = 52 ∧ fBIAS e = 1023))
/-- R261. -/
def xrdSlotOk (e : W64) : Bool := fmtValid e && decide (1 ≤ fEW e)

/-- The new value and the flags of an AMO or RED of `n` bytes (Table 11.5): old value, operand, captured entry. -/
def amoNew (fn : AmoFn) (n : Nat) (e : W64) (v b : Nat) : Nat × Flags :=
  let w := 8 * n
  let b := b % 2 ^ w
  match fn with
  | .add => ((v + b) % 2 ^ w, 0#5)
  | .and => (v &&& b, 0#5)
  | .or => (v ||| b, 0#5)
  | .xor => (v ^^^ b, 0#5)
  | .min => (if sgn w v ≤ sgn w b then v else b, 0#5)
  | .max => (if sgn w v ≥ sgn w b then v else b, 0#5)
  | .minu => (min v b, 0#5)
  | .maxu => (max v b, 0#5)
  | .swap => (b, 0#5)
  | .fadd =>
    let x := prepVal e false v
    let y := prepVal e false b
    let r := opAdd (decide (rmOfEntry e = .rdn)) x.1 y.1
    let c := encodeVal e (rmOfEntry e) false r.1
    (c.1, c.2 ||| r.2 ||| x.2 ||| y.2)
  | .fmin =>
    let x := prepVal e false v
    let y := prepVal e false b
    let c := encodeVal e (rmOfEntry e) false (opMinMax false true x.1 y.1)
    (c.1, c.2 ||| x.2 ||| y.2)
  | .fmax =>
    let x := prepVal e false v
    let y := prepVal e false b
    let c := encodeVal e (rmOfEntry e) false (opMinMax true true x.1 y.1)
    (c.1, c.2 ||| x.2 ||| y.2)

/-! ### Exact accumulate cells (Table 11.6) -/

/-- A cell as the number of its 64 bytes: SUM[447:0], SUM[479:448], LSBOFF, BIG, INX, NINF, PINF, NAN. -/
def cellSum (x : Nat) : Nat := x % 2 ^ 480
def cellBit (x k : Nat) : Bool := x.testBit (448 + k)
/-- L = −149 + LSBOFF. -/
def cellL (x : Nat) : Int := sgn 16 (x / 2 ^ 480 % 2 ^ 16) - 149
def cellSetSum (x sum : Nat) : Nat := x - x % 2 ^ 480 + sum % 2 ^ 480
def cellSetBit (x k : Nat) : Nat := if cellBit x k then x else x + 2 ^ (448 + k)

/-- m · 2^(e − l) towards −inf, and whether it is exact. -/
def floorDyadic (s : Bool) (m : Nat) (d : Int) : Int × Bool :=
  if 0 ≤ d then ((if s then -1 else 1) * (m * pow2 d : Nat), true)
  else
    let k := pow2 (-d)
    let q : Int := ((if s then -(m : Int) else (m : Int))) / (k : Int)
    (q, decide (m % k = 0))

/-- XRED at its place (R260): the cell after, and NV. -/
def xredNew (e : W64) (x b : Nat) : Nat × Flags :=
  let v := decodeVal e b
  let fl := sigFlag v
  let l := cellL x
  match v with
  | .nan _ _ => (cellSetBit x 55, fl)
  | .inf s => (cellSetBit x (if s then 53 else 54), fl)
  | .zero _ => (x, fl)
  | .fin s m f =>
    if topOf m f ≥ l + 447 then (cellSetBit x 51, fl)
    else
      let k := floorDyadic s m (f - l)
      let y := if k.2 then x else cellSetBit x 52
      (cellSetSum y (unsgn 480 ((cellSum x : Int) + k.1)), fl)

/-- XRD (R261): the code and the flags. -/
def xrdVal (e : W64) (x : Nat) : Nat × Flags :=
  let nan := cellBit x 55 || cellBit x 51 || (cellBit x 54 && cellBit x 53)
  let v : Val :=
    if nan then .nan false false
    else if cellBit x 54 then .inf false
    else if cellBit x 53 then .inf true
    else valOfInt (sgn 480 (cellSum x)) (cellL x)
  let c := encodeVal e (rmOfEntry e) false v
  (c.1, c.2 ||| (if nan then flNV else 0#5) ||| (if cellBit x 52 then flNX else 0#5))

/-- What an atomic does at its place, from the old bytes as a number: its result, the new bytes as a number if it writes,
and the flags. `b` and `c` are its operands, `e` its captured entry. -/
def rmwAt (i : Instr) (e b c : W64) (v : Nat) : W64 × Option Nat × Flags :=
  match i with
  | .amo fn r => let y := amoNew fn (sizeBytes r.size) e v b.toNat
                 (BitVec.ofNat 64 v, some y.1, y.2)
  | .red fn r => let y := amoNew fn (sizeBytes r.size) e v b.toNat
                 (BitVec.ofNat 64 v, some y.1, y.2)
  | .cas r => (BitVec.ofNat 64 v, if v = b.toNat % 2 ^ (8 * sizeBytes r.size) then some (c.toNat % 2 ^ (8 * sizeBytes r.size)) else none, 0#5)
  | .xred _ => let y := xredNew e v b.toNat
               (0#64, some y.1, y.2)
  | .xrd _ => let y := xrdVal e v
              (BitVec.ofNat 64 y.1, none, y.2)
  | _ => (0#64, none, 0#5)

end Sys2Proof.Machine
end

