-- ==== Sys2Proof/Machine/TileShape.lean ====
section
/-! DEFINITION. The tile directory, the tile store and the accumulators of a cluster (R265 to R275): entries, rings, elements,
lines in memory, and state changes. -/
namespace Sys2Proof.Machine

/-! ### Entries (Table 12.1) -/

def teSTATE (e : W64) : Nat := (e.extractLsb' 62 2).toNat
def teRING (e : W64) : Nat := (e.extractLsb' 59 3).toNat
def teLAYOUT (e : W64) : Bool := e.getLsbD 58
/-- Container width in bits. -/
def teC (e : W64) : Nat := 4 * 2 ^ (e.extractLsb' 56 2).toNat
def teFMT (e : W64) : Nat := (e.extractLsb' 51 5).toNat
def teRows (e : W64) : Nat := (e.extractLsb' 42 9).toNat + 1
def teCols (e : W64) : Nat := (e.extractLsb' 33 9).toNat + 1
def teBASE (e : W64) : Nat := (e.extractLsb' 21 12).toNat
def tePitch (e : W64) : Nat := 32 * (e.extractLsb' 1 20).toNat
def teSpan (e : W64) : Nat := (teRows e * teCols e * teC e + 2047) / 2048
/-- Ring length n. -/
def teN (e : W64) : Nat := 2 ^ teRING e

def tsEMPTY : Nat := 0
def tsFULL : Nat := 1
def tsBUSY : Nat := 2

/-- R267's conditions on the fields of an entry that is not the empty form. -/
def teFields (e : W64) : Bool :=
  decide (teSTATE e ≤ 1) && decide (teRING e ≤ 4) && !e.getLsbD 0 && decide (teCols e * teC e % 8 = 0) &&
  (!teLAYOUT e || decide (teRows e * teC e % 8 = 0))
/-- The whole ring whose member 0 is the entry fits in the store. -/
def teFits (e : W64) : Bool := decide (teBASE e + teN e * teSpan e ≤ 4096)
/-- R267, for an entry by itself or the first of its ring. -/
def teWellFormed (e : W64) : Bool := decide (e = 0#64) || (teFields e && teFits e)

/-- Member i of a ring whose member 0 is e. -/
def ringMember (e : W64) (i : Nat) : W64 := e + (BitVec.ofNat 64 (i * teSpan e) <<< 21)

/-- R267 for the ring that an entry of a directory belongs to: its block, with the fields that all share. -/
def ringOk (dir : Nat → W64) (h : Nat) : Bool :=
  let e := dir h
  let n := teN e
  if e = 0#64 ∨ n = 1 then true
  else
    let h0 := h - h % n
    let z := dir h0
    decide (h0 + n ≤ 256) && (List.range n).all fun i =>
      let x := dir (h0 + i)
      decide (teRING x = teRING z ∧ teLAYOUT x = teLAYOUT z ∧ teC x = teC z ∧ teFMT x = teFMT z ∧ teRows x = teRows z ∧
        teCols x = teCols z ∧ tePitch x = tePitch z ∧ teBASE x = teBASE z + i * teSpan z)

/-! ### A cluster's directory -/

def tdir (s : State) (cl h : Nat) : W64 := assocGet 0#64 s.tiles.dir (256 * cl + h)
def setTdir (cl h : Nat) (e : W64) (s : State) : State :=
  let k := 256 * cl + h
  { s with tiles := { s.tiles with dir := if e = 0#64 then assocDel s.tiles.dir k else assocSet s.tiles.dir k e } }
def setTState (cl h st : Nat) (s : State) : State :=
  let e := tdir s cl h
  setTdir cl h ((e &&& 0x3FFFFFFFFFFFFFFF#64) ||| (BitVec.ofNat 64 st <<< 62)) s
def tReaders (s : State) (cl h : Nat) : Nat := assocGet 0 s.tiles.readers (256 * cl + h)
def addReader (cl h : Nat) (d : Int) (s : State) : State :=
  let k := 256 * cl + h
  let n := ((tReaders s cl h : Int) + d).toNat
  { s with tiles := { s.tiles with readers := if n = 0 then assocDel s.tiles.readers k else assocSet s.tiles.readers k n } }

/-- R269: the handle that a ring selects. -/
def selHandle (s : State) (cl h : Nat) (w : BitVec 24) : Nat :=
  let n := teN (tdir s cl h)
  h - h % n + w.toNat % n

/-! ### Uncorrectable errors (R411): 8-byte units found bad, until they are written again -/

def unitsMeet (a n u : Nat) : Bool := decide (a < u + 8 ∧ u < a + n)
def dropUnits (l : List Nat) (a n : Nat) : List Nat := l.filter fun u => !unitsMeet a n u
/-- Some byte of an entry's tile, or of a part of it, lies in a bad unit. -/
def tileBad (s : State) (cl : Nat) (e : W64) : Bool :=
  s.tiles.badT.any (unitsMeet (2 ^ 20 * cl + teBASE e * 256) (teRows e * teCols e * teC e / 8))
def elemBad (s : State) (cl : Nat) (e : W64) (i j : Nat) : Bool :=
  s.tiles.badT.any (unitsMeet (2 ^ 20 * cl + teBASE e * 256 + (i * teCols e + j) * teC e / 8) (max 1 (teC e / 8)))
/-- Some element of the first rows and columns of an accumulator lies in a bad unit. -/
def accBad (s : State) (cl h rows cols : Nat) : Bool :=
  s.tiles.badA.any fun u =>
    let k := u / 4
    let z := 2 ^ 18 * cl + 2 ^ 14 * h
    decide (z ≤ k ∧ k < z + 2 ^ 14 ∧ (k - z) / 128 < rows ∧ (k - z) % 128 < cols)

/-! ### Accumulators (Table 12.3) -/

def accBlank : AccD := { st := 0#2, rows := 0#7, cols := 0#7, cur := Tag.zero, readers := 0 }
def accGet (s : State) (cl h : Nat) : AccD := assocGet accBlank s.tiles.acc (16 * cl + h)
def accPut (cl h : Nat) (a : AccD) (s : State) : State :=
  { s with tiles := { s.tiles with acc := assocSet s.tiles.acc (16 * cl + h) a } }
def accWord (a : AccD) : W64 := a.st ++ 0#6 ++ a.rows ++ a.cols ++ 0#2 ++ a.cur.thr ++ a.cur.wave
def accKey (cl h i j : Nat) : Nat := 2 ^ 18 * cl + 2 ^ 14 * h + 128 * i + j
def accElem (s : State) (cl h i j : Nat) : W32 := assocGet 0#32 s.tiles.words (accKey cl h i j)
def setAccElem (cl h i j : Nat) (v : W32) (s : State) : State :=
  let k := accKey cl h i j
  { s with tiles := { s.tiles with
      words := if v = 0#32 then assocDel s.tiles.words k else assocSet s.tiles.words k v, badA := dropUnits s.tiles.badA (4 * k) 4 } }

/-! ### Elements and lines -/

def tileByte (s : State) (cl off : Nat) : Byte := memGet s.tiles.bytes (2 ^ 20 * cl + off)
def setTileBytes (cl off : Nat) (bs : List Byte) (s : State) : State :=
  let a := 2 ^ 20 * cl + off
  { s with tiles := { s.tiles with bytes := memWrite s.tiles.bytes a bs, badT := dropUnits s.tiles.badT a bs.length } }

/-- The bits of element (i, j) (R268). -/
def tileElem (s : State) (cl : Nat) (e : W64) (i j : Nat) : Nat :=
  let k := i * teCols e + j
  if teC e = 4 then (tileByte s cl (teBASE e * 256 + k / 2)).toNat / 16 ^ (k % 2) % 16
  else
    let n := teC e / 8
    natOfBytes ((List.range n).map fun t => tileByte s cl (teBASE e * 256 + k * n + t))
def setTileElem (cl : Nat) (e : W64) (i j : Nat) (v : Nat) (s : State) : State :=
  let k := i * teCols e + j
  if teC e = 4 then
    let off := teBASE e * 256 + k / 2
    let b := (tileByte s cl off).toNat
    let nb := if k % 2 = 0 then b / 16 * 16 + v % 16 else b % 16 + 16 * (v % 16)
    setTileBytes cl off [BitVec.ofNat 8 nb] s
  else setTileBytes cl (teBASE e * 256 + k * (teC e / 8)) (bytesOfNat v (teC e / 8)) s

/-- Lines of a tile in memory: rows, or columns under LAYOUT = 1 (R276). -/
def lineCount (e : W64) : Nat := if teLAYOUT e then teCols e else teRows e
def lineElems (e : W64) : Nat := if teLAYOUT e then teRows e else teCols e
def lineLen (e : W64) : Nat := lineElems e * teC e / 8
/-- Element t of line k. -/
def lineElem (s : State) (cl : Nat) (e : W64) (k t : Nat) : Nat :=
  if teLAYOUT e then tileElem s cl e t k else tileElem s cl e k t
def setLineElem (cl : Nat) (e : W64) (k t v : Nat) (s : State) : State :=
  if teLAYOUT e then setTileElem cl e t k v s else setTileElem cl e k t v s
/-- Byte b of line k: for 4-bit containers element 2b is the low nibble (assumption 22). -/
def lineByte (s : State) (cl : Nat) (e : W64) (k b : Nat) : Byte :=
  if teC e = 4 then BitVec.ofNat 8 (lineElem s cl e k (2 * b) + 16 * lineElem s cl e k (2 * b + 1))
  else
    let n := teC e / 8
    BitVec.ofNat 8 (lineElem s cl e k (b / n) / 256 ^ (b % n) % 256)
def lineBytes (s : State) (cl : Nat) (e : W64) (k : Nat) : List Byte := (List.range (lineLen e)).map (lineByte s cl e k)
/-- Some element of line k lies in a bad unit (R411). -/
def lineBad (s : State) (cl : Nat) (e : W64) (k : Nat) : Bool :=
  (List.range (lineElems e)).any fun t => if teLAYOUT e then elemBad s cl e t k else elemBad s cl e k t
/-- Some element of bytes [lo, hi) of line k lies in a bad unit. -/
def partBad (s : State) (cl : Nat) (e : W64) (k lo hi : Nat) : Bool :=
  (List.range (lineElems e)).any fun t => decide (8 * lo < (t + 1) * teC e ∧ t * teC e < 8 * hi) &&
    (if teLAYOUT e then elemBad s cl e t k else elemBad s cl e k t)
/-- Element t of a line given as bytes. -/
def elemOfBytes (c : Nat) (bs : List Byte) (t : Nat) : Nat :=
  if c = 4 then (bs.getD (t / 2) 0#8).toNat / 16 ^ (t % 2) % 16
  else natOfBytes ((bs.drop (t * (c / 8))).take (c / 8))

/-- Addresses of a run of bytes in pieces of at most 32, from a 32-byte-aligned start. -/
def pieces (a n : Nat) : List (Nat × Nat) :=
  (List.range ((n + 31) / 32)).map fun k => ((a + 32 * k) % 2 ^ 64, min 32 (n - 32 * k))
/-- All pieces of a tile at an address, line by line (R276). -/
def tilePieces (e : W64) (a : Nat) : List (Nat × Nat) :=
  (List.range (lineCount e)).flatMap fun k => pieces (a + k * tePitch e) (lineLen e)
/-- Rows and columns minus one of a descriptor word (Table 12.3). -/
def awRows (w : W64) : Nat := (w.extractLsb' 49 7).toNat + 1
def awCols (w : W64) : Nat := (w.extractLsb' 42 7).toNat + 1

/-- Some of elements [lo, hi) of an accumulator's shape, row by row, lies in a bad unit. -/
def accPartBad (s : State) (cl h cols lo hi : Nat) : Bool :=
  s.tiles.badA.any fun u => (List.range (hi - lo)).any fun k => unitsMeet (4 * accKey cl h ((lo + k) / cols) ((lo + k) % cols)) 4 u
/-- Bytes of an accumulator's shape, row by row (R276). -/
def accBytes (s : State) (cl h : Nat) (rows cols : Nat) : List Byte :=
  (List.range (rows * cols)).flatMap fun k => bytesOfNat (accElem s cl h (k / cols) (k % cols)).toNat 4

end Sys2Proof.Machine
end

