-- ==== Sys2Proof/Machine/Memory.lean ====
section
/-! DEFINITION. Memory records in progress: their elements and checks (Table 6.8), parking, what each does at its L1, home or
target, when it is complete, and its result (R150 to R159, R234, R238 to R258). -/
namespace Sys2Proof.Machine

/-! ### Kinds of memory records -/

def memRecOf : Instr → Option MemRec
  | .ld r | .st r | .ldx r | .stx r | .mnop r | .pf r | .amo _ r | .cas r | .red _ r | .xred r | .xrd r | .fenceAcq r
  | .fenceRel r | .fenceAr r | .fenceSc r | .own r | .invRegion r | .invAll r | .wbk r | .ftset r => some r
  | _ => none
def scopeOf (i : Instr) : Scope := ((memRecOf i).map (·.scope)).getD .cl
def sizeOf (i : Instr) : Nat := ((memRecOf i).map fun r => sizeBytes r.size).getD 8
/-- DIE scope or wider. -/
def wide (i : Instr) : Bool := decide (scopeOf i ≠ .cl)
def isFence : Instr → Bool
  | .fenceAcq _ | .fenceRel _ | .fenceAr _ | .fenceSc _ => true
  | _ => false
/-- R241, R242. -/
def isAcquire : Instr → Bool
  | .fenceAcq _ | .fenceAr _ | .fenceSc _ => true
  | i => decide (ordOf i = .acq)
def isRelease : Instr → Bool
  | .fenceRel _ | .fenceAr _ | .fenceSc _ => true
  | i => decide (ordOf i = .rel)
def isRmw : Instr → Bool
  | .amo _ _ | .cas _ | .red _ _ | .xred _ | .xrd _ => true
  | _ => false
def isLoad : Instr → Bool
  | .ld _ | .ldx _ => true
  | _ => false
def isOwn : Instr → Bool
  | .own _ => true
  | _ => false
/-- TLD, TST and their accumulator forms: accesses of a tile (R276). -/
def isTileMem : Instr → Bool
  | .tld _ _ | .tldAcc _ _ | .tst _ _ | .tstAcc _ _ => true
  | _ => false
def isStream : Instr → Bool
  | .sstrm _ _ => true
  | _ => false
def isPf : Instr → Bool
  | .pf _ => true
  | _ => false
/-- Table 16.3. -/
def needOf : Instr → Need
  | .st _ | .stx _ | .own _ | .tst _ _ | .tstAcc _ _ => ⟨false, true, false⟩
  | .amo _ _ | .cas _ | .red _ _ | .xred _ => ⟨true, true, false⟩
  | _ => ⟨true, false, false⟩
/-- ACC of Table 16.6. -/
def accCode (n : Need) : BitVec 4 := if n.rd && n.wr then 2#4 else if n.wr then 1#4 else 0#4

/-! ### Elements and their checks -/

/-- Addresses of LDX and STX (R156). -/
def laneAddrs (n a : Nat) (b : W256) : List Nat :=
  (List.range (32 / n)).map fun i => (((a : Int) + sgn (8 * n) (laneOf (8 * n) b i) * n) % 2 ^ 64).toNat
/-- The handle and the entry or descriptor that a tile access uses. -/
def tileOf (o : Op) : Nat × W64 := o.act.getD (0, 0#64)

/-- SSTRM's access: the descriptor, a coordinate, or a value (R289), by the step it has reached. `val` holds the descriptor,
`n` the element. -/
def streamStep (o : Op) : Nat := (tileOf o).1
def streamC (o : Op) : Nat := containerOf ((o.cap.head?.map (·.2)).getD 0#64)
def streamAccess (o : Op) : List (Nat × Nat) :=
  let e := ((o.val.extractLsb' 128 64).toNat + o.n) % 2 ^ 64
  if streamStep o = 0 then [((o.a.payload.setWidth 64).toNat, 32)]
  else if streamStep o = 1 then [(((o.val.extractLsb' 64 64).toNat + 4 * e) % 2 ^ 64, 4)]
  else [(((o.val.extractLsb' 0 64).toNat + e * streamC o / 8) % 2 ^ 64, max 1 (streamC o / 8))]

/-- The index of the element at which a stream stands (Tables 16.6, 17.7); before the descriptor has been read, 0 or the one restored. -/
def streamElem (o : Op) : W64 := BitVec.ofNat 64 (if streamStep o = 0 then o.n else (o.val.extractLsb' 128 64).toNat + o.n)

/-- Address and length of every element (R151, R156, R234, R255, R276, R289). -/
def accessOf (o : Op) : List (Nat × Nat) :=
  let a := (o.a.payload.setWidth 64).toNat
  let n := sizeOf o.ins
  match o.ins with
  | .tld _ _ | .tst _ _ => tilePieces (tileOf o).2 a
  | .tldAcc _ _ | .tstAcc _ _ => pieces a (4 * awRows (tileOf o).2 * awCols (tileOf o).2)
  | .sstrm _ _ => streamAccess o
  | .ldx _ | .stx _ => (laneAddrs n a o.b.payload).map fun x => (x, n)
  | .xred _ | .xrd _ => [(a, 64)]
  | _ => [(a, n)]
def alignOf : Instr → Nat
  | .xred _ | .xrd _ => 64
  | i => sizeOf i
/-- The address that row 3 concerns and its alignment. -/
def alignCheck (o : Op) : Nat × Nat :=
  let a := (o.a.payload.setWidth 64).toNat
  if isTileMem o.ins then (a, 32)
  else if isStream o.ins then (((streamAccess o).head?).getD (0, 1))
  else (a, alignOf o.ins)
/-- Rows 2 and 3 of Table 6.8; operand a of a tile access by itself first (R276). -/
def checkAddr (o : Op) : Option W64 :=
  let a := (o.a.payload.setWidth 64).toNat
  match (if isTileMem o.ins then [(a, 1)] else accessOf o).find? fun x => decide (2 ^ 56 ≤ x.1) with
  | some x => some (errPerm x.1)
  | none =>
    if (alignCheck o).1 % (alignCheck o).2 ≠ 0 then some (errAlign (alignCheck o).1)
    else ((accessOf o).find? fun x => decide (2 ^ 56 ≤ x.1)).map fun x => errPerm x.1

/-- Accesses refused at issue: R396 for the peer window, R392 for atomics on host memory that is not cached. -/
def refusedEl (s : State) (i : Instr) (x : El) : Bool :=
  match x.kind with
  | .peer => !peerAdmits s false x.pa
  | .hostu =>
    !hostCached s && isRmw i &&
    (match i with
     | .amo .add _ | .amo .swap _ | .cas _ | .xrd _ => false
     | _ => true)
  | _ => false

/-! ### Words of an element -/

def elWords (x : El) : List Nat := wordsIn (x.pa % 64) x.len
def elMask (x : El) (w : Nat) : BitVec 4 := (wordPart (x.pa % 64) (List.replicate x.len 0#8) w).2
def elsMeet (x y : El) : Bool :=
  decide (sectorOf x.pa = sectorOf y.pa) && (elWords x).any fun w => (elWords y).contains w
/-- Performed at a home, the host's memory included (Table 11.4, R231). -/
def atHome (i : Instr) (x : El) : Bool :=
  match x.kind with
  | .u | .hostu => true
  | .s | .d => isRmw i && wide i
  | _ => false
/-- The home of an address, as deps name it: of device memory, of the host's where it is not cached, and of a peer's, whose nodes are not told
apart (assumption 12). -/
def homePlace (k : Kind) (pa : Nat) : Option Nat :=
  match k with
  | .s | .d | .u | .hostu => some (2048 + homeOf pa)
  | .peer => some (2560 + homeOf (pa % 2 ^ 40))
  | _ => none
/-- Every home: what a footprint too large to be looked through uses. -/
def everyHome : Nat := 2047
/-- A place is among those used. -/
def usesPlace (at_ : List Nat) (p : Nat) : Bool :=
  at_.contains p || (decide (2048 ≤ p ∧ p < 4095) && at_.contains everyHome) || (decide (p = everyHome) && at_.any fun q => decide (2047 ≤ q))
/-- The L1 and the homes that an operation uses (R240). -/
def placesOf (o : Op) : List Nat := o.cl :: o.els.filterMap fun x => homePlace x.kind x.pa
/-- The same for an operation whose addresses have not been translated yet. -/
def placesAhead (s : State) (o : Op) : List Nat :=
  match o.els, ctxOfInst s o.inst with
  | [], some c => placesOf { o with els := if (memRecOf o.ins).isSome && !isFence o.ins then peekEls s c (accessOf o) else [] }
  | _, _ => placesOf o
def isWbk : Instr → Bool
  | .wbk _ => true
  | _ => false

def gotWord (o : Op) (pa : Nat) : Option (W32 × Bool) := (o.got.find? fun g => decide (g.1 = pa)).map (·.2)
/-- A revoke on its way to an L1 about a sector. -/
def revokeOut (s : State) (cl sec : Nat) : Bool :=
  s.co.msgs.any fun m => decide (m.dst = .l1 cl ∧ m.pa = sec) && (match m.body with
    | .revoke ws => !ws.isEmpty
    | _ => false)
/-- A read of a word on its way for an operation. -/
def readOut (s : State) (id sec w : Nat) : Bool :=
  s.co.msgs.any fun m => decide (m.pa = sec) &&
    (match m.body with
     | .read op _ ws => decide (op = id) && ws.contains w
     | .fwd op _ ws _ => decide (op = id) && ws.contains w
     | .fill op ws => decide (op = id) && ws.any fun x => decide (x.1 = w)
     | _ => false)
def readsOut (s : State) (id sec : Nat) : Bool := (List.range 16).any fun w => readOut s id sec w
def writtenHere (s : State) (cl pa : Nat) : Bool := ((l1wFind s cl pa).map fun x => decide (x.st ≠ .v)).getD false
/-- A load's element has asked for each of its words, or has it, so that a later store of the L1 need not wait: the load will not see it (R214, R29). -/
def asked (s : State) (p : Op) (y : El) : Bool :=
  let sec := sectorOf y.pa
  (elWords y).all fun w =>
    readOut s p.id sec w || (gotWord p (sec + 4 * w)).isSome || (p.snap.any fun q => decide (q.1 = sec + 4 * w)) ||
    (writtenHere s p.cl (sec + 4 * w) && !revokeOut s p.cl sec)
/-- A write of an S-page word that is made in the L1 itself. -/
def writesHere (i : Instr) (x : El) : Bool := decide (x.kind = .s) && (needOf i).wr && !(isRmw i && wide i)
/-- An element waits behind an earlier one of its own record, or of an earlier access of its L1, that it must follow: common words of which one
writes, or one home (R29, R209). A store to an S page waits for no load that has asked for its words (R214), and no access for a WBK's
write-backs (R236). -/
def blocked (s : State) (o : Op) (i : Nat) (x : El) : Bool :=
  (o.left.any fun j => decide (j < i) && (o.els[j]?.any fun y => elsMeet x y)) ||
  s.ops.any fun p =>
    decide (p.cl = o.cl ∧ p.ph = .miss ∧ p.seqNo < o.seqNo) && !isPf p.ins && !isWbk p.ins &&
    p.left.any fun j => p.els[j]?.any fun y =>
      (elsMeet x y && ((needOf p.ins).wr || ((needOf o.ins).wr && !(writesHere o.ins x && asked s p y)))) ||
      (atHome p.ins y && atHome o.ins x && decide (homeOf x.pa = homeOf y.pa))

/-- An element is carried out; words obtained are kept, the first of each address. -/
def doneEl (id i : Nat) (ws : List (Nat × W32 × Bool)) (s : State) : State :=
  modOp id (fun o => { o with
    left := o.left.filter (fun j => decide (j ≠ i)),
    got := o.got ++ ws.filter fun w => !(o.got.any fun g => decide (g.1 = w.1)) }) s
/-- The operation ends in an error with nothing more to carry out. -/
def failOp (id : Nat) (code : W64) (s : State) : State := modOp id (fun o => { o with err := some code, left := [] }) s

/-! ### Loads -/

/-- What an L1 gives for a word: V copies only when allowed, P words only when they hold the bytes asked for. -/
def l1Give (s : State) (cl : Nat) (useV : Bool) (mask : BitVec 4) (pa : Nat) : Option (W32 × Bool) :=
  match l1wFind s cl pa with
  | some x => if (x.st = .v ∧ !useV) ∨ mask &&& ~~~x.have_ ≠ 0#4 then none else some (x.data, x.psn)
  | none => none
def allSome {α : Type} : List (Option α) → Option (List α)
  | [] => some []
  | none :: _ => none
  | some x :: t => (allSome t).map (x :: ·)

/-- An earlier load of the chain that has a word in common has not obtained it (R245). -/
def loadAhead (s : State) (o : Op) (x : El) : Bool :=
  s.ops.any fun p =>
    decide (p.cl = o.cl ∧ p.inst = o.inst ∧ p.chain = o.chain ∧ p.ph = .miss ∧ p.seqNo < o.seqNo) && isOrdered p.ins && isOrdered o.ins &&
    !isPf p.ins && !isWbk p.ins && p.left.any fun j => p.els[j]?.any fun y => elsMeet x y
/-- The words of an S-page element: as the operation has read them, or kept them, else from the L1. Nothing is given from part of a fill (R214). The
bytes of an 8-byte unit are read at one instant (R155): beside a word read, no V copy counts, and none is given while the L1 is being revoked. -/
def gather (s : State) (o : Op) (x : El) : Option (List (Nat × W32 × Bool)) :=
  let sec := sectorOf x.pa
  let read (w : Nat) : Bool := (gotWord o (sec + 4 * w)).isSome
  let had := decide (8 ≤ x.len) && (elWords x).any fun w => read w || o.snap.any fun p => decide (p.1 = sec + 4 * w)
  let useV := !(isAcquire o.ins && wide o.ins) && !had
  let give (w : Nat) : Option (W32 × Bool) :=
    match o.snap.find? fun p => decide (p.1 = sec + 4 * w) with
    | some p => if elMask x w &&& ~~~p.2.mask ≠ 0#4 then none else some (p.2.data, p.2.psn)
    | none => (gotWord o (sec + 4 * w)).orElse fun _ => l1Give s o.cl useV (elMask x w) (sec + 4 * w)
  if readsOut s o.id sec || loadAhead s o x || (had && !(elWords x).all read && revokeOut s o.cl sec) then none
  else allSome ((elWords x).map fun w => (give w).map fun v => (sec + 4 * w, v))

/-- A sector fill: a read of each of its words that the cluster has not written (R214), for this operation alone (R246), once the earlier loads of its
chain have their values (R245). A word obtained whose 8-byte unit's other word must be read is read again with it (R155). -/
def askWords (o : Op) (x : El) (s : State) : State :=
  let sec := sectorOf x.pa
  let can (w : Nat) : Bool :=
    !writtenHere s o.cl (sec + 4 * w) && !(isPf o.ins && (l1wFind s o.cl (sec + 4 * w)).isSome) && !readOut s o.id sec w && !(o.snap.any fun p => decide (p.1 = sec + 4 * w))
  let want (w : Nat) : Bool := can w && (gotWord o (sec + 4 * w)).isNone
  let again (w : Nat) : Bool := decide (8 ≤ x.len) && can w && (gotWord o (sec + 4 * w)).isSome && (elWords x).contains w && want (mateOf w)
  if (elWords x).any want && !loadAhead s o x then
    let ws := (List.range 16).filter fun w => want w || again w
    sendMsg (.l1 o.cl) (agentAt (placeOf o.cl sec)) sec x.key (.read o.id o.cl ws)
      (modOp o.id (fun p => { p with got := p.got.filter fun g => !(ws.any fun w => decide (g.1 = sec + 4 * w)) }) s)
  else s

/-- Bytes of an element as its words. -/
def wordsOfBytes (x : El) (f : Nat → Nat → List (Byte × Bool)) : List (Nat × W32 × Bool) :=
  (elWords x).map fun w =>
    let l := f (sectorOf x.pa + 4 * w) 4
    (sectorOf x.pa + 4 * w, wordOfBytes (l.map (·.1)), l.any (·.2))
/-- Words of a sector's data. -/
def wordsOfSec (x : El) (d : List W32) (psn : BitVec 16) : List (Nat × W32 × Bool) :=
  (elWords x).map fun w => (sectorOf x.pa + 4 * w, d.getD w 0#32, psn.getLsbD w)
def wordsAll (x : El) (v : W32) (p : Bool) : List (Nat × W32 × Bool) := (elWords x).map fun w => (sectorOf x.pa + 4 * w, v, p)

/-- A load's element, or the read with which OWN begins: the words when they can be had now, and what asking for them does. -/
def fetchEl (o : Op) (i : Nat) (x : El) (s : State) : Option (List (Nat × W32 × Bool)) × State :=
  match x.kind with
  | .s =>
    match gather s o x with
    | some l => (some l, s)
    | none => (none, askWords o x s)
  | .d | .hostc =>
    match l1dFind s o.cl (sectorOf x.pa) with
    | some d => (some (wordsOfSec x d.data d.psn), s)
    | none => (none, l1Ask o.cl .shared (sectorOf x.pa) x.key s)
  | .u | .hostu =>
    let p := prepareRange false x.key x.pa x.len s
    if p.1 then (some (wordsOfBytes x fun a n => placeRead x.key a n p.2), p.2) else (none, p.2)
  | .peer =>
    if flitReady false s o.id i then (some (wordsOfBytes x fun a n => peerRead (tagKey x.key) a n s), dropFlit o.id i s) else (none, s)
  | .mmio => (some (wordsAll x 0#32 false), s)
  | .hole => (some (wordsAll x 0#32 true), reportHole o.cl x.pa s)

/-! ### Stores -/

/-- Piece i of lines of equal length. -/
def pieceAt (len i : Nat) (line : Nat → List Byte) : List Byte :=
  let per := (len + 31) / 32
  ((line (i / per)).drop (32 * (i % per))).take 32

/-- The bytes that an element stores. -/
def storeBytes (s : State) (o : Op) (i : Nat) : List Byte :=
  let n := sizeOf o.ins
  let e := (tileOf o).2
  match o.ins with
  | .tst _ _ => pieceAt (lineLen e) i (lineBytes s o.cl e)
  | .tstAcc _ _ => pieceAt (4 * awRows e * awCols e) i fun _ => accBytes s o.cl (tileOf o).1 (awRows e) (awCols e)
  | .stx _ => bytesOfNat (laneOf (8 * n) o.c.payload i) n
  | _ => bytesOfNat (o.b.payload.toNat % 2 ^ (8 * n)) n

/-- An element that TST or TST.ACC stores lies in a bad unit of its store by now (R411). -/
def pieceBad (s : State) (o : Op) (i : Nat) : Bool :=
  let e := (tileOf o).2
  match o.ins with
  | .tst _ _ =>
    let per := (lineLen e + 31) / 32
    !s.tiles.badT.isEmpty && partBad s o.cl e (i / per) (32 * (i % per)) (min (lineLen e) (32 * (i % per) + 32))
  | .tstAcc _ _ => accPartBad s o.cl (tileOf o).1 (awCols e) (8 * i) (min (awRows e * awCols e) (8 * i + 8))
  | _ => false
/-- The first entry of a word takes another operation with it. -/
def joinFirst (cl pa id : Nat) : List RegOut → List RegOut
  | [] => []
  | x :: t => if x.cl = cl ∧ x.pa = pa then { x with ops := x.ops ++ [id] } :: t else x :: joinFirst cl pa id t
/-- The newest outstanding registration of a word takes another operation with it. -/
def joinReg (cl pa id : Nat) (l : List RegOut) : List RegOut := (joinFirst cl pa id l.reverse).reverse

/-- One word of a store to an S page (R214, Table 10.4): what is written, and the words to register. -/
def writeWordS (cl ctx id : Nat) (x : El) (bs : List Byte) (acc : State × List (Nat × BitVec 4)) (w : Nat) :
    State × List (Nat × BitVec 4) :=
  let s := acc.1
  let v := wordPart (x.pa % 64) bs w
  let pa := sectorOf x.pa + 4 * w
  let fresh : L1Word :=
    { cl := cl, ctx := ctx, va := x.va - x.va % 64 + 4 * w, pa := pa, st := .p, data := mergeWord 0#32 v.1 v.2, key := x.key,
      have_ := v.2, wr := v.2, whole := decide (v.2 = 0xF#4), psn := false, prev := none, evict := false }
  match l1wFind s cl pa with
  | some y =>
    match y.st with
    | .o => (l1wPut { y with data := mergeWord y.data v.1 v.2, psn := y.psn && decide (v.2 ≠ 0xF#4) } s, acc.2)
    | .p =>
      let s := l1wPut { y with data := mergeWord y.data v.1 v.2, have_ := y.have_ ||| v.2, wr := y.wr ||| v.2, whole := y.whole || decide (v.2 = 0xF#4),
                               psn := y.psn && decide (v.2 ≠ 0xF#4) } s
      ({ s with co := { s.co with regOut := joinReg cl pa id s.co.regOut } }, acc.2)
    | .v => (l1wPut { fresh with psn := y.psn && decide (v.2 ≠ 0xF#4) } s, acc.2 ++ [(w, v.2)])
  | none => (l1wPut fresh s, acc.2 ++ [(w, v.2)])

/-- A registration of a word by a cluster is on its way: to its home, or to the RDC that may hand the word off itself. -/
def regAhead (s : State) (cl sec w : Nat) : Bool :=
  let d := dieOf cl
  let waits := s.co.gwait.any fun g => decide (g.rdc = some d ∧ g.pa = sec + 4 * w ∧ g.dest = .l1 cl)
  s.co.msgs.any fun m => decide (m.pa = sec) && (match m.body with
    | .reg ws => (ws.any fun x => decide (x.1 = w)) && (decide (m.src = .l1 cl) || (decide (m.src = .rdc d) && waits))
    | _ => false)
/-- Each word of an 8-byte unit is seen by others as it was until the registration of the other, where that is still to come, has been performed
(R155, R239; assumption 57). `s0` is the state before the write, `new` the words to register. -/
def keepPrev (cl : Nat) (x : El) (s0 : State) (new : List Nat) (s : State) : State :=
  let sec := sectorOf x.pa
  (elWords x).foldl (fun s w =>
    if x.len < 8 ∨ !(elWords x).contains (mateOf w) ∨ !(new.contains (mateOf w) || regAhead s0 cl sec (mateOf w)) then s
    else
      match l1wFind s cl (sec + 4 * w) with
      | some z =>
        if z.prev.isSome then s
        else l1wPut { z with prev := some (if new.contains w then Part.none_ else ((l1wFind s0 cl (sec + 4 * w)).map partOf).getD Part.none_) } s
      | none => s) s
/-- Loads that came before a write of their L1, and wait, keep the words that they have there as they are (R29). -/
def snapLoads (cl id : Nat) (x : El) (s : State) : State :=
  let n := ((findOp s id).map (·.seqNo)).getD 0
  let sec := sectorOf x.pa
  { s with ops := s.ops.map fun o =>
      if o.cl = cl ∧ o.id ≠ id ∧ o.ph = .miss ∧ o.seqNo < n ∧ !isPf o.ins ∧ !isWbk o.ins ∧ (o.left.any fun j => o.els[j]?.any fun y => elsMeet x y) then
        { o with snap := o.snap ++ (elWords x).filterMap fun w =>
            if (gotWord o (sec + 4 * w)).isSome ∨ (o.snap.any fun p => decide (p.1 = sec + 4 * w)) then none
            else ((l1wFind s cl (sec + 4 * w)).filter fun y => decide (y.st ≠ .v)).map fun y => (sec + 4 * w, partOf y) }
      else o }
/-- Words of one sector written at an L1, and their registration requested in one message. -/
def writeS (cl ctx id : Nat) (x : El) (bs : List Byte) (s : State) : State :=
  let sec := sectorOf x.pa
  let s := if bs.isEmpty then s else snapLoads cl id x s
  let r := (elWords x).foldl (writeWordS cl ctx id x bs) (s, [])
  let s := if bs.isEmpty then r.1 else keepPrev cl x s (r.2.map (·.1)) r.1
  let s := { s with ops := s.ops.map fun o =>
    if o.cl = cl ∧ o.id ≠ id ∧ (o.els.any fun y => decide (sectorOf y.pa = sec)) then { o with stale := true } else o }
  if r.2.isEmpty then s
  else
    let s := { s with co := { s.co with regOut := s.co.regOut ++ r.2.map fun w => { cl := cl, pa := sec + 4 * w.1, ops := [id] } } }
    sendMsg (.l1 cl) (agentAt (placeOf cl sec)) sec x.key (.reg r.2) s

/-- An L1's sector in E or M, or its request for one (Table 10.9). -/
def wantM (cl : Nat) (x : El) (s : State) : Option L1Sec × State :=
  match l1dFind s cl (sectorOf x.pa) with
  | some d => if isEM d.st then (some d, s) else (none, l1Ask cl .upgrade (sectorOf x.pa) x.key s)
  | none => (none, l1Ask cl .excl (sectorOf x.pa) x.key s)

/-- A doorbell's offset in the kick or trigger region, for an aligned 8-byte store (R386). -/
def doorbell (x : El) : Option Nat :=
  let off := x.pa - mmioBase
  if x.len = 8 ∧ 0x100000 ≤ off ∧ off < 0x1A0000 then some off else none

def ctxNoOf (s : State) (inst : Nat) : Nat := ((findInst s inst).map (·.ctx)).getD 0

/-- A store's element; it stays when it cannot be carried out yet. One that would come from a bad unit ends the instruction, counted, with POISON
(R411; assumption 29). -/
def storeEl (o : Op) (i : Nat) (x : El) (s : State) : State :=
  let bs := storeBytes s o i
  if pieceBad s o i then
    failOp o.id (errPoison (Config.poisonAddr s.tick).toNat) (countLog ctrSRAMUE (dieOf o.cl) (o.cl % 128) 0 s)
  else
  match x.kind with
  | .s =>
    let m := l1Make o.cl (sectorOf x.pa) s
    if m.1 then doneEl o.id i [] (writeS o.cl (ctxNoOf s o.inst) o.id x bs m.2) else m.2
  | .d | .hostc =>
    let r := wantM o.cl x s
    match r.1 with
    | some d =>
      let w := secWrite d.data d.psn (x.pa % 64) bs
      doneEl o.id i [] (l1dPut { d with st := .m, data := w.1, psn := w.2 } r.2)
    | none => r.2
  | .u | .hostu =>
    let p := prepareRange true x.key x.pa x.len s
    if p.1 then doneEl o.id i [] (placeWrite x.key x.pa bs false p.2) else p.2
  | .peer => if flitReady false s o.id i then doneEl o.id i [] (peerWrite (tagKey x.key) x.pa bs false (dropFlit o.id i s)) else s
  | .mmio =>
    match doorbell x with
    | some off =>
      let e : Instr := .triggerStore off (BitVec.ofNat 64 (natOfBytes bs)) 8 (some o.id)
      if s.inbox.contains e then s else { s with inbox := s.inbox ++ [e] }
    | none => doneEl o.id i [] s
  | .hole => doneEl o.id i [] (reportHole o.cl x.pa s)

/-! ### Atomics -/

/-- The captured entry of an operation. -/
def capEntry (o : Op) : W64 := (o.cap.head?.map (·.2)).getD 0#64

/-- The effect at the place, given the old bytes: POISON, or the result, the flags, and the bytes to write. -/
def rmwOn (o : Op) (x : El) (old : List (Byte × Bool)) : Option (W64 × Option (List Byte) × Flags) :=
  if old.any (·.2) then none
  else
    let r := rmwAt o.ins (capEntry o) (o.b.payload.setWidth 64) (o.c.payload.setWidth 64) (natOfBytes (old.map (·.1)))
    some (r.1, r.2.1.map fun v => bytesOfNat v x.len, r.2.2)
/-- The first poisoned byte of an element, by virtual address. -/
def firstPoison (x : El) (old : List (Byte × Bool)) : Nat := x.va + ((old.findIdx? (·.2)).getD 0)
/-- The result of an atomic: flags raised at its place, the value kept. -/
def rmwDone (o : Op) (v : W64) (fl : Flags) (s : State) : State :=
  modOp o.id (fun p => { p with left := [], val := v.setWidth 256 }) (raise o.inst fl s)
/-- An atomic performed on old bytes at a place that writes by `wr`. -/
def rmwPerform (o : Op) (x : El) (old : List (Byte × Bool)) (wr : List Byte → State → State) (s : State) : State :=
  match rmwOn o x old with
  | none => failOp o.id (errPoison (firstPoison x old)) s
  | some (v, w, fl) => rmwDone o v fl (match w with
    | some bs => wr bs s
    | none => s)

/-- Bytes of an element from words. -/
def bytesOfWords (x : El) (ws : List (Nat × W32 × Bool)) : List (Byte × Bool) :=
  (List.range x.len).map fun i =>
    let a := x.pa + i
    match ws.find? fun w => decide (w.1 = a / 4 * 4) with
    | some w => (w.2.1.extractLsb' (8 * (a % 4)) 8, w.2.2)
    | none => (0#8, false)

/-- The issuing L1's copies of the words become I (Table 11.4). -/
def dropMine (cl : Nat) (x : El) (s : State) : State :=
  (elWords x).foldl (fun s w => l1wDel cl (sectorOf x.pa + 4 * w) s) s

/-- Bytes written into an RDC's copies of host sectors, held in M from now on; a poisoned write marks every word of them (R410). -/
def rdcStore (d pa : Nat) (bs : List Byte) (poison : Bool) (s : State) : State :=
  (sectorsIn pa bs.length).foldl (fun s sec =>
    let lo := max pa sec
    match rdcFind s d sec with
    | some y =>
      let w := secWrite y.data y.psn (lo % 64) ((bs.drop (lo - pa)).take (sec + 64 - lo))
      rdcPut { y with st := .m, data := w.1, psn := if poison then 0xFFFF#16 else w.2 } s
    | none => s) s
def rdcWrite (d : Nat) (x : El) (bs : List Byte) (s : State) : State := rdcStore d x.pa bs false s
/-- An RDC's host sector in E or M with no copy left in its die's L1s, or its request for one (Table 19.4). -/
def wantRdc (d : Nat) (x : El) (s : State) : Option RdcSec × State :=
  let sec := sectorOf x.pa
  if sectorBusy s sec then (none, s)
  else
    match rdcFind s d sec with
    | none => (none, rdcAsk d .excl sec x.key s)
    | some y =>
      if !isEM y.st then (none, rdcAsk d .upgrade sec x.key s)
      else
        let mine (z : L1Sec) : Bool := decide (z.pa = sec ∧ dieOf z.cl = d)
        let y := match s.co.l1d.find? fun z => mine z && decide (z.st = .m) with
          | some z => { y with data := z.data, psn := z.psn, st := .m }
          | none => y
        let s := { s with co := { s.co with l1d := s.co.l1d.filter fun z => !mine z } }
        (some y, rdcPut y (dirPut { dirGet s (some d) sec with holders := 0#128, em := false } s))

/-- Bytes of host sectors as a die holds them, in its RDC or modified in one of its L1s. -/
def rdcBytes (d pa n : Nat) (s : State) : List (Byte × Bool) :=
  (List.range n).map fun i =>
    let a := pa + i
    match rdcFind s d (sectorOf a) with
    | some y =>
      let v := (dieDirty s d (sectorOf a)).getD (y.data, y.psn)
      (secByte v.1 (a % 64), v.2.getLsbD (a % 64 / 4))
    | none => (0#8, true)
/-- Whether an RDC holds every sector of an element for a read, or, in E or M with no copy in its die's L1s, for a write; else it asks for what is
lacking (Table 19.4). -/
def rdcReady (d : Nat) (wr : Bool) (x : El) (s : State) : Bool × State :=
  (sectorsIn x.pa x.len).foldl (fun (z : Bool × State) sec =>
    if !z.1 then z
    else if wr then let r := wantRdc d { x with pa := sec } z.2; (r.1.isSome, r.2)
    else if sectorBusy z.2 sec then (false, z.2)
    else if (rdcFind z.2 d sec).isSome then z
    else (false, rdcAsk d .shared sec x.key z.2)) (true, s)

/-- An atomic at its place (Table 11.4). -/
def rmwEl (o : Op) (i : Nat) (x : El) (s : State) : State :=
  let ctx := ctxNoOf s o.inst
  let home (s : State) : State :=
    let p := prepareRange true x.key x.pa x.len s
    if p.1 then
      let s := if x.kind = .s then dropMine o.cl x p.2 else p.2
      rmwPerform o x (placeRead x.key x.pa x.len s) (fun bs => placeWrite x.key x.pa bs false) s
    else p.2
  match x.kind with
  | .s =>
    if wide o.ins then home s
    else
      match gather s o x with
      | some l =>
        let m := l1Make o.cl (sectorOf x.pa) s
        if m.1 then rmwPerform o x (bytesOfWords x l) (fun bs => writeS o.cl ctx o.id x bs) m.2 else m.2
      | none => askWords o x s
  | .d | .hostc =>
    if wide o.ins then
      if x.kind = .d then home s
      else
        let r := wantRdc (dieOf o.cl) x s
        match r.1 with
        | some y => rmwPerform o x (bytesOfWords x (wordsOfSec x y.data y.psn)) (rdcWrite (dieOf o.cl) x) r.2
        | none => r.2
    else
      let r := wantM o.cl x s
      match r.1 with
      | some d =>
        rmwPerform o x (bytesOfWords x (wordsOfSec x d.data d.psn)) (fun bs s =>
          let w := secWrite d.data d.psn (x.pa % 64) bs
          l1dPut { d with st := .m, data := w.1, psn := w.2 } s) r.2
      | none => r.2
  | .u | .hostu => home s
  | .peer =>
    if flitReady false s o.id i then
      rmwPerform o x (peerRead (tagKey x.key) x.pa x.len s) (fun bs => peerWrite (tagKey x.key) x.pa bs false) (dropFlit o.id i s)
    else s
  | .mmio => rmwPerform o x (List.replicate x.len (0#8, false)) (fun _ s => s) s
  | .hole => failOp o.id (errPoison x.va) (reportHole o.cl x.pa s)

/-! ### OWN (R234) -/

/-- OWN on a peer page has no effect there (R396): no request goes out and no byte is read (DESIGN CHOICE; assumption 69). -/
def ownEl (o : Op) (i : Nat) (x : El) (s : State) : State :=
  let poisonOr (ws : List (Nat × W32 × Bool)) (k : State → State) (s : State) : State :=
    let b := bytesOfWords x ws
    if b.any (·.2) then failOp o.id (errPoison (firstPoison x b)) s else doneEl o.id i [] (k s)
  match x.kind with
  | .s =>
    match gather s o x with
    | some l =>
      let m := l1Make o.cl (sectorOf x.pa) s
      if m.1 then poisonOr l (writeS o.cl (ctxNoOf s o.inst) o.id x []) m.2 else m.2
    | none => askWords o x s
  | .d | .hostc =>
    let r := wantM o.cl x s
    match r.1 with
    | some d => poisonOr (wordsOfSec x d.data d.psn) (l1dPut { d with st := .m }) r.2
    | none => r.2
  | .peer | .mmio => doneEl o.id i [] s
  | .u | .hostu | .hole =>
    let r := fetchEl o i x s
    match r.1 with
    | some l => poisonOr l id r.2
    | none => r.2

/-! ### WBK (R236) -/

/-- R233's range of an INV.REGION or WBK, rounded outward to words; none when it is refused. -/
def invRange (o : Op) : Option (Nat × Nat) :=
  let a := (o.a.payload.setWidth 64).toNat
  let b := (o.b.payload.setWidth 64).toNat
  if 2 ^ 56 ≤ a ∨ 2 ^ 56 < a + b then none
  else if b = 0 then some (0, 0) else some (a / 4 * 4, (a + b + 3) / 4 * 4)
def inRange (r : Nat × Nat) (va n : Nat) : Bool := decide (r.1 < va + n ∧ va < r.2)

/-- A write-back or a returned sector on its way from an L1 or its die's RDC. -/
def leaving (s : State) (cl sec : Nat) : Bool :=
  s.co.msgs.any fun m => decide (m.pa = sec) && decide (m.src = .l1 cl ∨ m.src = .rdc (dieOf cl)) && (match m.body with
    | .wb _ => true
    | .dret (some _) _ _ => true
    | _ => false)
/-- Words of a WBK in a sector: those that were P are written back once granted; then no write-back of the L1 or its RDC
about the sector may be on its way. An E or M sector is returned to its home and becomes S. -/
def wbkEl (o : Op) (i : Nat) (x : El) (s : State) : State :=
  let sec := sectorOf x.pa
  match x.kind with
  | .s =>
    let ps := o.got.filter fun g => decide (sectorOf g.1 = sec)
    if ps.any fun g => (l1wFind s o.cl g.1).any (stays s) then s
    else
      let s := writeBackWords o.cl sec (ps.map fun g => g.1 % 64 / 4) true s
      let s := modOp o.id (fun p => { p with got := p.got.filter fun g => decide (sectorOf g.1 ≠ sec) }) s
      if leaving s o.cl sec then s else doneEl o.id i [] s
  | _ =>
    if leaving s o.cl sec then s
    else if ((l1dFind s o.cl sec).map fun d => isEM d.st).getD false then
      let p := prepare false [] x.key sec s
      if p.1 then doneEl o.id i [] p.2 else p.2
    else doneEl o.id i [] s

/-- Device sectors of a range held dirty in L2: those that the context's tables map into the range as they stand (R236; assumption 21). -/
def dirtyIn (c : Ctx) (r : Nat × Nat) (s : State) : List L2Sec :=
  let ds := s.co.l2.filter (·.dirty)
  if ds.isEmpty || decide (r.2 ≤ r.1) then []
  else
    let wins := (List.range ((r.2 - 1) / 65536 - r.1 / 65536 + 1)).filterMap fun k =>
      let va := (r.1 / 65536 + k) * 65536
      (peekLeaf c va s).map fun e => (va, leafPa e.1 e.2 va)
    ds.filter fun x => wins.any fun w => decide (w.2 ≤ x.pa ∧ x.pa < w.2 + 65536) && inRange r (w.1 + (x.pa - w.2)) 64
/-- What a WBK is to clean in the home L2s: none below SYS scope. -/
def wbkCleans (o : Op) (s : State) : List L2Sec :=
  match o.ins, ctxOfInst s o.inst, invRange o with
  | .wbk r, some c, some g => if r.scope = .sys then dirtyIn c g s else []
  | _, _, _ => []

/-! ### Progress and completion -/

/-- The value of a completed load, or POISON (R151, R156). -/
def loadResult (o : Op) : Except W64 W256 :=
  let bad := (o.els.find? fun x => (bytesOfWords x o.got).any (·.2))
  match bad with
  | some x => .error (errPoison (firstPoison x (bytesOfWords x o.got)))
  | none =>
    .ok (BitVec.ofNat 256 (natOfBytes (o.els.flatMap fun x => (bytesOfWords x o.got).map (·.1))))

/-- An acquire's value has been obtained: its L1 drops V words, and its chain goes on (R218, R241). -/
def acquired (o : Op) (s : State) : State :=
  if isAcquire o.ins then
    let s := modInst o.inst (fun i => { i with threads := i.threads.map fun t => if t.acq = some o.id then { t with acq := none } else t }) s
    if wide o.ins then acquireL1 o.cl s else s
  else s

/-- All elements carried out: the result is fixed, unless OWN waits for grants, or a WBK for a channel that is to carry a sector (R409). -/
def completeOp (o : Op) (s : State) : State :=
  match o.err with
  | some _ => acquired o (modOp o.id (fun p => { p with ph := .done }) s)
  | none =>
    if isLoad o.ins then
      match loadResult o with
      | .ok v => acquired o (modOp o.id (fun p => { p with ph := .done, val := v }) s)
      | .error e => acquired o (modOp o.id (fun p => { p with ph := .done, err := some e }) s)
    else if isOwn o.ins && s.co.regOut.any fun r => r.ops.contains o.id then s
    else if (wbkCleans o s).any fun x => burstStuck s x.pa then s
    else acquired o (modOp o.id (fun p => { p with ph := .done }) ((wbkCleans o s).foldl (fun s x => l2Clean x s) s))

/-- A prefetch asks for a sector that the L1 does not hold whole. A word that the L1 has written in part, and that the prefetch names, is awaited, and
nothing is asked for when it is known to be poisoned (R158). -/
def pfAsk (o : Op) (i : Nat) (x : El) (s : State) : State :=
  let sec := sectorOf x.pa
  let mine := if x.len = 64 then none else l1wFind s o.cl (x.pa / 4 * 4)
  if x.kind = .s then
    match mine.map fun y => (decide (elMask x (x.pa % 64 / 4) &&& ~~~y.have_ ≠ 0#4), y.psn) with
    | some (true, _) => s
    | some (false, true) => doneEl o.id i [] s
    | _ => askWords o { x with pa := sec, len := 64 } (doneEl o.id i [] s)
  else
    let s := doneEl o.id i [] s
    if (l1dFind s o.cl sec).isSome then s else l1Ask o.cl .shared sec x.key s
/-- The byte that a prefetch names has come, and is not poisoned (Table 6.8, row 6). -/
def pfClean (s : State) (o : Op) (x : El) : Bool :=
  if x.kind = .s then
    (((gotWord o (x.pa / 4 * 4)).orElse fun _ => l1Give s o.cl true (elMask x (x.pa % 64 / 4)) (x.pa / 4 * 4)).map fun v => !v.2).getD false
  else ((l1dFind s o.cl (sectorOf x.pa)).map fun d => !d.psn.getLsbD (x.pa % 64 / 4)).getD false
/-- The other sectors of its line. -/
def lineEls (x : El) : List El :=
  ((List.range 4).map fun k => { x with va := x.va / 256 * 256 + 64 * k, pa := lineOf x.pa + 64 * k, len := 64 }).filter fun y =>
    decide (y.pa ≠ sectorOf x.pa)
/-- The instance of an operation is on its clusters. -/
def placed (s : State) (inst : Nat) : Bool := (findInst s inst).any fun i => decide (i.phase ≠ .saved)
/-- What a prefetch asked for has come, or will not: with the sector that it names it goes on to the rest of the line (`n` = 1), or it is over
(R158). -/
def pfNext (o : Op) (s : State) : State :=
  if o.els.any fun x => readsOut s o.id (sectorOf x.pa) || (decide (x.kind ≠ .s) && l1Asked s o.cl (sectorOf x.pa)) then s
  else
    match o.els with
    | [x] =>
      if o.n = 1 ∧ pfClean s o x ∧ placed s o.inst then
        let p := { o with els := lineEls x, left := List.range 3, n := 0 }
        (List.range 3).foldl (fun s i => match p.els[i]? with
          | some y => pfAsk p i y s
          | none => s) (modOp o.id (fun _ => p) s)
      else delOp o.id s
    | _ => delOp o.id s

/-- One element of an operation in progress, unless it must wait its turn. -/
def tryEl (id : Nat) (s : State) (i : Nat) : State :=
  match findOp s id with
  | none => s
  | some o =>
    match o.els[i]? with
    | none => s
    | some x =>
      if !o.left.contains i || blocked s o i x then s
      else
        match o.ins with
        | .ld _ | .ldx _ | .tld _ _ | .tldAcc _ _ | .sstrm _ _ =>
          let r := fetchEl o i x s
          (match r.1 with
           | some l => doneEl id i l r.2
           | none => r.2)
        | .st _ | .stx _ | .tst _ _ | .tstAcc _ _ => storeEl o i x s
        | .own _ => ownEl o i x s
        | .wbk _ => wbkEl o i x s
        | .pf _ => pfAsk o i x s
        | _ => rmwEl o i x s

/-- Everything an operation can carry out now. A prefetch that has nothing left is over. -/
def attempt (id : Nat) (s : State) : State :=
  match findOp s id with
  | none => s
  | some o =>
    if o.ph ≠ .miss then s
    else
      let s := o.left.foldl (tryEl id) s
      match findOp s id with
      | none => s
      | some o => if !o.left.isEmpty then s else if isPf o.ins then pfNext o s else completeOp o s

/-- Operations of a cluster that wait for a sector. -/
def attemptCl (cl sec : Nat) (s : State) : State :=
  (s.ops.filter fun o => decide (o.cl = cl ∧ o.ph = .miss) && o.els.any fun x => decide (sectorOf x.pa = sec)).foldl
    (fun s o => attempt o.id s) s

/-! ### Results -/

def present (s : State) (id : Nat) : Bool := (s.ops.any fun o => decide (o.id = id)) || (s.xfers.any fun x => decide (x.id = id))
/-- Operations and transfers sequenced before one by its chain. -/
def chainBefore (s : State) (inst chain id seqNo : Nat) (thr : BitVec 16) : List Nat :=
  ((s.ops.filter fun p => decide (p.inst = inst ∧ p.chain = chain ∧ p.id ≠ id ∧ 0 < p.seqNo ∧ p.seqNo < seqNo) && isOrdered p.ins).map (·.id)) ++
  ((s.xfers.filter fun p => decide (p.inst = inst ∧ p.chain = chain ∧ p.id ≠ id ∧ p.seqNo < seqNo)).map (·.id)) ++ (thrOf s inst thr).cov
/-- What a result hands on of what is sequenced before it (R240): what its operands brought, and at each place that it uses, itself, what its chain
has before it, and what they brought through that place. -/
def passOn (s : State) (deps : List (Nat × Nat)) (id : Nat) (preds at_ : List Nat) : List (Nat × Nat) :=
  let ids := id :: preds ++ ((deps.filter fun d => usesPlace at_ d.2).map (·.1))
  let mine := (id, 1000) :: ids.flatMap fun k => at_.map fun p => (k, p)
  (unionNat deps mine).filter fun d => present s d.1 || decide (4095 ≤ d.2)
/-- What a later release that an operation's result feeds covers (R240, R242; assumption 12). -/
def resultDeps (s : State) (o : Op) : List (Nat × Nat) :=
  passOn s (firingDeps (opFiring o)) o.id (if isOrdered o.ins then chainBefore s o.inst o.chain o.id o.seqNo o.tag.thr else []) (placesOf o)

/-- The result's payload (Table 6.7, R157, R232, R256 to R258, R263). -/
def resultOf (o : Op) : W256 :=
  match o.ins with
  | .ld _ | .ldx _ | .amo _ _ | .cas _ | .xrd _ | .ftset _ | .tld _ _ | .tldAcc _ _ | .tst _ _ | .tstAcc _ _ | .sstrm _ _
  | .tcvt _ _ _ | .ttrn _ _ _ | .spacc _ _ =>
    o.val
  | .st _ => o.b.payload
  | .stx _ => o.c.payload
  | .invAll _ => 0#256
  | _ => o.a.payload

/-- The result token of an operation that is done; what still waits for grants stays for releases (R153). -/
def emitDone (o : Op) (s : State) : State :=
  let f := opFiring o
  let tok : Tok :=
    { payload := match o.err with
        | some c => c.setWidth 256
        | none => resultOf o,
      wide := resWide o.ins, tag := o.tag, e := o.err.isSome, s := sOr f, deps := resultDeps s o }
  let s := sendFrom o.inst o.place (targetsOf o.ins) tok s
  let s := dropFlits o.id s
  if s.co.regOut.any fun r => r.ops.contains o.id then modOp o.id (fun p => { p with ph := .acks }) s else delOp o.id s

/-- R96: no instruction of the instance that fired before and captured the slot with another value is in progress. -/
def syncReady (s : State) (o : Op) : Bool :=
  match o.act with
  | none => true
  | some (n, e) =>
    let holds (cap : List (Nat × W64)) : Bool := cap.any fun c => decide (c.1 = n ∧ c.2 ≠ e)
    !(s.ops.any fun p => decide (p.inst = o.inst ∧ p.id < o.id ∧ p.ph ≠ .acks) && holds p.cap) &&
    !(s.xfers.any fun x => decide (x.inst = o.inst ∧ x.id < o.id) && holds x.cap)

/-! ### Reaching the L1 -/

/-- SRC of Table 16.4. -/
def srcOf (i : Instr) : BitVec 4 :=
  if isStream i then 4#4 else if isTileMem i then 3#4 else if isOrdered i then 0#4 else 1#4

/-- A request parks (R352). -/
def parkOp (o : Op) (kind : Byte) (lvl va : Nat) (s : State) : State :=
  let r := opException o
    { kind := kind, src := srcOf o.ins, acc := accCode (needOf o.ins), level := BitVec.ofNat 8 lvl,
      va := BitVec.ofNat 64 va, place := 0#64,
      data := if isStream o.ins then streamElem o else 0#64 } s
  modOp o.id (fun p => { p with ph := .parked r.1 }) r.2

/-- What the checks of a request give: not finished; parked; or performed, with an error or with its elements. -/
inductive Start where
  | wait
  | parked
  | fail (code : W64)
  | go (els : List El)
  deriving DecidableEq, Repr

/-- Rows 2 to 5 of Table 6.8, with R392 and R396. -/
def checkStart (o : Op) (s : State) : Start × State :=
  match checkAddr o with
  | some e => (.fail e, s)
  | none =>
    match ctxOfInst s o.inst with
    | none => (.wait, s)
    | some c =>
      let r := translate (some (dieOf o.cl)) (.cluster o.cl) c (needOf o.ins) (accessOf o) s
      match r.1 with
      | .wait => (.wait, r.2)
      | .park k l va => (.parked, parkOp o k l va r.2)
      | .perm va => (.fail (errPerm va), r.2)
      | .ok els =>
        match els.find? (refusedEl r.2 o.ins) with
        | some x => (.fail (errPerm x.va), r.2)
        | none => if cacheGoing r.2 && (els.any fun x => decide (x.kind = .hostc)) then (.wait, r.2) else (.go (els.map (peerEl r.2)), r.2)

/-- A replay is performed after every replay that was issued again before it and goes to the same cluster's L1 or unit (R358). -/
def replayTurn (s : State) (o : Op) : Bool :=
  decide (o.replay = 0) || !(s.ops.any fun p => decide (p.cl = o.cl ∧ 0 < p.replay ∧ p.replay < o.replay))
/-- The checks of a request whose turn has come. -/
def startOf (o : Op) (s : State) : Start × State :=
  if !replayTurn s o then (.wait, s)
  else
    let r := checkStart o s
    match r.1 with
    | .wait => r
    | z => (z, if o.replay = 0 then r.2 else modOp o.id (fun p => { p with replay := 0 }) r.2)

/-- Flits for the elements in peer memory (R397). -/
def sendFlits (o : Op) (els : List El) (s : State) : State :=
  if isOwn o.ins then s
  else
    (List.range els.length).foldl (fun s i =>
      match els[i]? with
      | some x => if x.kind = .peer then sendLines o.id i (peerNode x.pa) (peerOff x.pa) x.len s else s
      | none => s) s

/-- A request that has been performed begins its accesses; one that goes to a peer is on its way. -/
def begin_ (o : Op) (els : List El) (s : State) : State :=
  let s := modOp o.id (fun p => { p with ph := .miss, els := els, left := List.range els.length }) s
  if els.any (fun x => decide (x.kind = .peer)) && !isOwn o.ins then sendFlits o els s else attempt o.id s
/-- A request that has been performed without any access: done. -/
def finish (id : Nat) (err : Option W64) (s : State) : State := modOp id (fun p => { p with ph := .done, err := err }) s

/-- The order number of an operation that reaches its L1. -/
def stamp (id : Nat) (s : State) : State :=
  modOp id (fun p => { p with seqNo := s.nextId }) { s with nextId := s.nextId + 1 }

/-- A prefetch, or another speculative read of an L1, of the sector that holds an address, where the access would be allowed, and, with `line`, of its
whole line (R158, R351). -/
def prefetchAt (o : Op) (va line : Nat) (s : State) : State :=
  match ctxOfInst s o.inst with
  | none => delOp o.id s
  | some c =>
    let r := speculate (some (dieOf o.cl)) (.cluster o.cl) c (needOf o.ins) va 1 s
    match r.1 with
    | none => delOp o.id r.2
    | some (x, _) =>
      if decide (x.kind = .s ∨ x.kind = .d) || (decide (x.kind = .hostc) && !cacheGoing r.2) then
        attempt o.id (modOp o.id (fun _ => { o with ph := .miss, els := [x], left := [0], n := line }) r.2)
      else delOp o.id r.2
def prefetch (o : Op) (s : State) : State :=
  let a := (o.a.payload.setWidth 64).toNat
  if 2 ^ 56 ≤ a then delOp o.id s else prefetchAt o a 1 s
/-- A prefetch of one sector on behalf of an operation that looks ahead (R289, R351; assumption 55). -/
def readAheadOf (o : Op) (va : Nat) (s : State) : State :=
  let p : Op := { o with
    id := s.nextId, els := [], left := [], got := [], snap := [], err := none, act := none, replay := 0
    ins := .pf { fs := 0#5, v := false, ord := .unord, scope := .cl, size := .b, nth := false, seq := ⟨0#10, 0#10, 0#10⟩, sub := .none, tgts := [] } }
  if 2 ^ 56 ≤ va then s else prefetchAt p va 0 { s with nextId := s.nextId + 1, ops := s.ops ++ [p] }

/-- UNORDERED_REQUEST: the request reaches the issuing cluster's L1 (R152). -/
def unorderedStep (op : Nat) (s : State) : State :=
  match findOp s op with
  | none => s
  | some o =>
    if o.ph ≠ .l1Net then s
    else if isPf o.ins then prefetch o s
    else
      let r := startOf o s
      match r.1 with
      | .wait | .parked => r.2
      | .fail e => finish op (some e) r.2
      | .go els => begin_ o els (stamp op r.2)
def execUnorderedRequest (op : Nat) (s : State) : Out := .next (unorderedStep op s)

/-- A fill's words cached as V where nothing was written (R214, R218); other fills of the sector that are on their way cache nothing, since they may be
older. One that an acquire of the L1 or such a fill has overtaken caches nothing, and the V copies that it found go (R245); nor does one where the L1
can take no new line now, or the instance is there no longer. A prefetch whose own byte is poisoned does nothing (R158). -/
def cacheFill (o : Op) (cl sec key : Nat) (s : State) : State :=
  let ctx := ctxNoOf s o.inst
  let va := ((o.els.find? fun x => decide (sectorOf x.pa = sec)).map fun x => x.va - x.va % 64).getD 0
  let m := l1Make cl sec s
  if o.stale then invalidateV cl (fun x => decide (sectorOf x.pa = sec)) s
  else if isPf o.ins && !placed s o.inst then s
  else if isPf o.ins && !(o.els.any fun x => decide (sectorOf x.pa = sec) && (decide (x.len = 64) || pfClean s o x)) then s
  else if !m.1 then m.2
  else
    let s := { m.2 with ops := m.2.ops.map fun p => if p.cl = cl ∧ p.id ≠ o.id ∧ readsOut m.2 p.id sec then { p with stale := true } else p }
    (o.got.filter fun g => decide (sectorOf g.1 = sec)).foldl (fun s g =>
      if (l1wFind s cl g.1).any fun x => decide (x.st ≠ .v) then s
      else l1wPut { cl := cl, ctx := ctx, va := va + g.1 % 64, pa := g.1, st := .v, data := g.2.1, key := key,
                    have_ := 0xF#4, wr := 0#4, whole := false, psn := g.2.2, prev := none, evict := false } s) s
/-- A fill's words at an L1: kept for the operation; once every word of the sector that was read has come, they are cached, and every operation
of the L1 that waits for the sector goes on (R214, R245). -/
def fillAt (n : Nat) (m : Msg) (cl op : Nat) (ws : List (Nat × W32 × Bool)) (s : State) : State :=
  let s := modOp op (fun o => { o with got := o.got ++
    ((ws.map fun w => (m.pa + 4 * w.1, w.2)).filter fun w => !(o.got.any fun g => decide (g.1 = w.1))) }) (dropMsg n s)
  match findOp s op with
  | none => s
  | some o =>
    if readsOut s op m.pa then s
    else attemptCl cl m.pa (attempt op (cacheFill o cl m.pa m.key s))

/-- A sector granted to an L1 or an RDC (Table 10.9, R228), once there is a line for it. One that no operation waits for any more is given up
again. -/
def dgrantAt (n : Nat) (m : Msg) (st : Mesi) (d : List W32) (psn : BitVec 16) (s : State) : State :=
  match m.dst with
  | .l1 c =>
    let room := l1Make c m.pa s
    if !room.1 then holdMsg n room.2
    else
    let s := dropMsg n room.2
    (match s.ops.findSome? fun o => if o.cl = c ∧ placed s o.inst then (o.els.find? fun x => decide (sectorOf x.pa = m.pa)).map fun x => (o, x) else none with
     | some (o, x) =>
       attemptCl c m.pa (l1dPut { cl := c, ctx := ctxNoOf s o.inst, va := x.va - x.va % 64, pa := m.pa, st := st, key := m.key, data := d, psn := psn } s)
     | none => evictD c (l1dPut { cl := c, ctx := 0, va := 0, pa := m.pa, st := st, key := m.key, data := d, psn := psn } s) m.pa)
  | .rdc k =>
    if rdcRoom s k m.pa then rdcPut { die := k, pa := m.pa, st := st, key := m.key, data := d, psn := psn } (dropMsg n s) else holdMsg n s
  | .home => dropMsg n s

/-- DATA_RETURN: words or a sector reach an L1 or RDC, or an operation's accesses go on and its result is emitted. An FTSYNC
that waits for no capture any more emits here too (R96). -/
def execDataReturn (r : Ret) (s : State) : Out :=
  match r with
  | .msg n =>
    match arrived s n with
    | none => .next s
    | some m =>
      match m.body, m.dst with
      | .fill op ws, .l1 c => .next (fillAt n m c op ws s)
      | .dgrant st d psn, _ => .next (dgrantAt n m st d psn s)
      | _, _ => .next s
  | .op id =>
    let s1 := attempt id s
    match findOp s1 id with
    | some o => .next (if (o.ph = .done ∧ !isTileMem o.ins ∧ !isStream o.ins) ∨ (o.ph = .sync ∧ syncReady s1 o) then emitDone o s1 else s1)
    | none => .next s1

/-! ### Firing -/

/-- A memory record that fires (R17, R30, R88): its request goes to its wave-order unit or its L1. `bad` is the ILLFMT of
a slot it names. -/
def memFire (i : Instr) (slots : List Nat) (bad : Option Nat) (s : State) : State :=
  let err := (firstErr s.firing).orElse fun _ => bad.map errIllfmt
  let cap := capture s s.firing.inst slots
  if isOrdered i then
    let r := newOp i .wouNet (firingHome s) cap s
    modOp r.1 (fun o => { o with err := err }) r.2
  else
    match err with
    | some e => emitErr s.firing i e s
    | none => (newOp i .l1Net (firingCl s) cap s).2

def execLd (r : MemRec) (s : State) : Out := .next (memFire (.ld r) [] none s)
def execSt (r : MemRec) (s : State) : Out := .next (memFire (.st r) [] none s)
def execLdx (r : MemRec) (s : State) : Out := .next (memFire (.ldx r) [] none s)
def execStx (r : MemRec) (s : State) : Out := .next (memFire (.stx r) [] none s)
def execMnop (r : MemRec) (s : State) : Out := .next (memFire (.mnop r) [] none s)
/-- R158: an operand with E is consumed without effect. -/
def execPf (r : MemRec) (s : State) : Out :=
  .next (if s.firing.a.e then s else memFire (.pf r) [] none s)
def execOwn (r : MemRec) (s : State) : Out := .next (memFire (.own r) [] none s)
def execInvRegion (r : MemRec) (s : State) : Out := .next (memFire (.invRegion r) [] none s)
def execInvAll (r : MemRec) (s : State) : Out := .next (memFire (.invAll r) [] none s)
def execWbk (r : MemRec) (s : State) : Out := .next (memFire (.wbk r) [] none s)
def execFenceAcq (r : MemRec) (s : State) : Out := .next (memFire (.fenceAcq r) [] none s)
def execFenceRel (r : MemRec) (s : State) : Out := .next (memFire (.fenceRel r) [] none s)
def execFenceAr (r : MemRec) (s : State) : Out := .next (memFire (.fenceAr r) [] none s)
def execFenceSc (r : MemRec) (s : State) : Out := .next (memFire (.fenceSc r) [] none s)

end Sys2Proof.Machine
end

