-- ==== Sys2Proof/Machine/Footprints.lean ====
section
/-! DEFINITION. Requests of transfers (Tables 14.1 to 14.3), their footprints (R304), and what they hold back in their
chain (R306). -/
namespace Sys2Proof.Machine

def isXfer : Instr → Bool
  | .xcopy _ | .xgath _ | .xscat _ | .xtile _ | .xfill _ | .xacc _ => true
  | _ => false

/-! ### The request token -/

def xq (r : W256) (k : Nat) : Nat := (r.extractLsb' (64 * k) 64).toNat
def xCtl (r : W256) : Nat := (r.extractLsb' 232 24).toNat
def xCtag (r : W256) : Tag := { thr := r.extractLsb' 216 16, wave := r.extractLsb' 192 24 }
/-- LEN of XCOPY and XFILL. -/
def xLen (r : W256) : Nat := xq r 2 % 2 ^ 40
/-- ESZ, LLIM and COUNT of XGATH and XSCAT. -/
def xEsz (r : W256) : Nat := xCtl r / 2 ^ 20
def xElem (r : W256) : Nat := 2 ^ xEsz r
def xLlim (r : W256) : Nat := xCtl r / 2 ^ 14 % 64
def xGsCount (r : W256) : Nat := xCtl r % 2 ^ 14 + 1
/-- COUNT of XACC, and its elements' bytes under container c. -/
def xAccCount (r : W256) : Nat := xq r 2 % 2 ^ 32
def xAccLen (r : W256) (c : Nat) : Nat := (xAccCount r * c + 7) / 8
/-- DIR, RS, X, Y, SEQ and HANDLE of XTILE (Table 14.3). -/
def xOut (r : W256) : Bool := (xq r 1).testBit 63
def xRing (r : W256) : Bool := (xq r 1).testBit 62
def xX (r : W256) : Nat := xq r 1 / 2 ^ 40 % 32
def xY (r : W256) : Nat := xq r 1 / 2 ^ 36 % 16
def xSeq (r : W256) : Nat := xq r 1 / 2 ^ 16 % 65536
def xHandle (r : W256) : Nat := xq r 1 % 256

/-- The logical cluster of XTILE's tile. -/
def xTileCl (s : State) (inst : Nat) (r : W256) : Nat :=
  match findInst s inst with
  | some i => clusterAt (i.x0 + xX r) (i.y0 + xY r)
  | none => 0
/-- The handle that XTILE uses (R313). -/
def xSel (s : State) (inst : Nat) (r : W256) : Nat :=
  if xRing r then
    let n := teN (tdir s (xTileCl s inst r) (xHandle r))
    xHandle r - xHandle r % n + xSeq r % n
  else xHandle r

/-! ### Footprints -/

/-- Table 14.6 for a request: read and write ranges (start, length). `c` is XACC's container, `e` XTILE's tile entry. -/
def footOf (i : Instr) (r : W256) (c : Nat) (e : W64) : List (Nat × Nat) × List (Nat × Nat) :=
  match i with
  | .xcopy _ => ([(xq r 0, xLen r)], [(xq r 1, xLen r)])
  | .xgath _ => ([(xq r 0, 2 ^ (xLlim r + xEsz r)), (xq r 2, 4 * xGsCount r)], [(xq r 1, xGsCount r * xElem r)])
  | .xscat _ => ([(xq r 0, xGsCount r * xElem r), (xq r 2, 4 * xGsCount r)], [(xq r 1, 2 ^ (xLlim r + xEsz r))])
  | .xtile _ =>
    let f := [(xq r 0, (lineCount e - 1) * tePitch e + (lineElems e * teC e + 7) / 8)]
    if xOut r then ([], f) else (f, [])
  | .xfill _ => ([], [(xq r 0, xLen r)])
  | .xacc _ => ([(xq r 0, xAccLen r c)], [(xq r 1, xAccLen r c)])
  | _ => ([], [])

def meets (a b : Nat × Nat) : Bool := decide (0 < a.2 ∧ 0 < b.2 ∧ a.1 < b.1 + b.2 ∧ b.1 < a.1 + a.2)
def anyMeet (l m : List (Nat × Nat)) : Bool := l.any fun a => m.any (meets a)

/-- Footprints of a transfer: those fixed at admission, or, before it, what its request says. -/
def xfoot (x : Xfer) : List (Nat × Nat) × List (Nat × Nat) :=
  if x.ph = .port then footOf x.ins x.req (containerOf ((x.cap.head?.map (·.2)).getD 0#64)) x.entry else (x.rd, x.wr)

/-! ### The chain (R297, R306) -/

/-- Bytes that an ordered operation reads and writes. An XTILE's are taken from the tile entry that it names as it is
performed (assumption 23). -/
def touched (s : State) (o : Op) : List (Nat × Nat) × List (Nat × Nat) :=
  if isXfer o.ins then
    footOf o.ins o.a.payload (containerOf (capEntry o)) (tdir s (xTileCl s o.inst o.a.payload) (xSel s o.inst o.a.payload))
  else
    match o.ins with
    | .ld _ | .ldx _ | .xrd _ => (accessOf o, [])
    | .st _ | .stx _ => ([], accessOf o)
    | .own _ | .amo _ _ | .cas _ | .red _ _ | .xred _ => (accessOf o, accessOf o)
    | _ => ([], [])

/-- Whether an operation that touches these bytes comes under R306 for a transfer with these footprints. -/
def conflicts (t : List (Nat × Nat) × List (Nat × Nat)) (f : List (Nat × Nat) × List (Nat × Nat)) : Bool :=
  anyMeet t.2 (f.1 ++ f.2) || anyMeet t.1 f.2

/-- An earlier transfer of the chain holds the operation back: one that conflicts, or an XTILE whose footprint is not
fixed yet. -/
def heldByXfer (s : State) (o : Op) : Bool :=
  if o.err.isSome then false
  else
    let t := touched s o
    s.xfers.any fun x => decide (x.inst = o.inst ∧ x.chain = o.chain) &&
      ((decide (x.ph = .port) && (match x.ins with
        | .xtile _ => !(t.1.isEmpty && t.2.isEmpty)
        | _ => false)) || conflicts t (xfoot x))

/-! ### Homes (R240) -/

/-- Windows of 64 KiB that ranges meet. -/
def windowsOf (l : List (Nat × Nat)) : Nat := (l.map fun f => if f.2 = 0 then 0 else (f.1 + f.2 - 1) / 65536 - f.1 / 65536 + 1).foldl (· + ·) 0
/-- The homes that a transfer with these footprints uses, as the context's tables stand; every home where they meet more than 64 windows
(assumption 12). -/
def footPlaces (s : State) (inst : Nat) (l : List (Nat × Nat)) : List Nat :=
  match ctxOfInst s inst with
  | none => []
  | some c =>
    if 64 < windowsOf l then [everyHome]
    else
      ((peekEls s c (l.flatMap fun f => winPieces f.1 f.2)).flatMap fun x =>
        (List.range ((x.pa + x.len - 1) / 256 - x.pa / 256 + 1)).filterMap fun k => homePlace x.kind ((x.pa / 256 + k) * 256)).eraseDups
/-- The places that an ordered request will use. -/
def placesFor (s : State) (o : Op) : List Nat :=
  if isXfer o.ins then let t := touched s o; footPlaces s o.inst (t.1 ++ t.2) else placesAhead s o

/-- A port's queue holds 32 transfers. -/
def portRoom (s : State) (cl : Nat) : Bool := decide ((s.xfers.filter fun x => decide (x.ph = .port ∧ x.cl = cl)).length < 32)

/-- Just before an operation that conflicts with a completed transfer of its chain is performed, the V words of its L1 in
the transfer's write footprint become I, as by INV.REGION (R247, R306). -/
def dropXferV (o : Op) (s : State) : State :=
  match findInst s o.inst with
  | none => s
  | some i =>
    let t := touched s o
    let ws := (i.xdone.filter fun d => decide (d.1 = o.chain) && conflicts t d.2).flatMap fun d => d.2.2
    if ws.isEmpty || o.err.isSome then s
    else
      let s := invalidateV o.cl (fun w => decide (w.ctx = i.ctx) && ws.any (meets (w.va, 4))) s
      { s with ops := s.ops.map fun q => if q.cl = o.cl then { q with stale := true } else q }

end Sys2Proof.Machine
end

