-- ==== Sys2Proof/Machine/WaveOrder.lean ====
section
/-! DEFINITION. The wave-order units (R24 to R30): linking, what each kind of ordered request does when performed, and releases
that wait for what they cover (R241, R242). -/
namespace Sys2Proof.Machine

/-- linkable() of R26. -/
def linkable (th : Thread) (o : Op) : Bool :=
  let q := seqOf o.ins
  if o.tag.wave ≠ th.cw then false
  else
    match th.last with
    | none => decide (q.pred = 0x3FE#10)
    | some (own, succ) => if succ ≠ 0x3FF#10 then decide (q.own = succ) else decide (q.pred = own)

/-- CW and LAST after an operation (perform() of R26). -/
def linkThread (q : Seq) (th : Thread) : Thread :=
  if q.succ = 0x3FE#10 then { th with cw := th.cw + 1#24, last := none } else { th with last := some (q.own, q.succ) }

/-- A performed operation takes its place in its chain; what it depends on at its own places is sequenced before the rest of
the chain (R240). -/
def linkStep (o : Op) (s : State) : State :=
  let at_ := placesFor s o
  let c := (firingDeps (opFiring o)).filter fun d => present s d.1 && usesPlace at_ d.2
  modThr o.inst o.tag.thr (fun th =>
    let th := linkThread (seqOf o.ins) th
    { th with cov := (th.cov.filter (present s)) ++ c.map (·.1) }) (stamp o.id s)

/-! ### What a release covers -/

/-- Operations and transfers that a release covers (R242). -/
def coveredBy (s : State) (o : Op) : List Nat :=
  let chain := (s.ops.filter fun p =>
      decide (p.inst = o.inst ∧ p.chain = o.chain ∧ p.id ≠ o.id ∧ 0 < p.seqNo) && isOrdered p.ins).map (·.id)
  let xs := (s.xfers.filter fun p => decide (p.inst = o.inst ∧ p.chain = o.chain)).map (·.id)
  let at_ := placesFor s o
  let tok := ((firingDeps (opFiring o)).filter fun d => decide (d.2 = 1000) || usesPlace at_ d.2).map (·.1)
  chain ++ xs ++ (thrOf s o.inst o.tag.thr).cov ++ tok

/-- Table 11.3. -/
def completeAt (s : State) (sc : Scope) (id : Nat) : Bool :=
  match findOp s id with
  | none => (findX s id).isNone
  | some p =>
    match p.ph with
    | .done | .acks => decide (sc = .cl) || !(s.co.regOut.any fun r => r.ops.contains id)
    | .miss => isOwn p.ins && decide (sc = .cl) && p.left.isEmpty
    | _ => false
/-- A load's or atomic's value has been obtained (R241). -/
def obtained (s : State) (id : Nat) : Bool :=
  match findOp s id with
  | none => true
  | some p => !((isLoad p.ins || isRmw p.ins) && decide (p.ph = .miss))

/-- Whether an acquire fence or a release need wait no longer. -/
def released (s : State) (o : Op) : Bool :=
  let c := coveredBy s o
  (!isRelease o.ins || c.all (completeAt s (scopeOf o.ins))) && (!isFence o.ins || c.all (obtained s))

/-! ### Performing -/

/-- An earlier store of the chain has not written all that it is to write in a WBK's range, which covers whole sectors of D pages (R29, R233). -/
def storeAhead (s : State) (o : Op) (r : Nat × Nat) : Bool :=
  s.ops.any fun p =>
    decide (p.inst = o.inst ∧ p.chain = o.chain ∧ p.ph = .miss ∧ 0 < p.seqNo) && isOrdered p.ins && (needOf p.ins).wr &&
    p.left.any fun j => p.els[j]?.any fun y =>
      if y.kind = .s then inRange r y.va y.len else inRange r (y.va - y.va % 64) (y.va % 64 + y.len)
/-- Sectors that WBK acts on, by the L1's data of the context in the range (R233, R236): S-page words that are P or O, and
D-page sectors; and sectors that the L1 has just given up, on their way. -/
def wbkEls (s : State) (o : Op) (ctx : Nat) (r : Nat × Nat) : List El :=
  let ws := s.co.l1w.filter fun x => decide (x.cl = o.cl ∧ x.ctx = ctx ∧ x.st ≠ .v) && inRange r x.va 4
  let secs := (ws.map fun x => sectorOf x.pa).eraseDups
  let ds := s.co.l1d.filter fun x => decide (x.cl = o.cl ∧ x.ctx = ctx) && isEM x.st && !isHost x.pa && inRange r x.va 64
  (secs.map fun a => { va := ((ws.find? fun x => decide (sectorOf x.pa = a)).map fun x => x.va - x.va % 64).getD 0, pa := a, len := 64, kind := .s, key := 0 }) ++
    (ds.map fun x => { va := x.va, pa := x.pa, len := 64, kind := .d, key := x.key }) ++
    ((s.co.msgs.filter fun m => decide (m.src = .l1 o.cl) && !isHost m.pa && (match m.body with
      | .wb _ => true
      | .dret (some _) _ _ => true
      | _ => false)).map fun m => { va := 0, pa := m.pa, len := 64, kind := .d, key := m.key })

/-- WBK when performed (R236): O words of the range are written back at once; words whose registration is not over are remembered. -/
def wbkStart (o : Op) (r : Nat × Nat) (s : State) : State :=
  let ctx := ctxNoOf s o.inst
  let els := wbkEls s o ctx r
  let mine (x : L1Word) : Bool := decide (x.cl = o.cl ∧ x.ctx = ctx) && inRange r x.va 4
  let ps := (s.co.l1w.filter fun x => mine x && stays s x).map fun x => (x.pa, x.data, false)
  let s := els.foldl (fun s e =>
    let ws := (s.co.l1w.filter fun x => mine x && decide (x.st = .o ∧ sectorOf x.pa = e.pa)).map fun x => x.pa % 64 / 4
    writeBackWords o.cl e.pa ws true s) s
  let s := modOp o.id (fun p => { p with ph := .miss, els := els, left := List.range els.length, got := ps }) s
  attempt o.id s

/-- INV.REGION and INV.ALL when performed (R235): V words of the range become I; fills on their way cache nothing. -/
def invalidate (o : Op) (p : L1Word → Bool) (s : State) : State :=
  if !wide o.ins then s
  else
    let s := invalidateV o.cl p s
    { s with ops := s.ops.map fun q => if q.cl = o.cl then { q with stale := true } else q }

/-- A transfer performed in its chain goes to its engine's port (R252, R297). -/
def toPort (o : Op) (s : State) : State :=
  match findOp s o.id with
  | none => s
  | some p =>
    let x : Xfer :=
      { id := o.id, inst := o.inst, ctx := ctxNoOf s o.inst, place := o.place, tag := o.tag, ins := o.ins, req := o.a.payload,
        as_ := o.a.s, deps := firingDeps (opFiring o), cap := o.cap, cl := o.cl, ph := .port, arr := p.seqNo, chain := o.chain,
        seqNo := p.seqNo, rd := [], wr := [], hsel := 0, entry := 0#64, next := 0, idx := [], els := none,
        psnFrom := none, err := none, fl := 0#5, pins := [], act := none, todo := 0, replay := 0, ahead := [] }
    delOp o.id { s with xfers := s.xfers ++ [x] }

/-- A request that is linked, and that waits for nothing more, is performed (R26, R30, Table 1.3). A memory access may park,
or stay when its translation is not finished. -/
def performNow (o : Op) (s : State) : State :=
  match o.err with
  | some e => finish o.id (some e) (linkStep o s)
  | none =>
    match o.ins with
    | .mnop _ => finish o.id none (linkStep o s)
    | .fenceAcq _ | .fenceRel _ | .fenceAr _ | .fenceSc _ =>
      let s := finish o.id none (linkStep o s)
      if isAcquire o.ins && wide o.ins then acquireL1 o.cl s else s
    | .invAll _ => finish o.id none (linkStep o (invalidate o (fun _ => true) s))
    | .invRegion _ =>
      (match invRange o with
       | none => finish o.id (some (errPerm (o.a.payload.setWidth 64).toNat)) (linkStep o s)
       | some r =>
         let ctx := ctxNoOf s o.inst
         finish o.id none (linkStep o (invalidate o (fun x => decide (x.ctx = ctx) && inRange r x.va 4) s)))
    | .wbk _ =>
      (match invRange o with
       | none => finish o.id (some (errPerm (o.a.payload.setWidth 64).toNat)) (linkStep o s)
       | some r =>
         if !wide o.ins then finish o.id none (linkStep o s)
         else if storeAhead s o r then s
         else wbkStart o r (linkStep o s))
    | .ftset _ => modOp o.id (fun p => { p with ph := .ftset }) s
    | .xcopy _ | .xgath _ | .xscat _ | .xtile _ | .xfill _ | .xacc _ => toPort o (linkStep o s)
    | _ =>
      let r := startOf o s
      match r.1 with
      | .wait | .parked => r.2
      | .fail e => finish o.id (some e) (linkStep o r.2)
      | .go els =>
        let s := linkStep { o with els := els } r.2
        let s := if isAcquire o.ins then modThr o.inst o.tag.thr (fun th => { th with acq := some o.id }) s else s
        begin_ o els s

/-- A linkable request: a release or acquire fence first waits for what it covers. -/
def performOrdered (o : Op) (s : State) : State :=
  if o.err.isNone && !released s o then modOp o.id (fun p => { p with ph := .release }) s else performNow o s

/-! ### The unit -/

/-- The thread performs nothing while it is a caller, while an acquire of its chain has no value yet, or while a request of
it is linked and not performed or parked (R160, R241, R352). -/
def threadOpen (s : State) (o : Op) : Bool :=
  let th := thrOf s o.inst o.tag.thr
  decide (th.st ≠ .caller) && th.acq.isNone &&
  !(s.ops.any fun p => decide (p.inst = o.inst ∧ p.tag.thr = o.tag.thr ∧ p.id ≠ o.id) &&
    (match p.ph with
     | .release | .ftset => true
     | .parked _ => isOrdered p.ins
     | _ => false))

/-- A request that the unit could perform now. -/
def canLink (s : State) (o : Op) : Bool := threadOpen s o && linkable (thrOf s o.inst o.tag.thr) o

/-- R28: lowest OWN, then earliest arrival. -/
def goesBefore (p o : Op) : Bool :=
  decide ((seqOf p.ins).own < (seqOf o.ins).own) || (decide ((seqOf p.ins).own = (seqOf o.ins).own) && decide (p.arr < o.arr))
def isNext (s : State) (o : Op) : Bool :=
  canLink s o && !(s.ops.any fun p =>
    decide (p.inst = o.inst ∧ p.tag.thr = o.tag.thr ∧ p.ph = .wouPend ∧ p.id ≠ o.id) && canLink s p && goesBefore p o)

/-- Pending entries in use at a cluster's unit (R27, R352). -/
def pendingAtUnit (s : State) (cl : Nat) : Nat :=
  (s.ops.filter fun p => decide (p.cl = cl) &&
    (match p.ph with
     | .wouPend | .release | .ftset | .callHold | .retHold => true
     | .parked _ => parksAtUnit p.ins
     | _ => false)).length

/-- A transfer's port has room (R297), and no earlier transfer of the chain holds the operation back (R306). -/
def mayPerform (s : State) (o : Op) : Bool := (!isXfer o.ins || portRoom s o.cl) && !heldByXfer s o

/-- ORDERED_REQUEST: performed when it is the next linkable one and no transfer holds it back; else it takes a pending entry, or waits outside (R27). -/
def execOrderedRequest (op : Nat) (s : State) : Out :=
  match findOp s op with
  | none => .next s
  | some o =>
    if o.ph ≠ .wouNet ∧ o.ph ≠ .wouOut ∧ o.ph ≠ .wouPend then .next s
    else if isNext s o ∧ mayPerform s o ∧ !halting s o.inst then .next (freeEnded o.inst (performOrdered o (dropXferV o s)))
    else if o.ph ≠ .wouPend ∧ pendingAtUnit s o.cl < 256 then
      .next (modOp op (fun p => { p with ph := .wouPend, arr := s.nextId }) { s with nextId := s.nextId + 1 })
    else if o.ph = .wouNet then .next (modOp op (fun p => { p with ph := .wouOut }) s)
    else .next s

/-- RELEASE_PERFORMED. -/
def releaseStep (op : Nat) (s : State) : State :=
  match findOp s op with
  | none => s
  | some o => if o.ph = .release && released s o && !halting s o.inst then freeEnded o.inst (performNow o s) else s
def execReleasePerformed (op : Nat) (s : State) : Out := .next (releaseStep op s)

end Sys2Proof.Machine
end

