-- ==== Sys2Proof/Machine/FormatTable.lean ====
section
/-! DEFINITION. The format-table group (R89 to R96) and the atomic group's firings (R255 to R261). -/
namespace Sys2Proof.Machine

def execFtset (r : MemRec) (s : State) : Out := .next (memFire (.ftset r) [] none s)

/-- FTSET_PERFORMED: the new entry takes effect whole, and the old one is the result; a malformed one changes nothing
(R91, R94). -/
def ftsetDone (o : Op) (r : MemRec) (s : State) : State :=
  let e : W64 := o.a.payload.setWidth 64
  let k := r.fs.toNat
  let s1 := linkStep o s
  if fmtMalformed e then finish o.id (some (errIllfmt k)) s1
  else
    let old := fmtOf s1 o.inst k
    let s2 := modInst o.inst (fun i => { i with fmt := i.fmt.set k e }) s1
    modOp o.id (fun p => { p with val := old.setWidth 256 }) (finish o.id none s2)
def execFtsetPerformed (op : Nat) (s : State) : Out :=
  match findOp s op with
  | none => .next s
  | some o =>
    match o.ins with
    | .ftset r => .next (if o.ph = .ftset then freeEnded o.inst (ftsetDone o r s) else s)
    | _ => .next s

/-- R95. -/
def execFtget (fs : BitVec 5) (t : List Target) (s : State) : Out :=
  unlessErr (.ftget fs t) (fun s => emit64 s.firing (.ftget fs t) (fmtOf s s.firing.inst fs.toNat) s) s

/-- R96: it notes the entry in force and emits at once, or waits for captures of another value. -/
def ftsync (fs : BitVec 5) (r : CtlRec) (s : State) : State :=
  let n := newOp (.ftsync fs r) .sync (firingCl s) [] s
  let s1 := modOp n.1 (fun o => { o with act := some (fs.toNat, fmtOf s s.firing.inst fs.toNat) }) n.2
  match findOp s1 n.1 with
  | some o => if syncReady s1 o then emitDone o s1 else s1
  | none => s1
def execFtsync (fs : BitVec 5) (r : CtlRec) (s : State) : Out := unlessErr (.ftsync fs r) (ftsync fs r) s

/-! ### Atomics fire -/

/-- The slot that an atomic names, unless its own rule accepts it (R256, R260, R261). -/
def rmwSlot (s : State) (r : MemRec) (uses : Bool) (ok : W64 → Bool) : List Nat × Option Nat :=
  if uses then ([r.fs.toNat], if ok (fmtOf s s.firing.inst r.fs.toNat) then none else some r.fs.toNat) else ([], none)
def execAmo (fn : AmoFn) (r : MemRec) (s : State) : Out :=
  let k := rmwSlot s r (amoFloat fn) (amoSlotOk (sizeBytes r.size))
  .next (memFire (.amo fn r) k.1 k.2 s)
def execRed (fn : AmoFn) (r : MemRec) (s : State) : Out :=
  let k := rmwSlot s r (amoFloat fn) (amoSlotOk (sizeBytes r.size))
  .next (memFire (.red fn r) k.1 k.2 s)
def execCas (r : MemRec) (s : State) : Out := .next (memFire (.cas r) [] none s)
def execXred (r : MemRec) (s : State) : Out :=
  let k := rmwSlot s r true xredSlotOk
  .next (memFire (.xred r) k.1 k.2 s)
def execXrd (r : MemRec) (s : State) : Out :=
  let k := rmwSlot s r true xrdSlotOk
  .next (memFire (.xrd r) k.1 k.2 s)

end Sys2Proof.Machine
end

