-- ==== Sys2Proof/Machine/Tokens.lean ====
section
/-! DEFINITION. Matching stores (R9 to R16, R176 to R180): partial sets, which are spilled, where a token that arrives goes,
and the two steps that only change which ready record is chosen. -/
namespace Sys2Proof.Machine

/-! ### Partial sets -/

def PSet.get (x : PSet) : Pos → Option Tok
  | .a => x.a
  | .b => x.b
  | .c => x.c
def PSet.put (x : PSet) (p : Pos) (t : Tok) : PSet :=
  match p with
  | .a => { x with a := some t }
  | .b => { x with b := some t }
  | .c => { x with c := some t }
def posNo : Pos → Nat
  | .a => 0
  | .b => 1
  | .c => 2
/-- Tokens that a set holds: each takes one spill record (R177). -/
def PSet.size (x : PSet) : Nat := ([x.a, x.b, x.c].filterMap id).length
def PSet.mine (p : Place) (t : Tag) (x : PSet) : Bool := decide (x.place = p ∧ x.tag = t)
def PSet.at_ (p : Place) (x : PSet) : Bool := decide (x.place.x = p.x ∧ x.place.y = p.y ∧ x.place.pe = p.pe)

/-- Every token-fed position of the record is filled (R13). -/
def setComplete (i : Inst) (x : PSet) : Bool :=
  match slotInstr i x.place with
  | none => false
  | some r => [Pos.a, .b, .c].all fun p => !tokenFed r p || (x.get p).isSome

/-- BASE of a thread at a PE, 0 until it is first brought up to date (R179; assumption 25). -/
def baseOf (i : Inst) (p : Place) (t : BitVec 16) : BitVec 24 :=
  ((i.bases.find? fun b => decide (b.1 = rowIdx i p ∧ b.2.1 = p.pe ∧ b.2.2.1 = t)).map (·.2.2.2)).getD 0#24
/-- Window-relative wave (R179). -/
def wrel (i : Inst) (p : Place) (t : Tag) : Nat := (t.wave - baseOf i p t.thr).toNat

/-- Order of keys (window-relative wave, THR, slot): a below b. -/
def keyOf (i : Inst) (p : Place) (t : Tag) : Nat := (wrel i p t * 65536 + t.thr.toNat) * 8 + p.slot

/-! ### Spilling (R176 to R178) -/

def residentAt (i : Inst) (p : Place) : List PSet := i.sets.filter fun x => !x.spilled && x.at_ p
/-- Spill records in use. -/
def spillUsed (i : Inst) : List Nat := i.sets.flatMap fun x => x.recs.map (·.2)
def spillFree (i : Inst) : Nat := i.spillN / 64 - (spillUsed i).length
/-- The lowest-numbered free records (assumption 36). -/
def freeRecs (i : Inst) (n : Nat) : List Nat :=
  ((List.range ((spillUsed i).length + n)).filter fun k => decide (k < i.spillN / 64) && !(spillUsed i).contains k).take n
/-- A set spilled whole: each of its tokens has a record (R178). -/
def spillOf (i : Inst) (x : PSet) : PSet :=
  { x with spilled := true, since := 0,
           recs := (([Pos.a, .b, .c].filter fun q => (x.get q).isSome).map posNo).zip (freeRecs i x.size) }

/-- The position in the list of the victim among the resident sets of a PE, those of slot p and tag t apart: the highest
key, the most recent arrival among equal ones. -/
def victimIdx (i : Inst) (p : Place) (t : Tag) : Option Nat :=
  (List.range i.sets.length).foldl (fun m k =>
    match i.sets[k]? with
    | none => m
    | some x =>
      if x.spilled || !x.at_ p || x.mine p t then m
      else
        match m.bind fun j => i.sets[j]? with
        | none => some k
        | some y => if keyOf i y.place y.tag ≤ keyOf i x.place x.tag then some k else m) none

def spillAt (k : Nat) (i : Inst) : Inst := { i with sets := i.sets.modify k (spillOf i) }

/-- Where a token that has arrived goes. -/
inductive Goes where
  /-- it joins the set at this place of the list -/
  | joins (k : Nat)
  /-- it opens a new set -/
  | opens
  /-- spilled sets of its slot and tag must be refilled first (R177) -/
  | refill
  deriving DecidableEq, Repr

/-- R176, R177. -/
def whereTo (i : Inst) (p : Place) (t : Tag) (o : Pos) : Goes :=
  let mine (k : Nat) : Bool := (i.sets[k]?).any fun x => x.mine p t
  let free (k : Nat) : Bool := (i.sets[k]?).any fun x => (x.get o).isNone
  let spilled (k : Nat) : Bool := (i.sets[k]?).any (·.spilled)
  match (List.range i.sets.length).find? fun k => mine k && free k && !spilled k with
  | some k => .joins k
  | none => if (List.range i.sets.length).any fun k => mine k && spilled k then .refill else .opens

/-- What making room at a PE comes to. -/
inductive Room where
  /-- an entry is free, or a victim has been spilled -/
  | ok (i : Inst)
  /-- the new set itself is the victim and is spilled -/
  | itself
  /-- no spill records: nothing changes and the token is discarded (R178) -/
  | full
  /-- no candidate: the token waits outside -/
  | wait
  deriving DecidableEq, Repr

/-- Room for a set of slot p and tag t; `fresh` is the size of a new set, 0 for one that is refilled. -/
def makeRoom (i : Inst) (p : Place) (t : Tag) (fresh : Nat) : Room :=
  if (residentAt i p).length < 64 then .ok i
  else
    match victimIdx i p t with
    | none => if 0 < fresh then (if fresh ≤ spillFree i then .itself else .full) else .wait
    | some k =>
      match i.sets[k]? with
      | none => .wait
      | some v =>
        if 0 < fresh ∧ keyOf i v.place v.tag ≤ keyOf i p t then (if fresh ≤ spillFree i then .itself else .full)
        else if v.size ≤ spillFree i then .ok (spillAt k i) else .full

/-! ### Arrival -/

/-- What a token descends from, as its `deps` name it beside memory operations: the step in which tokens were sent, and their source
(assumption 51). -/
def sourceNo : Src → Nat
  | .slot p => 4096 + 2 * (((p.x * 16 + p.y) * 32 + p.pe) * 8 + p.slot)
  | .xfer id => 4097 + 2 * id
  | .inject => 4095
def sentKey (f : Flight) : Nat × Nat := (f.sent, sourceNo f.src)
/-- The n-th flight, when no earlier one of its source goes to its position (R15), and none that it descends from (R202;
assumption 51). -/
def landing (s : State) (n : Nat) : Option Flight :=
  match s.flights[n]? with
  | none => none
  | some f =>
    if (s.flights.take n).any fun g => decide (g.inst = f.inst ∧ g.dst = f.dst ∧ g.opnd = f.opnd) &&
        (decide (g.src = f.src) || f.tok.deps.contains (sentKey g)) then none
    else some f
/-- The token as it arrives: it descends from the tokens sent with it, as far as they are still on their way. -/
def landed (s : State) (n : Nat) (f : Flight) : Flight :=
  let on := (s.flights.eraseIdx n).filter fun g => decide (g.inst = f.inst)
  { f with tok := { f.tok with deps := (f.tok.deps ++ [sentKey f]).filter fun d => decide (d.2 < 4095) || on.any fun g => decide (sentKey g = d) } }
/-- A token has been received: it is in transit no longer. -/
def received (n : Nat) (f : Flight) (s : State) : State :=
  bumpNode f.inst (placeNode s f.inst f.dst) 0 1 { s with flights := s.flights.eraseIdx n }
/-- A discarded token (R178). -/
def discardTok (f : Flight) (s : State) : State := recordError f.inst 0x0B#8 f.tok.tag f.dst s

/-- A new set that holds one token. -/
def newSet (f : Flight) : PSet :=
  PSet.put { place := f.dst, tag := f.tok.tag, a := none, b := none, c := none, spilled := false, since := 0, recs := [] } f.opnd f.tok

/-- The number of the token that waits for a refill of a slot and tag, if any. -/
def waitsRefill (s : State) (i : Inst) (p : Place) (t : Tag) : Option Nat :=
  (List.range s.flights.length).find? fun n =>
    match landing s n with
    | some f => decide (f.inst = i.iid ∧ f.dst = p ∧ f.tok.tag = t) && decide (whereTo i p t f.opnd = .refill)
    | none => false

/-! ### Choice of the record that fires -/

/-- CW_COPY_UPDATE: a PE's copy of CW(t) becomes the wave-order unit's (R179). `cl` is the image-relative index. -/
def execCwCopyUpdate (inst cl pe : Nat) (thr : BitVec 16) (s : State) : Out :=
  let cw := (thrOf s inst thr).cw
  .next (modInst inst (fun i =>
    if cl < i.w * i.h ∧ pe < 32 then
      { i with bases := (i.bases.filter fun b => !(decide (b.1 = cl ∧ b.2.1 = pe ∧ b.2.2.1 = thr))) ++ [(cl, pe, thr, cw)] }
    else i) s)

/-- The oldest set of a slot and tag, complete and resident: its record is ready (R176). -/
def readySets (i : Inst) : List PSet :=
  i.sets.filter fun x => !x.spilled && setComplete i x &&
    ((i.sets.find? fun y => y.mine x.place x.tag) == some x)

/-- Counts of the 1 GHz timestamp in which a PE at 1.4 GHz passes 4,096 cycles (R180, Table 0.1). -/
def ageCounts : Nat := (4096 * 1000 + 1399) / 1400
/-- Ready for 4,096 cycles or more without having been chosen (R180). -/
def aged (now : Nat) (x : PSet) : Bool := decide (0 < x.since ∧ x.since + ageCounts ≤ now + 1)
/-- AGE_OVERRIDE (R180): the record of a PE that has been ready longest, for 4,096 cycles or more, is chosen before any that
became ready after it. -/
def ageOverride (i : Inst) (cl pe : Nat) (s : State) : State :=
  let old := (readySets i).filter fun x =>
    decide (instCl i x.place = cl ∧ x.place.pe = pe) && aged s.time x && !(i.forced.contains (x.place, x.tag))
  match old.foldl (fun (m : Option PSet) x =>
      match m with
      | none => some x
      | some y => if x.since < y.since then some x else some y) none with
  | none => s
  | some x => modInst i.iid (fun j => { j with forced := j.forced ++ [(x.place, x.tag)] }) s
def execAgeOverride (cl pe : Nat) (s : State) : Out :=
  match instAt s cl with
  | none => .next s
  | some i => .next (ageOverride i cl pe s)

end Sys2Proof.Machine
end

