-- ==== Sys2Proof/Machine/Float.lean ====
section
/-! DEFINITION. The float group (R134 to R149): each lane's operands are prepared, the result is exact, and it is encoded
once. -/
namespace Sys2Proof.Machine

/-- The path of a float record (R135): the scalar PE, or the vector lanes. -/
def pathOk (v : Bool) (e : W64) : Bool := if v then acceptLanes e else acceptScalar e

/-- The first of the named slots that the path does not accept (R88). -/
def badSlot (ok : W64 → Bool) (s : State) (slots : List Nat) : Option Nat :=
  slots.find? fun k => !ok (fmtOf s s.firing.inst k)

/-- R17, then the format checks of R88 in the order given, then the effect. -/
def withFormats (i : Instr) (v : Bool) (slots : List Nat) (body : State → State) (s : State) : Out :=
  unlessErr i (fun s =>
    match badSlot (pathOk v) s slots with
    | some k => emitErr s.firing i (errIllfmt k) s
    | none => body s) s

/-- A lane's code and flags from the three operand codes. -/
abbrev LaneFn := Nat → Nat → Nat → Nat × Flags

/-- All lanes of a float record: results side by side, flags ORed (R135, R188). -/
def fltLanes (w n : Nat) (f : LaneFn) (x : Firing) : W256 × Flags :=
  let l := (List.range n).map fun i => f (laneOf w x.a.payload i) (laneOf w x.b.payload i) (laneOf w x.c.payload i)
  (ofLanes w (l.map (·.1)), l.foldl (fun a r => a ||| r.2) 0#5)

/-- The result of a float firing: flags raised, one token under the firing tag. -/
def fltEmit (x : Firing) (i : Instr) (r : W256 × Flags) (s : State) : State := emitVal x i r.1 (raise x.inst r.2 s)

/-- A float record whose result lies in the container of FS, with its lane function given FS's entry. -/
def fltOp (i : Instr) (r : FltRec) (f : W64 → LaneFn) (s : State) : Out :=
  withFormats i r.v [r.fs.toNat] (fun s =>
    let e := fmtOf s s.firing.inst r.fs.toNat
    fltEmit s.firing i (fltLanes (fltW r.v e) (fltN r.v e) (f e) s.firing) s) s

/-- Encoding a lane's exact result under FS (R136). -/
def encLane (e : W64) (r : FltRec) (x : Val × Flags) (fl : Flags) : Nat × Flags :=
  let y := encodeVal e (rmOr r.rm e) r.sat x.1
  (y.1, y.2 ||| x.2 ||| fl)

/-- R136 for one, two and three operands; `rdn` says whether zero sums are negative. -/
def lane1 (r : FltRec) (op : Val → Val × Flags) (e : W64) : LaneFn := fun a _ _ =>
  let x := prepVal e r.na a
  encLane e r (op x.1) x.2
def lane2 (r : FltRec) (op : Bool → Val → Val → Val × Flags) (e : W64) : LaneFn := fun a b _ =>
  let x := prepVal e r.na a
  let y := prepVal e r.nb b
  encLane e r (op (decide (rmOr r.rm e = .rdn)) x.1 y.1) (x.2 ||| y.2)
def lane3 (r : FltRec) (op : Bool → Val → Val → Val → Val × Flags) (e : W64) : LaneFn := fun a b c =>
  let x := prepVal e r.na a
  let y := prepVal e r.nb b
  let z := prepVal e r.nc c
  encLane e r (op (decide (rmOr r.rm e = .rdn)) x.1 y.1 z.1) (x.2 ||| y.2 ||| z.2)

def execFadd (r : FltRec) (s : State) : Out := fltOp (.fadd r) r (lane2 r opAdd) s
def execFsub (r : FltRec) (s : State) : Out := fltOp (.fsub r) r (lane2 r opSub) s
def execFmul (r : FltRec) (s : State) : Out := fltOp (.fmul r) r (lane2 r fun _ => opMul) s

/-- The sign combinations of FMA's FN (Table 6.1): negate the product, negate c. -/
def fmaSigns : FmaFn → Bool × Bool
  | .pp => (false, false)
  | .pn => (false, true)
  | .np => (true, false)
  | .nn => (true, true)
def execFma (fn : FmaFn) (r : FltRec) (s : State) : Out :=
  fltOp (.fma fn r) r (lane3 r fun rdn => opFma rdn (fmaSigns fn).1 (fmaSigns fn).2) s

/-- FDIV, FSQRT, FRCP, FRSQ, FEXP2 and FLOG2 start on the PE's iterative unit with their captured entry (R139, R89). -/
def iterFire (i : Instr) (r : FltRec) (s : State) : Out :=
  withFormats i r.v [r.fs.toNat] (fun s =>
    (newOp i .iter (firingCl s) (capture s s.firing.inst [r.fs.toNat]) s).2) s
def execFdiv (r : FltRec) (s : State) : Out := iterFire (.fdiv r) r s
def execFsqrt (r : FltRec) (s : State) : Out := iterFire (.fsqrt r) r s
def execFrcp (r : FltRec) (s : State) : Out := iterFire (.frcp r) r s
def execFrsq (r : FltRec) (s : State) : Out := iterFire (.frsq r) r s
def execFexp2 (r : FltRec) (s : State) : Out := iterFire (.fexp2 r) r s
def execFlog2 (r : FltRec) (s : State) : Out := iterFire (.flog2 r) r s

/-- The record and lane function of an iterative operation. -/
def iterLane (i : Instr) (e : W64) : Option (FltRec × LaneFn) :=
  match i with
  | .fdiv r => some (r, lane2 r (fun _ => opDiv) e)
  | .fsqrt r => some (r, lane1 r opSqrt e)
  | .frcp r => some (r, lane1 r opRcp e)
  | .frsq r => some (r, lane1 r opRsq e)
  | .fexp2 r => some (r, lane1 r opExp2 e)
  | .flog2 r => some (r, lane1 r opLog2 e)
  | _ => none

/-- ITERATIVE_FLOAT_COMPLETE: the correctly rounded result and its flags; the unit is free again (R139, R87). -/
def execIterativeFloatComplete (op : Nat) (s : State) : Out :=
  match findOp s op with
  | none => .next s
  | some o =>
    let e := (o.cap.head?.map (·.2)).getD 0#64
    match iterLane o.ins e with
    | some (r, f) =>
      .next (if o.ph = .iter then
        delOp op (fltEmit (opFiring o) o.ins (fltLanes (fltW r.v e) (fltN r.v e) f (opFiring o)) s) else s)
    | none => .next s

/-- R140. -/
def minMaxLane (r : FltRec) (mx num : Bool) (e : W64) : LaneFn := fun a b _ =>
  let x := prepVal e r.na a
  let y := prepVal e r.nb b
  let z := encodeVal e (rmOfEntry e) false (opMinMax mx num x.1 y.1)
  (z.1, z.2 ||| x.2 ||| y.2)
def execFminNum (r : FltRec) (s : State) : Out := fltOp (.fminNum r) r (minMaxLane r false true) s
def execFminIeee (r : FltRec) (s : State) : Out := fltOp (.fminIeee r) r (minMaxLane r false false) s
def execFmaxNum (r : FltRec) (s : State) : Out := fltOp (.fmaxNum r) r (minMaxLane r true true) s
def execFmaxIeee (r : FltRec) (s : State) : Out := fltOp (.fmaxIeee r) r (minMaxLane r true false) s

/-- FNEG of a code (Table 6.3). -/
def negCode (e : W64) (c : Nat) : Nat × Flags :=
  let x := c % 2 ^ fW e
  if fS e = 0 then (x, 0#5)
  else if fEW e = 0 then encodeVal e (rmOfEntry e) false (decodeVal e x).neg
  else (x ^^^ 2 ^ (fW e - 1), 0#5)
def negIf (b : Bool) (e : W64) (c : Nat) : Nat × Flags := if b then negCode e c else (c % 2 ^ fW e, 0#5)

/-- FABS of a code (Table 6.3). -/
def absCode (e : W64) (c : Nat) : Nat × Flags :=
  let x := c % 2 ^ fW e
  if fS e = 0 then (x, 0#5)
  else if fEW e = 0 then encodeVal e (rmOfEntry e) false (decodeVal e x).abs
  else (x % 2 ^ (fW e - 1), 0#5)

/-- FCPS of two codes (Table 6.3); in the last column the encoded magnitude is negated (assumption 14). -/
def cpsCode (e : W64) (a b : Nat) : Nat × Flags :=
  let x := absCode e a
  if fS e = 0 then (a % 2 ^ fW e, 0#5)
  else if fEW e = 0 then
    match decodeVal e b with
    | .fin true _ _ => ((2 ^ fW e - x.1) % 2 ^ fW e, x.2)
    | _ => x
  else (x.1 + (b % 2 ^ fW e / 2 ^ (fW e - 1)) * 2 ^ (fW e - 1), 0#5)

def execFabs (r : FltRec) (s : State) : Out :=
  fltOp (.fabs r) r (fun e a _ _ =>
    let x := negIf r.na e a
    let y := absCode e x.1
    (y.1, y.2 ||| x.2)) s
def execFneg (r : FltRec) (s : State) : Out :=
  fltOp (.fneg r) r (fun e a _ _ =>
    let x := negIf r.na e a
    let y := negCode e x.1
    (y.1, y.2 ||| x.2)) s
def execFcps (r : FltRec) (s : State) : Out :=
  fltOp (.fcps r) r (fun e a b _ =>
    let x := negIf r.na e a
    let y := negIf r.nb e b
    let z := cpsCode e x.1 y.1
    (z.1, z.2 ||| x.2 ||| y.2)) s

/-- Table 6.4. -/
def fcmpHolds (rel : FcmpRel) (a b : Val) : Bool :=
  let un := a.isNan || b.isNan
  match rel with
  | .eq => !un && !vlt a b && !vlt b a
  | .ne => un || vlt a b || vlt b a
  | .lt => !un && vlt a b
  | .le => !un && !vlt b a
  | .gt => !un && vlt b a
  | .ge => !un && !vlt a b
  | .un => un
  | .or => !un
def fcmpFlags (rel : FcmpRel) (a b : Val) : Flags :=
  match rel with
  | .lt | .le | .gt | .ge => if a.isNan || b.isNan then flNV else 0#5
  | _ => 0#5
def execFcmp (rel : FcmpRel) (r : FltRec) (s : State) : Out :=
  fltOp (.fcmp rel r) r (fun e a b _ =>
    let x := prepVal e r.na a
    let y := prepVal e r.nb b
    (if fcmpHolds rel x.1 y.1 then 1 else 0, x.2 ||| y.2 ||| fcmpFlags rel x.1 y.1)) s

/-- The entry with SUBN = 0: the code as stored. -/
def keepSubn (e : W64) : W64 := e &&& ~~~(0x300000000#64)

/-- Table 6.5. -/
def classOf (e : W64) (c : Nat) : Nat :=
  let sg (v : Bool) (p : Nat) : Nat := if v then p + 1 else p
  match decodeVal (keepSubn e) c with
  | .nan _ g => if g then 9 else 8
  | .inf s => sg s 6
  | .zero s => sg s 0
  | .fin s _ _ =>
    if fEW e = 0 ∨ fSPV e = 3 then sg s 4
    else if c % 2 ^ fW e / 2 ^ fFW e % 2 ^ fEW e = 0 then sg s 2 else sg s 4
def execFcls (r : FltRec) (s : State) : Out := fltOp (.fcls r) r (fun e a _ _ => (classOf e a, 0#5)) s

/-- R144: convert() from FS to D; lane containers of a vector form must be of equal width, else ILLFMT names the destination slot (the model's choice:
R144, R88 and Table 16.10 do not say which; assumption 47). -/
def execFcvtFf (dst : BitVec 5) (r : FltRec) (s : State) : Out :=
  withFormats (.fcvtFf dst r) r.v [r.fs.toNat, dst.toNat] (fun s =>
    let e := fmtOf s s.firing.inst r.fs.toNat
    let d := fmtOf s s.firing.inst dst.toNat
    if r.v ∧ containerOf e ≠ containerOf d then emitErr s.firing (.fcvtFf dst r) (errIllfmt dst.toNat) s
    else fltEmit s.firing (.fcvtFf dst r)
      (fltLanes (fltW r.v e) (fltN r.v e) (fun a _ _ => convertCode e d r.rm r.sat a) s.firing) s) s

/-- R145: to a 64-bit integer between lo and hi. -/
def toIntVal (rm : Rm) (lo hi : Int) (v : Val) : Int × Flags :=
  match v with
  | .nan _ _ => (0, flNV)
  | .inf s => (if s then lo else hi, flNV)
  | _ =>
    let n := roundToInt rm v
    if n.1 < lo then (lo, flNV) else if n.1 > hi then (hi, flNV) else (n.1, if n.2 then flNX else 0#5)
def toInt (i : Instr) (r : FltRec) (lo hi : Int) (s : State) : Out :=
  withFormats i r.v [r.fs.toNat] (fun s =>
    let e := fmtOf s s.firing.inst r.fs.toNat
    let n := toIntVal (rmOr r.rm e) lo hi (decodeVal e (a64 s.firing).toNat)
    emit64 s.firing i (BitVec.ofInt 64 n.1) (raise s.firing.inst n.2 s)) s
def execFcvtFi (r : FltRec) (s : State) : Out := toInt (.fcvtFi r) r (-(2 ^ 63)) (2 ^ 63 - 1) s
def execFcvtFiu (r : FltRec) (s : State) : Out := toInt (.fcvtFiu r) r 0 (2 ^ 64 - 1) s

/-- R146: from a 64-bit integer. -/
def fromInt (i : Instr) (dst : BitVec 5) (r : FltRec) (n : W64 → Int) (s : State) : Out :=
  withFormats i r.v [dst.toNat] (fun s =>
    let d := fmtOf s s.firing.inst dst.toNat
    let x := encodeVal d (rmOr r.rm d) r.sat (valOfInt (n (a64 s.firing)) 0)
    emit64 s.firing i (BitVec.ofNat 64 x.1) (raise s.firing.inst x.2 s)) s
def execFcvtIf (dst : BitVec 5) (r : FltRec) (s : State) : Out := fromInt (.fcvtIf dst r) dst r (·.toInt) s
def execFcvtIuf (dst : BitVec 5) (r : FltRec) (s : State) : Out := fromInt (.fcvtIuf dst r) dst r (fun a => (a.toNat : Int)) s

/-- R147: to an integral value in the same format. -/
def frndVal (m : Rm) (v : Val) : Val :=
  match v with
  | .fin s _ _ =>
    let n := (roundToInt m v).1
    if n = 0 then .zero s else valOfInt n 0
  | v => v
def execFrnd (m : Rm) (r : FltRec) (s : State) : Out :=
  fltOp (.frnd m r) r (fun e a _ _ =>
    let x := prepVal e r.na a
    let y := encodeVal e .rne false (frndVal m x.1)
    (y.1, y.2 ||| x.2)) s

/-- R148: a · 2^n. Exponents of every entry lie well within ±2^13, so n is taken within ±2^16. -/
def sclVal (v : Val) (n : Int) : Val :=
  match v with
  | .fin s m e => .fin s m (e + max (-65536) (min 65536 n))
  | v => v
def execFscl (r : FltRec) (s : State) : Out :=
  fltOp (.fscl r) r (fun e a b _ =>
    let x := prepVal e r.na a
    encLane e r (sclVal x.1 (sgn (fltW r.v e) b), 0#5) x.2) s

/-- R149, in a lane of width w; a value that the lane cannot hold is free (assumption 13). -/
def fxpLaneOf (e : W64) (w a : Nat) : Nat :=
  match decodeVal e a with
  | .zero _ => unsgn w (-(2 ^ (w - 1)))
  | .fin _ m x =>
    let t := topOf m x
    if -(2 ^ (w - 1)) ≤ t ∧ t < 2 ^ (w - 1) then unsgn w t else Config.fxpLane e a
  | _ => 2 ^ (w - 1) - 1
def execFxp (r : FltRec) (s : State) : Out :=
  fltOp (.fxp r) r (fun e a _ _ => (fxpLaneOf e (fltW r.v e) a, sigFlag (decodeVal e a))) s

end Sys2Proof.Machine
end

