-- ==== Sys2Proof/Machine/Vector.lean ====
section
/-! DEFINITION. The vector group (R185 to R201): moving lanes, sums in a fixed tree, width changes and block scales. -/
namespace Sys2Proof.Machine

/-- The lane-moving instructions take any valid entry; FS fixes only the container (R187). -/
def moveOp (i : Instr) (r : VecRec) (f : Nat → Nat → State → W256) (s : State) : Out :=
  withFormats i false [r.fs.toNat] (fun s =>
    let c := containerOf (fmtOf s s.firing.inst r.fs.toNat)
    emitVal s.firing i (f c (256 / c) s) s) s

/-- Table 8.3. -/
def execVbcast (r : VecRec) (s : State) : Out :=
  moveOp (.vbcast r) r (fun c n s => ofLanes c (List.replicate n (a64 s.firing).toNat)) s
def execVlaneGet (r : VecRec) (s : State) : Out :=
  moveOp (.vlaneGet r) r (fun c n s => BitVec.ofNat 256 (laneOf c s.firing.a.payload ((b64 s.firing).toNat % n))) s
def execVlanePut (r : VecRec) (s : State) : Out :=
  moveOp (.vlanePut r) r (fun c n s =>
    let k := (b64 s.firing).toNat % n
    ofLanes c ((List.range n).map fun i => if i = k then (c64 s.firing).toNat else laneOf c s.firing.a.payload i)) s

/-- R193: output unit j is a source unit of a, then b. -/
def shufUnits (c : Nat) (pat : W32) (a b : W256) : W256 :=
  let u := if c = 64 then 64 else 32
  let k := 256 / u
  ofLanes u ((List.range k).map fun j =>
    let q := pat.toNat / 2 ^ (4 * j) % (2 * k)
    if q < k then laneOf u a q else laneOf u b (q - k))
def execVshuf (pat : W32) (r : VecRec) (s : State) : Out :=
  moveOp (.vshuf pat r) r (fun c _ s => shufUnits c pat s.firing.a.payload s.firing.b.payload) s

/-- VPERM; a 4-bit container gives ILLFMT (R192). -/
def execVperm (r : VecRec) (s : State) : Out :=
  withFormats (.vperm r) false [r.fs.toNat] (fun s =>
    let c := containerOf (fmtOf s s.firing.inst r.fs.toNat)
    let n := 256 / c
    if c < 8 then emitErr s.firing (.vperm r) (errIllfmt r.fs.toNat) s
    else emitVal s.firing (.vperm r)
      (ofLanes c ((List.range n).map fun i => laneOf c s.firing.a.payload (laneOf c s.firing.b.payload i % n))) s) s
def execVmask (r : VecRec) (s : State) : Out :=
  moveOp (.vmask r) r (fun c n s =>
    ofLanes 1 ((List.range n).map fun i => if laneOf c s.firing.a.payload i = 0 then 0 else 1)) s
def execVsel (r : VecRec) (s : State) : Out :=
  moveOp (.vsel r) r (fun c n s =>
    ofLanes c ((List.range n).map fun i =>
      if (a64 s.firing).getLsbD i then laneOf c s.firing.b.payload i else laneOf c s.firing.c.payload i)) s

/-- The vector lanes path (R187). -/
def laneOp (i : Instr) (slots : List Nat) (body : State → State) (s : State) : Out := withFormats i true slots body s

/-- A node rounding: into binary32 and back (R194). -/
def nodeRound (rm : Rm) (sat : Bool) (v : Val) : Val × Flags :=
  let y := encodeVal b32 rm sat v
  (decodeVal b32 y.1, y.2)

/-- One level of the tree: neighbours added, each sum rounded once (R194). -/
def treeLevel (rm : Rm) (sat : Bool) : List Val → List Val × Flags
  | a :: b :: t =>
    let x := opAdd (decide (rm = .rdn)) a b
    let y := nodeRound rm sat x.1
    let r := treeLevel rm sat t
    (y.1 :: r.1, x.2 ||| y.2 ||| r.2)
  | l => (l, 0#5)

/-- The tree over a power of two of values, with as many levels as the fuel (R194). -/
def tree (rm : Rm) (sat : Bool) : Nat → List Val → List Val × Flags
  | 0, l => (l, 0#5)
  | k + 1, l =>
    let x := treeLevel rm sat l
    let r := tree rm sat k x.1
    (r.1, x.2 ||| r.2)

/-- The B32 code of the tree's root and the flags. -/
def treeCode (rm : Option Rm) (sat : Bool) (l : List Val) : Nat × Flags :=
  let r := tree (rm.getD .rne) sat (Nat.log2 l.length) l
  ((encodeVal b32 .rne false (r.1.headD (.zero false))).1, r.2)

/-- Raw integers of lanes under an entry with EW = 0 (R77). -/
def rawInt (e : W64) (x : Nat) : Int :=
  let n := x % 2 ^ fW e
  if fS e = 1 then sgn (fW e) n else n

/-- Prepared values of all lanes and the flags (R136). -/
def prepLanes (e : W64) (x : W256) : List Val × Flags :=
  let c := containerOf e
  let l := (lanesOf c (256 / c) x).map (prepVal e false)
  (l.map (·.1), l.foldl (fun f v => f ||| v.2) 0#5)

/-- A 64-bit result with flags. -/
def emitFl (i : Instr) (x : Nat × Flags) (s : State) : State :=
  emit64 s.firing i (BitVec.ofNat 64 x.1) (raise s.firing.inst x.2 s)

/-- R195. -/
def vredAddVal (r : VecRec) (e : W64) (x : W256) : Nat × Flags :=
  if fEW e = 0 then
    let c := containerOf e
    (((BitVec.ofInt 64 (((lanesOf c (256 / c) x).map (rawInt e)).foldl (· + ·) 0)) : W64).toNat, 0#5)
  else
    let v := prepLanes e x
    let y := treeCode r.rm r.sat v.1
    (y.1, y.2 ||| v.2)
def execVredAdd (r : VecRec) (s : State) : Out :=
  laneOp (.vredAdd r) [r.fs.toNat] (fun s =>
    emitFl (.vredAdd r) (vredAddVal r (fmtOf s s.firing.inst r.fs.toNat) s.firing.a.payload) s) s
def vdotVal (r : VecRec) (e : W64) (x y : W256) : Nat × Flags :=
  let c := containerOf e
  if fEW e = 0 then
    (((BitVec.ofInt 64 ((List.zipWith (fun a b => rawInt e a * rawInt e b) (lanesOf c (256 / c) x)
        (lanesOf c (256 / c) y)).foldl (· + ·) 0)) : W64).toNat, 0#5)
  else
    let u := prepLanes e x
    let v := prepLanes e y
    let p := List.zipWith opMul u.1 v.1
    let z := treeCode r.rm r.sat (p.map (·.1))
    (z.1, z.2 ||| u.2 ||| v.2 ||| p.foldl (fun f q => f ||| q.2) 0#5)
def execVdot (r : VecRec) (s : State) : Out :=
  laneOp (.vdot r) [r.fs.toNat] (fun s =>
    emitFl (.vdot r) (vdotVal r (fmtOf s s.firing.inst r.fs.toNat) s.firing.a.payload s.firing.b.payload) s) s

/-- R196: NaN lanes are ignored unless every lane is NaN. -/
def redBest (better : Val → Val → Bool) (l : List Val) : Val :=
  match l.filter fun v => !v.isNan with
  | [] => .nan ((l.headD (.zero false)).sign) false
  | v :: t => t.foldl (fun a b => if better b a then b else a) v
def vredPick (i : Instr) (r : VecRec) (pre : Val → Val) (better : Val → Val → Bool) (s : State) : Out :=
  laneOp i [r.fs.toNat] (fun s =>
    let e := fmtOf s s.firing.inst r.fs.toNat
    let v := prepLanes e s.firing.a.payload
    let y := encodeVal e (rmOfEntry e) false
      (redBest better (v.1.map fun x => if x.isNan then x else pre x))
    emitFl i (y.1, y.2 ||| v.2) s) s
def execVredMax (r : VecRec) (s : State) : Out := vredPick (.vredMax r) r id (fun a b => vltZ b a) s
def execVredMin (r : VecRec) (s : State) : Out := vredPick (.vredMin r) r id (fun a b => vltZ a b) s
def execVredAmax (r : VecRec) (s : State) : Out := vredPick (.vredAmax r) r Val.abs (fun a b => vltZ b a) s

/-- R197: inclusive prefix sums, each partial sum rounded into binary32 and each output lane encoded under FS. -/
def scanVals (rm : Rm) (sat : Bool) : Option Val → List Val → List Val × Flags
  | _, [] => ([], 0#5)
  | p, v :: t =>
    let x := match p with
      | none => (v, 0#5)
      | some q => opAdd (decide (rm = Rm.rdn)) q v
    let y := nodeRound rm sat x.1
    let r := scanVals rm sat (some y.1) t
    (y.1 :: r.1, x.2 ||| y.2 ||| r.2)
def scanInts : Int → List Int → List Int
  | _, [] => []
  | p, v :: t => (p + v) :: scanInts (p + v) t
def vscanVal (r : VecRec) (e : W64) (x : W256) : W256 × Flags :=
  let c := containerOf e
  let enc (v : Val) : Nat × Flags := encodeVal e (rmOr r.rm e) r.sat v
  let p : List Val × Flags :=
    if fEW e = 0 then
      (((scanInts 0 ((lanesOf c (256 / c) x).map (rawInt e))).map fun n => valOfInt n (-(fBIAS e : Int))), 0#5)
    else
      let v := prepLanes e x
      let q := scanVals (r.rm.getD .rne) r.sat none v.1
      (q.1, q.2 ||| v.2)
  let o := p.1.map enc
  (ofLanes c (o.map (·.1)), o.foldl (fun f q => f ||| q.2) p.2)
def execVscan (r : VecRec) (s : State) : Out :=
  laneOp (.vscan r) [r.fs.toNat] (fun s =>
    fltEmit s.firing (.vscan r) (vscanVal r (fmtOf s s.firing.inst r.fs.toNat) s.firing.a.payload) s) s

/-- Lanes converted from one entry to another (R198). -/
def convLanes (e d : W64) (r : VecRec) (l : List Nat) : W256 × Flags :=
  let o := l.map (convertCode e d r.rm r.sat)
  (ofLanes (containerOf d) (o.map (·.1)), o.foldl (fun f q => f ||| q.2) 0#5)

/-- R198: VPACK needs c(D) = c(S)/2, VUNPK c(D) = 2·c(S); the failed condition's ILLFMT names the destination (assumption 47). -/
def execVpack (dst : BitVec 5) (r : VecRec) (s : State) : Out :=
  laneOp (.vpack dst r) [r.fs.toNat, dst.toNat] (fun s =>
    let e := fmtOf s s.firing.inst r.fs.toNat
    let d := fmtOf s s.firing.inst dst.toNat
    let c := containerOf e
    if 2 * containerOf d ≠ c then emitErr s.firing (.vpack dst r) (errIllfmt dst.toNat) s
    else fltEmit s.firing (.vpack dst r)
      (convLanes e d r (lanesOf c (256 / c) s.firing.a.payload ++ lanesOf c (256 / c) s.firing.b.payload)) s) s
def execVunpk (dst : BitVec 5) (hi : Bool) (r : VecRec) (s : State) : Out :=
  laneOp (.vunpk dst hi r) [r.fs.toNat, dst.toNat] (fun s =>
    let e := fmtOf s s.firing.inst r.fs.toNat
    let d := fmtOf s s.firing.inst dst.toNat
    let c := containerOf e
    let n := 256 / c
    if containerOf d ≠ 2 * c then emitErr s.firing (.vunpk dst hi r) (errIllfmt dst.toNat) s
    else fltEmit s.firing (.vunpk dst hi r)
      (convLanes e d r (((lanesOf c n s.firing.a.payload).drop (if hi then n / 2 else 0)).take (n / 2))) s) s

/-- The scale slots that a binding entry names, each with the check of R85: SCS as a block scale, and with SCL = 2 also BSS as a
band scale, although VQNT and VDQNT use the block scale only (R85 and R88 against R187; DEDUCED, assumption 46). -/
def boundScales (bind : W64) : List (Nat × (W64 → Bool)) :=
  (if fSCL bind = 0 then [] else [(fSCS bind, acceptBlockScale)]) ++
  (if fSCL bind = 2 then [(fBSS bind, acceptBandScale)] else [])
/-- The named slots on the lanes path, then the scale slots under R85 (R88). -/
def scaleOp (i : Instr) (slots : List Nat) (scl : State → List (Nat × (W64 → Bool))) (body : State → State) (s : State) : Out :=
  laneOp i slots (fun s =>
    match (scl s).find? fun k => !k.2 (fmtOf s s.firing.inst k.1) with
    | none => body s
    | some k => emitErr s.firing i (errIllfmt k.1) s) s

/-- Largest power of two not above the greatest magnitude (R199): zero, NaN, infinity or 2^k. -/
def bexpVal (l : List Val) : Val :=
  if l.any Val.isNan then .nan false false
  else
    match redBest (fun a b => vltZ b a) (l.map Val.abs) with
    | .fin _ m e => .fin false 1 (topOf m e)
    | v => v
def execVbexp (scl : BitVec 5) (r : VecRec) (s : State) : Out :=
  scaleOp (.vbexp scl r) [r.fs.toNat] (fun _ => [(scl.toNat, acceptBlockScale)]) (fun s =>
    let k := fmtOf s s.firing.inst scl.toNat
    let v := prepLanes (fmtOf s s.firing.inst r.fs.toNat) s.firing.a.payload
    let p := bexpVal v.1
    let y := if p.isZero then (0, 0#5) else encodeVal k .rdn true p
    emitFl (.vbexp scl r) (y.1, (y.2 &&& flNV) ||| v.2) s) s

/-- The scale that b carries for a binding entry; a scale that is no finite value counts as NaN (R86, R200). A signalling NaN
there is an invalid scale and no operand: it raises no NV by R78 (DEDUCED; assumption 48). -/
def blockScale (s : State) (bind : W64) : Option Val :=
  if fSCL bind = 0 then some (.fin false 1 0)
  else
    match decodeVal (fmtOf s s.firing.inst (fSCS bind)) (b64 s.firing).toNat with
    | .nan _ _ => none
    | .inf _ => none
    | v => some v
/-- The lane offset in b[15:8]. -/
def laneOff (s : State) : Nat := ((b64 s.firing).extractLsb' 8 8).toNat

/-- An element divided by its scale (R200). -/
def quantVal (sc : Option Val) (v : Val) : Val :=
  match sc with
  | none => .nan v.sign false
  | some (.fin _ m e) =>
    match v with
    | .fin s n f => divFin s n f m e
    | v => v
  | some _ => if v.isFinite then .zero v.sign else v

/-- R200. -/
def vqntVal (s : State) (r : VecRec) (e d : W64) : W256 × Flags :=
  let v := prepLanes e s.firing.a.payload
  let sc := blockScale s d
  let m := 256 / containerOf d
  let n := v.1.length
  let o := v.1.map fun x => encodeVal d (rmOr r.rm d) r.sat (quantVal sc x)
  let lane (k : Nat) : Nat :=
    let i := (k + m - laneOff s % m) % m
    if i < n then (o.getD i (0, 0#5)).1 else 0
  (ofLanes (containerOf d) ((List.range m).map lane), o.foldl (fun f q => f ||| q.2) v.2)
/-- R200. The width condition is judged after every slot, and its ILLFMT names the destination slot (DESIGN CHOICE; assumption 47). -/
def execVqnt (dst : BitVec 5) (r : VecRec) (s : State) : Out :=
  scaleOp (.vqnt dst r) [r.fs.toNat, dst.toNat]
    (fun s => boundScales (fmtOf s s.firing.inst dst.toNat)) (fun s =>
    let e := fmtOf s s.firing.inst r.fs.toNat
    let d := fmtOf s s.firing.inst dst.toNat
    if containerOf d > containerOf e then emitErr s.firing (.vqnt dst r) (errIllfmt dst.toNat) s
    else fltEmit s.firing (.vqnt dst r) (vqntVal s r e d) s) s

/-- An element times its scale, a zero keeping its sign; under an invalid scale NaN, or the largest finite value of S with NV (R86, R201). -/
def dequantVal (e : W64) (sc : Option Val) (v : Val) : Val × Flags :=
  match sc with
  | none =>
    if fSPV e = 0 ∨ fSPV e = 1 ∨ fSPV e = 3 then (.nan v.sign false, 0#5)
    else (decodeVal e (largestCode e v.sign), flNV)
  | some (.zero _) => if v.isFinite then (.zero v.sign, 0#5) else (v, 0#5)
  | some x => if v.isFinite && !v.isZero then ((vmul v x).1, 0#5) else (v, 0#5)

/-- R201: only the lanes taken are prepared, so a signalling NaN elsewhere raises nothing (R78). -/
def vdqntVal (s : State) (r : VecRec) (e d : W64) : W256 × Flags :=
  let c := containerOf e
  let n := 256 / c
  let l := lanesOf c n s.firing.a.payload
  let sc := blockScale s e
  let o := (List.range (256 / containerOf d)).map fun i =>
    let v := prepVal e false (l.getD ((laneOff s + i) % n) 0)
    let x := dequantVal e sc v.1
    let y := encodeVal d (rmOr r.rm d) r.sat x.1
    (y.1, y.2 ||| x.2 ||| v.2)
  (ofLanes (containerOf d) (o.map (·.1)), o.foldl (fun f q => f ||| q.2) 0#5)
/-- R201; the width condition as in VQNT (assumption 47). -/
def execVdqnt (dst : BitVec 5) (r : VecRec) (s : State) : Out :=
  scaleOp (.vdqnt dst r) [r.fs.toNat, dst.toNat]
    (fun s => boundScales (fmtOf s s.firing.inst r.fs.toNat)) (fun s =>
    let e := fmtOf s s.firing.inst r.fs.toNat
    let d := fmtOf s s.firing.inst dst.toNat
    if containerOf d < containerOf e then emitErr s.firing (.vdqnt dst r) (errIllfmt dst.toNat) s
    else fltEmit s.firing (.vdqnt dst r) (vdqntVal s r e d) s) s

end Sys2Proof.Machine
end

