-- ==== Sys2Proof/Machine/Tiles.lean ====
section
/-! DEFINITION. Tile instructions and sparse streams (R265 to R279, R288 to R291): firing after its checks, accesses to memory,
and completion. -/
namespace Sys2Proof.Machine

/-! ### Checks at firing (R273) -/

/-- Item 3 for an entry's FMT: the path, and the container that CW gives. -/
def fmtBad (s : State) (inst : Nat) (ok : W64 → Bool) (e : W64) : Bool :=
  let f := fmtOf s inst (teFMT e)
  !ok f || decide (containerOf f ≠ teC e)

/-- Items 1 to 3 for the handles an instruction selects, in order; then its own effect. -/
def withTiles (i : Instr) (hs : List Nat) (ok : W64 → Bool) (body : State → State) (s : State) : Out :=
  unlessErr i (fun s =>
    let cl := firingCl s
    match hs.find? fun h => decide (tdir s cl h = 0#64) with
    | some h => emitErr s.firing i (errTileState h) s
    | none =>
      match hs.find? fun h => fmtBad s s.firing.inst ok (tdir s cl h) with
      | some h => emitErr s.firing i (errIllfmt (teFMT (tdir s cl h))) s
      | none => body s) s

/-- The handle that the firing selects (R269). -/
def firingSel (s : State) (h : BitVec 8) : Nat := selHandle s (firingCl s) h.toNat s.firing.tag.wave
/-- The completion token of a tile instruction that ends as it fires (R273). -/
def emitHandle (i : Instr) (h : Nat) (s : State) : State := emit64 s.firing i (BitVec.ofNat 64 h) s
/-- A tile operation in progress on a handle, with its entry or descriptor and the captured slots. -/
def tileOp (i : Instr) (h : Nat) (e : W64) (old : W256) (slots : List Nat) (s : State) : State :=
  let r := newOp i .tile (firingCl s) (capture s s.firing.inst slots) s
  modOp r.1 (fun o => { o with act := some (h, e), val := old, n := h }) r.2

/-! ### TLD, TST, TZERO, TEMPTY (Table 12.4) -/

def execTld (h : BitVec 8) (t : List Target) (s : State) : Out :=
  let k := firingSel s h
  withTiles (.tld h t) [k] acceptScalar (fun s =>
    let cl := firingCl s
    let e := tdir s cl k
    setTState cl k tsBUSY (tileOp (.tld h t) k e 0#256 [teFMT e] s)) s

/-- TLD.ACC keeps what the descriptor was, and sets CUR as it fires. -/
def tldAccFire (h : BitVec 4) (t : List Target) (s : State) : State :=
  let cl := firingCl s
  let a := accGet s cl h.toNat
  let full := decide (a.st = 1#2)
  let b := { a with st := 2#2, rows := if full then a.rows else 127#7, cols := if full then a.cols else 127#7, cur := s.firing.tag }
  accPut cl h.toNat b (tileOp (.tldAcc h t) h.toNat (accWord b) ((accWord a).setWidth 256) [] s)
def execTldAcc (h : BitVec 4) (t : List Target) (s : State) : Out := unlessErr (.tldAcc h t) (tldAccFire h t) s

def execTst (h : BitVec 8) (t : List Target) (s : State) : Out :=
  let k := firingSel s h
  withTiles (.tst h t) [k] acceptScalar (fun s =>
    let cl := firingCl s
    let e := tdir s cl k
    addReader cl k 1 (tileOp (.tst h t) k e 0#256 [teFMT e] s)) s

def execTstAcc (h : BitVec 4) (t : List Target) (s : State) : Out :=
  unlessErr (.tstAcc h t) (fun s =>
    let cl := firingCl s
    let a := accGet s cl h.toNat
    accPut cl h.toNat { a with readers := a.readers + 1 } (tileOp (.tstAcc h t) h.toNat (accWord a) 0#256 [] s)) s

/-- Every container of the tile is zero bits. -/
def execTzero (h : BitVec 8) (t : List Target) (s : State) : Out :=
  let k := firingSel s h
  withTiles (.tzero h t) [k] acceptScalar (fun s =>
    let cl := firingCl s
    let e := tdir s cl k
    let n := teRows e * teCols e * teC e / 8
    let a := 2 ^ 20 * cl + teBASE e * 256
    let s := { s with tiles := { s.tiles with bytes := memClearRange s.tiles.bytes a n, badT := dropUnits s.tiles.badT a n } }
    emitHandle (.tzero h t) k (setTState cl k tsFULL s)) s

/-- An accumulator becomes EMPTY, all +0, under a cursor. -/
def accEmpty (cl h : Nat) (cur : Tag) (s : State) : State :=
  let a := accGet s cl h
  let base := accKey cl h 0 0
  let s := { s with tiles := { s.tiles with
      words := s.tiles.words.filter (fun w => decide (w.1 < base ∨ base + 2 ^ 14 ≤ w.1)),
      badA := dropUnits s.tiles.badA (4 * base) 65536 } }
  accPut cl h { a with st := 0#2, rows := 0#7, cols := 0#7, cur := cur } s
def execTzeroAcc (h : BitVec 4) (t : List Target) (s : State) : Out :=
  unlessErr (.tzeroAcc h t) (fun s =>
    emitHandle (.tzeroAcc h t) h.toNat (accEmpty (firingCl s) h.toNat s.firing.tag s)) s

def execTempty (h : BitVec 8) (t : List Target) (s : State) : Out :=
  let k := firingSel s h
  withTiles (.tempty h t) [k] acceptScalar (fun s =>
    let cl := firingCl s
    if teSTATE (tdir s cl k) = tsEMPTY then emitErr s.firing (.tempty h t) (errTileState k) s
    else emitHandle (.tempty h t) k (setTState cl k tsEMPTY s)) s

/-! ### TCVT and TTRN (R278) -/

/-- Both start on a source reader and a busy destination, unless the shapes break their rule: TILE_STATE then names the destination handle (the
model's choice: Table 16.10 says only 'selected handle'; assumption 66). -/
def twoTiles (i : Instr) (src dst : BitVec 8) (ok : W64 → Bool) (shape : W64 → W64 → Bool) (s : State) : Out :=
  let a := firingSel s src
  let b := firingSel s dst
  withTiles i [a, b] ok (fun s =>
    let cl := firingCl s
    let x := tdir s cl a
    let y := tdir s cl b
    if a = b ∨ !shape x y then emitErr s.firing i (errTileState b) s
    else
      let s := tileOp i (256 * a + b) 0#64 0#256 [teFMT x, teFMT y] s
      setTState cl b tsBUSY (addReader cl a 1 s)) s
def execTcvt (src dst : BitVec 8) (t : List Target) (s : State) : Out :=
  twoTiles (.tcvt src dst t) src dst acceptLanes (fun x y => decide (teRows x = teRows y ∧ teCols x = teCols y)) s
def execTtrn (src dst : BitVec 8) (t : List Target) (s : State) : Out :=
  twoTiles (.ttrn src dst t) src dst acceptScalar
    (fun x y => decide (teRows y = teCols x ∧ teCols y = teRows x ∧ teC x = teC y)) s

/-! ### TDESC and TQRY (R279) -/

/-- Whether TDESC writes an entry at a handle. -/
def tdescOk (h : Nat) (e : W64) : Bool :=
  decide (e = 0#64) ||
  (decide (teSTATE e = 0) && teWellFormed e && decide (h % teN e = 0 ∧ h + teN e ≤ 256))
/-- The block written. -/
def tdescWrite (cl h : Nat) (e : W64) (s : State) : State :=
  if e = 0#64 then setTdir cl h 0#64 s
  else (List.range (teN e)).foldl (fun s i => setTdir cl (h + i) (ringMember e i) s) s
def execTdesc (h : BitVec 8) (t : List Target) (s : State) : Out :=
  unlessErr (.tdesc h t) (fun s =>
    let cl := firingCl s
    let e := a64 s.firing
    if tdescOk h.toNat e then emit64 s.firing (.tdesc h t) (tdir s cl h.toNat) (tdescWrite cl h.toNat e s)
    else emitErr s.firing (.tdesc h t) (errTileOob h.toNat) s) s

def execTqry (h : BitVec 8) (t : List Target) (s : State) : Out :=
  unlessErr (.tqry h t) (fun s => emit64 s.firing (.tqry h t) (tdir s (firingCl s) (firingSel s h)) s) s
def execTqryAcc (h : BitVec 4) (t : List Target) (s : State) : Out :=
  unlessErr (.tqryAcc h t) (fun s => emit64 s.firing (.tqryAcc h t) (accWord (accGet s (firingCl s) h.toNat)) s) s

/-! ### SPACC (R291) -/

def execSpacc (h : BitVec 8) (t : List Target) (s : State) : Out :=
  let k := firingSel s h
  withTiles (.spacc h t) [k] acceptLanes (fun s =>
    let cl := firingCl s
    let e := tdir s cl k
    let a := a64 s.firing
    if teRows e ≤ (a.extractLsb' 48 16).toNat ∨ teCols e ≤ (a.extractLsb' 32 16).toNat then
      emitErr s.firing (.spacc h t) (errTileOob k) s
    else setTState cl k tsBUSY (tileOp (.spacc h t) k e 0#256 [teFMT e] s)) s

/-! ### Completion (R270, R276, R278, R291) -/

/-- A failed access leaves its tile or accumulator as it stood before it fired; a reader is removed (R276). -/
def tileRevert (o : Op) (s : State) : State :=
  let h := (tileOf o).1
  match o.ins with
  | .tld _ _ => setTState o.cl h tsEMPTY s
  | .tldAcc _ _ =>
    let w : W64 := o.val.setWidth 64
    let a := accGet s o.cl h
    accPut o.cl h { a with st := w.extractLsb' 62 2, rows := w.extractLsb' 49 7, cols := w.extractLsb' 42 7,
                           cur := { thr := w.extractLsb' 24 16, wave := w.extractLsb' 0 24 } } s
  | .tst _ _ => addReader o.cl h (-1) s
  | .tstAcc _ _ =>
    let a := accGet s o.cl h
    accPut o.cl h { a with readers := a.readers - 1 } s
  | _ => s

/-- The result token, or the error token, of a tile operation. -/
def tileEmit (id : Nat) (err : Option W64) (v : Nat) (s : State) : State :=
  let s := modOp id (fun p => { p with err := err, val := BitVec.ofNat 256 v }) s
  match findOp s id with
  | some o => emitDone o s
  | none => s

/-- An instruction that met an uncorrectable error in its cluster's tile or accumulator store: counted, with POISON in place of
its completion token (R411; assumption 29). -/
def storeError (o : Op) (s : State) : State :=
  tileEmit o.id (some (errPoison (Config.poisonAddr s.tick).toNat)) 0 (countLog ctrSRAMUE (dieOf o.cl) (o.cl % 128) 0 s)
/-- Whether TST or TST.ACC reads a bad unit. -/
def readsBad (o : Op) (s : State) : Bool :=
  match o.ins with
  | .tst _ _ => tileBad s o.cl (tileOf o).2
  | .tstAcc _ _ => accBad s o.cl (tileOf o).1 (awRows (tileOf o).2) (awCols (tileOf o).2)
  | _ => false

/-- The bytes loaded, in the order of the pieces, with poison. -/
def loadedBytes (o : Op) : List (Byte × Bool) := o.els.flatMap fun x => bytesOfWords x o.got
/-- The address of the first poisoned byte loaded. -/
def loadedPoison (o : Op) : Option Nat :=
  (o.els.find? fun x => (bytesOfWords x o.got).any (·.2)).map fun x => firstPoison x (bytesOfWords x o.got)

/-- TLD's elements from memory; on poison each keeps its earlier bits or takes the loaded ones (assumption 7). -/
def tldStore (o : Op) (s : State) : State :=
  let e := (tileOf o).2
  let len := lineLen e
  let bs := (loadedBytes o).map (·.1)
  let bad := (loadedPoison o).isSome
  (List.range (lineCount e)).foldl (fun s k =>
    let line := (bs.drop (k * len)).take len
    (List.range (lineElems e)).foldl (fun s t =>
      if bad && !Config.tearNew (s.tick + 512 * k + t) then s else setLineElem o.cl e k t (elemOfBytes (teC e) line t) s) s) s
/-- TLD.ACC's elements. -/
def tldAccStore (o : Op) (s : State) : State :=
  let w := (tileOf o).2
  let bs := (loadedBytes o).map (·.1)
  (List.range (awRows w * awCols w)).foldl (fun s k =>
    setAccElem o.cl (tileOf o).1 (k / awCols w) (k % awCols w) (wordOfBytes ((bs.drop (4 * k)).take 4)) s) s

/-- The end of an access whose bytes have all been transferred. -/
def tileAccessed (o : Op) (s : State) : State :=
  let h := (tileOf o).1
  match o.ins with
  | .tld _ _ =>
    let s := tldStore o s
    (match loadedPoison o with
     | some a => tileEmit o.id (some (errPoison a)) 0 (setTState o.cl h tsEMPTY s)
     | none => tileEmit o.id none h (setTState o.cl h tsFULL s))
  | .tldAcc _ _ =>
    (match loadedPoison o with
     | some a => tileEmit o.id (some (errPoison a)) 0 (accEmpty o.cl h (accGet s o.cl h).cur s)
     | none =>
       let s := tldAccStore o s
       tileEmit o.id none h (accPut o.cl h { accGet s o.cl h with st := 1#2 } s))
  | _ => tileEmit o.id none h (tileRevert o s)

/-- A tile access goes on: it is checked and translated, parks, fails, begins, or ends. TST.ACC of an EMPTY accumulator
writes nothing; its address is checked all the same, but not translated (the model's choice; assumption 66). -/
def tileAccess (o : Op) (s : State) : State :=
  match o.err with
  | some e => tileEmit o.id (some e) 0 (tileRevert o s)
  | none =>
    if o.ph = .done then tileAccessed o s
    else if o.ph ≠ .tile then s
    else
      let nothing := match o.ins with
        | .tstAcc _ _ => decide ((tileOf o).2.extractLsb' 62 2 = 0#2)
        | _ => false
      if nothing && (checkAddr o).isNone then tileAccessed o s
      else if readsBad o s && (checkAddr o).isNone then storeError o (tileRevert o s)
      else
        let r := startOf o s
        match r.1 with
        | .wait | .parked => r.2
        | .fail e => tileEmit o.id (some e) 0 (tileRevert o r.2)
        | .go els => begin_ o els (stamp o.id r.2)

/-- Elements 0 to n − 1 of a destination y, each from the source's: a container that the source overlaps holds the value for some element, or keeps its
bits (R268, R278; assumption 7). Element k of the destination is at `at_ k`. -/
def putOver (cl : Nat) (x y : W64) (n : Nat) (at_ : Nat → Nat × Nat) (val : Nat → Nat) (s : State) : State :=
  let meets (p : Nat × Nat) : Bool :=
    let a := 256 * teBASE y + (p.1 * teCols y + p.2) * teC y / 8
    decide (a < 256 * teBASE x + teRows x * teCols x * teC x / 8 ∧ 256 * teBASE x < a + max 1 (teC y / 8))
  (List.range n).foldl (fun z k =>
    let p := at_ k
    if !meets p then setTileElem cl y p.1 p.2 (val k) z
    else if Config.tearNew (s.tick + k) then setTileElem cl y p.1 p.2 (val (Config.overlapFrom (s.tick + k) % n)) z
    else z) s
/-- TCVT: every element converted with the destination's RM, no scales. -/
def tcvtDone (o : Op) (s : State) : State :=
  let a := o.n / 256
  let b := o.n % 256
  let x := tdir s o.cl a
  let y := tdir s o.cl b
  let fx := capOf o.cap (teFMT x)
  let fy := capOf o.cap (teFMT y)
  let c (k : Nat) : Nat × Flags := convertCode fx fy none false (tileElem s o.cl x (k / teCols x) (k % teCols x))
  let n := teRows x * teCols x
  raise o.inst ((List.range n).foldl (fun f k => f ||| (c k).2) 0#5)
    (putOver o.cl x y n (fun k => (k / teCols x, k % teCols x)) (fun k => (c k).1) s)
/-- TTRN: element (i, j) into (j, i), bit for bit. -/
def ttrnDone (o : Op) (s : State) : State :=
  let x := tdir s o.cl (o.n / 256)
  let y := tdir s o.cl (o.n % 256)
  putOver o.cl x y (teRows x * teCols x) (fun k => (k % teCols x, k / teCols x))
    (fun k => tileElem s o.cl x (k / teCols x) (k % teCols x)) s
/-- SPACC's sum: the new code and flags. -/
def spaccSum (f : W64) (old new : Nat) : Nat × Flags :=
  let x := prepVal f false old
  let y := prepVal f false new
  let r := opAdd (decide (rmOfEntry f = .rdn)) x.1 y.1
  let c := encodeVal f (rmOfEntry f) false r.1
  (c.1, c.2 ||| r.2 ||| x.2 ||| y.2)
def spaccDone (o : Op) (s : State) : State :=
  let e := (tileOf o).2
  let a : W64 := o.a.payload.setWidth 64
  let i := (a.extractLsb' 48 16).toNat
  let j := (a.extractLsb' 32 16).toNat
  if elemBad s o.cl e i j then storeError o (setTState o.cl (tileOf o).1 tsEMPTY s) else
  let c := spaccSum (capOf o.cap (teFMT e)) (tileElem s o.cl e i j) (a.extractLsb' 0 32).toNat
  tileEmit o.id none c.1 (raise o.inst c.2 (setTState o.cl (tileOf o).1 tsFULL (setTileElem o.cl e i j c.1 s)))

/-- TCVT or TTRN ends: its destination FULL, or EMPTY when its source was bad (R411). -/
def twoDone (o : Op) (body : State → State) (s : State) : State :=
  let a := o.n / 256
  let b := o.n % 256
  if tileBad s o.cl (tdir s o.cl a) then storeError o (setTState o.cl b tsEMPTY (addReader o.cl a (-1) s))
  else tileEmit o.id none b (setTState o.cl b tsFULL (addReader o.cl a (-1) (body s)))

/-- TILE_COMPLETION. -/
def execTileCompletion (op : Nat) (s : State) : Out :=
  match findOp s op with
  | none => .next s
  | some o =>
    match o.ins with
    | .tld _ _ | .tldAcc _ _ | .tst _ _ | .tstAcc _ _ => .next (tileAccess o s)
    | .tcvt _ _ _ =>
      .next (if o.ph = .tile then twoDone o (tcvtDone o) s else s)
    | .ttrn _ _ _ =>
      .next (if o.ph = .tile then twoDone o (ttrnDone o) s else s)
    | .spacc _ _ => .next (if o.ph = .tile then spaccDone o s else s)
    | _ => .next s

/-! ### ISECT (R290) -/

/-- Tokens of a slot and tag in their order at one position. -/
def tokensAt (l : List PSet) (q : Pos) : List (Tok × List (Nat × Nat)) :=
  l.filterMap fun x => (x.get q).map fun t => (t, x.recs.filter fun r => decide (r.1 = posNo q))
/-- One set of two positions' tokens; while spilled, each token keeps its record. -/
def pairSet (p : Place) (t : Tag) (sp : Bool) (a b : Option (Tok × List (Nat × Nat))) : PSet :=
  { place := p, tag := t, a := a.map (·.1), b := b.map (·.1), c := none, spilled := sp, since := 0,
    recs := if sp then (a.map (·.2)).getD [] ++ (b.map (·.2)).getD [] else [] }
/-- Sets over two queues of tokens, keeping each set's place in the store. -/
def zipSets (p : Place) (t : Tag) : List Bool → List (Tok × List (Nat × Nat)) → List (Tok × List (Nat × Nat)) → List PSet
  | sp, a :: as', b :: bs => pairSet p t (sp.headD false) (some a) (some b) :: zipSets p t sp.tail as' bs
  | sp, a :: as', [] => pairSet p t (sp.headD false) (some a) none :: zipSets p t sp.tail as' []
  | sp, [], b :: bs => pairSet p t (sp.headD false) none (some b) :: zipSets p t sp.tail [] bs
  | _, [], [] => []

/-- A token that ISECT does not consume stays first at its position. -/
def keepFirst (a b : Option Tok) (s : State) : State :=
  let f := s.firing
  modInst f.inst (fun i =>
    let mine (x : PSet) : Bool := decide (x.place = f.place ∧ x.tag = f.tag)
    let l := i.sets.filter mine
    let as' := (a.toList.map fun t => (t, [])) ++ tokensAt l .a
    let bs := (b.toList.map fun t => (t, [])) ++ tokensAt l .b
    { i with sets := zipSets f.place f.tag (false :: l.map (·.spilled)) as' bs ++ i.sets.filter fun x => !mine x }) s

def isect (t : List Target) (s : State) : State :=
  let f := s.firing
  let ca : W32 := (a64 f).extractLsb' 32 32
  let cb : W32 := (b64 f).extractLsb' 32 32
  let i : Instr := .isect t
  if ca = cb then
    if ca = 0xFFFFFFFF#32 then emit64 f i 0xFFFFFFFF00000000#64 s
    else emitAt f i f.tag ((ca ++ (a64 f).extractLsb' 0 16 ++ (b64 f).extractLsb' 0 16 : W64).setWidth 256) false s
  else if ca < cb then keepFirst none (some f.b) s
  else keepFirst (some f.a) none s
def execIsect (t : List Target) (s : State) : Out := unlessErr (.isect t) (isect t) s

/-! ### SSTRM (R289) -/

def execSstrm (fs : BitVec 5) (t : List Target) (s : State) : Out :=
  withFormats (.sstrm fs t) true [fs.toNat] (fun s =>
    let r := newOp (.sstrm fs t) .stream (firingCl s) (capture s s.firing.inst [fs.toNat]) s
    modOp r.1 (fun o => { o with act := some (0, 0#64) }) r.2) s

/-- One token of a stream. -/
def streamTok (o : Op) (v : W64) (e sf : Bool) (s : State) : State :=
  sendFrom o.inst o.place (targetsOf o.ins)
    { payload := v.setWidth 256, wide := false, tag := o.tag, e := e, s := sf,
      deps := (firingDeps (opFiring o)).filter fun d => present s d.1 || decide (4095 ≤ d.2) } s
/-- An error token ends a stream, without an end token. -/
def streamErr (o : Op) (code : W64) (s : State) : State := delOp o.id (dropFlits o.id (streamTok o code true o.a.s s))
def streamEnd (o : Op) (s : State) : State := delOp o.id (streamTok o 0xFFFFFFFF00000000#64 false o.a.s s)
/-- The next access of a stream. -/
def streamNext (id step : Nat) (coord : W64) (f : Op → Op) (s : State) : State :=
  modOp id (fun o => f { o with ph := .stream, els := [], left := [], got := [], snap := [], stale := false, act := some (step, coord) }) s

/-- Table 12.8's rules on the descriptor: the address that breaks them, VAL, IDX or the descriptor's own (DESIGN CHOICE; assumption 66). -/
def descBad (a : Nat) (d : W256) : Option Nat :=
  let v := (d.extractLsb' 0 64).toNat
  let x := (d.extractLsb' 64 64).toNat
  if v % 4 ≠ 0 then some v else if x % 4 ≠ 0 then some x else if d.extractLsb' 224 32 ≠ 0#32 then some a else none

/-- The bytes of an access have arrived. A stream restored from a save block, whose `n` is the index of an element, counts from START again. -/
def streamGot (o : Op) (s : State) : State :=
  let bs := loadedBytes o
  let v := natOfBytes (bs.map (·.1))
  match loadedPoison o with
  | some a => streamErr o (errPoison a) s
  | none =>
    match streamStep o with
    | 0 =>
      (match descBad (o.a.payload.setWidth 64).toNat (BitVec.ofNat 256 v) with
       | some a => streamErr o (errAlign a) s
       | none => streamNext o.id 1 0#64 (fun p => { p with
           val := BitVec.ofNat 256 v, n := if p.n = 0 then 0 else (p.n + 2 ^ 64 - v / 2 ^ 128 % 2 ^ 64) % 2 ^ 64 }) s)
    | 1 =>
      if v = 0xFFFFFFFF then streamEnd o s else streamNext o.id 2 (BitVec.ofNat 64 v) id s
    | _ =>
      let f := (o.cap.head?.map (·.2)).getD 0#64
      let e := (o.val.extractLsb' 128 64).toNat + o.n
      let code := (if streamC o = 4 then v / 16 ^ (e % 2) % 16 else v) % 2 ^ fW f
      let coord : W64 := (tileOf o).2
      let s := if (decodeVal f code).isZero then s else streamTok o ((coord <<< 32) ||| BitVec.ofNat 64 code) false false s
      streamNext o.id 1 0#64 (fun p => { p with n := p.n + 1 }) s

/-- The lookahead of a stream (R289, R351): the sectors of one later element's coordinate and code, within the descriptor's range. -/
def streamAhead (o : Op) (s : State) : State :=
  let d := Config.readAhead s.tick
  if streamStep o = 0 ∨ d = 0 ∨ (o.val.extractLsb' 192 32).toNat ≤ o.n + d then s
  else
    let at_ (step : Nat) : Nat := ((streamAccess { o with n := o.n + d, act := some (step, 0#64) }).head?.map (·.1)).getD 0
    readAheadOf o (at_ 2) (readAheadOf o (at_ 1) s)
/-- SSTRM_TOKEN: the stream goes on by one access, emitting what it gives. -/
def streamGo (o : Op) (s : State) : State :=
  match o.err with
  | some e => streamErr o e s
  | none =>
    if o.ph = .done then streamGot o s
    else if o.ph ≠ .stream then s
    else if streamStep o = 1 ∧ (o.val.extractLsb' 192 32).toNat ≤ o.n then streamEnd o s
    else
      let r := startOf o s
      match r.1 with
      | .wait | .parked => r.2
      | .fail e => streamErr o e r.2
      | .go els => streamAhead o (begin_ o els (stamp o.id r.2))
def execSstrmToken (op : Nat) (s : State) : Out :=
  match findOp s op with
  | none => .next s
  | some o =>
    match o.ins with
    | .sstrm _ _ => .next (streamGo o s)
    | _ => .next s

end Sys2Proof.Machine
end

