-- ==== Sys2Proof/Machine/Matrix.lean ====
section
/-! DEFINITION. MMA (R280 to R287): checks as it fires, the queue of eight, and the sums of sixteen exact products rounded once
into binary32. -/
namespace Sys2Proof.Machine

/-! ### Formats (Table 4.5, R281) -/

/-- The matrix lines of Table 4.5 from the fastest. -/
def matLines : List (W64 → Bool) :=
  [fun e => decide (1 ≤ fEW e ∧ (fW e ≤ 4 ∨ fW e = 6)),
   fun e => decide (1 ≤ fEW e ∧ fW e ≤ 8),
   fun e => decide (1 ≤ fEW e ∧ fEW e ≤ 8 ∧ fFW e ≤ 10),
   fun e => decide (1 ≤ fEW e ∧ fEW e ≤ 8 ∧ fFW e ≤ 23)]
/-- Whether some rate accepts both entries; EW = 0 only in pairs at the FP8 rate. -/
def ratePair (a b : W64) : Bool :=
  fmtValid a && fmtValid b && decide (fSPV a ≤ 2 ∧ fSPV b ≤ 2) &&
  (if fEW a = 0 ∨ fEW b = 0 then decide (fEW a = 0 ∧ fEW b = 0 ∧ fW a ≤ 8 ∧ fW b ≤ 8)
   else matLines.any fun l => l a && l b)

/-- The parts of an MMA record: FS of MMA.ACCA, and the named handles of A, B, C, and the scale tiles. -/
structure MmaParts where
  m    : MmaRec
  fs   : Option (BitVec 5)
  sc   : Option (BitVec 8 × BitVec 8)
  band : Option (BitVec 8 × BitVec 8)
  clmp : Bool
  psh  : BitVec 6
  deriving DecidableEq, Repr

def mmaParts : Instr → Option MmaParts
  | .mmaDense m => some ⟨m, none, none, none, false, 0#6⟩
  | .mmaAcca fs clmp psh m => some ⟨m, some fs, none, none, clmp, psh⟩
  | .mmaMx sa sb m => some ⟨m, none, some (sa, sb), none, false, 0#6⟩
  | .mmaTwo ba bb sa sb m => some ⟨m, none, some (sa, sb), some (ba, bb), false, 0#6⟩
  | _ => none

/-- A selected handle, or none for 0xFF. -/
def optSel (s : State) (h : BitVec 8) : Option Nat := if h = 0xFF#8 then none else some (firingSel s h)

/-- The tiles an MMA selects, each on its own terms (R269): A, B, C, SA, SB, BA, BB. -/
structure MmaTiles where
  a  : Option Nat
  b  : Nat
  c  : Option Nat
  sa : Option Nat
  sb : Option Nat
  ba : Option Nat
  bb : Option Nat
  deriving DecidableEq, Repr

def mmaTiles (s : State) (p : MmaParts) : MmaTiles :=
  { a := if p.fs.isSome then none else some (firingSel s p.m.ta), b := firingSel s p.m.tb, c := optSel s p.m.tc,
    sa := p.sc.map fun x => firingSel s x.1, sb := p.sc.map fun x => firingSel s x.2,
    ba := p.band.bind fun x => optSel s x.1, bb := p.band.bind fun x => optSel s x.2 }
def MmaTiles.list (t : MmaTiles) : List Nat :=
  t.a.toList ++ [t.b] ++ t.c.toList ++ t.sa.toList ++ t.sb.toList ++ t.ba.toList ++ t.bb.toList

/-! ### Checks (R273, R280, R281, R284) -/

/-- Each check in order: its slot, and whether it fails. -/
def firstBad : List (Nat × Bool) → Option Nat
  | [] => none
  | (k, b) :: t => if b then some k else firstBad t

/-- R281's order: A (or FS), B, C, the block-scale tiles, the band-scale tiles, then the slots bound. A band-scale handle given
for an entry whose SCL is not 2 fails at that entry's slot, in A's or B's place (the model's choice; assumption 66). -/
def mmaSlots (s : State) (cl : Nat) (p : MmaParts) (t : MmaTiles) : List (Nat × Bool) :=
  let inst := s.firing.inst
  let ent (h : Nat) : W64 := tdir s cl h
  let slot (h : Nat) : Nat := teFMT (ent h)
  let f (k : Nat) : W64 := fmtOf s inst k
  let cw (h : Nat) : Bool := decide (containerOf (f (slot h)) ≠ teC (ent h))
  let ka := match p.fs, t.a with
    | some fs, _ => fs.toNat
    | none, some h => slot h
    | none, none => 0
  let kb := slot t.b
  let scaled := p.sc.isSome
  let side (k : Nat) (band : Option Nat) : Bool := scaled && (decide (fSCL (f k) = 0) || (band.isSome && decide (fSCL (f k) ≠ 2)))
  let scale (h : Option Nat) (want : Nat) (ok : W64 → Bool) : List (Nat × Bool) :=
    h.toList.map fun x => (slot x, !fmtValid (f (slot x)) || cw x || decide (slot x ≠ want) || !ok (f (slot x)))
  let bound (k : Nat) : List (Nat × Bool) :=
    if scaled then
      [(fSCS (f k), !acceptBlockScale (f (fSCS (f k))))] ++
        (if fSCL (f k) = 2 then [(fBSS (f k), !acceptBandScale (f (fBSS (f k))))] else [])
    else []
  [(ka, !ratePair (f ka) (f ka) || (t.a.map cw).getD false || side ka t.ba),
   (kb, !ratePair (f kb) (f kb) || cw t.b || !ratePair (f ka) (f kb) || side kb t.bb)] ++
  (t.c.toList.map fun h => (slot h, !acceptLanes (f (slot h)) || cw h)) ++
  scale t.sa (fSCS (f ka)) acceptBlockScale ++ scale t.sb (fSCS (f kb)) acceptBlockScale ++
  scale t.ba (fBSS (f ka)) acceptBandScale ++ scale t.bb (fBSS (f kb)) acceptBandScale ++ bound ka ++ bound kb

/-- m, k, n of the product (R280). -/
def mmaShape (s : State) (cl : Nat) (p : MmaParts) (t : MmaTiles) : Nat × Nat × Nat :=
  let n := teCols (tdir s cl t.b)
  match t.a with
  | some h => (teRows (tdir s cl h), teCols (tdir s cl h), n)
  | none =>
    let a := accGet s cl (p.m.ta.toNat % 16)
    (a.rows.toNat + 1, a.cols.toNat + 1, n)

/-- R280's and R284's shape rules broken. -/
def mmaShapeBad (s : State) (cl : Nat) (p : MmaParts) (t : MmaTiles) : Bool :=
  let (m, k, n) := mmaShape s cl p t
  let ent (h : Nat) : W64 := tdir s cl h
  let d := accGet s cl p.m.d.toNat
  let dims (h : Option Nat) (r c : Nat) : Bool := h.any fun x => decide (teRows (ent x) ≠ r ∨ teCols (ent x) ≠ c)
  let fa := fmtOf s s.firing.inst ((t.a.map fun h => teFMT (ent h)).getD 0)
  let fb := fmtOf s s.firing.inst (teFMT (ent t.b))
  let src := accGet s cl (p.m.ta.toNat % 16)
  (p.fs.isSome && (decide (src.st = 0#2) || decide (p.m.ta.toNat % 16 = p.m.d.toNat))) ||
  decide (teRows (ent t.b) ≠ k ∨ k % 32 ≠ 0 ∨ k < 32 ∨ 512 < k ∨ 128 < m ∨ 128 < n) ||
  dims t.c m n ||
  (t.c.isNone && decide (d.st = 1#2) && decide (d.rows.toNat + 1 ≠ m ∨ d.cols.toNat + 1 ≠ n)) ||
  dims t.sa m (k / blkOf fa) || dims t.sb (k / blkOf fb) n ||
  dims t.ba ((m + bandOf fa - 1) / bandOf fa) 1 || dims t.bb 1 ((n + bandOf fb - 1) / bandOf fb)

/-- CUR(D) goes on by one wave. -/
def curNext (cl d : Nat) (s : State) : State :=
  let a := accGet s cl d
  accPut cl d { a with cur := waveAdd a.cur 1#24 } s

/-- Every slot an MMA captures. -/
def mmaCaps (s : State) (cl : Nat) (p : MmaParts) (t : MmaTiles) : List Nat :=
  let f (k : Nat) : W64 := fmtOf s s.firing.inst k
  let base := (p.fs.toList.map (·.toNat)) ++ t.list.map fun h => teFMT (tdir s cl h)
  let bound := if p.sc.isSome then base.flatMap fun k =>
    if fSCL (f k) = 0 then [] else if fSCL (f k) = 2 then [fSCS (f k), fBSS (f k)] else [fSCS (f k)] else []
  (base ++ bound).eraseDups

/-- MMA queued: readers on its tiles and source, D BUSY with the new shape, what D was kept (R270, R282). That AROWS and ACOLS give the new shape
while D is BUSY is the model's choice: R274 does not say which (DESIGN CHOICE; assumption 66). -/
def mmaQueue (i : Instr) (cl : Nat) (p : MmaParts) (t : MmaTiles) (s : State) : State :=
  let d := p.m.d.toNat
  let (m, _, n) := mmaShape s cl p t
  let r := newOp i .mmaQ cl (capture s s.firing.inst (mmaCaps s cl p t)) s
  let g (x : Option Nat) : Nat := x.getD 1000
  let a := accGet s cl d
  let s := modOp r.1 (fun o => { o with
    left := [g t.a, t.b, g t.c, g t.sa, g t.sb, g t.ba, g t.bb], act := some (d, accWord a) }) r.2
  let s := t.list.foldl (fun s h => addReader cl h 1 s) s
  let s := if p.fs.isSome then
      let k := p.m.ta.toNat % 16
      let x := accGet s cl k
      accPut cl k { x with readers := x.readers + 1 } s
    else s
  accPut cl d { a with st := 2#2, rows := BitVec.ofNat 7 (m - 1), cols := BitVec.ofNat 7 (n - 1) } s

/-- MMA as it fires (R273, R283). -/
def mmaFire (i : Instr) (s : State) : State :=
  match mmaParts i with
  | none => s
  | some p =>
    let cl := firingCl s
    let d := p.m.d.toNat
    match firstErr s.firing with
    | some c => emitErr s.firing i c (curNext cl d s)
    | none =>
      let t := mmaTiles s p
      if t.list.any fun h => decide (tdir s cl h = 0#64) then emitErr s.firing i (errTileState d) (curNext cl d s)
      else
        match firstBad (mmaSlots s cl p t) with
        | some k => emitErr s.firing i (errIllfmt k) (curNext cl d s)
        | none =>
          if mmaShapeBad s cl p t then emitErr s.firing i (errTileState d) (curNext cl d s) else mmaQueue i cl p t s

def execMmaDense (m : MmaRec) (s : State) : Out := .next (mmaFire (.mmaDense m) s)
def execMmaAcca (fs : BitVec 5) (clmp : Bool) (psh : BitVec 6) (m : MmaRec) (s : State) : Out :=
  .next (mmaFire (.mmaAcca fs clmp psh m) s)
def execMmaMx (sa sb : BitVec 8) (m : MmaRec) (s : State) : Out := .next (mmaFire (.mmaMx sa sb m) s)
def execMmaTwo (ba bb sa sb : BitVec 8) (m : MmaRec) (s : State) : Out := .next (mmaFire (.mmaTwo ba bb sa sb m) s)

/-- MMA_START: the unit takes the first queued MMA (R282). -/
def execMmaStart (cl : Nat) (s : State) : Out :=
  if easy s (dieOf cl) || s.ops.any fun o => decide (o.cl = cl ∧ o.ph = .mmaRun) then .next s
  else
    match s.ops.find? fun o => decide (o.cl = cl ∧ o.ph = .mmaQ) with
    | some o => .next (modOp o.id (fun o => { o with ph := .mmaRun }) s)
    | none => .next s

/-! ### The product (R284 to R286) -/

/-- A finite scale as a value, none when it is invalid (R86). -/
def scaleOf (f : W64) (bits : Nat) : Option Val :=
  match decodeVal f bits with
  | .nan _ _ => none
  | .inf _ => none
  | v => some v
/-- Block scale times band scale. -/
def scaleBoth (a b : Option Val) : Option Val :=
  match a, b with
  | some x, some y => some (vmul x y).1
  | _, _ => none

/-- An element of A or B: its value under its scales, and the flags it raises. `x`, `y` are its row and column; `along`
tells whether blocks run along the row (A) or down the column (B). -/
def mmaElem (s : State) (o : Op) (h sc bd : Nat) (isA : Bool) (x y : Nat) : Val × Flags :=
  let e := tdir s o.cl h
  let f := capOf o.cap (teFMT e)
  let v := prepVal f false (tileElem s o.cl e x y)
  if sc = 1000 then v
  else
    let se := tdir s o.cl sc
    let bs := if isA then tileElem s o.cl se x (y / blkOf f) else tileElem s o.cl se (x / blkOf f) y
    let band : Option Val :=
      if bd = 1000 then some (.fin false 1 0)
      else
        let be := tdir s o.cl bd
        scaleOf (capOf o.cap (teFMT be)) (if isA then tileElem s o.cl be (x / bandOf f) 0 else tileElem s o.cl be 0 (y / bandOf f))
    let r := dequantVal f (scaleBoth (scaleOf (capOf o.cap (teFMT se)) bs) band) v.1
    (r.1, r.2 ||| v.2)

/-- The down-converter (R286): the value of the code formed, and its flags. -/
def downConv (f : W64) (clmp : Bool) (psh : Int) (w : W32) : Val × Flags :=
  let v := prepVal b32 false w.toNat
  let x : Val := match v.1 with
    | .fin s m e => .fin s m (e + psh)
    | y => y
  let y : Val := if x.isNan then x else if clmp && x.sign then .zero false else x
  let c := encodeVal f (rmOfEntry f) false y
  let z := prepVal f false c.1
  (z.1, z.2 ||| c.2 ||| v.2)

/-- The exact sum of a block of products (R285). -/
def blockSum (l : List (Val × Bool)) : Val × Flags :=
  let vs := l.map (·.1)
  let bad := l.any (·.2)
  let pos := vs.any fun v => decide (v = .inf false)
  let neg := vs.any fun v => decide (v = .inf true)
  let fl : Flags := if bad || (pos && neg) then flNV else 0#5
  if (vs.any Val.isNan) || (pos && neg) then (.nan false false, fl)
  else if pos then (.inf false, fl)
  else if neg then (.inf true, fl)
  else
    match vs with
    | [] => (.zero false, fl)
    | v :: t => (t.foldl (fun a b => (vadd false a b).1) v, fl)

/-- One element of D: blocks of sixteen in ascending k, each sum added and rounded once. -/
def mmaDot (acc : Val × Flags) : Nat → List Val → List Val → Val × Flags
  | 0, _, _ => acc
  | q + 1, a, b =>
    let s := blockSum (List.zipWith vmul (a.take 16) (b.take 16))
    let t := opAdd false acc.1 s.1
    let r := nodeRound .rne false t.1
    mmaDot (r.1, acc.2 ||| s.2 ||| t.2 ||| r.2) q (a.drop 16) (b.drop 16)

/-- The accumulator's start (R285): C, +0, or D as stored. -/
def mmaInit (s : State) (o : Op) (hc i j : Nat) : Val × Flags :=
  let d := tileOf o
  if hc ≠ 1000 then
    let e := tdir s o.cl hc
    let v := prepVal (capOf o.cap (teFMT e)) false (tileElem s o.cl e i j)
    let r := nodeRound .rne false v.1
    (r.1, r.2 ||| v.2)
  else if d.2.extractLsb' 62 2 = 0#2 then (.zero false, 0#5)
  else prepVal b32 false (accElem s o.cl d.1 i j).toNat

/-- Every NaN that an MMA writes is 0x7FC0_0000. -/
def mmaCode (v : Val) : W32 := if v.isNan then 0x7FC00000#32 else BitVec.ofNat 32 (encodeVal b32 .rne false v).1

/-- Whether an MMA reads a bad unit: of a tile, of its source accumulator, or of D where it adds to it (R411). -/
def mmaBad (s : State) (o : Op) (p : MmaParts) : Bool :=
  let d := p.m.d.toNat
  let x := accGet s o.cl (p.m.ta.toNat % 16)
  let a := accGet s o.cl d
  (o.left.any fun h => decide (h ≠ 1000) && tileBad s o.cl (tdir s o.cl h)) ||
  (p.fs.isSome && accBad s o.cl (p.m.ta.toNat % 16) (x.rows.toNat + 1) (x.cols.toNat + 1)) ||
  (decide (o.left.getD 2 1000 = 1000) && decide ((tileOf o).2.extractLsb' 62 2 ≠ 0#2) &&
    accBad s o.cl d (a.rows.toNat + 1) (a.cols.toNat + 1))

/-- The readers of an MMA are gone. -/
def mmaFree (o : Op) (p : MmaParts) (s : State) : State :=
  let s := o.left.foldl (fun s h => if h = 1000 then s else addReader o.cl h (-1) s) s
  if p.fs.isSome then
    let x := accGet s o.cl (p.m.ta.toNat % 16)
    accPut o.cl (p.m.ta.toNat % 16) { x with readers := x.readers - 1 } s
  else s

/-- A completed MMA: D written, FULL, its cursor one wave on; readers gone; flags; the token (R282). -/
def mmaDone (o : Op) (p : MmaParts) (s : State) : State :=
  let g (k : Nat) : Nat := o.left.getD k 1000
  let d := p.m.d.toNat
  let eb := tdir s o.cl (g 1)
  let k := teRows eb
  let a := accGet s o.cl d
  let m := a.rows.toNat + 1
  let n := a.cols.toNat + 1
  let elA (i t : Nat) : Val × Flags :=
    match p.fs with
    | some fs => downConv (capOf o.cap fs.toNat) p.clmp p.psh.toInt (accElem s o.cl (p.m.ta.toNat % 16) i t)
    | none => mmaElem s o (g 0) (g 3) (g 5) true i t
  let rows := (List.range m).map fun i => (List.range k).map (elA i)
  let cols := (List.range n).map fun j => (List.range k).map fun t => mmaElem s o (g 1) (g 4) (g 6) false t j
  let fl0 : Flags := (rows ++ cols).foldl (fun x l => l.foldl (fun x v => x ||| v.2) x) 0#5
  let out := (List.range (m * n)).map fun z =>
    mmaDot (mmaInit s o (g 2) (z / n) (z % n)) (k / 16) ((rows.getD (z / n) []).map (·.1)) ((cols.getD (z % n) []).map (·.1))
  let fl := out.foldl (fun x v => x ||| v.2) fl0
  let s1 := (List.range (m * n)).foldl (fun s z =>
    setAccElem o.cl d (z / n) (z % n) (mmaCode ((out.map (·.1)).getD z (.zero false))) s) s
  let s2 := accPut o.cl d { a with st := 1#2, cur := waveAdd a.cur 1#24 } s1
  delOp o.id (emit64 (opFiring o) o.ins (BitVec.ofNat 64 d) (raise o.inst fl (mmaFree o p s2)))

/-- An MMA that met a bad unit: D EMPTY, its cursor one wave on, POISON (R411, R283). -/
def mmaSpoilt (o : Op) (p : MmaParts) (s : State) : State :=
  let d := p.m.d.toNat
  storeError o (accEmpty o.cl d (waveAdd (accGet s o.cl d).cur 1#24) (mmaFree o p s))

/-- MMA_COMPLETE. -/
def execMmaComplete (cl : Nat) (s : State) : Out :=
  match s.ops.find? fun o => decide (o.cl = cl ∧ o.ph = .mmaRun) with
  | none => .next s
  | some o =>
    match mmaParts o.ins with
    | some p => .next (if mmaBad s o p then mmaSpoilt o p s else mmaDone o p s)
    | none => .next s

end Sys2Proof.Machine
end

