-- ==== Sys2Proof/Machine/Threads.lean ====
section
/-! DEFINITION. Threads, tags, loops and calls (R160 to R175): SPAWN, TAG, LOOP, CALL and RET, and the two steps that a
wave-order unit takes for a call, the hand-off and the return. -/
namespace Sys2Proof.Machine

/-- The operands of a held record go back, oldest of their slot and tag (R164). -/
def putBack (i : Instr) (s : State) : State :=
  let f := s.firing
  let pos (p : Pos) (t : Tok) : Option Tok := if tokenFed i p then some t else none
  let st : PSet := { place := f.place, tag := f.tag, a := pos .a f.a, b := pos .b f.b, c := pos .c f.c, spilled := false, since := 0, recs := [] }
  modInst f.inst (fun n => { n with sets := st :: n.sets }) s

/-- A THR allocated to a new thread: LIVE, the given CW, LAST none, a chain of its own (R164). -/
def allocThr (inst : Nat) (c : BitVec 16) (cw : BitVec 24) (s : State) : State :=
  modThr inst c (fun th => { th with st := .live, cw := cw, last := none, frame := none, eos := false,
                                     chain := 65536 + s.nextId, acq := none, cov := [] }) { s with nextId := s.nextId + 1 }

/-- R164. A SPAWN that finds no free THR is held: its operands stay. -/
def spawn (i : Instr) (s : State) : State :=
  let f := s.firing
  match (findInst s f.inst).bind fun n => lowestFree n 0 1 with
  | none => putBack i s
  | some c =>
    let w := (b64 f).setWidth 24
    endIf (sOr f) f.inst f.tag.thr (emitAt f i { thr := c, wave := w } f.a.payload false (allocThr f.inst c w s))
def execSpawn (r : CtlRec) (s : State) : Out := unlessErr (.spawn r) (spawn (.spawn r)) s

/-- R165: the firing tag. -/
def execTagGet (r : CtlRec) (s : State) : Out :=
  unlessErr (.tagGet r) (fun s => emit64 s.firing (.tagGet r) (0#24 ++ s.firing.tag.thr ++ s.firing.tag.wave) s) s

/-- R165, R166: a's payload under a new tag; when THR changes, S is 0 and ends the old thread's stream. -/
def tagMove (i : Instr) (t : Tag) (s : State) : State :=
  let f := s.firing
  if t.thr = f.tag.thr then emitAt f i t f.a.payload (sOr f) s
  else endIf (sOr f) f.inst f.tag.thr (emitAt f i t f.a.payload false s)
def execTagSet (r : CtlRec) (s : State) : Out :=
  unlessErr (.tagSet r) (fun s =>
    tagMove (.tagSet r) { thr := (b64 s.firing).extractLsb' 24 16, wave := (b64 s.firing).setWidth 24 } s) s
def execTagThr (r : CtlRec) (s : State) : Out :=
  unlessErr (.tagThr r) (fun s => tagMove (.tagThr r) { s.firing.tag with thr := (b64 s.firing).setWidth 16 } s) s
def execTagWav (r : CtlRec) (s : State) : Out :=
  unlessErr (.tagWav r) (fun s => tagMove (.tagWav r) (waveAdd s.firing.tag ((b64 s.firing).setWidth 24)) s) s

/-- R172: a's payload under the firing tag; b is the permit. -/
def execLoopGate (r : CtlRec) (s : State) : Out :=
  unlessErr (.loopGate r) (fun s => emitVal s.firing (.loopGate r) s.firing.a.payload s) s

/-- The gates whose operand b this LOOP.OPEN targets (R173). -/
def openGates (i : Inst) (p : Place) (ts : List Target) : List Place :=
  (ts.filter fun t => decide (t.opnd = .b) &&
    (match slotInstr i (targetPlace p t) with
     | some (.loopGate _) => true
     | _ => false)).map (targetPlace p)

/-- Whether a set holds a permit that LOOP.OPEN discards: of thread t, at a gate, in position b (R173). -/
def permitAt (gates : List Place) (t : BitVec 16) (st : PSet) : Bool :=
  gates.contains st.place && decide (st.tag.thr = t) && st.b.isSome

/-- The sets without those permits; a set left empty is none. -/
def dropPermits (gates : List Place) (t : BitVec 16) (l : List PSet) : List PSet :=
  (l.map fun st => if permitAt gates t st then { st with b := none, recs := st.recs.filter fun r => decide (r.1 ≠ 1) } else st).filter fun st =>
    st.a.isSome || st.b.isSome || st.c.isSome

/-- R173 step 1. -/
def discardPermits (inst : Nat) (p : Place) (t : BitVec 16) (ts : List Target) (s : State) : State :=
  match findInst s inst with
  | none => s
  | some i =>
    let g := openGates i p ts
    let ended := i.sets.any fun st => permitAt g t st && (st.b.map (·.s)).getD false
    endIf ended inst t (modInst inst (fun i => { i with sets := dropPermits g t i.sets }) s)

/-- R173 step 2: a's payload under waves w to w + k − 1; only the first carries S. -/
def emitWaves (i : Instr) (k : Nat) (s : State) : State :=
  let f := s.firing
  (List.range k).foldl (fun s j =>
    emitAt f i (waveAdd f.tag (BitVec.ofNat 24 j)) f.a.payload (decide (j = 0) && sOr f) s) s
def execLoopOpen (r : CtlRec) (k : BitVec 7) (s : State) : Out :=
  unlessErr (.loopOpen r k) (fun s =>
    emitWaves (.loopOpen r k) k.toNat (discardPermits s.firing.inst s.firing.place s.firing.tag.thr r.tgts s)) s

/-- R174. -/
def loopClose (i : Instr) (s : State) : State :=
  let f := s.firing
  let d := min ((b64 f).setWidth 7).toNat 64
  if d = 0 then s else emitAt f i (waveAdd f.tag (BitVec.ofNat 24 d)) f.a.payload (sOr f) s
def execLoopClose (r : CtlRec) (s : State) : Out := unlessErr (.loopClose r) (loopClose (.loopClose r)) s

/-- The callee entry of a CALL: a target half-word relative to the CALL's cluster (R167). -/
def calleeOf (w : W32) : Target := targetOfBits w

/-- R168 step 2: the conditions that make an entry bad. -/
def badEntry (i : Inst) (p : Place) (v : Bool) (w : W32) : Bool :=
  let t := calleeOf w
  let x := (p.x : Int) + t.dx.toInt
  let y := (p.y : Int) + t.dy.toInt
  decide (w.extractLsb' 0 10 ≠ 0#10) || decide (w.extractLsb' 10 2 = 3#2) ||
  decide (x < 0 ∨ y < 0 ∨ x ≥ i.w ∨ y ≥ i.h) ||
  (match slotInstr i (targetPlace p t) with
   | none => true
   | some r =>
     !(tokenFed r t.opnd) ||
     (match ((shape r).bind (·.at t.opnd)).bind (PW.wide (vOf r)) with
      | some wd => wd != v
      | none => false))

/-- Steps 3 and 4 of R168: the child is allocated and the hand-off request sent; held while no THR of the caller's home
cluster is free. -/
def callFire (i : Instr) (v : Bool) (s : State) : State :=
  let f := s.firing
  match findInst s f.inst with
  | none => s
  | some n =>
    let entry := (b64 f).setWidth 32
    if badEntry n f.place v entry then emitErr f i (errCallBad entry) s
    else
      let m := n.w * n.h
      match lowestFree n (f.tag.thr.toNat % m) m with
      | none => putBack i s
      | some c =>
        let s1 := modThr f.inst c (fun th => { th with st := .live, frame := none, eos := false, acq := none, cov := [] }) s
        let r := newOp i .callHold (homeCl n f.tag.thr) [] s1
        modOp r.1 (fun o => { o with n := c.toNat }) r.2
def execCall (r : CtlRec) (s : State) : Out := unlessErr (.call r) (callFire (.call r) r.v) s

/-- R170: a RET without a frame records CALL_BAD at its own place; otherwise it sends a return request. -/
def retFire (i : Instr) (s : State) : State :=
  let f := s.firing
  match (thrOf s f.inst f.tag.thr).frame with
  | none => endIf f.a.s f.inst f.tag.thr (recordError f.inst 0x0A#8 f.tag f.place s)
  | some _ => (newOp i .retHold (firingHome s) [] s).2
def execRet (r : CtlRec) (s : State) : Out := .next (retFire (.ret r) s)

/-- Whether a hand-off can be carried out (R169): the caller is LIVE, its wave w has ended, and no ordered operation of
wave w + 1 has been performed. -/
def handOffReady (s : State) (o : Op) : Bool :=
  let th := thrOf s o.inst o.tag.thr
  decide (o.ph = .callHold ∧ th.st = .live ∧ th.cw = o.tag.wave + 1#24 ∧ th.last = none)

/-- The waiting CALL of a thread that goes next: the one that fired first among those whose conditions hold. -/
def nextCall (s : State) (inst : Nat) (t : BitVec 16) : Option Op :=
  s.ops.find? fun o => decide (o.inst = inst ∧ o.tag.thr = t) && handOffReady s o

/-- The instant of a hand-off (R169). -/
def doHandOff (o : Op) (s : State) : State :=
  let c := BitVec.ofNat 16 o.n
  let th := thrOf s o.inst o.tag.thr
  let fr : Frame := { caller := o.tag.thr, crec := o.place, rwave := o.tag.wave + 1#24, s := o.a.s || o.b.s }
  let s1 := modThr o.inst o.tag.thr (fun th => { th with st := .caller }) s
  let s2 := modThr o.inst c (fun x => { x with st := .live, cw := 0#24, last := none, frame := some fr, eos := false,
                                               chain := th.chain, acq := th.acq, cov := th.cov }) s1
  let tok : Tok := { payload := o.a.payload, wide := vOf o.ins, tag := { thr := c, wave := 0#24 }, e := false, s := false,
                     deps := firingDeps (opFiring o) }
  delOp o.id (sendFrom o.inst o.place [calleeOf ((o.b.payload).setWidth 32)] tok s2)

/-- HAND_OFF: the caller's first waiting CALL, when its conditions hold (R169). -/
def execHandOff (op : Nat) (s : State) : Out :=
  match findOp s op with
  | none => .next s
  | some o =>
    match nextCall s o.inst o.tag.thr with
    | some p => .next (if p.id = op && !halting s o.inst then doHandOff o s else s)
    | none => .next s

/-- What a return emits: a's error token, CALL_BAD when the widths differ, else the payload (R170). -/
def retTok (o : Op) (fr : Frame) (callV : Bool) : Tok :=
  let base : Tok := { payload := (0x0A#64).setWidth 256, wide := callV, tag := { thr := fr.caller, wave := fr.rwave }, e := true,
                      s := fr.s, deps := firingDeps (opFiring o) }
  if o.a.e then { base with payload := (o.a.payload.setWidth 64).setWidth 256 }
  else if vOf o.ins ≠ callV then base
  else { base with payload := o.a.payload, e := false }

/-- Whether a return can be carried out (R170). -/
def returnReady (s : State) (o : Op) : Bool :=
  let th := thrOf s o.inst o.tag.thr
  decide (o.ph = .retHold ∧ th.cw = o.tag.wave + 1#24 ∧ th.last = none)

/-- RETURN: the child ends, the caller resumes, the result goes to the CALL's targets; a waiting CALL whose conditions
then hold is handed off in the same step (R169, R170). -/
def doReturn (o : Op) (fr : Frame) (s : State) : State :=
  let call := (findInst s o.inst).bind fun i => slotInstr i fr.crec
  let ts := (call.map targetsOf).getD []
  let cv := (call.map vOf).getD false
  let child := thrOf s o.inst o.tag.thr
  let s1 := modThr o.inst o.tag.thr (fun th => { th with frame := none }) (delOp o.id s)
  let s2 := endOfStream o.inst o.tag.thr s1
  let s3 := modThr o.inst fr.caller (fun th =>
    { th with st := if th.eos then .ended else .live, acq := child.acq, cov := child.cov }) s2
  let s4 := sendFrom o.inst fr.crec ts (retTok o fr cv) s3
  let s5 := match nextCall s4 o.inst fr.caller with
    | some p => doHandOff p s4
    | none => s4
  freeEnded o.inst s5
/-- RETURN. A second RET of a thread, still waiting when its frame has gone, finds no frame and stays (assumption 52). -/
def execReturn (op : Nat) (s : State) : Out :=
  match findOp s op with
  | none => .next s
  | some o =>
    match (thrOf s o.inst o.tag.thr).frame with
    | none => .next s
    | some fr => .next (if returnReady s o && !halting s o.inst then doReturn o fr s else s)

end Sys2Proof.Machine
end

