-- ==== Sys2Proof/Machine/Transfer.lean ====
section
/-! DEFINITION. The transfer engines (R297 to R318): firing, admission, engines and edges, claims, chunks, parking and
completion. -/
namespace Sys2Proof.Machine

/-! ### Firing -/

def execXcopy (r : XferRec) (s : State) : Out := .next (memFire (.xcopy r) [] none s)
def execXgath (r : XferRec) (s : State) : Out := .next (memFire (.xgath r) [] none s)
def execXscat (r : XferRec) (s : State) : Out := .next (memFire (.xscat r) [] none s)
def execXtile (r : XferRec) (s : State) : Out := .next (memFire (.xtile r) [] none s)
def execXfill (r : XferRec) (s : State) : Out := .next (memFire (.xfill r) [] none s)
/-- XACC captures its slot; admission checks it (R302). -/
def execXacc (r : XferRec) (s : State) : Out := .next (memFire (.xacc r) [r.fs.toNat] none s)

/-! ### Admission (Table 14.4) -/

/-- R303. -/
def errXfer (cause off : Nat) : W64 := BitVec.ofNat 48 off ++ BitVec.ofNat 8 cause ++ 0x09#8
def xcFIELD : Nat := 1
def xcRANGE : Nat := 2
def xcPOISON : Nat := 3
def xcPERM : Nat := 4

def xCap (x : Xfer) : W64 := (x.cap.head?.map (·.2)).getD 0#64
def xC (x : Xfer) : Nat := containerOf (xCap x)
/-- The slot an XACC names. -/
def xSlot (i : Instr) : Nat :=
  match i with
  | .xacc r => r.fs.toNat
  | _ => 0

/-- Row 1: a field that must be zero, or out of its range. -/
def xMalformed (w h : Nat) (i : Instr) (r : W256) : Bool :=
  let a56 (k : Nat) : Bool := decide (2 ^ 56 ≤ xq r k)
  match i with
  | .xcopy _ => a56 0 || a56 1 || decide (2 ^ 40 ≤ xq r 2) || decide (xCtl r ≠ 0)
  | .xgath _ | .xscat _ => a56 0 || a56 1 || a56 2 || decide (12 < xEsz r) || decide (32 < xLlim r)
  | .xtile _ =>
    a56 0 || decide (xq r 1 / 2 ^ 45 % 2 ^ 17 ≠ 0) || decide (xq r 1 / 2 ^ 32 % 16 ≠ 0) || decide (xq r 1 / 2 ^ 8 % 256 ≠ 0) ||
    decide (xq r 2 ≠ 0) || decide (xCtl r ≠ 0) || decide (w ≤ xX r) || decide (h ≤ xY r)
  | .xfill _ => a56 0 || decide (2 ^ 40 ≤ xq r 2) || decide (xCtl r ≠ 0)
  | .xacc _ => a56 0 || a56 1 || decide (2 ^ 32 ≤ xq r 2) || decide (xCtl r ≠ 0)
  | _ => false

/-- Row 3: addresses with the alignment each needs. -/
def xAligns (i : Instr) (r : W256) (c : Nat) : List (Nat × Nat) :=
  match i with
  | .xgath _ | .xscat _ => [(xq r 0, min (xElem r) 8), (xq r 1, min (xElem r) 8), (xq r 2, 4)]
  | .xtile _ => [(xq r 0, 32)]
  | .xacc _ => if 8 ≤ c then [(xq r 0, c / 8), (xq r 1, c / 8)] else []
  | _ => []

/-- The first check that fails, with `e0` entry HANDLE and `e` entry h′ (assumption 24: the address that PERM and ALIGN
name). -/
def xCheck (w h : Nat) (x : Xfer) (e0 e : W64) (sel : Nat) : Option W64 :=
  let f := footOf x.ins x.req (xC x) e
  if xMalformed w h x.ins x.req then some (errXfer xcFIELD 0)
  else
    match (f.1 ++ f.2).find? fun g => decide (0 < g.2 ∧ 2 ^ 56 < g.1 + g.2) with
    | some g => some (errPerm g.1)
    | none =>
      match (xAligns x.ins x.req (xC x)).find? fun g => decide (g.1 % g.2 ≠ 0) with
      | some g => some (errAlign g.1)
      | none =>
        if anyMeet f.1 f.2 then some (errXfer xcFIELD 0)
        else
          match x.ins with
          | .xacc _ => if acceptLanes (xCap x) then none else some (errIllfmt (xSlot x.ins))
          | .xtile _ =>
            if e0 = 0#64 then some (errTileState (xHandle x.req))
            else if e = 0#64 then some (errTileState sel) else none
          | _ => none

/-- R311: the completion or error token under CTAG, from a node; it hands on what is sequenced before the transfer (R240, R242). -/
def xEmit (x : Xfer) (node : SweepNode) (err : Option W64) (v : W64) (s : State) : State :=
  let tag := xCtag x.req
  let same := decide (tag.thr = x.tag.thr)
  let tok : Tok :=
    { payload := (err.getD v).setWidth 256, wide := false, tag := tag, e := err.isSome, s := same && x.as_,
      deps := passOn s x.deps x.id (chainBefore s x.inst x.chain x.id x.seqNo x.tag.thr) (footPlaces s x.inst (x.rd ++ x.wr)) }
  let s := sendTok x.inst (.xfer x.id) node x.place (targetsOf x.ins) tok s
  endIf (!same && x.as_) x.inst x.tag.thr s

/-- Restored, and not admitted again yet. -/
def isAgain (x : Xfer) : Bool :=
  match x.ph with
  | .again _ _ => true
  | _ => false
/-- Unfinished transfers in a context's footprint table. -/
def xTable (s : State) (ctx : Nat) : List Xfer := s.xfers.filter fun x => decide (x.ctx = ctx ∧ x.ph ≠ .port) && !isAgain x
/-- The first transfer in a port's queue. -/
def portHead (s : State) (cl : Nat) : Option Xfer := s.xfers.find? fun x => decide (x.ph = .port ∧ x.cl = cl)
/-- Whether an admitted request accesses nothing. -/
def xEmpty (x : Xfer) : Bool :=
  match x.ins with
  | .xcopy _ | .xfill _ => decide (xLen x.req = 0)
  | .xacc _ => decide (xAccCount x.req = 0)
  | _ => false

/-- ADMISSION of the first transfer in a port's queue. -/
def admitted_ (x : Xfer) (i : Inst) (s : State) : State :=
  let sel := xSel s x.inst x.req
  let cl := xTileCl s x.inst x.req
  let e0 := tdir s cl (xHandle x.req)
  let e := tdir s cl sel
  match xCheck i.w i.h x e0 e sel with
  | some code => delX x.id (xEmit x .frontEnd (some code) 0#64 s)
  | none =>
    let f := footOf x.ins x.req (xC x) e
    let ph : XPhase := match x.ins with
      | .xtile _ => .claim
      | _ => if xEmpty x then .finish else .admitted
    { s with
      nextId := s.nextId + 1,
      xfers := s.xfers.filter (fun y => decide (y.id ≠ x.id)) ++
        [{ x with ph := ph, arr := s.nextId, rd := f.1, wr := f.2, hsel := sel, entry := e }] }
/-- The phase that a saved transfer's STATE stands for. -/
def tablePhase (st : Nat) (fid : W32) : XPhase := if st = 1 then .parked fid else if st = 2 then .claim else .admitted
/-- A restored transfer's second admission, in saved order, which the list keeps (R318). -/
def readmit (t : Xfer) (st : Nat) (fid : W32) (s : State) : State :=
  modX t.id (fun y => { y with ph := tablePhase st fid, arr := s.nextId }) { s with nextId := s.nextId + 1 }
/-- ADMISSION. An instance's restored transfers go before what its ports hold. -/
def execAdmission (x : Nat) (s : State) : Out :=
  match findX s x with
  | none => .next s
  | some t =>
    if 1024 ≤ (xTable s t.ctx).length then .next s
    else
      let first := s.xfers.find? fun y => decide (y.inst = t.inst) && isAgain y
      match t.ph, findInst s t.inst with
      | .port, some i => .next (if first.isNone ∧ (portHead s t.cl).map (·.id) = some x then admitted_ t i s else s)
      | .again st fid, _ => .next (if first.map (·.id) = some x then readmit t st fid s else s)
      | _, _ => .next s

/-! ### Engines (R299, R305) -/

/-- Overlaps that hold a later transfer back: RAW, WAR and WAW. -/
def edge (a b : Xfer) : Bool := anyMeet a.wr b.rd || anyMeet a.rd b.wr || anyMeet a.wr b.wr
/-- An admitted transfer that may take an engine: its instance is not being swept, and no edge holds it. -/
def eligible (s : State) (x : Xfer) : Bool :=
  decide (x.ph = .admitted) && !halting s x.inst &&
  !((xTable s x.ctx).any fun a => decide (a.arr < x.arr) && edge a x)
/-- The free engine of a die with the lowest number (assumption 56). -/
def freeEngine (s : State) (die : Nat) : Option Nat :=
  ((List.range 32).map fun k => 32 * die + k).find? fun k => !(s.xfers.any fun x => decide (x.act = some k))
/-- Round robin among contexts after the one served last, in handle order; admission order within one, replays of a context among
themselves in the order in which they were issued again (R299, R358). -/
def takesNext (s : State) (die : Nat) : Option Xfer :=
  let l := s.xfers.filter fun x => decide (dieOf x.cl = die) && eligible s x
  let last := assocGet 0 s.fe.rr die
  let rank (c : Nat) : Nat := if last ≤ c then c else c + 65536
  let first := l.foldl (fun m x =>
    match m with
    | none => some x
    | some y => if rank x.ctx < rank y.ctx ∨ (x.ctx = y.ctx ∧ x.arr < y.arr) then some x else some y) none
  first.map fun f =>
    if f.replay = 0 then f
    else (l.filter fun x => decide (x.ctx = f.ctx ∧ 0 < x.replay)).foldl (fun m x => if x.replay < m.replay then x else m) f
/-- ENGINE_TAKE. -/
def execEngineTake (x : Nat) (s : State) : Out :=
  match findX s x with
  | none => .next s
  | some t =>
    let die := dieOf t.cl
    match freeEngine s die, takesNext s die with
    | some k, some y =>
      .next (if y.id = x then
        modX x (fun z => { z with ph := .running, act := some k, replay := 0 })
          { s with fe := { s.fe with rr := assocSet s.fe.rr die (t.ctx + 1) } } else s)
    | _, _ => .next s

/-! ### XTILE's claim (R313) -/

/-- An entry but for STATE. -/
def teBody (e : W64) : W64 := e &&& 0x3FFFFFFFFFFFFFFF#64
/-- A transfer ends: with an error, or well. -/
def endX (id : Nat) (err : Option W64) (s : State) : State :=
  dropFlits id (modX id (fun x => { x with ph := .finish, err := err, els := none, pins := [], ahead := [] }) s)
/-- Completion without a claim. -/
def xRefuse (x : Xfer) (code : W64) (s : State) : State := delX x.id (xEmit x .frontEnd (some code) 0#64 s)
def claimStep (x : Xfer) (s : State) : State :=
  let cl := xTileCl s x.inst x.req
  let e := tdir s cl x.hsel
  if e = 0#64 ∨ teBody e ≠ teBody x.entry then xRefuse x (errTileState x.hsel) s
  else if fmtBad s x.inst acceptScalar e then xRefuse x (errIllfmt (teFMT e)) s
  else if xOut x.req then
    (if teSTATE e = tsFULL then modX x.id (fun y => { y with ph := .admitted }) (addReader cl x.hsel 1 s) else s)
  else if teSTATE e = tsEMPTY ∧ tReaders s cl x.hsel = 0 then
    modX x.id (fun y => { y with ph := .admitted }) (setTState cl x.hsel tsBUSY s)
  else s
/-- A claim that must wait for its tile; waiting is no progress (R313). -/
def claimWaits (s : State) (x : Xfer) : Bool :=
  let cl := xTileCl s x.inst x.req
  let e := tdir s cl x.hsel
  decide (x.ph = .claim) && !(decide (e = 0#64 ∨ teBody e ≠ teBody x.entry)) && !fmtBad s x.inst acceptScalar e &&
  !(if xOut x.req then decide (teSTATE e = tsFULL) else decide (teSTATE e = tsEMPTY ∧ tReaders s cl x.hsel = 0))
/-! ### Translation and pins (R316, R317) -/

/-- One access of a chunk within a window: stream, address, length, need. -/
structure XAcc where
  stream : Nat
  va     : Nat
  len    : Nat
  need   : Need
  deriving DecidableEq, Repr

def whoX (x : Xfer) : Who := .engine (x.act.getD (32 * dieOf x.cl))
/-- The translation of an access: under its stream's pin, or a fresh one, which then is pinned. -/
def xlate (id die : Nat) (c : Ctx) (a : XAcc) (s : State) : Access × State :=
  match findX s id with
  | none => (.wait, s)
  | some x =>
    match x.pins.find? fun q => decide (q.stream = a.stream ∧ q.win = a.va / 65536) with
    | some q => (.ok [elOf s c (a.va, a.len, .leaf q.leaf q.size 0)], s)
    | none =>
      let f := leavesOf (some die) (whoX x) c [(a.va, a.len)] s
      let r := settleLeaves (some die) c a.need f.1 f.2
      match r.1, f.1 with
      | .ok els, [(_, _, .leaf e size _)] =>
        (.ok els, modX id (fun y => { y with pins := y.pins ++
          [{ stream := a.stream, win := a.va / 65536, leaf := e, size := size }] }) r.2)
      | z, _ => (z, r.2)

/-- What becomes of all accesses of a chunk, in order; the first that fails decides, with the access it concerns. -/
def xlateAll (id die : Nat) (c : Ctx) : List XAcc → State → Access × Option XAcc × State
  | [], s => (.ok [], none, s)
  | a :: t, s =>
    let r := xlate id die c a s
    match r.1 with
    | .ok l =>
      let q := xlateAll id die c t r.2
      (match q.1 with
       | .ok m => (.ok (l ++ m), none, q.2.2)
       | z => (z, q.2.1, q.2.2))
    | z => (z, some a, r.2)

/-! ### Chunks (R307 to R310) -/

/-- Bytes of a line of XTILE. -/
def xLine (x : Xfer) : Nat := lineLen x.entry
/-- The destination range that XCOPY, XFILL and XACC divide. -/
def xRange (x : Xfer) : Nat × Nat :=
  match x.ins with
  | .xfill _ => (xq x.req 0, xLen x.req)
  | .xacc _ => (xq x.req 1, xAccLen x.req (xC x))
  | _ => (xq x.req 1, xLen x.req)
/-- Chunk j of a range: its offset and length. -/
def chunkOf (r : Nat × Nat) (j : Nat) : Nat × Nat :=
  let lo := max r.1 ((r.1 / 256 + j) * 256)
  (lo - r.1, min (r.1 + r.2) ((r.1 / 256 + j + 1) * 256) - lo)
def xChunks (x : Xfer) : Nat :=
  match x.ins with
  | .xgath _ | .xscat _ => xGsCount x.req
  | .xtile _ => lineCount x.entry
  | _ => let r := xRange x; if r.2 = 0 then 0 else (r.1 + r.2 - 1) / 256 - r.1 / 256 + 1
/-- The stream offset of chunk j (R309). -/
def xOffset (x : Xfer) (j : Nat) : Nat :=
  match x.ins with
  | .xgath _ | .xscat _ => j * xElem x.req
  | .xtile _ => j * xLine x
  | _ => (chunkOf (xRange x) j).1
def xIdx (x : Xfer) (j : Nat) : Nat × Bool :=
  match x.idx[j]? with
  | some p => (p.1.toNat, p.2)
  | none => (0, false)

def needR : Need := ⟨true, false, false⟩
def needW : Need := ⟨false, true, false⟩
def needRW : Need := ⟨true, true, false⟩
def xaccs (stream va n : Nat) (need : Need) : List XAcc :=
  (winPieces va n).map fun p => { stream := stream, va := p.1, len := p.2, need := need }

/-- What chunk j reads: its source, and an XACC's destination, which it writes as well. A poisoned index names no source. -/
def chunkReads (x : Xfer) (j : Nat) : List XAcc :=
  let q := xq x.req
  let g := chunkOf (xRange x) j
  let n := xElem x.req
  match x.ins with
  | .xcopy _ => xaccs 0 (q 0 + g.1) g.2 needR
  | .xacc _ => xaccs 0 (q 0 + g.1) g.2 needR
  | .xgath _ => if (xIdx x j).2 then [] else xaccs 0 (q 0 + (xIdx x j).1 * n) n needR
  | .xscat _ => if (xIdx x j).2 then [] else xaccs 0 (q 0 + j * n) n needR
  | .xtile _ => if xOut x.req then [] else xaccs 0 (q 0 + j * tePitch x.entry) (xLine x) needR
  | _ => []
/-- What chunk j writes. -/
def chunkWrites (x : Xfer) (j : Nat) : List XAcc :=
  let q := xq x.req
  let g := chunkOf (xRange x) j
  let n := xElem x.req
  match x.ins with
  | .xcopy _ => xaccs 1 (q 1 + g.1) g.2 needW
  | .xfill _ => xaccs 1 (q 0 + g.1) g.2 needW
  | .xacc _ => xaccs 1 (q 1 + g.1) g.2 needRW
  | .xgath _ => xaccs 1 (q 1 + j * n) n needW
  | .xscat _ => if (xIdx x j).2 then [] else xaccs 1 (q 1 + (xIdx x j).1 * n) n needW
  | .xtile _ => if xOut x.req then xaccs 0 (q 0 + j * tePitch x.entry) (xLine x) needW else []
  | _ => []

/-- XGATH and XSCAT first read their index array, up to 256 bytes at a time (R308). -/
def wantsIdx (x : Xfer) : Bool :=
  match x.ins with
  | .xgath _ | .xscat _ => decide (x.idx.length < xGsCount x.req)
  | _ => false
def idxReads (x : Xfer) : List XAcc :=
  let n := min 64 (xGsCount x.req - x.idx.length)
  xaccs 2 (xq x.req 2 + 4 * x.idx.length) (4 * n) needR

def curReads (x : Xfer) : List XAcc := if wantsIdx x then idxReads x else chunkReads x x.next
def curWrites (x : Xfer) : List XAcc := if wantsIdx x then [] else chunkWrites x x.next

/-- R306: every earlier operation of the chain that writes a byte of the footprints is complete at DEV, and every one that
reads a byte of the write footprint has its value. -/
def chainClear (s : State) (x : Xfer) : Bool :=
  s.ops.all fun p =>
    if decide (p.inst = x.inst ∧ p.chain = x.chain ∧ 0 < p.seqNo ∧ p.seqNo < x.seqNo) && isOrdered p.ins then
      let t := touched s p
      (!anyMeet t.2 (x.rd ++ x.wr) || completeAt s .dev p.id) && (!anyMeet t.1 x.wr || obtained s p.id)
    else true

/-- A transfer parks at its next chunk: its engine is freed, its pins are released (R316, R352). -/
def parkX (x : Xfer) (a : XAcc) (kind : Byte) (lvl va : Nat) (s : State) : State :=
  match findInst s x.inst with
  | none => s
  | some i =>
    let r := takeException i.ctx (some x.inst) 0#32
      { kind := kind, src := 2#4, acc := accCode a.need, level := BitVec.ofNat 8 lvl, va := BitVec.ofNat 64 va,
        place := placeWord x.place x.tag, data := BitVec.ofNat 64 (xOffset x x.next) } s
    dropFlits x.id (modX x.id (fun y => { y with ph := .parked r.1, els := none, pins := [], act := none, ahead := [] }) r.2)

/-- Flits for the accesses in peer memory. -/
def xFlits (id : Nat) (els : List El) (s : State) : State :=
  (List.range els.length).foldl (fun s k =>
    match els[k]? with
    | some e => if e.kind = .peer then sendLines id k (peerNode e.pa) (peerOff e.pa) e.len s else s
    | none => s) s

/-- The accesses of the next chunk are translated: it parks, ends by permission (R310, R396), or goes on. On a page of the
index array it names chunk 0 with nothing written, and PERM wins over poison that an earlier chunk met (the model's choices; assumption 67). -/
def xTranslate (x : Xfer) (c : Ctx) (s : State) : State :=
  let r := xlateAll x.id (dieOf x.cl) c (curReads x ++ curWrites x) s
  match r.1, r.2.1 with
  | .ok els, _ =>
    let s := r.2.2
    if els.any fun e => decide (e.kind = .peer) && !peerAdmits s true e.pa then
      endX x.id (some (errXfer xcPERM (xOffset x x.next))) s
    else if cacheGoing s && (els.any fun e => decide (e.kind = .hostc)) then s
    else
      let els := els.map (peerEl s)
      xFlits x.id els (modX x.id (fun y => { y with els := some els }) s)
  | .park k l va, some a => parkX x a k l va r.2.2
  | .perm _, _ => endX x.id (some (errXfer xcPERM (xOffset x x.next))) r.2.2
  | _, _ => r.2.2

/-- Accesses k, k+1, … of a chunk prepared at their places: can all be performed now? Host memory under CXL.cache is accessed in the RDC of the
engine's die (Table 11.2). -/
def xReady (id die : Nat) : List (El × Bool) → Nat → State → Bool × State
  | [], _, s => (true, s)
  | (e, wr) :: t, k, s =>
    let r : Bool × State := match e.kind with
      | .peer => (flitReady true s id k, s)
      | .hole | .mmio => (true, s)
      | .hostc => rdcReady die wr e s
      | _ => prepareRange wr e.key e.pa e.len s
    if r.1 then xReady id die t (k + 1) r.2 else (false, r.2)

def xReadEl (x : Xfer) (e : El) (s : State) : List (Byte × Bool) × State :=
  match e.kind with
  | .peer => (peerRead (tagKey e.key) e.pa e.len s, s)
  | .hole => (List.replicate e.len (0#8, true), reportHoleBy (whoX x) e.pa s)
  | .mmio => (List.replicate e.len (0#8, false), s)
  | .hostc => (rdcBytes (dieOf x.cl) e.pa e.len s, s)
  | _ => (placeRead e.key e.pa e.len s, s)
def xReadAll (x : Xfer) : List El → State → List (Byte × Bool) × State
  | [], s => ([], s)
  | e :: t, s =>
    let r := xReadEl x e s
    let q := xReadAll x t r.2
    (r.1 ++ q.1, q.2)
def xWriteAll (x : Xfer) (poison : Bool) : List El → List Byte → State → State
  | [], _, s => s
  | e :: t, bs, s =>
    let b := bs.take e.len
    let s := match e.kind with
      | .peer => peerWrite (tagKey e.key) e.pa b poison s
      | .hole => reportHoleBy (whoX x) e.pa s
      | .mmio => s
      | .hostc => rdcStore (dieOf x.cl) e.pa b poison s
      | _ => placeWrite e.key e.pa b poison s
    xWriteAll x poison t (bs.drop e.len) s

/-- XACC on the elements of a chunk (R315): the new bytes, and flags. `n` elements of container c, from the source bytes and
the destination bytes. -/
def accChunk (f : W64) (n : Nat) (src dst : List Byte) : List Byte × Flags :=
  let c := containerOf f
  let a := natOfBytes src
  let b := natOfBytes dst
  let r := (List.range n).foldl (fun (z : Nat × Flags) i =>
    let old := b / 2 ^ (c * i) % 2 ^ c
    let v := spaccSum f old (a / 2 ^ (c * i) % 2 ^ c)
    (z.1 - old * 2 ^ (c * i) + (v.1 % 2 ^ c) * 2 ^ (c * i), z.2 ||| v.2)) (b, 0#5)
  (bytesOfNat r.1 dst.length, r.2)

/-- Pins of windows that the engine has not left: those of the chunk that comes next and of chunks read ahead. -/
def keepPins (x : Xfer) : List Pin :=
  let accs := (if !wantsIdx x && decide (xChunks x ≤ x.next) then [] else curReads x ++ curWrites x) ++ x.ahead.flatMap fun c => chunkReads x c.1
  x.pins.filter fun p => accs.any fun a => decide (a.stream = p.stream ∧ a.va / 65536 = p.win)
/-- The chunk is over. -/
def nextChunk (id : Nat) (f : Xfer → Xfer) (s : State) : State :=
  let leave (y : Xfer) : Xfer := { y with els := none, ahead := y.ahead.filter fun c => decide (y.next ≤ c.1) }
  dropFlits id (modX id (fun y => { leave (f y) with pins := keepPins (leave (f y)) }) s)

/-- Index words have been read; once all have, RANGE is judged (R308). -/
def idxStep (x : Xfer) (bs : List (Byte × Bool)) (s : State) : State :=
  let ws := (List.range (bs.length / 4)).map fun k =>
    let l := (bs.drop (4 * k)).take 4
    (wordOfBytes (l.map (·.1)), l.any (·.2))
  let all := x.idx ++ ws
  let s := nextChunk x.id (fun y => { y with idx := all }) s
  if all.length < xGsCount x.req then s
  else
    match all.findIdx? fun w => !w.2 && decide (2 ^ xLlim x.req ≤ w.1.toNat) with
    | some j => endX x.id (some (errXfer xcRANGE (xOffset x j))) s
    | none => s

/-- A line of a tile under load: after poison each element keeps its bits or takes the loaded ones (assumption 7). -/
def putLine (x : Xfer) (cl j : Nat) (bs : List Byte) (bad : Bool) (s : State) : State :=
  (List.range (lineElems x.entry)).foldl (fun s t =>
    if bad && !Config.tearNew (s.tick + 512 * j + t) then s
    else setLineElem cl x.entry j t (elemOfBytes (teC x.entry) bs t) s) s

/-- The bytes that chunk j writes, with an XACC's flags. -/
def chunkData (s : State) (x : Xfer) (j : Nat) (src dst : List Byte) : List Byte × Flags :=
  let g := chunkOf (xRange x) j
  match x.ins with
  | .xfill _ => ((List.range g.2).map fun k => BitVec.ofNat 8 (xq x.req 1 / 2 ^ (8 * ((xq x.req 0 + g.1 + k) % 8))), 0#5)
  | .xacc _ =>
    let per := 8 * g.2 / xC x
    let n := min per (xAccCount x.req - 8 * g.1 / xC x)
    accChunk (xCap x) n src dst
  | .xtile _ => (lineBytes s (xTileCl s x.inst x.req) x.entry j, 0#5)
  | .xgath _ | .xscat _ => (if (xIdx x j).2 then List.replicate (xElem x.req) 0#8 else src, 0#5)
  | _ => (src, 0#5)

/-- A chunk whose accesses can all be performed: read, unless that has been done ahead, then written. Chunks are written in
ascending order, each in one step, and an XACC chunk that is written poisoned raises its elements' flags (the model's choices where R307 and R315
allow more or do not say; assumption 67). -/
def xPerform (x : Xfer) (els : List El) (s : State) : State :=
  let nr := (curReads x).length
  let rd := match (if wantsIdx x then none else x.ahead.find? fun c => decide (c.1 = x.next)) with
    | some c => (c.2, s)
    | none => xReadAll x (els.take nr) s
  let wr := els.drop nr
  let j := x.next
  if wantsIdx x then idxStep x rd.1 rd.2
  else
    let isAcc := match x.ins with
      | .xacc _ => true
      | _ => false
    let dst := if isAcc then xReadAll x wr rd.2 else ([], rd.2)
    let outBad := match x.ins with
      | .xtile _ => xOut x.req && lineBad dst.2 (xTileCl dst.2 x.inst x.req) x.entry j
      | _ => false
    let bad := outBad || x.psnFrom.isSome || (rd.1.any (·.2)) || (dst.1.any (·.2)) || (xIdx x j).2
    let d := chunkData dst.2 x j (rd.1.map (·.1)) (dst.1.map (·.1))
    let inTile := match x.ins with
      | .xtile _ => !xOut x.req
      | _ => false
    let tc := xTileCl dst.2 x.inst x.req
    let dst := (dst.1, if outBad then countLog ctrSRAMUE (dieOf tc) (tc % 128) 0 dst.2 else dst.2)
    let s := if inTile then putLine x (xTileCl dst.2 x.inst x.req) j (rd.1.map (·.1)) bad dst.2
      else xWriteAll x bad wr d.1 dst.2
    let from' := if bad then x.psnFrom.orElse (fun _ => some j) else none
    nextChunk x.id (fun y => { y with next := j + 1, fl := y.fl ||| d.2, psnFrom := from' }) s

/-- The elements of accesses that are made ahead: in windows pinned already, or pinned now by a speculative translation; none where a window
has none, or is not memory. -/
def aheadEls (x : Xfer) (c : Ctx) : List XAcc → State → Option (List El) × State
  | [], s => (some [], s)
  | a :: t, s =>
    let r : Option (El × Pin) × State :=
      match x.pins.find? fun q => decide (q.stream = a.stream ∧ q.win = a.va / 65536) with
      | some q => (some (elOf s c (a.va, a.len, .leaf q.leaf q.size 0), q), s)
      | none =>
        let z := speculate (some (dieOf x.cl)) (whoX x) c a.need a.va a.len s
        (z.1.map fun e => (e.1, { stream := a.stream, win := a.va / 65536, leaf := e.2.1, size := e.2.2 }), z.2)
    match r.1 with
    | none => (none, r.2)
    | some (e, p) =>
      match e.kind with
      | .peer | .hole | .mmio => (none, r.2)
      | _ =>
        let q := aheadEls { x with pins := if x.pins.contains p then x.pins else x.pins ++ [p] } c t
          (modX x.id (fun y => { y with pins := if y.pins.contains p then y.pins else y.pins ++ [p] }) r.2)
        (q.1.map (e :: ·), q.2)
/-- Lookahead (R316, R351): the first later chunk whose source has not been read ahead, at most d and at most four ahead of the next. It never
faults, and what would be reported is not read. -/
def lookAhead (x : Xfer) (c : Ctx) (d : Nat) (s : State) : State :=
  match ((List.range (min d 4)).map fun k => x.next + 1 + k).find? fun j => !(x.ahead.any fun z => decide (z.1 = j)) with
  | none => s
  | some j =>
    if xChunks x ≤ j then s
    else
      let r := aheadEls x c (chunkReads x j) s
      match r.1 with
      | none => r.2
      | some els =>
        let q := xReady x.id (dieOf x.cl) (els.map fun e => (e, false)) 0 r.2
        if q.2.ras ≠ s.ras then s
        else if !q.1 then q.2
        else
          let z := xReadAll x els q.2
          if z.2.ras ≠ s.ras then s else modX x.id (fun y => { y with ahead := y.ahead ++ [(j, z.1)] }) z.2

/-- TRANSFER_CHUNK: the next chunk goes on, and, where the engine looks ahead, a later one is read; under easy pressure no chunk begins (R421). A transfer that R306 holds waits on its engine
(assumption 56). -/
def execTransferChunk (x : Nat) (s : State) : Out :=
  match findX s x with
  | none => .next s
  | some t =>
    if t.ph ≠ .running then .next s
    else if !wantsIdx t && decide (xChunks t ≤ t.next) then
      .next (endX x (t.psnFrom.map fun j => errXfer xcPOISON (xOffset t j)) s)
    else
      match t.els with
      | none =>
        (match ctxOfInst s t.inst with
         | some c =>
           .next (if chainClear s t && !easy s (dieOf t.cl) then xTranslate t c s else s)
         | none => .next s)
      | some els =>
        let s := match ctxOfInst s t.inst with
          | some c => if wantsIdx t || easy s (dieOf t.cl) then s else lookAhead t c (Config.readAhead s.tick) s
          | none => s
        let nr := (curReads t).length
        let r := xReady x (dieOf t.cl) ((List.range els.length).filterMap fun k => (els[k]?).map fun e => (e, decide (nr ≤ k))) 0 s
        .next (if r.1 then xPerform t els r.2 else r.2)

/-! ### Completion (R311) -/

/-- Table 14.7. -/
def xResult (x : Xfer) : W64 :=
  match x.ins with
  | .xcopy _ | .xfill _ => BitVec.ofNat 64 (xLen x.req)
  | .xacc _ => BitVec.ofNat 64 (xAccCount x.req)
  | .xtile _ => BitVec.ofNat 64 x.hsel
  | _ => BitVec.ofNat 64 (xGsCount x.req)
/-- The claimed tile (R309, R310, R313). -/
def xTileEnd (x : Xfer) (s : State) : State :=
  match x.ins with
  | .xtile _ =>
    let cl := xTileCl s x.inst x.req
    if xOut x.req then addReader cl x.hsel (-1) s
    else setTState cl x.hsel (if x.err.isSome then tsEMPTY else tsFULL) s
  | _ => s
/-- TRANSFER_COMPLETE. -/
def execTransferComplete (x : Nat) (s : State) : Out :=
  match findX s x with
  | none => .next s
  | some t =>
    if t.ph ≠ .finish then .next s
    else
      let node : SweepNode := match t.act with
        | some k => .engine k
        | none => .frontEnd
      let s := modInst t.inst (fun i => { i with xdone := (i.xdone.filter fun d => decide (d ≠ (t.chain, t.rd, t.wr))) ++
        [(t.chain, t.rd, t.wr)] }) (raise t.inst t.fl (xTileEnd t s))
      .next (delX x (xEmit t node t.err (xResult t) s))

end Sys2Proof.Machine
end

