-- ==== Sys2Proof/Machine/Fire.lean ====
section
/-! DEFINITION. Which record a PE fires (R13, R16, R90, R122, R164, R168, R180, Table 12.2), and the fetch of a record that
fires: its words and the tokens it consumes. -/
namespace Sys2Proof.Machine

/-! ### Conditions beyond complete tokens; `s.firing` is the firing considered -/

/-- A slot that an entry names or binds as a scale. -/
def withScales (s : State) (inst : Nat) (l : List Nat) : List Nat :=
  l ++ l.flatMap fun k =>
    let e := fmtOf s inst k
    if fSCL e = 0 then [] else if fSCL e = 2 then [fSCS e, fBSS e] else [fSCS e]

/-- The handles of one tile that an instruction selects. -/
def tileHandles (s : State) (i : Instr) : List Nat :=
  match i with
  | .tld h _ | .tst h _ | .tzero h _ | .tempty h _ | .spacc h _ => [firingSel s h]
  | .tcvt a b _ | .ttrn a b _ => [firingSel s a, firingSel s b]
  | i =>
    match mmaParts i with
    | some p => (mmaTiles s p).list
    | none => []

/-- The format slots that an instruction names directly. -/
def namedSlots (s : State) (i : Instr) : List Nat :=
  let own := [(fsOf i).toNat]
  match i with
  | .fcvtFf d r => [r.fs.toNat, d.toNat]
  | .fcvtIf d _ | .fcvtIuf d _ => [d.toNat]
  | .vpack d r | .vunpk d _ r | .vqnt d r | .vdqnt d r | .vbexp d r => [r.fs.toNat, d.toNat]
  | .amo fn _ | .red fn _ => if amoFloat fn then own else []
  | .xred _ | .xrd _ | .ftset _ | .ftget _ _ | .sstrm _ _ | .xacc _ => own
  | .mmaAcca fs _ _ _ => fs.toNat :: (tileHandles s i).map fun h => teFMT (tdir s (firingCl s) h)
  | i =>
    if grpOf i = .flt ∨ grpOf i = .vec then own
    else (tileHandles s i).map fun h => teFMT (tdir s (firingCl s) h)

/-- A slot that some FTSET of the image names (R90). -/
def mutableSlot (i : Inst) (k : Nat) : Bool :=
  i.slots.any fun c =>
    match slotInstr i c.1 with
    | some (.ftset r) => decide (r.fs.toNat = k)
    | _ => false
/-- R90: a record under a wave ahead of its thread's current one that names a mutable slot is held. -/
def heldByFormat (s : State) (n : Inst) (i : Instr) : Bool :=
  let t := s.firing.tag
  let d := (t.wave - (getThr n t.thr).cw).toNat
  decide (1 ≤ d ∧ d < 2 ^ 23) && (withScales s n.iid (namedSlots s i)).any (mutableSlot n)

/-- Table 12.2 with R272 and R279; one handle as source and destination is ready at once (R278). -/
def tileReady (s : State) (i : Instr) : Bool :=
  let cl := firingCl s
  let e := (firstErr s.firing).isSome
  let free := e || (tileHandles s i).any fun h => decide (tdir s cl h = 0#64)
  let st (h : BitVec 8) : Nat := teSTATE (tdir s cl (firingSel s h))
  let idle (h : Nat) : Bool := decide (teSTATE (tdir s cl h) ≠ tsBUSY ∧ tReaders s cl h = 0)
  let acc (h : BitVec 4) : AccD := accGet s cl h.toNat
  match i with
  | .tld h _ => free || decide (st h = tsEMPTY)
  | .tst h _ => free || decide (st h = tsFULL)
  | .tzero h _ | .tempty h _ => free || idle (firingSel s h)
  | .spacc h _ => free || (decide (st h = tsFULL) && idle (firingSel s h))
  | .tcvt a b _ | .ttrn a b _ => free || decide (firingSel s a = firingSel s b) || decide (st a = tsFULL ∧ st b = tsEMPTY)
  | .tldAcc h _ | .tzeroAcc h _ => e || decide ((acc h).st ≠ 2#2 ∧ (acc h).readers = 0)
  | .tstAcc h _ => e || decide ((acc h).st ≠ 2#2 ∧ (acc h).cur = s.firing.tag)
  | .tdesc h _ =>
    let x := a64 s.firing
    e || !tdescOk h.toNat x || (if x = 0#64 then idle h.toNat else (List.range (teN x)).all fun k => idle (h.toNat + k))
  | i =>
    match mmaParts i with
    | none => true
    | some p =>
      let d := acc p.m.d
      let src := accGet s cl (p.m.ta.toNat % 16)
      decide (d.st ≠ 2#2 ∧ d.cur = s.firing.tag) &&
      (free || (decide (d.readers = 0) && (tileHandles s i).all (fun h => decide (teSTATE (tdir s cl h) = tsFULL)) &&
        (p.fs.isNone || decide (src.st ≠ 2#2 ∧ src.cur = s.firing.tag))))

/-- The entries (by handle) and accumulators (by 256 + handle) that a firing's conditions involve (R271). -/
def tileUse (s : State) (i : Instr) : List Nat :=
  match i with
  | .tldAcc h _ | .tstAcc h _ | .tzeroAcc h _ => [256 + h.toNat]
  | .tdesc h _ => (List.range (max 1 (teN (a64 s.firing)))).map fun k => h.toNat + k
  | i =>
    tileHandles s i ++ (match mmaParts i with
      | some p => (256 + p.m.d.toNat) :: (if p.fs.isSome then [256 + p.m.ta.toNat % 16] else [])
      | none => [])

/-- A SPAWN or CALL that no THR is free for is held (R164, R168). -/
def heldForThr (n : Inst) (s : State) (i : Instr) : Bool :=
  let f := s.firing
  let m := n.w * n.h
  match i with
  | .spawn _ => (firstErr f).isNone && (lowestFree n 0 1).isNone
  | .call r => (firstErr f).isNone && !badEntry n f.place r.v ((b64 f).setWidth 32) && (lowestFree n (f.tag.thr.toNat % m) m).isNone
  | _ => false

/-- The PE's divider or iterative unit is taken (R129, R139). -/
def unitBusy (s : State) (i : Instr) : Bool :=
  let f := s.firing
  let busy (ph : Phase) : Bool := s.ops.any fun o =>
    decide (o.inst = f.inst ∧ o.ph = ph ∧ o.place.x = f.place.x ∧ o.place.y = f.place.y ∧ o.place.pe = f.place.pe)
  match i with
  | .divS _ | .divU _ | .remS _ | .remU _ => busy .divide
  | .fdiv _ | .fsqrt _ | .frcp _ | .frsq _ | .fexp2 _ | .flog2 _ => busy .iter
  | _ => false

/-- An MMA whose cluster's queue is full (R282): its 8 places are held by MMAs not yet started (the model's choice: R282 does not say of the one being
performed; assumption 66). -/
def queueFull (s : State) (i : Instr) : Bool :=
  (mmaParts i).isSome && decide (8 ≤ (s.ops.filter fun o => decide (o.cl = firingCl s ∧ o.ph = .mmaQ)).length)
/-- The firing of a set. -/
def firingOf (s : State) (i : Inst) (x : PSet) (r : Instr) : Firing := mkFiring s i.iid x.place x.tag r x.a x.b x.c

/-- Whether a record whose tokens are complete is ready: its tiles let it fire (Table 12.2), and no mutable slot holds it (R90). -/
def isReady (s : State) (i : Inst) (x : PSet) : Bool :=
  match slotInstr i x.place with
  | none => false
  | some r =>
    let s := { s with firing := firingOf s i x r }
    tileReady s r && !heldByFormat s i r
/-- Whether a ready record may be selected now: a SPAWN or CALL with no free THR, a DIV or REM behind another, and an MMA before a full queue are
ready, and not selected (R129, R139, R164, R168, R282). -/
def mayFire (s : State) (i : Inst) (x : PSet) : Bool :=
  match slotInstr i x.place with
  | none => false
  | some r =>
    let s := { s with firing := firingOf s i x r }
    isReady s i x && !heldForThr i s r && !unitBusy s r && !queueFull s r

/-! ### Selection (R16, R180) -/

def firesAt (i : Inst) (cl pe : Nat) (x : PSet) : Bool := decide (instCl i x.place = cl ∧ x.place.pe = pe)
def lowestKey (i : Inst) (l : List PSet) : Option PSet :=
  l.foldl (fun m x =>
    match m with
    | none => some x
    | some y => if keyOf i x.place x.tag < keyOf i y.place y.tag then some x else some y) none

/-- Those that have been ready longest. -/
def oldest (l : List PSet) : List PSet :=
  let m := l.foldl (fun m x => if x.since < m then x.since else m) ((l.head?.map (·.since)).getD 0)
  l.filter fun x => decide (x.since = m)
/-- The set that a PE chooses: of those that age has put first (R180), the one that has been ready longest; else, and among equals,
the lowest window-relative wave, THR and slot. -/
def chosen (s : State) (i : Inst) (cl pe : Nat) : Option PSet :=
  let l := (readySets i).filter fun x => firesAt i cl pe x && mayFire s i x
  let old := l.filter fun x => aged s.time x || i.forced.contains (x.place, x.tag)
  lowestKey i (if old.isEmpty then l else oldest old)
/-- Since when a record has been ready (R13, R180): its oldest set complete and resident, its tiles as they must be, and no mutable slot holding
it. -/
def noteReadySet (s : State) (i : Inst) (x : PSet) : PSet :=
  if (readySets i).contains x && isReady s i x then (if x.since = 0 then { x with since := s.time + 1 } else x)
  else if x.since = 0 then x else { x with since := 0 }
/-- A record that is ready no longer has lost what its age gave it (R180). -/
def keepForced (l : List PSet) (p : Place × Tag) : Bool := l.any fun x => decide (x.place = p.1 ∧ x.tag = p.2 ∧ x.since ≠ 0)
def noteReadyInst (s : State) (i : Inst) : Inst :=
  let l := i.sets.map (noteReadySet s i)
  { i with sets := l, forced := i.forced.filter (keepForced l) }
def noteReady (s : State) : State :=
  { s with insts := s.insts.map fun i => if i.phase = .running then noteReadyInst s i else i }

/-- A PE's instance fires: it runs, and no break and no sweep stops it. In the cycle in which a SYS.BRK stops it, PEs that have not
fired in that cycle still may (R122; assumption 50). -/
def fires (s : State) (i : Inst) (cl pe : Nat) : Bool :=
  decide (i.phase = .running) && !i.ending &&
  (!i.stopped || i.brkAt.any fun b => decide (b.1 = s.time) && !b.2.contains (cl, pe))

/-- The order in which a directory takes the records of a cluster's PEs: window-relative wave, THR, PE, slot (R271). -/
def dirKey (i : Inst) (x : PSet) : Nat := ((wrel i x.place x.tag * 65536 + x.tag.thr.toNat) * 32 + x.place.pe) * 8 + x.place.slot
/-- No other PE of the cluster selects a record that goes before this one at a common entry or accumulator (R271). -/
def tileTurn (s : State) (i : Inst) (cl pe : Nat) (x : PSet) (r : Instr) : Bool :=
  let mine := tileUse { s with firing := firingOf s i x r } r
  mine.isEmpty || !((List.range 32).any fun k => decide (k ≠ pe) && fires s i cl k && (match chosen s i cl k with
    | none => false
    | some y => decide (dirKey i y < dirKey i x) && (match slotInstr i y.place with
      | none => false
      | some q => (tileUse { s with firing := firingOf s i y q } q).any mine.contains)))

/-- No PE of the tile's cluster selects a record at the entry that XTILE claims: the claim is taken after the PE firings of the same cycle (R313). -/
def claimTurn (s : State) (x : Xfer) : Bool :=
  let cl := xTileCl s x.inst x.req
  match instAt s cl with
  | none => true
  | some i => easy s (dieOf cl) || !((List.range 32).any fun k => fires s i cl k && (match chosen s i cl k with
    | none => false
    | some y => match slotInstr i y.place with
      | none => false
      | some q => (tileUse { s with firing := firingOf s i y q } q).contains x.hsel))
/-- CLAIM. No claim is made for an instance that is being swept. -/
def execClaim (x : Nat) (s : State) : Out :=
  match findX s x with
  | none => .next s
  | some t =>
    .next (if decide (t.ph = .claim) && !halting s t.inst && claimTurn s t then claimStep t s else s)

/-- The oldest set of a slot and tag leaves the store. A PE that fires in the stopping cycle is noted. -/
def takeSet (cl pe : Nat) (x : PSet) (i : Inst) : Inst :=
  { i with sets := i.sets.erase x, forced := i.forced.filter (fun p => decide (p ≠ (x.place, x.tag))),
           brkAt := i.brkAt.map fun b => (b.1, b.2 ++ [(cl, pe)]) }

/-- FETCH: the record that a PE fires, with its operands in `s.firing`; none when nothing is ready, or another PE's goes first. -/
def fetch (s : State) (cl pe : Nat) : Option (Instr × State) :=
  match instAt s cl with
  | none => none
  | some i =>
    if !fires s i cl pe || easy s (dieOf cl) then none
    else
      match chosen s i cl pe with
      | none => none
      | some x =>
        match slotInstr i x.place with
        | none => none
        | some r =>
          if !tileTurn s i cl pe x r then none
          else
          let s1 := modInst i.iid (takeSet cl pe x) s
          some (r, bumpNode i.iid (placeNode s1 i.iid x.place) 0 0 { s1 with firing := firingOf s i x r })

/-- A set waits at a slot of the PE whose words are no record. -/
def undecodableAt (s : State) (cl pe : Nat) : Bool :=
  match instAt s cl with
  | none => false
  | some i => fires s i cl pe && i.sets.any fun x => firesAt i cl pe x && (slotInstr i x.place).isNone

end Sys2Proof.Machine
end

