-- ==== Sys2Proof/Machine/Integer.lean ====
section
/-! DEFINITION. The integer group (R124 to R133). -/
namespace Sys2Proof.Machine

/-- Shift and rotate lane results (Table 5.2). -/
def shlLane (w a b : Nat) : Nat := if b < w then a * 2 ^ b else 0
def shrLane (w a b : Nat) : Nat := if b < w then a / 2 ^ b else 0
def sraLane (w a b : Nat) : Nat := unsgn w (Int.fdiv (sgn w a) (2 ^ min b (w - 1)))
def rolLane (w a b : Nat) : Nat := a * 2 ^ (b % w) + a / 2 ^ (w - b % w)
def rorLane (w a b : Nat) : Nat := a / 2 ^ (b % w) + a * 2 ^ (w - b % w)

/-- Counts (Table 5.2), by position from the top or the bottom. -/
def clzLane (w a : Nat) : Nat := if a = 0 then w else w - 1 - Nat.log2 a
def ctzLane (w a : Nat) : Nat := ((List.range w).find? fun k => a.testBit k).getD w
def popLane (w a : Nat) : Nat := ((List.range w).filter fun k => a.testBit k).length

/-- Clamping an exact integer to two's complement of w bits (ADDS.S). -/
def clampS (w : Nat) (n : Int) : Int := min (max n (-(2 ^ (w - 1)))) (2 ^ (w - 1) - 1)

/-- Table 5.3. -/
def cmpLane (rel : CmpRel) (w a b : Nat) : Bool :=
  match rel with
  | .eq => decide (a = b)
  | .ne => decide (a ≠ b)
  | .lt => decide (sgn w a < sgn w b)
  | .le => decide (sgn w a ≤ sgn w b)
  | .ltu => decide (a < b)
  | .leu => decide (a ≤ b)
  | .gt => decide (sgn w a > sgn w b)
  | .ge => decide (sgn w a ≥ sgn w b)
  | .gtu => decide (a > b)
  | .geu => decide (a ≥ b)

/-- The result of a lane-wise function of the operands' lanes; each lane keeps its low w bits (R125). -/
def mapLanes (r : IntRec) (f : Nat → Nat → Nat → Nat → Nat) (a b c : W256) : W256 :=
  let w := intW r
  ofLanes w ((List.range (intN r)).map fun i => f w (laneOf w a i) (laneOf w b i) (laneOf w c i))

/-- A lane-wise record (R97, R124): R17 first. -/
def intOp (i : Instr) (r : IntRec) (f : Nat → Nat → Nat → Nat → Nat) (s : State) : Out :=
  unlessErr i (fun s => emitVal s.firing i (mapLanes r f s.firing.a.payload s.firing.b.payload s.firing.c.payload) s) s

def execAdd (r : IntRec) (s : State) : Out := intOp (.add r) r (fun _ a b _ => a + b) s
def execSub (r : IntRec) (s : State) : Out := intOp (.sub r) r (fun w a b _ => a + (2 ^ w - b)) s
def execMulLo (r : IntRec) (s : State) : Out := intOp (.mulLo r) r (fun _ a b _ => a * b) s
def execMulHis (r : IntRec) (s : State) : Out :=
  intOp (.mulHis r) r (fun w a b _ => unsgn w (Int.fdiv (sgn w a * sgn w b) (2 ^ w))) s
def execMulHiu (r : IntRec) (s : State) : Out := intOp (.mulHiu r) r (fun w a b _ => a * b / 2 ^ w) s
def execAnd (r : IntRec) (s : State) : Out := intOp (.and r) r (fun _ a b _ => a &&& b) s
def execOr (r : IntRec) (s : State) : Out := intOp (.or r) r (fun _ a b _ => a ||| b) s
def execXor (r : IntRec) (s : State) : Out := intOp (.xor r) r (fun _ a b _ => a ^^^ b) s
def execAndn (r : IntRec) (s : State) : Out := intOp (.andn r) r (fun w a b _ => a &&& (2 ^ w - 1 - b)) s
def execShl (r : IntRec) (s : State) : Out := intOp (.shl r) r (fun w a b _ => shlLane w a b) s
def execShrL (r : IntRec) (s : State) : Out := intOp (.shrL r) r (fun w a b _ => shrLane w a b) s
def execShrA (r : IntRec) (s : State) : Out := intOp (.shrA r) r (fun w a b _ => sraLane w a b) s
def execRotL (r : IntRec) (s : State) : Out := intOp (.rotL r) r (fun w a b _ => rolLane w a b) s
def execRotR (r : IntRec) (s : State) : Out := intOp (.rotR r) r (fun w a b _ => rorLane w a b) s
def execBcntClz (r : IntRec) (s : State) : Out := intOp (.bcntClz r) r (fun w a _ _ => clzLane w a) s
def execBcntCtz (r : IntRec) (s : State) : Out := intOp (.bcntCtz r) r (fun w a _ _ => ctzLane w a) s
def execBcntPopc (r : IntRec) (s : State) : Out := intOp (.bcntPopc r) r (fun w a _ _ => popLane w a) s
def execMinS (r : IntRec) (s : State) : Out := intOp (.minS r) r (fun w a b _ => if sgn w a ≤ sgn w b then a else b) s
def execMinU (r : IntRec) (s : State) : Out := intOp (.minU r) r (fun _ a b _ => min a b) s
def execMaxS (r : IntRec) (s : State) : Out := intOp (.maxS r) r (fun w a b _ => if sgn w a ≤ sgn w b then b else a) s
def execMaxU (r : IntRec) (s : State) : Out := intOp (.maxU r) r (fun _ a b _ => max a b) s
def execAbs (r : IntRec) (s : State) : Out := intOp (.abs r) r (fun w a _ _ => (sgn w a).natAbs) s
def execCmp (rel : CmpRel) (r : IntRec) (s : State) : Out :=
  intOp (.cmp rel r) r (fun w a b _ => if cmpLane rel w a b then 1 else 0) s
def execAddsS (r : IntRec) (s : State) : Out :=
  intOp (.addsS r) r (fun w a b _ => unsgn w (clampS w (sgn w a + sgn w b))) s
def execAddsU (r : IntRec) (s : State) : Out := intOp (.addsU r) r (fun w a b _ => min (a + b) (2 ^ w - 1)) s
def execMula (r : IntRec) (s : State) : Out := intOp (.mula r) r (fun _ a b c => a * b + c) s

/-- R130. -/
def extVal (fn : ExtFn) (a : W64) : W64 :=
  match fn with
  | .sb => (a.setWidth 8).signExtend 64
  | .sh => (a.setWidth 16).signExtend 64
  | .sw => (a.setWidth 32).signExtend 64
  | .zb => (a.setWidth 8).setWidth 64
  | .zh => (a.setWidth 16).setWidth 64
  | .zw => (a.setWidth 32).setWidth 64
def execExt (fn : ExtFn) (r : IntRec) (s : State) : Out :=
  unlessErr (.ext fn r) (fun s => emit64 s.firing (.ext fn r) (extVal fn (a64 s.firing)) s) s

/-- The bit-field control operand (Table 5.4): POS, the effective length, SGN. -/
def bfPos (c : W64) : Nat := (c.extractLsb' 0 6).toNat
def bfLen (c : W64) : Nat := min (c.extractLsb' 8 7).toNat (64 - bfPos c)
def bfSgn (c : W64) : Bool := c.getLsbD 15

/-- R131. -/
def bfxVal (a c : W64) : W64 :=
  let f := a.toNat / 2 ^ bfPos c % 2 ^ bfLen c
  if bfSgn c ∧ bfLen c > 0 ∧ f ≥ 2 ^ (bfLen c - 1) then BitVec.ofInt 64 ((f : Int) - 2 ^ bfLen c) else BitVec.ofNat 64 f
def bfiVal (a b c : W64) : W64 :=
  let m : W64 := BitVec.ofNat 64 ((2 ^ bfLen c - 1) * 2 ^ bfPos c)
  (a &&& ~~~m) ||| BitVec.ofNat 64 (b.toNat % 2 ^ bfLen c * 2 ^ bfPos c)
def execBfx (r : IntRec) (s : State) : Out :=
  unlessErr (.bfx r) (fun s => emit64 s.firing (.bfx r) (bfxVal (a64 s.firing) (b64 s.firing)) s) s
def execBfi (r : IntRec) (s : State) : Out :=
  unlessErr (.bfi r) (fun s => emit64 s.firing (.bfi r) (bfiVal (a64 s.firing) (b64 s.firing) (c64 s.firing)) s) s

/-- R132. -/
def execLea (sh : BitVec 3) (r : IntRec) (s : State) : Out :=
  unlessErr (.lea sh r) (fun s => emit64 s.firing (.lea sh r) (a64 s.firing + b64 s.firing <<< sh.toNat) s) s

/-- R128: the quotient rounds towards zero, the remainder takes the dividend's sign; none for a zero divisor. -/
def divVal (sgnd rem : Bool) (a b : W64) : Option W64 :=
  if b = 0#64 then none
  else if sgnd then
    some (BitVec.ofInt 64 (if rem then Int.tmod a.toInt b.toInt else Int.tdiv a.toInt b.toInt))
  else some (BitVec.ofNat 64 (if rem then a.toNat % b.toNat else a.toNat / b.toNat))

/-- R128, R129: DIV0 at the firing, otherwise a divide starts. -/
def divFire (i : Instr) (s : State) : State :=
  if b64 s.firing = 0#64 then emitErr s.firing i errDiv0 s
  else (newOp i .divide (firingCl s) [] s).2
def execDivS (r : IntRec) (s : State) : Out := unlessErr (.divS r) (divFire (.divS r)) s
def execDivU (r : IntRec) (s : State) : Out := unlessErr (.divU r) (divFire (.divU r)) s
def execRemS (r : IntRec) (s : State) : Out := unlessErr (.remS r) (divFire (.remS r)) s
def execRemU (r : IntRec) (s : State) : Out := unlessErr (.remU r) (divFire (.remU r)) s

/-- The divide that an operation performs. -/
def opDivVal (o : Op) : Option W64 :=
  let f := opFiring o
  match o.ins with
  | .divS _ => divVal true false (a64 f) (b64 f)
  | .divU _ => divVal false false (a64 f) (b64 f)
  | .remS _ => divVal true true (a64 f) (b64 f)
  | .remU _ => divVal false true (a64 f) (b64 f)
  | _ => none

/-- DIVIDE_COMPLETE: the result is emitted and the PE's divider is free again (R128, R129). -/
def execDivideComplete (op : Nat) (s : State) : Out :=
  match findOp s op with
  | none => .next s
  | some o =>
    if o.ph = .divide then
      match opDivVal o with
      | some v => .next (delOp op (emit64 (opFiring o) o.ins v s))
      | none => .next s
    else .next s

end Sys2Proof.Machine
end

