-- ==== Sys2Proof/Machine/FrontAccess.lean ====
section
/-! DEFINITION. Accesses that the front end makes of its own (R333), and those of spills, refills, sweeps and restores: translated by a
walker, performed at their places, never parked. `by_` names the cluster that makes one; none is the front end. -/
namespace Sys2Proof.Machine

/-- What becomes of such an access. -/
inductive Sys where
  /-- the bytes read, with poison; none for a write -/
  | ok (bs : List (Byte × Bool))
  /-- not finished: nothing of it has taken effect -/
  | wait
  /-- no valid translation, or no permission, at this address -/
  | noPage (va : Nat)
  | noPerm (va : Nat)
  deriving DecidableEq, Repr

def needRd : Need := ⟨true, false, false⟩
def needWr : Need := ⟨false, true, false⟩
def needRw : Need := ⟨true, true, false⟩
def needImg : Need := ⟨true, false, true⟩

/-- The requester, which a NOPATH event names (R380, R417); the front end lies on IOA. -/
def sysWho (by_ : Option Nat) : Who :=
  match by_ with
  | some cl => .cluster cl
  | none => .front

/-- The range's translation in windows, with every sector prepared at its place. -/
def sysPrep (by_ : Option Nat) (c : Ctx) (n : Need) (va len : Nat) (s : State) : Sys × List El × State :=
  if 2 ^ 56 < va + len then (.noPage va, [], s)
  else
    let r := translate (by_.map dieOf) (sysWho by_) c n (winPieces va len) s
    match r.1 with
    | .wait => (.wait, [], r.2)
    | .park k _ a => (if k = 0x03#8 then .noPerm a else .noPage a, [], r.2)
    | .perm a => (.noPerm a, [], r.2)
    | .ok els =>
      match els.find? fun x => decide (x.kind = .peer) with
      | some x => (.noPerm x.va, [], r.2)
      | none =>
        let p := els.foldl (fun (z : Bool × State) x =>
          if !z.1 then z
          else match x.kind with
            | .mmio | .hole => z
            | _ => prepareRange n.wr x.key x.pa x.len z.2) (true, r.2)
        if p.1 then (.ok [], els, p.2) else (.wait, [], p.2)

def sysReadEl (by_ : Option Nat) (x : El) (s : State) : List (Byte × Bool) × State :=
  match x.kind with
  | .mmio => (List.replicate x.len (0#8, false), s)
  | .hole => (List.replicate x.len (0#8, true), reportHoleBy (sysWho by_) x.pa s)
  | _ => (placeRead x.key x.pa x.len s, s)
def sysReadEls (by_ : Option Nat) : List El → State → List (Byte × Bool) × State
  | [], s => ([], s)
  | x :: t, s =>
    let r := sysReadEl by_ x s
    let q := sysReadEls by_ t r.2
    (r.1 ++ q.1, q.2)
def sysWriteEls (by_ : Option Nat) : List El → List Byte → State → State
  | [], _, s => s
  | x :: t, bs, s =>
    let s := match x.kind with
      | .mmio => s
      | .hole => reportHoleBy (sysWho by_) x.pa s
      | _ => placeWrite x.key x.pa (bs.take x.len) false s
    sysWriteEls by_ t (bs.drop x.len) s

/-- A read of `len` bytes. -/
def sysReadN (by_ : Option Nat) (c : Ctx) (n : Need) (va len : Nat) (s : State) : Sys × State :=
  let p := sysPrep by_ c n va len s
  match p.1 with
  | .ok _ => let r := sysReadEls by_ p.2.1 p.2.2; (.ok r.1, r.2)
  | z => (z, p.2.2)
def sysRead (by_ : Option Nat) (c : Ctx) (va len : Nat) (s : State) : Sys × State := sysReadN by_ c needRd va len s
/-- A write. -/
def sysWrite (by_ : Option Nat) (c : Ctx) (va : Nat) (bs : List Byte) (s : State) : Sys × State :=
  let p := sysPrep by_ c needWr va bs.length s
  match p.1 with
  | .ok _ => (.ok [], sysWriteEls by_ p.2.1 bs p.2.2)
  | z => (z, p.2.2)

/-- Several accesses brought to the point where all can be performed in one step: whether they can, and the first that
cannot at all, by its place in the list. The address of one says who makes it. -/
def sysReadyBy (who : Nat → Option Nat) (c : Ctx) : List (Need × Nat × Nat) → Nat → State → Sys × Nat × State
  | [], k, s => (.ok [], k, s)
  | (n, va, len) :: t, k, s =>
    let p := sysPrep (who va) c n va len s
    match p.1 with
    | .ok _ => sysReadyBy who c t (k + 1) p.2.2
    | z => (z, k, p.2.2)
/-- The same of one requester. -/
def sysReady (by_ : Option Nat) (c : Ctx) (l : List (Need × Nat × Nat)) (k : Nat) (s : State) : Sys × Nat × State := sysReadyBy (fun _ => by_) c l k s

/-- The address of the first poisoned byte read from va. -/
def sysPoison (va : Nat) (bs : List (Byte × Bool)) : Option Nat := (bs.findIdx? (·.2)).map fun k => va + k
/-- A doubleword of bytes read, at an offset. -/
def dwAt (bs : List (Byte × Bool)) (off : Nat) : W64 :=
  BitVec.ofNat 64 (natOfBytes (((bs.drop off).take 8).map (·.1)))
/-- The first `k` pieces of `n` elements each. -/
def splitEvery {α : Type} (n : Nat) : Nat → List α → List (List α)
  | 0, _ => []
  | k + 1, l => l.take n :: splitEvery n k (l.drop n)
def dwords (bs : List (Byte × Bool)) : List W64 := (splitEvery 8 (bs.length / 8) bs).map fun l => dwAt l 0
def dwBytes (w : W64) : List Byte := bytesOfNat w.toNat 8

/-- A physical read by the front end, in plaintext (CTXLOAD). -/
def physRead (pa len : Nat) (s : State) : Sys × State :=
  let p := prepareRange false 0 pa len s
  if !p.1 then (.wait, p.2)
  else (.ok (placeRead 0 pa len p.2), if kindAt p.2 2 pa = .hole then reportHoleBy .front pa p.2 else p.2)

end Sys2Proof.Machine
end

