-- ==== Sys2Proof/Machine/Completion.lean ====
section
/-! DEFINITION. Quiescence (R182), the quiet report (R183, R184), write-backs of clusters that leave (R221), completion records
(R332, R333), and the end of an instance. -/
namespace Sys2Proof.Machine

/-! ### Quiescence -/

/-- An operation in progress that keeps its cluster busy (R182). -/
def opBusy (s : State) (o : Op) : Bool :=
  match o.ph with
  | .callHold => handOffReady s o
  | .retHold => returnReady s o
  | .wouPend => isNext s o
  | .wouOut => isNext s o || decide (pendingAtUnit s o.cl < 256)
  | _ => true
/-- A set that a refill alone would make ready, and room for it (R178). -/
def awaitsRefill (i : Inst) (x : PSet) : Bool :=
  x.spilled && setComplete i x && ((i.sets.find? fun y => y.mine x.place x.tag) == some x) &&
  (match makeRoom { i with sets := i.sets.map fun y => if y = x then { y with recs := [] } else y } x.place x.tag 0 with
   | .ok _ => true
   | _ => false)
/-- Every node of the instance is idle. -/
def idle (s : State) (i : Inst) : Bool :=
  !(s.flights.any fun f => decide (f.inst = i.iid)) &&
  !(s.ops.any fun o => decide (o.inst = i.iid) && opBusy s o) &&
  !(s.xfers.any fun x => decide (x.inst = i.iid) && !claimWaits s x) &&
  !((readySets i).any (mayFire s i)) && !(i.sets.any (awaitsRefill i))
def sums (i : Inst) : W64 × W64 :=
  (i.nodes.foldl (fun a n => a + n.sent) 0#64, i.nodes.foldl (fun a n => a + n.recv) 0#64)

/-! ### The quiet report (Table 7.4) -/

/-- What holds a slot: a partial set, or a request or held firing with all its positions filled. -/
structure Held where
  place  : Place
  tag    : Tag
  filled : BitVec 3
  sp     : Bool
  wou    : Bool
  hold   : Bool
  deriving DecidableEq, Repr

def filledOf (a b c : Bool) : BitVec 3 := BitVec.ofBool c ++ BitVec.ofBool b ++ BitVec.ofBool a
def recFilled (i : Instr) : BitVec 3 := filledOf (tokenFed i .a) (tokenFed i .b) (tokenFed i .c)
/-- A transfer that is parked or waits for its claim: what counts at the slot of its record (R184, R313, R352). -/
def xferHeld (x : Xfer) : Bool :=
  match x.ph with
  | .claim | .parked _ => true
  | .again st _ => decide (st ≠ 0)
  | _ => false
/-- Sets, pending and parked requests, held firings, and transfers that are parked or wait for a claim, of an instance. -/
def heldList (s : State) (i : Inst) : List Held :=
  (i.sets.map fun x =>
    { place := x.place, tag := x.tag, filled := filledOf x.a.isSome x.b.isSome x.c.isSome, sp := x.spilled, wou := false,
      hold := match slotInstr i x.place with
        | some r => setComplete i x && heldForThr i { s with firing := firingOf s i x r } r
        | none => false }) ++
  ((s.ops.filter fun o => decide (o.inst = i.iid)).filterMap fun o =>
    let e (wou hold : Bool) : Held := { place := o.place, tag := o.tag, filled := recFilled o.ins, sp := false, wou := wou, hold := hold }
    match o.ph with
    | .wouNet | .wouPend | .wouOut => some (e (!isNext s o) false)
    | .release => some (e false false)
    | .parked _ => some (e false false)
    | .callHold | .retHold => some (e false true)
    | _ => none) ++
  ((s.xfers.filter fun x => decide (x.inst = i.iid) && xferHeld x).map fun x =>
    { place := x.place, tag := x.tag, filled := 1#3, sp := false, wou := false, hold := false })

/-- Insertion into a rising list without repeats. -/
def insNat (n : Nat) : List Nat → List Nat
  | [] => [n]
  | m :: t => if n < m then n :: m :: t else if n = m then m :: t else m :: insNat n t
/-- The oldest: lowest window-relative wave, then THR. -/
def oldestHeld (i : Inst) (l : List Held) : Option Held :=
  l.foldl (fun m x =>
    match m with
    | none => some x
    | some y => if keyOf i x.place x.tag < keyOf i y.place y.tag then some x else some y) none

/-- The two words of a slot entry (Table 7.5). -/
def slotEntry (i : Inst) (l : List Held) : List W64 :=
  match oldestHeld i l with
  | none => []
  | some x =>
    [placeWord x.place x.tag,
     BitVec.ofNat 32 (min l.length (2 ^ 32 - 1)) ++ 0#26 ++ BitVec.ofBool (l.any (·.hold)) ++ BitVec.ofBool (l.any (·.wou)) ++
       BitVec.ofBool x.sp ++ x.filled]

/-- Threads allocated and not ended: LIVE, or CALLER whose end has not come (assumption 27). -/
def liveThreads (l : List Thread) : List (BitVec 16) :=
  (l.filter fun t => decide (t.st = .live) || (decide (t.st = .caller) && !t.eos)).map (·.thr)
def statusOf (errCnt : W32) (live : Nat) : Nat := if errCnt ≠ 0#32 then 1 else if live = 0 then 0 else 2

/-- The report's words from its parts. -/
def reportWords (i : Inst) (live : List (BitVec 16)) (slots : List (List W64)) (strand : Nat) : List W64 :=
  let st := statusOf i.errCnt live.length
  let first := live.foldl (fun m t => if t.toNat < m then t.toNat else m) 65536
  [BitVec.ofNat 8 st ++ BitVec.ofNat 8 slots.length ++ 0#16 ++ BitVec.ofNat 32 (min strand (2 ^ 32 - 1)),
   BitVec.ofNat 32 live.length ++ 0#16 ++ (if live.isEmpty then 0#16 else BitVec.ofNat 16 first),
   i.errCnt ++ 0#24 ++ (if i.errCnt = 0#32 then 0#8 else i.errCode),
   if i.errCnt = 0#32 then 0#64 else placeWord i.errPlace i.errTag] ++ slots.flatten

/-- The quiet report of an instance on its clusters (R183, R184). STRAND counts the sets in matching stores and in the spill area, those
of held SPAWNs and CALLs among them, and no request (assumption 53). -/
def reportOf (s : State) (i : Inst) : List W64 :=
  let live := liveThreads i.threads
  let l := heldList s i
  let nos := l.foldl (fun a x => insNat (slotNo i x.place) a) []
  let slots := if statusOf i.errCnt live.length = 2 ∨ live.length ≠ 0 then
      ((nos.take 64).map fun n => slotEntry i (l.filter fun x => decide (slotNo i x.place = n)))
    else []
  reportWords i live slots i.sets.length

/-! ### Clusters that leave (R221, R368) -/

/-- Sectors with a word that a cluster owns, or that it holds in E or M. -/
def ownedSecs (s : State) (cl : Nat) : List Nat :=
  (((s.co.l1w.filter fun x => decide (x.cl = cl ∧ x.st ≠ .v)).map fun x => sectorOf x.pa) ++
   ((s.co.l1d.filter fun x => decide (x.cl = cl) && isEM x.st).map (·.pa))).eraseDups
/-- The cluster's E or M copy of a host sector goes back to its die's RDC. -/
def returnHost (cl sec : Nat) (s : State) : State :=
  match l1dFind s cl sec with
  | some x => if isEM x.st then takeData (some (dieOf cl)) sec x.key (x.data, x.psn) (decide (x.st = .m)) s else s
  | none => s
/-- Write-back of one sector: registered words go home, D-page data is returned. -/
def leaveSec (cl : Nat) (z : Bool × State) (sec : Nat) : Bool × State :=
  let s := z.2
  if sectorBusy s sec || (s.co.l1w.any fun x => decide (x.cl = cl ∧ sectorOf x.pa = sec) && stays s x) then (false, s)
  else if isHost sec then (z.1, returnHost cl sec s)
  else
    let mine := s.co.l1w.filter fun x => decide (x.cl = cl ∧ sectorOf x.pa = sec ∧ x.st = .o)
    let key := ((mine.head?).map (·.key)).getD (((l1dFind s cl sec).map (·.key)).getD 0)
    let s := mine.foldl (fun s x => recallNow sec key s (x.pa % 64 / 4)) s
    match l1dFind s cl sec with
    | some x => if isEM x.st then let p := prepare false [] x.key sec s; (z.1 && p.1, p.2) else (z.1, s)
    | none => (z.1, s)
/-- Every L1 copy of a cluster goes; directories forget it. -/
def emptyL1 (cl : Nat) (s : State) : State :=
  let ds := s.co.l1d.filter fun x => decide (x.cl = cl)
  let s := ds.foldl (fun s x => let pl := placeOf cl x.pa; dirPut (delHolder (dirGet s pl x.pa) cl) s) s
  { s with co := { s.co with l1w := s.co.l1w.filter (fun x => decide (x.cl ≠ cl)), l1d := s.co.l1d.filter (fun x => decide (x.cl ≠ cl)) } }
/-- A cluster's write-backs, then its lines: false while something is still on its way. -/
def leaveCl (z : Bool × State) (cl : Nat) : Bool × State :=
  let r := (ownedSecs z.2 cl).foldl (leaveSec cl) (true, z.2)
  if r.1 then (z.1, emptyL1 cl r.2) else (false, r.2)

/-! ### Completion records (R332, R333) -/

/-- A FRONT entry (R333). -/
def frontEntry (ctx : Nat) (inst : Option Nat) (fdom : W32) (acc : BitVec 4) (q cause va : Nat) (s : State) : State :=
  (takeException ctx inst fdom
    { kind := 0x07#8, src := 0#4, acc := acc, level := 0#8, va := BitVec.ofNat 64 va, place := 0#64,
      data := BitVec.ofNat 16 q ++ BitVec.ofNat 8 cause ++ 0#40 } s).2

/-- Words of a launch packet. -/
def pkHdr (p : List W64) : W64 := word p 0
def pkImage (p : List W64) : Nat := (word p 1).toNat
def pkRcb (p : List W64) : Nat := (word p 2).toNat
def pkComp (p : List W64) : Nat := (word p 3).toNat
def pkType (p : List W64) : Nat := ((pkHdr p).extractLsb' 56 8).toNat
def pkNarg (p : List W64) : Nat := ((pkHdr p).extractLsb' 53 3).toNat
def pkKeep (p : List W64) : Bool := (pkHdr p).getLsbD 51
def pkTrig (p : List W64) : BitVec 4 := (pkHdr p).extractLsb' 44 4
def pkNthr (p : List W64) : Nat := ((pkHdr p).extractLsb' 0 16).toNat
def pkSpillU (p : List W64) : Nat := ((word p 6).extractLsb' 32 32).toNat
def pkArg (p : List W64) (k : Nat) : W64 := word p (7 + k)

/-- What a completion record tells (Table 15.7, from 0x08). -/
structure Outcome where
  outcome : Nat
  cause   : Nat
  num     : W32
  offset  : Nat
  page    : Nat
  cs0     : W64
  cs1     : W64
  tstart  : Nat
  report  : List W64
  deriving DecidableEq, Repr

/-- The outcome of a launch that created no instance. -/
def noRun (outcome cause offset page : Nat) : Outcome :=
  { outcome := outcome, cause := cause, num := 0#32, offset := offset, page := page, cs0 := 0#64, cs1 := 0#64, tstart := 0,
    report := [0#64, 0#64, 0#64, 0#64] }
/-- An instance's outcome. -/
def ranOutcome (s : State) (i : Inst) (outcome : Nat) (report : List W64) : Outcome :=
  { outcome := outcome, cause := 0, num := i.num, offset := 0, page := 0, cs0 := sheet0 s i, cs1 := sheet1 i, tstart := i.tstart,
    report := report }
def outcomeBytes (now : Nat) (o : Outcome) : List Byte :=
  ([BitVec.ofNat 8 o.outcome ++ BitVec.ofNat 8 o.cause ++ 0#16 ++ o.num, BitVec.ofNat 64 o.offset, BitVec.ofNat 64 o.page,
    o.cs0, o.cs1, BitVec.ofNat 64 o.tstart, BitVec.ofNat 64 now] ++ o.report).flatMap dwBytes

/-- SIGNAL − 1 at its place, or why not. -/
def decSignal (c : Ctx) (va : Nat) (s : State) : Sys × State :=
  let p := sysPrep none c needRw va 8 s
  match p.1 with
  | .ok _ =>
    let r := sysReadEls none p.2.1 p.2.2
    if r.1.any (·.2) then (.noPerm va, r.2)
    else (.ok [], sysWriteEls none p.2.1 (dwBytes (dwAt r.1 0 - 1#64)) r.2)
  | z => (z, p.2.2)

def badVa (z : Sys) (d : Nat) : Nat :=
  match z with
  | .noPage a | .noPerm a => a
  | _ => d

/-- The end of a launch: the record, the release, the decrement of SIGNAL (R332), with Table 15.11's outcomes. `inst` and
`fdom` are what a FRONT entry quotes. Answers false, with nothing written, while an access cannot be performed yet. -/
def finishLaunch (ctx q : Nat) (pkt : List W64) (inst : Option Nat) (fdom : W32) (o : Outcome) (s : State) : Bool × State :=
  let comp := pkComp pkt
  match findCtx s ctx with
  | none => (true, s)
  | some c =>
    if comp = 0 then (true, s)
    else if comp % 64 ≠ 0 then (true, frontEntry ctx inst fdom 1#4 q 2 comp s)
    else
      let bs := outcomeBytes s.time o
      let nop := decide (pkType pkt = 2)
      let p := if nop then (.ok [], ([] : List El), s) else sysPrep none c needWr (comp + 8) bs.length s
      match p.1 with
      | .wait => (false, p.2.2)
      | .noPage _ | .noPerm _ => (true, frontEntry ctx inst fdom 1#4 q 2 (badVa p.1 comp) p.2.2)
      | .ok _ =>
        let t := sysPrep none c needRw comp 8 p.2.2
        match t.1 with
        | .wait => (false, t.2.2)
        | _ =>
          let s := if nop then t.2.2 else sysWriteEls none p.2.1 bs t.2.2
          let d := decSignal c comp s
          match d.1 with
          | .ok _ => (true, d.2)
          | z => (true, frontEntry ctx inst fdom 2#4 q 3 (badVa z comp) d.2)

/-! ### The end of an instance -/

/-- What leaves with an instance (R359): its operations, tokens, transfers, outstanding entries and unwritten ones of kinds 0x01 to 0x05. An unwritten
OWNER_LOST or FRONT entry that quotes it stays: R359 does not name them (DESIGN CHOICE; assumption 71). A prefetch whose reads are on their way is
over once they have come, so that they stay speculative (R351). -/
def lapse (iid ctx : Nat) (s : State) : State :=
  modCtx ctx (fun c => { c with held := c.held.filter (fun e => !(decide (e.inst = iid ∧ e.kind.toNat ≤ 5))),
                                out := c.out.filter (fun e => decide (e.inst ≠ iid)) })
    { s with
      ops := s.ops.filter (fun o => decide (o.inst ≠ iid) || (isPf o.ins && decide (o.ph = .miss))), xfers := s.xfers.filter (fun x => decide (x.inst ≠ iid)),
      flights := s.flights.filter (fun f => decide (f.inst ≠ iid)),
      fab := { s.fab with flits := s.fab.flits.filter fun f =>
        !(s.ops.any fun o => decide (o.inst = iid ∧ o.id = f.id)) && !(s.xfers.any fun x => decide (x.inst = iid ∧ x.id = f.id)) } }
/-- A resident graph's run is over: its clusters stay reserved (R336); a residency that was to end ends now. -/
def runOver (iid : Nat) (s : State) : State :=
  { s with fe := { s.fe with resident := (s.fe.resident.map fun r =>
      if r.active = some iid then { r with active := none } else r).filter fun r => !(r.ending && r.active.isNone) } }

/-- An instance ends with an outcome and report: its clusters' write-backs, the record, then everything of it is freed.
False while something of this is still on its way. -/
def endInst (i : Inst) (outcome : Nat) (report : List W64) (s : State) : Bool × State :=
  let l := if i.phase = .saved then (true, s) else (instCls i).foldl leaveCl (true, s)
  if !l.1 then (false, l.2)
  else
    let f := finishLaunch i.ctx i.queue i.pkt (some i.iid) i.fdom (ranOutcome l.2 i outcome report) l.2
    if !f.1 then (false, f.2)
    else
      let s := runOver i.iid (lapse i.iid i.ctx f.2)
      (true, { s with insts := s.insts.filter fun x => decide (x.iid ≠ i.iid) })

/-- PROBE: the first pass notes the sums when all is idle and balanced, and clears ACT; the second ends the instance when
nothing has happened between (R182, R183). -/
def probe (i : Inst) (s : State) : State :=
  let ok := idle s i && decide ((sums i).1 = (sums i).2)
  let clear (p : Option (W64 × W64)) (s : State) : State :=
    modInst i.iid (fun j => { j with probe1 := p, nodes := j.nodes.map fun n => { n with act := false } }) s
  match i.probe1 with
  | none => clear (if ok then some (sums i) else none) s
  | some p =>
    if ok && decide (p = sums i) && !(i.nodes.any (·.act)) then
      (endInst i 0 (reportOf s i) s).2
    else clear none s
def execProbe (inst : Nat) (s : State) : Out :=
  match findInst s inst with
  | none => .next s
  | some i => .next (if decide (i.phase = .running) && i.injected && !i.ending then probe i s else s)

end Sys2Proof.Machine
end

