-- ==== Sys2Proof/Machine/Image.lean ====
section
/-! DEFINITION. The image: its header (Table 2.1, R430), slots, entry words, format entries and tile directory, read and checked
in the order of R54. -/
namespace Sys2Proof.Machine

/-! ### The header -/

def hdrH (h : List W64) : Nat := ((word h 0).extractLsb' 56 8).toNat
def hdrW (h : List W64) : Nat := ((word h 0).extractLsb' 48 8).toNat
def hdrSpill (h : List W64) : Nat := (word h 1).toNat
def hdrRecOff (h : List W64) : Nat := ((word h 2).extractLsb' 32 32).toNat
def hdrIdxOff (h : List W64) : Nat := ((word h 2).extractLsb' 0 32).toNat
def hdrFmtOff (h : List W64) : Nat := ((word h 3).extractLsb' 32 32).toNat
def hdrRecLen (h : List W64) : Nat := ((word h 3).extractLsb' 0 32).toNat
def hdrTdirOff (h : List W64) : Nat := ((word h 4).extractLsb' 32 32).toNat
def hdrFmtMask (h : List W64) : W32 := (word h 4).extractLsb' 0 32
def hdrNent (h : List W64) : Nat := ((word h 5).extractLsb' 32 16).toNat
def hdrEntOff (h : List W64) : Nat := ((word h 5).extractLsb' 0 32).toNat

/-- Doublewords whose fields break their own limits. -/
def hdrFieldBad (h : List W64) : List Bool :=
  [decide (hdrH h < 1 ∨ 16 < hdrH h ∨ hdrW h < 1 ∨ 32 < hdrW h) || decide ((word h 0).extractLsb' 32 16 ≠ 1#16) ||
     decide ((word h 0).extractLsb' 0 32 ≠ 0x315A4F53#32),
   decide (hdrSpill h % 256 ≠ 0),
   decide (hdrRecOff h % 8 ≠ 0 ∨ hdrIdxOff h % 8 ≠ 0),
   decide (hdrFmtOff h % 8 ≠ 0 ∨ hdrRecLen h % 8 ≠ 0),
   decide (hdrTdirOff h % 8 ≠ 0) || (decide (hdrFmtOff h = 0) && decide (hdrFmtMask h ≠ 0#32)),
   decide ((word h 5).extractLsb' 48 16 ≠ 0#16) || decide (hdrEntOff h % 8 ≠ 0),
   decide (word h 6 ≠ 0#64), decide (word h 7 ≠ 0#64)]
/-- Sections in R430's order: start, length, the doubleword that holds the start. -/
def hdrSections (h : List W64) : List (Nat × Nat × Nat) :=
  let n := hdrW h * hdrH h
  [(hdrIdxOff h, 1024 * n, 0x10), (hdrRecOff h, hdrRecLen h, 0x10),
   (hdrFmtOff h, if hdrFmtOff h = 0 then 0 else 256, 0x18), (hdrTdirOff h, if hdrTdirOff h = 0 then 0 else 2048 * n, 0x20),
   (hdrEntOff h, 8 * hdrNent h, 0x28)]
/-- The first section that overlaps the header or an earlier one. -/
def overlapIn (seen : List (Nat × Nat)) : List (Nat × Nat × Nat) → Option Nat
  | [] => none
  | (o, n, d) :: t => if seen.any (meets (o, n)) then some d else overlapIn (seen ++ [(o, n)]) t
/-- The offset reported when the header is refused. -/
def hdrBad (h : List W64) : Option Nat :=
  match (hdrFieldBad h).findIdx? id with
  | some k => some (8 * k)
  | none => overlapIn [(0, 64)] (hdrSections h)

/-! ### Reading and judging -/

/-- A refusal: IMAGE_INVALID with its reason and offset, or IMAGE_FAULT with the offset and page. -/
inductive ImgBad where
  | invalid (reason off : Nat)
  | fault (off page : Nat)
  deriving DecidableEq, Repr

/-- The result of reading something of the image. -/
inductive ImgRd (α : Type) where
  | ok (a : α)
  | wait
  | bad (b : ImgBad)
  deriving DecidableEq, Repr

/-- The first byte of the 64 KiB page that an address lies on (assumption 28). -/
def pageOf (a : Nat) : Nat := a / 65536 * 65536
/-- Bytes of the image at an offset; `rep` is the offset that a fault reports. A poisoned byte is a fault (assumption 28). -/
def imgRead (c : Ctx) (base off len rep : Nat) (s : State) : ImgRd (List (Byte × Bool)) × State :=
  let r := sysReadN none c needImg (base + off) len s
  match r.1 with
  | .ok bs =>
    (match sysPoison (base + off) bs with
     | some a => .bad (.fault rep (pageOf a))
     | none => .ok bs, r.2)
  | .wait => (.wait, r.2)
  | .noPage a | .noPerm a => (.bad (.fault rep (pageOf a)), r.2)

/-- What a slot of the image holds; `ok` for a record that passes reasons 0x02 to 0x08. -/
inductive SlotRd where
  | empty
  | wait
  | bad (b : ImgBad)
  | ok (off : Nat) (ws : List W64) (i : Instr)
  deriving DecidableEq, Repr

/-- A record at an offset: its own words decide its length, and whether it lies within the section (R33). A record with NT 5 to 7
has no length in R36 and is taken without target words, so COUNT refuses it where its other words lie within the section
(DESIGN CHOICE; assumption 44). -/
def readRecord (c : Ctx) (base : Nat) (h : List W64) (idxAt off : Nat) (s : State) : SlotRd × State :=
  let stop := hdrRecOff h + hdrRecLen h
  if stop < off + 8 then (.bad (.invalid 0x02 idxAt), s)
  else
    let r := imgRead c base off 8 off s
    match r.1 with
    | .wait => (.wait, r.2)
    | .bad b => (.bad b, r.2)
    | .ok bs =>
      let w := dwAt bs 0
      let raw := rawOfWords [w]
      let n := recordLen raw.xi (if raw.nt.toNat ≤ 4 then raw.nt.toNat else 0)
      if stop < off + 8 * n then (.bad (.invalid 0x02 idxAt), r.2)
      else
        let q := imgRead c base off (8 * n) off r.2
        match q.1 with
        | .wait => (.wait, q.2)
        | .bad b => (.bad b, q.2)
        | .ok bs =>
          match decodeBody (dwords bs) with
          | .ok i => (.ok off (dwords bs) i, q.2)
          | .error e => (.bad (.invalid e.code off), q.2)
/-- Slot k of the image, in row-major cluster order. A fault at its index word reports the word's own offset: Table 15.6 gives a record's offset, or 0
for the header (DESIGN CHOICE; assumption 70). -/
def readSlot (c : Ctx) (base : Nat) (h : List W64) (k : Nat) (s : State) : SlotRd × State :=
  let at_ := hdrIdxOff h + 4 * k
  let r := imgRead c base at_ 4 at_ s
  match r.1 with
  | .wait => (.wait, r.2)
  | .bad b => (.bad b, r.2)
  | .ok bs =>
    let e := natOfBytes (bs.map (·.1))
    if e = 0xFFFFFFFF then (.empty, r.2) else readRecord c base h at_ (hdrRecOff h + 8 * e) r.2
def readSlots (c : Ctx) (base : Nat) (h : List W64) : List Nat → State → List SlotRd × State
  | [], s => ([], s)
  | k :: t, s =>
    let r := readSlot c base h k s
    let q := readSlots c base h t r.2
    (r.1 :: q.1, q.2)

/-- Slot number of a place in an image of width w. -/
def placeNo (w : Nat) (p : Place) : Nat := ((p.y * w + p.x) * 32 + p.pe) * 8 + p.slot
def placeOfNo (w k : Nat) : Place := { x := k / 256 % w, y := k / 256 / w, pe := k / 8 % 32, slot := k % 8 }

/-- The slot that a target from a cluster (x, y) names, within the grid. -/
def edgeInto (w h x y : Nat) (t : Target) : Option Nat :=
  let tx := (x : Int) + t.dx.toInt
  let ty := (y : Int) + t.dy.toInt
  if tx < 0 ∨ ty < 0 ∨ w ≤ tx ∨ h ≤ ty then none
  else some (placeNo w { x := tx.toNat, y := ty.toNat, pe := t.pe.toNat, slot := t.slot.toNat })
/-- A target from a cluster (x, y), by a producer of the given width, against R20 and R40. An edge into a slot that itself
fails is not judged here (R54), and one into a slot that is not read yet is not judged yet. -/
def edgeOk (l : List SlotRd) (w h : Nat) (x y : Nat) (wide : Bool) (t : Target) : Bool :=
  match edgeInto w h x y t with
  | none => false
  | some k =>
    match l[k]? with
    | some (.ok _ _ i) =>
      tokenFed i t.opnd &&
      (match ((shape i).bind (·.at t.opnd)).bind (PW.wide (vOf i)) with
       | some wd => wd == wide
       | none => true)
    | some (.bad _) | some .wait => true
    | _ => false

/-- Slot k judged; `wait` where reading is not finished, its own or that of a slot that it names: a later slot's failure stands behind its edge's.
OPND 3 and a bad edge are the same reason, TARGET. -/
def judgeSlot (l : List SlotRd) (w h k : Nat) : ImgRd Unit :=
  match l[k]? with
  | some .wait => .wait
  | some (.bad b) => .bad b
  | some (.ok off ws i) =>
    if opndOk (rawOfWords ws) && (targetsOf i).all (edgeOk l w h (k / 256 % w) (k / 256 / w) (vOf i)) then
      (if (targetsOf i).any fun t => decide (((edgeInto w h (k / 256 % w) (k / 256 / w) t).bind fun j => l[j]?) = some .wait) then .wait else .ok ())
    else .bad (.invalid 0x09 off)
  | _ => .ok ()
/-- The first slot that does not pass, in order. -/
def firstNotOk (l : List SlotRd) (w h : Nat) (ks : List Nat) : Option Nat := ks.find? fun k => decide (judgeSlot l w h k ≠ .ok ())
/-- Slots that judging slot k needs: those before it, and those that their targets name. -/
def slotsNeeded (l : List SlotRd) (w h k : Nat) : List Nat :=
  (List.range (k + 1)) ++ (List.range (k + 1)).flatMap fun j : Nat =>
    match (l[j]? : Option SlotRd) with
    | some (.ok _ _ i) => (targetsOf i).filterMap (edgeInto w h (j / 256 % w) (j / 256 / w))
    | _ => []

/-! ### The other sections -/

/-- Doublewords of a section, one after another, each judged before the next is read. A fault at one reports its own offset, which Table 15.6 gives for
a record or the header only (DESIGN CHOICE; assumption 70). -/
def readWords (c : Ctx) (base off reason : Nat) (bad : W64 → Bool) : List Nat → State → ImgRd (List W64) × State
  | [], s => (.ok [], s)
  | k :: t, s =>
    let r := imgRead c base (off + 8 * k) 8 (off + 8 * k) s
    match r.1 with
    | .wait => (.wait, r.2)
    | .bad b => (.bad b, r.2)
    | .ok bs =>
      if bad (dwAt bs 0) then (.bad (.invalid reason (off + 8 * k)), r.2)
      else
        let q := readWords c base off reason bad t r.2
        match q.1 with
        | .ok ws => (.ok (dwAt bs 0 :: ws), q.2)
        | z => (z, q.2)

/-- An entry word against R35. -/
def entryX (e : W64) : Nat := (e.extractLsb' 51 5).toNat
def entryY (e : W64) : Nat := (e.extractLsb' 47 4).toNat
def entryArg (e : W64) : Nat := (e.extractLsb' 61 3).toNat
def entryTarget (e : W64) : Target := targetOfBits (e.extractLsb' 0 32)
def entryOk (l : List SlotRd) (w h : Nat) (e : W64) : Bool :=
  decide (entryArg e ≤ 5) && decide (e.extractLsb' 56 5 = 0#5) && decide (e.extractLsb' 32 15 = 0#15) &&
  decide (e.extractLsb' 0 10 = 0#10) && decide (e.extractLsb' 10 2 ≠ 3#2) && decide (entryX e < w ∧ entryY e < h) &&
  decide (e.extractLsb' 20 12 = 0#12) && edgeOk l w h (entryX e) (entryY e) false (entryTarget e)

/-- A directory entry of a cluster's 256, with the ring it belongs to, which is placed by its member 0 (R266, R267;
assumption 32). -/
def dirOk (d : List W64) (h : Nat) : Bool :=
  let e := word d h
  decide (e = 0#64) || (teFields e && teFits (word d (h - h % teN e)) && ringOk (word d) h)

/-- What an accepted image gives: records by slot, entry words, format entries by slot, directories by cluster. -/
structure Loaded where
  slots : List (Place × List W64)
  entry : List W64
  fmt   : List (Nat × W64)
  dirs  : List (List W64)
  deriving DecidableEq, Repr

def loadedSlots (w : Nat) : List SlotRd → Nat → List (Place × List W64)
  | [], _ => []
  | .ok _ ws _ :: t, k => (placeOfNo w k, ws) :: loadedSlots w t (k + 1)
  | _ :: t, k => loadedSlots w t (k + 1)

/-- Directories, one cluster's 256 entries after another's: an entry of a ring is judged with the others of its ring, so a cluster's are all read
first (DESIGN CHOICE; assumption 45). -/
def readDirs (c : Ctx) (base off : Nat) : List Nat → State → ImgRd (List (List W64)) × State
  | [], s => (.ok [], s)
  | k :: t, s =>
    let r := readWords c base (off + 2048 * k) 0 (fun _ => false) (List.range 256) s
    match r.1 with
    | .wait => (.wait, r.2)
    | .bad b => (.bad b, r.2)
    | .ok d =>
      match (List.range 256).find? fun j => !dirOk d j with
      | some j => (.bad (.invalid 0x0C (off + 2048 * k + 8 * j)), r.2)
      | none =>
        let q := readDirs c base off t r.2
        match q.1 with
        | .ok ds => (.ok (d :: ds), q.2)
        | z => (z, q.2)

/-- Sections after the slots, in R54's order, each word read and judged before the next. The spec does not rank IMAGE_FAULT among the reasons of
IMAGE_INVALID: the first word that cannot be read, or that is invalid, decides (DESIGN CHOICE; assumption 45). -/
def loadRest (c : Ctx) (base : Nat) (h : List W64) (l : List SlotRd) (s : State) : ImgRd Loaded × State :=
  let w := hdrW h
  let e := readWords c base (hdrEntOff h) 0x0A (fun x => !entryOk l w (hdrH h) x) (List.range (hdrNent h)) s
  match e.1 with
  | .wait => (.wait, e.2)
  | .bad b => (.bad b, e.2)
  | .ok es =>
    let ks := (List.range 32).filter fun k => (hdrFmtMask h).getLsbD k
    let f := readWords c base (hdrFmtOff h) 0x0B fmtMalformed ks e.2
    match f.1 with
    | .wait => (.wait, f.2)
    | .bad b => (.bad b, f.2)
    | .ok fs =>
      let d := readDirs c base (hdrTdirOff h) (if hdrTdirOff h = 0 then [] else List.range (w * hdrH h)) f.2
      match d.1 with
      | .wait => (.wait, d.2)
      | .bad b => (.bad b, d.2)
      | .ok ds => (.ok { slots := loadedSlots w l 0, entry := es, fmt := List.zip ks fs, dirs := ds }, d.2)

/-- A read of the image that runs ahead of the record being checked (R351): it leaves at most a cached translation. -/
def imgAhead (c : Ctx) (base : Nat) (h : List W64) (s : State) : State :=
  let off := Config.readAhead s.tick
  if (hdrSections h).any fun x => decide (x.1 ≤ off ∧ off < x.1 + x.2.1) then (speculate none .front c needImg (base + off) 1 s).2 else s
/-- R328 step 4: every record, entry word, format entry and directory entry, read and checked. When a slot does not pass, what its check did not
need has been read ahead at most. -/
def loadImage (c : Ctx) (base : Nat) (h : List W64) (s : State) : ImgRd Loaded × State :=
  let ks := List.range (256 * hdrW h * hdrH h)
  let l := readSlots c base h ks s
  match firstNotOk l.1 (hdrW h) (hdrH h) ks with
  | none => loadRest c base h l.1 l.2
  | some k =>
    let need := slotsNeeded l.1 (hdrW h) (hdrH h) k
    let t := imgAhead c base h (readSlots c base h (ks.filter need.contains) s).2
    match judgeSlot l.1 (hdrW h) (hdrH h) k with
    | .bad b => (.bad b, t)
    | _ => (.wait, t)

/-- R328 step 1. -/
def readHeader (c : Ctx) (base : Nat) (s : State) : ImgRd (List W64) × State :=
  let r := imgRead c base 0 64 0 s
  match r.1 with
  | .wait => (.wait, r.2)
  | .bad b => (.bad b, r.2)
  | .ok bs =>
    (match hdrBad (dwords bs) with
     | some off => .bad (.invalid 0x01 off)
     | none => .ok (dwords bs), r.2)

end Sys2Proof.Machine
end

