-- ==== Sys2Proof/Machine/Placement.lean ====
section
/-! DEFINITION. Placement: the RCB tree and its budgets (R320 to R322), the packet (R326), rectangles (R329), priority and fair
share (R338, R339), loading and injection (R328, R22), runs of resident graphs (R336), and pre-emption and compaction for a
launch that finds no space (R338, R373). -/
namespace Sys2Proof.Machine

/-! ### Packets (R326) -/

/-- A packet of two slots. One whose TYPE is neither 1 nor 2 goes by NARG as a launch does: R324 gives K for those two only (DESIGN CHOICE;
assumption 70). -/
def pkWide (h : W64) : Bool := decide ((h.extractLsb' 56 8).toNat ≠ 2 ∧ 2 ≤ (h.extractLsb' 53 3).toNat)
/-- Why a packet is refused as PACKET; reserved bits and fields that must be zero included. -/
def pkBad (p : List W64) : Bool :=
  let h := pkHdr p
  let n := pkNarg p
  decide (pkType p ≠ 1 ∧ pkType p ≠ 2) || decide (n = 7) || decide (h.extractLsb' 48 3 ≠ 0#3 ∨ h.extractLsb' 16 28 ≠ 0#28) ||
  (!pkKeep p && decide (pkTrig p ≠ 0#4)) || decide ((word p 6).extractLsb' 0 32 ≠ 0#32) ||
  ((List.range (p.length - 7)).any fun k => decide (n ≤ k ∧ pkArg p k ≠ 0#64)) ||
  decide (pkImage p % 256 ≠ 0 ∨ pkComp p % 64 ≠ 0 ∨ (word p 4).toNat % 8 ≠ 0 ∨ (word p 5).toNat % 8 ≠ 0) ||
  (decide (pkType p = 2) &&
    (decide (h.extractLsb' 0 56 ≠ 0#56) || decide (word p 1 ≠ 0#64 ∨ word p 2 ≠ 0#64 ∨ word p 6 ≠ 0#64)))

/-! ### The RCB tree -/

/-- Effective values of an RCB. -/
structure Eff where
  maxinst  : Nat
  maxcl    : Nat
  maxspill : Nat
  weight   : Nat
  cls      : Nat
  fdom     : W32
  deriving DecidableEq, Repr

/-- INH: bit 5 MAXCL, 4 MAXINST, 3 MAXSPILL, 2 WEIGHT, 1 CLASS, 0 FDOM. -/
def rcbInh (b : List W64) : BitVec 6 := (word b 1).extractLsb' 58 6
def rcbMaxcl (b : List W64) : Nat := ((word b 1).extractLsb' 32 10).toNat
def rcbWeight (b : List W64) : Nat := ((word b 1).extractLsb' 24 8).toNat
/-- R321's malformed cases. -/
def rcbMalformed (b : List W64) : Bool :=
  decide ((word b 1).extractLsb' 19 5 ≠ 0#5 ∨ (word b 1).extractLsb' 0 16 ≠ 0#16 ∨ (word b 3).extractLsb' 0 32 ≠ 0#32) ||
  ((List.range 4).any fun k => decide (word b (4 + k) ≠ 0#64)) ||
  (!(rcbInh b).getLsbD 5 && decide (rcbMaxcl b = 0 ∨ 512 < rcbMaxcl b)) ||
  (!(rcbInh b).getLsbD 2 && decide (rcbWeight b = 0)) || decide ((word b 2).toNat % 65536 ≠ 0)

/-- An RCB's effective values from its parent's. -/
def effOf (b : List W64) (up : Option Eff) : Eff :=
  let f {α : Type} (k : Nat) (own : α) (get : Eff → α) : α :=
    match up with
    | some e => if (rcbInh b).getLsbD k then get e else own
    | none => own
  { maxcl := f 5 (rcbMaxcl b) (·.maxcl), maxinst := f 4 ((word b 1).extractLsb' 42 16).toNat (·.maxinst),
    maxspill := f 3 (word b 2).toNat (·.maxspill), weight := f 2 (rcbWeight b) (·.weight),
    cls := f 1 ((word b 1).extractLsb' 16 3).toNat (·.cls), fdom := f 0 ((word b 3).extractLsb' 32 32) (·.fdom) }

/-- What reading a path comes to: addresses and words, the launch's RCB first. -/
inductive PathRd where
  | ok (l : List (W64 × List W64))
  | wait
  | bad
  deriving DecidableEq, Repr

/-- R320: at most `n` RCBs from an address up to the root. -/
def readPath (c : Ctx) : Nat → W64 → State → PathRd × State
  | 0, _, s => (.bad, s)
  | n + 1, a, s =>
    if a.toNat % 64 ≠ 0 then (.bad, s)
    else
      let r := sysRead none c a.toNat 64 s
      match r.1 with
      | .wait => (.wait, r.2)
      | .ok bs =>
        let b := dwords bs
        if bs.any (·.2) then (.bad, r.2)
        else if a = c.rootRcb then (if word b 0 = 0#64 ∧ rcbInh b = 0#6 then .ok [(a, b)] else .bad, r.2)
        else if word b 0 = 0#64 then (.bad, r.2)
        else
          let q := readPath c n (word b 0) r.2
          match q.1 with
          | .ok l => (.ok ((a, b) :: l), q.2)
          | z => (z, q.2)
      | _ => (.bad, r.2)

/-- Effective values along a path, none when an RCB is malformed. -/
def effs : List (W64 × List W64) → Option (List (W64 × Eff))
  | [] => some []
  | (a, b) :: t =>
    match effs t with
    | none => none
    | some up => if rcbMalformed b then none else some ((a, effOf b (up.head?.map (·.2))) :: up)

/-- The triple by which a residency is told apart: context and trigger number. -/
def isRes (ctx : Nat) (trig : BitVec 4) (r : Resident) : Bool := decide (r.ctx = ctx ∧ r.trig = trig)
def findRes (s : State) (ctx : Nat) (trig : BitVec 4) : Option Resident := s.fe.resident.find? (isRes ctx trig)
def modRes (ctx : Nat) (trig : BitVec 4) (f : Resident → Resident) (s : State) : State :=
  { s with fe := { s.fe with resident := s.fe.resident.map fun r => if isRes ctx trig r then f r else r } }
/-- Resident graphs between runs, apart from one that is about to be placed anew. -/
def idleRes (s : State) (me : Option (Nat × BitVec 4)) : List Resident :=
  s.fe.resident.filter fun r => r.active.isNone && decide (me ≠ some (r.ctx, r.trig))

/-- Clusters, instances and spill bytes counted at an RCB (R322, R336). -/
def usage (s : State) (ctx : Nat) (me : Option (Nat × BitVec 4)) (a : W64) : Nat × Nat × Nat :=
  let l := ((s.insts.filter fun i => decide (i.ctx = ctx) && i.path.contains a).map fun i =>
      ((if i.phase = .saved then 0 else i.w * i.h), 1, i.spillN)) ++
    (((idleRes s me).filter fun r => decide (r.ctx = ctx) && r.path.contains a).map fun r =>
      (((r.rect.map fun q => q.2.2.1 * q.2.2.2).getD 0), 1, r.spillN))
  l.foldl (fun x y => (x.1 + y.1, x.2.1 + y.2.1, x.2.2 + y.2.2)) (0, 0, 0)

/-! ### Rectangles (R329) -/

/-- Origins in R329's order. -/
def origins (w h : Nat) : List (Nat × Nat) :=
  let inDie := if w ≤ 16 ∧ h ≤ 8 then
      (List.range 4).flatMap fun d => (List.range (9 - h)).flatMap fun y => (List.range (17 - w)).map fun x =>
        (16 * (d % 2) + x, 8 * (d / 2) + y)
    else []
  inDie ++ ((List.range (17 - h)).flatMap fun y => (List.range (33 - w)).map fun x => (x, y)).filter fun o => !inDie.contains o

def resCls (r : Resident) : List Nat := (r.rect.map fun q => rectCls q.1 q.2.1 q.2.2.1 q.2.2.2).getD []
/-- Clusters that hold an instance, are reserved, or are out of service; of instances and reservations only those kept by
`p` and `q`. -/
def takenCls (s : State) (p : Inst → Bool) (q : Resident → Bool) : List Nat :=
  ((s.insts.filter fun i => decide (i.phase ≠ .saved) && p i).flatMap instCls) ++
  ((s.fe.resident.filter fun r => r.active.isNone && q r).flatMap resCls) ++ s.fe.off ++ s.fe.dead
/-- The first origin whose rectangle meets none of the clusters. -/
def firstFree (taken : List Nat) (w h : Nat) : Option (Nat × Nat) :=
  (origins w h).find? fun o => (rectCls o.1 o.2 w h).all fun c => !taken.contains c

/-- First-fit: the lowest start of n bytes below the limit that meets no interval in use. -/
def firstFit (used : List (Nat × Nat)) (n limit : Nat) : Option Nat :=
  if n = 0 then some 0
  else
    (0 :: used.map fun u => u.1 + u.2).foldl (fun m a =>
      if a + n ≤ limit && !(used.any (meets (a, n))) then
        match m with
        | none => some a
        | some b => some (min a b)
      else m) none

/-- Bytes of an instance's save block (R365). -/
def saveLen (w h : Nat) : Nat := (32 + 48 * (w * h)) * 65536
def spillsUsed (s : State) (ctx : Nat) (me : Option (Nat × BitVec 4)) : List (Nat × Nat) :=
  ((s.insts.filter fun i => decide (i.ctx = ctx)).map fun i => (i.spillB, i.spillN)) ++
  (((idleRes s me).filter fun r => decide (r.ctx = ctx)).map fun r => (r.spillB, r.spillN))
def savesUsed (s : State) (ctx : Nat) (me : Option (Nat × BitVec 4)) : List (Nat × Nat) :=
  ((s.insts.filter fun i => decide (i.ctx = ctx)).map fun i => (i.saveB, saveLen i.w i.h)) ++
  (((idleRes s me).filter fun r => decide (r.ctx = ctx)).map fun r => (r.saveB, saveLen (hdrW r.hdr) (hdrH r.hdr)))

/-! ### Steps 1 and 2 of an attempt -/

/-- What steps 1 and 2 of R328 found. -/
structure Attempt where
  hdr    : List W64
  path   : List W64
  cls    : Nat
  weight : Nat
  fdom   : W32
  spill  : Nat
  budget : Bool
  deriving DecidableEq, Repr

inductive Judge where
  | wait
  /-- the launch ends with this outcome, its RCB's FDOM where the path was well-formed -/
  | ends (o : Outcome) (fdom : W32)
  | ok (a : Attempt)
  deriving DecidableEq, Repr

def imgOutcome : ImgBad → Outcome
  | .invalid r off => noRun 1 r off 0
  | .fault off page => noRun 2 0 off page
def rejected (cause : Nat) : Outcome := noRun 3 cause 0 0

/-- The causes of step 2 that end a launch, and R322's limits for the moment. -/
def judgePath (c : Ctx) (hdr pkt : List W64) (me : Option (Nat × BitVec 4)) (l : List (W64 × Eff)) (s : State) : Judge :=
  match l with
  | [] => .ends (rejected 2) 0#32
  | (_, e) :: _ =>
    let wh := hdrW hdr * hdrH hdr
    let sp := (max (hdrSpill hdr) (256 * pkSpillU pkt) + 65535) / 65536 * 65536
    if (origins (hdrW hdr) (hdrH hdr)).all fun o => (rectCls o.1 o.2 (hdrW hdr) (hdrH hdr)).any s.fe.dead.contains then
      .ends (rejected 4) e.fdom
    else if l.any fun x => decide (x.2.maxcl < wh ∨ x.2.maxinst = 0 ∨ x.2.maxspill < sp) then .ends (rejected 3) e.fdom
    else if c.spoolSz * 65536 < sp then .ends (rejected 5) e.fdom
    else if c.saveSz * 65536 < saveLen (hdrW hdr) (hdrH hdr) then .ends (rejected 6) e.fdom
    else .ok
      { hdr := hdr, path := l.map (·.1), cls := e.cls, weight := e.weight, fdom := e.fdom, spill := sp,
        budget := l.all fun x =>
          let u := usage s c.handle me x.1
          decide (u.1 + wh ≤ x.2.maxcl ∧ u.2.1 + 1 ≤ x.2.maxinst ∧ u.2.2 + sp ≤ x.2.maxspill) }

/-- Steps 1 and 2 for a packet of a context. FDOM is 0 where this attempt ends before its own read of the path, also where an earlier attempt read a
well-formed one (R333; DESIGN CHOICE; assumption 70). -/
def judge (c : Ctx) (pkt : List W64) (me : Option (Nat × BitVec 4)) (s : State) : Judge × State :=
  let r := readHeader c (pkImage pkt) s
  match r.1 with
  | .wait => (.wait, r.2)
  | .bad b => (.ends (imgOutcome b) 0#32, r.2)
  | .ok h =>
    let p := readPath c 8 (word pkt 2) r.2
    match p.1 with
    | .wait => (.wait, p.2)
    | .bad => (.ends (rejected 2) 0#32, p.2)
    | .ok l =>
      match effs l with
      | none => (.ends (rejected 2) 0#32, p.2)
      | some es => (judgePath c h pkt me es p.2, p.2)

/-! ### Who is ready (R327, R338) -/

/-- A ready launch at the head of its queue, or a run of a resident graph that has lost its clusters (R336). -/
structure Cand where
  who   : Nat
  ctx   : Nat
  rcb   : W64
  order : Nat
  att   : Attempt
  since : Option Nat
  deriving DecidableEq, Repr

/-- The number by which a run of a resident graph waits for space: launches have lower ones, and runs stand by context and TRIG (DESIGN CHOICE;
assumption 70). -/
def runNo (ctx : Nat) (trig : BitVec 4) : Nat := 2 ^ 64 + 16 * ctx + trig.toNat

/-- The first launch of a queue. -/
def isHead (s : State) (l : Launch) : Bool :=
  ((s.fe.launches.find? fun m => decide (m.q = l.q)).map (·.id)) == some l.id
/-- A launch that waits for no signal and is neither refused nor a NOP. -/
def readyLaunch (s : State) (l : Launch) : Bool :=
  isHead s l && l.waits.isEmpty && !pkBad l.pkt && decide (pkType l.pkt = 1)

/-- One candidate, if steps 1 and 2 let it be placed now. -/
def candOf (who ctx order : Nat) (pkt : List W64) (since : Option Nat) (me : Option (Nat × BitVec 4)) (s : State) :
    Option (List Cand) × State :=
  match findCtx s ctx with
  | none => (some [], s)
  | some c =>
    let j := judge c pkt me s
    match j.1 with
    | .wait => (none, j.2)
    | .ok a => (some (if a.budget then [{ who := who, ctx := ctx, rcb := word pkt 2, order := order, att := a, since := since }] else []), j.2)
    | .ends _ _ => (some [], j.2)
/-- One candidate after another; none while an access has to wait. -/
def allCands : List (State → Option (List Cand) × State) → State → Option (List Cand) × State
  | [], s => (some [], s)
  | f :: t, s =>
    let r := f s
    match r.1 with
    | none => (none, r.2)
    | some a =>
      let q := allCands t r.2
      (q.1.map (a ++ ·), q.2)
/-- A run of a resident graph that has lost its clusters waits for space (R336). -/
def waitsRun (r : Resident) : Bool := r.rect.isNone && r.active.isNone && decide (r.pending ≠ 0#16) && !r.ending
/-- Every ready launch and run. -/
def cands (s : State) : Option (List Cand) × State :=
  allCands
    (((s.fe.launches.filter (readyLaunch s)).map fun l => candOf l.id l.ctx l.id l.pkt l.since none) ++
     ((s.fe.resident.filter waitsRun).map fun r =>
       candOf (runNo r.ctx r.trig) r.ctx (runNo r.ctx r.trig) r.pkt r.since (some (r.ctx, r.trig)))) s

def topClass (l : List Cand) : Nat := l.foldl (fun m x => max m x.att.cls) 0

/-! ### Weighted deficit round-robin (R338) -/

abbrev RKey := Nat × W64
def rkey (x : Cand) : RKey := (x.ctx, x.rcb)
def rkeyLt (a b : RKey) : Bool := decide (a.1 < b.1 ∨ (a.1 = b.1 ∧ a.2.toNat < b.2.toNat))
/-- The lowest key of those kept. -/
def lowestRKey (l : List Cand) (p : RKey → Bool) : Option RKey :=
  l.foldl (fun m x =>
    if !p (rkey x) then m
    else
      match m with
      | none => some (rkey x)
      | some k => if rkeyLt (rkey x) k then some (rkey x) else m) none
/-- The RCB after the one visited last, in the cyclic order. -/
def nextRKey (l : List Cand) (cur : Option RKey) : Option RKey :=
  match cur.bind fun k => lowestRKey l (rkeyLt k) with
  | some k => some k
  | none => lowestRKey l fun _ => true
/-- The head of an RCB's longest-waiting queue: the head that was consumed first, a run after every launch. R338 does not say what a queue's wait is
counted from (DESIGN CHOICE; assumption 70). -/
def rcbHead (l : List Cand) (k : RKey) : Option Cand :=
  (l.filter fun x => decide (rkey x = k)).foldl (fun m x =>
    match m with
    | none => some x
    | some y => if x.order < y.order then some x else m) none

abbrev Deficits := List (RKey × Nat)
def defGet (d : Deficits) (k : RKey) : Nat := ((d.find? fun x => decide (x.1 = k)).map (·.2)).getD 0
def defSet (d : Deficits) (k : RKey) (v : Nat) : Deficits := (d.filter fun x => decide (x.1 ≠ k)) ++ [(k, v)]

/-- Visits until a head is due: its candidate, the deficits, and the RCB visited. -/
def drr (l : List Cand) : Nat → Option RKey → Deficits → Option (Cand × Deficits × RKey)
  | 0, _, _ => none
  | n + 1, cur, d =>
    let due (k : RKey) (d : Deficits) : Option (Cand × Deficits × RKey) :=
      match rcbHead l k with
      | none => none
      | some x =>
        let wh := hdrW x.att.hdr * hdrH x.att.hdr
        if wh ≤ defGet d k then some (x, defSet d k (defGet d k - wh), k) else none
    match cur.bind fun k => due k d with
    | some z => some z
    | none =>
      match nextRKey l cur with
      | none => none
      | some k =>
        let w := ((rcbHead l k).map fun x => 16 * x.att.weight).getD 0
        drr l n (some k) (defSet d k (defGet d k + w))

/-- The class's choice among its candidates: at most 32 visits to each RCB are needed. -/
def drrChoice (s : State) (l : List Cand) (c : Nat) : Option (Cand × Deficits × RKey) :=
  let d : Deficits := (s.fe.deficit.filter fun x => decide (x.2.2.1 = c) && (l.any fun y => decide (rkey y = (x.1, x.2.1)))).map
    fun x => ((x.1, x.2.1), x.2.2.2)
  let cur := (s.fe.visited.find? fun v => decide (v.1 = c)).map (·.2)
  drr l (34 * (l.length + 1)) cur d
/-- A deficit is 0 again when its RCB has no ready launch or run among the candidates found, a launch that waits for budget being none (R338):
those of the other RCBs stay. -/
def candDeficit (cs : List Cand) (s : State) : State :=
  { s with fe := { s.fe with deficit := s.fe.deficit.filter fun x => cs.any fun y => decide (rkey y = (x.1, x.2.1) ∧ y.att.cls = x.2.2.1) } }
/-- The same as launches, runs and budgets stand, each looked at for itself and without an access of its own; one that cannot be judged yet counts as
ready for its RCB. -/
def settleDeficit (s : State) : State :=
  let may (k : RKey) (c : Nat) (own : RKey) (r : Option (List Cand) × State) : Bool := decide (k = own) &&
    (match r.1 with
     | some cs => cs.any fun y => decide (rkey y = k ∧ y.att.cls = c)
     | none => true)
  let ready (k : RKey) (c : Nat) : Bool :=
    (s.fe.launches.any fun l => readyLaunch s l && may k c (l.ctx, word l.pkt 2) (candOf l.id l.ctx l.id l.pkt l.since none s)) ||
    (s.fe.resident.any fun r => waitsRun r &&
      may k c (r.ctx, word r.pkt 2) (candOf (runNo r.ctx r.trig) r.ctx (runNo r.ctx r.trig) r.pkt r.since (some (r.ctx, r.trig)) s))
  { s with fe := { s.fe with deficit := s.fe.deficit.filter fun x => ready (x.1, x.2.1) x.2.2.1 } }
/-- Every ready launch and run, the others' deficits reset. -/
def readyCands (s : State) : Option (List Cand) × State :=
  let k := cands s
  (k.1, match k.1 with
    | some cs => candDeficit cs k.2
    | none => settleDeficit k.2)
/-- Its deficits and last visit once the choice has been placed. -/
def drrCommit (c : Nat) (z : Cand × Deficits × RKey) (s : State) : State :=
  settleDeficit { s with fe := { s.fe with
      deficit := (s.fe.deficit.filter fun x => decide (x.2.2.1 ≠ c)) ++ z.2.1.map fun x => (x.1.1, x.1.2, c, x.2),
      visited := (s.fe.visited.filter fun v => decide (v.1 ≠ c)) ++ [(c, z.2.2)] } }

/-- An instance that waits to be placed again (R338). -/
def waitsRestore (i : Inst) : Bool := decide (i.phase = .saved) && !i.ending

/-- The launch or run to be placed next, if any: the choice of the highest class, not while a saved instance of its class or
above waits; class 0 only with PADM (R339). -/
def nextPlaced (s : State) (l : List Cand) : Option (Cand × Deficits × RKey) :=
  let c := topClass l
  if s.insts.any fun i => waitsRestore i && decide (c ≤ i.cls) then none
  else if s.insts.any (·.moving) then none
  else if c = 0 ∧ s.pwr.padm = false then none
  else drrChoice s (l.filter fun x => decide (x.att.cls = c)) c

/-! ### Step 3: space -/

structure Space where
  x0     : Nat
  y0     : Nat
  spillB : Nat
  saveB  : Nat
  deriving DecidableEq, Repr

def resOf (who : Nat) : Option (Nat × BitVec 4) :=
  if 2 ^ 64 ≤ who then some ((who - 2 ^ 64) / 16, BitVec.ofNat 4 (who - 2 ^ 64)) else none
/-- The first rectangle free for a candidate (R329). -/
def freeRect (s : State) (x : Cand) : Option (Nat × Nat) :=
  firstFree (takenCls s (fun _ => true) (fun _ => true)) (hdrW x.att.hdr) (hdrH x.att.hdr)
/-- A rectangle, a spill area and a save block for a candidate. -/
def findSpace (s : State) (x : Cand) : Option Space :=
  match findCtx s x.ctx with
  | none => none
  | some c =>
    match freeRect s x,
        firstFit (spillsUsed s x.ctx (resOf x.who)) x.att.spill (c.spoolSz * 65536),
        firstFit (savesUsed s x.ctx (resOf x.who)) (saveLen (hdrW x.att.hdr) (hdrH x.att.hdr)) (c.saveSz * 65536) with
    | some o, some sp, some sv => some { x0 := o.1, y0 := o.2, spillB := sp, saveB := sv }
    | _, _, _ => none

/-! ### Steps 4 and 5: loading and injection -/

/-- A cluster's tile unit as a new instance finds it (R266): its directory, nothing else. -/
def freshTiles (cl : Nat) (d : List W64) (s : State) : State :=
  let t := s.tiles
  { s with tiles := { t with
      dir := ((List.range d.length).foldl (fun l h => if word d h = 0#64 then l else assocSet l (256 * cl + h) (word d h))
        (t.dir.filter fun c => decide (c.1 / 256 ≠ cl))),
      readers := t.readers.filter (fun c => decide (c.1 / 256 ≠ cl)), acc := t.acc.filter (fun c => decide (c.1 / 16 ≠ cl)),
      bytes := t.bytes.filter (fun c => decide (c.1 / 2 ^ 20 ≠ cl)), words := t.words.filter (fun c => decide (c.1 / 2 ^ 18 ≠ cl)),
      badT := t.badT.filter (fun a => decide (a / 2 ^ 20 ≠ cl)), badA := t.badA.filter (fun a => decide (a / 2 ^ 20 ≠ cl)) } }
def freshAll (cls : List Nat) (dirs : List (List W64)) (s : State) : State :=
  ((List.range cls.length).foldl (fun s k => freshTiles (cls.getD k 0) (dirs.getD k []) s) s)

/-- Instance numbers count on from the next one, past those held (R328). -/
def pickNum (used : List W32) : Nat → W32 → W32
  | 0, n => n
  | f + 1, n => if used.contains n then pickNum used f (nextFidOf n) else n

/-- Threads 0 to NTHR, all LIVE (R22). -/
def launchThreads (n : Nat) : List Thread :=
  (List.range (n + 1)).map fun t => { freshThread (BitVec.ofNat 16 t) with st := .live }

/-- The new instance. -/
def newInst (c : Ctx) (s : State) (pkt : List W64) (q : Nat) (a : Attempt) (sp : Space) (l : Loaded) (num : W32)
    (trig : Option (BitVec 4)) : Inst :=
  { iid := s.nextId, ctx := c.handle, num := num, epoch := 0#8, x0 := sp.x0, y0 := sp.y0, w := hdrW a.hdr, h := hdrH a.hdr,
    phase := .running, injected := false, stopped := false, ending := false, moving := false, slots := l.slots, sets := [],
    threads := launchThreads (pkNthr pkt), xdone := [],
    fmt := (List.range 32).map fun k => ((l.fmt.find? fun x => decide (x.1 = k)).map (·.2)).getD (word c.fmt k),
    flags := 0#5, sinkCnt := 0#64, errCnt := 0#32, errCode := 0#8, errTag := Tag.zero, errPlace := Place.zero, bases := [],
    forced := [], nodes := [], probe1 := none, brkAt := none, cls := a.cls, fdom := a.fdom, path := a.path, spillB := sp.spillB,
    spillN := a.spill, saveB := sp.saveB, pkt := pkt, queue := q, trig := trig, tstart := s.time, order := s.nextId, xpsn := [], xfl := [], errAt := 0,
    failed := [], strm := [], told := [] }

/-- The token of an entry word for a thread (R22, R35). -/
def injectTok (pkt : List W64) (t : Nat) (e : W64) : Tok :=
  let v := if entryArg e < pkNarg pkt then pkArg pkt (entryArg e) else 0#64
  { payload := v.setWidth 256, wide := false, tag := ⟨BitVec.ofNat 16 t, 0#24⟩, e := false, s := false, deps := [] }
def inject (iid : Nat) (pkt : List W64) (es : List W64) (s : State) : State :=
  (List.range (pkNthr pkt + 1)).foldl (fun s t =>
    es.foldl (fun s e =>
      sendTok iid .inject .frontEnd { x := entryX e, y := entryY e, pe := 0, slot := 0 } [entryTarget e] (injectTok pkt t e) s) s) s

/-- The holding instance goes when any of its clusters is needed (R427). -/
def dropHolding (cls : List Nat) (s : State) : State :=
  if s.fe.holdCl.any cls.contains then { s with fe := { s.fe with holdCl := [] } } else s

/-- Steps 4 and 5 after a successful reading: returns the instance's identifier. -/
def place (c : Ctx) (pkt : List W64) (q : Nat) (a : Attempt) (sp : Space) (l : Loaded) (trig : Option (BitVec 4)) (s : State) :
    Nat × State :=
  let used := (s.insts.filter fun i => decide (i.ctx = c.handle)).map (·.num)
  let num := pickNum used used.length c.nextInst
  let i := newInst c s pkt q a sp l num trig
  let s := freshAll (instCls i) l.dirs (dropHolding (instCls i) s)
  let s := (instCls i).foldl (fun s cl => acquireL1 cl s) s
  let s := modCtx c.handle (fun c => { c with nextInst := nextFidOf num })
    { s with nextId := s.nextId + 1, insts := s.insts ++ [i] }
  (i.iid, modInst i.iid (fun j => { j with injected := true }) (inject i.iid pkt l.entry s))

/-! ### PLACEMENT -/

def dropLaunch (id : Nat) (s : State) : State :=
  settleDeficit { s with fe := { s.fe with launches := s.fe.launches.filter fun l => decide (l.id ≠ id) } }
/-- A launch ends without an instance; it stays until its record can be written. -/
def endLaunch (l : Launch) (o : Outcome) (fdom : W32) (s : State) : State :=
  let f := finishLaunch l.ctx l.q l.pkt none fdom o s
  if f.1 then dropLaunch l.id f.2 else f.2

/-- A candidate that found no rectangle notes since when; where one is free and it waits for something else, the time starts again (R338). -/
def noteSince (x : Cand) (s : State) : State :=
  let free := (freeRect s x).isSome
  let f (o : Option Nat) : Option Nat := if free then none else some (o.getD s.time)
  let who := x.who
  match resOf who with
  | some (c, t) => modRes c t (fun r => { r with since := f r.since }) s
  | none => { s with fe := { s.fe with launches := s.fe.launches.map fun l => if l.id = who then { l with since := f l.since } else l } }

/-- The residency that a KEEP launch begins (R336). -/
def newResident (l : Launch) (a : Attempt) (sp : Space) (iid : Nat) : Resident :=
  { ctx := l.ctx, trig := pkTrig l.pkt, pkt := l.pkt, queue := l.q, path := a.path, cls := a.cls, fdom := a.fdom,
    spillB := sp.spillB, spillN := a.spill, saveB := sp.saveB, rect := some (sp.x0, sp.y0, hdrW a.hdr, hdrH a.hdr),
    active := some iid, pending := 0#16, ending := false, hdr := a.hdr, since := none }

/-- Steps 3 to 5 for the launch whose turn it is. -/
def placeLaunch (l : Launch) (z : Cand × Deficits × RKey) (s : State) : State :=
  let a := z.1.att
  match findCtx s l.ctx, findSpace s z.1 with
  | some c, some sp =>
    let r := loadImage c (pkImage l.pkt) a.hdr s
    match r.1 with
    | .wait => r.2
    | .bad b => endLaunch l (imgOutcome b) a.fdom r.2
    | .ok d =>
      let keep := pkKeep l.pkt
      let p := place c l.pkt l.q a sp d (if keep then some (pkTrig l.pkt) else none) r.2
      let s := drrCommit a.cls z (dropLaunch l.id p.2)
      if keep then { s with fe := { s.fe with resident := s.fe.resident ++ [newResident l a sp p.1] } } else s
  | some _, none => noteSince z.1 s
  | none, _ => s

/-- A LAUNCH packet at the head of its queue, ready. -/
def attemptLaunch (c : Ctx) (l : Launch) (s : State) : State :=
  if pkKeep l.pkt && (findRes s l.ctx (pkTrig l.pkt)).isSome then endLaunch l (rejected 7) 0#32 s
  else
    let j := judge c l.pkt none s
    match j.1 with
    | .wait => j.2
    | .ends o f => endLaunch l o f j.2
    | .ok _ =>
      let k := readyCands j.2
      match k.1 with
      | none => k.2
      | some cs =>
        match nextPlaced k.2 cs with
        | none => k.2
        | some z => if z.1.who = l.id then placeLaunch l z k.2 else k.2

/-- PLACEMENT (R328), which also ends a refused packet and a NOP (R326). -/
def placement (l : Launch) (s : State) : State :=
  match findCtx s l.ctx with
  | none => s
  | some c =>
    if !isHead s l then s
    else if pkBad l.pkt then endLaunch l (rejected 1) 0#32 s
    else if !l.waits.isEmpty then s
    else if pkType l.pkt = 2 then endLaunch l (noRun 0 0 0 0) 0#32 s
    else attemptLaunch c l s
def execPlacement (launch : Nat) (s : State) : Out :=
  match s.fe.launches.find? fun l => decide (l.id = launch) with
  | none => .next s
  | some l => .next (if s.ft.fatal then s else placement l s)

/-! ### Runs of resident graphs (R336) -/

/-- A run that ended without an instance ends the residency; FDOM as its path gave it when just read (R333). R336 says so of IMAGE_INVALID and
IMAGE_FAULT, and that REJECTED does the same is the model's choice (DESIGN CHOICE; assumption 70). -/
def endResidency (r : Resident) (o : Outcome) (fdom : W32) (s : State) : State :=
  let f := finishLaunch r.ctx r.queue r.pkt none fdom o s
  if f.1 then settleDeficit { f.2 with fe := { f.2.fe with resident := f.2.fe.resident.filter fun x => !isRes r.ctx r.trig x } } else f.2
/-- The run has been placed. -/
def runPlaced (r : Resident) (a : Attempt) (sp : Space) (iid : Nat) (s : State) : State :=
  modRes r.ctx r.trig (fun x =>
    { x with active := some iid, pending := x.pending - 1#16, rect := some (sp.x0, sp.y0, hdrW a.hdr, hdrH a.hdr), hdr := a.hdr,
             path := a.path, cls := a.cls, fdom := a.fdom, spillB := sp.spillB, spillN := a.spill, saveB := sp.saveB,
             since := none }) s
/-- Steps 4 and 5 of a run at a place. -/
def runAt (c : Ctx) (r : Resident) (a : Attempt) (sp : Space) (z : Option (Cand × Deficits × RKey)) (s : State) : State :=
  let d := loadImage c (pkImage r.pkt) a.hdr s
  match d.1 with
  | .wait => d.2
  | .bad b => endResidency r (imgOutcome b) a.fdom d.2
  | .ok l =>
    let p := place c r.pkt r.queue a sp l (some r.trig) d.2
    let s := runPlaced r a sp p.1 p.2
    match z with
    | some z => drrCommit a.cls z s
    | none => s
/-- A run of a graph that has lost its clusters: steps 1 to 5 again. One that is REJECTED ends the residency too (DESIGN CHOICE; assumption 70). -/
def runAnew (c : Ctx) (r : Resident) (s : State) : State :=
  let j := judge c r.pkt (some (r.ctx, r.trig)) s
  match j.1 with
  | .wait => j.2
  | .ends o f => endResidency r o f j.2
  | .ok _ =>
    let k := readyCands j.2
    match k.1 with
    | none => k.2
    | some cs =>
      match nextPlaced k.2 cs with
      | none => k.2
      | some z =>
        if z.1.who ≠ runNo r.ctx r.trig then k.2
        else
          match findSpace k.2 z.1 with
          | some sp => runAt c r z.1.att sp (some z) k.2
          | none => noteSince z.1 k.2
def run (r : Resident) (s : State) : State :=
  match findCtx s r.ctx with
  | none => s
  | some c =>
    match r.rect with
    | some q =>
      let a : Attempt := { hdr := r.hdr, path := r.path, cls := r.cls, weight := 0, fdom := r.fdom, spill := r.spillN, budget := true }
      runAt c r a { x0 := q.1, y0 := q.2.1, spillB := r.spillB, saveB := r.saveB } none s
    | none => runAnew c r s
def execRun (ctx : Nat) (trig : BitVec 4) (s : State) : Out :=
  match findRes s ctx trig with
  | none => .next s
  | some r => .next (if s.ft.fatal || r.active.isSome || r.ending || decide (r.pending = 0#16) then s else run r s)

/-! ### Pre-emption (R338, R339) -/

/-- The nodes of a flush: clusters, the front end, and every engine that holds a transfer of the instance (R368 step 3). -/
def sweepNodes (s : State) (i : Inst) : List SweepNode :=
  (List.range (i.w * i.h)).map SweepNode.cluster ++ [.frontEnd] ++
  ((s.xfers.filter fun x => decide (x.inst = i.iid)).filterMap (·.act)).map SweepNode.engine
/-- A sweep begins, once injection is over (R364, R368 step 1). -/
def startSweep (iid : Nat) (move : Bool) (s : State) : State :=
  modInst iid (fun i =>
    if i.phase = .running ∧ i.injected ∧ !i.ending then { i with phase := .sweeping (sweepNodes s i) [], probe1 := none, moving := move }
    else i) s
/-- A reservation between runs is given up (R336). -/
def releaseRect (p : Resident → Bool) (s : State) : State :=
  { s with fe := { s.fe with resident := s.fe.resident.map fun r => if r.active.isNone && p r then { r with rect := none } else r } }
/-- Every paddle instance and reservation leaves (R339, R425). -/
def paddlesOut (s : State) : State :=
  let s := releaseRect (fun r => decide (r.cls = 0)) s
  (s.insts.filter fun i => decide (i.phase = .running ∧ i.cls = 0)).foldl (fun s i => startSweep i.iid false s) s
/-- The first rectangle in order once the clusters of classes below `c` count as free. -/
def victimRect (s : State) (x : Cand) (c : Nat) : Option (Nat × Nat) :=
  firstFree (takenCls s (fun i => decide (c ≤ i.cls)) (fun r => decide (c ≤ r.cls))) (hdrW x.att.hdr) (hdrH x.att.hdr)
/-- Everything of a class below `c` that meets a rectangle leaves it. -/
def clearRect (x : Cand) (c : Nat) (o : Nat × Nat) (s : State) : State :=
  let cls := rectCls o.1 o.2 (hdrW x.att.hdr) (hdrH x.att.hdr)
  let hit (l : List Nat) : Bool := l.any cls.contains
  let s := releaseRect (fun r => decide (r.cls < c) && hit (resCls r)) s
  (s.insts.filter fun i => decide (i.phase = .running ∧ i.cls < c) && hit (instCls i)).foldl (fun s i => startSweep i.iid false s) s
/-- The candidate whose turn it is, when it waits for a rectangle. -/
def waiting (who : Nat) (s : State) : Option Cand × State :=
  let k := readyCands s
  match k.1 with
  | none => (none, k.2)
  | some cs =>
    match nextPlaced k.2 cs with
    | none => (none, k.2)
    | some z => (if z.1.who = who && decide (1 ≤ z.1.att.cls) && (findSpace k.2 z.1).isNone then some z.1 else none, k.2)
/-- 50 µs have passed. -/
def graceOver (x : Cand) (s : State) : Bool := (x.since.map fun t => decide (t + 50000 ≤ s.time)).getD false
/-- What a candidate that finds no space takes from lower classes after 50 µs without a free rectangle (R338). `launch` may be a `runNo`. -/
def preempt (x : Cand) (s : State) : State :=
  if (freeRect s x).isSome || !graceOver x s then s
  else
    match victimRect s x x.att.cls with
    | some o => clearRect x x.att.cls o s
    | none => s
/-- Some launch above class 0 finds no space, whosever turn it is. -/
def crowded (s : State) (cs : List Cand) : Bool := cs.any fun x => decide (1 ≤ x.att.cls) && (findSpace s x).isNone
/-- Paddle work leaves while any launch of a higher class finds no space (R339). -/
def yieldPaddles (s : State) : State :=
  let k := readyCands s
  match k.1 with
  | some cs => if crowded k.2 cs then paddlesOut k.2 else k.2
  | none => k.2
/-- PREEMPTION. -/
def execPreemption (launch : Nat) (s : State) : Out :=
  if s.ft.fatal then .next s
  else
    let w := waiting launch (yieldPaddles s)
    .next (match w.1 with
      | none => w.2
      | some x => preempt x (noteSince x w.2))

/-! ### Compaction (R373) -/

/-- The place of an origin in R329's order. -/
def originNo (w h : Nat) (o : Nat × Nat) : Nat := ((origins w h).findIdx? fun p => decide (p = o)).getD (origins w h).length
/-- An instance's first free origin, its own clusters counted as free, when it comes before its present one. -/
def canMove (s : State) (i : Inst) : Bool :=
  match firstFree (takenCls s (fun j => decide (j.iid ≠ i.iid)) (fun _ => true)) i.w i.h with
  | some o => decide (originNo i.w i.h o < originNo i.w i.h (i.x0, i.y0))
  | none => false
/-- The place of an instance in R329's order of origins, whatever the shape: those that lie within one die, die by die, and then the others; a shape
that fits no die stands among the others (between shapes of both kinds that is the model's choice; assumption 70). -/
def originKey (i : Inst) : Nat :=
  let one := decide (i.x0 / 16 = (i.x0 + i.w - 1) / 16 ∧ i.y0 / 8 = (i.y0 + i.h - 1) / 8)
  512 * (if one then i.y0 / 8 * 2 + i.x0 / 16 else 4) + 32 * i.y0 + i.x0
/-- The first instance, by its origin, of class c or below that can move. -/
def firstMover (s : State) (c : Nat) : Option Inst :=
  (s.insts.filter fun i => decide (i.phase = .running ∧ i.cls ≤ c) && i.injected && !i.ending && canMove s i).foldl (fun m i =>
    match m with
    | none => some i
    | some j => if originKey i < originKey j then some i else m) none
/-- Clusters that are free or held by lower classes. -/
def freeOrLower (s : State) (c : Nat) : Nat :=
  let t := takenCls s (fun i => decide (c ≤ i.cls)) (fun r => decide (c ≤ r.cls))
  ((List.range 512).filter fun k => !t.contains k).length
def compact (x : Cand) (s : State) : State :=
  let c := x.att.cls
  if !graceOver x s || (victimRect s x c).isSome || decide (freeOrLower s c < hdrW x.att.hdr * hdrH x.att.hdr) then s
  else
    match firstMover s c with
    | some i => startSweep i.iid true s
    | none => s
def execCompaction (launch : Nat) (s : State) : Out :=
  if s.ft.fatal then .next s
  else
    let w := waiting launch s
    .next (match w.1 with
      | none => w.2
      | some x => compact x w.2)

end Sys2Proof.Machine
end

