-- ==== Sys2Proof/Machine/Faults.lean ====
section
/-! DEFINITION. The fault queue (R353 to R355), RESUME (R357 to R359), SHOOT (R349), interrupts (R387) and device fatal errors
(R363). -/
namespace Sys2Proof.Machine

/-! ### Interrupts -/

/-- The two doublewords of an MSI-X entry: address; data and vector control. An entry never written is masked, its mask
bit set (assumption 10). -/
def msixLo (s : State) (v : Nat) : W64 := assocGet 0#64 s.link.msix (2 * v)
def msixHi (s : State) (v : Nat) : W64 := assocGet 0x100000000#64 s.link.msix (2 * v + 1)
def msixMasked (s : State) (v : Nat) : Bool := (msixHi s v).getLsbD 32
/-- A vector's message: its entry's data at its entry's address (R387). -/
def sendVec (v : BitVec 16) (s : State) : State :=
  { s with link := { s.link with sent := (v, msixLo s v.toNat, (msixHi s v.toNat).setWidth 32) :: s.link.sent } }
/-- A vector is raised: its message is sent, or it is pending while masked (R387). -/
def raiseVec (v : BitVec 16) (s : State) : State :=
  if 2048 ≤ v.toNat then s
  else if msixMasked s v.toNat then
    (if s.link.pba.contains v.toNat then s else { s with link := { s.link with pba := s.link.pba ++ [v.toNat] } })
  else sendVec v s
/-- A pending vector that is no longer masked is sent. -/
def sendPending (v : Nat) (s : State) : State :=
  if s.link.pba.contains v && !msixMasked s v then
    sendVec (BitVec.ofNat 16 v) { s with link := { s.link with pba := s.link.pba.filter fun x => decide (x ≠ v) } }
  else s

/-! ### Writing entries -/

/-- The eight doublewords of an entry, the sheet being that of the instance now while it lives (Table 16.6). -/
def entryWords (s : State) (e : FEntry) : List W64 :=
  let i := if e.sheet1 = 0#64 then none else findInst s e.inst
  [e.kind ++ e.src ++ e.acc ++ e.level ++ 0#8 ++ e.fid, e.va, e.place, (i.map (sheet0 s)).getD e.sheet0,
   (i.map sheet1).getD e.sheet1, e.fdom ++ 0#32, e.data, e.time]

/-- The physical address that an access of the front end failed at, 0 without a translation (R417). -/
def failPa (c : Ctx) (va : Nat) (s : State) : Nat × State :=
  let r := lookup none .front c va 0 s
  match r.1 with
  | .leaf e size _ => (leafPa e size va, r.2)
  | _ => (0, r.2)
/-- The first failure after each success is counted and logged (R333). -/
def feFailed (c : Ctx) (va : Nat) (s : State) : State :=
  if c.feFail then s
  else
    let p := failPa c va s
    modCtx c.handle (fun c => { c with feFail := true }) (countLog ctrFEACC 4 0 p.1 p.2)

/-- Slot widx of the ring and WIDX, written in one step. -/
def writeSlot (c : Ctx) (e : FEntry) (widx : W64) (s : State) : State :=
  let at_ := c.fqRing + 64 * (widx.toNat % 2 ^ c.fqLog)
  let r := sysReady none c [(needWr, at_, 64), (needWr, c.fqdesc, 8)] 0 s
  match r.1 with
  | .wait => r.2.2
  | .noPage a | .noPerm a => feFailed c a r.2.2
  | .ok _ =>
    let w := sysWrite none c at_ ((entryWords r.2.2 e).flatMap dwBytes) r.2.2
    let q := sysWrite none c c.fqdesc (dwBytes (widx + 1#64)) w.2
    raiseVec c.fqVec (modCtx c.handle (fun c => { c with held := c.held.drop 1, feFail := false }) q.2)
/-- The first entry that waits is written, unless the ring is full. -/
def writeEntry (c : Ctx) (e : FEntry) (s : State) : State :=
  let r := sysRead none c c.fqdesc 16 s
  match r.1 with
  | .wait => r.2
  | .noPage a | .noPerm a => feFailed c a r.2
  | .ok bs =>
    match sysPoison c.fqdesc bs with
    | some a => feFailed c a r.2
    | none => if dwAt bs 0 - dwAt bs 8 = BitVec.ofNat 64 (2 ^ c.fqLog) then r.2 else writeSlot c e (dwAt bs 0) r.2
/-- FAULT_ENTRY_WRITE and FAULT_ENTRY_RETRY: the second after a failure (Table 15.11). -/
def entryStep (ctx : Nat) (again : Bool) (s : State) : State :=
  match findCtx s ctx with
  | none => s
  | some c =>
    match c.held with
    | [] => s
    | e :: _ => if c.feFail = again then writeEntry c e s else s
def execFaultEntryWrite (ctx : Nat) (s : State) : Out := .next (entryStep ctx false s)
def execFaultEntryRetry (ctx : Nat) (s : State) : Out := .next (entryStep ctx true s)

/-! ### RESUME -/

def resREPLAY : Nat := 1
def resFAIL : Nat := 2
def resREPLY : Nat := 3

/-- Every SYS.BRK of an instance whose reply has come emits it, and firing restarts (R122). -/
def breaksOver (iid : Nat) (s : State) : State :=
  let s := modInst iid (fun i => { i with stopped := false, brkAt := none }) s
  (s.ops.filter fun o => decide (o.inst = iid)).foldl (fun s o =>
    match o.ins, o.todo with
    | .sysBrk _ _, some (_, v) => delOp o.id (emit64 (opFiring o) o.ins v s)
    | _, _ => s) s
/-- BREAK entries of an instance that are outstanding. -/
def openBreaks (s : State) (i : Inst) : Bool :=
  ((findCtx s i.ctx).map fun c => c.out.any fun e => decide (e.inst = i.iid ∧ e.kind = 0x05#8)).getD false

/-- A request that is replayed takes the next place among the replays (R358). -/
def issueAgain (id act : Nat) (s : State) : State :=
  if act = resREPLAY then modOp id (fun p => { p with replay := s.nextId }) { s with nextId := s.nextId + 1 } else s
/-- A parked request or a waiting trap is acted on (R357): replayed at once (R358), failed, or answered. -/
def actOn (o : Op) (fid : W32) (act : Nat) (va : Nat) (reply : W64) (s : State) : State :=
  match o.ph with
  | .trap f =>
    if f ≠ fid ∨ act ≠ resREPLY then s
    else
      (match o.ins with
       | .sysBrk _ _ =>
         let s := modOp o.id (fun p => { p with todo := some (act, reply) }) s
         (match findInst s o.inst with
          | some i => if openBreaks s i then s else breaksOver i.iid s
          | none => s)
       | _ => delOp o.id (emit64 (opFiring o) o.ins reply s))
  | .parked f =>
    if f ≠ fid then s
    else
    let s := issueAgain o.id act s
    if isTileMem o.ins then
      modOp o.id (fun p => { p with ph := .tile, err := if act = resFAIL then some (errPerm va) else none }) s
    else if isStream o.ins then
      modOp o.id (fun p => { p with ph := .stream, err := if act = resFAIL then some (errPerm va) else none }) s
    else if isOrdered o.ins then
      (if act = resFAIL then freeEnded o.inst (finish o.id (some (errPerm va)) (linkStep o s))
       else releaseStep o.id (modOp o.id (fun p => { p with ph := .release }) s))
    else freeEnded o.inst (if act = resFAIL then finish o.id (some (errPerm va)) s
      else unorderedStep o.id (modOp o.id (fun p => { p with ph := .l1Net }) s))
  | _ => s
def actOnX (x : Xfer) (act : Nat) (s : State) : State :=
  if act = resFAIL then endX x.id (some (errXfer xcPERM (xOffset x x.next))) s
  else
    match x.ph with
    | .again _ _ => modX x.id (fun y => { y with ph := .again 0 0#32, replay := s.nextId }) { s with nextId := s.nextId + 1 }
    | _ => modX x.id (fun y => { y with ph := .admitted, replay := s.nextId }) { s with nextId := s.nextId + 1 }

/-- The operation or transfer of an entry. -/
def entryOp (s : State) (e : FEntry) : Option Op :=
  s.ops.find? fun o => decide (o.inst = e.inst ∧ (o.ph = .parked e.fid ∨ o.ph = .trap e.fid))
def entryX' (s : State) (e : FEntry) : Option Xfer :=
  s.xfers.find? fun x => decide (x.inst = e.inst ∧ (x.ph = .parked e.fid ∨ x.ph = .again 1 e.fid))

/-- The bytes of a saved record of which a resume changes words: the address of its word 1, and of its reply. -/
def recBase (s : State) (i : Inst) : Nat := ((findCtx s i.ctx).map fun c => c.save + i.saveB).getD 0
/-- KIND of the record of an entry's request (Table 17.7). -/
def kindOfSrc (src : BitVec 4) : Nat := if src = 0#4 then 1 else if src = 1#4 then 2 else if src = 5#4 then 4 else 3
/-- Where word 1 of the n-th held-token record of a cluster lies, and of the n-th saved transfer's word 5. -/
def tokAt (base w : Nat) (p : Place) (n : Nat) : Nat := base + 0x200000 + 0x300000 * (p.y * w + p.x) + 0x10000 + 64 * n
def xferAt (base n : Nat) : Nat := base + 0x10000 + 64 * n

/-- What recording an action in the save block comes to. -/
inductive Rec where
  | done
  | wait
  | bad
  deriving DecidableEq, Repr

/-- The words of a record at an address, poison or a failed access apart. -/
def recRead (c : Ctx) (va : Nat) (s : State) : Option (List W64) × Rec × State :=
  let r := sysRead none c va 64 s
  match r.1 with
  | .ok bs => if bs.any (·.2) then (none, .bad, r.2) else (some (dwords bs), .done, r.2)
  | .wait => (none, .wait, r.2)
  | _ => (none, .bad, r.2)
def recWrite (c : Ctx) (va : Nat) (w : W64) (s : State) : Rec × State :=
  let r := sysWrite none c va (dwBytes w) s
  match r.1 with
  | .ok _ => (.done, r.2)
  | .wait => (.wait, r.2)
  | _ => (.bad, r.2)
/-- Whether a held-token record belongs to an entry; of a parked SSTRM's place, which names no FID, each record may. -/
def recMatches (e : FEntry) (w : List W64) : Bool :=
  decide (word w 0 = e.place ∧ ((word w 1).extractLsb' 60 3).toNat = kindOfSrc e.src ∧ (word w 1).getLsbD 63 = true) &&
  (decide (e.src = 4#4) || decide ((word w 6).setWidth 32 = e.fid))

/-- ACT, and AUX1 for a reply, in an entry's records among the last n of a cluster's N (R374): each of an operation's, or a parked SSTRM's
one record, which `skip` others of its place stand before. -/
def recordTok (c : Ctx) (e : FEntry) (act : Nat) (reply : W64) (base : Nat) : Nat → Nat → Nat → State → Rec × State
  | 0, _, _, s => (.done, s)
  | n + 1, j, skip, s =>
    let at_ := base + 64 * j
    let r := recRead c at_ s
    match r.1 with
    | none => (r.2.1, r.2.2)
    | some w =>
      let hit := recMatches e w
      if !hit || (decide (e.src = 4#4) && decide (0 < skip)) then
        recordTok c e act reply base n (j + 1) (if hit then skip - 1 else skip) r.2.2
      else
        let q := recWrite c (at_ + 8) (word w 1 ||| (BitVec.ofNat 64 act <<< 53)) r.2.2
        match q.1 with
        | .done =>
          let t := if act = resREPLY then recWrite c (at_ + 56) reply q.2 else q
          (match t.1 with
           | .done => if e.src = 4#4 then t else recordTok c e act reply base n (j + 1) skip t.2
           | _ => t)
        | _ => q
def recordXfer (c : Ctx) (e : FEntry) (act : Nat) (base : Nat) : Nat → State → Rec × State
  | 0, s => (.done, s)
  | n + 1, s =>
    let at_ := base + 64 * n
    let r := recRead c at_ s
    match r.1 with
    | none => (r.2.1, r.2.2)
    | some w =>
      if (word w 5).extractLsb' 62 2 = 1#2 ∧ (word w 5).setWidth 32 = e.fid then
        recWrite c (at_ + 40) (word w 5 ||| (BitVec.ofNat 64 act <<< 59)) r.2.2
      else recordXfer c e act base n r.2.2
/-- The place of an entry. -/
def entryPlace (e : FEntry) : Place := { x := (e.place.extractLsb' 56 8).toNat, y := (e.place.extractLsb' 48 8).toNat, pe := 0, slot := 0 }
/-- The address that a FAIL reports is kept with the instance. -/
def noteFail (iid : Nat) (act : Nat) (e : FEntry) (s : State) : State :=
  if act = resFAIL then modInst iid (fun i => { i with failed := i.failed ++ [(e.fid, e.va.toNat)] }) s else s
/-- The cluster block of an entry's place in a save block, and where its records begin (Table 17.2). -/
def entryBlock (i : Inst) (e : FEntry) (base : Nat) : Nat := base + 0x200000 + 0x300000 * ((entryPlace e).y * i.w + (entryPlace e).x)
def blockRecs (cb : Nat) : Nat := cb + 0x10000
/-- An action recorded among a save block's transfers, and in one of its cluster blocks. -/
def recordAmongX (c : Ctx) (e : FEntry) (act base : Nat) (s : State) : Rec × State :=
  let h := recRead c base s
  match h.1 with
  | none => (h.2.1, h.2.2)
  | some w => recordXfer c e act (xferAt base 0) ((word w 6).extractLsb' 0 11).toNat h.2.2
def recordAmongToks (c : Ctx) (i : Inst) (e : FEntry) (act : Nat) (reply : W64) (cb : Nat) (s : State) : Rec × State :=
  let h := recRead c cb s
  match h.1 with
  | none => (h.2.1, h.2.2)
  | some w =>
    let mine := i.strm.filter fun x => decide (x.1 = e.place)
    recordTok c e act reply (blockRecs cb) ((word w 0).extractLsb' 0 14).toNat 0 (mine.findIdx fun x => decide (x.2 = e.fid)) h.2.2
/-- An action recorded in the save block of a saved instance. -/
def recordSaved (c : Ctx) (i : Inst) (e : FEntry) (act : Nat) (reply : W64) (s : State) : Rec × State :=
  if e.src = 2#4 then recordAmongX c e act (c.save + i.saveB) s
  else recordAmongToks c i e act reply (entryBlock i e (c.save + i.saveB)) s

/-- Table 17.8's last row: an access of a save block failed; the instance ends with status ERROR and OUTCOME RAN, no place
recorded. It stays as it was until its end can be carried out. -/
def spoiled (i : Inst) (code : Byte) : Inst :=
  { i with errCnt := if i.errCnt = 0xFFFFFFFF#32 then i.errCnt else i.errCnt + 1#32, errCode := code, errTag := Tag.zero,
           errPlace := Place.zero, errAt := 0 }
def endSpoiled (i : Inst) (code : Byte) (outcome : Nat) (s : State) : State :=
  let j := spoiled i code
  let rep := if i.phase = .saved then reportWords j (liveThreads j.threads) [] 0 else reportOf s j
  let q := endInst j outcome rep (modInst i.iid (fun _ => j) s)
  if q.1 then q.2 else modInst i.iid (fun _ => i) q.2

/-- One entry resumed: false when the step has to be tried again. A saved instance whose record cannot be read or written ends with ERROR: Table 17.8
says so of the sweep and the restore, and the spec does not say it of RESUME (DESIGN CHOICE; assumption 71). -/
def resumeOne (c : Ctx) (act : Nat) (reply : W64) (z : Bool × State) (e : FEntry) : Bool × State :=
  if !z.1 then z
  else
    let s := z.2
    match findInst s e.inst with
    | none => (true, endException c.handle e.fid s)
    | some i =>
      match i.phase with
      | .saved =>
        let r := recordSaved c i e act reply s
        (match r.1 with
         | .wait => (false, r.2)
         | .done => (true, noteFail i.iid act e (endException c.handle e.fid r.2))
         | .bad => (true, endSpoiled i 0x07#8 0 (endException c.handle e.fid r.2)))
      | .sweeping _ _ =>
        let s := noteFail i.iid act e (endException c.handle e.fid s)
        (true, match entryOp s e, entryX' s e with
          | some o, _ => modOp o.id (fun p => { p with todo := some (act, reply) }) s
          | none, some x => modX x.id (fun y => { y with todo := act }) s
          | _, _ => s)
      | .running =>
        let s := endException c.handle e.fid s
        (true, match entryOp s e, entryX' s e with
          | some o, _ => actOn o e.fid act e.va.toNat reply s
          | none, some x => actOnX x act s
          | _, _ => s)

/-- How far a FID lies behind the first of a range; 0 is skipped (R357). -/
def fidDist (start f : W32) : Nat :=
  let a := if start = 0#32 then 1 else start.toNat
  if a ≤ f.toNat then f.toNat - a else f.toNat + (2 ^ 32 - 1) - a
def accepts (act : Nat) (e : FEntry) : Bool :=
  if act = resREPLY then decide (e.kind = 4#8 ∨ e.kind = 5#8) else decide (1 ≤ e.kind.toNat ∧ e.kind.toNat ≤ 3)
def ftDone (stat : Byte) (res : W64) (s : State) : State :=
  { s with ft := { s.ft with busy := false, stat := stat, res := res, hits := none } }

/-- A RESUME whose ACT is `act` − 1, of the entries that are outstanding when it begins: `hits` keeps their FIDs while the access of a saved
instance's record has to wait. -/
def resume (act : Nat) (s : State) : State :=
  let a := s.ft.arg0
  if !s.ft.busy || decide (s.ft.cmd ≠ 1#8) || decide ((a.extractLsb' 62 2).toNat + 1 ≠ act) then s
  else
    match findCtx s (a.extractLsb' 48 12).toNat with
    | none => if s.ft.hits.isSome then ftDone 0#8 s.ft.res s else ftDone 1#8 0#64 s
    | some c =>
      let hit := c.out.filter fun e => match s.ft.hits with
        | some fs => fs.contains e.fid
        | none => decide (fidDist (a.setWidth 32) e.fid ≤ (a.extractLsb' 32 16).toNat)
      if s.ft.hits.isNone && (decide (a.extractLsb' 60 2 ≠ 0#2) || !(hit.all (accepts act))) then ftDone 1#8 0#64 s
      else
        let r := hit.foldl (resumeOne c act s.ft.arg1) (true, s)
        if r.1 then ftDone 0#8 (s.ft.res + BitVec.ofNat 64 hit.length) r.2
        else { r.2 with ft := { r.2.ft with hits := some (hit.map (·.fid)), res := s.ft.res + BitVec.ofNat 64 (hit.length -
          ((findCtx r.2 c.handle).map fun d => (hit.filter d.out.contains).length).getD 0) } }
def execResumeReplay (s : State) : Out := .next (resume resREPLAY s)
def execResumeFail (s : State) : Out := .next (resume resFAIL s)
def execResumeReply (s : State) : Out := .next (resume resREPLY s)

/-! ### SHOOT (R349) -/

/-- The covered bytes of a shootdown: NWIN = 0 covers the whole space. -/
def shootMeets (k : Shoot) (va n : Nat) : Bool := decide (k.nwin = 0 ∨ (k.va < va + n ∧ va < k.va + k.nwin * 65536))
def shootCtx (k : Shoot) (ctx : Nat) : Bool := k.ctx.all fun c => decide (c = ctx)
/-- Whether a cached translation is covered: G entries only with GLB = 1. -/
def shootTlb (s : State) (k : Shoot) (t : Tlb) : Bool :=
  shootMeets k t.va t.size &&
  (match k.ctx with
   | none => true
   | some c => !pteG t.leaf && ((findCtx s c).any fun x => decide (x.asid = t.asid)))
/-- Transfers that pin a window of a covered page: completion waits for every pin, also for one placed since phase 1 (R317). -/
def shootPins (s : State) (k : Shoot) : List Nat :=
  (s.xfers.filter fun x => shootCtx k x.ctx && x.pins.any fun p =>
    shootMeets k (p.win * 65536 / p.size * p.size) p.size && !(k.ctx.isSome && pteG p.leaf)).map (·.id)
/-- The page that translated an element is covered. -/
def shootEl (k : Shoot) (x : El) : Bool := shootMeets k (x.va / x.page * x.page) x.page
/-- Operations and transfers that still use a covered translation. -/
def shootUsers (s : State) (k : Shoot) : List Nat :=
  ((s.ops.filter fun o => shootCtx k (ctxNoOf s o.inst) && (match o.ph with
      | .miss | .acks | .home | .peer => true
      | _ => false) && o.els.any (shootEl k)).map (·.id)) ++
  ((s.xfers.filter fun x => shootCtx k x.ctx && (x.els.getD []).any (shootEl k)).map (·.id))

/-- Phase 1. -/
def execShoot (s : State) : Out :=
  let a := s.ft.arg0
  let b := s.ft.arg1
  .next (
    if !s.ft.busy || decide (s.ft.cmd ≠ 2#8) || s.ft.shoot.isSome then s
    else if a.extractLsb' 56 8 ≠ 0#8 ∨ a.extractLsb' 0 16 ≠ 0#16 ∨ b.extractLsb' 60 3 ≠ 0#3 ∨ b.extractLsb' 32 16 ≠ 0#16 ∨
        (findCtx s (b.extractLsb' 48 12).toNat).isNone then ftDone 1#8 0#64 s
    else
      let k : Shoot := { va := a.toNat, nwin := (b.setWidth 32).toNat,
                         ctx := if b.getLsbD 63 then none else some (b.extractLsb' 48 12).toNat, drain := true, ops := [] }
      let k := { k with ops := shootUsers s k }
      let s := tlbDrop (shootTlb s k) s
      { s with ft := { s.ft with shoot := some k } })

/-- Lines of a cluster that phase 3 acts on. -/
def shootLine (k : Shoot) (cl ctx va n : Nat) (c : Nat) : Bool := decide (c = cl) && shootCtx k ctx && shootMeets k va n
/-- One sector goes to its home: the host's for a host line. -/
def shootSec (cl : Nat) (z : Bool × State) (sec : Nat) : Bool × State :=
  if isHost sec then
    let r := settleHost true sec z.2
    (z.1 && r.1, r.2)
  else leaveSec cl z sec
/-- One cluster's lines: written back, returned and invalid. -/
def shootCl (k : Shoot) (z : Bool × State) (cl : Nat) : Bool × State :=
  let ws := (z.2.co.l1w.filter fun x => shootLine k cl x.ctx x.va 4 x.cl && decide (x.st ≠ .v)).map fun x => sectorOf x.pa
  let ds := (z.2.co.l1d.filter fun x => shootLine k cl x.ctx x.va 64 x.cl && isEM x.st).map (·.pa)
  let r := (ws ++ ds).eraseDups.foldl (shootSec cl) (true, z.2)
  if !r.1 then (false, r.2)
  else
    let s := r.2
    let gone := s.co.l1d.filter fun x => shootLine k cl x.ctx x.va 64 x.cl
    let s := gone.foldl (fun s x => let pl := placeOf cl x.pa; dirPut (delHolder (dirGet s pl x.pa) cl) s) s
    (z.1, { s with co := { s.co with
      l1w := s.co.l1w.filter (fun x => !shootLine k cl x.ctx x.va 4 x.cl),
      l1d := s.co.l1d.filter (fun x => !shootLine k cl x.ctx x.va 64 x.cl) } })
/-- SHOOTDOWN_COMPLETE: phases 2 and 3. -/
def execShootdownComplete (s : State) : Out :=
  match s.ft.shoot with
  | none => .next s
  | some k =>
    if ((shootUsers s k).any k.ops.contains) || !(shootPins s k).isEmpty then .next s
    else
      let r := (List.range 512).foldl (shootCl k) (true, s)
      .next (if r.1 then ftDone 0#8 0#64 { r.2 with ft := { r.2.ft with shoot := none } } else r.2)

/-! ### Device fatal errors (R363) -/

/-- All work ends; contexts, queue mappings and translations are lost; what the caches hold stays. -/
def endAllWork (s : State) : State :=
  { s with
    insts := [], flights := [], ops := [], xfers := [], firing := Firing.reset,
    inbox := s.inbox.filter (fun i => match i with
      | .triggerStore _ _ _ _ => false
      | _ => true),
    co := { s.co with tlb := [], regOut := s.co.regOut.map fun r => { r with ops := [] } },
    fe := { s.fe with ctxs := [], queues := [], launches := [], resident := [], deficit := [], visited := [], busy := false,
                      holdCl := [], rr := [] },
    ft := { s.ft with busy := false, shoot := none, hits := none },
    fab := { s.fab with flits := [] } }
def fatal (cause : Byte) (s : State) : State :=
  if s.ft.fatal then s
  else
    let s := endAllWork s
    raiseVec s.link.fatVec { s with ft := { s.ft with fatal := true, fcause := cause } }
/-- FATAL_ERROR: an error in state that cannot carry poison (Table 16.11). -/
def execFatalError (cause : BitVec 8) (s : State) : Out :=
  .next (if 1 ≤ cause.toNat ∧ cause.toNat ≤ 4 then fatal cause s else s)

end Sys2Proof.Machine
end

