-- ==== Sys2Proof/Machine/Spill.lean ====
section
/-! DEFINITION. The spill area (R18, R177, R178): token records in memory, what a matching store writes there and reads back, and the
two steps that do so, a token's arrival and a refill. -/
namespace Sys2Proof.Machine

/-! ### Token records (Table 17.7) -/

/-- What a token record says (Table 17.7). -/
structure TokRec where
  place : Place
  tag   : Tag
  kind  : Nat
  e     : Bool
  s     : Bool
  wide  : Bool
  opnd  : Nat
  act   : Nat
  pay   : W256
  aux0  : W64
  aux1  : W64
  deriving DecidableEq, Repr

def recWords (r : TokRec) (order : Nat) : List W64 :=
  [placeWord r.place r.tag,
   1#1 ++ BitVec.ofNat 3 r.kind ++ BitVec.ofBool r.e ++ BitVec.ofBool r.s ++ BitVec.ofBool r.wide ++ BitVec.ofNat 2 r.opnd ++
     BitVec.ofNat 2 r.act ++ 0#21 ++ BitVec.ofNat 32 order,
   r.pay.extractLsb' 0 64, if r.wide then r.pay.extractLsb' 64 64 else 0#64, if r.wide then r.pay.extractLsb' 128 64 else 0#64,
   if r.wide then r.pay.extractLsb' 192 64 else 0#64, r.aux0, r.aux1]

def tokRec (p : Place) (tag : Tag) (kind : Nat) (q : Pos) (t : Tok) : TokRec :=
  { place := p, tag := tag, kind := kind, e := t.e, s := t.s, wide := t.wide, opnd := posNo q, act := 0, pay := t.payload,
    aux0 := 0#64, aux1 := 0#64 }
def recOfWords (w : List W64) : TokRec :=
  let p := word w 0
  let h := word w 1
  { place := { x := (p.extractLsb' 56 8).toNat, y := (p.extractLsb' 48 8).toNat, pe := (p.extractLsb' 43 5).toNat,
               slot := (p.extractLsb' 40 3).toNat },
    tag := { thr := p.extractLsb' 24 16, wave := p.extractLsb' 0 24 }, kind := (h.extractLsb' 60 3).toNat, e := h.getLsbD 59,
    s := h.getLsbD 58, wide := h.getLsbD 57, opnd := (h.extractLsb' 55 2).toNat, act := (h.extractLsb' 53 2).toNat,
    pay := word w 5 ++ word w 4 ++ word w 3 ++ word w 2, aux0 := word w 6, aux1 := word w 7 }
def tokOfRec (r : TokRec) : Tok := { payload := r.pay, wide := r.wide, tag := r.tag, e := r.e, s := r.s, deps := [] }

/-! ### Writing and reading spill records -/

/-- The address of an instance's r-th spill record. -/
def spillAddr (c : Ctx) (i : Inst) (r : Nat) : Nat := c.spool + i.spillB + 64 * r
/-- The arrival rank of a set's token at a position: the older sets of its slot and tag that hold one there. -/
def spillRank (i : Inst) (k : Nat) (x : PSet) (q : Pos) : Nat :=
  ((i.sets.take k).filter fun y => y.mine x.place x.tag && (y.get q).isSome).length
/-- The records of the sets that `j` has in the spill area and `i` has not: KIND 0, ACT 0, AUX zero (R367). -/
def spillWrites (c : Ctx) (i j : Inst) : List (Nat × List Byte) :=
  (List.range j.sets.length).flatMap fun k =>
    match j.sets[k]? with
    | none => []
    | some x =>
      if !x.spilled || i.sets.contains x then []
      else [Pos.a, .b, .c].filterMap fun q =>
        match x.get q, x.recs.find? fun r => decide (r.1 = posNo q) with
        | some t, some r => some (spillAddr c j r.2, (recWords (tokRec x.place x.tag 0 q t) (spillRank j k x q)).flatMap dwBytes)
        | _, _ => none
/-- Writes that can all be performed now. -/
def writeAllBy (who : Nat → Option Nat) (c : Ctx) : List (Nat × List Byte) → State → State
  | [], s => s
  | (a, bs) :: t, s => writeAllBy who c t (sysWrite (who a) c a bs s).2
def writeAll (by_ : Option Nat) (c : Ctx) (l : List (Nat × List Byte)) (s : State) : State := writeAllBy (fun _ => by_) c l s

/-- An instance becomes `j` once what it spills has been written; an access that cannot be made ends it (Table 17.8; assumption 36). -/
def withSpill (by_ : Option Nat) (i j : Inst) (k : State → State) (s : State) : State :=
  match findCtx s i.ctx with
  | none => k s
  | some c =>
    let ws := spillWrites c i j
    let r := sysReady by_ c (ws.map fun w => (needWr, w.1, w.2.length)) 0 s
    match r.1 with
    | .wait => r.2.2
    | .noPage _ | .noPerm _ => endSpoiled i 0x07#8 0 r.2.2
    | .ok _ => k (writeAll by_ c ws r.2.2)

/-- A token with what its record holds. -/
def tokRead (t : Tok) (bs : List (Byte × Bool)) : Tok :=
  let r := recOfWords (dwords bs)
  { t with payload := r.pay, wide := r.wide, e := r.e, s := r.s }
def posOfNo (n : Nat) : Pos := if n = 0 then .a else if n = 1 then .b else .c
/-- The tokens of a spilled set as its records give them, and whether one reads as poison. -/
def readRecs (by_ : Option Nat) (c : Ctx) (i : Inst) : List (Nat × Nat) → PSet → State → PSet × Bool × State
  | [], x, s => (x, false, s)
  | r :: t, x, s =>
    let q := sysRead by_ c (spillAddr c i r.2) 64 s
    match q.1, x.get (posOfNo r.1) with
    | .ok bs, some k =>
      let z := readRecs by_ c i t (x.put (posOfNo r.1) (tokRead k bs)) q.2
      (z.1, z.2.1 || bs.any (·.2), z.2.2)
    | _, _ => readRecs by_ c i t x q.2

/-! ### Arrival and refill -/

/-- TOKEN_ARRIVAL. -/
def arrive (n : Nat) (f : Flight) (i : Inst) (s : State) : State :=
  let t := f.tok.tag
  let f := landed s n f
  let by_ := some (instCl i f.dst)
  let put (j : Inst) (s : State) : State := modInst j.iid (fun k => { k with sets := j.sets }) (received n f s)
  match whereTo i f.dst t f.opnd with
  | .joins k => put { i with sets := i.sets.modify k fun x => x.put f.opnd f.tok } s
  | .refill => s
  | .opens =>
    match makeRoom i f.dst t 1 with
    | .ok j => withSpill by_ i j (put { j with sets := j.sets ++ [newSet f] }) s
    | .itself => let j := { i with sets := i.sets ++ [spillOf i (newSet f)] }; withSpill by_ i j (put j) s
    | .full => discardTok f (received n f s)
    | .wait => s
def execTokenArrival (n : Nat) (s : State) : Out :=
  match landing s n with
  | none => .next s
  | some f =>
    match findInst s f.inst with
    | none => .next { s with flights := s.flights.eraseIdx n }
    | some i => .next (arrive n f i s)

/-- The k-th set, whose records have been freed, becomes resident with what they held; a victim has been spilled for it in `j`. -/
def refillAt (i j : Inst) (k : Nat) (x : PSet) (s : State) : State :=
  match findCtx s i.ctx with
  | none => s
  | some c =>
    let by_ := some (instCl i x.place)
    let r := sysReady by_ c (x.recs.map fun r => (needRd, spillAddr c i r.2, 64)) 0 s
    match r.1 with
    | .wait => r.2.2
    | .noPage _ | .noPerm _ => endSpoiled i 0x07#8 0 r.2.2
    | .ok _ =>
      let z := readRecs by_ c i x.recs x r.2.2
      if z.2.1 then endSpoiled i 0x04#8 0 z.2.2
      else
        let j := { j with sets := j.sets.set k { z.1 with spilled := false, recs := [] } }
        withSpill by_ i j (modInst i.iid fun m => { m with sets := j.sets }) z.2.2

/-- REFILL: the oldest spilled set of a slot and tag becomes resident, for a token that must join or follow it (R177), or
because it is complete and the oldest (assumption 26). -/
def refill (i : Inst) (p : Place) (t : Tag) (s : State) : State :=
  let idx := (List.range i.sets.length).filter fun k => (i.sets[k]?).any fun x => x.mine p t
  let w := waitsRefill s i p t
  match idx.find? fun k => (i.sets[k]?).any (·.spilled) with
  | none => s
  | some k =>
    match i.sets[k]? with
    | none => s
    | some x =>
      if w.isNone && !(decide (idx.head? = some k) && setComplete i x) then s
      else
        match makeRoom { i with sets := i.sets.set k { x with recs := [] } } p t 0, w with
        | .ok j, _ => refillAt i j k x s
        | .full, some n =>
          (match s.flights[n]? with
           | some f => discardTok f (received n f s)
           | none => s)
        | _, _ => s
def execRefill (inst : Nat) (pl : Place) (tag : Tag) (s : State) : Out :=
  match findInst s inst with
  | none => .next s
  | some i => .next (if i.phase = .saved then s else refill i pl tag s)

end Sys2Proof.Machine
end

