-- ==== Sys2Proof/Machine/Sweep.lean ====
section
/-! DEFINITION. Pre-emption (R364 to R374): the sweep's drain and flush, the save block written to memory, and restore from it. -/
namespace Sys2Proof.Machine

/-! ### Drain and flush (R368) -/

/-- An operation that the drain waits for: fired, and neither pending, parked, held nor waiting to emit (R369). -/
def underWay (o : Op) : Bool :=
  match o.ph with
  | .wouNet | .wouOut | .wouPend | .release | .parked _ | .callHold | .retHold | .sync | .trap _ => false
  | _ => true
/-- Something of a node's own remains under way. -/
def nodeBusy (s : State) (i : Inst) : SweepNode → Bool
  | .cluster k => s.ops.any fun o => decide (o.inst = i.iid ∧ rowIdx i o.place = k) && underWay o
  | .engine x => s.xfers.any fun t => decide (t.inst = i.iid ∧ t.act = some x)
  | .frontEnd => !i.injected || s.xfers.any fun t => decide (t.inst = i.iid ∧ (t.ph = .port ∨ (t.ph = .finish ∧ t.act = none)))
/-- Everything that the stop does not stop has completed (R368 steps 1 and 2). -/
def drained (s : State) (i : Inst) : Bool :=
  !(s.ops.any fun o => decide (o.inst = i.iid) && underWay o) && !nodeBusy s i .frontEnd &&
  !(s.xfers.any fun t => decide (t.inst = i.iid) && t.act.isSome)

/-- A marker overtakes no token that its node sent before it. -/
def markerMay (s : State) (i : Inst) (n : SweepNode) (k : Nat) : Bool :=
  drained s i && !(s.flights.any fun f => decide (f.inst = i.iid ∧ f.node = n ∧ rowIdx i f.dst = k))
/-- MARKER: a node's marker reaches a cluster. -/
def execMarker (inst : Nat) (node : SweepNode) (k : Nat) (s : State) : Out :=
  match findInst s inst with
  | none => .next s
  | some i =>
    match i.phase with
    | .sweeping ns ms =>
      .next (if ns.contains node && decide (k < i.w * i.h) && !ms.contains (node, k) && markerMay s i node k then
        modInst inst (fun j => { j with phase := .sweeping ns (ms ++ [(node, k)]) }) s else s)
    | _ => .next s
/-- Every cluster has been flushed. -/
def flushed (s : State) (i : Inst) : Bool :=
  match i.phase with
  | .sweeping ns ms =>
    (ns.all fun n => (List.range (i.w * i.h)).all fun k => ms.contains (n, k)) && drained s i &&
    !(s.flights.any fun f => decide (f.inst = i.iid))
  | _ => false

/-! ### The save block (Tables 17.1 to 17.7) -/

/-- Table 17.3. -/
def headerWords (s : State) (c : Ctx) (i : Inst) (nx : Nat) : List W64 :=
  [i.num ++ i.epoch ++ BitVec.ofNat 8 i.w ++ BitVec.ofNat 8 i.h ++ 0#3 ++ i.flags, i.sinkCnt,
   i.errCnt ++ 0#31 ++ BitVec.ofBool i.stopped, if i.errCnt = 0#32 then 0#64 else placeWord i.errPlace i.errTag,
   BitVec.ofNat 64 (c.spool + i.spillB), 0#48 ++ (if i.errCnt = 0#32 then 0#8 else i.errCode) ++ 0#8, BitVec.ofNat 64 nx,
   BitVec.ofNat 64 s.time]

def thrCode : ThrState → BitVec 2
  | .free => 0#2
  | .live => 1#2
  | .caller => 2#2
  | .ended => 3#2
/-- Table 17.5. -/
def threadWords (t : Thread) : List W64 :=
  let l := t.last.getD (0#10, 0#10)
  let f : Frame := t.frame.getD { caller := 0#16, crec := Place.zero, rwave := 0#24, s := false }
  [thrCode t.st ++ BitVec.ofBool t.last.isSome ++ BitVec.ofBool t.frame.isSome ++ BitVec.ofBool f.s ++ 0#3 ++ t.cw ++ 0#2 ++ l.1 ++
     l.2 ++ 0#10,
   f.caller ++ f.rwave ++ BitVec.ofNat 5 f.crec.x ++ BitVec.ofNat 4 f.crec.y ++ BitVec.ofNat 5 f.crec.pe ++
     BitVec.ofNat 3 f.crec.slot ++ 0#7]

/-- Records of a resident set. -/
def setRecs (x : PSet) : List TokRec :=
  [Pos.a, .b, .c].filterMap fun q => (x.get q).map (tokRec x.place x.tag 0 q)

/-- KIND of an operation's records (R369). -/
def opKind (o : Op) : Nat :=
  match o.ph with
  | .callHold | .retHold => 0
  | .sync | .trap _ => 4
  | .parked _ => if isTileMem o.ins || isStream o.ins then 3 else if isOrdered o.ins then 1 else 2
  | _ => 1
def opAux0 (o : Op) : W64 :=
  match o.ph with
  | .parked f => if isStream o.ins then streamElem o else f.setWidth 64
  | .trap f => f.setWidth 64
  | _ => 0#64
/-- AUX1 of an operand-a record. -/
def opAux1 (o : Op) : W64 :=
  match o.ph with
  | .sync => ((o.act.map (·.2))).getD 0#64
  | .trap _ => (o.todo.map (·.2)).getD 0#64
  | .callHold | .retHold => 0#64
  | _ => (o.cap.head?.map (·.2)).getD 0#64
def opTok (o : Op) : Pos → Tok
  | .a => o.a
  | .b => o.b
  | .c => o.c
/-- Records of an operation, in operand order: of the operands that tokens feed, and of operand a where the instruction captured an entry,
which that record holds (R93). -/
def opRecs (o : Op) : List TokRec :=
  ([Pos.a, .b, .c].filter fun q => tokenFed o.ins q || (decide (q = .a) && !o.cap.isEmpty)).map fun q =>
    { tokRec o.place o.tag (opKind o) q (opTok o q) with
      act := (o.todo.map (·.1)).getD 0, aux0 := opAux0 o, aux1 := if q = .a then opAux1 o else 0#64 }

/-- Records of image-relative cluster k: operations first, whose tokens arrived first. -/
def clusterRecs (s : State) (i : Inst) (k : Nat) : List TokRec :=
  ((s.ops.filter fun o => decide (o.inst = i.iid ∧ rowIdx i o.place = k)).flatMap opRecs) ++
  ((i.sets.filter fun x => !x.spilled && decide (rowIdx i x.place = k)).flatMap setRecs)
/-- Their words, each with its arrival rank. -/
def rankedWords : List TokRec → List TokRec → List W64
  | _, [] => []
  | seen, r :: t =>
    recWords r (seen.filter fun x => decide (x.place = r.place ∧ x.tag = r.tag ∧ x.opnd = r.opnd)).length ++ rankedWords (r :: seen) t

/-- Transfers that are saved, in admission order. -/
def savedXfers (s : State) (i : Inst) : List Xfer := s.xfers.filter fun x => decide (x.inst = i.iid)
/-- Table 17.6. -/
def xferWords (x : Xfer) : List W64 :=
  let st : BitVec 2 := match x.ph with
    | .parked _ => 1#2
    | .claim => 2#2
    | .again t _ => BitVec.ofNat 2 t
    | _ => 0#2
  let fid : W32 := match x.ph with
    | .parked f | .again _ f => f
    | _ => 0#32
  [x.req.extractLsb' 0 64, x.req.extractLsb' 64 64, x.req.extractLsb' 128 64, x.req.extractLsb' 192 64, placeWord x.place x.tag,
   st ++ BitVec.ofBool x.as_ ++ BitVec.ofNat 2 x.todo ++ 0#27 ++ fid, BitVec.ofNat 64 (xOffset x x.next), xCap x]

/-- SPB: one bit for each slot of the cluster that has spilled sets. -/
def spbWord (i : Inst) (k q : Nat) : W64 :=
  (List.range 64).foldl (fun w b =>
    if i.sets.any fun x => x.spilled && decide (rowIdx i x.place = k ∧ 8 * x.place.pe + x.place.slot = 64 * q + b) then w ||| (1#64 <<< b)
    else w) 0#64
def padWords (n : Nat) (l : List W64) : List W64 := (List.range n).map (word l)

/-- What is written for one cluster: offsets from the cluster block and bytes. -/
def clusterWrites (s : State) (i : Inst) (k : Nat) : List (Nat × List Byte) :=
  let x := k % i.w
  let y := k / i.w
  let cl := clusterAt (i.x0 + x) (i.y0 + y)
  let rs := clusterRecs s i k
  let words (l : List W64) : List Byte := l.flatMap dwBytes
  [(0, words ([BitVec.ofNat 8 x ++ BitVec.ofNat 8 y ++ 0#34 ++ BitVec.ofNat 14 rs.length, 0#64, 0#64, 0#64] ++
      (List.range 4).map (spbWord i k))),
   (0x100, words ((List.range 16).map fun h => accWord (accGet s cl h))),
   (0x800, words ((List.range 256).map (tdir s cl))),
   (0x1000, words ((List.range 256).flatMap fun n =>
      padWords 4 ((slotWords i { x := x, y := y, pe := n / 8, slot := n % 8 }).getD []))),
   (0x10000, words (rankedWords [] rs)),
   (0x100000, (List.range (2 ^ 20)).map (tileByte s cl)),
   (0x200000, (List.range (2 ^ 18)).flatMap fun n => bytesOfNat (assocGet 0#32 s.tiles.words (2 ^ 18 * cl + n)).toNat 4)]

/-- Everything a sweep writes: addresses and bytes. -/
def saveWrites (s : State) (c : Ctx) (i : Inst) : List (Nat × List Byte) :=
  let base := c.save + i.saveB
  let xs := savedXfers s i
  [(base, (headerWords s c i xs.length).flatMap dwBytes), (base + 0x100, ((List.range 32).map (word i.fmt)).flatMap dwBytes),
   (base + 0x10000, xs.flatMap fun x => (xferWords x).flatMap dwBytes),
   (base + 0x100000, (List.range 65536).flatMap fun t => (threadWords (getThr i (BitVec.ofNat 16 t))).flatMap dwBytes)] ++
  (List.range (i.w * i.h)).flatMap fun k => (clusterWrites s i k).map fun w => (base + 0x200000 + 0x300000 * k + w.1, w.2)

/-- Who writes an address of the save block: each cluster its own block, the front end the rest (R368). -/
def saver (c : Ctx) (i : Inst) (a : Nat) : Option Nat :=
  let b := c.save + i.saveB + 0x200000
  if a < b then none
  else
    let k := (a - b) / 0x300000
    some (clusterAt (i.x0 + k % i.w) (i.y0 + k / i.w))

/-- The children allocated to CALLs that are saved before their hand-off are FREE again: the CALL fires anew. -/
def freeCallees (s : State) (i : Inst) : Inst :=
  { i with threads := i.threads.map fun t =>
      if s.ops.any fun o => decide (o.inst = i.iid ∧ o.ph = .callHold ∧ BitVec.ofNat 16 o.n = t.thr) then { t with st := .free } else t }

def isTldAcc : Instr → Bool
  | .tldAcc _ _ => true
  | _ => false
/-- What is kept of an instance's parked operations of one kind, in record order. -/
def savedFids {α : Type} (p : Instr → Bool) (f : Op → W32 → α) (s : State) (i : Inst) : List α :=
  (List.range (i.w * i.h)).flatMap fun k => s.ops.filterMap fun o =>
    match o.ph with
    | .parked fid => if o.inst = i.iid ∧ rowIdx i o.place = k ∧ p o.ins then some (f o fid) else none
    | _ => none
/-- The instance once it has been saved: what the block holds is held nowhere else. What chunks done before the sweep raised, and met of poison, is kept
beside the block, which has no field for it, and raised when the transfer completes (R315; the model's choice; assumption 37). -/
def afterSave (s : State) (i : Inst) : Inst :=
  { i with phase := .saved, sets := i.sets.filter (·.spilled), nodes := [], xdone := [], bases := [], forced := [], probe1 := none, brkAt := none,
           errAt := 0, xpsn := (savedXfers s i).map (·.psnFrom), xfl := (savedXfers s i).map (·.fl),
           strm := savedFids isStream (fun o f => (placeWord o.place o.tag, f)) s i, told := savedFids isTldAcc (fun o f => (f, o.val.setWidth 64)) s i }
/-- Step 4: every cluster's write-backs, the block, the release of the clusters. -/
def save (i0 : Inst) (c : Ctx) (s : State) : State :=
  let l := (instCls i0).foldl leaveCl (true, s)
  if !l.1 then l.2
  else
    let i := freeCallees l.2 i0
    let ws := (saveWrites l.2 c i).filter fun w => !w.2.isEmpty
    let r := sysReadyBy (saver c i) c (ws.map fun w => (needWr, w.1, w.2.length)) 0 l.2
    match r.1 with
    | .wait => r.2.2
    | .noPage _ | .noPerm _ => endSpoiled i0 0x07#8 0 r.2.2
    | .ok _ =>
      let s := writeAllBy (saver c i) c ws r.2.2
      let s := modInst i.iid (fun _ => afterSave s i) s
      { s with ops := s.ops.filter (fun o => decide (o.inst ≠ i.iid)), xfers := s.xfers.filter (fun x => decide (x.inst ≠ i.iid)),
               fe := { s.fe with resident := s.fe.resident.map fun r => if r.active = some i.iid then { r with rect := none } else r } }
/-- SWEEP: once every cluster has been flushed. -/
def execSweep (inst : Nat) (s : State) : Out :=
  match findInst s inst with
  | none => .next s
  | some i =>
    match findCtx s i.ctx with
    | none => .next s
    | some c => .next (if flushed s i then save i c s else s)

/-! ### Reading the block back -/

/-- Several reads of doublewords: all of them, a wait, or an access that failed with its error code. -/
inductive Bulk where
  | ok (l : List (List W64))
  | wait
  | bad (code : Byte)
  deriving DecidableEq, Repr

/-- The front end reads the block (the model's choice; assumption 65). -/
def bulkRead (c : Ctx) : List (Nat × Nat) → State → Bulk × State
  | [], s => (.ok [], s)
  | (a, n) :: t, s =>
    if n = 0 then
      let q := bulkRead c t s
      (match q.1 with
       | .ok l => .ok ([] :: l)
       | z => z, q.2)
    else
      let r := sysRead none c a n s
      match r.1 with
      | .wait => (.wait, r.2)
      | .noPage _ | .noPerm _ => (.bad 0x07#8, r.2)
      | .ok bs =>
        if bs.any (·.2) then (.bad 0x04#8, r.2)
        else
          let q := bulkRead c t r.2
          (match q.1 with
           | .ok l => .ok (dwords bs :: l)
           | z => z, q.2)

def blockAt (c : Ctx) (i : Inst) (off : Nat) : Nat := c.save + i.saveB + off
def cbOff (k : Nat) : Nat := 0x200000 + 0x300000 * k

/-- Every four words. -/
def chunks (n : Nat) (l : List W64) : List (List W64) := splitEvery n (l.length / n) l

/-- A thread from its table entry; what the table does not hold stays. -/
def thrOfWords (old : Thread) (w : List W64) : Thread :=
  let a := word w 0
  let b := word w 1
  let st : ThrState := match (a.extractLsb' 62 2).toNat with
    | 0 => .free
    | 1 => .live
    | 2 => .caller
    | _ => .ended
  { old with
    st := st, cw := a.extractLsb' 32 24, last := if a.getLsbD 61 then some (a.extractLsb' 20 10, a.extractLsb' 10 10) else none,
    frame := if a.getLsbD 60 then
        some { caller := b.extractLsb' 48 16,
               crec := { x := (b.extractLsb' 19 5).toNat, y := (b.extractLsb' 15 4).toNat, pe := (b.extractLsb' 10 5).toNat,
                         slot := (b.extractLsb' 7 3).toNat },
               rwave := b.extractLsb' 24 24, s := a.getLsbD 59 }
      else none,
    acq := none, cov := [] }
def threadsOf (i : Inst) (l : List W64) : List Thread :=
  let cs := chunks 2 l
  ((List.range cs.length).zip cs).filterMap fun x =>
    if x.2 = [0#64, 0#64] then none else some (thrOfWords (getThr i (BitVec.ofNat 16 x.1)) x.2)


/-- A KIND 0 record joins the first set of its slot and tag whose position is free, or opens one (R176). -/
def joinSet (r : TokRec) : List PSet → List PSet
  | [] => [PSet.put { place := r.place, tag := r.tag, a := none, b := none, c := none, spilled := false, since := 0, recs := [] } (posOfNo r.opnd)
      (tokOfRec r)]
  | x :: t =>
    if x.mine r.place r.tag && (x.get (posOfNo r.opnd)).isNone then x.put (posOfNo r.opnd) (tokOfRec r) :: t else x :: joinSet r t
/-- Records of one request stand together in operand order. -/
def groupRecs : List TokRec → List (List TokRec)
  | [] => []
  | r :: t =>
    match groupRecs t with
    | [] => [[r]]
    | [] :: gs => [r] :: gs
    | (q :: g) :: gs =>
      if r.place = q.place ∧ r.tag = q.tag ∧ r.kind = q.kind ∧ r.aux0 = q.aux0 ∧ r.opnd < q.opnd then (r :: q :: g) :: gs
      else [r] :: (q :: g) :: gs

/-! ### Delivering the records (R371 step 5, R372) -/

/-- An ILLFMT of the entry captured at firing (R88). -/
def capBad (i : Instr) (e : W64) : Option Nat :=
  match i with
  | .amo fn r | .red fn r => if amoFloat fn && !amoSlotOk (sizeBytes r.size) e then some r.fs.toNat else none
  | .xred r => if xredSlotOk e then none else some r.fs.toNat
  | .xrd r => if xrdSlotOk e then none else some r.fs.toNat
  | _ => none
/-- The slot that a request captured, if any. -/
def capSlot (s : State) (i : Instr) : Option Nat :=
  match i with
  | .amo fn r | .red fn r => if amoFloat fn then some r.fs.toNat else none
  | .xred r | .xrd r => some r.fs.toNat
  | .xacc r => some r.fs.toNat
  | .sstrm fs _ => some fs.toNat
  | .tld h _ | .tst h _ => some (teFMT (tdir s (firingCl s) (firingSel s h)))
  | _ => none
/-- The tile or accumulator that a parked tile access holds: a reader is counted again. `old` is the descriptor that a TLD.ACC found. -/
def restoreTile (id : Nat) (i : Instr) (old : W64) (s : State) : State :=
  let cl := firingCl s
  let put (h : Nat) (e : W64) (old : W256) (s : State) : State :=
    modOp id (fun o => { o with act := some (h, e), val := old, n := h }) s
  match i with
  | .tld h _ => put (firingSel s h) (tdir s cl (firingSel s h)) 0#256 s
  | .tst h _ => put (firingSel s h) (tdir s cl (firingSel s h)) 0#256 (addReader cl (firingSel s h) 1 s)
  | .tldAcc h _ =>
    let a := accGet s cl h.toNat
    put h.toNat (accWord a) (old.setWidth 256) s
  | .tstAcc h _ =>
    let a := accGet s cl h.toNat
    put h.toNat (accWord a) 0#256 (accPut cl h.toNat { a with readers := a.readers + 1 } s)
  | _ => s

/-- FID of a request: a stream's is the first that was kept for its place (assumption 37). -/
def recFid (i : Inst) (r : TokRec) (ins : Instr) : W32 :=
  if isStream ins then ((i.strm.find? fun x => decide (x.1 = placeWord r.place r.tag)).map (·.2)).getD 0#32 else r.aux0.setWidth 32
/-- One FID kept for a stream has been given out. -/
def dropFid (iid : Nat) (ins : Instr) (w : W64) (f : W32) (s : State) : State :=
  if isStream ins then modInst iid (fun i => { i with strm := i.strm.erase (w, f) }) s else s

/-- What a recorded action says: FID, operation or transfer, action, reply. -/
abbrev Todo := W32 × Nat × Nat × W64

/-- One request of a cluster's records, with its recorded action. -/
def restoreOp (iid : Nat) (z : List Todo × State) (g : List TokRec) : List Todo × State :=
  let s := z.2
  match findInst s iid, g with
  | some i, r :: _ =>
    (match slotInstr i r.place with
     | none => z
     | some ins =>
       let at_ (n : Nat) : Option TokRec := g.find? fun x => decide (x.opnd = n)
       let aux1 := ((at_ 0).map (·.aux1)).getD 0#64
       let e := if (capSlot s ins).isSome then aux1 else fmtOf s iid (fsOf ins).toNat
       let tok (q : Pos) : Tok := operandTok e ins r.tag q ((at_ (posNo q)).map tokOfRec)
       let f : Firing := { inst := iid, place := r.place, tag := r.tag, a := tok .a, b := tok .b, c := tok .c }
       let fid := recFid i r ins
       let s := dropFid iid ins (placeWord r.place r.tag) fid { s with firing := f }
       let cap := ((capSlot s ins).map fun k => (k, aux1)).toList
       let ph : Phase := match r.kind, ins with
         | 1, _ => if fid = 0#32 then .wouPend else .parked fid
         | 4, .ftsync _ _ => .sync
         | 4, _ => .trap fid
         | _, _ => .parked fid
       let n := newOp ins ph (if isOrdered ins then homeCl i r.tag.thr else instCl i r.place) cap s
       let err := (firstErr f).orElse fun _ => ((capSlot s ins).bind fun _ => capBad ins aux1).map errIllfmt
       let s := modOp n.1 (fun o => { o with
         err := if r.kind = 1 then err else none,
         act := match ins with
           | .ftsync fs _ => some (fs.toNat, aux1)
           | .sstrm _ _ => some (0, 0#64)
           | _ => none,
         n := match ins with
           | .sstrm _ _ => r.aux0.toNat
           | _ => 0 }) n.2
       (z.1 ++ (if r.act = 0 then [] else [(fid, n.1, r.act, aux1)]),
        restoreTile n.1 ins (((i.told.find? fun x => decide (x.1 = fid)).map (·.2)).getD 0#64) s))
  | _, _ => z

/-- One saved transfer, admitted again, or waiting to be while the table is full; one that holds a claim on a tile it reads is a reader of it. -/
def restoreX (iid : Nat) (z : List Todo × State) (w : List W64 × Option Nat × BitVec 5) : List Todo × State :=
  let s := z.2
  let r := recOfWords [word w.1 4]
  match findInst s iid with
  | none => z
  | some i =>
    match slotInstr i r.place with
    | none => z
    | some ins =>
      let req : W256 := word w.1 3 ++ word w.1 2 ++ word w.1 1 ++ word w.1 0
      let st := ((word w.1 5).extractLsb' 62 2).toNat
      let fid : W32 := (word w.1 5).setWidth 32
      let act := ((word w.1 5).extractLsb' 59 2).toNat
      let sel := xSel s iid req
      let x : Xfer :=
        { id := s.nextId, inst := iid, ctx := i.ctx, place := r.place, tag := r.tag, ins := ins, req := req,
          as_ := (word w.1 5).getLsbD 61, deps := [],
          cap := match ins with
            | .xacc q => [(q.fs.toNat, word w.1 7)]
            | _ => [],
          cl := homeCl i r.tag.thr, ph := if 1024 ≤ (xTable s i.ctx).length then .again st fid else tablePhase st fid, arr := s.nextId,
          chain := (getThr i r.tag.thr).chain, seqNo := s.nextId, rd := [], wr := [], hsel := sel,
          entry := tdir s (xTileCl s iid req) sel, next := 0, idx := [], els := none, psnFrom := w.2.1, err := none, fl := w.2.2,
          pins := [], act := none, todo := 0, replay := 0, ahead := [] }
      let ft := footOf ins req (xC x) x.entry
      let x := { x with rd := ft.1, wr := ft.2,
                        next := ((List.range (xChunks x + 1)).find? fun j => decide (xOffset x j = (word w.1 6).toNat)).getD 0 }
      let reads := match ins with
        | .xtile _ => xOut req && decide (st ≠ 2)
        | _ => false
      let s := { s with nextId := s.nextId + 1, xfers := s.xfers ++ [x] }
      (z.1 ++ (if act = 0 then [] else [(fid, x.id, act, 0#64)]),
       if reads then addReader (xTileCl s iid req) sel 1 s else s)

/-- Actions in FID order, the oldest entry first: FIDs wrap, so the order begins at the one the context gives next (R355, R372). -/
def insTodo (next : W32) (x : Todo) : List Todo → List Todo
  | [] => [x]
  | y :: t => if fidDist next x.1 < fidDist next y.1 then x :: y :: t else y :: insTodo next x t
def actTodo (iid : Nat) (s : State) (t : Todo) : State :=
  let va := (findInst s iid).bind fun i => (i.failed.find? fun f => decide (f.1 = t.1)).map (·.2)
  match findOp s t.2.1 with
  | some o => actOn o t.1 t.2.2.1 (va.getD (((accessOf o).head?.map (·.1)).getD 0)) t.2.2.2 s
  | none =>
    match findX s t.2.1 with
    | some x => actOnX x t.2.2.1 s
    | none => s

/-! ### RESTORE (R371) -/

/-- One cluster's tile unit and records: descriptors, directory, slots, held tokens, tile store, accumulator store. -/
structure SavedCl where
  accs  : List W64
  dir   : List W64
  slots : List W64
  recs  : List W64
  tile  : List W64
  acc   : List W64
  deriving DecidableEq, Repr

def savedClOf : List (List W64) → List SavedCl
  | a :: d :: s :: r :: t :: c :: l => { accs := a, dir := d, slots := s, recs := r, tile := t, acc := c } :: savedClOf l
  | _ => []
/-- Slot records of image-relative cluster k. -/
def savedSlots (i : Inst) (k : Nat) (x : SavedCl) : List (Place × List W64) :=
  let cs := chunks 4 x.slots
  (List.range cs.length).filterMap fun n =>
    let w := cs.getD n []
    if w.all fun v => decide (v = 0#64) then none
    else
      let raw := rawOfWords [word w 0]
      some ({ x := k % i.w, y := k / i.w, pe := n / 8, slot := n % 8 }, w.take (recordLen raw.xi raw.nt.toNat))
def accOfWord (w : W64) : AccD :=
  { st := w.extractLsb' 62 2, rows := w.extractLsb' 49 7, cols := w.extractLsb' 42 7,
    cur := { thr := w.extractLsb' 24 16, wave := w.extractLsb' 0 24 }, readers := 0 }
/-- Step 1 for one cluster. -/
def restoreCl (cl : Nat) (x : SavedCl) (s : State) : State :=
  let s := freshTiles cl x.dir s
  let s := (List.range 16).foldl (fun s h => accPut cl h (accOfWord (word x.accs h)) s) s
  let s := setTileBytes cl 0 (x.tile.flatMap dwBytes) s
  let ws := x.acc.flatMap fun w => [w.extractLsb' 0 32, w.extractLsb' 32 32]
  { s with tiles := { s.tiles with words := (List.range ws.length).foldl (fun l n =>
      if ws.getD n 0#32 = 0#32 then l else assocSet l (2 ^ 18 * cl + n) (ws.getD n 0#32)) s.tiles.words } }

/-- The instance at its new place (steps 2, 3 and 6). -/
def restoredInst (i : Inst) (o : Nat × Nat) (h fmt thr : List W64) (cs : List SavedCl) : Inst :=
  let p := recOfWords [word h 3]
  { i with
    x0 := o.1, y0 := o.2, epoch := i.epoch + 1#8, phase := .running, moving := false, stopped := (word h 2).getLsbD 0,
    fmt := fmt, flags := (word h 0).extractLsb' 0 5, sinkCnt := word h 1, errCnt := (word h 2).extractLsb' 32 32,
    errCode := (word h 5).extractLsb' 8 8, errPlace := p.place, errTag := p.tag, threads := threadsOf i thr,
    slots := (List.range cs.length).flatMap fun k =>
      match cs[k]? with
      | some x => savedSlots i k x
      | none => [] }
/-- A restored set takes an entry, for which a victim may be spilled, or is spilled itself: also when an older one of its slot and
tag has been (R176). `k` sets of the list stand in the spill area already. Returns what is discarded too (R178). -/
def seatSet (k : Nat) (z : Inst × List (Place × Tag)) (x : PSet) : Inst × List (Place × Tag) :=
  let i := z.1
  let lost := (i, z.2 ++ List.replicate x.size (x.place, x.tag))
  let late := (i.sets.drop k).any fun y => y.spilled && y.mine x.place x.tag
  match (if late then (if x.size ≤ spillFree i then .itself else .full) else makeRoom i x.place x.tag x.size) with
  | .ok j => ({ j with sets := j.sets ++ [x] }, z.2)
  | .itself => ({ i with sets := i.sets ++ [spillOf i x] }, z.2)
  | .full | .wait => lost
/-- The matching stores refilled by the KIND 0 records, before the sets that are in the spill area still. -/
def seatAll (i : Inst) (l : List PSet) : Inst × List (Place × Tag) :=
  let k := i.sets.length
  let z := l.foldl (seatSet k) (i, [])
  ({ z.1 with sets := z.1.sets.drop k ++ z.1.sets.take k }, z.2)

/-- Steps 1 to 6 with everything read. -/
def rebuild (i0 : Inst) (o : Nat × Nat) (h fmt xs thr : List W64) (cs : List SavedCl) (s : State) : State :=
  let recs := cs.flatMap fun x => (chunks 8 x.recs).map recOfWords
  let sets := (recs.filter fun r => decide (r.kind = 0)).foldl (fun l r => joinSet r l) []
  let z := seatAll (restoredInst i0 o h fmt thr cs) sets
  let i := { z.1 with xpsn := [], xfl := [] }
  withSpill none i0 i (fun s =>
    let cls := instCls i
    let s := dropHolding cls s
    let s := (List.range cls.length).foldl (fun s k =>
      match cs[k]? with
      | some x => acquireL1 (cls.getD k 0) (restoreCl (cls.getD k 0) x s)
      | none => s) s
    let s := modInst i.iid (fun _ => i) s
    let s := z.2.foldl (fun s l => recordError i.iid 0x0B#8 l.2 l.1 s) s
    let xw := chunks 8 xs
    let zx := ((List.range xw.length).map fun k => (xw.getD k [], (i0.xpsn[k]?).getD none, i0.xfl.getD k 0#5)).foldl (restoreX i.iid) ([], s)
    let gs := groupRecs (recs.filter fun r => decide (r.kind ≠ 0))
    let late (g : List TokRec) : Bool := match g with
      | r :: _ => decide (r.kind = 4)
      | [] => false
    let z := (gs.filter (fun g => !late g) ++ gs.filter late).foldl (restoreOp i.iid) zx
    let s := (z.1.foldl (fun l t => insTodo (((findCtx s i.ctx).map (·.nextFid)).getD 1#32) t l) []).foldl (actTodo i.iid) z.2
    let s := modInst i.iid (fun j => { j with failed := [], strm := [], told := [] }) s
    let follow (r : Resident) : Resident := if r.active = some i.iid then { r with rect := some (o.1, o.2, i.w, i.h) } else r
    settleDeficit { s with fe := { s.fe with resident := s.fe.resident.map follow } }) s

/-- Reading the whole block, then placing. A block that cannot be read ends the instance (Table 17.8). -/
def restoreAt (c : Ctx) (i : Inst) (o : Nat × Nat) (s : State) : State :=
  let n := i.w * i.h
  let r := bulkRead c ([(blockAt c i 0, 64), (blockAt c i 0x100, 256), (blockAt c i 0x100000, 2 ^ 20)] ++
    (List.range n).map fun k => (blockAt c i (cbOff k), 64)) s
  match r.1 with
  | .wait => r.2
  | .bad e => endSpoiled i e 0 r.2
  | .ok l =>
    let h := l.getD 0 []
    let q := bulkRead c ((blockAt c i 0x10000, 64 * ((word h 6).extractLsb' 0 11).toNat) ::
      (List.range n).flatMap fun k =>
        let b := blockAt c i (cbOff k)
        [(b + 0x100, 128), (b + 0x800, 2048), (b + 0x1000, 8192),
         (b + 0x10000, 64 * ((word (l.getD (3 + k) []) 0).extractLsb' 0 14).toNat), (b + 0x100000, 2 ^ 20), (b + 0x200000, 2 ^ 20)]) r.2
    match q.1 with
    | .wait => q.2
    | .bad e => endSpoiled i e 0 q.2
    | .ok m => rebuild i o h (l.getD 1 []) (m.getD 0 []) (l.getD 2 []) (savedClOf (m.drop 1)) q.2

/-- A saved instance goes ahead of new launches of its class, oldest first, classes from 7 down; class 0 under R339. A move
is restored at once (R373). -/
def restoreTurn (s : State) (i : Inst) (cs : List Cand) : Bool :=
  i.moving ||
  (!(s.insts.any (·.moving)) && !(s.insts.any fun j => waitsRestore j && decide (i.cls < j.cls ∨ (i.cls = j.cls ∧ j.order < i.order))) &&
   (cs.all fun x => decide (x.att.cls ≤ i.cls)) && (decide (1 ≤ i.cls) || s.pwr.padm))
/-- The first free rectangle when it is its turn; while there is none, an instance above class 0 makes paddle work leave (R339). -/
def restore (i : Inst) (s : State) : State :=
  let k := cands s
  match k.1, findCtx s i.ctx with
  | some cs, some c =>
    match firstFree (takenCls k.2 (fun _ => true) (fun _ => true)) i.w i.h with
    | some o => if restoreTurn k.2 i cs then restoreAt c i o k.2 else k.2
    | none => if 1 ≤ i.cls then paddlesOut k.2 else k.2
  | _, _ => k.2
def execRestore (inst : Nat) (s : State) : Out :=
  match findInst s inst with
  | none => .next s
  | some i => .next (if waitsRestore i then restore i s else s)

/-- The report of a saved instance that INSTEND ends (R183): from the header and the thread table of its save block. -/
def savedReport (c : Ctx) (i : Inst) (s : State) : Option (List W64) × State :=
  let r := bulkRead c [(blockAt c i 0, 64), (blockAt c i 0x100000, 2 ^ 20)] s
  match r.1 with
  | .ok l =>
    let h := l.getD 0 []
    let p := recOfWords [word h 3]
    let j := { i with errCnt := (word h 2).extractLsb' 32 32, errCode := (word h 5).extractLsb' 8 8, errPlace := p.place, errTag := p.tag }
    (some (reportWords j (liveThreads (threadsOf i (l.getD 1 []))) [] 0), r.2)
  | .wait => (none, r.2)
  | .bad e =>
    let j := spoiled i e
    (some (reportWords j (liveThreads j.threads) [] 0), r.2)

end Sys2Proof.Machine
end

