-- ==== Sys2Proof/Machine/Queues.lean ====
section
/-! DEFINITION. User queues (R323 to R327), doorbells and triggers (R336, R386), and the front end's commands (R335). -/
namespace Sys2Proof.Machine

/-! ### The order of the host's stores (R392) -/

def isHostAcc : Instr → Bool
  | .hostAccess _ => true
  | _ => false
/-- An 8-byte store of the host at an offset of REGBAR takes its place behind the host's accesses that wait; with none it is performed
(assumption 64). -/
def hostOrder (off : Nat) (val : W64) (body : State → State) (s : State) : State :=
  if s.inbox.any isHostAcc then
    { s with
      nextId := s.nextId + 1,
      inbox := s.inbox ++ [.hostAccess { pa := mmioBase + off, len := 8, wr := some (bytesOfNat val.toNat 8), caches := false, excl := false,
                                         psn := false, no := s.nextId }] }
  else body s

/-! ### Consuming packets (R325, R333) -/

def findQ (s : State) (q : Nat) : Option Queue := s.fe.queues.find? fun x => decide (x.q = q)
def modQ (q : Nat) (f : Queue → Queue) (s : State) : State :=
  { s with fe := { s.fe with queues := s.fe.queues.map fun x => if x.q = q then f x else x } }
def slotAt (x : Queue) (r : W64) : Nat := x.ring + 64 * (r.toNat % 2 ^ x.logn)

/-- The queue halts; a FRONT entry tells of the first failure after each kick (Table 15.11). -/
def haltQ (x : Queue) (acc : BitVec 4) (va : Nat) (s : State) : State :=
  modQ x.q (fun y => { y with halted := true, told := true })
    (if x.told then s else frontEntry x.ctx none 0#32 acc x.q 1 va s)

/-- The packet is taken: header zeroed, RIDX raised, the launch queued. -/
def takePacket (c : Ctx) (x : Queue) (pkt : List W64) (s : State) : State :=
  let k : W64 := if pkWide (pkHdr pkt) then 2#64 else 1#64
  let r := sysReady none c [(needWr, slotAt x x.ridx, 8), (needWr, x.desc + 8, 8)] 0 s
  match r.1 with
  | .wait => r.2.2
  | .noPage a | .noPerm a => haltQ x 1#4 a r.2.2
  | .ok _ =>
    let w := sysWrite none c (slotAt x x.ridx) (dwBytes 0#64) r.2.2
    let s := (sysWrite none c (x.desc + 8) (dwBytes (x.ridx + k)) w.2).2
    let l : Launch := { id := s.nextId, q := x.q, ctx := x.ctx, pkt := pkt,
                        waits := [(word pkt 4).toNat, (word pkt 5).toNat].filter (fun a => decide (a ≠ 0)), since := none }
    modQ x.q (fun y => { y with ridx := x.ridx + k })
      { s with nextId := s.nextId + 1, fe := { s.fe with launches := s.fe.launches ++ [l] } }

/-- Bytes of a queue's ring handed on as doublewords; a failed or poisoned read halts the queue. -/
def ringRead (c : Ctx) (x : Queue) (va len : Nat) (k : List W64 → State → State) (s : State) : State :=
  let r := sysRead none c va len s
  match r.1 with
  | .wait => r.2
  | .noPage a | .noPerm a => haltQ x 0#4 a r.2
  | .ok bs =>
    match sysPoison va bs with
    | some a => haltQ x 0#4 a r.2
    | none => k (dwords bs) r.2
/-- The header of the slot being consumed is read; once it is published, so are the rest of the slot and, of a wide packet, the next slot. Else it is read
again at the next kick or event of the queue (R325). -/
def consume (c : Ctx) (x : Queue) (s : State) : State :=
  ringRead c x (slotAt x x.ridx) 8 (fun h s =>
    if pkType h = 0 then s
    else ringRead c x (slotAt x x.ridx + 8) 56 (fun bs s =>
      if !pkWide (word h 0) then takePacket c x (h ++ bs) s
      else ringRead c x (slotAt x (x.ridx + 1#64)) 64 (fun cs s => takePacket c x (h ++ bs ++ cs) s) s) s) s
/-- PACKET_CONSUME. -/
def execPacketConsume (q : Nat) (s : State) : Out :=
  match findQ s q with
  | none => .next s
  | some x =>
    match findCtx s x.ctx with
    | none => .next s
    | some c => .next (if x.halted then s else consume c x s)

/-- A kick: a queue that waits, or was halted, reads its slot again; the value is not examined (R325). -/
def kickQ (q : Nat) (s : State) : State := modQ q (fun x => { x with halted := false, told := false }) s
/-- KICK by the host: a store of other than 8 bytes is ignored. -/
def execKick (q : Nat) (bytes : Nat) (s : State) : Out :=
  .next (if bytes = 8 ∧ q < 16384 then hostOrder (0x100000 + 8 * q) 0#64 (kickQ q) s else s)

/-! ### Wait signals (R327) -/

/-- The signals not yet seen at most 0. -/
def readWaits (c : Ctx) (l : Launch) : List Nat → State → State
  | [], s => s
  | a :: t, s =>
    let r := sysRead none c a 8 s
    match r.1 with
    | .wait => readWaits c l t r.2
    | .ok bs =>
      if bs.any (·.2) then endLaunch l (noRun 3 8 0 a) 0#32 r.2
      else
        let s := r.2
        let s := if (dwAt bs 0).toInt ≤ 0 then
            { s with fe := { s.fe with launches := s.fe.launches.map fun m =>
                                if m.id = l.id then { m with waits := m.waits.filter fun b => decide (b ≠ a) } else m } }
          else s
        readWaits c l t s
    | _ => endLaunch l (noRun 3 8 0 a) 0#32 r.2
/-- SIGNAL_RECHECK of the launch at the head of its queue. -/
def execSignalRecheck (launch : Nat) (s : State) : Out :=
  match s.fe.launches.find? fun l => decide (l.id = launch) with
  | none => .next s
  | some l =>
    match findCtx s l.ctx with
    | none => .next s
    | some c => .next (if isHead s l && !pkBad l.pkt then readWaits c l l.waits s else s)

/-! ### Doorbells (R336, R386) -/

/-- A trigger store of 8 bytes. -/
def trigger (ctx : Nat) (trig : BitVec 4) (val : W64) (s : State) : State :=
  if val ≠ 0#64 then
    modRes ctx trig (fun r => { r with pending := if r.pending = 0xFFFF#16 then r.pending else r.pending + 1#16 }) s
  else
    let s := modRes ctx trig (fun r => { r with ending := true, pending := 0#16 }) s
    settleDeficit { s with fe := { s.fe with resident := s.fe.resident.filter fun r => !(isRes ctx trig r && r.active.isNone) } }
/-- What a store to a doorbell does; a device's trigger store must come from the register's own context. -/
def doorbellStore (off : Nat) (val : W64) (from_ : Option Nat) (s : State) : State :=
  if off % 8 ≠ 0 then s
  else if 0x100000 ≤ off ∧ off < 0x120000 then kickQ ((off - 0x100000) / 8) s
  else if 0x120000 ≤ off ∧ off < 0x1A0000 then
    let n := (off - 0x120000) / 8
    if from_.all fun c => decide (c = n / 16) then trigger (n / 16) (BitVec.ofNat 4 (n % 16)) val s else s
  else s
/-- The element of an operation that waits for this store's acknowledgement. -/
def doorbellEl (o : Op) (off : Nat) : Option Nat :=
  o.left.find? fun i => (o.els[i]?).any fun x => decide (x.kind = .mmio) && decide (doorbell x = some off)
/-- TRIGGER_STORE: a store to the kick or trigger region, by the host or by operation `by_` of the device. -/
def execTriggerStore (off : Nat) (val : W64) (bytes : Nat) (by_ : Option Nat) (s : State) : Out :=
  match by_ with
  | none => .next (if bytes = 8 then hostOrder off val (doorbellStore off val none) s else s)
  | some id =>
    let s := { s with inbox := s.inbox.erase (.triggerStore off val bytes by_) }
    match findOp s id with
    | none => .next s
    | some o =>
      match doorbellEl o off with
      | none => .next s
      | some i => .next (attempt id (doneEl id i [] (doorbellStore off val (some (ctxNoOf s o.inst)) s)))

/-! ### Commands (R335) -/

def feOK : Byte := 0#8
def feBADARG : Byte := 1#8
def feFULL : Byte := 2#8
def feINUSE : Byte := 3#8
def feDone (stat : Byte) (res : Nat) (s : State) : State :=
  { s with fe := { s.fe with busy := false, stat := stat, res := BitVec.ofNat 64 res } }
/-- A command is performed while it is the one in progress. -/
def feCmd (op : Byte) (body : State → State) (s : State) : Out := .next (if s.fe.busy && decide (s.fe.cmd = op) then body s else s)

/-- The lowest number below a limit that is not used: the handle or queue number that is given (R335; DESIGN CHOICE, assumption 8). -/
def lowestUnused (used : List Nat) (limit : Nat) : Option Nat :=
  ((List.range (used.length + 1)).find? fun n => !used.contains n).bind fun n => if n < limit then some n else none

/-- A context descriptor that CTXLOAD refuses by its own words (R319, R341). -/
def ctxBad (s : State) (d : List W64) : Bool :=
  decide ((word d 0).extractLsb' 0 39 ≠ 0#39 ∨ word d 7 ≠ 0#64 ∨ (word d 1).extractLsb' 0 14 ≠ 0#14 ∨ (word d 1).extractLsb' 52 12 ≠ 0#12 ∨
    (word d 2).toNat % 64 ≠ 0 ∨ (word d 3).toNat % 65536 ≠ 0 ∨ (word d 5).toNat % 65536 ≠ 0 ∨ (word d 6).toNat % 64 ≠ 0) ||
  s.fe.ctxs.any fun c => decide (c.asid = (word d 0).extractLsb' 48 16)
/-- A fault-queue descriptor that is refused (R353, R387). -/
def fqBad (f : List W64) : Bool :=
  let vec := ((word f 3).extractLsb' 16 16).toNat
  let n := ((word f 3).extractLsb' 0 8).toNat
  decide ((word f 3).extractLsb' 32 32 ≠ 0#32 ∨ (word f 3).extractLsb' 8 8 ≠ 0#8) || ((List.range 4).any fun k => decide (word f (4 + k) ≠ 0#64)) ||
  decide ((word f 2).toNat % 4096 ≠ 0 ∨ n < 4 ∨ 16 < n ∨ (2048 ≤ vec ∧ vec ≠ 0xFFFF))
/-- A context made of its descriptor. -/
def ctxOf (h : Nat) (d : List W64) : Ctx :=
  { handle := h, asid := (word d 0).extractLsb' 48 16, key := ((word d 0).extractLsb' 40 8).toNat, dbg := (word d 0).getLsbD 39,
    ptroot := (word d 1).toNat, fqdesc := (word d 2).toNat, save := (word d 3).toNat,
    saveSz := ((word d 4).extractLsb' 32 32).toNat, spoolSz := ((word d 4).extractLsb' 0 32).toNat, spool := (word d 5).toNat,
    rootRcb := word d 6, fqRing := 0, fqLog := 4, fqVec := 0xFFFF#16, nextFid := 1#32, nextInst := 1#32, fmt := defaultFormats,
    held := [], out := [], feFail := false }
/-- The fault-queue descriptor read under the new context (R353). -/
def ctxFq (c : Ctx) (s : State) : State :=
  let r := sysRead none c c.fqdesc 64 s
  match r.1 with
  | .wait => r.2
  | .ok bs =>
    let f := dwords bs
    if bs.any (·.2) || fqBad f then feDone feBADARG 0 r.2
    else
      let c := { c with fqRing := (word f 2).toNat, fqLog := ((word f 3).extractLsb' 0 8).toNat, fqVec := (word f 3).extractLsb' 16 16 }
      feDone feOK c.handle { r.2 with fe := { r.2.fe with ctxs := r.2.fe.ctxs ++ [c] } }
  | _ => feDone feBADARG 0 r.2
/-- CTXLOAD. With every handle in use FULL is the answer, whatever the fault-queue descriptor holds, and a context descriptor that reads poison is
BADARG: the spec ranks neither (DESIGN CHOICE; assumption 70). -/
def ctxload (s : State) : State :=
  let a := s.fe.cur0.toNat
  if a % 64 ≠ 0 ∨ 2 ^ 52 ≤ a then feDone feBADARG 0 s
  else
    let r := physRead a 64 s
    match r.1 with
    | .ok bs =>
      if (bs.any (·.2)) || ctxBad s (dwords bs) then feDone feBADARG 0 r.2
      else
        (match lowestUnused (s.fe.ctxs.map (·.handle)) 4096 with
         | none => feDone feFULL 0 r.2
         | some h => ctxFq (ctxOf h (dwords bs)) r.2)
    | .wait => r.2
    | _ => feDone feBADARG 0 r.2
def execCtxload (s : State) : Out := feCmd 1#8 ctxload s

/-- Its unwritten fault entries go with it; cached translations stay until a SHOOT (R348). -/
def ctxdrop (s : State) : State :=
  match findCtx s s.fe.cur0.toNat with
  | none => feDone feBADARG 0 s
  | some c =>
    if (s.fe.queues.any fun q => decide (q.ctx = c.handle)) || (s.insts.any fun i => decide (i.ctx = c.handle)) ||
        s.fe.resident.any fun r => decide (r.ctx = c.handle) then feDone feINUSE 0 s
    else feDone feOK 0 { s with fe := { s.fe with ctxs := s.fe.ctxs.filter fun x => decide (x.handle ≠ c.handle) } }
def execCtxdrop (s : State) : Out := feCmd 2#8 ctxdrop s

def qdescBad (d : List W64) : Bool :=
  let n := ((word d 3).extractLsb' 0 8).toNat
  decide ((word d 3).extractLsb' 8 56 ≠ 0#56 ∨ (word d 2).toNat % 4096 ≠ 0 ∨ n < 4 ∨ 20 < n) ||
  (List.range 4).any fun k => decide (word d (4 + k) ≠ 0#64)
/-- QMAP. A queue descriptor that is not aligned, cannot be read or breaks Table 15.3 is BADARG, for which the spec names no answer (DESIGN CHOICE;
assumption 70). -/
def qmap (s : State) : State :=
  match findCtx s s.fe.cur1.toNat with
  | none => feDone feBADARG 0 s
  | some c =>
    let a := s.fe.cur0.toNat
    if a % 64 ≠ 0 then feDone feBADARG 0 s
    else
      let r := sysRead none c a 64 s
      match r.1 with
      | .wait => r.2
      | .ok bs =>
        let d := dwords bs
        if bs.any (·.2) || qdescBad d then feDone feBADARG 0 r.2
        else
          (match lowestUnused (s.fe.queues.map (·.q)) 16384 with
           | none => feDone feFULL 0 r.2
           | some q =>
             let x : Queue := { q := q, ctx := c.handle, desc := a, ring := (word d 2).toNat,
                                logn := ((word d 3).extractLsb' 0 8).toNat, ridx := word d 1, halted := false, told := false }
             feDone feOK q { r.2 with fe := { r.2.fe with queues := r.2.fe.queues ++ [x] } })
      | _ => feDone feBADARG 0 r.2
def execQmap (s : State) : Out := feCmd 3#8 qmap s

/-- QUNMAP: queued launches end as REJECTED, PACKET; the mapping goes when none is left. FDOM of their entries is 0, also where an earlier attempt
read a well-formed path (R333; DESIGN CHOICE; assumption 70). -/
def qunmap (s : State) : State :=
  match findQ s s.fe.cur0.toNat with
  | none => feDone feBADARG 0 s
  | some x =>
    let s := (s.fe.launches.filter fun l => decide (l.q = x.q)).foldl (fun s l => endLaunch l (rejected 1) 0#32 s) s
    if s.fe.launches.any fun l => decide (l.q = x.q) then s
    else feDone feOK 0 { s with fe := { s.fe with queues := s.fe.queues.filter fun y => decide (y.q ≠ x.q) } }
def execQunmap (s : State) : Out := feCmd 4#8 qunmap s

/-- CTXFMT: each entry is checked under R75 (R319). A non-zero bit of FEARG0 outside [27:16] and [4:0] is BADARG, for which the spec names no answer
(DESIGN CHOICE; assumption 70). -/
def ctxfmt (s : State) : State :=
  let a := s.fe.cur0
  match findCtx s (a.extractLsb' 16 12).toNat with
  | none => feDone feBADARG 0 s
  | some c =>
    if a.extractLsb' 28 36 ≠ 0#36 ∨ a.extractLsb' 5 11 ≠ 0#11 ∨ fmtMalformed s.fe.cur1 then feDone feBADARG 0 s
    else feDone feOK 0 (modCtx c.handle (fun c => { c with fmt := c.fmt.set (a.extractLsb' 0 5).toNat s.fe.cur1 }) s)
def execCtxfmt (s : State) : Out := feCmd 5#8 ctxfmt s

/-- Tokens in flight that no refill has to go before. -/
def flightsOver (s : State) (i : Inst) : Bool :=
  s.flights.all fun f => decide (f.inst ≠ i.iid) || decide (whereTo i f.dst f.tok.tag f.opnd = .refill)
/-- The instance's end by INSTEND (R183): drained first when it runs, saved first when a sweep is under way. -/
def instEnding (c : Ctx) (i : Inst) (s : State) : State :=
  let heldBy (z : Bool × State) : State := if z.1 then feDone feOK 0 z.2 else z.2
  match i.phase with
  | .running => if drained s i && flightsOver s i then heldBy (endInst i 4 (reportOf s i) s) else s
  | .sweeping _ _ => s
  | .saved =>
    let r := savedReport c i s
    match r.1 with
    | none => r.2
    | some rep => heldBy (endInst i 4 rep r.2)
def instend (s : State) : State :=
  match findCtx s s.fe.cur0.toNat with
  | none => feDone feBADARG 0 s
  | some c =>
    match s.insts.find? fun i => decide (i.ctx = c.handle ∧ i.num.toNat = s.fe.cur1.toNat) with
    | none => feDone feOK 0 s
    | some i =>
      if i.ending then instEnding c i s
      else modInst i.iid (fun j => { j with ending := true, moving := false }) s
def execInstend (s : State) : Out := feCmd 6#8 instend s

/-- CLOFF: the cluster goes out of service at once for placement; the command ends when no instance holds it. -/
def cloff (s : State) : State :=
  let cl := s.fe.cur0.toNat
  if 511 < cl then feDone feBADARG 0 s
  else
    let s := dropHolding [cl] s
    let s := if s.fe.off.contains cl then s else { s with fe := { s.fe with off := s.fe.off ++ [cl] } }
    let s := releaseRect (fun r => (resCls r).contains cl) s
    match instAt s cl with
    | none => feDone feOK 0 s
    | some i => startSweep i.iid false s
def execCloff (s : State) : Out := feCmd 7#8 cloff s
def clon (s : State) : State :=
  let cl := s.fe.cur0.toNat
  if 511 < cl then feDone feBADARG 0 s
  else feDone feOK 0 { s with fe := { s.fe with off := s.fe.off.filter fun c => decide (c ≠ cl) } }
def execClon (s : State) : Out := feCmd 8#8 clon s

end Sys2Proof.Machine
end

