-- ==== Sys2Proof/Machine/HostLink.lean ====
section
/-! DEFINITION. The host link (R382, R388 to R393): host accesses, snoops of the RDCs, the host's answers, and the changes of
CXL.cache, CXL.mem and the link. -/
namespace Sys2Proof.Machine

/-- An access from outside that cannot be carried out yet waits, in arrival order. -/
def waitInbox (i : Instr) (s : State) : State := if s.inbox.contains i then s else { s with inbox := s.inbox ++ [i] }
def leaveInbox (i : Instr) (s : State) : State := { s with inbox := s.inbox.erase i }
/-- Host accesses are performed in arrival order (R392). -/
def hostTurn (a : HostAcc) (s : State) : Bool :=
  match s.inbox.find? isHostAcc with
  | none => true
  | some i => decide (i = .hostAccess a)

/-! ### Host accesses (R388, R391, R392) -/

/-- HOST bits of sectors, set aside while the host's own access is prepared. -/
def clearHost (secs : List Nat) (s : State) : State :=
  secs.foldl (fun s sec =>
    let b := dirbOf s sec
    if b.getLsbD 3 then setDirb sec (mkDirb (dirbDies b) false (decide (dirbST b = 3))) s else s) s
def setHost (secs : List (Nat × Bool)) (s : State) : State :=
  secs.foldl (fun s x => setDirb x.1 (mkDirb (dirbDies (dirbOf s x.1)) true x.2) s) s
/-- The HOST bits that a range has, with whether ST shows an exclusive holder. -/
def hostBits (s : State) (secs : List Nat) : List (Nat × Bool) :=
  (secs.filter fun sec => (dirbOf s sec).getLsbD 3).map fun sec => (sec, decide (dirbST (dirbOf s sec) = 3))

/-- A read's bytes go to the host: registered words come from their owners (R391). -/
def hostGets (a : HostAcc) (s : State) : State :=
  if a.wr.isSome then s else tellHost (.data a.pa (placeRead 0 a.pa a.len s)) s
/-- An access of device memory, performed at the homes in plaintext terms (R413: key 0). An exclusive copy, like a write,
leaves no other holder. -/
def hostDevice (a : HostAcc) (s : State) : State :=
  let secs := sectorsIn a.pa a.len
  let old := hostBits s secs
  let keeps := a.caches && hostMem s
  let p := prepareRange (a.wr.isSome || (keeps && a.excl)) 0 a.pa a.len (clearHost secs s)
  if !p.1 then waitInbox (.hostAccess a) (setHost old p.2)
  else
    let s := match a.wr with
      | some bs => placeWrite 0 a.pa (bs.take a.len) a.psn p.2
      | none => p.2
    let s := hostGets a s
    let s := if keeps then setHost (secs.map fun sec => (sec, a.excl)) s else setHost (if hostMem s then old else []) s
    leaveInbox (.hostAccess a) s
/-- An access of the host's own memory: no RDC keeps an older or newer value. -/
def hostOwn (a : HostAcc) (s : State) : State :=
  let p := (sectorsIn a.pa a.len).foldl (fun (z : Bool × State) sec => if z.1 then settleHost a.wr.isSome sec z.2 else z) (true, s)
  if !p.1 then waitInbox (.hostAccess a) p.2
  else
    leaveInbox (.hostAccess a) (hostGets a (match a.wr with
      | some bs => (sectorsIn a.pa a.len).foldl (fun s sec => hostPart sec a.pa (bs.take a.len) a.psn s) p.2
      | none => p.2))
/-- An address that holds nothing: reported once (R380). -/
def hostHole (a : HostAcc) (s : State) : State := leaveInbox (.hostAccess a) (hostGets a (countLog ctrNOPATH 4 0 a.pa s))
/-- A host access of memory, in its turn; one that arrived before the link went down is still performed (R390). -/
def hostMemory (a : HostAcc) (s : State) : State :=
  if (!hostUp s && !s.inbox.contains (.hostAccess a)) || decide (a.len = 0) then leaveInbox (.hostAccess a) s
  else if !hostTurn a s then waitInbox (.hostAccess a) s
  else if isHost a.pa then hostOwn a s
  else if !isDevice a.pa then leaveInbox (.hostAccess a) s
  else if devicePresent s a.pa then hostDevice a s else hostHole a s

/-! ### The host's answers to back-invalidations (R391) -/

/-- A sector that the host sends: poisoned data marks every word. -/
def secOf (d : HostData) : List W32 × BitVec 16 := (secOfBytes d.bytes, if d.psn then 0xFFFF#16 else 0#16)
/-- The host's copy is gone, or S; dirty data is taken in under key 0 (R413), or only noted while a directory byte is recovered (R412). -/
def bisnpResponse (sec : Nat) (dirty : Option HostData) (inv : Bool) (s : State) : State :=
  let s := { s with co := { s.co with bisnp := s.co.bisnp.erase (sec, inv) } }
  let rec' := s.co.dirRec.any fun x => decide (x.1 = sec)
  let s := match dirty with
    | none => s
    | some d =>
      if rec' then { s with co := { s.co with dirRec := s.co.dirRec.map fun x => if x.1 = sec then (sec, true) else x } }
      else takeData none sec 0 (secOf d) true s
  let b := dirbOf s sec
  let s := setDirb sec (mkDirb (dirbDies b) (!inv) false) s
  dirProgress none sec s
/-- BISNP_RESPONSE: dirty data waits for a line of the L2. Dirty data that arrives when MEM reads 0, or has arrived and waits then, is performed as
an ordinary host write (R390). -/
def execBisnpResponse (sector : Nat) (dirty : Option HostData) (s : State) : Out :=
  let i : Instr := .bisnpResponse sector dirty
  match s.co.bisnp.find? fun b => decide (b.1 = sector), dirty with
  | some b, _ => .next (if dirty.isSome && !l2Fits 0 s sector then waitInbox i s else bisnpResponse sector dirty b.2 (leaveInbox i s))
  | none, none => .next (leaveInbox i s)
  | none, some d =>
    .next (if hostMem s || (!hostUp s && !s.inbox.contains i) then leaveInbox i s
      else
        let a : HostAcc := { pa := sectorOf sector, len := 64, wr := some d.bytes, caches := false, excl := false, psn := d.psn, no := s.nextId }
        hostMemory a (waitInbox (.hostAccess a) { leaveInbox i s with nextId := s.nextId + 1 }))

/-! ### Snoops of an RDC (Table 19.4) -/

/-- Something about the sector is between the die's L1s and its RDC. -/
def rdcBusy (s : State) (d sec : Nat) : Bool :=
  (s.co.msgs.any fun m => decide (m.pa = sec) && (!m.held || isDgrant m.body) && (decide (m.src = .rdc d ∨ m.dst = .rdc d))) ||
  (s.co.dwait.any fun w => decide (w.pa = sec ∧ w.rdc = some d))
/-- A snoop is answered once the die's own traffic about the sector is over. -/
def snoop (i : Instr) (d sec : Nat) (body : State → State) (s : State) : Out :=
  .next (if !hostCached s || !isHost sec then leaveInbox i s
    else if rdcBusy s d sec then waitInbox i s else leaveInbox i (body s))
def execSnpData (die : Nat) (sector : Nat) (s : State) : Out :=
  snoop (.snpData die sector) die sector (snoopDie .data die sector) s
def execSnpInv (die : Nat) (sector : Nat) (s : State) : Out :=
  snoop (.snpInv die sector) die sector (snoopDie .inv die sector) s
/-- The sector stays as it is; the host reads its value. -/
def execSnpCur (die : Nat) (sector : Nat) (s : State) : Out :=
  snoop (.snpCur die sector) die sector (snoopDie .cur die sector) s

/-! ### GO (R389) -/

/-- A request of an RDC is granted: S or E for a read, E for ownership. -/
def goState (k : DReq) (st : Mesi) : Mesi := if decide (k = .shared) && decide (st = .s) then .s else .e
def go (d sec : Nat) (k : DReq) (st : Mesi) (x : HostData) (s : State) : State :=
  let s := { s with co := { s.co with rdcReq := s.co.rdcReq.filter fun r => !(decide (r.1 = d ∧ r.2.1 = sec)) } }
  let s := if x.bytes.length = 64 then hostStore sec (secOf x).1 (secOf x).2 s else s
  let v := hostSector s sec
  let x : RdcSec :=
    { die := d, pa := sec, st := goState k st, key := 0, data := v.1, psn := v.2 }
  let x := match rdcFind s d sec with
    | some y => if k = .upgrade then { y with st := .e } else x
    | none => x
  snoopSet sec d true (rdcPut x s)
/-- The I/O die whose snoop filter a host sector belongs to (R229; assumption 58). -/
def ioDie (sec : Nat) : Nat := 4 + sec / 256 % 2
/-- Room in a snoop filter of 1,048,576 sectors: when it is full, the RDCs that hold its oldest entry about which nothing is on its way lose that
sector (R229). -/
def snoopMake (sec : Nat) (s : State) : Bool × State :=
  if s.co.snoop.length < 1048576 then (true, s)
  else
    let l := (s.co.snoop.filter fun x => decide (ioDie x.1 = ioDie sec)).map (·.1)
    if l.length < 1048576 ∨ l.contains sec then (true, s)
    else
      match l.find? fun a => !((List.range 4).any fun d => rdcBusy s d a) with
      | some a => (true, returnSec s a)
      | none => (false, s)
/-- The host's answer to a request, once the RDC has a line and the snoop filter an entry for it. -/
def execGo (die : Nat) (sector : Nat) (st : Mesi) (data : HostData) (s : State) : Out :=
  let i : Instr := .go die sector st data
  match s.co.rdcReq.find? fun r => decide (r.1 = die ∧ r.2.1 = sector) with
  | none => .next (leaveInbox i s)
  | some r =>
    if !rdcRoom s die sector then .next (waitInbox i s)
    else
      let m := snoopMake sector s
      .next (if m.1 then go die sector r.2.2 st data (leaveInbox i m.2) else waitInbox i m.2)

/-! ### Leaving and entering the protocols (R390) -/

/-- Host sectors that some RDC or L1 holds. -/
def hostSecs (s : State) : List Nat :=
  (((s.co.rdc.map (·.pa)) ++ (s.co.l1d.map (·.pa)) ++ (s.co.msgs.map (·.pa))).filter isHost).eraseDups
/-- Something about host sectors is on its way, or an access through CXL.cache is unfinished. -/
def cacheBusy (s : State) : Bool :=
  (s.co.msgs.any fun m => isHost m.pa) || (s.co.dwait.any fun w => isHost w.pa) || !s.co.rdcReq.isEmpty ||
  (s.ops.any fun o => o.left.any fun i => (o.els[i]?).any fun x => decide (x.kind = .hostc)) ||
  s.xfers.any fun x => (x.els.getD []).any fun e => decide (e.kind = .hostc)
/-- CACHE_CLEAR. -/
def execCacheClear (s : State) : Out :=
  .next (if !hostCached s then leaveInbox .cacheClear s
    else if cacheBusy s then waitInbox .cacheClear s
    else
      let s := (hostSecs s).foldl returnSec s
      leaveInbox .cacheClear { s with co := { s.co with snoop := [] }, link := { s.link with cache := false } })
/-- CACHE_SET. -/
def execCacheSet (s : State) : Out :=
  .next (if s.link.mode = 2#2 ∧ s.link.cache = false then { s with co := { s.co with snoop := [] }, link := { s.link with cache := true } } else s)

/-- Requests to the host about device sectors are over; what waited on them goes on. -/
def bisnpOver (s : State) : State :=
  let secs := s.co.bisnp.map (·.1)
  secs.foldl (fun s sec => dirProgress none sec s) { s with co := { s.co with bisnp := [] } }
/-- MEM_CLEAR: every HOST bit counts as clear from now on. -/
def memOff (s : State) : State := bisnpOver { s with link := { s.link with mem := false } }
def execMemClear (s : State) : Out := .next (if s.link.mem then memOff s else s)
/-- MEM_SET: HOST is recorded from the first access on; bits left from before are no records. -/
def execMemSet (s : State) : Out :=
  .next (if s.link.mode = 2#2 ∧ s.link.mem = false then
    let s := clearHost (s.co.dirb.map (·.1)) s
    { s with link := { s.link with mem := true } } else s)

/-- Modified data of a host sector on its way from an L1 to its RDC. -/
def dirtyOut (s : State) (sec : Nat) : Bool :=
  s.co.msgs.any fun m => decide (m.pa = sec) && (match m.body with
    | .dret (some _) dirty _ => dirty
    | _ => false)
/-- A host sector that the dies hold when the link is down: a modified one is lost, counted and logged once. -/
def loseSec (s : State) (sec : Nat) : State :=
  let lost := dirtyOut s sec || (List.range 4).any fun d => (dieDirty s d sec).isSome
  (List.range 4).foldl (fun s d => dieDrop d sec s) (if lost then countLog ctrHOSTERR 4 0 sec s else s)
def holeEl (x : El) : El := if x.kind = .hostc ∨ x.kind = .hostu then { x with kind := .hole } else x
/-- HOST_LINK_DOWN: CACHE and MEM read 0; unfinished accesses meet an address that holds nothing, requests to the host and its reads and snoops are
over, and its writes that have arrived are performed (R380, R390). -/
def execHostLinkDown (s : State) : Out :=
  .next (if !hostUp s then s
    else
      let s := (hostSecs s).foldl loseSec s
      memOff { s with
        co := { s.co with snoop := [], msgs := s.co.msgs.filter (fun m => !isHost m.pa), dwait := s.co.dwait.filter (fun w => !isHost w.pa),
                          rdcReq := [] },
        link := { s.link with mode := 0#2, cache := false },
        ops := s.ops.map (fun o => { o with els := o.els.map holeEl }),
        xfers := s.xfers.map (fun x => { x with els := x.els.map fun l => l.map holeEl }),
        inbox := s.inbox.filter (fun i => match i with
          | .hostAccess a => a.wr.isSome
          | .snpData _ _ | .snpInv _ _ | .snpCur _ _ | .cacheClear | .go _ _ _ _ => false
          | _ => true) })

/-- SNOOP_FILTER_EVICTION: the holding RDCs are invalidated and return dirty data (R229). -/
def execSnoopFilterEviction (sector : Nat) (s : State) : Out :=
  .next (match s.co.snoop.find? fun x => decide (x.1 = sector) with
    | none => s
    | some _ => if (List.range 4).any fun d => rdcBusy s d sector then s else returnSec s sector)

end Sys2Proof.Machine
end

