-- ==== Sys2Proof/Machine/Fabric.lean ====
section
/-! DEFINITION. The scale-up fabric: CRC failures, replays, retraining and ports that go down (R399 to R401), and accesses that
arrive from peers (R397, R398). -/
namespace Sys2Proof.Machine

/-! ### Ports and replay -/

def isUp (s : State) (p : Nat) : Bool := decide (p < 96) && s.fab.up.getLsbD p
/-- CRC failures of a port since one of its flits last arrived; the first needs a replay, and each later one is a replay that
failed. -/
def failsOf (s : State) (p : Nat) : Nat := assocGet 0 s.fab.fails p
/-- The same for the peer's flits that a port receives. -/
def rxFails (s : State) (p : Nat) : Nat := assocGet 0 s.fab.rx p

/-- The n-th outstanding flit of a port, and every later one, discarded by the receiver. -/
def loseFrom (port : Nat) : Nat → List Flit → List Flit
  | _, [] => []
  | n, f :: t =>
    if f.port = port then
      match n with
      | 0 => { f with lost := true } :: loseFrom port 0 t
      | k + 1 => f :: loseFrom port k t
    else f :: loseFrom port n t
/-- FLIT_CRC_FAILURE. The number counts on from the port's oldest unacknowledged flit. One beyond the outstanding flits is a flit of the peer's:
it and every later one are discarded here until the replay that this port asks for; one discarded already changes nothing (R399). -/
def crcFailure (port n : Nat) (s : State) : State :=
  if !isUp s port then s
  else
    let mine := decide (n < (s.fab.flits.filter fun f => decide (f.port = port)).length)
    if !mine && s.fab.asked.contains port then s
    else
      let s := count ctrFABCRC s
      if mine then
        { s with fab := { s.fab with flits := loseFrom port n s.fab.flits, fails := assocSet s.fab.fails port (failsOf s port + 1) } }
      else { s with fab := { s.fab with asked := s.fab.asked ++ [port], rx := assocSet s.fab.rx port (rxFails s port + 1) } }
def execFlitCrcFailure (port n : Nat) (s : State) : Out := .next (crcFailure port n s)

/-- The discarded flits of a port are sent again in their order. -/
def resend (port : Nat) (s : State) : State :=
  { s with fab := { s.fab with flits := s.fab.flits.map fun f => if f.port = port then { f with lost := false } else f } }
/-- The peer's flits arrive again. -/
def rearm (port : Nat) (s : State) : State := { s with fab := { s.fab with asked := s.fab.asked.filter fun p => decide (p ≠ port) } }
/-- REPLAY: until 8 replays in a row have failed, in either direction. -/
def execReplay (port : Nat) (s : State) : Out :=
  .next (if !isUp s port then s
    else
      let s := if 1 ≤ failsOf s port ∧ failsOf s port ≤ 8 then resend port s else s
      if 1 ≤ rxFails s port ∧ rxFails s port ≤ 8 then rearm port s else s)

/-- A port goes down: its requests go again over another port, or wait where none reaches their destination. -/
def dropPort (port : Nat) (s : State) : State :=
  let s := rearm port { s with fab := { s.fab with
      up := s.fab.up &&& ~~~(1#96 <<< port), fails := assocDel s.fab.fails port, rx := assocDel s.fab.rx port } }
  let dest := (portUp s).getD 96
  let moved := s.fab.flits.filter fun f => decide (f.port = port)
  let s := { s with fab := { s.fab with
      flits := s.fab.flits.map (fun f => if f.port = port then { f with port := dest, lost := false } else f),
      last := if dest < 96 ∧ !moved.isEmpty then dest else s.fab.last } }
  if dest < 96 then s else moved.foldl (fun s f => noteCut f.node s) s
def execPortDown (port : Nat) (s : State) : Out := .next (if isUp s port then dropPort port s else s)

/-- A port that was down has been trained: requests that wait for a path go over it, and no destination is cut off (assumption 33). -/
def raisePort (port : Nat) (s : State) : State :=
  let waiting := s.fab.flits.any fun f => decide (f.port = 96)
  { s with fab := { s.fab with
      up := s.fab.up ||| (1#96 <<< port), cut := [],
      flits := s.fab.flits.map (fun f => if f.port = 96 then { f with port := port, lost := false } else f),
      last := if waiting then port else s.fab.last } }
/-- RETRAIN after 8 failed replays: the port sends again, or goes down; of a port that is down: it comes up. -/
def execRetrain (port : Nat) (ok : Bool) (s : State) : Out :=
  .next (if isUp s port ∧ (9 ≤ failsOf s port ∨ 9 ≤ rxFails s port) then
    let s := count ctrFABRETR s
    if ok then resend port (rearm port { s with fab := { s.fab with fails := assocDel s.fab.fails port, rx := assocDel s.fab.rx port } })
    else dropPort port s
  else if s.pwr.ready && decide (port < 96) && !isUp s port && ok then raisePort port (count ctrFABRETR s)
  else s)

/-- An element towards a node becomes an address that holds nothing, in the requester's own terms. -/
def cutEl (node : BitVec 20) (x : El) : El :=
  if x.kind = .peer ∧ peerNode x.pa = node then { x with kind := .hole, pa := peerBase + tagApert x.key * 2 ^ 40 + peerOff x.pa, key := 0 } else x
/-- PATH_TIMEOUT: requests to a destination without a path for 100 ms are completed under R380. -/
def execPathTimeout (node : BitVec 20) (s : State) : Out :=
  .next (if (portUp s).isNone && cutLong s node then
    { s with
      ops := s.ops.map (fun o => { o with els := o.els.map (cutEl node) }),
      xfers := s.xfers.map (fun x => { x with els := x.els.map fun l => l.map (cutEl node) }),
      fab := { s.fab with flits := s.fab.flits.filter fun f => decide (f.node ≠ node) } }
  else s)

/-! ### Inbound accesses -/

def inBulk : InKind → Bool
  | .chunkRead _ | .chunkWrite _ _ => true
  | _ => false
/-- R394, R398. -/
def inAccepts (s : State) (a : InAcc) : Bool :=
  s.fab.nv &&
  (if inBulk a.kind then s.fab.bulkin
   else s.fab.lsin && decide (a.src.extractLsb' 14 6 = s.fab.nodeid.extractLsb' 14 6))
def inLen : InKind → Nat
  | .load n => n
  | .store d => d.length
  | .amo _ z _ _ => sizeBytes z
  | .cas z _ _ => sizeBytes z
  | .xred _ _ => 64
  | .xrd => 64
  | .chunkRead n => n
  | .chunkWrite d _ => d.length
def inWrites : InKind → Bool
  | .load _ | .xrd | .chunkRead _ => false
  | _ => true
/-- What an inbound access does to the bytes it finds: the bytes to write, with their poison (R402, R410). An atomic that
meets poison writes nothing. -/
def inEffect (k : InKind) (old : List (Byte × Bool)) : Option (List Byte × Bool) :=
  let v := natOfBytes (old.map (·.1))
  let rmw (r : Nat) : Option (List Byte × Bool) := if old.any (·.2) then none else some (bytesOfNat r old.length, false)
  match k with
  | .load _ | .xrd | .chunkRead _ => none
  | .store d => some (d, false)
  | .chunkWrite d p => some (d, p)
  | .amo fn z b fmt => rmw (amoNew fn (sizeBytes z) fmt v b.toNat).1
  | .cas z b c => if v = b.toNat % 2 ^ (8 * sizeBytes z) then rmw (c.toNat % 2 ^ (8 * sizeBytes z)) else none
  | .xred b fmt => rmw (xredNew fmt v b.toNat).1
/-- The lanes of an inbound access, one for each line. -/
def inLanes (a : InAcc) : List Nat := (laneLines a.pa (inLen a.kind)).map fun l => (Config.lane l).val
/-- Requests of one source in one lane are performed in the order they were sent (R400). -/
def inTurn (a : InAcc) (s : State) : Bool :=
  match s.inbox.find? fun i => (match i with
    | .inboundAccess b => decide (b.src = a.src) && (inLanes b).any fun l => (inLanes a).contains l
    | _ => false) with
  | none => true
  | some i => decide (i = .inboundAccess a)
/-- What the source is told of an access performed on the bytes found: an atomic's value and flags, the bytes of a read with their poison, or an
acknowledgement (R397, R402). RED and XRED give no value. -/
def inResult (k : InKind) (old : List (Byte × Bool)) : InRes :=
  let v := natOfBytes (old.map (·.1))
  match k with
  | .load _ | .xrd | .chunkRead _ => .data old
  | .store _ | .chunkWrite _ _ => .ack
  | .amo fn z b fmt => if old.any (·.2) then .poison else .value (BitVec.ofNat 64 v) (amoNew fn (sizeBytes z) fmt v b.toNat).2
  | .cas _ _ _ => if old.any (·.2) then .poison else .value (BitVec.ofNat 64 v) 0#5
  | .xred b fmt => if old.any (·.2) then .poison else .value 0#64 (xredNew fmt v b.toNat).2
/-- A peer's access is over: the source is answered. -/
def answerPeer (a : InAcc) (r : InRes) (s : State) : State :=
  leaveInbox (.inboundAccess a) { s with fab := { s.fab with out := (a, r) :: s.fab.out } }
/-- What an address that holds nothing gives (R380). -/
def holeResult (k : InKind) : InRes :=
  match k with
  | .load n | .chunkRead n => .data (List.replicate n (0#8, true))
  | .xrd => .data (List.replicate 64 (0#8, true))
  | .store _ | .chunkWrite _ _ => .ack
  | .amo _ _ _ _ | .cas _ _ _ | .xred _ _ => .poison
/-- INBOUND_ACCESS: performed at the home as an access to this device's memory under the aperture's key (R397) and answered, or refused
without effect (R398). While NV = 0 the fabric carries nothing to the device, nor an answer from it (R394). It does not reach the device while its port, the lowest one up (assumption 20), discards flits; one that arrives ends the
port's row of failures. -/
def inbound (a : InAcc) (s : State) : State :=
  let port := (portUp s).getD 96
  if !s.fab.nv then leaveInbox (.inboundAccess a) s
  else if s.fab.asked.contains port then waitInbox (.inboundAccess a) s
  else
    let s := { s with fab := { s.fab with rx := assocDel s.fab.rx port } }
    if !inAccepts s a then answerPeer a .refused s
    else if !inTurn a s then waitInbox (.inboundAccess a) s
    else if !devicePresent s a.pa then answerPeer a (holeResult a.kind) (countLog ctrNOPATH 4 0 a.pa s)
    else
      let n := inLen a.kind
      let p := prepareRange (inWrites a.kind) a.key a.pa n s
      if !p.1 then waitInbox (.inboundAccess a) p.2
      else
        let old := placeRead a.key a.pa n p.2
        answerPeer a (inResult a.kind old) (match inEffect a.kind old with
          | some (bs, bad) => placeWrite a.key a.pa bs bad p.2
          | none => p.2)
def execInboundAccess (a : InAcc) (s : State) : Out := .next (inbound a s)

/-- REFUSAL by a target: PERM at the first access still outstanding there, or the transfer's end (R398, R310). -/
def refusal (id : Nat) (s : State) : State :=
  match findOp s id with
  | some o =>
    if o.ph ≠ .miss then s
    else
      (match o.left.find? fun i => (o.els[i]?).any fun x => decide (x.kind = .peer) with
       | some i => attempt id (dropFlits id (failOp id (errPerm (((o.els[i]?).map (·.va)).getD 0)) s))
       | none => s)
  | none =>
    match findX s id with
    | some x =>
      if x.ph = .running ∧ ((x.els.getD []).any fun e => decide (e.kind = .peer)) then endX id (some (errXfer xcPERM (xOffset x x.next))) s
      else s
    | none => s
def execRefusal (id : Nat) (s : State) : Out := .next (refusal id s)

end Sys2Proof.Machine
end

