-- ==== Sys2Proof/Machine/Ras.lean ====
section
/-! DEFINITION. Evictions (R219, R220, R226, R228), errors in arrays, memory and directory bytes (R224, R230, R408 to R412), keys
(R414), integrity (R415, R416) and the error counters (R417). -/
namespace Sys2Proof.Machine

/-! ### Evictions -/

/-- L1_EVICTION. -/
def execL1Eviction (cl line : Nat) (s : State) : Out := .next (evictLine cl line s)

/-- The owners of a sector's registered words at a place are recalled, once. -/
def recallOwners (pl : Option Nat) (sec : Nat) (s : State) : State :=
  let r := regGet s pl sec
  let out := s.co.msgs.any fun m => decide (m.pa = sec ∧ m.src = agentAt pl) && (match m.body with
    | .recall _ => true
    | _ => false)
  if out then s
  else sendGrouped (agentAt pl) sec (((l2Find s sec).map (·.key)).getD 0) .recall
    ((List.range 16).filterMap fun w => (ownerOf r w).map fun a => (a, w)) [] s
/-- L2_EVICTION: sectors whose words are registered are recalled first; the others go to HBM. -/
def l2EvictSec (s : State) (sec : Nat) : State :=
  if anyOwned (regGet s none sec) then recallOwners none sec s
  else if sectorBusy s sec || burstStuck s sec then s
  else l2Out sec s
def execL2Eviction (line : Nat) (s : State) : Out := .next ((sectorsOfLine line).foldl l2EvictSec s)

/-- A sector leaves an RDC: its die's L1 holders first, then home, or to the host, when it was E or M. `bad` marks it
poisoned. -/
def rdcOut (d sec : Nat) (bad : Bool) (s : State) : State :=
  match rdcFind s d sec with
  | none => s
  | some x =>
    let dirty := dieDirty s d sec
    let v := dirty.getD (x.data, x.psn)
    let v := if bad && isEM x.st then (v.1, 0xFFFF#16) else v
    let out := dieDrop d sec s
    if isHost sec then
      let out := tellHost (.evict d sec (dieState s d sec) (if isEM x.st && (dirty.isSome || bad) then some v else none)) out
      if isEM x.st && (dirty.isSome || bad) then hostStore sec v.1 v.2 out else out
    else if !isEM x.st then out
    else sendMsg (.rdc d) .home sec x.key (.dret (some v) (dirty.isSome || bad) true) out
/-- RDC_EVICTION of a sector, or of a registration record, whose owners are recalled first (R219). -/
def execRdcEviction (die sector : Nat) (s : State) : Out :=
  .next (
    let s := if anyOwned (regGet s (some die) sector) then recallOwners (some die) sector s else s
    if rdcBusy s die sector then s else rdcOut die sector false s)

/-! ### Errors in cache arrays (R224, R230, R411) -/

def sramUE (die unit pa : Nat) (s : State) : State := countLog ctrSRAMUE die unit pa s

/-- One word lost: its home unregisters it and marks it. A word that is not registered to the cluster there, or not yet, or a remote one,
goes to its home or RDC behind its registration as a write-back of poison, which answers reads and revokes on the way too (Table 10.6). -/
def loseAt (cl key : Nat) (s : State) (pa : Nat) : State :=
  let sec := sectorOf pa
  let w := pa % 64 / 4
  let r := regGet s none sec
  match (if placeOf cl sec = none ∧ ownerOf r w = some (.l1 cl) then l2Find s sec else none) with
  | some _ =>
    let y := l2Get key sec (regPut (setCode r w 0#2) s)
    l2Put { y.1 with pz := y.1.pz ||| (1#16 <<< w), dirty := true } y.2
  | none => sendMsg (.l1 cl) (agentAt (placeOf cl sec)) sec key (.wb [(w, 0#32, true)]) s
/-- The words of a sector that a cluster's L1 holds as an owner. -/
def ownedWords (s : State) (cl sec : Nat) : List L1Word :=
  s.co.l1w.filter fun x => decide (x.cl = cl ∧ sectorOf x.pa = sec ∧ x.st ≠ .v)
/-- OWNER_LOST in a sector: every word is poisoned and unregistered, and the instance's fault domain is told once. -/
def ownerLost (cl sec : Nat) (s : State) : State :=
  let l := ownedWords s cl sec
  match l with
  | [] => s
  | x :: _ =>
    let low := l.foldl (fun a y => min a y.pa) x.pa
    let s := { s with co := { s.co with l1w := s.co.l1w.filter fun y => !(decide (y.cl = cl ∧ sectorOf y.pa = sec)) } }
    let s := l.foldl (fun s y => loseAt cl y.key s y.pa) s
    let s := sramUE (dieOf cl) (cl % 128) sec s
    match instAt s cl with
    | some i =>
      (takeException i.ctx (some i.iid) 0#32
        { kind := 0x06#8, src := 0#4, acc := 3#4, level := 0#8, va := 0#64,
          place := placeWord { x := clX cl - i.x0, y := clY cl - i.y0, pe := 0, slot := 0 } Tag.zero, data := BitVec.ofNat 64 low } s).2
    | none => s
/-- OWNER_LOST (R224); a V copy is only discarded, to be fetched again. -/
def execOwnerLost (cl sector : Nat) (s : State) : Out :=
  let sec := sectorOf sector
  .next (if !(ownedWords s cl sec).isEmpty then ownerLost cl sec s
    else if s.co.l1w.any fun x => decide (x.cl = cl ∧ sectorOf x.pa = sec) then
      sramUE (dieOf cl) (cl % 128) sec (invalidateV cl (fun x => decide (sectorOf x.pa = sec)) s)
    else s)

/-- An L1's bad D-page sector: dropped; the home's becomes poisoned from E or M (R230). -/
def l1Bad (cl sec : Nat) (s : State) : State :=
  match l1dFind s cl sec with
  | none => s
  | some x =>
    let s := sramUE (dieOf cl) (cl % 128) sec (l1dDel cl sec s)
    if isEM x.st then
      sendMsg (.l1 cl) (agentAt (placeOf cl sec)) sec x.key (.dret (some (x.data, 0xFFFF#16)) true true) s
    else s
/-- An RDC's bad sector is acted on once the die's traffic about it is over. -/
def rdcBad (d sec : Nat) (s : State) : State :=
  let i : Instr := .sectorError (.rdc d) sec
  if (rdcFind s d sec).isNone then leaveInbox i s
  else if rdcBusy s d sec then waitInbox i s
  else leaveInbox i (rdcOut d sec true (sramUE d 128 sec s))
/-- The home's copy of a sector is bad: its words are marked, as R230 marks the home's for an owner's loss (assumption 35). -/
def l2Bad (sec : Nat) (s : State) : State :=
  match l2Find s sec with
  | none => s
  | some x => l2Put { x with pz := 0xFFFF#16, dirty := true } (sramUE (homeDie sec) (homeOf sec % 128) sec s)
/-- A bad unit of a tile or accumulator store: reported by the instruction that reads it (R411). -/
def tileUnitBad (c off : Nat) (s : State) : State :=
  if c < 512 ∧ off < 2 ^ 20 then
    { s with tiles := { s.tiles with badT := s.tiles.badT.filter (fun u => decide (u ≠ 2 ^ 20 * c + off / 8 * 8)) ++ [2 ^ 20 * c + off / 8 * 8] } }
  else s
def accUnitBad (c off : Nat) (s : State) : State :=
  if c < 512 ∧ off < 2 ^ 20 then
    { s with tiles := { s.tiles with badA := s.tiles.badA.filter (fun u => decide (u ≠ 2 ^ 20 * c + off / 8 * 8)) ++ [2 ^ 20 * c + off / 8 * 8] } }
  else s
/-- SECTOR_ERROR, which also brings the host link's errors that AER reports (R417; assumption 61). -/
def execSectorError (at_ : Holder) (sector : Nat) (s : State) : Out :=
  .next (match at_ with
    | .l1 c => l1Bad c (sectorOf sector) s
    | .rdc d => rdcBad d (sectorOf sector) s
    | .l2 => l2Bad (sectorOf sector) s
    | .tile c => tileUnitBad c sector s
    | .acc c => accUnitBad c sector s
    | .corrected => count ctrSRAMCE s
    | .hostLink => count ctrHOSTERR s)

/-! ### Errors in HBM (R408, R409, R416) -/

def stackUnit (sec : Nat) : Nat := (Config.stackOf (sec / 64)).val
/-- A burst fails its CRC: counted. One that fails again after its channel has been retrained is an event of its own: a read gives poison once, and
memory keeps what it holds; a write is discarded (R409). -/
def burstFails (sec : Nat) (s : State) : State :=
  let n := crcFails s sec
  let s := count ctrHBMCRC s
  if n < 5 then { s with co := { s.co with crc := assocSet s.co.crc sec (n + 1) } }
  else
    let s := countLog ctrHBMLINK (homeDie sec) (stackUnit sec) sec (burstOver sec s)
    if n = 7 then l2Drop sec s
    else if (l2Find s sec).isSome then s
    else { s with co := { s.co with rdFail := s.co.rdFail ++ [sec] } }
/-- A tree node, or a counter block, that an integrity read of a sector would read from memory: below the top node, and below the first that the
die's counter cache holds (R416). -/
def treeReads (s : State) (sec level : Nat) : Bool :=
  (treeVerify s (sec / 4096) (treeTop s) 0).2.contains (level, treeIdx level (sec / 4096))
/-- HBM_READ of a sector: what the interface's CRC, of a read or a write of it, and on a sector that its home does not hold the codes, make of it. A
burst that has passed the CRC ends its row of failures; one whose four repeats have failed waits for its channel to retrain. -/
def hbmRead (sec : Nat) (o : HbmOutcome) (s : State) : State :=
  if !devicePresent s sec || channelOut s sec || burstStuck s sec then s
  else if o = .crc then burstFails sec s
  else
    let held := (l2Find s sec).isSome
    let s := { s with co := { s.co with crc := assocDel s.co.crc sec } }
    match o with
    | .clean | .crc => s
    | .corrected => if held then s else count ctrHBMCE s
    | .uncorrectable => if held then s else uncorrectable sec s
    | .treeFail level =>
      if held || !s.ras.inten || grpBad s (sec / 4096) || !treeReads s sec level then s
      else integFail sec { s with ras := { s.ras with badGrp := s.ras.badGrp ++ [(level, sec / 4096)] } }
def execHbmRead (sector : Nat) (o : HbmOutcome) (s : State) : Out := .next (hbmRead (sectorOf sector) o s)

/-- CHANNEL_RETRAIN after four failed repeats, of a read or a write: the burst is carried again. A channel that cannot be retrained is out of
service, and the write is discarded. -/
def channelRetrain (sec : Nat) (wr ok : Bool) (s : State) : State :=
  if !devicePresent s sec || channelOut s sec || !burstStuck s sec then s
  else if ok then { s with co := { s.co with crc := assocSet s.co.crc sec (if wr then 7 else 6) } }
  else
    let s := countLog ctrHBMLINK (homeDie sec) (stackUnit sec) sec (burstOver sec s)
    let s := if wr then l2Drop sec s else s
    { s with co := { s.co with outCh := s.co.outCh ++ [Config.channelOf (sec / 64)] } }
def execChannelRetrain (sector : Nat) (wr ok : Bool) (s : State) : Out := .next (channelRetrain (sectorOf sector) wr ok s)

/-! ### Directory bytes (R412) -/

/-- Every RDC of another die, and the host, must give the sector up. -/
def directoryByteError (sec : Nat) (s : State) : State :=
  if !devicePresent s sec || dirBusy s none sec then s
  else
    let need : List Agent := ((List.range 4).filter fun d => decide (d ≠ homeDie sec)).map Agent.rdc
    let s := { s with co := { s.co with
        dirRec := s.co.dirRec ++ [(sec, false)], dwait := s.co.dwait ++ [{ rdc := none, pa := sec, req := none, need := need }] } }
    let s := need.foldl (fun s a => sendMsg .home a sec (((l2Find s sec).map (·.key)).getD 0) .inval s) s
    if hostMem s then sendBisnp sec true s else s
/-- DIRECTORY_BYTE_ERROR; a single bit is corrected and counted. -/
def execDirectoryByteError (sector : Nat) (corrected : Bool) (s : State) : Out :=
  .next (if corrected then count ctrDIRCE s else directoryByteError (sectorOf sector) s)

/-! ### Keys (R414) -/

/-- Sectors in RDCs under a key go home; false while something about one is on its way. -/
def flushRdc (k : Nat) (s : State) : Bool × State :=
  s.co.rdc.foldl (fun (z : Bool × State) x =>
    if keyId x.key ≠ k ∨ isHost x.pa then z
    else if sectorBusy z.2 x.pa || !l2Fits x.key z.2 x.pa then (false, z.2)
    else
      let v := dieDirty z.2 x.die x.pa
      let s := dirForget none x.pa (.rdc x.die) true (dieDrop x.die x.pa z.2)
      (z.1, match v with
        | some d => takeData none x.pa x.key d true s
        | none => s)) (true, s)
/-- Sectors in L2 slices under a key go to HBM. -/
def flushL2 (k : Nat) (s : State) : State := s.co.l2.foldl (fun s x => if keyId x.key = k then l2Out x.pa s else s) s
def keyDone (stat : Byte) (s : State) : State := { s with ras := { s.ras with kbusy := false, kcmd := 0#2, kstat := stat } }
/-- A key command under way: flushed under the old key, then the new one applies. -/
def keyCommand (cmd : BitVec 2) (v : W256) (s : State) : State :=
  if !s.ras.kbusy || decide (s.ras.kcmd ≠ cmd) then s
  else if s.ras.ksel = 0#8 then keyDone 1#8 s
  else
    let k := s.ras.ksel.toNat
    let r := flushRdc k s
    if !r.1 || (r.2.co.l2.any fun x => decide (keyId x.key = k) && x.dirty && burstStuck r.2 x.pa) then r.2
    else
      let s := flushL2 k r.2
      keyDone 0#8 { s with ras := { s.ras with keys := if v = 0#256 then assocDel s.ras.keys k else assocSet s.ras.keys k v } }
/-- KDATA3 to KDATA0. -/
def kdataKey (s : State) : W256 := word s.ras.kdata 3 ++ word s.ras.kdata 2 ++ word s.ras.kdata 1 ++ word s.ras.kdata 0
def execKcmdLoad (s : State) : Out := .next (keyCommand 1#2 (kdataKey s) s)
def execKcmdClear (s : State) : Out := .next (keyCommand 2#2 0#256 s)

/-! ### Integrity (R415) -/

/-- Bytes of the tree nodes in memory over a number of counter blocks: all levels but the top node. -/
def treeBytes : Nat → Nat → Nat
  | 0, _ => 0
  | f + 1, n => let c := (n + 7) / 8; if c ≤ 1 then 0 else 64 * c + treeBytes f c
/-- Bytes that `n` data units of 64 KiB need: themselves, a MAC word a sector, a counter block a group, and the tree. -/
def integNeed (n : Nat) : Nat := n * 65536 + 16 * n * (512 + 64) + treeBytes 9 (16 * n)
/-- The most units that fit below a size, bit by bit. -/
def integFit (cap : Nat) : Nat → Nat → Nat
  | 0, n => n
  | b + 1, n => integFit cap b (if integNeed (n + 2 ^ b) ≤ cap then n + 2 ^ b else n)
/-- What remains of a die's populated memory beside its carve-out (assumption 30). -/
def integCap (cap : Nat) : Nat := integFit cap 23 0 * 65536
/-- Device memory as a clearing leaves it: zero data, PSN 0, DIR 0x00, nothing held of it. -/
def clearDevice (s : State) : State :=
  { s with
    mem := s.mem.filter (fun c => !isDevice c.1),
    co := { s.co with
      l2 := [], psn := s.co.psn.filter (fun a => !isDevice a), dirb := [], meta_ := [], l1w := [], reg := [], gwait := [], regOut := [],
      l1d := s.co.l1d.filter (fun x => !isDevice x.pa), rdc := s.co.rdc.filter (fun x => !isDevice x.pa),
      dir := s.co.dir.filter (fun x => !isDevice x.pa), msgs := s.co.msgs.filter (fun m => !isDevice m.pa),
      dwait := s.co.dwait.filter (fun w => !isDevice w.pa), dirRec := [], bisnp := [], crc := [], rdFail := [] } }
/-- INTEN: what a write that set INTEN has begun is done, and the carve-outs stand; KBUSY reads 0. -/
def execInten (s : State) : Out :=
  .next (if !s.ras.kbusy || decide (s.ras.kcmd ≠ 3#2) then s
    else
      let s := clearDevice s
      { s with ras := { s.ras with macs := [], groups := [], badGrp := [], tree := [], verified := [], kbusy := false, kcmd := 0#2 },
               link := { s.link with memcap := BitVec.ofNat 64 (integCap s.link.popul.toNat) } })

/-! ### Error counters (R417) -/

/-- COUNTER_WRITE, an 8-byte store of the host: each half written as 0 clears its counter. -/
def counterWrite (off : Nat) (val : W64) (s : State) : State :=
  if off % 8 = 0 ∧ off ≤ 0x30 then
    let k := off / 8 * 2
    let c := s.ras.ctrs
    let c := if val.extractLsb' 32 32 = 0#32 then c.set k 0#32 else c
    let c := if val.extractLsb' 0 32 = 0#32 then c.set (k + 1) 0#32 else c
    { s with ras := { s.ras with ctrs := c } }
  else s
def execCounterWrite (off : Nat) (val : W64) (s : State) : Out := .next (hostOrder (0x3000 + off) val (counterWrite off val) s)

end Sys2Proof.Machine
end

