-- ==== Sys2Proof/Machine/Power.lean ====
section
/-! DEFINITION. Sensors, pressure and paddle power (R419 to R427), resets and bring-up (R428, R429), and host writes of registers
(R384 to R387, and the registers' own tables). -/
namespace Sys2Proof.Machine

/-! ### Caches emptied into memory (R363) -/

/-- What is known of one word reaches its home's copy, whose mark stays unless the word's own is known (R410). -/
def flushBytes (key sec w : Nat) (p : Part) (s : State) : State :=
  let y := l2Get key sec s
  let bit : BitVec 16 := 1#16 <<< w
  let pz := if p.psn then y.1.pz ||| bit else if p.sure then y.1.pz &&& ~~~bit else y.1.pz
  l2Put { y.1 with data := y.1.data.set w (mergeWord (y.1.data.getD w 0#32) p.data p.mask), pz := pz, dirty := true } y.2
def flushWord (s : State) (x : L1Word) : State :=
  if x.st = .v then s else flushBytes x.key (sectorOf x.pa) (x.pa % 64 / 4) (partOf x) s
def flushSector (pa key : Nat) (d : List W32) (psn : BitVec 16) (s : State) : State :=
  if isHost pa then hostStore pa d psn s
  else takeData none pa key (d, psn) true s
/-- Data on its way, by how old it is: what left its cache, what a grant brings, what a previous owner answers. -/
def flushLeft (s : State) (m : Msg) : State :=
  match m.body with
  | .wb ws => ws.foldl (fun s x => flushBytes m.key m.pa x.1 (Part.full x.2.1 x.2.2) s) s
  | .dret (some d) true _ => flushSector m.pa m.key d.1 d.2 s
  | _ => s
def flushGrant (s : State) (m : Msg) : State :=
  match m.body with
  | .grant ws => ws.foldl (fun s x => flushBytes m.key m.pa x.1 (Part.full x.2.1 x.2.2) s) s
  | _ => s
def flushAnswer (s : State) (m : Msg) : State :=
  match m.body with
  | .answer ws _ => ws.foldl (fun s x => flushBytes m.key m.pa x.1 x.2 s) s
  | _ => s
def flushWait (s : State) (g : GWait) : State :=
  match g.ans with
  | some v => flushBytes (((l2Find s (sectorOf g.pa)).map (·.key)).getD 0) (sectorOf g.pa) (g.pa % 64 / 4) v s
  | none => s
/-- What L1s and RDCs hold modified, and what is on its way between them and a home, reaches the homes: what has been written keeps its contents. -/
def flushDies (s : State) : State :=
  let s := s.co.rdc.foldl (fun s x => if x.st = .m then flushSector x.pa x.key x.data x.psn s else s) s
  let s := s.co.msgs.foldl flushLeft s
  let s := s.co.l1d.foldl (fun s x => if x.st = .m then flushSector x.pa x.key x.data x.psn s else s) s
  let s := s.co.msgs.foldl flushAnswer (s.co.msgs.foldl flushGrant s)
  s.co.l1w.foldl flushWord (s.co.gwait.foldl flushWait s)
/-- And the L2 slices' modified sectors go to memory. -/
def flushCaches (s : State) : State :=
  let s := flushDies s
  s.co.l2.foldl (fun s x => l2Out x.pa s) s

/-! ### Pressure (R420 to R423) -/

/-- A reading, signed, in 1/16 °C. -/
def tempOf (s : State) (i : Nat) : Int := ((s.pwr.sensors.getD i (false, 0#16)).2).toInt
/-- TJ(d). -/
def junction (s : State) (d : Nat) : Int := ((List.range 8).map fun k => tempOf s (8 * d + k)).foldl max (tempOf s (32 + d))
def threshold (s : State) (lvl : Nat) : Int :=
  16 * (if lvl = 1 then s.pwr.half.toNat else if lvl = 2 then s.pwr.light.toNat else s.pwr.easy.toNat : Nat)
/-- The highest state whose threshold a temperature has reached. -/
def reached (s : State) (t : Int) : Nat :=
  if threshold s 3 ≤ t then 3 else if threshold s 2 ≤ t then 2 else if threshold s 1 ≤ t then 1 else 0
/-- REFR's band of a stack. -/
def refreshOf (t : Int) : Nat := if t < 85 * 16 then 0 else if t < 95 * 16 then 1 else if t < 105 * 16 then 2 else 3
/-- The least state that the overrides allow. -/
def heldAt (s : State) (d : Nat) : Nat :=
  let hot := (List.range 3).any fun k => decide (105 * 16 ≤ tempOf s (36 + 3 * d + k))
  max (if hot then 2 else 0) (if s.pwr.heldBy.getD d false then 1 else 0)
/-- A die's next state: up at once, down by one below the threshold less 3 °C. -/
def nextPressure (s : State) (d : Nat) : Nat :=
  let t := junction s d
  let cur := (s.pwr.prs.getD d 0#4).toNat
  let up := reached s t
  let own := if cur ≤ up then up else if t < threshold s cur - 48 then cur - 1 else cur
  max own (heldAt s d)
def setPressure (s : State) : State :=
  { s with pwr := { s.pwr with prs := (List.range 4).map fun d => BitVec.ofNat 4 (nextPressure s d),
                               refr := (List.range 12).map fun k => BitVec.ofNat 2 (refreshOf (tempOf s (36 + k))) } }
/-- The compute dies lose their power; their caches are emptied first, so that memory keeps what was written (R363, R422; assumption 63). -/
def powerOff (s : State) : State :=
  if s.pwr.dieOff then s
  else
    let s := flushDies s
    { s with
      co := { s.co with l1w := [], l1d := [], rdc := [], reg := [], dir := [], msgs := [], gwait := [], dwait := [], regOut := [], tlb := [],
                        snoop := [], rdcReq := [] },
      pwr := { s.pwr with dieOff := true } }
/-- SENSOR_SAMPLE: readings of the 48 sensors; a compute-die or base-die sensor at 115 °C trips the device (R422). -/
def execSensorSample (temps : List (BitVec 16)) (s : State) : Out :=
  .next (if temps.length ≠ 48 then s
    else
      let s := setPressure { s with pwr := { s.pwr with sensors := temps.map fun t => (true, t) } }
      if (List.range 36).any fun i => decide (115 * 16 ≤ tempOf s i) then powerOff (fatal 4#8 s) else s)

/-! ### Paddle power (R424, R425, R427) -/

/-- Every paddle instance is withdrawn, and the holding instance; one that is being moved waits for PADM like the others (R425). -/
def withdraw (s : State) : State :=
  let s := paddlesOut { s with fe := { s.fe with holdCl := [] } }
  { s with insts := s.insts.map fun i => if i.cls = 0 then { i with moving := false } else i }
/-- POWER_UPDATE: package power and each die's; what 0x218 was given since the last update takes effect (R424). -/
def powerUpdate (pkg : BitVec 16) (dies : List (BitVec 16)) (s : State) : State :=
  let heldBy (d : Nat) : Bool :=
    let p := (dies.getD d 0#16).toNat
    if 650 < p then true else if p < 620 then false else s.pwr.heldBy.getD d false
  let s := { s with pwr := { s.pwr with
      pkgpwr := pkg, diepwr := dies.foldl (fun (m x : BitVec 16) => if m.toNat < x.toNat then x else m) 0#16, heldBy := (List.range 4).map heldBy, holdOn := s.pwr.hold } }
  let s := { s with pwr := { s.pwr with
      prs := (List.range 4).map fun d => BitVec.ofNat 4 (max (s.pwr.prs.getD d 0#4).toNat (heldAt s d)) } }
  let full := s.pwr.prs.all fun x => decide (x = 0#4)
  let sp := s.pwr.setpt.toNat
  if sp = 0 ∨ sp < pkg.toNat ∨ !full then withdraw { s with pwr := { s.pwr with padm := false } }
  else if pkg.toNat + s.pwr.hyst.toNat < sp then { s with pwr := { s.pwr with padm := true } }
  else if s.pwr.padm then s else withdraw s
def execPowerUpdate (pkg : BitVec 16) (dies : List (BitVec 16)) (s : State) : Out := .next (powerUpdate pkg dies s)

/-- HOLDING_INSTANCE: on every free cluster, while no class-0 launch is ready. -/
def execHoldingInstance (s : State) : Out :=
  .next (if !s.pwr.holdOn || !s.pwr.padm || s.ft.fatal || s.pwr.dieOff then s
    else
      let r := cands s
      match r.1 with
      | none => r.2
      | some l =>
        if l.any fun x => decide (x.att.cls = 0) then r.2
        else
          let taken := takenCls r.2 (fun _ => true) (fun _ => true)
          { r.2 with fe := { r.2.fe with holdCl := (List.range 512).filter fun c => !taken.contains c } })

/-! ### Reset and bring-up (R428) -/

/-- Every reset: all work ends, keys are lost, registers take their reset values, and time starts again (R120). A reset that
keeps memory keeps its metadata; host and peer memory lie outside. Counters and log, the aperture table and the MSI-X table
outlive a warm reset (R428 does not name them; assumption 31). -/
def resetTo (cold : Bool) (s : State) : State :=
  let keep := !cold && !s.ras.inten
  let s := endAllWork (if keep then flushCaches s else clearDevice s)
  { s with
    time := 0, inbox := [], tiles := Tiles.reset,
    co := { Coh.reset with psn := s.co.psn, dirb := if keep then s.co.dirb else [], outCh := if cold then [] else s.co.outCh,
                           meta_ := if keep then s.co.meta_ else [] },
    fe := Front.reset, ft := FaultRegs.reset,
    link := { Link.reset with msix := if cold then [] else s.link.msix, sent := s.link.sent },
    fab := { Fabric.reset with apert := if cold then [] else s.fab.apert },
    ras := { Ras.reset with ctrs := if cold then Ras.reset.ctrs else s.ras.ctrs, log := if cold then [] else s.ras.log,
                            logW := if cold then 0#64 else s.ras.logW },
    pwr := Power.reset cold }
/-- WARM_RESET: a command, ignored while READY = 0 (R428). -/
def execWarmReset (s : State) : Out := .next (if s.pwr.ready then resetTo false s else s)
def execColdReset (s : State) : Out := .next (resetTo true s)
/-- MEMCAP: 192 GiB with every die and stack in service (R379). With some missing R429 reduces it and gives no formula: what the part reports, in
units of 64 KiB and at most 64 GiB for each stack that every die in service has (assumption 42). -/
def memcapOf (b : BringUp) : Nat :=
  let n := ((List.range 4).filter fun d => b.dieOk.getLsbD d).map fun d => ((List.range 3).filter fun k => b.stkOk.getLsbD (3 * d + k)).length
  if b.dieOk = 0xF#4 ∧ b.stkOk = 0xFFF#12 then 3 * 2 ^ 36
  else min (b.memcap.toNat / 65536 * 65536) (n.foldl min (if n.isEmpty then 0 else 3) * 2 ^ 36)
/-- A link that R382 lets the part train, of 16 lanes at most (Table 0.1): PCIe at up to 128 GT/s, or CXL at 64 GT/s. -/
def linkTrains (b : BringUp) : Bool :=
  decide (1 ≤ b.width.toNat ∧ b.width.toNat ≤ 16 ∧ (b.mode = 1#2 ∧ 1 ≤ b.gts.toNat ∧ b.gts.toNat ≤ 128 ∨ b.mode = 2#2 ∧ b.gts = 64#8))
/-- BRING_UP: what the self-test and the training found; READY. A link trained as no rule allows is down (assumption 42). -/
def execBringUp (b : BringUp) (s : State) : Out :=
  .next (if s.pwr.ready then s
    else
      let cap := BitVec.ofNat 64 (memcapOf b)
      let up := linkTrains b
      let dead := ((b.badCl.filter fun c => decide (c < 512)) ++ (List.range 512).filter fun c => !b.dieOk.getLsbD (dieOf c)).eraseDups
      { s with
        fe := { s.fe with dead := dead },
        link := { s.link with mode := if up then b.mode else 0#2, width := if up then b.width else 0#6, gts := if up then b.gts else 0#8,
                              memcap := cap, popul := cap },
        fab := { s.fab with up := b.ports },
        pwr := { s.pwr with ready := true, cold := s.pwr.wasCold, dieok := b.dieOk, stkok := b.stkOk,
                            clout := BitVec.ofNat 9 dead.length } })

/-! ### Host writes of registers -/

/-- THRESHOLD_WRITE, an 8-byte store of the host: whole, or not at all (R420); the dies enter and leave states by the new thresholds at once, from the
last readings (DEDUCED; assumption 34). -/
def thresholdWrite (val : W64) (s : State) : State :=
  let h := (val.extractLsb' 0 8).toNat
  let l := (val.extractLsb' 8 8).toNat
  let e := (val.extractLsb' 16 8).toNat
  if 80 ≤ h ∧ h < l ∧ l < e ∧ e ≤ 112 then
    setPressure { s with pwr := { s.pwr with half := BitVec.ofNat 8 h, light := BitVec.ofNat 8 l, easy := BitVec.ofNat 8 e } } else s
def execThresholdWrite (val : W64) (s : State) : Out := .next (hostOrder 0x4208 val (thresholdWrite val) s)

/-- Commands are accepted after bring-up, and not after a fatal error (R363, R428). -/
def accepting (s : State) : Bool := s.pwr.ready && !s.ft.fatal
/-- A write to FECMD (R335): an OP that is not listed is BADARG at once (DESIGN CHOICE; assumption 70); CTXLOAD ends the time in which INTEN may be set (R415). -/
def writeFecmd (val : W64) (s : State) : State :=
  let op : Byte := val.setWidth 8
  if !accepting s || s.fe.busy then s
  else if op = 0#8 ∨ 8 < op.toNat then feDone feBADARG 0 s
  else { s with fe := { s.fe with busy := true, cmd := op, cur0 := s.fe.arg0, cur1 := s.fe.arg1, res := 0#64, loaded := s.fe.loaded || decide (op = 1#8) } }
/-- A write to FTCMD (R356). -/
def writeFtcmd (val : W64) (s : State) : State :=
  let op : Byte := val.setWidth 8
  if !accepting s || s.ft.busy then s
  else if op = 1#8 ∧ s.ft.arg0.extractLsb' 62 2 ≠ 3#2 ∨ op = 2#8 then
    { s with ft := { s.ft with busy := true, cmd := op, res := 0#64 } }
  else ftDone 1#8 0#64 s
/-- A write to KCMD (R414). -/
def writeKcmd (val : W64) (s : State) : State :=
  let c : BitVec 2 := val.setWidth 2
  if accepting s && decide (c = 1#2 ∨ c = 2#2) then { s with ras := { s.ras with kbusy := true, kcmd := c } } else s
def writeNode (val : W64) (s : State) : State :=
  { s with fab := { s.fab with
      nv := s.fab.nv || val.getLsbD 63, lsin := val.getLsbD 62, bulkin := val.getLsbD 61,
      nodeid := if s.fab.nv then s.fab.nodeid else val.setWidth 20 } }
/-- Table 22.1's 0x218, which takes effect at the next update (R424), but HOLD written 0 withdraws the holding instance at once (R427). -/
def writeHold (val : W64) (s : State) : State :=
  let h := val.getLsbD 63
  { s with pwr := { s.pwr with hold := h, holdOn := s.pwr.holdOn && h, setpt := val.extractLsb' 16 16, hyst := val.setWidth 16 },
           fe := { s.fe with holdCl := if h then s.fe.holdCl else [] } }
/-- KSEL and INTEN, which is writable until the first CTXLOAD (R415). Setting it keeps KBUSY at 1 until INTEN has been carried out; clearing it
gives the carve-out back (assumption 62). While READY reads 0, and after a fatal error, INTEN is taken for a command and not written, and KSEL is
(the model's choice: R428, R363 and R415 do not say; assumption 43). -/
def writeKsel (val : W64) (s : State) : State :=
  let s := { s with ras := { s.ras with ksel := val.setWidth 8 } }
  if !accepting s || s.fe.loaded then s
  else if val.getLsbD 8 then (if s.ras.inten then s else { s with ras := { s.ras with inten := true, kbusy := true, kcmd := 3#2 } })
  else { s with ras := { s.ras with inten := false }, link := { s.link with memcap := s.link.popul } }
def outState (o : Out) (s : State) : State :=
  match o with
  | .next t => t
  | _ => s
def writeMsix (off : Nat) (val : W64) (s : State) : State :=
  let k := (off - 0x8000) / 8
  sendPending (k / 2) { s with link := { s.link with msix := assocSet s.link.msix k val } }
/-- The writable fields of an aperture entry (Table 19.5). -/
def writeApert (off : Nat) (val : W64) (s : State) : State :=
  { s with fab := { s.fab with apert := assocSet s.fab.apert ((off - 0x20000) / 8) (val &&& 0xC0FF0000000FFFFF#64) } }
/-- Registers of the power block (Table 22.1). -/
def writePower (off : Nat) (val : W64) (s : State) : State :=
  if off = 0x4208 then thresholdWrite val s
  else if off = 0x4218 then writeHold val s
  else if off = 0x4228 then (if val.setWidth 8 = 0x5A#8 then outState (execWarmReset s) s else s)
  else s
/-- Registers of the key block (Table 21.3); none is written while KBUSY is set. -/
def writeKeys (off : Nat) (val : W64) (s : State) : State :=
  if s.ras.kbusy then s
  else if off = 0x3C00 then writeKsel val s
  else if 0x3C08 ≤ off ∧ off ≤ 0x3C20 then { s with ras := { s.ras with kdata := s.ras.kdata.set ((off - 0x3C08) / 8) val } }
  else if off = 0x3C28 then writeKcmd val s
  else s
/-- Command and argument registers (Tables 15.9, 16.8). -/
def writeCmd (off : Nat) (val : W64) (s : State) : State :=
  if off = 0x1000 then writeFecmd val s
  else if off = 0x1008 then { s with fe := { s.fe with arg0 := val } }
  else if off = 0x1010 then { s with fe := { s.fe with arg1 := val } }
  else if off = 0x2000 then writeFtcmd val s
  else if s.ft.busy then s
  else if off = 0x2008 then { s with ft := { s.ft with arg0 := val } }
  else if off = 0x2010 then { s with ft := { s.ft with arg1 := val } }
  else s
/-- An 8-byte host write at an offset of REGBAR (Table 19.2). Registers with a row of their own act as that
row; offsets that no row names, and read-only ones, ignore it. -/
def registerWrite (off : Nat) (val : W64) (s : State) : State :=
  if off % 8 ≠ 0 then s
  else if off = 0x18 then writeNode val s
  else if off = 0x20 then { s with link := { s.link with fatVec := val.setWidth 16 } }
  else if 0x1000 ≤ off ∧ off < 0x3000 then writeCmd off val s
  else if 0x3000 ≤ off ∧ off < 0x3038 then counterWrite (off - 0x3000) val s
  else if 0x3C00 ≤ off ∧ off < 0x4000 then writeKeys off val s
  else if 0x4000 ≤ off ∧ off < 0x5000 then writePower off val s
  else if 0x8000 ≤ off ∧ off < 0x10000 then writeMsix off val s
  else if 0x20000 ≤ off ∧ off < 0x24000 then writeApert off val s
  else if 0x100000 ≤ off ∧ off < 0x1A0000 then doorbellStore off val none s
  else s
/-- REGISTER_WRITE, in its turn. -/
def execRegisterWrite (off : Nat) (val : W64) (s : State) : Out := .next (hostOrder off val (registerWrite off val) s)

/-! ### Host reads of registers -/

/-- The capabilities that configuration space lists (R383). -/
inductive Capab where
  | msix | aer | cxlDvsec
  deriving DecidableEq, Repr
/-- A base address register pair: its size in bytes and whether it is prefetchable. -/
structure BarPair where
  size : Nat
  pref : Bool
  deriving DecidableEq, Repr
/-- Configuration space as R383 gives it. -/
structure ConfigSpace where
  vendor : BitVec 16
  device : BitVec 16
  cls    : BitVec 24
  header : Byte
  bars   : List BarPair
  hdm    : Nat
  caps   : List Capab
  deriving DecidableEq, Repr
/-- The Type 0 header, the two BAR pairs (REGBAR, MEMBAR), the range of the HDM decoder in CXL mode, and the capabilities. -/
def configSpace (s : State) : ConfigSpace :=
  let cxl := decide (s.link.mode = 2#2)
  { vendor := 0x1F4E#16, device := 0x0768#16, cls := 0x120000#24, header := 0#8,
    bars := [{ size := 2 ^ 26, pref := false }, { size := 2 ^ 40, pref := true }], hdm := if cxl then 2 ^ 40 else 0,
    caps := [.msix, .aer] ++ if cxl then [.cxlDvsec] else [] }
/-- Base address register k as sizing finds it, all its address bits set: a pair implements the address bits from its size up, type 64-bit in
[2:1] and the prefetchable bit [3]; the other registers read as zero (R383; the register's own bits as PCI Express has them, assumption 10). -/
def barSizing (s : State) (k : Nat) : W32 :=
  match (configSpace s).bars[k / 2]? with
  | none => 0#32
  | some b =>
    let m : W64 := BitVec.ofNat 64 (2 ^ 64 - b.size)
    if k % 2 = 0 then m.setWidth 32 ||| 4#32 ||| (if b.pref then 8#32 else 0#32) else m.extractLsb' 32 32

/-- A register's value as the host reads it; write-only fields and offsets that no row names read as zero (R384). -/
def readIdent (off : Nat) (s : State) : W64 :=
  let b (x : Bool) : BitVec 1 := BitVec.ofBool x
  match off with
  | 0x00 => 0x0768#16 ++ Config.stepping ++ (if s.pwr.ready then s.pwr.dieok else 0xF#4) ++ 0#36
  | 0x08 => s.link.memcap
  | 0x10 => s.link.mode ++ s.link.width ++ s.link.gts ++ b s.link.cache ++ b s.link.mem ++ 0#46
  | 0x18 => b s.fab.nv ++ b s.fab.lsin ++ b s.fab.bulkin ++ 0#41 ++ s.fab.nodeid
  | 0x20 => 0#48 ++ s.link.fatVec
  | 0x28 => s.fab.up.setWidth 64
  | 0x30 => (s.fab.up >>> 64).setWidth 64
  | _ => 0#64
def readCmd (off : Nat) (s : State) : W64 :=
  let b (x : Bool) : BitVec 1 := BitVec.ofBool x
  match off with
  | 0x1008 => s.fe.arg0
  | 0x1010 => s.fe.arg1
  | 0x1018 => b s.fe.busy ++ 0#55 ++ s.fe.stat
  | 0x1020 => s.fe.res
  | 0x2008 => s.ft.arg0
  | 0x2010 => s.ft.arg1
  | 0x2018 => b s.ft.busy ++ 0#55 ++ s.ft.stat
  | 0x2020 => s.ft.res
  | 0x2028 => b s.ft.fatal ++ 0#55 ++ s.ft.fcause
  | _ => 0#64
/-- Word k of a log entry (Table 21.2). -/
def logWord (e : LogEnt) (k : Nat) : W64 :=
  if k = 1 then e.time else if k = 2 then e.pa else if k = 3 then e.ctr ++ e.die ++ e.unit ++ 0#42 else 0#64
def readRas (off : Nat) (s : State) : W64 :=
  if off < 0x3038 then s.ras.ctrs.getD ((off - 0x3000) / 8 * 2) 0#32 ++ s.ras.ctrs.getD ((off - 0x3000) / 8 * 2 + 1) 0#32
  else if off = 0x3100 then s.ras.logW
  else if 0x3200 ≤ off ∧ off < 0x3A00 then
    ((s.ras.log[(off - 0x3200) / 32]?).map fun e => logWord e ((off - 0x3200) % 32 / 8)).getD 0#64
  else if off = 0x3C00 then 0#55 ++ BitVec.ofBool s.ras.inten ++ s.ras.ksel
  else if off = 0x3C30 then BitVec.ofBool s.ras.kbusy ++ 0#55 ++ s.ras.kstat
  else 0#64
/-- A list of small fields, the first lowest. -/
def packFields {w : Nat} (n : Nat) (l : List (BitVec w)) : BitVec n :=
  l.foldr (fun x acc => (acc <<< w) ||| x.setWidth n) 0#n
def readPower (off : Nat) (s : State) : W64 :=
  let b (x : Bool) : BitVec 1 := BitVec.ofBool x
  if off < 0x4180 then
    let x := s.pwr.sensors.getD ((off - 0x4000) / 8) (false, 0#16)
    b x.1 ++ 0#47 ++ x.2
  else if off = 0x4200 then 0#16 ++ packFields 24 s.pwr.refr ++ 0#8 ++ packFields 16 s.pwr.prs
  else if off = 0x4208 then 0#40 ++ s.pwr.easy ++ s.pwr.light ++ s.pwr.half
  else if off = 0x4210 then b s.pwr.padm ++ 0#31 ++ s.pwr.pkgpwr ++ s.pwr.diepwr
  else if off = 0x4218 then b s.pwr.hold ++ 0#31 ++ s.pwr.setpt ++ s.pwr.hyst
  else if off = 0x4220 then b s.pwr.ready ++ b s.pwr.cold ++ 0#6 ++ s.pwr.dieok ++ s.pwr.stkok ++ 0#15 ++ s.pwr.clout ++ 0#16
  else 0#64
/-- Doubleword k of the pending-bit array (Table 19.2). -/
def pbaWord (s : State) (k : Nat) : W64 :=
  s.link.pba.foldl (fun m v => if v / 64 = k then m ||| (1#64 <<< (v % 64)) else m) 0#64
/-- An 8-byte host read at an offset of REGBAR. -/
def registerRead (off : Nat) (s : State) : W64 :=
  if off % 8 ≠ 0 then 0#64
  else if off < 0x1000 then readIdent off s
  else if off < 0x3000 then readCmd off s
  else if off < 0x4000 then readRas off s
  else if off < 0x5000 then readPower off s
  else if 0x8000 ≤ off ∧ off < 0x10000 then
    (if off % 16 = 0 then msixLo s ((off - 0x8000) / 16) else msixHi s ((off - 0x8000) / 16))
  else if 0x10000 ≤ off ∧ off < 0x10100 then pbaWord s ((off - 0x10000) / 8)
  else if 0x20000 ≤ off ∧ off < 0x24000 then assocGet 0#64 s.fab.apert ((off - 0x20000) / 8)
  else 0#64

/-! ### Host accesses (R384, R388, R391, R392) -/

/-- A host access of REGBAR that has waited for its turn: an 8-byte store acts as REGISTER_WRITE, an 8-byte read gives the register's value. -/
def hostRegister (a : HostAcc) (s : State) : State :=
  let off := a.pa - mmioBase
  if a.len ≠ 8 then s
  else
    match a.wr with
    | some bs => registerWrite off (BitVec.ofNat 64 (natOfBytes (bs.take 8))) s
    | none => tellHost (.data a.pa ((bytesOfNat (registerRead off s).toNat 8).map fun b => (b, false))) s
/-- HOST_ACCESS: of memory, or of a register, in its turn (R392). -/
def execHostAccess (a : HostAcc) (s : State) : Out :=
  .next (if !isMmio a.pa then hostMemory a s
    else if !hostUp s then leaveInbox (.hostAccess a) s
    else if !hostTurn a s then waitInbox (.hostAccess a) s
    else hostRegister a (leaveInbox (.hostAccess a) s))

end Sys2Proof.Machine
end

