-- ==== Sys2Proof/Machine/Dispatch.lean ====
section
/-! DEFINITION. What every instruction does: one arm per row of the opcode table. -/
namespace Sys2Proof.Machine

def exec (i : Instr) (s : State) : Host.Outcome State Fault Refusal :=
  match i with
  | .pass r => Sys2Proof.Machine.execPass r s
  | .const val tgts => Sys2Proof.Machine.execConst val tgts s
  | .steerT r => Sys2Proof.Machine.execSteerT r s
  | .steerF r => Sys2Proof.Machine.execSteerF r s
  | .select r => Sys2Proof.Machine.execSelect r s
  | .waveAdv r => Sys2Proof.Machine.execWaveAdv r s
  | .waveSet r => Sys2Proof.Machine.execWaveSet r s
  | .loopGate r => Sys2Proof.Machine.execLoopGate r s
  | .loopOpen r k => Sys2Proof.Machine.execLoopOpen r k s
  | .loopClose r => Sys2Proof.Machine.execLoopClose r s
  | .spawn r => Sys2Proof.Machine.execSpawn r s
  | .tagGet r => Sys2Proof.Machine.execTagGet r s
  | .tagSet r => Sys2Proof.Machine.execTagSet r s
  | .tagThr r => Sys2Proof.Machine.execTagThr r s
  | .tagWav r => Sys2Proof.Machine.execTagWav r s
  | .call r => Sys2Proof.Machine.execCall r s
  | .ret r => Sys2Proof.Machine.execRet r s
  | .sinkDrop => Sys2Proof.Machine.execSinkDrop s
  | .sinkEos => Sys2Proof.Machine.execSinkEos s
  | .sinkCount => Sys2Proof.Machine.execSinkCount s
  | .eosMake r => Sys2Proof.Machine.execEosMake r s
  | .errTest r => Sys2Proof.Machine.execErrTest r s
  | .errClear r => Sys2Proof.Machine.execErrClear r s
  | .errMake r code => Sys2Proof.Machine.execErrMake r code s
  | .sysTrap code tgts => Sys2Proof.Machine.execSysTrap code tgts s
  | .sysBrk code tgts => Sys2Proof.Machine.execSysBrk code tgts s
  | .sysQry sel tgts => Sys2Proof.Machine.execSysQry sel tgts s
  | .sysClk tgts => Sys2Proof.Machine.execSysClk tgts s
  | .add r => Sys2Proof.Machine.execAdd r s
  | .sub r => Sys2Proof.Machine.execSub r s
  | .mulLo r => Sys2Proof.Machine.execMulLo r s
  | .mulHis r => Sys2Proof.Machine.execMulHis r s
  | .mulHiu r => Sys2Proof.Machine.execMulHiu r s
  | .divS r => Sys2Proof.Machine.execDivS r s
  | .divU r => Sys2Proof.Machine.execDivU r s
  | .remS r => Sys2Proof.Machine.execRemS r s
  | .remU r => Sys2Proof.Machine.execRemU r s
  | .and r => Sys2Proof.Machine.execAnd r s
  | .or r => Sys2Proof.Machine.execOr r s
  | .xor r => Sys2Proof.Machine.execXor r s
  | .andn r => Sys2Proof.Machine.execAndn r s
  | .shl r => Sys2Proof.Machine.execShl r s
  | .shrL r => Sys2Proof.Machine.execShrL r s
  | .shrA r => Sys2Proof.Machine.execShrA r s
  | .rotL r => Sys2Proof.Machine.execRotL r s
  | .rotR r => Sys2Proof.Machine.execRotR r s
  | .bcntClz r => Sys2Proof.Machine.execBcntClz r s
  | .bcntCtz r => Sys2Proof.Machine.execBcntCtz r s
  | .bcntPopc r => Sys2Proof.Machine.execBcntPopc r s
  | .minS r => Sys2Proof.Machine.execMinS r s
  | .minU r => Sys2Proof.Machine.execMinU r s
  | .maxS r => Sys2Proof.Machine.execMaxS r s
  | .maxU r => Sys2Proof.Machine.execMaxU r s
  | .abs r => Sys2Proof.Machine.execAbs r s
  | .cmp rel r => Sys2Proof.Machine.execCmp rel r s
  | .ext fn r => Sys2Proof.Machine.execExt fn r s
  | .bfx r => Sys2Proof.Machine.execBfx r s
  | .bfi r => Sys2Proof.Machine.execBfi r s
  | .lea sh r => Sys2Proof.Machine.execLea sh r s
  | .addsS r => Sys2Proof.Machine.execAddsS r s
  | .addsU r => Sys2Proof.Machine.execAddsU r s
  | .mula r => Sys2Proof.Machine.execMula r s
  | .fadd r => Sys2Proof.Machine.execFadd r s
  | .fsub r => Sys2Proof.Machine.execFsub r s
  | .fmul r => Sys2Proof.Machine.execFmul r s
  | .fma fn r => Sys2Proof.Machine.execFma fn r s
  | .fdiv r => Sys2Proof.Machine.execFdiv r s
  | .fsqrt r => Sys2Proof.Machine.execFsqrt r s
  | .frcp r => Sys2Proof.Machine.execFrcp r s
  | .frsq r => Sys2Proof.Machine.execFrsq r s
  | .fexp2 r => Sys2Proof.Machine.execFexp2 r s
  | .flog2 r => Sys2Proof.Machine.execFlog2 r s
  | .fminNum r => Sys2Proof.Machine.execFminNum r s
  | .fminIeee r => Sys2Proof.Machine.execFminIeee r s
  | .fmaxNum r => Sys2Proof.Machine.execFmaxNum r s
  | .fmaxIeee r => Sys2Proof.Machine.execFmaxIeee r s
  | .fabs r => Sys2Proof.Machine.execFabs r s
  | .fneg r => Sys2Proof.Machine.execFneg r s
  | .fcps r => Sys2Proof.Machine.execFcps r s
  | .fcmp rel r => Sys2Proof.Machine.execFcmp rel r s
  | .fcls r => Sys2Proof.Machine.execFcls r s
  | .fcvtFf dst r => Sys2Proof.Machine.execFcvtFf dst r s
  | .fcvtFi r => Sys2Proof.Machine.execFcvtFi r s
  | .fcvtFiu r => Sys2Proof.Machine.execFcvtFiu r s
  | .fcvtIf dst r => Sys2Proof.Machine.execFcvtIf dst r s
  | .fcvtIuf dst r => Sys2Proof.Machine.execFcvtIuf dst r s
  | .frnd dir r => Sys2Proof.Machine.execFrnd dir r s
  | .fscl r => Sys2Proof.Machine.execFscl r s
  | .fxp r => Sys2Proof.Machine.execFxp r s
  | .vbcast r => Sys2Proof.Machine.execVbcast r s
  | .vlaneGet r => Sys2Proof.Machine.execVlaneGet r s
  | .vlanePut r => Sys2Proof.Machine.execVlanePut r s
  | .vshuf pat r => Sys2Proof.Machine.execVshuf pat r s
  | .vperm r => Sys2Proof.Machine.execVperm r s
  | .vredAdd r => Sys2Proof.Machine.execVredAdd r s
  | .vredMax r => Sys2Proof.Machine.execVredMax r s
  | .vredMin r => Sys2Proof.Machine.execVredMin r s
  | .vredAmax r => Sys2Proof.Machine.execVredAmax r s
  | .vscan r => Sys2Proof.Machine.execVscan r s
  | .vmask r => Sys2Proof.Machine.execVmask r s
  | .vsel r => Sys2Proof.Machine.execVsel r s
  | .vpack dst r => Sys2Proof.Machine.execVpack dst r s
  | .vunpk dst hi r => Sys2Proof.Machine.execVunpk dst hi r s
  | .vbexp scl r => Sys2Proof.Machine.execVbexp scl r s
  | .vqnt dst r => Sys2Proof.Machine.execVqnt dst r s
  | .vdqnt dst r => Sys2Proof.Machine.execVdqnt dst r s
  | .vdot r => Sys2Proof.Machine.execVdot r s
  | .ld r => Sys2Proof.Machine.execLd r s
  | .st r => Sys2Proof.Machine.execSt r s
  | .ldx r => Sys2Proof.Machine.execLdx r s
  | .stx r => Sys2Proof.Machine.execStx r s
  | .mnop r => Sys2Proof.Machine.execMnop r s
  | .pf r => Sys2Proof.Machine.execPf r s
  | .amo fn r => Sys2Proof.Machine.execAmo fn r s
  | .cas r => Sys2Proof.Machine.execCas r s
  | .red fn r => Sys2Proof.Machine.execRed fn r s
  | .xred r => Sys2Proof.Machine.execXred r s
  | .xrd r => Sys2Proof.Machine.execXrd r s
  | .fenceAcq r => Sys2Proof.Machine.execFenceAcq r s
  | .fenceRel r => Sys2Proof.Machine.execFenceRel r s
  | .fenceAr r => Sys2Proof.Machine.execFenceAr r s
  | .fenceSc r => Sys2Proof.Machine.execFenceSc r s
  | .own r => Sys2Proof.Machine.execOwn r s
  | .invRegion r => Sys2Proof.Machine.execInvRegion r s
  | .invAll r => Sys2Proof.Machine.execInvAll r s
  | .wbk r => Sys2Proof.Machine.execWbk r s
  | .ftset r => Sys2Proof.Machine.execFtset r s
  | .ftget fs tgts => Sys2Proof.Machine.execFtget fs tgts s
  | .ftsync fs r => Sys2Proof.Machine.execFtsync fs r s
  | .tld h tgts => Sys2Proof.Machine.execTld h tgts s
  | .tldAcc h tgts => Sys2Proof.Machine.execTldAcc h tgts s
  | .tst h tgts => Sys2Proof.Machine.execTst h tgts s
  | .tstAcc h tgts => Sys2Proof.Machine.execTstAcc h tgts s
  | .tzero h tgts => Sys2Proof.Machine.execTzero h tgts s
  | .tzeroAcc h tgts => Sys2Proof.Machine.execTzeroAcc h tgts s
  | .tempty h tgts => Sys2Proof.Machine.execTempty h tgts s
  | .tcvt src dst tgts => Sys2Proof.Machine.execTcvt src dst tgts s
  | .ttrn src dst tgts => Sys2Proof.Machine.execTtrn src dst tgts s
  | .tdesc h tgts => Sys2Proof.Machine.execTdesc h tgts s
  | .tqry h tgts => Sys2Proof.Machine.execTqry h tgts s
  | .tqryAcc h tgts => Sys2Proof.Machine.execTqryAcc h tgts s
  | .mmaDense m => Sys2Proof.Machine.execMmaDense m s
  | .mmaAcca fs clmp psh m => Sys2Proof.Machine.execMmaAcca fs clmp psh m s
  | .mmaMx sa sb m => Sys2Proof.Machine.execMmaMx sa sb m s
  | .mmaTwo ba bb sa sb m => Sys2Proof.Machine.execMmaTwo ba bb sa sb m s
  | .isect tgts => Sys2Proof.Machine.execIsect tgts s
  | .sstrm fs tgts => Sys2Proof.Machine.execSstrm fs tgts s
  | .spacc h tgts => Sys2Proof.Machine.execSpacc h tgts s
  | .xcopy r => Sys2Proof.Machine.execXcopy r s
  | .xgath r => Sys2Proof.Machine.execXgath r s
  | .xscat r => Sys2Proof.Machine.execXscat r s
  | .xtile r => Sys2Proof.Machine.execXtile r s
  | .xfill r => Sys2Proof.Machine.execXfill r s
  | .xacc r => Sys2Proof.Machine.execXacc r s
  | .tokenArrival n => Sys2Proof.Machine.execTokenArrival n s
  | .refill inst pl tag => Sys2Proof.Machine.execRefill inst pl tag s
  | .ageOverride cl pe => Sys2Proof.Machine.execAgeOverride cl pe s
  | .cwCopyUpdate inst cl pe thr => Sys2Proof.Machine.execCwCopyUpdate inst cl pe thr s
  | .orderedRequest op => Sys2Proof.Machine.execOrderedRequest op s
  | .unorderedRequest op => Sys2Proof.Machine.execUnorderedRequest op s
  | .dataReturn r => Sys2Proof.Machine.execDataReturn r s
  | .releasePerformed op => Sys2Proof.Machine.execReleasePerformed op s
  | .handOff op => Sys2Proof.Machine.execHandOff op s
  | .return_ op => Sys2Proof.Machine.execReturn op s
  | .divideComplete op => Sys2Proof.Machine.execDivideComplete op s
  | .iterativeFloatComplete op => Sys2Proof.Machine.execIterativeFloatComplete op s
  | .ftsetPerformed op => Sys2Proof.Machine.execFtsetPerformed op s
  | .probe inst => Sys2Proof.Machine.execProbe inst s
  | .registration n => Sys2Proof.Machine.execRegistration n s
  | .grant n => Sys2Proof.Machine.execGrant n s
  | .revoke n => Sys2Proof.Machine.execRevoke n s
  | .recall n => Sys2Proof.Machine.execRecall n s
  | .writeBack n => Sys2Proof.Machine.execWriteBack n s
  | .homeRead n => Sys2Proof.Machine.execHomeRead n s
  | .forwardedRead n => Sys2Proof.Machine.execForwardedRead n s
  | .l1Eviction cl line => Sys2Proof.Machine.execL1Eviction cl line s
  | .l2Eviction line => Sys2Proof.Machine.execL2Eviction line s
  | .rdcEviction die sector => Sys2Proof.Machine.execRdcEviction die sector s
  | .ownerLost cl sector => Sys2Proof.Machine.execOwnerLost cl sector s
  | .directoryRequest n => Sys2Proof.Machine.execDirectoryRequest n s
  | .directoryInvalidate n => Sys2Proof.Machine.execDirectoryInvalidate n s
  | .sectorError at_ sector => Sys2Proof.Machine.execSectorError at_ sector s
  | .snoopFilterEviction sector => Sys2Proof.Machine.execSnoopFilterEviction sector s
  | .snpData die sector => Sys2Proof.Machine.execSnpData die sector s
  | .snpInv die sector => Sys2Proof.Machine.execSnpInv die sector s
  | .snpCur die sector => Sys2Proof.Machine.execSnpCur die sector s
  | .go die sector st data => Sys2Proof.Machine.execGo die sector st data s
  | .hostAccess a => Sys2Proof.Machine.execHostAccess a s
  | .bisnpResponse sector dirty => Sys2Proof.Machine.execBisnpResponse sector dirty s
  | .flitCrcFailure port n => Sys2Proof.Machine.execFlitCrcFailure port n s
  | .replay port => Sys2Proof.Machine.execReplay port s
  | .retrain port ok => Sys2Proof.Machine.execRetrain port ok s
  | .portDown port => Sys2Proof.Machine.execPortDown port s
  | .pathTimeout node => Sys2Proof.Machine.execPathTimeout node s
  | .inboundAccess a => Sys2Proof.Machine.execInboundAccess a s
  | .refusal id => Sys2Proof.Machine.execRefusal id s
  | .hbmRead sector o => Sys2Proof.Machine.execHbmRead sector o s
  | .channelRetrain sector wr ok => Sys2Proof.Machine.execChannelRetrain sector wr ok s
  | .directoryByteError sector corrected => Sys2Proof.Machine.execDirectoryByteError sector corrected s
  | .kick q bytes => Sys2Proof.Machine.execKick q bytes s
  | .packetConsume q => Sys2Proof.Machine.execPacketConsume q s
  | .signalRecheck launch => Sys2Proof.Machine.execSignalRecheck launch s
  | .placement launch => Sys2Proof.Machine.execPlacement launch s
  | .triggerStore off val bytes by_ => Sys2Proof.Machine.execTriggerStore off val bytes by_ s
  | .run ctx trig => Sys2Proof.Machine.execRun ctx trig s
  | .preemption launch => Sys2Proof.Machine.execPreemption launch s
  | .compaction launch => Sys2Proof.Machine.execCompaction launch s
  | .faultEntryWrite ctx => Sys2Proof.Machine.execFaultEntryWrite ctx s
  | .faultEntryRetry ctx => Sys2Proof.Machine.execFaultEntryRetry ctx s
  | .admission x => Sys2Proof.Machine.execAdmission x s
  | .engineTake x => Sys2Proof.Machine.execEngineTake x s
  | .claim x => Sys2Proof.Machine.execClaim x s
  | .transferChunk x => Sys2Proof.Machine.execTransferChunk x s
  | .transferComplete x => Sys2Proof.Machine.execTransferComplete x s
  | .tileCompletion op => Sys2Proof.Machine.execTileCompletion op s
  | .mmaStart cl => Sys2Proof.Machine.execMmaStart cl s
  | .mmaComplete cl => Sys2Proof.Machine.execMmaComplete cl s
  | .sstrmToken op => Sys2Proof.Machine.execSstrmToken op s
  | .sweep inst => Sys2Proof.Machine.execSweep inst s
  | .marker inst node k => Sys2Proof.Machine.execMarker inst node k s
  | .restore inst => Sys2Proof.Machine.execRestore inst s
  | .sensorSample temps => Sys2Proof.Machine.execSensorSample temps s
  | .powerUpdate pkg dies => Sys2Proof.Machine.execPowerUpdate pkg dies s
  | .fatalError cause => Sys2Proof.Machine.execFatalError cause s
  | .bringUp b => Sys2Proof.Machine.execBringUp b s
  | .thresholdWrite val => Sys2Proof.Machine.execThresholdWrite val s
  | .counterWrite off val => Sys2Proof.Machine.execCounterWrite off val s
  | .registerWrite off val => Sys2Proof.Machine.execRegisterWrite off val s
  | .revokeAnswer n => Sys2Proof.Machine.execRevokeAnswer n s
  | .returnedSector n => Sys2Proof.Machine.execReturnedSector n s
  | .cacheClear => Sys2Proof.Machine.execCacheClear s
  | .cacheSet => Sys2Proof.Machine.execCacheSet s
  | .memClear => Sys2Proof.Machine.execMemClear s
  | .memSet => Sys2Proof.Machine.execMemSet s
  | .ctxload => Sys2Proof.Machine.execCtxload s
  | .ctxdrop => Sys2Proof.Machine.execCtxdrop s
  | .qmap => Sys2Proof.Machine.execQmap s
  | .qunmap => Sys2Proof.Machine.execQunmap s
  | .ctxfmt => Sys2Proof.Machine.execCtxfmt s
  | .instend => Sys2Proof.Machine.execInstend s
  | .cloff => Sys2Proof.Machine.execCloff s
  | .clon => Sys2Proof.Machine.execClon s
  | .resumeReplay => Sys2Proof.Machine.execResumeReplay s
  | .resumeFail => Sys2Proof.Machine.execResumeFail s
  | .resumeReply => Sys2Proof.Machine.execResumeReply s
  | .shoot => Sys2Proof.Machine.execShoot s
  | .shootdownComplete => Sys2Proof.Machine.execShootdownComplete s
  | .holdingInstance => Sys2Proof.Machine.execHoldingInstance s
  | .kcmdLoad => Sys2Proof.Machine.execKcmdLoad s
  | .kcmdClear => Sys2Proof.Machine.execKcmdClear s
  | .inten => Sys2Proof.Machine.execInten s
  | .warmReset => Sys2Proof.Machine.execWarmReset s
  | .coldReset => Sys2Proof.Machine.execColdReset s
  | .hostLinkDown => Sys2Proof.Machine.execHostLinkDown s

end Sys2Proof.Machine
end

