-- ==== Sys2Proof/Machine/Schedule.lean ====
section
/-! DEFINITION. What moves next when nothing outside says so (assumption 3): the steps that something in the machine waits
for, and one of them that changes the state. -/
namespace Sys2Proof.Machine

/-- The step that delivers or retries a message. -/
def msgEvent (n : Nat) (m : Msg) : Instr :=
  match m.body with
  | .reg _ => .registration n
  | .grant _ => .grant n
  | .revoke _ => .revoke n
  | .answer _ _ => .revokeAnswer n
  | .recall _ => .recall n
  | .wb _ => .writeBack n
  | .read _ _ _ => .homeRead n
  | .fwd _ _ _ _ => .forwardedRead n
  | .fill _ _ => .dataReturn (.msg n)
  | .dreq _ => .directoryRequest n
  | .inval | .share => .directoryInvalidate n
  | .dret _ _ _ => .returnedSector n
  | .dgrant _ _ _ => .dataReturn (.msg n)
def msgEvents (s : State) : List Instr :=
  (List.range s.co.msgs.length).filterMap fun n => (s.co.msgs[n]?).map (msgEvent n)

/-- The step in which an operation goes on. -/
def opEvent (o : Op) : List Instr :=
  let go : List Instr :=
    if isTileMem o.ins then [.dataReturn (.op o.id), .tileCompletion o.id]
    else if isStream o.ins then [.dataReturn (.op o.id), .sstrmToken o.id]
    else [.dataReturn (.op o.id)]
  match o.ph with
  | .wouNet | .wouOut | .wouPend => [.orderedRequest o.id]
  | .release => [.releasePerformed o.id]
  | .l1Net => [.unorderedRequest o.id]
  | .miss | .home | .peer | .done | .sync => go
  | .divide => [.divideComplete o.id]
  | .iter => [.iterativeFloatComplete o.id]
  | .ftset => [.ftsetPerformed o.id]
  | .callHold => [.handOff o.id]
  | .retHold => [.return_ o.id]
  | .tile => [.tileCompletion o.id]
  | .mmaQ => [.mmaStart o.cl]
  | .mmaRun => [.mmaComplete o.cl]
  | .stream => [.sstrmToken o.id]
  | .parked _ | .acks | .trap _ => []

/-- The step in which a transfer goes on. -/
def xferEvent (x : Xfer) : List Instr :=
  match x.ph with
  | .port => [.admission x.id]
  | .admitted => [.engineTake x.id]
  | .claim => [.claim x.id]
  | .running => [.transferChunk x.id]
  | .finish => [.transferComplete x.id]
  | .again _ _ => [.admission x.id]
  | .parked _ => []

/-- Steps of an instance's matching stores and of its sweep. -/
def instEvents (i : Inst) : List Instr :=
  ((i.sets.filter (·.spilled)).map fun x => .refill i.iid x.place x.tag) ++
  ((readySets i).map fun x => .ageOverride (instCl i x.place) x.place.pe) ++
  ((i.sets.filter fun x => decide (baseOf i x.place x.tag.thr ≠ (getThr i x.tag.thr).cw)).map fun x =>
    .cwCopyUpdate i.iid (rowIdx i x.place) x.place.pe x.tag.thr) ++
  (match i.phase with
   | .running => []
   | .saved => [.restore i.iid]
   | .sweeping ns _ =>
     (ns.flatMap fun n => (List.range (i.w * i.h)).map fun k => .marker i.iid n k) ++ [.sweep i.iid])

/-- The front end's own steps and the commands in progress. -/
def frontEvents (s : State) : List Instr :=
  (if s.fe.busy then
    (match s.fe.cmd.toNat with
     | 1 => [.ctxload]
     | 2 => [.ctxdrop]
     | 3 => [.qmap]
     | 4 => [.qunmap]
     | 5 => [.ctxfmt]
     | 6 => [.instend]
     | 7 => [.cloff]
     | _ => [.clon])
   else []) ++
  (if s.ft.busy then [.resumeReplay, .resumeFail, .resumeReply, .shoot, .shootdownComplete] else []) ++
  (if s.ras.kbusy then [.kcmdLoad, .kcmdClear, .inten] else []) ++
  (s.fe.ctxs.filter fun c => !c.held.isEmpty).flatMap (fun c => [.faultEntryWrite c.handle, .faultEntryRetry c.handle]) ++
  (s.fe.queues.filter fun q => !q.halted).map (fun q => .packetConsume q.q) ++
  s.fe.launches.flatMap (fun l => [.signalRecheck l.id, .placement l.id, .preemption l.id, .compaction l.id]) ++
  s.fe.resident.flatMap (fun r => [.run r.ctx r.trig, .preemption (runNo r.ctx r.trig), .compaction (runNo r.ctx r.trig)])

/-- Replays and lost paths of the fabric. -/
def fabricEvents (s : State) : List Instr :=
  s.fab.fails.map (fun f => .replay f.1) ++ s.fab.asked.map (fun p => .replay p) ++ s.fab.cut.map fun c => .pathTimeout c.1

/-- Evictions for want of room (R206; assumption 58): lines of an RDC that is full. -/
def roomEvents (s : State) : List Instr :=
  (if s.co.rdc.length + s.co.reg.length < 262144 then []
   else (List.range 4).flatMap fun d =>
    let l := rdcLines s d
    if l.length < 262144 then [] else (l.take 16).flatMap fun a => (sectorsOfLine a).map fun x => .rdcEviction d x)

/-- A record fires, or a step takes place; a record is no step, and nothing happens. -/
def runPick (p : Pick) (s : State) : Out :=
  match p with
  | .fire cl pe =>
    (match fetch s cl pe with
     | some (i, t) => exec i t
     | none => if undecodableAt s cl pe then .fault .badRecord else .next s)
  | .event i => if (shape i).isNone then exec i s else .next s

def firePicks (s : State) : List Pick :=
  s.insts.flatMap fun i => if decide (i.phase = .running) then (readySets i).map fun x => .fire (instCl i x.place) x.place.pe else []
/-- All candidates, in order: what has arrived from outside, messages, operations and transfers, tokens, records that may
fire, the front end, and last the search for instances that are quiet. -/
def picks (s : State) : List Pick :=
  (s.inbox ++ msgEvents s ++ s.ops.flatMap opEvent ++ s.xfers.flatMap xferEvent ++
    (List.range s.flights.length).map Instr.tokenArrival).map Pick.event ++
  firePicks s ++
  (s.insts.flatMap instEvents ++ frontEvents s ++ fabricEvents s ++ roomEvents s ++ [Instr.holdingInstance] ++
    s.insts.map fun i => Instr.probe i.iid).map Pick.event

/-- Whether a candidate changes anything. -/
def moves (s : State) (p : Pick) : Bool :=
  match runPick p s with
  | .next t => decide (t ≠ s)
  | _ => true
/-- The search begins at a place that moves on with every step, so that nothing waits behind the others for ever. -/
def autoPick (s : State) : Option Pick :=
  let l := picks s
  let k := s.tick % max 1 l.length
  (l.drop k ++ l.take k).find? (moves s)

/-- Time goes on by an unknown number of counts, and the free values with it (assumption 1); records note since when they have been
ready (R180). -/
def tickOn (s : State) : State :=
  let s := noteReady s
  { s with time := s.time + (Config.tick s.tick).toNat, tick := s.tick + 1 }
def after (o : Out) : Out :=
  match o with
  | .next s => .next (tickOn s)
  | .fault f => .fault f
  | .refused r => .refused r

/-! ### An instruction placed for the next step -/

/-- The token that a set holds for an operand position fed by tokens. -/
def fetchTok (i : Instr) (p : Pos) : Option Tok :=
  if tokenFed i p then some { Tok.zero with wide := posWide i p } else none
/-- The one slot of a one-cluster instance on cluster 0, thread 0 LIVE, and a complete set that waits there. -/
def fetchInst (s : State) (ws : List W64) : Inst :=
  let i : Inst :=
    { iid := s.nextId, ctx := 0, num := 1#32, epoch := 0#8, x0 := 0, y0 := 0, w := 1, h := 1,
      phase := .running, injected := true, stopped := false, ending := false, moving := false, slots := [(Place.zero, ws)], sets := [],
      threads := [{ freshThread 0#16 with st := .live }], xdone := [], fmt := defaultFormats, flags := 0#5, sinkCnt := 0#64,
      errCnt := 0#32, errCode := 0#8, errTag := Tag.zero, errPlace := Place.zero, errAt := 0, bases := [], forced := [], nodes := [], probe1 := none, brkAt := none,
      cls := 1, fdom := 0#32, path := [], spillB := 0, spillN := 0, saveB := 0, pkt := [], queue := 0, trig := none, tstart := 0,
      order := s.nextId, xfl := [], xpsn := [], failed := [], strm := [], told := [] }
  match slotInstr i Place.zero with
  | some r => { i with sets := [⟨Place.zero, Tag.zero, fetchTok r .a, fetchTok r .b, fetchTok r .c, false, 0, []⟩] }
  | none => { i with sets := [⟨Place.zero, Tag.zero, some Tok.zero, none, none, false, 0, []⟩] }
/-- The instance stands first, on an empty tile unit, its die at full pressure, and its PE moves next. -/
def placeFetch (s : State) (ws : List W64) : State :=
  let i := fetchInst s ws
  let s := freshTiles 0 [] s
  { s with
    insts := i :: s.insts, nextId := s.nextId + 1, agenda := .fire 0 0 :: s.agenda,
    pwr := { s.pwr with prs := s.pwr.prs.set 0 0#4 } }

end Sys2Proof.Machine
end

