-- ==== Sys2Proof/Machine/Step.lean ====
section
/-! DEFINITION. One step of the machine: what the agenda names, or the first thing that can move (assumption 3). -/
namespace Sys2Proof.Machine

def step (s : State) : Host.Outcome State Fault Refusal :=
  match s.agenda with
  | p :: t => after (runPick p { s with agenda := t })
  | [] =>
    match autoPick s with
    | some p => after (runPick p s)
    | none => .next (tickOn s)

/-- The record whose words are `w` stands in slot (0, 0, 0, 0) of an instance on cluster 0 with the tokens it consumes, and is
the next to fire. It stands for placement's loading of an image (R53, R328; assumption 3). -/
def State.withFetchWord (s : State) (nbits w : Nat) : State := placeFetch s (tableWords nbits w)

end Sys2Proof.Machine
end

