-- ==== Sys2Proof/Safety.lean ====
section
/-! DEFINITION. What a safe run is: the machine goes on, step after step, without a fault or a refusal; and the invariant that
every step keeps. -/
namespace Sys2Proof.Machine

/-- The next state exists. -/
def goesOn : Out → Bool
  | .next _ => true
  | _ => false
/-- No step among the first n from a state stops the machine. -/
def Safe (n : Nat) (s : State) : Prop := goesOn (Host.Core.run Sys2Proof.core n s) = true
/-- Every slot of every placed instance holds words that decode: what placement guarantees (R53), and what keeps `step` from
its one fault. -/
def slotsDecode (s : State) : Bool := s.insts.all fun i => i.slots.all fun c => (slotInstr i c.1).isSome

/-- Thresholds in their legal order and range (R420), four dies each in one of the states of Table 22.2, 48 sensors. -/
def PowerOk (p : Power) : Prop :=
  (80 ≤ p.half.toNat ∧ p.half.toNat < p.light.toNat ∧ p.light.toNat < p.easy.toNat ∧ p.easy.toNat ≤ 112) ∧
  p.prs.length = 4 ∧ (∀ x ∈ p.prs, x.toNat ≤ 3) ∧ p.sensors.length = 48
/-- The invariant over the parts of the state that it is about. -/
def InvOf (mem tiles : Memory) (mode : BitVec 2) (ctrs : List W32) (p : Power) : Prop :=
  (memWf mem = true ∧ memWf tiles = true) ∧ mode ≠ 3#2 ∧ ctrs.length = 14 ∧ PowerOk p
/-- Memory and tile stores in canonical form, a legal link MODE (Table 19.3), the fourteen error counters (Table 21.2), and power
registers that make sense. -/
def Inv (s : State) : Prop := InvOf s.mem s.tiles.bytes s.link.mode s.ras.ctrs s.pwr

end Sys2Proof.Machine
end

