-- ==== Sys2Proof/Certificates/Slice0/Obligations.lean ====
section
/-! DEFINITION. Statements for the provers, and the vocabulary they are written in. -/
namespace Sys2Proof.Claims
open Sys2Proof Sys2Proof.Machine

/-- No operand token of the record that fires carries E (R17). -/
def noErr (s : State) : Prop := s.firing.a.e = false ∧ s.firing.b.e = false ∧ s.firing.c.e = false

/-- One token `k` sent from the slot of firing `f` to each of the record's targets, in target order (R7, R97). What this does to every
part of the state is the statement `EmitReachesEveryTarget`. -/
def emitsFor (f : Firing) (i : Instr) (k : Tok) (s : State) : State := sendFrom f.inst f.place (targetsOf i) k s
/-- The same for the record that fires now. -/
def emits (i : Instr) (k : Tok) (s : State) : State := emitsFor s.firing i k s

/-- The token that carries payload `v` under tag `t` with S flag `sf`: no E, of the record's result width. -/
def tokFor (f : Firing) (i : Instr) (t : Tag) (v : W256) (sf : Bool) : Tok :=
  { payload := v, wide := resWide i, tag := t, e := false, s := sf, deps := firingDeps f }
def tok (i : Instr) (t : Tag) (v : W256) (sf : Bool) (s : State) : Tok := tokFor s.firing i t v sf

/-- R97's result: under the firing tag, S being the OR of the operands' S flags. -/
def resultFor (f : Firing) (i : Instr) (v : W256) : Tok := tokFor f i f.tag v (f.a.s || f.b.s || f.c.s)
def result (i : Instr) (v : W256) (s : State) : Tok := resultFor s.firing i v

/-- A 64-bit value as a payload. -/
def wide (v : W64) : W256 := v.setWidth 256

/-- R17's error token with a code in bits [63:0] of its payload. -/
def errorTok (i : Instr) (code : W64) (s : State) : Tok := { result i (wide code) s with e := true }

/-- The record completes by sending a result token to every target and by nothing else. -/
def Gives (i : Instr) (v : W256) (s : State) : Prop := exec i s = .next (emits i (result i v s) s)

/-- An instance without the counts its nodes keep of tokens (R182). -/
def bare (n : Inst) : Inst := { n with nodes := [] }

/-- Everything but the tokens in flight and the nodes' counts of them is as before: threads, matching stores, format tables, flags and
counters of every instance, operations, transfers, memory, caches, tile units, contexts and queues, faults, link, fabric, errors and
power. -/
def OnlyTokens (s t : State) : Prop :=
  t.insts.map bare = s.insts.map bare ∧
  t = { s with insts := t.insts, flights := t.flights }

end Sys2Proof.Claims

open Sys2Proof Sys2Proof.Machine Sys2Proof.Claims

/-! ### Encodings -/

/-- Record words that spec/ writes out, one or more of every class, decode to the instructions they stand for. -/
def Obligations.DecodesWordsOfTheSpec : Prop :=
  decode [0x20202200_0000000A#64, 0x00018000_00020000#64, 0x00030000_00030400#64] =
    .ok (.cmp .lt ⟨false, 0#2, .imm .b 10#32,
      [⟨0#6, 0#6, 3#5, 0#3, .a⟩, ⟨0#6, 0#6, 4#5, 0#3, .a⟩, ⟨0#6, 0#6, 6#5, 0#3, .a⟩, ⟨0#6, 0#6, 6#5, 0#3, .b⟩]⟩) ∧
  decode [0x02000900_00000000#64, 0x01234567_89ABCDEF#64, 0xFC22B800_00000000#64] =
    .ok (.const (.ext .a 0x0123456789ABCDEF#64) [⟨63#6, 2#6, 5#5, 3#3, .c⟩]) ∧
  decode [0x0E200800_00000001#64, 0x00002000_00000000#64] = .ok (.sysQry 1#8 [⟨0#6, 0#6, 0#5, 2#3, .a⟩]) ∧
  decode [0x10004A80_00000001#64, 0x00010000_00000000#64] =
    .ok (.add ⟨true, 2#2, .imm .b 1#32, [⟨0#6, 0#6, 2#5, 0#3, .a⟩]⟩) ∧
  decode [0x33010C00_0000BC00#64, 0x00008000_00000000#64] =
    .ok (.fma .pp ⟨2#5, false, none, false, false, false, false, .imm .c 0xBC00#32, [⟨0#6, 0#6, 1#5, 0#3, .a⟩]⟩) ∧
  decode [0x5B004800_0000000F#64, 0x00030400_00000000#64] =
    .ok (.vqnt 15#5 ⟨0#5, none, false, .none, [⟨0#6, 0#6, 6#5, 0#3, .b⟩]⟩) ∧
  decode [0x60001046_3FE003FF#64, 0x00008000_00010000#64] =
    .ok (.ld ⟨0#5, false, .ord, .cl, .d, false, ⟨0x3FE#10, 0#10, 0x3FF#10⟩, .none,
      [⟨0#6, 0#6, 1#5, 0#3, .a⟩, ⟨0#6, 0#6, 2#5, 0#3, .a⟩]⟩) ∧
  decode [0x72000BE4_3FE003FE#64, 0x00000000_00000001#64, 0x00021000_00000000#64] =
    .ok (.red .add ⟨0#5, false, .rel, .dev, .w, false, ⟨0x3FE#10, 0#10, 0x3FE#10⟩, .ext .b 1#64,
      [⟨0#6, 0#6, 4#5, 1#3, .a⟩]⟩) ∧
  decode [0x971180F8_010004FF#64] =
    .ok (.mmaAcca 3#5 true 60#6 ⟨1#4, 0#8, 4#8, 0xFF#8, []⟩) ∧
  decode [0#64] = .error .opcode

/-- A well-formed record is what its own words decode to: no operand of any constructor is lost or changed by the encoding. -/
def Obligations.DecodeInvertsEncode : Prop :=
  ∀ i : Instr, (shape i).isSome = true → wellFormed i = true → decode (encode i) = .ok i

/-! ### Steps and the state after reset -/

/-- R16 and R180 at a PE for which no AGE_OVERRIDE is noted: while no record has been ready for 4,096 of the PE's cycles, the one chosen
among the sets that are ready and may fire has the lowest window-relative wave, then the lowest THR, then the lowest slot; else it is chosen
in that order among those that have been ready longest. None is chosen only when none is ready. (`since` is one more than the count in which
the record became ready; 4,096 cycles at 1.4 GHz are 2,926 counts of the 1 GHz clock, Table 0.1.) -/
def Obligations.ChosenRecordIsLowest : Prop :=
  ∀ (s : State) (n : Inst) (cl pe : Nat), n.forced = [] →
    let ready := (readySets n).filter fun x => decide (instCl n x.place = cl ∧ x.place.pe = pe) && mayFire s n x
    let late := ready.filter fun x => decide (0 < x.since ∧ x.since + 2926 ≤ s.time + 1)
    let among := if late = [] then ready else late.filter fun x => late.all fun y => decide (x.since ≤ y.since)
    let wave := fun (x : Machine.PSet) => (x.tag.wave - baseOf n x.place x.tag.thr).toNat
    (chosen s n cl pe = none ↔ ready = []) ∧
    ∀ x, chosen s n cl pe = some x → x ∈ among ∧ ∀ y ∈ among, x.place.slot < 8 → y.place.slot < 8 →
      wave x < wave y ∨ (wave x = wave y ∧ (x.tag.thr.toNat < y.tag.thr.toNat ∨
        (x.tag.thr = y.tag.thr ∧ x.place.slot ≤ y.place.slot)))

/-- Every step keeps the invariant: byte memories in canonical form, a link MODE and PRS states of their tables, thresholds in
their legal order. -/
def Obligations.StepKeepsInv : Prop :=
  ∀ s t : State, Inv s → step s = .next t → Inv t

/-- The machine right after reset meets the invariant that every step keeps. -/
def Obligations.ResetMeetsInv : Prop := Inv State.reset

/-- No step refuses, and a step faults only where a set of operands waits at a slot whose words are no record: in a state in which
every waiting set's slot holds words that decode, the machine goes on. -/
def Obligations.StepStopsOnlyOnBadRecords : Prop :=
  ∀ s : State, (∀ n ∈ s.insts, ∀ x ∈ n.sets, (slotInstr n x.place).isSome = true) → ∃ t, step s = .next t

/-- R428: after reset every register that the host can read holds the reset value of its table; MEMCAP, the MSI-X entries and IDENT's stepping are the
model's (assumptions 42, 10 and 4). -/
def Obligations.ResetRegisterValues : Prop :=
  let r := fun off => registerRead off State.reset
  (r 0x00).extractLsb' 48 16 = 0x0768#16 ∧ (r 0x00).extractLsb' 0 40 = 0xF000000000#40 ∧ r 0x08 = 0x3000000000#64 ∧ r 0x10 = 0#64 ∧ r 0x18 = 0#64 ∧ r 0x20 = 0xFFFF#64 ∧
  r 0x28 = 0#64 ∧ r 0x30 = 0#64 ∧
  r 0x1008 = 0#64 ∧ r 0x1010 = 0#64 ∧ r 0x1018 = 0#64 ∧ r 0x1020 = 0#64 ∧
  r 0x2008 = 0#64 ∧ r 0x2010 = 0#64 ∧ r 0x2018 = 0#64 ∧ r 0x2020 = 0#64 ∧ r 0x2028 = 0#64 ∧
  r 0x3C00 = 0#64 ∧ r 0x3C30 = 0#64 ∧
  (∀ k, k < 7 → r (0x3000 + 8 * k) = 0#64) ∧ r 0x3100 = 0#64 ∧ (∀ k, k < 256 → r (0x3200 + 8 * k) = 0#64) ∧
  (∀ k, k < 48 → r (0x4000 + 8 * k) = 0#64) ∧ r 0x4200 = 0#64 ∧ r 0x4208 = 0x6C6864#64 ∧ r 0x4210 = 0#64 ∧ r 0x4218 = 50#64 ∧ r 0x4220 = 0#64 ∧
  ∀ k, k < 2048 → r (0x20000 + 8 * k) = 0#64 ∧ r (0x8000 + 16 * k) = 0#64 ∧ r (0x8000 + 16 * k + 8) = 0x100000000#64

/-- R52: every unassigned opcode is refused as such, whatever the other bits of the record are. -/
def Sys2Proof.Claims.UnassignedRefused : Prop :=
  ∀ ws : List W64,
    let opc := ((ws.getD 0 0#64).extractLsb' 56 8).toNat
    (opc = 0x00 ∨ opc = 0x0F ∨ (0x27 ≤ opc ∧ opc ≤ 0x2F) ∨ (0x45 ≤ opc ∧ opc ≤ 0x4F) ∨ (0x5E ≤ opc ∧ opc ≤ 0x5F) ∨
      (0x66 ≤ opc ∧ opc ≤ 0x6F) ∨ (0x76 ≤ opc ∧ opc ≤ 0x7F) ∨ (0x83 ≤ opc ∧ opc ≤ 0x87) ∨ (0x8B ≤ opc ∧ opc ≤ 0x8F) ∨
      (0x9C ≤ opc ∧ opc ≤ 0xAF) ∨ (0xB6 ≤ opc ∧ opc ≤ 0xFF)) →
    decode ws = .error .opcode

/-- Whatever words decode are those of a well-formed record: it obeys every rule on its own fields, and the record's words are
exactly its encoding, so reserved bits that are not zero are refused. Unassigned opcodes are refused. -/
def Obligations.DecodeAcceptsOnlyEncodings : Prop :=
  UnassignedRefused ∧
  ∀ (ws : List W64) (i : Instr), decode ws = .ok i →
    wellFormed i = true ∧ encode i = (List.range (wordsNeeded (ws.getD 0 0#64))).map fun k => ws.getD k 0#64

/-- One of the part's own steps or of the outside inputs, when the agenda names it, takes place, and the clock moves on. -/
def Sys2Proof.Claims.NamedEventsTakePlace : Prop :=
  ∀ (s : State) (i : Instr) (rest : List Pick), s.agenda = .event i :: rest → shape i = none →
    step s = (match exec i { s with agenda := rest } with
      | .next t => .next (tickOn t)
      | o => o)

/-- One record goes before another at the entries of a cluster's tile directory: window-relative wave, THR, PE, slot (R271). -/
def Sys2Proof.Claims.goesBefore (n : Inst) (y x : Machine.PSet) : Prop :=
  let wave := fun (x : Machine.PSet) => (x.tag.wave - baseOf n x.place x.tag.thr).toNat
  wave y < wave x ∨ (wave y = wave x ∧ (y.tag.thr.toNat < x.tag.thr.toNat ∨ (y.tag.thr = x.tag.thr ∧
    (y.place.pe < x.place.pe ∨ (y.place.pe = x.place.pe ∧ y.place.slot < x.place.slot)))))

/-- Another PE of the cluster has chosen a record that goes before this one at an entry or accumulator that both involve (R271). -/
def Sys2Proof.Claims.otherFirst (s : State) (n : Inst) (cl pe : Nat) (x : Machine.PSet) (i : Instr) : Prop :=
  ∃ k y q, k < 32 ∧ k ≠ pe ∧ fires s n cl k = true ∧ chosen s n cl k = some y ∧ slotInstr n y.place = some q ∧ goesBefore n y x ∧
    ∃ e, e ∈ tileUse { s with firing := mkFiring s n.iid y.place y.tag q y.a y.b y.c } q ∧
      e ∈ tileUse { s with firing := mkFiring s n.iid x.place x.tag i x.a x.b x.c } i

/-- A PE that the agenda lets move, whose instance runs, fires the set that its matching stores make ready: the words in the slot decode to
an instruction, that instruction is executed over the operands of the set, which has left the store, and the clock moves on. It waits, and
nothing fires, while another PE of the cluster has a record that goes before it at a common tile entry (R271). A step or input that the
agenda names takes place. The agenda and the clock are the model's (assumptions 3 and 1). -/
def Obligations.StepRunsWhatMovesNext : Prop :=
  NamedEventsTakePlace ∧
  ∀ (s : State) (cl pe : Nat) (rest : List Pick) (n : Inst) (x : Machine.PSet) (ws : List W64) (i : Instr),
    let r := { s with agenda := rest }
    s.agenda = .fire cl pe :: rest →
    instAt s cl = some n → n.phase = .running → n.stopped = false → n.ending = false → s.pwr.prs.getD (dieOf cl) 0#4 ≠ 3#4 →
    chosen r n cl pe = some x → slotWords n x.place = some ws → decode ws = .ok i →
    pe < 32 → (∀ y ∈ n.sets, y.place.slot < 8 ∧ (slotInstr n y.place).isSome) →
    let taken := modInst n.iid (takeSet cl pe x) r
    let u := bumpNode n.iid (placeNode taken n.iid x.place) 0 0 { taken with firing := mkFiring r n.iid x.place x.tag i x.a x.b x.c }
    (¬ otherFirst r n cl pe x i → ∃ t, exec i u = .next t ∧ step s = .next (tickOn t)) ∧
    (otherFirst r n cl pe x i → step s = .next (tickOn r))

/-! ### Tokens and the control group -/

/-- What a node of an instance counts (R182), if it has counted anything. -/
def Sys2Proof.Claims.countsOf (n : Inst) (c : SweepNode) : Option Sys2Proof.Machine.Node := n.nodes.find? fun x => decide (x.node = c)
/-- Tokens that a node of an instance has sent, and received (R182). -/
def Sys2Proof.Claims.sentBy (n : Inst) (c : SweepNode) : W64 := ((countsOf n c).map (·.sent)).getD 0#64
def Sys2Proof.Claims.recvBy (n : Inst) (c : SweepNode) : W64 := ((countsOf n c).map (·.recv)).getD 0#64

/-- What emitting does (R7, R15, R20, R182): one token per target joins the tokens in flight, in target order, each towards the slot
that its target names relative to the record's cluster; the node of that cluster counts them as sent and has acted, and what it has received
stays; every other node, every other instance and all else is as before. -/
def Obligations.EmitReachesEveryTarget : Prop :=
  ∀ (f : Firing) (i : Instr) (k : Tok) (s : State) (n : Inst), findInst s f.inst = some n →
    let c := SweepNode.cluster (f.place.y * n.w + f.place.x)
    let t := emitsFor f i k s
    OnlyTokens s t ∧
    t.flights = s.flights ++ (targetsOf i).map (fun g =>
      { inst := f.inst, src := .slot f.place, node := c, sent := s.tick,
        dst := ⟨((f.place.x : Int) + g.dx.toInt).toNat, ((f.place.y : Int) + g.dy.toInt).toNat, g.pe.toNat, g.slot.toNat⟩,
        opnd := g.opnd, tok := k }) ∧
    (t.insts.filter fun m => decide (m.iid ≠ f.inst)) = s.insts.filter (fun m => decide (m.iid ≠ f.inst)) ∧
    ∃ m, findInst t f.inst = some m ∧ bare m = bare n ∧
      countsOf m c = some { node := c, sent := sentBy n c + BitVec.ofNat 64 (targetsOf i).length, recv := recvBy n c, act := true } ∧
      ∀ d, d ≠ c → countsOf m d = countsOf n d

/-- R166's end: the thread that a token leaves ends when the token carried S. -/
def Sys2Proof.Claims.moved (i : Instr) (t : Tag) (s : State) : State :=
  let f := s.firing
  let sf := f.a.s || f.b.s || f.c.s
  if t.thr = f.tag.thr then emits i (tok i t f.a.payload sf s) s
  else (fun u => if sf then endOfStream f.inst f.tag.thr u else u) (emits i (tok i t f.a.payload false s) s)

/-- Records of the control, integer, float and vector groups to which R17 applies unchanged. -/
def Sys2Proof.Claims.underR17 : Instr → Bool
  | .pass _ | .const _ _ | .steerT _ | .steerF _ | .select _ | .waveSet _ | .loopGate _ | .loopOpen _ _ | .loopClose _
  | .spawn _ | .tagGet _ | .tagSet _ | .tagThr _ | .tagWav _ | .call _ | .errMake _ _ | .sysTrap _ _ | .sysBrk _ _ | .sysQry _ _ | .sysClk _ => true
  | i => decide (grpOf i = .int ∨ grpOf i = .flt ∨ grpOf i = .vec)

/-- R17: a record that fires with an operand that carries E has no other effect than one error token to every target, with the code
of the first of a, b, c that carries E, and with the S flag of R97. -/
def Obligations.ErrorOperandReplacesTheEffect : Prop :=
  ∀ (i : Instr) (s : State), underR17 i = true →
    let f := s.firing
    (f.a.e = true → exec i s = .next (emits i (errorTok i (a64 f) s) s)) ∧
    (f.a.e = false → f.b.e = true → exec i s = .next (emits i (errorTok i (b64 f) s) s)) ∧
    (f.a.e = false → f.b.e = false → f.c.e = true → exec i s = .next (emits i (errorTok i (c64 f) s) s))

/-- The frame of the records that only compute: control routing, every integer record but the divides, and every vector record leave
everything but the tokens alone; of the instances, nothing but the sticky flags may change. -/
def Sys2Proof.Claims.computes : Instr → Bool
  | .pass _ | .const _ _ | .steerT _ | .steerF _ | .select _ | .waveAdv _ | .waveSet _ | .loopGate _ | .tagGet _ | .eosMake _
  | .errTest _ | .errClear _ | .errMake _ _ | .sysClk _ | .loopClose _ => true
  | .divS _ | .divU _ | .remS _ | .remU _ | .fdiv _ | .fsqrt _ | .frcp _ | .frsq _ | .fexp2 _ | .flog2 _ => false
  | i => decide (grpOf i = .int ∨ grpOf i = .flt ∨ grpOf i = .vec)

/-- An instance without its tokens' counts and sticky flags. -/
def Sys2Proof.Claims.flagless (n : Inst) : Inst := { n with nodes := [], flags := 0#5 }

/-- Frame of the records that only compute: they write no memory, no cache, no tile, no register and no thread; an instance keeps
everything but its flags, and a control or integer record keeps those too (R98). -/
def Obligations.ComputingRecordsTouchNothingElse : Prop :=
  ∀ (i : Instr) (s t : State), computes i = true → exec i s = .next t →
    t = { s with insts := t.insts, flights := t.flights } ∧
    t.insts.map flagless = s.insts.map flagless ∧
    (grpOf i = .ctl ∨ grpOf i = .int → t.insts.map bare = s.insts.map bare) ∧
    (∀ k : Nat, ∀ m n : Inst, t.insts[k]? = some m → s.insts[k]? = some n → m.flags &&& n.flags = n.flags) ∧
    ∃ new, t.flights = s.flights ++ new

/-- The PE of a place, by row-major cluster index and PE (R111). -/
def Sys2Proof.Claims.peOf (m : Inst) (p : Place) : Nat := (p.y * m.w + p.x) * 32 + p.pe
/-- record_error() of the firing record's operand a at a time (R111): nothing for a token without E. The first one's code, tag and place
are kept; of those of one cycle, in which a PE fires once, the lowest place's (`errAt` is one more than the time of the one kept, and 0 once its PE has
recorded another; what a cycle is: assumption 50). -/
def Sys2Proof.Claims.noted (now : Nat) (f : Firing) (m : Inst) : Inst :=
  if f.a.e then
    let u := { m with errCnt := if m.errCnt = 0xFFFFFFFF#32 then m.errCnt else m.errCnt + 1#32 }
    if m.errCnt = 0#32 ∨ (m.errAt = now + 1 ∧ peOf m f.place < peOf m m.errPlace) then
      { u with errCode := f.a.payload.setWidth 8, errTag := f.tag, errPlace := f.place, errAt := now + 1 }
    else if peOf m f.place = peOf m m.errPlace then { u with errAt := 0 } else u
  else m
/-- SINK.COUNT's count. -/
def Sys2Proof.Claims.counted (m : Inst) : Inst := { m with sinkCnt := m.sinkCnt + 1#64 }

/-- The fault-queue entry of a TRAP or a BREAK: kind, code, firing place and tag, the context's next fault identifier. -/
def Sys2Proof.Claims.tellsOf (kind : Byte) (code : BitVec 16) (s : State) (c : Ctx) (e : FEntry) : Prop :=
  e.kind = kind ∧ e.data = code.setWidth 64 ∧ e.place = placeWord s.firing.place s.firing.tag ∧ e.fid = c.nextFid ∧
  e.inst = s.firing.inst ∧ e.time = BitVec.ofNat 64 s.time

/-- The TAG forms (Table 7.2): what each makes of the firing tag and operand b. -/
def Sys2Proof.Claims.TagsAreRewritten : Prop :=
  ∀ (s : State) (r : CtlRec), noErr s →
    let f := s.firing
    Gives (.tagGet r) (wide (0#24 ++ f.tag.thr ++ f.tag.wave)) s ∧
    exec (.tagSet r) s = .next (moved (.tagSet r) ⟨(b64 f).extractLsb' 24 16, (b64 f).extractLsb' 0 24⟩ s) ∧
    exec (.tagThr r) s = .next (moved (.tagThr r) ⟨(b64 f).extractLsb' 0 16, f.tag.wave⟩ s) ∧
    exec (.tagWav r) s = .next (moved (.tagWav r) ⟨f.tag.thr, f.tag.wave + (b64 f).extractLsb' 0 24⟩ s)

/-- Records that look at, keep, drop or make E and S: EOS.MAKE, ERR.TEST, ERR.CLEAR and ERR.MAKE; and WAVE.ADV, which passes an error
token on into the next wave (the model's reading of R106; assumption 11). -/
def Sys2Proof.Claims.FlagRecords : Prop :=
  ∀ (s : State) (r : CtlRec),
    let f := s.firing
    exec (.eosMake r) s = .next (emits (.eosMake r) { tok (.eosMake r) f.tag f.a.payload true s with e := f.a.e } s) ∧
    exec (.waveAdv r) s = .next (emits (.waveAdv r) { tok (.waveAdv r) ⟨f.tag.thr, f.tag.wave + 1#24⟩ f.a.payload f.a.s s with e := f.a.e } s) ∧
    Gives (.errTest r) (wide (if f.a.e then a64 f else 0#64)) s ∧
    Gives (.errClear r) f.a.payload s ∧
    (∀ code, noErr s → exec (.errMake r code) s = .next (emits (.errMake r code) (errorTok (.errMake r code) (code.setWidth 64) s) s))

/-- Records whose results are their operands, the immediate or the clock: PASS, CONST, the STEERs, SELECT, WAVE.SET,
LOOP.GATE and SYS.CLK. The TAG forms rewrite the tag (Table 7.2, R166). The flag records treat tokens with E as R106 and R112 to R116 say. -/
def Obligations.RoutingTagAndFlagRecords : Prop :=
  FlagRecords ∧
  TagsAreRewritten ∧
  ∀ s : State, noErr s →
    let f := s.firing
    (∀ r, Gives (.pass r) f.a.payload s) ∧
    (∀ v tg, Gives (.const (.imm .a v) tg) (wide (v.signExtend 64)) s) ∧
    (∀ v tg, Gives (.const (.ext .a v) tg) (wide v) s) ∧
    (∀ r, a64 f ≠ 0#64 → Gives (.steerT r) f.b.payload s ∧ exec (.steerF r) s = .next s) ∧
    (∀ r, a64 f = 0#64 → Gives (.steerF r) f.b.payload s ∧ exec (.steerT r) s = .next s) ∧
    (∀ r, Gives (.select r) (if a64 f ≠ 0#64 then f.b.payload else f.c.payload) s) ∧
    (∀ r, exec (.waveSet r) s = .next (emits (.waveSet r)
      (tok (.waveSet r) ⟨f.tag.thr, (b64 f).setWidth 24⟩ f.a.payload (f.a.s || f.b.s || f.c.s) s) s)) ∧
    (∀ r, Gives (.loopGate r) f.a.payload s) ∧
    (∀ tg, Gives (.sysClk tg) (wide (BitVec.ofNat 64 s.time)) s)

/-- What end_of_stream does to the thread table (R110, R161): a LIVE thread ends and, when no request of its own holds it, is FREE at
once with LAST cleared and CW kept; a CALLER's end is kept for its callee's return; a FREE thread's is ignored; LIVE threads apart from
it and everything outside the thread table stay as they are. -/
def Sys2Proof.Claims.StreamEnds : Prop :=
  ∀ (s : State) (k : Nat) (t : BitVec 16) (n : Inst), findInst s k = some n →
    let u := endOfStream k t s
    let was := thrOf s k t
    let now := thrOf u k t
    let held := s.ops.any fun o => decide (o.inst = k ∧ o.tag.thr = t) && heldRequest (homeCl n t) o
    (was.st = .live → held = false → now = { was with st := .free, last := none, eos := false, acq := none }) ∧
    (was.st = .live → held = true → now = { was with st := .ended }) ∧
    (was.st = .caller → now = { was with eos := true }) ∧
    (was.st = .free → now = was) ∧
    (∀ v, v ≠ t → (thrOf s k v).st ≠ .ended → thrOf u k v = thrOf s k v) ∧
    u = { s with insts := u.insts } ∧
    u.insts.map (fun m => if m.iid = k then { m with threads := [] } else m) =
      s.insts.map (fun m => if m.iid = k then { m with threads := [] } else m)

/-- The SINKs (R109 to R111): nothing is emitted; an error token is counted and the first one recorded with its tag and place (of several
of one cycle, assumption 50, that of the lowest place); COUNT counts every token; EOS, or S, ends the thread. The end of a stream is stated
with them. -/
def Obligations.SinksCountAndEndThreads : Prop :=
  StreamEnds ∧
  ∀ s : State,
    let f := s.firing
    let one := modInst f.inst (noted s.time f) s
    let two := modInst f.inst (fun m => counted (noted s.time f m)) s
    exec .sinkDrop s = .next (if f.a.s then endOfStream f.inst f.tag.thr one else one) ∧
    exec .sinkEos s = .next (endOfStream f.inst f.tag.thr one) ∧
    exec .sinkCount s = .next (if f.a.s then endOfStream f.inst f.tag.thr two else two)

/-- SYS.QRY (Table 5.1): each selector's value; FLAGSCLR clears the flags it returns. -/
def Sys2Proof.Claims.QueriesRead : Prop :=
  ∀ (s : State) (tg : List Target) (n : Inst) (c : Ctx), noErr s → findInst s s.firing.inst = some n → findCtx s n.ctx = some c →
    let p := s.firing.place
    let cl := clusterAt (n.x0 + p.x) (n.y0 + p.y)
    Gives (.sysQry 0#8 tg) (wide (n.flags.setWidth 64)) s ∧
    exec (.sysQry 1#8 tg) s = .next (emits (.sysQry 1#8 tg) (result (.sysQry 1#8 tg) (wide (n.flags.setWidth 64)) s)
      (modInst n.iid (fun m => { m with flags := 0#5 }) s)) ∧
    Gives (.sysQry 2#8 tg) (wide n.sinkCnt) s ∧
    Gives (.sysQry 3#8 tg) (wide (n.errCnt ++ 0#24 ++ (if n.errCnt = 0#32 then 0#8 else n.errCode))) s ∧
    Gives (.sysQry 4#8 tg) (wide (0#48 ++ BitVec.ofNat 8 n.w ++ BitVec.ofNat 8 n.h)) s ∧
    Gives (.sysQry 5#8 tg) (wide (0#32 ++ BitVec.ofNat 8 p.x ++ BitVec.ofNat 8 p.y ++ 0#3 ++ BitVec.ofNat 5 p.pe ++ 0#5 ++
      BitVec.ofNat 3 p.slot)) s ∧
    Gives (.sysQry 6#8 tg) (wide (0#44 ++ BitVec.ofNat 4 (cl / 128) ++ BitVec.ofNat 8 n.x0 ++ BitVec.ofNat 8 n.y0)) s ∧
    Gives (.sysQry 7#8 tg) (wide (0#16 ++ c.asid ++ n.num)) s

/-- Taking the exception of SYS.TRAP and SYS.BRK (R121, R122, R355): one entry under the context's next fault identifier waits to be
written and is outstanding; the record waits for its reply as an operation; nothing is emitted; a BREAK stops the instance, in the count
that the first one notes with its PE (assumption 50). The queries read their instance. -/
def Obligations.SystemRecordsQueryAndTrap : Prop :=
  QueriesRead ∧
  ∀ (s : State) (tg : List Target) (code : BitVec 16) (n : Inst) (c : Ctx),
    noErr s → findInst s s.firing.inst = some n → findCtx s n.ctx = some c →
    (∀ o ∈ s.ops, o.id ≠ s.nextId) →
    let enters := fun (i : Instr) (kind : Byte) (t : State) =>
      (∃ e d o, tellsOf kind code s c e ∧ findCtx t n.ctx = some d ∧ d.held = c.held ++ [e] ∧ d.out = c.out ++ [e] ∧
        d.nextFid = (if c.nextFid = 0xFFFFFFFF#32 then 1#32 else c.nextFid + 1#32) ∧
        t.ops = s.ops ++ [o] ∧ o.ins = i ∧ o.ph = .trap c.nextFid ∧ opFiring o = s.firing) ∧
      t.flights = s.flights ∧ t.mem = s.mem ∧ t.co = s.co ∧ t.tiles = s.tiles ∧ t.xfers = s.xfers
    (∃ t, exec (.sysTrap code tg) s = .next t ∧ enters (.sysTrap code tg) 0x04#8 t ∧ t.insts = s.insts) ∧
    (c.dbg = true → ∃ t, exec (.sysBrk code tg) s = .next t ∧ enters (.sysBrk code tg) 0x05#8 t ∧
      t.insts = s.insts.map fun m => if m.iid = s.firing.inst then
        { m with stopped := true, brkAt := if m.brkAt.isSome then m.brkAt
            else some (s.time, [(clusterAt (n.x0 + s.firing.place.x) (n.y0 + s.firing.place.y), s.firing.place.pe)]) } else m) ∧
    (c.dbg = false → Gives (.sysBrk code tg) 0#256 s)

/-! ### Threads, loops and calls -/

/-- What LOOP.OPEN discards (R173): of the sets at the gates it feeds, under its thread, operand b and nothing else; a set that held
only that is gone, and one that is spilled frees the permit's record; every other set stays as it was. -/
def Sys2Proof.Claims.PermitsOnlyAreDropped : Prop :=
  ∀ (gates : List Place) (t : BitVec 16) (l : List Machine.PSet) (x : Machine.PSet), (x.a.isSome || x.b.isSome || x.c.isSome) = true →
    ((x.place ∈ gates ∧ x.tag.thr = t) → x.b ≠ none → x ∉ dropPermits gates t l) ∧
    ((x.place ∉ gates ∨ x.tag.thr ≠ t ∨ x.b = none) → x ∈ l → x ∈ dropPermits gates t l) ∧
    ((x.place ∈ gates ∧ x.tag.thr = t) → x ∈ l → x.b ≠ none → (x.a ≠ none ∨ x.c ≠ none) →
      { x with b := none, recs := x.recs.filter fun r => decide (r.1 ≠ 1) } ∈ dropPermits gates t l)

/-- LOOP.OPEN and LOOP.CLOSE (R173, R174). OPEN: the permits of the thread that wait at the gates it feeds are discarded, a discarded S
ending the thread; then a's payload goes out under k waves from the firing wave on, in that order, the first alone carrying S. CLOSE:
with distance 0 both operands are consumed and nothing is emitted; with 1 to 64, a larger b counting as 64, a's payload goes out that
many waves on. What is discarded are permits only. -/
def Obligations.LoopRecordsOpenAndRetireWaves : Prop :=
  PermitsOnlyAreDropped ∧
  ∀ (s : State) (r : CtlRec) (n : Inst), noErr s → findInst s s.firing.inst = some n →
    let f := s.firing
    let sf := f.a.s || f.b.s || f.c.s
    let gates := openGates n f.place r.tgts
    let lost := n.sets.any fun x => decide (x.place ∈ gates ∧ x.tag.thr = f.tag.thr) && (x.b.any fun t => t.s)
    let u := modInst f.inst (fun m => { m with sets := dropPermits gates f.tag.thr m.sets }) s
    let v := if lost then endOfStream f.inst f.tag.thr u else u
    let d := (f.b.payload.extractLsb' 0 7).toNat
    (∀ k : BitVec 7, ∃ t, exec (.loopOpen r k) s = .next t ∧ OnlyTokens v t ∧
      t.flights = s.flights ++ (List.range k.toNat).flatMap fun j => r.tgts.map fun g =>
        { inst := f.inst, src := .slot f.place, node := placeNode s f.inst f.place, sent := s.tick, dst := targetPlace f.place g, opnd := g.opnd,
          tok := tok (.loopOpen r k) ⟨f.tag.thr, f.tag.wave + BitVec.ofNat 24 j⟩ f.a.payload (decide (j = 0) && sf) s }) ∧
    (d = 0 → exec (.loopClose r) s = .next s) ∧
    (1 ≤ d → exec (.loopClose r) s = .next (emits (.loopClose r)
      (tok (.loopClose r) ⟨f.tag.thr, f.tag.wave + BitVec.ofNat 24 (min d 64)⟩ f.a.payload sf s) s))

/-- When an entry is bad (R168 step 2): reserved bits or OPND 3, a cluster outside the image, an empty slot, a position that takes no
tokens, or one of the other width. -/
def Sys2Proof.Claims.BadEntries : Prop :=
  ∀ (n : Inst) (p : Place) (v : Bool) (w : W32),
    let x := (p.x : Int) + (w.extractLsb' 26 6).toInt
    let y := (p.y : Int) + (w.extractLsb' 20 6).toInt
    let o : Pos := posOfBits (w.extractLsb' 10 2)
    let q : Place := ⟨x.toNat, y.toNat, (w.extractLsb' 15 5).toNat, (w.extractLsb' 12 3).toNat⟩
    badEntry n p v w = false ↔
      w.extractLsb' 0 10 = 0#10 ∧ w.extractLsb' 10 2 ≠ 3#2 ∧ 0 ≤ x ∧ x < n.w ∧ 0 ≤ y ∧ y < n.h ∧
      ∃ i, slotInstr n q = some i ∧ tokenFed i o = true ∧
        ∀ width, (shape i).bind (fun sh => sh.at o) = some width → width.wide (vOf i) = none ∨ width.wide (vOf i) = some v

/-- CALL's and RET's firings (R168, R170). CALL: a bad entry gives CALL_BAD and allocates nothing; else the lowest FREE THR of the
caller's home cluster is allocated, and a hand-off request holding the operands waits at the home wave-order unit. RET: without a
call frame CALL_BAD is recorded at its own place, and S ends the thread; with one a return request waits at the home wave-order
unit. Neither emits anything then. When an entry is bad is stated with them. -/
def Obligations.CallAndRetSendTheirRequests : Prop :=
  BadEntries ∧
  ∀ (s : State) (r : CtlRec) (n : Inst), findInst s s.firing.inst = some n → (∀ o ∈ s.ops, o.id < s.nextId) →
    let f := s.firing
    let entry := (b64 f).setWidth 32
    let m := n.w * n.h
    let u := recordError f.inst 0x0A#8 f.tag f.place s
    (noErr s → badEntry n f.place r.v entry = true →
      exec (.call r) s = .next (emits (.call r) (errorTok (.call r) (0#24 ++ entry ++ 0x0A#8) s) s)) ∧
    (noErr s → badEntry n f.place r.v entry = false → ∀ c, lowestFree n (f.tag.thr.toNat % m) m = some c →
      ∃ t o, exec (.call r) s = .next t ∧ t.ops = s.ops ++ [o] ∧ o.ins = .call r ∧ o.ph = .callHold ∧ o.n = c.toNat ∧
        o.cl = homeCl n f.tag.thr ∧ opFiring o = f ∧ (thrOf t f.inst c).st = .live ∧ (thrOf t f.inst c).frame = none ∧
        (∀ d, d ≠ c → thrOf t f.inst d = thrOf s f.inst d) ∧ t.flights = s.flights ∧ t.mem = s.mem ∧ t.co = s.co) ∧
    ((thrOf s f.inst f.tag.thr).frame = none →
      exec (.ret r) s = .next (if f.a.s then endOfStream f.inst f.tag.thr u else u)) ∧
    (∀ fr, (thrOf s f.inst f.tag.thr).frame = some fr →
      ∃ o, exec (.ret r) s = .next { s with ops := s.ops ++ [o], nextId := s.nextId + 1 } ∧
        o.ins = .ret r ∧ o.ph = .retHold ∧ o.cl = homeCl n f.tag.thr ∧ opFiring o = f ∧ o.id = s.nextId)

/-- A return (R170) whose conditions hold, with no other call of the caller waiting: the child ends and is FREE, the caller is LIVE again,
or has ended and is FREE when its end came meanwhile; and the value, a's error or CALL_BAD goes to the CALL's targets under the
resume wave with the S flag of the call. -/
def Sys2Proof.Claims.ReturnResumes : Prop :=
  ∀ (s : State) (o : Op) (r : CtlRec) (n : Inst) (fr : Frame) (call : Instr),
    findOp s o.id = some o → o.ins = .ret r → o.ph = .retHold →
    findInst s o.inst = some n → n.phase = .running → n.ending = false →
    let th := thrOf s o.inst o.tag.thr
    th.st = .live → th.frame = some fr → th.cw = o.tag.wave + 1#24 → th.last = none → fr.caller ≠ o.tag.thr →
    (thrOf s o.inst fr.caller).st = .caller →
    slotInstr n fr.crec = some call →
    (∀ p ∈ s.ops, p.inst = o.inst → (p.tag.thr = o.tag.thr ∨ p.tag.thr = fr.caller) → p = o) →
    ∃ t, exec (.return_ o.id) s = .next t ∧
      (thrOf t o.inst o.tag.thr).st = .free ∧ (thrOf t o.inst o.tag.thr).frame = none ∧
      (thrOf t o.inst fr.caller).st = (if (thrOf s o.inst fr.caller).eos then .free else .live) ∧ (thrOf t o.inst fr.caller).cw = (thrOf s o.inst fr.caller).cw ∧
      t.flights = s.flights ++ (targetsOf call).map (fun g =>
        { inst := o.inst, src := .slot fr.crec, node := placeNode s o.inst fr.crec, sent := s.tick, dst := targetPlace fr.crec g, opnd := g.opnd,
          tok := { payload := if o.a.e then (o.a.payload.setWidth 64).setWidth 256 else if r.v = vOf call then o.a.payload else 0x0A#256,
                   wide := vOf call, tag := ⟨fr.caller, fr.rwave⟩, e := o.a.e || decide (r.v ≠ vOf call), s := fr.s,
                   deps := firingDeps (opFiring o) } }) ∧
      t.mem = s.mem ∧ t.co = s.co

/-- A hand-off (R169) whose conditions hold: the caller is a CALLER, the child LIVE with CW 0, LAST none and its frame, the argument
goes to the callee entry's slot and operand position (OPND) under the child's wave 0, and the request is gone. A return gives the caller back its thread. -/
def Obligations.HandOffAndReturnMoveTheThread : Prop :=
  ReturnResumes ∧
  ∀ (s : State) (o : Op) (r : CtlRec) (n : Inst) (c : BitVec 16),
    findOp s o.id = some o → o.ins = .call r → o.ph = .callHold → o.n = c.toNat → c ≠ o.tag.thr →
    findInst s o.inst = some n → n.phase = .running → n.ending = false →
    let th := thrOf s o.inst o.tag.thr
    th.st = .live → th.cw = o.tag.wave + 1#24 → th.last = none →
    (∀ p ∈ s.ops, p.inst = o.inst → p.tag.thr = o.tag.thr → p.ph = .callHold → p = o) →
    ∃ t, exec (.handOff o.id) s = .next t ∧
      (thrOf t o.inst o.tag.thr).st = .caller ∧ (thrOf t o.inst o.tag.thr).cw = th.cw ∧
      (thrOf t o.inst c).st = .live ∧ (thrOf t o.inst c).cw = 0#24 ∧ (thrOf t o.inst c).last = none ∧
      (thrOf t o.inst c).frame = some ⟨o.tag.thr, o.place, o.tag.wave + 1#24, o.a.s || o.b.s⟩ ∧
      (∀ d, d ≠ c → d ≠ o.tag.thr → thrOf t o.inst d = thrOf s o.inst d) ∧
      (∃ fl, t.flights = s.flights ++ [fl] ∧ fl.inst = o.inst ∧ fl.dst = targetPlace o.place (targetOfBits (o.b.payload.setWidth 32)) ∧
        (let k := o.b.payload.extractLsb' 10 2
         fl.opnd = if k = 0#2 then .a else if k = 1#2 then .b else .c) ∧
        fl.tok.payload = o.a.payload ∧ fl.tok.tag = ⟨c, 0#24⟩ ∧ fl.tok.e = false ∧ fl.tok.s = false ∧ fl.tok.wide = r.v) ∧
      t.ops = (s.ops.filter fun p => decide (p.id ≠ o.id)) ∧ t.mem = s.mem ∧ t.co = s.co

/-- The choice of a THR (R164, R168): the lowest FREE one that is k modulo m; none only when no such THR is FREE. -/
def Sys2Proof.Claims.LowestFree : Prop :=
  ∀ (n : Inst) (k m : Nat), k < m → m ≤ 65536 →
    (lowestFree n k m = none ↔ ∀ c : BitVec 16, c.toNat % m = k → (getThr n c).st ≠ .free) ∧
    ∀ c, lowestFree n k m = some c → c.toNat % m = k ∧ (getThr n c).st = .free ∧
      ∀ d : BitVec 16, d < c → d.toNat % m = k → (getThr n d).st ≠ .free

/-- SPAWN (R164): the lowest FREE THR becomes LIVE with the wave of its first token, LAST none, and the value goes out under that
tag with S clear; the parent's end is not lost. Which thread is chosen is stated with it. -/
def Obligations.SpawnStartsTheLowestFreeThread : Prop :=
  LowestFree ∧
  ∀ (s : State) (r : CtlRec) (n : Inst) (c : BitVec 16), noErr s → findInst s s.firing.inst = some n → lowestFree n 0 1 = some c →
    let f := s.firing
    let w := (b64 f).setWidth 24
    let sf := f.a.s || f.b.s || f.c.s
    ∃ u, exec (.spawn r) s = .next (if sf then endOfStream f.inst f.tag.thr u else u) ∧
      (thrOf u f.inst c).st = .live ∧ (thrOf u f.inst c).cw = w ∧ (thrOf u f.inst c).last = none ∧ (thrOf u f.inst c).frame = none ∧
      (∀ d, d ≠ c → thrOf u f.inst d = thrOf s f.inst d) ∧
      (∃ v, v.insts.map bare = u.insts.map bare ∧ v.flights = s.flights ∧ u = emits (.spawn r) (tok (.spawn r) ⟨c, w⟩ f.a.payload false s) v) ∧
      u.ops = s.ops ∧ u.mem = s.mem ∧ u.co = s.co ∧ u.tiles = s.tiles ∧ u.xfers = s.xfers ∧ u.fe = s.fe

/-! ### The integer group -/

/-- The operation word of a record has this OPC and FN (R38). -/
def Sys2Proof.Claims.coded (i : Instr) (opc fn : Nat) : Prop :=
  ∃ w t, encode i = w :: t ∧ (w.extractLsb' 56 8).toNat = opc ∧ (w.extractLsb' 52 4).toNat = fn

/-- A lane-wise integer record (R124, R125) of OPC `opc` and FN `fn`: it gives a payload each of whose lanes is `g` of the operands'
lanes, and nothing above the last lane. -/
def Sys2Proof.Claims.LaneWise (i : Instr) (opc fn : Nat) (r : IntRec) (s : State)
    (g : (w : Nat) → BitVec w → BitVec w → BitVec w → BitVec w) : Prop :=
  let w := if r.v then 8 * 2 ^ r.lane.toNat else 64
  let n := if r.v then 256 / w else 1
  let lane := fun (x : W256) (k : Nat) => x.extractLsb' (w * k) w
  coded i opc fn ∧ ∃ v : W256, Gives i v s ∧ v.toNat < 2 ^ (w * n) ∧
    ∀ k, k < n → lane v k = g w (lane s.firing.a.payload k) (lane s.firing.b.payload k) (lane s.firing.c.payload k)

/-- CMP (Table 5.3): each lane holds 1 when the relation holds and 0 otherwise. -/
def Sys2Proof.Claims.ComparesLanes : Prop :=
  ∀ (s : State) (r : IntRec), noErr s →
    let is := fun (w : Nat) (p : Bool) => if p then BitVec.ofNat w 1 else BitVec.ofNat w 0
    LaneWise (.cmp .eq r) 0x20 0 r s (fun w a b _ => is w (a == b)) ∧
    LaneWise (.cmp .ne r) 0x20 1 r s (fun w a b _ => is w (a != b)) ∧
    LaneWise (.cmp .lt r) 0x20 2 r s (fun w a b _ => is w (a.slt b)) ∧
    LaneWise (.cmp .le r) 0x20 3 r s (fun w a b _ => is w (a.sle b)) ∧
    LaneWise (.cmp .ltu r) 0x20 4 r s (fun w a b _ => is w (a.ult b)) ∧
    LaneWise (.cmp .leu r) 0x20 5 r s (fun w a b _ => is w (a.ule b)) ∧
    LaneWise (.cmp .gt r) 0x20 6 r s (fun w a b _ => is w (b.slt a)) ∧
    LaneWise (.cmp .ge r) 0x20 7 r s (fun w a b _ => is w (b.sle a)) ∧
    LaneWise (.cmp .gtu r) 0x20 8 r s (fun w a b _ => is w (b.ult a)) ∧
    LaneWise (.cmp .geu r) 0x20 9 r s (fun w a b _ => is w (b.ule a))

/-- Every instruction of Table 5.2, scalar and in lanes of every width (R125), the whole of b being the count of shifts and rotations:
wrapping sums, differences, products and MULA, the high halves of products, logic, shifts, rotations, counts of bits, the lesser, the
greater, the absolute value and the saturating sums; and CMP by its relations (R126, Table 5.3). -/
def Obligations.LaneWiseIntegerRecords : Prop :=
  ComparesLanes ∧
  ∀ (s : State) (r : IntRec), noErr s →
    LaneWise (.and r) 0x15 0 r s (fun _ a b _ => a &&& b) ∧
    LaneWise (.or r) 0x16 0 r s (fun _ a b _ => a ||| b) ∧
    LaneWise (.xor r) 0x17 0 r s (fun _ a b _ => a ^^^ b) ∧
    LaneWise (.andn r) 0x18 0 r s (fun _ a b _ => a &&& ~~~b) ∧
    LaneWise (.shl r) 0x19 0 r s (fun _ a b _ => a <<< b.toNat) ∧
    LaneWise (.shrL r) 0x1A 0 r s (fun _ a b _ => a >>> b.toNat) ∧
    LaneWise (.shrA r) 0x1A 1 r s (fun _ a b _ => a.sshiftRight b.toNat) ∧
    LaneWise (.rotL r) 0x1B 0 r s (fun _ a b _ => a.rotateLeft b.toNat) ∧
    LaneWise (.rotR r) 0x1B 1 r s (fun _ a b _ => a.rotateRight b.toNat) ∧
    LaneWise (.bcntClz r) 0x1C 0 r s (fun _ a _ _ => a.clz) ∧
    LaneWise (.bcntCtz r) 0x1C 1 r s (fun _ a _ _ => a.ctz) ∧
    LaneWise (.bcntPopc r) 0x1C 2 r s (fun w a _ _ => BitVec.ofNat w ((List.range w).countP fun k => a.getLsbD k)) ∧
    LaneWise (.add r) 0x10 0 r s (fun _ a b _ => a + b) ∧
    LaneWise (.sub r) 0x11 0 r s (fun _ a b _ => a - b) ∧
    LaneWise (.mulLo r) 0x12 0 r s (fun _ a b _ => a * b) ∧
    LaneWise (.mulHis r) 0x12 1 r s (fun w a b _ => BitVec.ofInt w ((a.toInt * b.toInt).fdiv (2 ^ w))) ∧
    LaneWise (.mulHiu r) 0x12 2 r s (fun w a b _ => BitVec.ofNat w (a.toNat * b.toNat / 2 ^ w)) ∧
    LaneWise (.minS r) 0x1D 0 r s (fun _ a b _ => if a.toInt ≤ b.toInt then a else b) ∧
    LaneWise (.minU r) 0x1D 1 r s (fun _ a b _ => if a.toNat ≤ b.toNat then a else b) ∧
    LaneWise (.maxS r) 0x1E 0 r s (fun _ a b _ => if a.toInt ≤ b.toInt then b else a) ∧
    LaneWise (.maxU r) 0x1E 1 r s (fun _ a b _ => if a.toNat ≤ b.toNat then b else a) ∧
    LaneWise (.abs r) 0x1F 0 r s (fun _ a _ _ => if a.toInt < 0 then -a else a) ∧
    LaneWise (.addsS r) 0x25 0 r s (fun w a b _ => BitVec.ofInt w (min (max (a.toInt + b.toInt) (-(2 ^ (w - 1)))) (2 ^ (w - 1) - 1))) ∧
    LaneWise (.addsU r) 0x25 1 r s (fun w a b _ => BitVec.ofNat w (min (a.toNat + b.toNat) (2 ^ w - 1))) ∧
    LaneWise (.mula r) 0x26 0 r s (fun _ a b c => a * b + c)

/-- DIV and REM (R128, R129): a zero divisor gives DIV0 at the firing and starts nothing; any other starts a divide that holds the
operands and emits nothing yet. -/
def Sys2Proof.Claims.DividesStart : Prop :=
  ∀ (s : State) (r : IntRec) (i : Instr), noErr s → i = .divS r ∨ i = .divU r ∨ i = .remS r ∨ i = .remU r →
    (b64 s.firing = 0#64 → exec i s = .next (emits i (errorTok i 0x08#64 s) s)) ∧
    (b64 s.firing ≠ 0#64 → ∃ o, exec i s = .next { s with ops := s.ops ++ [o], nextId := s.nextId + 1 } ∧
      o.id = s.nextId ∧ o.ins = i ∧ o.ph = .divide ∧ opFiring o = s.firing)

/-- DIVIDE_COMPLETE (R128): quotients round towards zero, remainders take the dividend's sign, −2^63 divided by −1 wraps; the result
goes to the record's targets and the divider is free. A divide starts with its firing, or gives DIV0. -/
def Obligations.DividesStartAndComplete : Prop :=
  DividesStart ∧
  ∀ (s : State) (o : Op) (r : IntRec), findOp s o.id = some o → o.ph = .divide →
    let a := a64 (opFiring o)
    let b := b64 (opFiring o)
    let gives := fun (v : W64) => exec (.divideComplete o.id) s = .next (emitsFor (opFiring o) o.ins (resultFor (opFiring o) o.ins (wide v))
      { s with ops := s.ops.filter fun p => decide (p.id ≠ o.id) })
    b ≠ 0#64 →
    (o.ins = .divS r → gives (a.sdiv b)) ∧ (o.ins = .remS r → gives (a.srem b)) ∧
    (o.ins = .divU r → gives (a.udiv b)) ∧ (o.ins = .remU r → gives (a.umod b))

/-- EXT (R130), BFX and BFI (R131) and LEA (R132) on 64-bit values, the bit fields bit by bit: POS and LEN of Table 5.4, a field cut off at
bit 63, the sign extension of BFX, and the bits that BFI keeps. EXT takes no substituted operand; any position of BFX and BFI may be
substituted. -/
def Obligations.BitFieldsExtensionsAndLea : Prop :=
  ∀ (s : State) (r : IntRec), noErr s →
    let a := a64 s.firing
    let b := b64 s.firing
    let pos := fun (k : W64) => (k.extractLsb' 0 6).toNat
    let len := fun (k : W64) => min (k.extractLsb' 8 7).toNat (64 - pos k)
    Gives (.ext .sb r) (wide ((a.extractLsb' 0 8).signExtend 64)) s ∧
    Gives (.ext .sh r) (wide ((a.extractLsb' 0 16).signExtend 64)) s ∧
    Gives (.ext .sw r) (wide ((a.extractLsb' 0 32).signExtend 64)) s ∧
    Gives (.ext .zb r) (wide ((a.extractLsb' 0 8).setWidth 64)) s ∧
    Gives (.ext .zh r) (wide ((a.extractLsb' 0 16).setWidth 64)) s ∧
    Gives (.ext .zw r) (wide ((a.extractLsb' 0 32).setWidth 64)) s ∧
    (∃ v, Gives (.bfx r) (wide v) s ∧ ∀ j, j < 64 → v.getLsbD j =
      if j < len b then a.getLsbD (pos b + j) else (b.getLsbD 15 && decide (0 < len b) && a.getLsbD (pos b + len b - 1))) ∧
    (∃ v, Gives (.bfi r) (wide v) s ∧ ∀ j, j < 64 → v.getLsbD j =
      if pos (c64 s.firing) ≤ j ∧ j < pos (c64 s.firing) + len (c64 s.firing) then b.getLsbD (j - pos (c64 s.firing)) else a.getLsbD j) ∧
    (∀ k, Gives (.lea k r) (wide (a + b <<< k.toNat)) s) ∧
    coded (.ext .sb r) 0x21 0 ∧ coded (.ext .sh r) 0x21 1 ∧ coded (.ext .sw r) 0x21 2 ∧
    coded (.ext .zb r) 0x21 3 ∧ coded (.ext .zh r) 0x21 4 ∧ coded (.ext .zw r) 0x21 5 ∧
    coded (.bfx r) 0x22 0 ∧ coded (.bfi r) 0x23 0 ∧
    (∀ k, coded (.lea k r) 0x24 0 ∧ ∃ w t, encode (.lea k r) = w :: t ∧ w.extractLsb' 32 3 = k) ∧
    (∀ e, substOk (.ext e r) = true → r.sub = .none) ∧
    (∀ p m x, p ≠ .c → substOk (.bfx { r with sub := .imm p m }) = true ∧ substOk (.bfx { r with sub := .ext p x }) = true) ∧
    (∀ p m x, substOk (.bfi { r with sub := .imm p m }) = true ∧ substOk (.bfi { r with sub := .ext p x }) = true)

/-! ### The float group -/

/-- The format entry of a slot in the table of the record's instance. -/
def Sys2Proof.Claims.entry (s : State) (k : BitVec 5) : W64 := fmtOf s s.firing.inst k.toNat

/-- A float record whose lanes lie in the container of FS (R135): when the path accepts the entry, it raises the OR of the lanes' flags
and gives a payload each of whose lanes is `g`'s code; a scalar record has one 64-bit lane. -/
def Sys2Proof.Claims.FloatLanes (i : Instr) (r : FltRec) (s : State) (g : W64 → Nat → Nat → Nat → Nat × Flags) : Prop :=
  let e := entry s r.fs
  let w := if r.v then containerOf e else 64
  let n := if r.v then 256 / w else 1
  let lane := fun (x : W256) (k : Nat) => (x.extractLsb' (w * k) w).toNat
  let at_ := fun (k : Nat) => g e (lane s.firing.a.payload k) (lane s.firing.b.payload k) (lane s.firing.c.payload k)
  (if r.v then acceptLanes e = true else acceptScalar e = true) →
  ∃ v : W256, exec i s = .next (emits i (result i v s) (raise s.firing.inst ((List.range n).foldl (fun m k => m ||| (at_ k).2) 0#5) s)) ∧
    v.toNat < 2 ^ (w * n) ∧ ∀ k, k < n → lane v k = (at_ k).1 % 2 ^ w

/-- R136's operand: decoded, a signalling NaN made quiet and noted as NV, negated under its bit. -/
def Sys2Proof.Claims.operand (e : W64) (neg : Bool) (code : Nat) : Val × Flags :=
  let v := decodeVal e code
  (if neg then v.quiet.neg else v.quiet, if v.isSig then 0x10#5 else 0#5)
/-- R136's encoding of an exact result with the flags noted so far. -/
def Sys2Proof.Claims.encoded (e : W64) (r : FltRec) (x : Val × Flags) (noted : Flags) : Nat × Flags :=
  let y := encodeVal e (r.rm.getD (rmOfEntry e)) r.sat x.1
  (y.1, y.2 ||| x.2 ||| noted)

/-- A finite value as an integer multiple of 2^g, for g not above its exponent. -/
def Sys2Proof.Claims.scaled (v : Val) (g : Int) : Int :=
  match v with
  | .fin n m e => (if n then -1 else 1) * (m * 2 ^ (e - g).toNat : Nat)
  | _ => 0
/-- The exponent of a finite value other than zero is at least g. -/
def Sys2Proof.Claims.above (g : Int) : Val → Prop
  | .fin _ _ e => g ≤ e
  | _ => True

/-- Table 6.5: the class index of a code as stored, from its sign, exponent and fraction under the entry's special values. -/
def Sys2Proof.Claims.classIndex (e : W64) (code : Nat) : Nat :=
  let x := code % 2 ^ fW e
  let ex := x / 2 ^ fFW e % 2 ^ fEW e
  let fr := x % 2 ^ fFW e
  let top := 2 ^ fEW e - 1
  let neg := decide (fS e = 1 ∧ x / 2 ^ (fW e - 1) = 1)
  let signed := fun (p : Nat) => if neg then p + 1 else p
  if fEW e = 0 then (if x = 0 then 0 else if neg then 5 else 4)
  else if fSPV e = 3 then (if ex = top then 8 else 4)
  else if ex = 0 then (if fr = 0 then signed 0 else signed 2)
  else if fSPV e = 0 ∧ ex = top then (if fr = 0 then signed 6 else if fr / 2 ^ (fFW e - 1) = 0 then 9 else 8)
  else if fSPV e = 1 ∧ ex = top ∧ fr = 2 ^ fFW e - 1 then 8
  else signed 4

/-- FNEG and FABS of a two's-complement code (Table 6.3's last column): the negative limit saturates and raises OF and NX. -/
def Sys2Proof.Claims.negFixed (e : W64) (code : Nat) : Nat × Flags :=
  let x := code % 2 ^ fW e
  if x = 2 ^ (fW e - 1) then (2 ^ (fW e - 1) - 1, 0x05#5) else ((2 ^ fW e - x) % 2 ^ fW e, 0#5)
def Sys2Proof.Claims.absFixed (e : W64) (code : Nat) : Nat × Flags :=
  if code % 2 ^ fW e < 2 ^ (fW e - 1) then (code % 2 ^ fW e, 0#5) else negFixed e code

/-- The sign instructions (R141, Table 6.3), with NA and NB applied first as if by FNEG. With EW = 0 FCPS negates the encoded magnitude (the
model's choice, assumption 14). -/
def Sys2Proof.Claims.SignsAreSet : Prop :=
  ∀ (s : State) (r : FltRec), noErr s →
    let first := fun (neg : Bool) (e : W64) (c : Nat) => if neg then negFixed e c else (c % 2 ^ fW e, (0#5 : Flags))
    (1 ≤ fEW (entry s r.fs) → fS (entry s r.fs) = 1 →
      FloatLanes (.fabs r) r s (fun e a _ _ => (a % 2 ^ (fW e - 1), 0#5)) ∧
      FloatLanes (.fneg r) r s (fun e a _ _ => (if r.na then a % 2 ^ fW e else a % 2 ^ fW e ^^^ 2 ^ (fW e - 1), 0#5)) ∧
      FloatLanes (.fcps r) r s (fun e a b _ =>
        let sign := b / 2 ^ (fW e - 1) % 2
        (a % 2 ^ (fW e - 1) + (if r.nb then 1 - sign else sign) * 2 ^ (fW e - 1), 0#5))) ∧
    (fS (entry s r.fs) = 0 → FloatLanes (.fabs r) r s (fun e a _ _ => (a % 2 ^ fW e, 0#5)) ∧
      FloatLanes (.fneg r) r s (fun e a _ _ => (a % 2 ^ fW e, 0#5)) ∧ FloatLanes (.fcps r) r s (fun e a _ _ => (a % 2 ^ fW e, 0#5))) ∧
    (fEW (entry s r.fs) = 0 → fS (entry s r.fs) = 1 →
      FloatLanes (.fabs r) r s (fun e a _ _ =>
        let x := first r.na e a
        let y := absFixed e x.1
        (y.1, y.2 ||| x.2)) ∧
      FloatLanes (.fneg r) r s (fun e a _ _ =>
        let x := first r.na e a
        let y := negFixed e x.1
        (y.1, y.2 ||| x.2)) ∧
      FloatLanes (.fcps r) r s (fun e a b _ =>
        let x := first r.na e a
        let y := first r.nb e b
        let z := absFixed e x.1
        (if 2 ^ (fW e - 1) ≤ y.1 then (2 ^ fW e - z.1) % 2 ^ fW e else z.1, z.2 ||| x.2 ||| y.2)))

/-- Minimum, maximum, sign, compare and classify (R140 to R143). -/
def Obligations.FloatPicksComparesAndSigns : Prop :=
  SignsAreSet ∧
  ∀ (s : State) (r : FltRec), noErr s →
    let pick := fun (mx num : Bool) (e : W64) (a b : Nat) (_ : Nat) =>
      let x := operand e r.na a
      let y := operand e r.nb b
      let v : Val :=
        if x.1.isNan ∧ y.1.isNan then .nan x.1.sign false
        else if x.1.isNan then (if num then y.1 else .nan x.1.sign false)
        else if y.1.isNan then (if num then x.1 else .nan y.1.sign false)
        else if (if mx then vltZ x.1 y.1 else vltZ y.1 x.1) then y.1 else x.1
      let z := encodeVal e (rmOfEntry e) false v
      (z.1, z.2 ||| x.2 ||| y.2)
    let holds := fun (rel : FcmpRel) (x y : Val) =>
      let un := x.isNan || y.isNan
      match rel with
      | .eq => !un && !vlt x y && !vlt y x
      | .ne => un || vlt x y || vlt y x
      | .lt => !un && vlt x y
      | .le => !un && !vlt y x
      | .gt => !un && vlt y x
      | .ge => !un && !vlt x y
      | .un => un
      | .or => !un
    FloatLanes (.fminNum r) r s (pick false true) ∧ FloatLanes (.fminIeee r) r s (pick false false) ∧
    FloatLanes (.fmaxNum r) r s (pick true true) ∧ FloatLanes (.fmaxIeee r) r s (pick true false) ∧
    (∀ rel, FloatLanes (.fcmp rel r) r s (fun e a b _ =>
      let x := operand e r.na a
      let y := operand e r.nb b
      (if holds rel x.1 y.1 then 1 else 0,
        x.2 ||| y.2 ||| (if (rel = .lt ∨ rel = .le ∨ rel = .gt ∨ rel = .ge) ∧ (x.1.isNan ∨ y.1.isNan) then 0x10#5 else 0#5)))) ∧
    FloatLanes (.fcls r) r s (fun e a _ _ => (classIndex e a, 0#5))

/-- Conversions, FRND and FXP (R144 to R149). The lane that FXP cannot hold is the free value of assumption 13, and a negative NaN converted
into EW = 0 is read as assumption 43 says. -/
def Obligations.FloatConversions : Prop :=
  ∀ (s : State) (r : FltRec), noErr s →
    let e := entry s r.fs
    let into := fun (i : Instr) (lo hi : Int) => acceptScalar e = true → r.v = false →
      let v := decodeVal e (a64 s.firing).toNat
      let n := roundToInt (r.rm.getD (rmOfEntry e)) v
      let res : Int × Flags :=
        if v.isNan then (0, 0x10#5)
        else if v = .inf true then (lo, 0x10#5) else if v = .inf false then (hi, 0x10#5)
        else if n.1 < lo then (lo, 0x10#5) else if n.1 > hi then (hi, 0x10#5) else (n.1, if n.2 then 0x01#5 else 0#5)
      exec i s = .next (emits i (result i (wide (BitVec.ofInt 64 res.1)) s) (raise s.firing.inst res.2 s))
    let from_ := fun (i : Instr) (dst : BitVec 5) (n : Int) => acceptScalar (entry s dst) = true → r.v = false →
      let y := encodeVal (entry s dst) (r.rm.getD (rmOfEntry (entry s dst))) r.sat (if n = 0 then .zero false else .fin (decide (n < 0)) n.natAbs 0)
      exec i s = .next (emits i (result i (wide (BitVec.ofNat 64 y.1)) s) (raise s.firing.inst y.2 s))
    into (.fcvtFi r) (-(2 ^ 63)) (2 ^ 63 - 1) ∧ into (.fcvtFiu r) 0 (2 ^ 64 - 1) ∧
    (∀ dst, from_ (.fcvtIf dst r) dst (a64 s.firing).toInt ∧ from_ (.fcvtIuf dst r) dst (a64 s.firing).toNat) ∧
    (∀ dst, (if r.v then acceptLanes (entry s dst) = true ∧ containerOf (entry s dst) = containerOf e else acceptScalar (entry s dst) = true) →
      FloatLanes (.fcvtFf dst r) r s (fun e a _ _ =>
        let d := entry s dst
        let v := decodeVal e a
        let y := encodeVal d (r.rm.getD (rmOfEntry d)) r.sat v.quiet
        (y.1, y.2 ||| if v.isSig then 0x10#5 else 0#5))) ∧
    (∀ dir, FloatLanes (.frnd dir r) r s (fun e a _ _ =>
      let x := operand e r.na a
      let n := (roundToInt dir x.1).1
      let v : Val := if x.1.isNan ∨ x.1 = .inf false ∨ x.1 = .inf true then x.1
        else if n = 0 then .zero x.1.sign else .fin (decide (n < 0)) n.natAbs 0
      let y := encodeVal e .rne false v
      (y.1, y.2 ||| x.2))) ∧
    FloatLanes (.fxp r) r s (fun e a _ _ =>
      let w := if r.v then containerOf e else 64
      let v := decodeVal e a
      (match v with
        | .zero _ => 2 ^ (w - 1)
        | .fin _ m x =>
          let t : Int := Nat.log2 m + x
          if -(2 ^ (w - 1)) ≤ t ∧ t < 2 ^ (w - 1) then (t % 2 ^ w).toNat else Config.fxpLane e a
        | _ => 2 ^ (w - 1) - 1, if v.isSig then 0x10#5 else 0#5))

/-- The special cases of Table 6.1 for the iterative functions: invalid operations give a NaN and NV, divisions by zero an infinity and
DZ, and the limits at infinity. -/
def Sys2Proof.Claims.IterativeSpecialCases : Prop :=
  ∀ (a b : Bool) (m : Nat) (e : Int),
    opDiv (.zero a) (.zero b) = (.nan false false, 0x10#5) ∧ opDiv (.inf a) (.inf b) = (.nan false false, 0x10#5) ∧
    opDiv (.fin a m e) (.zero b) = (.inf (xor a b), 0x08#5) ∧ opDiv (.fin a m e) (.inf b) = (.zero (xor a b), 0#5) ∧
    opDiv (.inf a) (.fin b m e) = (.inf (xor a b), 0#5) ∧ opDiv (.zero a) (.fin b m e) = (.zero (xor a b), 0#5) ∧
    opSqrt (.zero a) = (.zero a, 0#5) ∧ opSqrt (.fin true m e) = (.nan false false, 0x10#5) ∧
    opSqrt (.inf false) = (.inf false, 0#5) ∧ opSqrt (.inf true) = (.nan false false, 0x10#5) ∧
    opRcp (.zero a) = (.inf a, 0x08#5) ∧ opRcp (.inf a) = (.zero a, 0#5) ∧
    opRsq (.zero a) = (.inf a, 0x08#5) ∧ opRsq (.inf false) = (.zero false, 0#5) ∧ opRsq (.fin true m e) = (.nan false false, 0x10#5) ∧
    opExp2 (.inf true) = (.zero false, 0#5) ∧ opExp2 (.inf false) = (.inf false, 0#5) ∧
    opLog2 (.zero a) = (.inf true, 0x08#5) ∧ opLog2 (.inf false) = (.inf false, 0#5) ∧ opLog2 (.fin true m e) = (.nan false false, 0x10#5)

/-- m · 2^e is less than n · 2^f. -/
def Sys2Proof.Claims.below (m : Nat) (e : Int) (n : Nat) (f : Int) : Prop :=
  m * 2 ^ (e - min e f).toNat < n * 2 ^ (f - min e f).toNat

/-- What the functions give for finite arguments (R137, R139). Quotient, reciprocal, root and reciprocal root lie on the same side of every
number k · 2^g with k below 2^120 as the exact value does, and so round as it does in every entry that the path accepts: k · 2^g is
compared with m/n through k·n, with a root through k². FEXP2 of an integer and FLOG2 of a power of two are exact; elsewhere they too lie on
the side of every k · 2^g on which the exact value lies: k · 2^g is compared with 2^(t / 2^d) through its power 2^d, and with log2 of m · 2^e, m below
2^64 as every entry's is, through 2^(k · 2^g), both sides raised to 2^u so that the exponent k · 2^g · 2^u = k · 2^v is whole; beyond 2^14 FEXP2 lies beyond
every entry's range. -/
def Sys2Proof.Claims.IterativeValues : Prop :=
  ∀ (a b : Bool) (m n : Nat) (e f : Int), 0 < m → 0 < n →
    (∃ M X, opDiv (.fin a m e) (.fin b n f) = (.fin (xor a b) M X, 0#5) ∧ ∀ k g, k < 2 ^ 120 →
      (below k g M X ↔ below (k * n) (g + f) m e) ∧ (below M X k g ↔ below m e (k * n) (g + f))) ∧
    (∃ M X, opRcp (.fin a m e) = (.fin a M X, 0#5) ∧ ∀ k g, k < 2 ^ 120 →
      (below k g M X ↔ below (k * m) (g + e) 1 0) ∧ (below M X k g ↔ below 1 0 (k * m) (g + e))) ∧
    (∃ M X, opSqrt (.fin false m e) = (.fin false M X, 0#5) ∧ ∀ k g, k < 2 ^ 120 →
      (below k g M X ↔ below (k * k) (2 * g) m e) ∧ (below M X k g ↔ below m e (k * k) (2 * g))) ∧
    (∃ M X, opRsq (.fin false m e) = (.fin false M X, 0#5) ∧ ∀ k g, k < 2 ^ 120 →
      (below k g M X ↔ below (k * k * m) (2 * g + e) 1 0) ∧ (below M X k g ↔ below 1 0 (k * k * m) (2 * g + e))) ∧
    (let d := (-e).toNat
     let t : Int := (if a then -1 else 1) * (m * 2 ^ e.toNat : Nat)
     (t.natAbs < 2 ^ (14 + d) → t % 2 ^ d = 0 → opExp2 (.fin a m e) = (.fin false 1 (t / 2 ^ d), 0#5)) ∧
     (t.natAbs < 2 ^ (14 + d) → t % 2 ^ d ≠ 0 → ∃ M X, opExp2 (.fin a m e) = (.fin false M X, 0#5) ∧ below 1 (t / 2 ^ d) M X ∧ below M X 1 (t / 2 ^ d + 1) ∧
       ∀ (k : Nat) (g : Int), k < 2 ^ 120 →
         (below k g M X ↔ below (k ^ 2 ^ d) (g * 2 ^ d) 1 t) ∧ (below M X k g ↔ below 1 t (k ^ 2 ^ d) (g * 2 ^ d))) ∧
     (2 ^ (14 + d) ≤ t.natAbs → ∃ M X, opExp2 (.fin a m e) = (.fin false M X, 0#5) ∧
       (if a then below M X 1 (-16383) else below 1 16383 M X))) ∧
    (let t : Int := Nat.log2 m + e
     (m = 2 ^ Nat.log2 m → opLog2 (.fin false m e) = (if t = 0 then .zero false else .fin (decide (t < 0)) t.natAbs 0, 0#5)) ∧
     (m ≠ 2 ^ Nat.log2 m → ∃ M X, opLog2 (.fin false m e) = (.fin (decide (t < 0)) M X, 0#5) ∧
       (if t < 0 then below M X t.natAbs 0 ∧ below (t.natAbs - 1) 0 M X else below t.toNat 0 M X ∧ below M X (t.toNat + 1) 0) ∧
       (m < 2 ^ 64 → ∀ (k : Nat) (g : Int), k < 2 ^ 120 →
         let u := (-g).toNat
         let v := g.toNat
         if t < 0 then (below k g M X ↔ below (m ^ 2 ^ u) (e * 2 ^ u) 1 (-((k * 2 ^ v : Nat) : Int))) ∧ (below M X k g ↔ below 1 (-((k * 2 ^ v : Nat) : Int)) (m ^ 2 ^ u) (e * 2 ^ u))
         else (below k g M X ↔ below 1 (k * 2 ^ v : Nat) (m ^ 2 ^ u) (e * 2 ^ u)) ∧ (below M X k g ↔ below (m ^ 2 ^ u) (e * 2 ^ u) 1 (k * 2 ^ v : Nat)))))

/-- The iterative functions start on the PE's unit (R139) with their operands and the entry captured (R89), emit nothing yet, and end in
their result: one rounding of the function of Table 6.1, with its flags, after which the unit is free. The special cases of Table 6.1 hold,
and the values of finite arguments are stated with them. -/
def Obligations.IterativeFloatStartsAndCompletes : Prop :=
  IterativeSpecialCases ∧ IterativeValues ∧
  ∀ (s : State) (r : FltRec),
    let fns : List (Instr × (Val → Val → Val × Flags)) :=
      [(.fdiv r, opDiv), (.fsqrt r, fun a _ => opSqrt a), (.frcp r, fun a _ => opRcp a), (.frsq r, fun a _ => opRsq a),
       (.fexp2 r, fun a _ => opExp2 a), (.flog2 r, fun a _ => opLog2 a)]
    ∀ p ∈ fns,
      (noErr s → (if r.v then acceptLanes (entry s r.fs) else acceptScalar (entry s r.fs)) = true →
        ∃ o, exec p.1 s = .next { s with ops := s.ops ++ [o], nextId := s.nextId + 1 } ∧
          o.id = s.nextId ∧ o.ins = p.1 ∧ o.ph = .iter ∧ opFiring o = s.firing ∧ o.cap = [(r.fs.toNat, entry s r.fs)]) ∧
      ∀ (o : Op) (e : W64), findOp s o.id = some o → o.ins = p.1 → o.ph = .iter → o.cap = [(r.fs.toNat, e)] →
        let w := if r.v then containerOf e else 64
        let n := if r.v then 256 / w else 1
        let lane := fun (x : W256) (k : Nat) => (x.extractLsb' (w * k) w).toNat
        let f := opFiring o
        let at_ := fun (k : Nat) =>
          let x := operand e r.na (lane f.a.payload k)
          let y := operand e r.nb (lane f.b.payload k)
          encoded e r (p.2 x.1 y.1) (if p.1 = .fdiv r then x.2 ||| y.2 else x.2)
        ∃ v : W256, exec (.iterativeFloatComplete o.id) s =
            .next (delOp o.id (emitsFor f p.1 (resultFor f p.1 v) (raise f.inst ((List.range n).foldl (fun m k => m ||| (at_ k).2) 0#5) s))) ∧
          ∀ k, k < n → lane v k = (at_ k).1 % 2 ^ w

/-- R81: rounding m / 2^k to an integer. The result is a neighbour; exact when m / 2^k is an integer; towards zero, away or in the
direction of the mode by its sign; and under the nearest modes no neighbour is nearer, a tie going to the even one or away. -/
def Sys2Proof.Claims.RoundingModes : Prop :=
  ∀ (m k : Nat) (neg : Bool),
    let at_ := fun rm => (roundShift rm neg m k).1
    let q := m / 2 ^ k
    let r := m % 2 ^ k
    (∀ rm, (roundShift rm neg m k).2 = decide (r ≠ 0) ∧ (r = 0 → at_ rm = q) ∧ (at_ rm = q ∨ at_ rm = q + 1)) ∧
    at_ .rtz = q ∧
    (r ≠ 0 → at_ .rdn = (if neg then q + 1 else q) ∧ at_ .rup = (if neg then q else q + 1)) ∧
    (2 * r < 2 ^ k → at_ .rne = q ∧ at_ .rna = q) ∧
    (2 ^ k < 2 * r → at_ .rne = q + 1 ∧ at_ .rna = q + 1) ∧
    (2 * r = 2 ^ k → at_ .rna = q + 1 ∧ at_ .rne % 2 = 0)

/-- FSUB's operation: a + (−b), but for a NaN b, whose own sign the result takes unless a is a NaN (R136, R78). -/
def Sys2Proof.Claims.SubtractionNegates : Prop :=
  (∀ d x y, y.isNan = false → opSub d x y = opAdd d x y.neg) ∧
  ∀ d x b q, opSub d x (.nan b q) = (.nan (if x.isNan then x.sign else b) false, 0#5)

/-- FADD, FSUB, FMUL, the four FMAs and FSCL: operands prepared, the exact result of Table 6.1 formed, and one rounding into FS. FSCL's result
is a · 2^n, n being taken within ±2^16, beyond which every entry's result is the same. Which neighbour each mode takes, and what FSUB forms, are stated
with it. -/
def Obligations.FloatArithmeticRoundsOnce : Prop :=
  RoundingModes ∧ SubtractionNegates ∧
  ∀ (s : State) (r : FltRec), noErr s →
    let dn := fun e => decide (r.rm.getD (rmOfEntry e) = Rm.rdn)
    let two := fun (op : Bool → Val → Val → Val × Flags) (e : W64) (a b : Nat) (_ : Nat) =>
      let x := operand e r.na a
      let y := operand e r.nb b
      encoded e r (op (dn e) x.1 y.1) (x.2 ||| y.2)
    let three := fun (np nc : Bool) (e : W64) (a b c : Nat) =>
      let x := operand e r.na a
      let y := operand e r.nb b
      let z := operand e r.nc c
      encoded e r (opFma (dn e) np nc x.1 y.1 z.1) (x.2 ||| y.2 ||| z.2)
    FloatLanes (.fadd r) r s (two opAdd) ∧
    FloatLanes (.fsub r) r s (two opSub) ∧
    FloatLanes (.fmul r) r s (two fun _ => opMul) ∧
    FloatLanes (.fma .pp r) r s (three false false) ∧
    FloatLanes (.fma .pn r) r s (three false true) ∧
    FloatLanes (.fma .np r) r s (three true false) ∧
    FloatLanes (.fma .nn r) r s (three true true) ∧
    FloatLanes (.fscl r) r s (fun e a b _ =>
      let w := if r.v then containerOf e else 64
      let x := operand e r.na a
      let n := (BitVec.ofNat w b).toInt
      let v : Val := match x.1 with
        | .fin sg m g => .fin sg m (g + max (-65536) (min 65536 n))
        | v => v
      encoded e r (v, 0#5) x.2)

/-- R76, R77, R82: a value that an entry's code stands for is encoded into that entry exactly, under every rounding mode, with no flag:
decoding what encoding gives returns the value. Entries that flush subnormals on output are apart (SUBN = 2). -/
def Sys2Proof.Claims.FormatsHold : Prop :=
  ∀ (e : W64) (rm : Rm) (sat : Bool) (code : Nat), fmtValid e = true → fSUBN e ≠ 2 →
    let v := decodeVal e code
    v.isFinite = true →
    (encodeVal e rm sat v).2 = 0#5 ∧ decodeVal e (encodeVal e rm sat v).1 = v ∧ (encodeVal e rm sat v).1 < 2 ^ fW e

/-- The exact operations of R137 and R138: sums, products and fused sums of finite values are exact, before any rounding; the sign of a
zero; infinities; the invalid operations, which give a NaN of sign 0 and raise NV; and a NaN operand, whose sign the result takes (also
where the product of an FMA is invalid and c is a NaN: assumption 49). What the encodings of a format stand for is stated with them. -/
def Obligations.FloatFormatsAndExactOperations : Prop :=
  FormatsHold ∧
  ∀ (dn : Bool) (x y z : Val),
    (x.isFinite = true → y.isFinite = true → (opAdd dn x y).1.isFinite = true ∧ (opAdd dn x y).2 = 0#5 ∧
      (∀ g, above g x → above g y → scaled (opAdd dn x y).1 g = scaled x g + scaled y g) ∧
      ((opAdd dn x y).1.isZero = true → (opAdd dn x y).1.sign = if x.isZero ∧ y.isZero ∧ x.sign = y.sign then x.sign else dn)) ∧
    (x.isFinite = true → y.isFinite = true → (opMul x y).1.isFinite = true ∧ (opMul x y).2 = 0#5 ∧
      (opMul x y).1.sign = xor x.sign y.sign ∧
      ∀ g h, above g x → above h y → scaled (opMul x y).1 (g + h) = scaled x g * scaled y h) ∧
    (∀ np nc, x.isFinite = true → y.isFinite = true → z.isFinite = true → (opFma dn np nc x y z).2 = 0#5 ∧
      ∀ g h, above g x → above h y → above (g + h) z →
        scaled (opFma dn np nc x y z).1 (g + h) =
          (if np then -1 else 1) * (scaled x g * scaled y h) + (if nc then -1 else 1) * scaled z (g + h)) ∧
    (∀ a b, opAdd dn (.inf a) (.inf b) = if a = b then (.inf a, 0#5) else (.nan false false, 0x10#5)) ∧
    (∀ a b, opMul (.inf a) (.zero b) = (.nan false false, 0x10#5) ∧ opMul (.zero b) (.inf a) = (.nan false false, 0x10#5)) ∧
    (∀ a q, opAdd dn (.nan a q) y = (.nan a false, 0#5) ∧ opMul (.nan a q) y = (.nan a false, 0#5)) ∧
    (∀ a q, x.isNan = false → opAdd dn x (.nan a q) = (.nan a false, 0#5) ∧ opMul x (.nan a q) = (.nan a false, 0#5)) ∧
    (∀ a b np nc q, opFma dn np nc (.inf a) (.zero b) (.nan q false) = (.nan q false, 0x10#5))

/-! ### The vector group, and the format checks of both groups -/

/-- The slots that a float or vector record names, in the order of R88. -/
def Sys2Proof.Claims.slotsOf : Instr → List Nat
  | .fcvtFf d r => [r.fs.toNat, d.toNat]
  | .fcvtIf d _ | .fcvtIuf d _ => [d.toNat]
  | .fadd r | .fsub r | .fmul r | .fma _ r | .fdiv r | .fsqrt r | .frcp r | .frsq r | .fexp2 r | .flog2 r | .fminNum r
  | .fminIeee r | .fmaxNum r | .fmaxIeee r | .fabs r | .fneg r | .fcps r | .fcmp _ r | .fcls r | .fcvtFi r | .fcvtFiu r
  | .frnd _ r | .fscl r | .fxp r => [r.fs.toNat]
  | .vpack d r | .vunpk d _ r | .vqnt d r | .vdqnt d r => [r.fs.toNat, d.toNat]
  | .vbcast r | .vlaneGet r | .vlanePut r | .vshuf _ r | .vperm r | .vredAdd r | .vredMax r | .vredMin r | .vredAmax r
  | .vscan r | .vmask r | .vsel r | .vbexp _ r | .vdot r => [r.fs.toNat]
  | _ => []
/-- Whether the path of Table 4.5 that a record uses accepts an entry: lanes for vector forms of the float group and for the vector
group but its lane-moving records, the scalar path for these and for scalar forms (R135, R187). -/
def Sys2Proof.Claims.pathTakes (i : Instr) (e : W64) : Bool :=
  match i with
  | .vbcast _ | .vlaneGet _ | .vlanePut _ | .vshuf _ _ | .vperm _ | .vmask _ | .vsel _ => acceptScalar e
  | i => if grpOf i = .vec ∨ vOf i = true then acceptLanes e else acceptScalar e

/-- ILLFMT (R88): a float or vector record that names an entry its path does not take emits an error token that names the first such
slot, and does nothing else; likewise where a width condition of Table 8.2 or of a vector FCVT.FF (R144) fails, or a scale slot is none (R85).
Two points are the model's: with SCL = 2 VQNT and VDQNT check BSS too (assumption 46), and a failed width condition is judged after every slot
and names the destination slot (assumption 47). -/
def Obligations.UnacceptedFormatsGiveIllfmt : Prop :=
  ∀ (s : State) (i : Instr), noErr s →
    let ill := fun (i : Instr) (k : Nat) => exec i s = .next (emits i (errorTok i (BitVec.ofNat 64 (256 * k + 1)) s) s)
    let scaleOk := fun (e : W64) => (fSCL e ≠ 0 → acceptBlockScale (fmtOf s s.firing.inst (fSCS e)) = true) ∧
      (fSCL e = 2 → acceptBandScale (fmtOf s s.firing.inst (fBSS e)) = true)
    (∀ k, (slotsOf i).find? (fun k => !pathTakes i (fmtOf s s.firing.inst k)) = some k → ill i k) ∧
    (∀ (r : FltRec) (d : BitVec 5), r.v = true → acceptLanes (entry s r.fs) = true → acceptLanes (entry s d) = true →
      containerOf (entry s d) ≠ containerOf (entry s r.fs) → ill (.fcvtFf d r) d.toNat) ∧
    (∀ r : VecRec, acceptScalar (entry s r.fs) = true → containerOf (entry s r.fs) < 8 → ill (.vperm r) r.fs.toNat) ∧
    (∀ (r : VecRec) (d : BitVec 5), acceptLanes (entry s r.fs) = true → acceptLanes (entry s d) = true →
      (2 * containerOf (entry s d) ≠ containerOf (entry s r.fs) → ill (.vpack d r) d.toNat) ∧
      (∀ hi, containerOf (entry s d) ≠ 2 * containerOf (entry s r.fs) → ill (.vunpk d hi r) d.toNat) ∧
      (containerOf (entry s r.fs) < containerOf (entry s d) → scaleOk (entry s d) → ill (.vqnt d r) d.toNat) ∧
      (containerOf (entry s d) < containerOf (entry s r.fs) → scaleOk (entry s r.fs) → ill (.vdqnt d r) d.toNat) ∧
      (fSCL (entry s d) ≠ 0 → acceptBlockScale (fmtOf s s.firing.inst (fSCS (entry s d))) = false → ill (.vqnt d r) (fSCS (entry s d))) ∧
      (fSCL (entry s r.fs) ≠ 0 → acceptBlockScale (fmtOf s s.firing.inst (fSCS (entry s r.fs))) = false →
        ill (.vdqnt d r) (fSCS (entry s r.fs))) ∧
      (fSCL (entry s d) = 2 → acceptBlockScale (fmtOf s s.firing.inst (fSCS (entry s d))) = true →
        acceptBandScale (fmtOf s s.firing.inst (fBSS (entry s d))) = false → ill (.vqnt d r) (fBSS (entry s d))) ∧
      (fSCL (entry s r.fs) = 2 → acceptBlockScale (fmtOf s s.firing.inst (fSCS (entry s r.fs))) = true →
        acceptBandScale (fmtOf s s.firing.inst (fBSS (entry s r.fs))) = false → ill (.vdqnt d r) (fBSS (entry s r.fs)))) ∧
    (∀ (r : VecRec) (k : BitVec 5), acceptLanes (entry s r.fs) = true → acceptBlockScale (entry s k) = false → ill (.vbexp k r) k.toNat)

/-- Lane k of c bits. -/
def Sys2Proof.Claims.ln (c : Nat) (x : W256) (k : Nat) : Nat := (x.extractLsb' (c * k) c).toNat

/-- The tree of R194 over 2^d values: each level adds neighbours and rounds each sum once into binary32. -/
def Sys2Proof.Claims.treeSum (rm : Rm) (sat : Bool) : Nat → (Nat → Val) → Nat → Val × Flags
  | 0, x, j => (x j, 0#5)
  | d + 1, x, j =>
    let l := treeSum rm sat d x (2 * j)
    let r := treeSum rm sat d x (2 * j + 1)
    let t := opAdd (decide (rm = .rdn)) l.1 r.1
    let y := encodeVal b32 rm sat t.1
    (decodeVal b32 y.1, l.2 ||| r.2 ||| t.2 ||| y.2)

/-- A value-returning reduction: a 64-bit result with its flags. -/
def Sys2Proof.Claims.Reduces (i : Instr) (v : Nat) (fl : Flags) (s : State) : Prop :=
  exec i s = .next (emits i (result i (wide (BitVec.ofNat 64 v)) s) (raise s.firing.inst fl s))

/-- VRED.MAX, VRED.MIN, VRED.AMAX and VBEXP (R196, R199). A lane that is no NaN and beaten by no other gives the result, whichever lane
it is; with NaN lanes alone, NaN with lane 0's sign; VBEXP gives the power of two under the greatest magnitude, NaN before all. -/
def Sys2Proof.Claims.PicksALane : Prop :=
  ∀ (s : State) (r : VecRec), noErr s → acceptLanes (entry s r.fs) = true →
    let e := entry s r.fs
    let c := containerOf e
    let n := 256 / c
    let a := fun k => operand e false (ln c s.firing.a.payload k)
    let noted := (List.range n).foldl (fun m k => m ||| (a k).2) 0#5
    let gives := fun (i : Instr) (v : Val) =>
      let y := encodeVal e (rmOfEntry e) false v
      Reduces i y.1 (y.2 ||| noted) s
    (∀ k, k < n → (a k).1.isNan = false →
      ((∀ j, j < n → (a j).1.isNan = false → vltZ (a k).1 (a j).1 = false) → gives (.vredMax r) (a k).1) ∧
      ((∀ j, j < n → (a j).1.isNan = false → vltZ (a j).1 (a k).1 = false) → gives (.vredMin r) (a k).1) ∧
      ((∀ j, j < n → (a j).1.isNan = false → vltZ (a k).1.abs (a j).1.abs = false) → gives (.vredAmax r) (a k).1.abs)) ∧
    ((∀ k, k < n → (a k).1.isNan = true) → gives (.vredMax r) (.nan (a 0).1.sign false) ∧
      gives (.vredMin r) (.nan (a 0).1.sign false) ∧ gives (.vredAmax r) (.nan (a 0).1.sign false)) ∧
    (∀ K, acceptBlockScale (entry s K) = true →
      let exp := fun (v : Val) =>
        let y := encodeVal (entry s K) .rdn true v
        Reduces (.vbexp K r) y.1 ((y.2 &&& 0x10#5) ||| noted) s
      ((∃ k, k < n ∧ (a k).1.isNan = true) → exp (.nan false false)) ∧
      ((∀ k, k < n → (a k).1.isZero = true) → Reduces (.vbexp K r) 0 noted s) ∧
      ((∃ k, k < n ∧ (a k).1.abs = .inf false) → (∀ j, j < n → (a j).1.isNan = false) → exp (.inf false)) ∧
      (∀ k m x, k < n → (a k).1.abs = .fin false m x →
        (∀ j, j < n → (a j).1.isNan = false ∧ vltZ (a k).1.abs (a j).1.abs = false) → exp (.fin false 1 (Nat.log2 m + x))))

/-- VRED.ADD and VDOT under a floating-point entry (R194, R195): the binary32 code of the fixed tree over the lanes' values, or their
exact products, with every flag of the leaves and the nodes; and under an entry with EW = 0 the exact sum of raw integers. The picks of R196 and R199 are stated with them. -/
def Obligations.ReductionsOfLanes : Prop :=
  PicksALane ∧
  ∀ (s : State) (r : VecRec), noErr s → acceptLanes (entry s r.fs) = true →
    let e := entry s r.fs
    let c := containerOf e
    let n := 256 / c
    let a := fun k => operand e false (ln c s.firing.a.payload k)
    let b := fun k => operand e false (ln c s.firing.b.payload k)
    let rm := r.rm.getD .rne
    let all := fun (g : Nat → Flags) => (List.range n).foldl (fun m k => m ||| g k) 0#5
    let raw := fun (x : W256) (k : Nat) =>
      if fS e = 1 then (BitVec.ofNat (fW e) (ln c x k)).toInt else ((BitVec.ofNat (fW e) (ln c x k)).toNat : Int)
    let sum := fun (g : Nat → Int) => (List.range n).foldl (fun m k => m + g k) 0
    (1 ≤ fEW e →
      let t := treeSum rm r.sat (Nat.log2 n) (fun k => (a k).1) 0
      let u := treeSum rm r.sat (Nat.log2 n) (fun k => (opMul (a k).1 (b k).1).1) 0
      Reduces (.vredAdd r) (encodeVal b32 .rne false t.1).1 (t.2 ||| all fun k => (a k).2) s ∧
      Reduces (.vdot r) (encodeVal b32 .rne false u.1).1
        (u.2 ||| all fun k => (a k).2 ||| (b k).2 ||| (opMul (a k).1 (b k).1).2) s) ∧
    (fEW e = 0 →
      Reduces (.vredAdd r) (BitVec.ofInt 64 (sum (raw s.firing.a.payload))).toNat 0#5 s ∧
      Reduces (.vdot r) (BitVec.ofInt 64 (sum fun k => raw s.firing.a.payload k * raw s.firing.b.payload k)).toNat 0#5 s)

/-- The lane-moving records (Table 8.3, R192, R193): container bits are copied, codes are never looked at, no flag is raised. -/
def Sys2Proof.Claims.LaneMoves : Prop :=
  ∀ (s : State) (r : VecRec), noErr s → acceptScalar (entry s r.fs) = true →
    let c := containerOf (entry s r.fs)
    let n := 256 / c
    let f := s.firing
    let a := f.a.payload
    let b := f.b.payload
    let at_ := (b64 f).toNat % n
    (∃ v, Gives (.vbcast r) v s ∧ ∀ k, k < n → ln c v k = ln c a 0) ∧
    Gives (.vlaneGet r) (BitVec.ofNat 256 (ln c a at_)) s ∧
    (∃ v, Gives (.vlanePut r) v s ∧ ∀ k, k < n → ln c v k = if k = at_ then ln c f.c.payload 0 else ln c a k) ∧
    (∀ pat, ∃ v, Gives (.vshuf pat r) v s ∧
      (c < 64 → ∀ j, j < 8 → ln 32 v j = (let q := (pat.extractLsb' (4 * j) 4).toNat; if q < 8 then ln 32 a q else ln 32 b (q - 8))) ∧
      (c = 64 → ∀ j, j < 4 → ln 64 v j = (let q := (pat.extractLsb' (4 * j) 3).toNat; if q < 4 then ln 64 a q else ln 64 b (q - 4)))) ∧
    (8 ≤ c → ∃ v, Gives (.vperm r) v s ∧ ∀ k, k < n → ln c v k = ln c a (ln c b k % n)) ∧
    (∃ v : W64, Gives (.vmask r) (wide v) s ∧ ∀ k, k < 64 → v.getLsbD k = (decide (k < n) && decide (ln c a k ≠ 0))) ∧
    (∃ v, Gives (.vsel r) v s ∧ ∀ k, k < n → ln c v k = if (a64 f).getLsbD k then ln c b k else ln c f.c.payload k)

/-- R200: an element divided by its scale; `none` stands for a scale that is not finite, which gives a NaN of the element's sign. -/
def Sys2Proof.Claims.scaledDown (sc : Option Val) (v : Val) : Val :=
  match sc, v with
  | none, v => .nan v.sign false
  | some (.fin _ m e), .fin n k f => (opDiv (.fin n k f) (.fin false m e)).1
  | some (.zero _), v => if v.isFinite then .zero v.sign else v
  | some _, v => v
/-- R86, R201: an element times its scale; a scale that is not finite gives a NaN, or the largest finite value with NV where the element's
format has no NaN; a zero keeps its sign, and an infinite or NaN element stays. -/
def Sys2Proof.Claims.scaledUp (e : W64) (sc : Option Val) (v : Val) : Val × Flags :=
  match sc with
  | none => if fSPV e = 2 then (decodeVal e (largestCode e v.sign), 0x10#5) else (.nan v.sign false, 0#5)
  | some x =>
    if v.isZero ∨ v.isFinite = false then (v, 0#5)
    else if x.isZero then (.zero v.sign, 0#5)
    else ((opMul v x).1, 0#5)

/-- VSCAN, VPACK, VUNPK, VQNT and VDQNT lane by lane (R197, R198, R200, R201). The moves of lanes copy bits. -/
def Obligations.VectorMovesConversionsAndScans : Prop :=
  LaneMoves ∧
  ∀ (s : State) (r : VecRec) (d : BitVec 5), noErr s → acceptLanes (entry s r.fs) = true → acceptLanes (entry s d) = true →
    let e := entry s r.fs
    let D := entry s d
    let c := containerOf e
    let n := 256 / c
    let m := 256 / containerOf D
    let a := fun k => operand e false (ln c s.firing.a.payload k)
    let off := ((b64 s.firing).extractLsb' 8 8).toNat
    let rmD := r.rm.getD (rmOfEntry D)
    let conv := fun (code : Nat) =>
      let v := decodeVal e code
      let y := encodeVal D rmD r.sat v.quiet
      (y.1, y.2 ||| if v.isSig then 0x10#5 else 0#5)
    let all := fun (l : Nat) (g : Nat → Flags) => (List.range l).foldl (fun z k => z ||| g k) 0#5
    let lanes := fun (i : Instr) (cc l : Nat) (g : Nat → Nat) (fl : Flags) =>
      ∃ v : W256, exec i s = .next (emits i (result i v s) (raise s.firing.inst fl s)) ∧ ∀ k, k < l → ln cc v k = g k % 2 ^ cc
    let scale := fun (x : W64) =>
      if fSCL x = 0 then some (Val.fin false 1 0)
      else
        let v := decodeVal (fmtOf s s.firing.inst (fSCS x)) (b64 s.firing).toNat
        if v.isFinite then some v else none
    let scaleOk := fun (x : W64) => (fSCL x ≠ 0 → acceptBlockScale (fmtOf s s.firing.inst (fSCS x)) = true) ∧
      (fSCL x = 2 → acceptBandScale (fmtOf s s.firing.inst (fBSS x)) = true)
    (2 * containerOf D = c → lanes (.vpack d r) (containerOf D) m
      (fun k => (conv (if k < n then ln c s.firing.a.payload k else ln c s.firing.b.payload (k - n))).1)
      (all m fun k => (conv (if k < n then ln c s.firing.a.payload k else ln c s.firing.b.payload (k - n))).2)) ∧
    (∀ hi, containerOf D = 2 * c →
      let src := fun k => ln c s.firing.a.payload (k + if hi then n / 2 else 0)
      lanes (.vunpk d hi r) (containerOf D) m (fun k => (conv (src k)).1) (all m fun k => (conv (src k)).2)) ∧
    (containerOf D ≤ c → scaleOk D →
      let y := fun k => encodeVal D rmD r.sat (scaledDown (scale D) (a k).1)
      let src := fun k => (k + m - off % m) % m
      lanes (.vqnt d r) (containerOf D) m (fun k => if src k < n then (y (src k)).1 else 0)
        ((all n fun k => (a k).2) ||| all n fun k => (y k).2)) ∧
    (c ≤ containerOf D → scaleOk e →
      let x := fun k => scaledUp e (scale e) (a ((off + k) % n)).1
      let y := fun k => encodeVal D rmD r.sat (x k).1
      lanes (.vdqnt d r) (containerOf D) m (fun k => (y k).1) (all m fun k => (y k).2 ||| (x k).2 ||| (a ((off + k) % n)).2)) ∧
    (1 ≤ fEW e →
      let rm := r.rm.getD .rne
      let node := fun (v : Val) => let y := encodeVal b32 rm r.sat v; (decodeVal b32 y.1, y.2)
      let p := fun k => (List.range k).foldl (fun (z : Val × Flags) j =>
        let t := opAdd (decide (rm = .rdn)) z.1 (a (j + 1)).1
        let q := node t.1
        (q.1, z.2 ||| t.2 ||| q.2)) (node (a 0).1)
      let y := fun k => encodeVal e (r.rm.getD (rmOfEntry e)) r.sat (p k).1
      lanes (.vscan r) c n (fun k => (y k).1) ((p (n - 1)).2 ||| (all n fun k => (a k).2) ||| all n fun k => (y k).2)) ∧
    (fEW e = 0 →
      let raw := fun k => if fS e = 1 then (BitVec.ofNat (fW e) (ln c s.firing.a.payload k)).toInt
        else ((BitVec.ofNat (fW e) (ln c s.firing.a.payload k)).toNat : Int)
      let y := fun k => encodeVal e (r.rm.getD (rmOfEntry e)) r.sat
        (valOfInt ((List.range (k + 1)).foldl (fun z j => z + raw j) 0) (-(fBIAS e : Int)))
      lanes (.vscan r) c n (fun k => (y k).1) (all n fun k => (y k).2))

/-! ### Memory records -/

/-- The slot whose entry a memory record uses: floating-point AMO and RED, XRED and XRD (R256, R260, R261). -/
def Sys2Proof.Claims.slotUsed : Instr → Option Nat
  | .amo fn r | .red fn r => if fn = .fadd ∨ fn = .fmin ∨ fn = .fmax then some r.fs.toNat else none
  | .xred r | .xrd r => some r.fs.toNat
  | _ => none
/-- Whether the record's own rule accepts the entry (R256, R260, R261). -/
def Sys2Proof.Claims.slotTakes (e : W64) : Instr → Bool
  | .amo _ r | .red _ r => fmtValid e && decide (1 ≤ fEW e ∧ fSPV e ≤ 2 ∧ fW e = 8 * sizeBytes r.size)
  | .xred _ => fmtValid e && decide (fS e = 1 ∧ fSPV e = 0 ∧ ((fEW e = 8 ∧ (fFW e = 23 ∨ fFW e = 7) ∧ fBIAS e = 127) ∨
      (fEW e = 11 ∧ fFW e = 52 ∧ fBIAS e = 1023)))
  | .xrd _ => fmtValid e && decide (1 ≤ fEW e)
  | _ => true
/-- Names for new operations are not in use. -/
def Sys2Proof.Claims.fresh (s : State) : Prop := ∀ o ∈ s.ops, o.id ≠ s.nextId
/-- The record waits as a new operation with its operands and the entries captured; nothing else has changed. -/
def Sys2Proof.Claims.Waits (i : Instr) (ph : Phase) (cl : Nat) (cap : List Nat) (err : Option W64) (s t : State) : Prop :=
  ∃ o, t = { s with ops := s.ops ++ [o], nextId := s.nextId + 1 } ∧ o.id = s.nextId ∧ o.ins = i ∧ o.ph = ph ∧ o.cl = cl ∧
    o.err = err ∧ opFiring o = s.firing ∧ o.cap = cap.map fun k => (k, fmtOf s s.firing.inst k)

/-- The firing of every memory, atomic, fence, coherence and FTSET record (R17, R30, R88, R152): an ordered one sends a request to the home
wave-order unit of its thread, with an error in it when an operand carries E or its slot is not accepted; an unordered one sends its
request to the issuing cluster's L1, or emits that error; PF drops an address with E (R158). Nothing is emitted with the request, and
memory, caches, threads and everything else stay as they are. -/
def Obligations.MemoryRecordsSendTheirRequests : Prop :=
  ∀ (i : Instr) (s : State), (memRecOf i).isSome = true → fresh s →
    let f := s.firing
    let bad := (slotUsed i).bind fun k => if slotTakes (fmtOf s f.inst k) i then none else some (BitVec.ofNat 64 (256 * k + 1))
    let code : Option W64 := if f.a.e then some (a64 f) else if f.b.e then some (b64 f) else if f.c.e then some (c64 f) else bad
    (isPf i = true → f.a.e = true → exec i s = .next s) ∧
    ((isPf i = true → f.a.e = false) →
      (isOrdered i = true → ∃ t, exec i s = .next t ∧ Waits i .wouNet (firingHome s) (slotUsed i).toList code s t) ∧
      (isOrdered i = false → code = none →
        ∃ t, exec i s = .next t ∧ Waits i .l1Net (firingCl s) (slotUsed i).toList none s t) ∧
      (isOrdered i = false → ∀ c, code = some c → exec i s = .next (emits i (errorTok i c s) s)))

/-- linkable() of R26. -/
def Sys2Proof.Claims.linksNow (th : Thread) (o : Op) : Prop :=
  o.tag.wave = th.cw ∧
  match th.last with
  | none => (seqOf o.ins).pred = 0x3FE#10
  | some (own, succ) => if succ ≠ 0x3FF#10 then (seqOf o.ins).own = succ else (seqOf o.ins).pred = own
/-- perform() of R26: a last operation opens the next wave, any other becomes LAST; the thread's other fields stay. -/
def Sys2Proof.Claims.linked (q : Seq) (th u : Thread) : Prop :=
  u.thr = th.thr ∧ u.st = th.st ∧ u.frame = th.frame ∧ u.eos = th.eos ∧
  if q.succ = 0x3FE#10 then u.cw = th.cw + 1#24 ∧ u.last = none else u.cw = th.cw ∧ u.last = some (q.own, q.succ)
/-- The operation is the only one of its instance, which runs; its thread is LIVE and no acquire of it is out. -/
def Sys2Proof.Claims.alone (s : State) (o : Op) : Prop :=
  o ∈ s.ops ∧ (∀ p ∈ s.ops, p.id = o.id ∨ p.inst = o.inst → p = o) ∧ (∀ x ∈ s.xfers, x.inst ≠ o.inst) ∧
  (∃ n, findInst s o.inst = some n ∧ n.phase = .running ∧ n.ending = false ∧ n.xdone = []) ∧
  (thrOf s o.inst o.tag.thr).st = .live ∧ (thrOf s o.inst o.tag.thr).acq = none ∧ (thrOf s o.inst o.tag.thr).cov = [] ∧
  firingDeps (opFiring o) = []
/-- Performed without an access: the operation is done with `err`, its thread is linked, and of the rest only V words of its L1 may go. -/
def Sys2Proof.Claims.Performed (o : Op) (err : Option W64) (s t : State) : Prop :=
  (∃ p, findOp t o.id = some p ∧ p.ph = .done ∧ p.err = err ∧ p.ins = o.ins ∧ opFiring p = opFiring o) ∧
  linked (seqOf o.ins) (thrOf s o.inst o.tag.thr) (thrOf t o.inst o.tag.thr) ∧
  t.flights = s.flights ∧ t.mem = s.mem ∧ t.tiles = s.tiles ∧ t.xfers = s.xfers ∧ t.fe = s.fe ∧ t.ras = s.ras ∧
  t.co = { s.co with l1w := t.co.l1w }

/-- R27, R352: a request out of its order that arrives at a unit all of whose 256 pending entries are taken, also by requests that are parked there (SRC 0
and 1), waits outside. -/
def Sys2Proof.Claims.FullUnitsKeepRequestsOutside : Prop :=
  ∀ (s : State) (o : Op), findOp s o.id = some o → o.ph = .wouNet → ¬ linksNow (thrOf s o.inst o.tag.thr) o →
    256 ≤ (s.ops.filter fun p => decide (p.cl = o.cl) && (match p.ph with
      | .wouPend | .release | .ftset | .callHold | .retHold => true
      | .parked _ => !isTileMem p.ins && !isStream p.ins
      | _ => false)).length →
    exec (.orderedRequest o.id) s = .next { s with ops := s.ops.map fun p => if p.id = o.id then { p with ph := .wouOut } else p }

/-- ORDERED_REQUEST and RELEASE_PERFORMED (R26, R27, R30, R235, R241, R242). A request that its thread's order lets go is performed:
MNOP, the fences once nothing they cover is left, the invalidates, and any request that carries an error, whose effect is skipped; its
thread's CW and LAST move on. An invalidate or acquire at DIE scope or wider drops the V words of its range, or all, and never P or O
words. A request out of its order takes one of the unit's 256 pending entries, or waits outside while none is free. -/
def Obligations.WaveOrderUnitPerformsInProgramOrder : Prop :=
  FullUnitsKeepRequestsOutside ∧
  ∀ (s : State) (o : Op), alone s o → (o.ph = .wouNet ∨ o.ph = .wouOut ∨ o.ph = .wouPend) →
    let th := thrOf s o.inst o.tag.thr
    let go := fun (err : Option W64) (keeps : L1Word → Bool) => ∃ t, exec (.orderedRequest o.id) s = .next t ∧
      Performed o err s t ∧ t.co.l1w = s.co.l1w.filter fun x => decide (x.cl ≠ o.cl ∨ x.st ≠ .v) || keeps x
    let a := a64 (opFiring o)
    let b := b64 (opFiring o)
    (linksNow th o →
      (∀ e, o.err = some e → isXfer o.ins = false → go (some e) fun _ => true) ∧
      (o.err = none → ∀ r, (o.ins = .mnop r → r.ord = .ord → go none fun _ => true) ∧
        (o.ins = .fenceRel r → r.ord = .ord → go none fun _ => true) ∧
        (o.ins = .fenceAcq r ∨ o.ins = .fenceAr r ∨ o.ins = .fenceSc r → go none fun _ => decide (r.scope = .cl)) ∧
        (o.ins = .invAll r → r.ord = .ord → go none fun _ => decide (r.scope = .cl)) ∧
        (o.ins = .invRegion r → r.ord = .ord → a.toNat < 2 ^ 56 → a.toNat + b.toNat ≤ 2 ^ 56 →
          go none fun x => decide (r.scope = .cl ∨ b = 0#64 ∨ some x.ctx ≠ (findInst s o.inst).map (·.ctx) ∨
            (a.toNat + b.toNat + 3) / 4 * 4 ≤ x.va ∨ x.va + 4 ≤ a.toNat / 4 * 4)) ∧
        (o.ins = .ftset r → r.ord = .ord → ∃ t, exec (.orderedRequest o.id) s = .next t ∧
          t = { s with insts := t.insts, ops := s.ops.map fun p => if p.id = o.id then { p with ph := .ftset } else p } ∧
          thrOf t o.inst o.tag.thr = th))) ∧
    (¬ linksNow th o → o.ph ≠ .wouPend →
      ((s.ops.filter fun p => decide (p.cl = o.cl ∧ p.id ≠ o.id)).length < 256 → ∃ t, exec (.orderedRequest o.id) s = .next t ∧
        (∃ p, findOp t o.id = some p ∧ p.ph = .wouPend ∧ p.ins = o.ins ∧ opFiring p = opFiring o) ∧
        t = { s with ops := t.ops, nextId := s.nextId + 1 })) ∧
    (∀ r, o.ins = .fenceRel r → r.ord = .ord → o.err = none → ∀ q : Op, q = { o with ph := .release } →
      ∃ t, exec (.releasePerformed o.id) { s with ops := s.ops.map fun p => if p.id = o.id then q else p } = .next t ∧
        Performed q none s t ∧ t.co = s.co)

/-! ### Accesses -/

/-- One token with a payload and E flag, and S as R97 has it, goes from the record of firing `f` to each of its targets. -/
def Sys2Proof.Claims.Sends (f : Firing) (i : Instr) (pay : W256) (e : Bool) (s t : State) : Prop :=
  ∃ d, t.flights = s.flights ++ (targetsOf i).map fun g =>
    { inst := f.inst, src := .slot f.place, node := placeNode s f.inst f.place, sent := s.tick, dst := targetPlace f.place g, opnd := g.opnd,
      tok := { resultFor f i pay with e := e, deps := d } }
/-- The L1 of a cluster holds a whole word, free of poison, with this value. -/
def Sys2Proof.Claims.hits (s : State) (cl pa : Nat) (v : W32) : Prop :=
  ∃ x, l1wFind s cl pa = some x ∧ x.have_ = 0xF#4 ∧ x.psn = false ∧ x.data = v
/-- The value of `n` bytes from `pa` upward, little-endian, over the words that `g` gives (R151). -/
def Sys2Proof.Claims.littleEndian (g : Nat → W32) (pa n : Nat) : Nat :=
  (List.range n).foldl (fun v k => v + ((g ((pa + k) / 4 * 4)).extractLsb' (8 * ((pa + k) % 4)) 8).toNat * 256 ^ k) 0
/-- The operation is known, alone at its L1, waits for no grant, and no acquire is part of it. -/
def Sys2Proof.Claims.mineAlone (s : State) (o : Op) : Prop :=
  o ∈ s.ops ∧ (∀ p ∈ s.ops, p.id = o.id ∨ p.cl = o.cl → p = o) ∧ (∀ r ∈ s.co.regOut, o.id ∉ r.ops) ∧ isAcquire o.ins = false ∧
  o.err = none ∧ s.fab.flits = []
/-- It has read and kept nothing yet. -/
def Sys2Proof.Claims.hasNothing (o : Op) : Prop := o.got = [] ∧ o.snap = []

/-- The sector at an L1, in whichever of the states E, M and S (Table 10.9), without poison, has these words. -/
def Sys2Proof.Claims.hitsSector (s : State) (cl pa : Nat) (g : Nat → W32) : Prop :=
  ∃ d, l1dFind s cl (pa / 64 * 64) = some d ∧ d.psn = 0#16 ∧ ∀ k, k < 16 → d.data.getD k 0#32 = g (pa / 64 * 64 + 4 * k)

/-- Loads that their L1 can serve (R151, R152, R156, R225): LD and LDX on S pages whose words the L1 holds, nothing about their sectors being on its
way, or on D pages or cached host memory whose sectors it holds in E, M or S, give the bytes of their elements, each aligned to the size that they share, lowest address lowest, LDX's elements in lane order; once performed, in
one step with the result token, or, when the request arrives, as an operation that is done. An address that is not aligned to the size gives
ALIGN, and one beyond 2^56 PERM (Table 6.8). -/
def Obligations.LoadsReadTheirL1 : Prop :=
  ∀ (s : State) (o : Op) (r : MemRec) (g : Nat → W32), o.ins = .ld r ∨ o.ins = .ldx r → mineAlone s o →
    let served := fun (u : State) (els : List El) => (∃ n, ∀ x ∈ els, x.len = n ∧ (n < 8 ∨ x.pa % n = 0)) ∧
      ∀ x ∈ els, 1 ≤ x.len ∧ x.pa % 64 + x.len ≤ 64 ∧
        ((x.kind = .s ∧ (∀ m ∈ u.co.msgs, m.pa ≠ x.pa / 64 * 64) ∧ ∀ k, k < x.len → hits u o.cl ((x.pa + k) / 4 * 4) (g ((x.pa + k) / 4 * 4))) ∨
          ((x.kind = .d ∨ x.kind = .hostc) ∧ (x.kind = .hostc → cacheGoing u = false) ∧ hitsSector u o.cl x.pa g))
    let value := fun (els : List El) => els.foldr (fun x v => littleEndian g x.pa x.len + 256 ^ x.len * v) 0
    (o.ph = .miss → hasNothing o → o.left = List.range o.els.length → served s o.els →
      ∃ t, exec (.dataReturn (.op o.id)) s = .next t ∧ Sends (opFiring o) o.ins (BitVec.ofNat 256 (value o.els)) false s t ∧
        t.ops = (s.ops.filter fun p => decide (p.id ≠ o.id)) ∧ t.mem = s.mem ∧ t.co = s.co ∧ t.tiles = s.tiles ∧ t.xfers = s.xfers) ∧
    (∀ c els u, o.ph = .l1Net → hasNothing o → checkAddr o = none → ctxOfInst s o.inst = some c →
      translate (some (dieOf o.cl)) (.cluster o.cl) c ⟨true, false, false⟩ (accessOf o) s = (.ok els, u) → u.ops = s.ops → served u els →
      ∃ t p, exec (.unorderedRequest o.id) s = .next t ∧ findOp t o.id = some p ∧ p.ph = .done ∧ p.err = none ∧
        p.val = BitVec.ofNat 256 (value els) ∧ t.mem = u.mem ∧ t.co = u.co ∧ t.flights = u.flights) ∧
    (o.ph = .l1Net → o.ins = .ld r → let n := sizeBytes r.size
      let a := a64 (opFiring o)
      let fails := fun code => exec (.unorderedRequest o.id) s =
        .next { s with ops := s.ops.map fun p => if p.id = o.id then { p with ph := .done, err := some code, replay := 0 } else p }
      (2 ^ 56 ≤ a.toNat → fails (BitVec.ofNat 64 (256 * a.toNat + 7))) ∧
      (a.toNat < 2 ^ 56 → a.toNat % n ≠ 0 → fails (BitVec.ofNat 64 (256 * a.toNat + 6))))

/-- The result token of an operation that is done (Table 6.7, R153, R157, R256 to R258): a load's value, a store's data, an atomic's old value,
FTSET's old entry; RED, XRED, OWN, WBK, the fences, INV.REGION and MNOP pass their address operand and INV.ALL zero; an error token
with its code when the operation failed. The operation is over, or waits for its grants alone. -/
def Obligations.DoneOperationsEmitTheirResults : Prop :=
  ∀ (s : State) (o : Op), (memRecOf o.ins).isSome = true → o.ph = .done → o ∈ s.ops → (∀ p ∈ s.ops, p.id = o.id → p = o) →
    let f := opFiring o
    let pay := match o.ins with
      | .ld _ | .ldx _ | .amo _ _ | .cas _ | .xrd _ | .ftset _ => o.val
      | .st _ => f.b.payload
      | .stx _ => f.c.payload
      | .invAll _ => 0#256
      | _ => f.a.payload
    let waits := s.co.regOut.any fun r => r.ops.contains o.id
    ∃ t, exec (.dataReturn (.op o.id)) s = .next t ∧
      (match o.err with
       | none => Sends f o.ins pay false s t
       | some c => Sends f o.ins (wide c) true s t) ∧
      (waits = false → t.ops = s.ops.filter fun p => decide (p.id ≠ o.id)) ∧
      (waits = true → t.ops = s.ops.map fun p => if p.id = o.id then { o with ph := .acks } else p) ∧
      t.mem = s.mem ∧ t.co = s.co ∧ t.tiles = s.tiles ∧ t.xfers = s.xfers ∧ t.fe = s.fe

/-- The bytes that a store of `n` bytes writes: the low bytes of its data, the lowest at the lowest address (R151). -/
def Sys2Proof.Claims.dataByte (v : W256) (k : Nat) : Byte := v.extractLsb' (8 * k) 8

/-- A store to a D page, or to cached host memory, whose sector its L1 holds in E or M (R225, Table 10.9): the sector becomes M and takes the
bytes stored, its other bytes stay, a word wholly written loses its poison mark; nothing is asked of any directory, no other line of any L1
changes, and the result is emitted. -/
def Sys2Proof.Claims.StoresHitSectors : Prop :=
  ∀ (s : State) (o : Op) (r : MemRec) (x : El) (d : L1Sec), o.ins = .st r → mineAlone s o → o.ph = .miss → o.els = [x] → o.left = [0] →
    (x.kind = .d ∨ x.kind = .hostc) → x.len = sizeBytes r.size → x.pa % 64 + x.len ≤ 64 →
    l1dFind s o.cl (x.pa / 64 * 64) = some d → d.st = .e ∨ d.st = .m →
    ∃ t q, exec (.dataReturn (.op o.id)) s = .next t ∧ Sends (opFiring o) o.ins o.b.payload false s t ∧
      l1dFind t o.cl (x.pa / 64 * 64) = some q ∧ q.st = .m ∧ q.key = d.key ∧ q.va = d.va ∧ q.ctx = d.ctx ∧
      (∀ k, k < 64 → (q.data.getD (k / 4) 0#32).extractLsb' (8 * (k % 4)) 8 =
        if x.pa % 64 ≤ k ∧ k < x.pa % 64 + x.len then dataByte o.b.payload (k - x.pa % 64) else (d.data.getD (k / 4) 0#32).extractLsb' (8 * (k % 4)) 8) ∧
      (∀ w, w < 16 → q.psn.getLsbD w = (d.psn.getLsbD w && !decide (x.pa % 64 ≤ 4 * w ∧ 4 * w + 4 ≤ x.pa % 64 + x.len))) ∧
      (∀ c a, c ≠ o.cl ∨ a ≠ x.pa / 64 * 64 → l1dFind t c a = l1dFind s c a) ∧
      t.mem = s.mem ∧ t.co = { s.co with l1d := t.co.l1d } ∧ t.tiles = s.tiles ∧ t.xfers = s.xfers

/-- A store to an S page at its L1 (R214, Table 10.4): every word it touches is P, or O where it was O, and holds the bytes stored, with the other bytes of
a word that was P or O kept; the words that were V or I are asked to be registered at the home or RDC, with the mask of bytes written, in one message. No
other word of any L1, no L2 sector and no byte of memory changes, and the result is emitted. Stores that hit a D-page sector are stated with it. -/
def Obligations.StoresWriteTheirL1 : Prop :=
  StoresHitSectors ∧
  ∀ (s : State) (o : Op) (r : MemRec) (x : El), o.ins = .st r → mineAlone s o → o.ph = .miss → o.els = [x] → o.left = [0] →
    x.kind = .s → x.len = sizeBytes r.size → x.pa % 64 + x.len ≤ 64 → l1Room s o.cl (x.pa / 64 * 64) = true →
    let sec := x.pa / 64 * 64
    let touched := fun (w : Nat) => decide (w < x.pa + x.len ∧ x.pa < w + 4)
    let mask := fun (w : Nat) => (BitVec.ofNat 4 ((List.range 4).foldl (fun m j => if x.pa ≤ w + j ∧ w + j < x.pa + x.len then m + 2 ^ j else m) 0))
    let owned := fun (w : Nat) => (l1wFind s o.cl w).any fun p => decide (p.st ≠ .v)
    let news := ((List.range 16).filter fun k => touched (sec + 4 * k) && !owned (sec + 4 * k)).map fun k => (k, mask (sec + 4 * k))
    ∃ t, exec (.dataReturn (.op o.id)) s = .next t ∧ Sends (opFiring o) o.ins o.b.payload false s t ∧
      t.mem = s.mem ∧ t.co.l2 = s.co.l2 ∧ t.tiles = s.tiles ∧ t.xfers = s.xfers ∧
      (∀ c w, c ≠ o.cl ∨ touched w = false ∨ w % 4 ≠ 0 → l1wFind t c w = l1wFind s c w) ∧
      (∀ w, touched w = true → w % 4 = 0 → ∃ q, l1wFind t o.cl w = some q ∧
        q.st = (match l1wFind s o.cl w with
          | some p => if p.st = .o then .o else .p
          | none => .p) ∧
        (∀ j, j < 4 → x.pa ≤ w + j → w + j < x.pa + x.len →
          q.data.extractLsb' (8 * j) 8 = dataByte o.b.payload (w + j - x.pa) ∧ (q.st = .p → q.have_.getLsbD j = true)) ∧
        (∀ p, l1wFind s o.cl w = some p → p.st ≠ .v → ∀ j, j < 4 → (w + j < x.pa ∨ x.pa + x.len ≤ w + j) →
          q.data.extractLsb' (8 * j) 8 = p.data.extractLsb' (8 * j) 8)) ∧
      t.co.msgs = s.co.msgs ++ (if news = [] then [] else
        [{ src := .l1 o.cl, dst := (if isDevice sec ∧ homeDie sec = dieOf o.cl then .home else .rdc (dieOf o.cl)), pa := sec, key := x.key,
           body := .reg news, held := false }])

/-- Nothing about a sector is on its way, no L1 or RDC owns a word of it or holds a copy, and the host none. -/
def Sys2Proof.Claims.quiet (s : State) (sec : Nat) : Prop :=
  (∀ m ∈ s.co.msgs, m.pa ≠ sec) ∧ s.co.gwait = [] ∧ (∀ w ∈ s.co.dwait, w.pa ≠ sec) ∧ (∀ x ∈ s.co.dirRec, x.1 ≠ sec) ∧
  (∀ b ∈ s.co.bisnp, b.1 ≠ sec) ∧ (∀ r ∈ s.co.reg, r.pa ≠ sec) ∧ (∀ x ∈ s.co.l1d, x.pa ≠ sec) ∧ (∀ x ∈ s.co.rdc, x.pa ≠ sec) ∧
  (∀ d ∈ s.co.dir, d.pa ≠ sec) ∧ dirbOf s sec = 0#8
/-- A byte as its place gives it under a key, with its poison mark. -/
def Sys2Proof.Claims.byteAt (s : State) (key a : Nat) : Byte × Bool := (placeRead key a 1 s).headD (0#8, true)
/-- The sector of an address stands in its home's L2 under the key, free of poison, in device memory that is there, and is quiet. -/
def Sys2Proof.Claims.homeReady (s : State) (key pa : Nat) : Prop :=
  quiet s (sectorOf pa) ∧ (∀ k, k < 64 → devicePresent s (sectorOf pa + k) = true) ∧
  ∃ y, l2Find s (sectorOf pa) = some y ∧ y.key = key ∧ y.pz = 0#16 ∧ y.data.length = 16
/-- The same, with or without poison. -/
def Sys2Proof.Claims.homeHolds (s : State) (key pa : Nat) : Prop :=
  quiet s (sectorOf pa) ∧ (∀ k, k < 64 → devicePresent s (sectorOf pa + k) = true) ∧
  ∃ y, l2Find s (sectorOf pa) = some y ∧ y.key = key ∧ y.data.length = 16

/-- Accesses that a home performs, on U pages (R231, Table 11.4): a load gives the bytes; a store writes the bytes of its data from the element's address
upward; an atomic gives what Tables 11.5 and 11.6 say of the old bytes, writes the new ones and raises its flags. Every byte of device
memory outside those written reads as before, under the access's key. The result goes to every target and the operation is over. -/
def Obligations.HomesPerformAccesses : Prop :=
  ∀ (s : State) (o : Op) (x : El), mineAlone s o → o.ph = .miss → o.els = [x] → o.left = [0] → o.got = [] →
    x.kind = .u → 1 ≤ x.len → x.pa % 64 + x.len ≤ 64 → homeReady s x.key x.pa →
    let f := opFiring o
    let old := fun k => (byteAt s x.key (x.pa + k)).1
    let was := (List.range x.len).foldl (fun v k => v + (old k).toNat * 256 ^ k) 0
    let does := fun (pay : W256) (new : Option (Nat → Byte)) (fl : Flags) => ∃ t, exec (.dataReturn (.op o.id)) s = .next t ∧
      Sends f o.ins pay false s t ∧ t.ops = (s.ops.filter fun p => decide (p.id ≠ o.id)) ∧
      (∀ a, byteAt t x.key a = match new with
        | some b => if x.pa ≤ a ∧ a < x.pa + x.len then (b (a - x.pa), false) else byteAt s x.key a
        | none => byteAt s x.key a) ∧
      t.insts.map bare = (s.insts.map fun n => if n.iid = o.inst then { n with flags := n.flags ||| fl } else n).map bare ∧
      t.co.l1w = s.co.l1w ∧ t.tiles = s.tiles ∧ t.xfers = s.xfers
    (∀ r, (o.ins = .ld r ∨ o.ins = .ldx r) → does (BitVec.ofNat 256 was) none 0#5) ∧
    (∀ r, o.ins = .st r → x.len = sizeBytes r.size → does f.b.payload (some (dataByte f.b.payload)) 0#5) ∧
    (isRmw o.ins = true →
      let y := rmwAt o.ins ((o.cap.head?.map (·.2)).getD 0#64) (b64 f) (c64 f) was
      let pay := match o.ins with
        | .red _ _ | .xred _ => f.a.payload
        | _ => wide y.1
      does pay (y.2.1.map fun v k => BitVec.ofNat 8 (v / 256 ^ k)) y.2.2)

/-- What the atomics compute (Tables 11.5, 11.6; R256 to R261): from the old value of the element and the operands' low bytes, the result, the new value, which
a failing CAS and XRD do not write, and the flags. An XRED of a value that fits adds it to the cell's sum exactly. -/
def Obligations.AtomicsComputeTheirFunctions : Prop :=
  ∀ (r : MemRec) (e b c : W64) (v : Nat),
    let w := 8 * sizeBytes r.size
    let x := b.toNat % 2 ^ w
    let int := fun (u : Nat) => (BitVec.ofNat w u).toInt
    let gives := fun (fn : AmoFn) (new : Nat) (fl : Flags) =>
      rmwAt (.amo fn r) e b c v = (BitVec.ofNat 64 v, some new, fl) ∧ (rmwAt (.red fn r) e b c v).2 = (some new, fl)
    r.size ≠ .v → v < 2 ^ w →
    gives .add ((v + x) % 2 ^ w) 0#5 ∧ gives .and (v &&& x) 0#5 ∧ gives .or (v ||| x) 0#5 ∧ gives .xor (v ^^^ x) 0#5 ∧
    gives .swap x 0#5 ∧ gives .minu (if v ≤ x then v else x) 0#5 ∧ gives .maxu (if v ≤ x then x else v) 0#5 ∧
    gives .min (if int v ≤ int x then v else x) 0#5 ∧ gives .max (if int x ≤ int v then v else x) 0#5 ∧
    (let p := operand e false v
     let q := operand e false x
     let z := opAdd (decide (rmOfEntry e = .rdn)) p.1 q.1
     let n := encodeVal e (rmOfEntry e) false z.1
     gives .fadd n.1 (n.2 ||| z.2 ||| p.2 ||| q.2) ∧
     ∀ mx : Bool,
       let y : Val := if p.1.isNan ∧ q.1.isNan then .nan p.1.sign false else if p.1.isNan then q.1 else if q.1.isNan then p.1
         else if (if mx then vltZ p.1 q.1 else vltZ q.1 p.1) then q.1 else p.1
       let n := encodeVal e (rmOfEntry e) false y
       gives (if mx then .fmax else .fmin) n.1 (n.2 ||| p.2 ||| q.2)) ∧
    rmwAt (.cas r) e b c v = (BitVec.ofNat 64 v, if v = x then some (c.toNat % 2 ^ w) else none, 0#5) ∧
    (∀ cell n m f, cell < 2 ^ 512 → decodeVal e b.toNat = .fin n m f → cellL cell ≤ f → topOf m f < cellL cell + 447 →
      ∃ sum, rmwAt (.xred r) e b c cell = (0#64, some (cell - cell % 2 ^ 480 + sum), 0#5) ∧ sum < 2 ^ 480 ∧
        (BitVec.ofNat 480 sum) = BitVec.ofNat 480 (cell % 2 ^ 480) + BitVec.ofInt 480 ((if n then -1 else 1) * (m * 2 ^ (f - cellL cell).toNat : Nat))) ∧
    (∀ cell, cell % 2 ^ 512 / 2 ^ 499 = 0 →
      (rmwAt (.xrd r) e b c cell).2.1 = none ∧
      let n := encodeVal e (rmOfEntry e) false (valOfInt (BitVec.ofNat 480 cell).toInt (cellL cell))
      (rmwAt (.xrd r) e b c cell) = (BitVec.ofNat 64 n.1, none, n.2))

/-! ### The format table, and the matching stores -/

/-- FTGET, FTSYNC and FTSET_PERFORMED (R91, R94 to R96). FTGET gives the entry in force. FTSYNC passes a's payload at once when no operation
or transfer of the instance still works with another value of the slot, and otherwise waits. FTSET, once every cluster has it, links its
thread; a well-formed entry takes effect whole and the old one is its result; a malformed one gives ILLFMT and changes no entry. -/
def Obligations.FormatTableRecords : Prop :=
  (∀ (s : State) (k : BitVec 5), noErr s →
    let e := fmtOf s s.firing.inst k.toNat
    let other := fun (cap : List (Nat × W64)) => ∃ c ∈ cap, c.1 = k.toNat ∧ c.2 ≠ e
    (∀ tg, Gives (.ftget k tg) (wide e) s) ∧
    ∀ r, fresh s →
      ((∀ p ∈ s.ops, p.inst = s.firing.inst → ¬ other p.cap) → (∀ x ∈ s.xfers, x.inst = s.firing.inst → ¬ other x.cap) →
        (∀ g ∈ s.co.regOut, s.nextId ∉ g.ops) →
        ∃ t, exec (.ftsync k r) s = .next t ∧ Sends s.firing (.ftsync k r) s.firing.a.payload false s t ∧ t.ops = s.ops ∧
          t.mem = s.mem ∧ t.co = s.co ∧ t.tiles = s.tiles ∧ t.xfers = s.xfers) ∧
      (∀ p ∈ s.ops, p.inst = s.firing.inst → p.id < s.nextId → p.ph ≠ .acks → other p.cap →
        ∃ t, exec (.ftsync k r) s = .next t ∧ Waits (.ftsync k r) .sync (firingCl s) [] none s t)) ∧
  ∀ (s : State) (o : Op) (r : MemRec) (n : Inst), o.ins = .ftset r → o.ph = .ftset → o.err = none → alone s o → findInst s o.inst = some n →
    let e := a64 (opFiring o)
    let k := r.fs.toNat
    ∃ t m p, exec (.ftsetPerformed o.id) s = .next t ∧ findInst t o.inst = some m ∧ findOp t o.id = some p ∧ p.ph = .done ∧
      linked r.seq (thrOf s o.inst o.tag.thr) (thrOf t o.inst o.tag.thr) ∧ t.flights = s.flights ∧ t.mem = s.mem ∧ t.co = s.co ∧
      (fmtMalformed e = false → m.fmt = n.fmt.set k e ∧ p.err = none ∧ p.val = wide (n.fmt.getD k 0#64)) ∧
      (fmtMalformed e = true → m.fmt = n.fmt ∧ p.err = some (BitVec.ofNat 64 (256 * k + 1)))

/-- The set that a token alone makes; `k` is the token as it arrives. -/
def Sys2Proof.Claims.oneToken (f : Flight) (k : Tok) : Machine.PSet :=
  { place := f.dst, tag := k.tag, a := if f.opnd = .a then some k else none, b := if f.opnd = .b then some k else none,
    c := if f.opnd = .c then some k else none, spilled := false, since := 0, recs := [] }
/-- A set with a token in one of its positions. -/
def Sys2Proof.Claims.withTok (x : Machine.PSet) (q : Pos) (k : Tok) : Machine.PSet :=
  match q with
  | .a => { x with a := some k }
  | .b => { x with b := some k }
  | .c => { x with c := some k }
/-- The set is of this slot and tag. -/
def Sys2Proof.Claims.isOf (p : Place) (t : Tag) (x : Machine.PSet) : Prop := x.place = p ∧ x.tag = t

/-- R332: the completion record is written from COMP + 8 on, then SIGNAL at COMP is read and written back one lower; `w` is the state after that. -/
def Sys2Proof.Claims.completes (c : Ctx) (comp : Nat) (bs : List Byte) (s w : State) : Prop :=
  ∃ els u x v es y fs z, sysPrep none c ⟨false, true, false⟩ (comp + 8) bs.length s = (.ok [], els, u) ∧
    sysPrep none c ⟨true, true, false⟩ comp 8 u = (.ok [], x, v) ∧
    sysPrep none c ⟨true, true, false⟩ comp 8 (sysWriteEls none els bs v) = (.ok [], es, y) ∧
    sysReadEls none es y = (fs, z) ∧ fs.any (·.2) = false ∧
    w = sysWriteEls none es (bytesOfNat (BitVec.ofNat 64 (natOfBytes ((fs.take 8).map (·.1))) - 1#64).toNat 8) z

/-- Table 15.7's bytes from 0x08 on for an instance that is quiet with nothing left in it (R183, Table 7.4): OUTCOME and CAUSE 0 with INST,
OFFSET and PAGE 0, the contact sheet (Table 15.8), the start and end times, and the report: STATUS, no slots and STRAND 0, the threads
that are LIVE, or CALLERs whose end has not come (the model's reading, assumption 27), and the lowest of them, the error count with the first
code, and its place and tag. -/
def Sys2Proof.Claims.quietRecord (s : State) (n : Inst) (c : Ctx) : List Byte :=
  let live := (n.threads.filter fun t => decide (t.st = .live) || (decide (t.st = .caller) && !t.eos)).map (·.thr.toNat)
  let status := if n.errCnt ≠ 0#32 then 1#8 else if live = [] then 0#8 else 2#8
  let p := n.errPlace
  let dies := (List.range (n.w * n.h)).foldl (fun (m : BitVec 4) k => m ||| (1#4 <<< (clusterAt (n.x0 + k % n.w) (n.y0 + k / n.w) / 128))) 0#4
  let ws : List W64 :=
    [0#32 ++ n.num, 0#64, 0#64, c.asid ++ dies ++ 0#4 ++ n.epoch ++ n.num,
     BitVec.ofNat 8 n.x0 ++ BitVec.ofNat 8 n.y0 ++ BitVec.ofNat 8 n.w ++ BitVec.ofNat 8 n.h ++ 0#32,
     BitVec.ofNat 64 n.tstart, BitVec.ofNat 64 s.time,
     status ++ 0#56, BitVec.ofNat 32 live.length ++ 0#16 ++ (if live = [] then 0#16 else BitVec.ofNat 16 (live.foldl min 65536)),
     n.errCnt ++ 0#24 ++ (if n.errCnt = 0#32 then 0#8 else n.errCode),
     if n.errCnt = 0#32 then 0#64 else
       BitVec.ofNat 8 p.x ++ BitVec.ofNat 8 p.y ++ BitVec.ofNat 5 p.pe ++ BitVec.ofNat 3 p.slot ++ n.errTag.thr ++ n.errTag.wave]
  ws.flatMap fun d => bytesOfNat d.toNat 8

/-- PROBE (R182, R183, R332). At an instance with no token, set, operation or transfer left whose nodes' counts balance, the first pass notes the sums and clears ACT;
when the sums stand and nothing has been active since, the next one ends it: it, its threads and its identity are gone. With COMP = 0 no memory
changes; with another, the completion record that Table 15.7 describes is written and its SIGNAL goes down by one, or, where COMP is no
multiple of 64, a FRONT entry of CAUSE 2 tells so. Its clusters' L1s hold nothing. That a CALLER whose end has not come counts as a LIVE
thread in the record and its STATUS is the model's reading (assumption 27). -/
def Obligations.QuietInstancesEnd : Prop :=
  ∀ (s : State) (n : Inst), findInst s n.iid = some n → n.phase = .running → n.injected = true → n.ending = false → n.sets = [] →
    (∀ f ∈ s.flights, f.inst ≠ n.iid) → (∀ o ∈ s.ops, o.inst ≠ n.iid) → (∀ x ∈ s.xfers, x.inst ≠ n.iid) →
    let snt := n.nodes.foldl (fun a c => a + c.sent) 0#64
    let rcv := n.nodes.foldl (fun a c => a + c.recv) 0#64
    let noted := fun (p : Option (W64 × W64)) => exec (.probe n.iid) s =
      .next (modInst n.iid (fun m => { m with probe1 := p, nodes := m.nodes.map fun c => { c with act := false } }) s)
    (n.probe1 = none → snt = rcv → noted (some (snt, rcv))) ∧
    (n.probe1 = none → snt ≠ rcv → noted none) ∧
    (n.probe1 = some (snt, rcv) → (n.nodes.any (·.act)) = true → noted none) ∧
    (n.probe1 = some (snt, rcv) → snt = rcv → (n.nodes.any (·.act)) = false →
      (∀ x ∈ s.co.l1w, x.cl ∉ instCls n) → (∀ x ∈ s.co.l1d, x.cl ∉ instCls n) →
      let comp := (n.pkt.getD 3 0#64).toNat
      let ends := fun (w : State) => ∃ t, exec (.probe n.iid) s = .next t ∧ t.insts = (w.insts.filter fun m => decide (m.iid ≠ n.iid)) ∧
        t.mem = w.mem ∧ t.co = w.co
      (comp = 0 → ends s ∧ ∀ t, exec (.probe n.iid) s = .next t → t.flights = s.flights ∧ t.ops = s.ops ∧ t.xfers = s.xfers) ∧
      (∀ c w, findCtx s n.ctx = some c → comp ≠ 0 → comp % 64 = 0 → (n.pkt.getD 0 0#64).extractLsb' 56 8 ≠ 2#8 →
        completes c comp (quietRecord s n c) s w → ends w) ∧
      (∀ c, findCtx s n.ctx = some c → comp % 64 ≠ 0 → ends s ∧ ∀ t, exec (.probe n.iid) s = .next t →
        ∃ e d, findCtx t n.ctx = some d ∧ d.held = (c.held.filter fun e => !(decide (e.inst = n.iid ∧ e.kind.toNat ≤ 5))) ++ [e] ∧
          e.kind = 7#8 ∧ e.acc = 1#4 ∧ e.va = BitVec.ofNat 64 comp ∧ e.data = BitVec.ofNat 16 n.queue ++ 2#8 ++ 0#40 ∧ e.inst = n.iid))

/-- The tokens of a spilled set as its records in the spill area give them (Table 17.7): each record is 64 bytes at SPILL + 64·r, its payload words
2 to 5, the width bit 57 of word 1, E bit 59 and S bit 58. `recs` names the records by position. -/
def Sys2Proof.Claims.readsRecords (c : Ctx) (n : Inst) (cl : Nat) : List (Nat × Nat) → Machine.PSet → State → Machine.PSet → State → Prop
  | [], x, s, y, t => y = x ∧ t = s
  | (p, r) :: l, x, s, y, t => ∃ (w : List W64) (u : State), w.length = 8 ∧
      sysRead (some cl) c (c.spool + n.spillB + 64 * r) 64 s = (.ok ((w.flatMap fun d => bytesOfNat d.toNat 8).map fun b => (b, false)), u) ∧
      let get := fun (k : Tok) =>
        { k with payload := w.getD 5 0#64 ++ w.getD 4 0#64 ++ w.getD 3 0#64 ++ w.getD 2 0#64, wide := (w.getD 1 0#64).getLsbD 57,
                 e := (w.getD 1 0#64).getLsbD 59, s := (w.getD 1 0#64).getLsbD 58 }
      readsRecords c n cl l (if p = 0 then { x with a := x.a.map get } else if p = 1 then { x with b := x.b.map get } else { x with c := x.c.map get }) u y t

/-- REFILL, AGE_OVERRIDE and CW_COPY_UPDATE (R177, R179, R180): the one set of a slot and tag, complete and spilled, comes back where there is
room, with the tokens that its records hold, which are then free; the record that has been ready longest at a PE, for 4,096 of its cycles (2,926
counts) or more, is put before the others; a PE's copy of a thread's CW becomes the wave-order unit's. -/
def Sys2Proof.Claims.RefillAndReorder : Prop :=
  ∀ (s : State) (n : Inst), findInst s n.iid = some n →
    (∀ pre x post c k u y v, n.phase ≠ .saved → n.sets = pre ++ x :: post → (∀ y ∈ pre ++ post, ¬ isOf x.place x.tag y) → x.spilled = true →
      setComplete n x = true → findCtx s n.ctx = some c →
      (n.sets.filter fun y => !y.spilled && decide (y.place.x = x.place.x ∧ y.place.y = x.place.y ∧ y.place.pe = x.place.pe)).length < 64 →
      let cl := clusterAt (n.x0 + x.place.x) (n.y0 + x.place.y)
      sysReady (some cl) c (x.recs.map fun r => (⟨true, false, false⟩, c.spool + n.spillB + 64 * r.2, 64)) 0 s = (.ok [], k, u) →
      readsRecords c n cl x.recs x u y v →
      exec (.refill n.iid x.place x.tag) s = .next (modInst n.iid (fun m => { m with sets := pre ++ { y with spilled := false, recs := [] } :: post }) v)) ∧
    (∀ cl pe x, instAt s cl = some n → n.forced = [] → x ∈ readySets n → instCl n x.place = cl → x.place.pe = pe →
      0 < x.since → x.since + 2926 ≤ s.time + 1 →
      (∀ y ∈ readySets n, instCl n y.place = cl → y.place.pe = pe → 0 < y.since → y ≠ x → x.since < y.since) →
      exec (.ageOverride cl pe) s = .next (modInst n.iid (fun m => { m with forced := m.forced ++ [(x.place, x.tag)] }) s)) ∧
    (∀ cl pe thr, cl < n.w * n.h → pe < 32 → ∃ t m, exec (.cwCopyUpdate n.iid cl pe thr) s = .next t ∧ findInst t n.iid = some m ∧
      { m with bases := n.bases } = n ∧ t = { s with insts := t.insts } ∧
      ∀ (p : Place) (u : BitVec 16), baseOf m p u = if p.y * n.w + p.x = cl ∧ p.pe = pe ∧ u = thr then (getThr n thr).cw else baseOf n p u)

/-- No token sent earlier goes to the same position that has the same source or that this one descends from (R15; assumption 51). -/
def Sys2Proof.Claims.mayLand (s : State) (k : Nat) (f : Flight) : Prop :=
  ∀ g ∈ s.flights.take k, ¬ (g.inst = f.inst ∧ g.dst = f.dst ∧ g.opnd = f.opnd ∧ (g.src = f.src ∨ sentKey g ∈ f.tok.deps))

/-- R177, R178, Table 17.7: a token that finds 64 sets at its PE, none of a key above its own, opens a set that is spilled at once: its record, the
first of the spill area when none is in use, is written at SPILL with KIND 0, ACT 0, its position, its flags, its payload and the rank
it has at its slot, tag and position. -/
def Sys2Proof.Claims.SpillsWriteRecords : Prop :=
  ∀ (s u : State) (k j : Nat) (f : Flight) (n : Inst) (c : Ctx), s.flights[k]? = some f → findInst s f.inst = some n → mayLand s k f →
    findCtx s n.ctx = some c → (∀ x ∈ n.sets, ¬ isOf f.dst f.tok.tag x ∧ x.recs = []) →
    let here := n.sets.filter fun x => !x.spilled && decide (x.place.x = f.dst.x ∧ x.place.y = f.dst.y ∧ x.place.pe = f.dst.pe)
    64 ≤ here.length → (∀ x ∈ here, keyOf n x.place x.tag ≤ keyOf n f.dst f.tok.tag) → 64 ≤ n.spillN →
    let by_ := some (clusterAt (n.x0 + f.dst.x) (n.y0 + f.dst.y))
    sysReady by_ c [(⟨false, true, false⟩, c.spool + n.spillB, 64)] 0 s = (.ok [], j, u) →
    let hi := fun (m : Nat) => if f.tok.wide then f.tok.payload.extractLsb' (64 * m) 64 else 0#64
    let p : Nat := match f.opnd with
      | .a => 0
      | .b => 1
      | .c => 2
    let words : List W64 :=
      [BitVec.ofNat 8 f.dst.x ++ BitVec.ofNat 8 f.dst.y ++ BitVec.ofNat 5 f.dst.pe ++ BitVec.ofNat 3 f.dst.slot ++ f.tok.tag.thr ++ f.tok.tag.wave,
       1#1 ++ 0#3 ++ BitVec.ofBool f.tok.e ++ BitVec.ofBool f.tok.s ++ BitVec.ofBool f.tok.wide ++ BitVec.ofNat 2 p ++ 0#2 ++ 0#21 ++ 0#32,
       f.tok.payload.extractLsb' 0 64, hi 1, hi 2, hi 3, 0#64, 0#64]
    let w := (sysWrite by_ c (c.spool + n.spillB) (words.flatMap fun d => bytesOfNat d.toNat 8) u).2
    ∃ d, exec (.tokenArrival k) s = .next (modInst n.iid
      (fun m => { m with sets := n.sets ++ [{ oneToken f { f.tok with deps := d } with spilled := true, recs := [(p, 0)] }] })
      (bumpNode f.inst (placeNode w f.inst f.dst) 0 1 { w with flights := w.flights.eraseIdx k }))

/-- TOKEN_ARRIVAL (R9, R15, R176, R178, R182): the token that was first sent from its source to its position leaves flight and is counted as
received by the cluster it reaches. It joins the one set of its slot and tag that waits for it; with none it opens a set among fewer than 64
at its PE; with 64 there and no spill records it is discarded and code 0x0B recorded. No other set changes. What spills, refill and age
order are stated with it. The clock, the refill of a set that is complete, which record a spilled token takes, and that no token overtakes
one it descends from are the model's (assumptions 1, 26, 36 and 51). -/
def Obligations.MatchingStoresTakeTokens : Prop :=
  RefillAndReorder ∧ SpillsWriteRecords ∧
  ∀ (s : State) (k : Nat) (f : Flight) (n : Inst), s.flights[k]? = some f → findInst s f.inst = some n → mayLand s k f →
    let here := n.sets.filter fun x => !x.spilled && decide (x.place.x = f.dst.x ∧ x.place.y = f.dst.y ∧ x.place.pe = f.dst.pe)
    let c := SweepNode.cluster (f.dst.y * n.w + f.dst.x)
    let ends := fun (sets : List Machine.PSet → Prop) (errs : Inst → Prop) => ∃ t m, exec (.tokenArrival k) s = .next t ∧
      t.flights = s.flights.eraseIdx k ∧ findInst t f.inst = some m ∧ sets m.sets ∧ errs m ∧ recvBy m c = recvBy n c + 1#64 ∧
      m.slots = n.slots ∧ m.threads = n.threads ∧ m.fmt = n.fmt ∧ m.flags = n.flags ∧
      t.ops = s.ops ∧ t.xfers = s.xfers ∧ t.mem = s.mem ∧ t.co = s.co ∧ t.tiles = s.tiles ∧ t.fe = s.fe
    let same := fun (m : Inst) => m.errCnt = n.errCnt
    ((∀ x ∈ n.sets, ¬ isOf f.dst f.tok.tag x) → here.length < 64 →
      ends (fun l => ∃ d, l = n.sets ++ [oneToken f { f.tok with deps := d }]) same) ∧
    (∀ pre x post, n.sets = pre ++ x :: post → isOf f.dst f.tok.tag x → (∀ y ∈ pre ++ post, ¬ isOf f.dst f.tok.tag y) → x.spilled = false →
      (match f.opnd with
       | .a => x.a
       | .b => x.b
       | .c => x.c) = none →
      ends (fun l => ∃ d, l = pre ++ withTok x f.opnd { f.tok with deps := d } :: post) same) ∧
    ((∀ x ∈ n.sets, ¬ isOf f.dst f.tok.tag x ∧ (x.a.isSome || x.b.isSome || x.c.isSome) = true) → 64 ≤ here.length → n.spillN = 0 →
      ends (fun l => l = n.sets) fun m => m.errCnt = (if n.errCnt = 0xFFFFFFFF#32 then n.errCnt else n.errCnt + 1#32) ∧
        (n.errCnt = 0#32 → m.errCode = 0x0B#8 ∧ m.errTag = f.tok.tag ∧ m.errPlace = f.dst))

/-! ### Tiles, accumulators and sparse streams -/

/-- The handle that a record's handle selects in its ring under the firing wave (R269). -/
def Sys2Proof.Claims.sel (s : State) (h : BitVec 8) : Nat :=
  let n := 2 ^ teRING (tdir s (firingCl s) h.toNat)
  h.toNat - h.toNat % n + s.firing.tag.wave.toNat % n
/-- A directory entry with another STATE. -/
def Sys2Proof.Claims.stateIs (e : W64) (st : BitVec 2) : W64 := st ++ e.extractLsb' 0 62
/-- R273's items 1 to 3 for one tile: an entry, of a format that the path accepts, in its container. -/
def Sys2Proof.Claims.tileOk (s : State) (path : W64 → Bool) (e : W64) : Prop :=
  e ≠ 0#64 ∧ path (fmtOf s s.firing.inst (teFMT e)) = true ∧ containerOf (fmtOf s s.firing.inst (teFMT e)) = teC e
/-- The record goes on as an operation of its cluster's tile unit in a phase; nothing is emitted, no tile or accumulator element, cache or memory changes. -/
def Sys2Proof.Claims.Starts (i : Instr) (ph : Phase) (s t : State) : Prop :=
  (∃ o, t.ops = s.ops ++ [o] ∧ o.id = s.nextId ∧ o.ins = i ∧ o.ph = ph ∧ o.cl = firingCl s ∧ opFiring o = s.firing) ∧
  t.flights = s.flights ∧ t.insts = s.insts ∧ t.mem = s.mem ∧ t.co = s.co ∧ t.tiles.bytes = s.tiles.bytes ∧ t.tiles.words = s.tiles.words
/-- The directories of all clusters, but for these entries. -/
def Sys2Proof.Claims.dirIs (s t : State) (new : Nat → Option W64) : Prop :=
  ∀ c j, j < 256 → tdir t c j = if c = firingCl s then (new j).getD (tdir s c j) else tdir s c j
/-- The reader counts of all clusters' tiles, but for one more at handle k. -/
def Sys2Proof.Claims.moreReaders (s t : State) (k : Nat) : Prop :=
  ∀ c j, j < 256 → tReaders t c j = if c = firingCl s ∧ j = k then tReaders s c j + 1 else tReaders s c j

/-- The tile's bytes lie in the store, and its lines and elements fill whole bytes (R267). -/
def Sys2Proof.Claims.tileLies (e : W64) : Prop :=
  teBASE e * 256 + teRows e * teCols e * teC e / 8 ≤ 2 ^ 20 ∧ teCols e * teC e % 8 = 0 ∧ (teLAYOUT e = true → teRows e * teC e % 8 = 0)
/-- The bytes of two tiles of one cluster do not meet. -/
def Sys2Proof.Claims.apart (e y : W64) : Prop :=
  teBASE e * 256 + teRows e * teCols e * teC e / 8 ≤ teBASE y * 256 ∨ teBASE y * 256 + teRows y * teCols y * teC y / 8 ≤ teBASE e * 256

/-- TLD.ACC and TST.ACC end (R277): the words loaded, four bytes each from the lowest address on, stand row by row in the accumulator, which is FULL; a
TST.ACC has one reader less and leaves every word as it was. The token names the accumulator. -/
def Sys2Proof.Claims.AccumulatorsMove : Prop :=
  ∀ (s : State) (o : Op) (h : BitVec 4) (tg : List Target) (k : Nat) (w : W64), mineAlone s o → o.ph = .done → o.act = some (k, w) → k < 16 →
    let a := accGet s o.cl k
    let r := (w.extractLsb' 49 7).toNat + 1
    let n := (w.extractLsb' 42 7).toNat + 1
    let ends := fun (b : AccD) (P : State → Prop) => ∃ t, exec (.tileCompletion o.id) s = .next t ∧
      Sends (opFiring o) o.ins (wide (BitVec.ofNat 64 k)) false s t ∧ t.ops = (s.ops.filter fun p => decide (p.id ≠ o.id)) ∧
      (∀ c j, j < 16 → accGet t c j = if c = o.cl ∧ j = k then b else accGet s c j) ∧ t.tiles.bytes = s.tiles.bytes ∧ t.tiles.dir = s.tiles.dir ∧
      t.mem = s.mem ∧ t.co = s.co ∧ P t
    (∀ bs : List Byte, o.ins = .tldAcc h tg → o.els.flatMap (fun z => bytesOfWords z o.got) = bs.map (fun b => (b, false)) → bs.length = 4 * (r * n) →
      ends { a with st := 1#2 } fun t =>
        (∀ i j, i < r → j < n → let p := 4 * (i * n + j)
          accElem t o.cl k i j = bs.getD (p + 3) 0#8 ++ bs.getD (p + 2) 0#8 ++ bs.getD (p + 1) 0#8 ++ bs.getD p 0#8) ∧
        ∀ c q x z, q < 16 → x < 128 → z < 128 → ¬ (c = o.cl ∧ q = k ∧ x < r ∧ z < n) → accElem t c q x z = accElem s c q x z) ∧
    (o.ins = .tstAcc h tg → ends { a with readers := a.readers - 1 } fun t => t.tiles.words = s.tiles.words)

/-- The last piece that a TST or TST.ACC stores (R276, R277), into a D-page sector that its L1 holds in E or M: the bytes are those of the tile's line, or
the words of the accumulator row by row, lowest byte first, and the access is over. -/
def Sys2Proof.Claims.TilePiecesStore : Prop :=
  ∀ (s : State) (o : Op) (i : Nat) (x : El) (d : L1Sec) (h k : Nat) (w : W64), mineAlone s o → o.ph = .miss → o.left = [i] → o.els[i]? = some x →
    (x.kind = .d ∨ x.kind = .hostc) → 1 ≤ x.len → x.pa % 64 + x.len ≤ 64 → o.act = some (k, w) → s.tiles.badT = [] → s.tiles.badA = [] →
    l1dFind s o.cl (x.pa / 64 * 64) = some d → d.st = .e ∨ d.st = .m → h = x.pa % 64 →
    let stored := fun (byte : Nat → Byte) => ∃ t p q, exec (.dataReturn (.op o.id)) s = .next t ∧ findOp t o.id = some p ∧ p.ph = .done ∧ p.left = [] ∧
      p.err = none ∧ l1dFind t o.cl (x.pa / 64 * 64) = some q ∧ q.st = .m ∧
      (∀ j, j < 64 → (q.data.getD (j / 4) 0#32).extractLsb' (8 * (j % 4)) 8 =
        if h ≤ j ∧ j < h + x.len then byte (j - h) else (d.data.getD (j / 4) 0#32).extractLsb' (8 * (j % 4)) 8) ∧
      (∀ c a, c ≠ o.cl ∨ a ≠ x.pa / 64 * 64 → l1dFind t c a = l1dFind s c a) ∧
      t.mem = s.mem ∧ t.co = { s.co with l1d := t.co.l1d } ∧ t.tiles = s.tiles ∧ t.xfers = s.xfers ∧ t.flights = s.flights
    (∀ g tg, o.ins = .tst g tg →
      let per := (lineLen w + 31) / 32
      x.len = min 32 (lineLen w - 32 * (i % per)) → stored fun j => lineByte s o.cl w (i / per) (32 * (i % per) + j)) ∧
    (∀ g tg, o.ins = .tstAcc g tg →
      let r := (w.extractLsb' 49 7).toNat + 1
      let n := (w.extractLsb' 42 7).toNat + 1
      x.len = min 32 (4 * (r * n) - 32 * i) →
        stored fun j => let e := 8 * i + j / 4
          (accElem s o.cl k (e / n) (e % n)).extractLsb' (8 * (j % 4)) 8)

/-- TILE_COMPLETION (R270, R276, R278, R291), where no unit is bad: TTRN copies every element bit for bit to the mirrored place; TCVT converts every element into the destination's format; SPACC adds the
stream's value into its element with one rounding and gives the new code; a TLD whose bytes have come puts each into its place, line by line, and makes the tile FULL. The
result goes to every target and the operation is over. What TLD.ACC and TST.ACC move (R277), and the bytes that a piece of a store takes, are stated with
it. -/
def Obligations.TileOperationsComplete : Prop :=
  AccumulatorsMove ∧ TilePiecesStore ∧
  ∀ (s : State) (o : Op), mineAlone s o → s.tiles.badT = [] → memWf s.tiles.bytes = true →
    let f := opFiring o
    let ends := fun (pay : Nat) (at_ : Nat) (st : BitVec 2) (P : State → Prop) => ∃ t, exec (.tileCompletion o.id) s = .next t ∧
      Sends f o.ins (wide (BitVec.ofNat 64 pay)) false s t ∧ t.ops = (s.ops.filter fun p => decide (p.id ≠ o.id)) ∧
      tdir t o.cl at_ = stateIs (tdir s o.cl at_) st ∧ t.mem = s.mem ∧ t.co = s.co ∧ t.tiles.words = s.tiles.words ∧ P t
    let x := tdir s o.cl (o.n / 256)
    let y := tdir s o.cl (o.n % 256)
    (o.ph = .tile → tileLies x → tileLies y → apart x y →
      (∀ a b tg, o.ins = .ttrn a b tg → teRows y = teCols x → teCols y = teRows x → teC x = teC y →
        ends (o.n % 256) (o.n % 256) 1#2 fun t => ∀ i j, i < teRows x → j < teCols x → tileElem t o.cl y j i = tileElem s o.cl x i j) ∧
      (∀ a b tg, o.ins = .tcvt a b tg → teRows y = teRows x → teCols y = teCols x →
        let fx := assocGet 0#64 o.cap (teFMT x)
        let fy := assocGet 0#64 o.cap (teFMT y)
        ends (o.n % 256) (o.n % 256) 1#2 fun t => ∀ i j, i < teRows x → j < teCols x →
          tileElem t o.cl y i j = (encodeVal fy (rmOfEntry fy) false (decodeVal fx (tileElem s o.cl x i j)).quiet).1 % 2 ^ teC y)) ∧
    (∀ h tg k e, o.ph = .tile → o.ins = .spacc h tg → o.act = some (k, e) → tileLies e → k < 256 →
      let i := ((a64 f).extractLsb' 48 16).toNat
      let j := ((a64 f).extractLsb' 32 16).toNat
      let F := assocGet 0#64 o.cap (teFMT e)
      let p := operand F false (tileElem s o.cl e i j)
      let q := operand F false ((a64 f).extractLsb' 0 32).toNat
      let v := (encodeVal F (rmOfEntry F) false (opAdd (decide (rmOfEntry F = .rdn)) p.1 q.1).1).1
      fmtValid F = true → i < teRows e → j < teCols e → ends v k 1#2 fun t => tileElem t o.cl e i j = v % 2 ^ teC e ∧
        ∀ u w, u < teRows e → w < teCols e → (u ≠ i ∨ w ≠ j) → tileElem t o.cl e u w = tileElem s o.cl e u w) ∧
    (∀ h tg k e (bs : List Byte), o.ph = .done → o.ins = .tld h tg → o.act = some (k, e) → tileLies e → k < 256 →
      o.els.flatMap (fun z => bytesOfWords z o.got) = bs.map (fun b => (b, false)) → bs.length = lineCount e * lineLen e →
      ends k k 1#2 fun t => ∀ c, c < lineCount e → lineBytes t o.cl e c = (bs.drop (c * lineLen e)).take (lineLen e)) ∧
    (∀ h tg k e, o.ph = .done → o.ins = .tst h tg → o.act = some (k, e) → k < 256 →
      ends k k ((tdir s o.cl k).extractLsb' 62 2) fun t => tReaders t o.cl k = tReaders s o.cl k - 1 ∧ t.tiles.bytes = s.tiles.bytes)

/-- The accumulator forms, TDESC and the queries as they fire (R274, R275, R277, R279): the descriptor that each leaves, the elements that TZERO.ACC clears, the ring that TDESC
writes and the entry it replaces, and what the queries give. -/
def Sys2Proof.Claims.AccumulatorsFire : Prop :=
  ∀ (s : State) (h : BitVec 8) (q : BitVec 4) (tg : List Target), noErr s → fresh s →
    let cl := firingCl s
    let a := accGet s cl q.toNat
    let full := a.st = 1#2
    let accIs := fun (t : State) (b : AccD) => ∀ c j, j < 16 → accGet t c j = if c = cl ∧ j = q.toNat then b else accGet s c j
    let e := a64 s.firing
    let n := 2 ^ teRING e
    let writes := fun (new : Nat → Option W64) => ∃ t, exec (.tdesc h tg) s = .next t ∧
      Sends s.firing (.tdesc h tg) (wide (tdir s cl h.toNat)) false s t ∧ dirIs s t new ∧ t.tiles.bytes = s.tiles.bytes ∧ t.mem = s.mem ∧ t.co = s.co
    (∃ t, exec (.tldAcc q tg) s = .next t ∧ Starts (.tldAcc q tg) .tile s t ∧
      accIs t { a with st := 2#2, rows := if full then a.rows else 127#7, cols := if full then a.cols else 127#7, cur := s.firing.tag }) ∧
    (∃ t, exec (.tstAcc q tg) s = .next t ∧ Starts (.tstAcc q tg) .tile s t ∧ accIs t { a with readers := a.readers + 1 }) ∧
    (∃ t, exec (.tzeroAcc q tg) s = .next t ∧ Sends s.firing (.tzeroAcc q tg) (wide (BitVec.ofNat 64 q.toNat)) false s t ∧
      accIs t { a with st := 0#2, rows := 0#7, cols := 0#7, cur := s.firing.tag } ∧
      (∀ c j x z, j < 16 → x < 128 → z < 128 → accElem t c j x z = if c = cl ∧ j = q.toNat then 0#32 else accElem s c j x z) ∧
      t.tiles.bytes = s.tiles.bytes ∧ t.mem = s.mem ∧ t.co = s.co) ∧
    (e = 0#64 → writes fun j => if j = h.toNat then some 0#64 else none) ∧
    (e ≠ 0#64 → teSTATE e = 0 → teWellFormed e = true → h.toNat % n = 0 → h.toNat + n ≤ 256 →
      writes fun j => if h.toNat ≤ j ∧ j < h.toNat + n then some (e + (BitVec.ofNat 64 ((j - h.toNat) * teSpan e)) <<< 21) else none) ∧
    (e ≠ 0#64 → (teSTATE e ≠ 0 ∨ teWellFormed e = false ∨ h.toNat % n ≠ 0 ∨ 256 < h.toNat + n) →
      exec (.tdesc h tg) s = .next (emits (.tdesc h tg) (errorTok (.tdesc h tg) (BitVec.ofNat 64 (256 * h.toNat + 2)) s) s)) ∧
    Gives (.tqry h tg) (wide (tdir s cl (sel s h))) s ∧
    Gives (.tqryAcc q tg) (wide (a.st ++ 0#6 ++ a.rows ++ a.cols ++ 0#2 ++ a.cur.thr ++ a.cur.wave)) s

/-- TLD, TST, TZERO, TEMPTY, TCVT, TTRN and SPACC as they fire (R270, R273, R276 to R278, R291): what the tile's directory entry becomes, the readers, the completion token of those that
end at once, and the errors of their checks, which change no tile; a TCVT or TTRN whose two handles select one tile, or whose shapes do not fit, is such an error, and that its
TILE_STATE names the destination handle (256 * d + 3) is the model's choice: Table 16.10 says only 'selected handle' (assumption 66). The accumulator forms and descriptors follow. -/
def Obligations.TileAndAccumulatorRecordsFire : Prop :=
  AccumulatorsFire ∧
  ∀ (s : State) (h g : BitVec 8) (tg : List Target), noErr s → fresh s →
    let cl := firingCl s
    let k := sel s h
    let d := sel s g
    let e := tdir s cl k
    let y := tdir s cl d
    let only := fun (n : Nat) (v : W64) (j : Nat) => if j = n then some v else none
    let ends := fun (i : Instr) (n : Nat) (t : State) => exec i s = .next t ∧ Sends s.firing i (wide (BitVec.ofNat 64 n)) false s t ∧
      t.mem = s.mem ∧ t.co = s.co ∧ t.ops = s.ops ∧ t.tiles.words = s.tiles.words
    (tileOk s acceptScalar e →
      (∃ t, exec (.tld h tg) s = .next t ∧ Starts (.tld h tg) .tile s t ∧ dirIs s t (only k (stateIs e 2#2)) ∧ t.tiles.readers = s.tiles.readers) ∧
      (∃ t, exec (.tst h tg) s = .next t ∧ Starts (.tst h tg) .tile s t ∧ t.tiles.dir = s.tiles.dir ∧ moreReaders s t k) ∧
      (teCols e * teC e % 8 = 0 → ∃ t, ends (.tzero h tg) k t ∧ dirIs s t (only k (stateIs e 1#2)) ∧
        (∀ i j, i < teRows e → j < teCols e → tileElem t cl e i j = 0) ∧
        ∀ a, (a < 2 ^ 20 * cl + teBASE e * 256 ∨ 2 ^ 20 * cl + teBASE e * 256 + teRows e * teCols e * teC e / 8 ≤ a) →
          memGet t.tiles.bytes a = memGet s.tiles.bytes a) ∧
      (teSTATE e ≠ 0 → ∃ t, ends (.tempty h tg) k t ∧ dirIs s t (only k (stateIs e 0#2)) ∧ t.tiles.bytes = s.tiles.bytes) ∧
      (teSTATE e = 0 → exec (.tempty h tg) s = .next (emits (.tempty h tg) (errorTok (.tempty h tg) (BitVec.ofNat 64 (256 * k + 3)) s) s))) ∧
    (tileOk s acceptLanes e → tileOk s acceptLanes y → k ≠ d → teRows e = teRows y → teCols e = teCols y →
      ∃ t, exec (.tcvt h g tg) s = .next t ∧ Starts (.tcvt h g tg) .tile s t ∧ dirIs s t (only d (stateIs y 2#2)) ∧ moreReaders s t k) ∧
    (tileOk s acceptScalar e → tileOk s acceptScalar y → k ≠ d → teRows y = teCols e → teCols y = teRows e → teC e = teC y →
      ∃ t, exec (.ttrn h g tg) s = .next t ∧ Starts (.ttrn h g tg) .tile s t ∧ dirIs s t (only d (stateIs y 2#2)) ∧ moreReaders s t k) ∧
    (∀ i, (i = .tcvt h g tg ∧ tileOk s acceptLanes e ∧ tileOk s acceptLanes y ∧ (k = d ∨ teRows e ≠ teRows y ∨ teCols e ≠ teCols y)) ∨
      (i = .ttrn h g tg ∧ tileOk s acceptScalar e ∧ tileOk s acceptScalar y ∧ (k = d ∨ teRows y ≠ teCols e ∨ teCols y ≠ teRows e ∨ teC e ≠ teC y)) →
      exec i s = .next (emits i (errorTok i (BitVec.ofNat 64 (256 * d + 3)) s) s)) ∧
    (tileOk s acceptLanes e →
      let i := ((a64 s.firing).extractLsb' 48 16).toNat
      let j := ((a64 s.firing).extractLsb' 32 16).toNat
      (i < teRows e → j < teCols e →
        ∃ t, exec (.spacc h tg) s = .next t ∧ Starts (.spacc h tg) .tile s t ∧ dirIs s t (only k (stateIs e 2#2))) ∧
      (teRows e ≤ i ∨ teCols e ≤ j →
        exec (.spacc h tg) s = .next (emits (.spacc h tg) (errorTok (.spacc h tg) (BitVec.ofNat 64 (256 * k + 2)) s) s))) ∧
    (∀ i, i = .tld h tg ∨ i = .tst h tg ∨ i = .tzero h tg ∨ i = .tempty h tg →
      (e = 0#64 → exec i s = .next (emits i (errorTok i (BitVec.ofNat 64 (256 * k + 3)) s) s)) ∧
      (e ≠ 0#64 → ¬ tileOk s acceptScalar e → exec i s = .next (emits i (errorTok i (BitVec.ofNat 64 (256 * teFMT e + 1)) s) s)))

/-- SSTRM_TOKEN (R289): with the words of its access come, a stream takes in its descriptor, ends at coordinate 0xFFFF_FFFF or after COUNT elements with the end token, passes over a zero, and emits
(coordinate, code) for any other value. -/
def Sys2Proof.Claims.StreamsEmit : Prop :=
  ∀ (s : State) (o : Op) (fs : BitVec 5) (tg : List Target) (v : Nat), o.ins = .sstrm fs tg → o ∈ s.ops → (∀ p ∈ s.ops, p.id = o.id → p = o) →
    o.err = none →
    let f := opFiring o
    let d := BitVec.ofNat 256 v
    let F := (o.cap.head?.map (·.2)).getD 0#64
    let c := containerOf F
    let e := (o.val.extractLsb' 128 64).toNat + o.n
    let code := (if c = 4 then v / 16 ^ (e % 2) % 16 else v) % 2 ^ fW F
    let emit := fun (pay : W64) (sf : Bool) (t : State) => ∃ ds, t.flights = s.flights ++ (targetsOf o.ins).map fun g =>
      { inst := f.inst, src := .slot f.place, node := placeNode s f.inst f.place, sent := s.tick, dst := targetPlace f.place g, opnd := g.opnd,
        tok := { payload := wide pay, wide := false, tag := f.tag, e := false, s := sf, deps := ds } }
    let go := fun (P : Op → Prop) (t : State) => exec (.sstrmToken o.id) s = .next t ∧ ∃ p, findOp t o.id = some p ∧ p.ph = .stream ∧ P p
    let gone := fun (t : State) => exec (.sstrmToken o.id) s = .next t ∧ t.ops = s.ops.filter fun p => decide (p.id ≠ o.id)
    (o.ph = .done → (loadedBytes o).any (·.2) = false → natOfBytes ((loadedBytes o).map (·.1)) = v →
      (∀ w, o.act = some (0, w) → d.extractLsb' 0 2 = 0#2 → d.extractLsb' 64 2 = 0#2 → d.extractLsb' 224 32 = 0#32 →
        o.n = 0 → ∃ t, go (fun p => p.val = d ∧ p.n = 0 ∧ p.act.map (·.1) = some 1) t ∧ t.flights = s.flights) ∧
      (∀ w, o.act = some (1, w) → v = 0xFFFFFFFF → ∃ t, gone t ∧ emit 0xFFFFFFFF00000000#64 o.a.s t) ∧
      (∀ w, o.act = some (1, w) → v < 0xFFFFFFFF → ∃ t, go (fun p => p.n = o.n ∧ p.act = some (2, BitVec.ofNat 64 v)) t ∧ t.flights = s.flights) ∧
      (∀ w, o.act = some (2, w) → (decodeVal F code).isZero = false →
        ∃ t, go (fun p => p.n = o.n + 1 ∧ p.act.map (·.1) = some 1) t ∧ emit ((w <<< 32) ||| BitVec.ofNat 64 code) false t) ∧
      (∀ w, o.act = some (2, w) → (decodeVal F code).isZero = true →
        ∃ t, go (fun p => p.n = o.n + 1 ∧ p.act.map (·.1) = some 1) t ∧ t.flights = s.flights)) ∧
    (∀ w, o.ph = .stream → o.act = some (1, w) → (o.val.extractLsb' 192 32).toNat ≤ o.n → ∃ t, gone t ∧ emit 0xFFFFFFFF00000000#64 o.a.s t)

/-- ISECT and SSTRM as they fire (R288 to R290): ISECT emits a matched pair, or the end of both streams, and keeps first the token with the higher coordinate; SSTRM
starts a stream at element 0 of its descriptor, under a format that the lanes path accepts. A stream that has started emits its elements. -/
def Obligations.SparseStreamsMeetAndEmit : Prop :=
  StreamsEmit ∧
  ∀ (s : State) (tg : List Target) (n : Inst), noErr s → findInst s s.firing.inst = some n →
    let f := s.firing
    let i : Instr := .isect tg
    let ca := (a64 f).extractLsb' 32 32
    let cb := (b64 f).extractLsb' 32 32
    let mine := fun (m : Inst) => m.sets.filter fun x => decide (x.place = f.place ∧ x.tag = f.tag)
    let keeps := fun (as' bs : List Tok) => ∃ t m, exec i s = .next t ∧ t.flights = s.flights ∧ findInst t f.inst = some m ∧
      ((mine m).filterMap fun x => x.a) = as' ++ (mine n).filterMap (fun x => x.a) ∧
      ((mine m).filterMap fun x => x.b) = bs ++ (mine n).filterMap (fun x => x.b) ∧
      (m.sets.filter fun x => decide (x.place = f.place → x.tag ≠ f.tag)) = (n.sets.filter fun x => decide (x.place = f.place → x.tag ≠ f.tag))
    (ca = 0xFFFFFFFF#32 → cb = ca → Gives i (wide 0xFFFFFFFF00000000#64) s) ∧
    (ca ≠ 0xFFFFFFFF#32 → cb = ca → exec i s = .next (emits i
      (tok i f.tag (wide (ca ++ (a64 f).extractLsb' 0 16 ++ (b64 f).extractLsb' 0 16)) false s) s)) ∧
    (ca < cb → keeps [] [f.b]) ∧ (cb < ca → keeps [f.a] []) ∧
    (∀ k, fresh s → acceptLanes (entry s k) = true → ∃ t o, exec (.sstrm k tg) s = .next t ∧
      Starts (.sstrm k tg) .stream s t ∧ t.ops = s.ops ++ [o] ∧ o.n = 0 ∧ o.cap = [(k.toNat, entry s k)]) ∧
    (∀ k, acceptLanes (entry s k) = false → exec (.sstrm k tg) s =
      .next (emits (.sstrm k tg) (errorTok (.sstrm k tg) (BitVec.ofNat 64 (256 * k.toNat + 1)) s) s))

/-! ### The matrix unit -/

/-- The parts of an MMA record: D, A (or the source accumulator), B, C with 0xFF for none, and the scale tiles of MMA.MX and MMA.TWO (R50). -/
def Sys2Proof.Claims.mmaOf : Instr → Option (MmaRec × List (BitVec 8))
  | .mmaDense m => some (m, [m.ta, m.tb] ++ (if m.tc = 0xFF#8 then [] else [m.tc]))
  | .mmaAcca _ _ _ m => some (m, [m.tb] ++ (if m.tc = 0xFF#8 then [] else [m.tc]))
  | .mmaMx sa sb m => some (m, [m.ta, m.tb] ++ (if m.tc = 0xFF#8 then [] else [m.tc]) ++ [sa, sb])
  | .mmaTwo ba bb sa sb m => some (m, [m.ta, m.tb] ++ (if m.tc = 0xFF#8 then [] else [m.tc]) ++ [sa, sb] ++
      (if ba = 0xFF#8 then [] else [ba]) ++ (if bb = 0xFF#8 then [] else [bb]))
  | _ => none

/-- The sum of sixteen products added to the accumulator and rounded once into binary32 to nearest, for each block of sixteen in ascending k (R285). -/
def Sys2Proof.Claims.macBlocks (a b : Nat → Val) : Nat → Val → Val
  | 0, x => x
  | q + 1, x =>
    let y := macBlocks a b q x
    let l := (List.range 16).map fun k => vmul (a (16 * q + k)) (b (16 * q + k))
    decodeVal b32 (encodeVal b32 .rne false (opAdd false y (blockSum l).1).1).1

/-- A block of finite products is summed exactly (R285): with every product finite, so is the sum, it equals the sum of the products, and no flag is raised. -/
def Sys2Proof.Claims.BlocksAreExact : Prop :=
  ∀ (l : List Val) (g : Int), (∀ v ∈ l, v.isFinite = true ∧ above g v) →
    let r := blockSum (l.map fun v => (v, false))
    r.1.isFinite = true ∧ r.2 = 0#5 ∧ scaled r.1 g = (l.map fun v => scaled v g).foldl (· + ·) 0

/-- Two entries that some matrix rate of Table 4.5 takes together (R281): both float entries, or both with EW = 0 and at most 8 bits. -/
def Sys2Proof.Claims.matrixPair (a b : W64) : Bool :=
  fmtValid a && fmtValid b && decide (fSPV a ≤ 2 ∧ fSPV b ≤ 2) &&
  decide ((fEW a = 0 ∧ fEW b = 0 ∧ fW a ≤ 8 ∧ fW b ≤ 8) ∨
    (1 ≤ fEW a ∧ fEW a ≤ 8 ∧ fFW a ≤ 23 ∧ 1 ≤ fEW b ∧ fEW b ≤ 8 ∧ fFW b ≤ 23))
/-- The scale tiles of MMA.MX and MMA.TWO with the side each scales (A's or B's) and its kind (block or band). -/
def Sys2Proof.Claims.scaleTiles : Instr → List (BitVec 8 × Bool × Bool)
  | .mmaMx sa sb _ => [(sa, true, true), (sb, false, true)]
  | .mmaTwo ba bb sa sb _ => [(sa, true, true), (sb, false, true)] ++ (if ba = 0xFF#8 then [] else [(ba, true, false)]) ++
      (if bb = 0xFF#8 then [] else [(bb, false, false)])
  | _ => []
/-- R273's item 3 for an MMA in R281's order, each slot with whether it passes: A's or FS, B's, C's, the block-scale tiles', the band-scale tiles', and the slots that
A's and B's entries bind. A band-scale handle given for an entry with SCL ≠ 2 fails at that entry's slot (the model's choice, assumption 66). -/
def Sys2Proof.Claims.mmaFormats (s : State) (i : Instr) (m : MmaRec) : List (Nat × Bool) :=
  let ent := fun (h : BitVec 8) => tdir s (firingCl s) (sel s h)
  let slot := fun (h : BitVec 8) => teFMT (ent h)
  let F := fun (k : Nat) => fmtOf s s.firing.inst k
  let boxed := fun (h : BitVec 8) => decide (containerOf (F (slot h)) = teC (ent h))
  let ka := match i with
    | .mmaAcca fs _ _ _ => fs.toNat
    | _ => slot m.ta
  let boxA := match i with
    | .mmaAcca _ _ _ _ => true
    | _ => boxed m.ta
  let kb := slot m.tb
  let l := scaleTiles i
  let scaled := !l.isEmpty
  let side := fun (isA : Bool) (k : Nat) => !scaled || (decide (1 ≤ fSCL (F k)) && (decide (fSCL (F k) = 2) || !l.any fun x => decide (x.2 = (isA, false))))
  let tile := fun (x : BitVec 8 × Bool × Bool) =>
    let e := F (if x.2.1 then ka else kb)
    (slot x.1, boxed x.1 && if x.2.2 then decide (slot x.1 = fSCS e) && acceptBlockScale (F (slot x.1))
      else decide (slot x.1 = fBSS e) && acceptBandScale (F (slot x.1)))
  let bound := fun (k : Nat) => if scaled then
      (fSCS (F k), acceptBlockScale (F (fSCS (F k)))) :: (if fSCL (F k) = 2 then [(fBSS (F k), acceptBandScale (F (fBSS (F k))))] else [])
    else []
  [(ka, matrixPair (F ka) (F ka) && boxA && side true ka), (kb, matrixPair (F kb) (F kb) && boxed m.tb && matrixPair (F ka) (F kb) && side false kb)] ++
    (if m.tc = 0xFF#8 then [] else [(slot m.tc, acceptLanes (F (slot m.tc)) && boxed m.tc)]) ++ l.map tile ++ bound ka ++ bound kb
/-- m, k and n of the product (R280), from the rows and columns of A, or of the source accumulator, and of B. -/
def Sys2Proof.Claims.mmaDims (s : State) (i : Instr) (m : MmaRec) : Nat × Nat × Nat :=
  let ent := fun (h : BitVec 8) => tdir s (firingCl s) (sel s h)
  let a := match i with
    | .mmaAcca _ _ _ _ => let x := accGet s (firingCl s) (m.ta.toNat % 16); (x.rows.toNat + 1, x.cols.toNat + 1)
    | _ => (teRows (ent m.ta), teCols (ent m.ta))
  (a.1, a.2, teCols (ent m.tb))
/-- The shape rules of R280 and R284. -/
def Sys2Proof.Claims.mmaShapesFit (s : State) (i : Instr) (r : MmaRec) : Bool :=
  let ent := fun (h : BitVec 8) => tdir s (firingCl s) (sel s h)
  let F := fun (h : BitVec 8) => fmtOf s s.firing.inst (teFMT (ent h))
  let D := accGet s (firingCl s) r.d.toNat
  let src := accGet s (firingCl s) (r.ta.toNat % 16)
  let m := (mmaDims s i r).1
  let k := (mmaDims s i r).2.1
  let n := (mmaDims s i r).2.2
  let is := fun (h : BitVec 8) (x y : Nat) => decide (teRows (ent h) = x ∧ teCols (ent h) = y)
  let up := fun (x y : Nat) => (x + y - 1) / y
  decide (teRows (ent r.tb) = k ∧ k % 32 = 0 ∧ 32 ≤ k ∧ k ≤ 512 ∧ m ≤ 128 ∧ n ≤ 128) &&
  (if r.tc = 0xFF#8 then decide (D.st = 1#2 → D.rows.toNat + 1 = m ∧ D.cols.toNat + 1 = n) else is r.tc m n) &&
  (match i with
    | .mmaAcca _ _ _ _ => decide (src.st ≠ 0#2 ∧ r.ta.toNat % 16 ≠ r.d.toNat)
    | _ => true) &&
  (scaleTiles i).all fun x => match x.2 with
    | (true, true) => is x.1 m (k / blkOf (F r.ta))
    | (false, true) => is x.1 (k / blkOf (F r.tb)) n
    | (true, false) => is x.1 (up m (bandOf (F r.ta))) 1
    | (false, false) => is x.1 1 (up n (bandOf (F r.tb)))

/-- The MMA forms as they fire (R270, R273, R280 to R284). When every check passes, the MMA is queued: D is BUSY with the new shape (that AROWS and ACOLS give the new one is the
model's choice, assumption 66), and its tiles and source accumulator have one more reader; with an operand that carries E, an absent tile, a format that fails or a shape that does not
fit, it emits the error, ILLFMT naming the slot and TILE_STATE naming D, and D's cursor goes on by one wave. Nothing is computed yet. -/
def Sys2Proof.Claims.MatrixQueues : Prop :=
  ∀ (s : State) (i : Instr) (m : MmaRec) (hs : List (BitVec 8)) (p : MmaParts), mmaOf i = some (m, hs) → mmaParts i = some p → fresh s →
    let cl := firingCl s
    let d := accGet s cl m.d.toNat
    let shape := mmaDims s i m
    let src := m.ta.toNat % 16
    let fails := fun (code : W64) => ∃ u, exec i s = .next u ∧ Sends s.firing i (wide code) true s u ∧ u.ops = s.ops ∧ u.tiles.dir = s.tiles.dir ∧
      u.tiles.words = s.tiles.words ∧ ∀ c j, j < 16 → accGet u c j = if c = cl ∧ j = m.d.toNat then { d with cur := ⟨d.cur.thr, d.cur.wave + 1#24⟩ } else accGet s c j
    ((mmaTiles s p).list = hs.map (sel s)) ∧
    (noErr s → (∀ h ∈ hs, tdir s cl (sel s h) ≠ 0#64) → (∀ k ∈ mmaFormats s i m, k.2 = true) → mmaShapesFit s i m = true →
      ∃ u, exec i s = .next u ∧ Starts i .mmaQ s u ∧ u.tiles.dir = s.tiles.dir ∧
        (accGet u cl m.d.toNat).st = 2#2 ∧ (accGet u cl m.d.toNat).cur = d.cur ∧
        (accGet u cl m.d.toNat).rows = BitVec.ofNat 7 (shape.1 - 1) ∧ (accGet u cl m.d.toNat).cols = BitVec.ofNat 7 (shape.2.2 - 1) ∧
        (∀ h, h < 256 → tReaders u cl h = tReaders s cl h + (hs.map (sel s)).count h) ∧
        (∀ fs c ps, i = .mmaAcca fs c ps m → accGet u cl src = { accGet s cl src with readers := (accGet s cl src).readers + 1 })) ∧
    (s.firing.a.e = true → fails (a64 s.firing)) ∧
    (noErr s → (∃ h ∈ hs, tdir s cl (sel s h) = 0#64) → fails (BitVec.ofNat 64 (256 * m.d.toNat + 3))) ∧
    (noErr s → (∀ h ∈ hs, tdir s cl (sel s h) ≠ 0#64) → ∀ k, (mmaFormats s i m).find? (fun k => !k.2) = some k → fails (BitVec.ofNat 64 (256 * k.1 + 1))) ∧
    (noErr s → (∀ h ∈ hs, tdir s cl (sel s h) ≠ 0#64) → (∀ k ∈ mmaFormats s i m, k.2 = true) → mmaShapesFit s i m = false → fails (BitVec.ofNat 64 (256 * m.d.toNat + 3)))

/-- An element of A or B (R284): its own value, or that times its block scale and its band scale, 1 without one; a scale that is not finite is invalid (R86).
A's blocks run along the row and its bands over rows, B's blocks run down the column and its bands over columns; handle 1000 stands for none. -/
def Sys2Proof.Claims.element (s : State) (o : Op) (h sc bd : Nat) (isA : Bool) (x y : Nat) : Val :=
  let at_ := fun (k i j : Nat) => let e := tdir s o.cl k; operand (assocGet 0#64 o.cap (teFMT e)) false (tileElem s o.cl e i j)
  let E := assocGet 0#64 o.cap (teFMT (tdir s o.cl h))
  let finite := fun (v : Val) => if v.isFinite then some v else none
  if sc = 1000 then (at_ h x y).1
  else
    let block := finite (if isA then (at_ sc x (y / blkOf E)).1 else (at_ sc (x / blkOf E) y).1)
    let band := if bd = 1000 then some (Val.fin false 1 0) else finite (if isA then (at_ bd (x / bandOf E) 0).1 else (at_ bd 0 (y / bandOf E)).1)
    let both := match block, band with
      | some u, some w => some (opMul u w).1
      | _, _ => none
    (scaledUp E both (at_ h x y).1).1
/-- The down-converter's output for a source element, as FS decodes it (R286): times 2^PSH, a negative value or −0 clamped to +0 under CLMP, encoded under FS and its RM. -/
def Sys2Proof.Claims.downConverted (F : W64) (clmp : Bool) (psh : Int) (w : W32) : Val :=
  let x := match (operand b32 false w.toNat).1 with
    | .fin n m e => Val.fin n m (e + psh)
    | y => y
  (operand F false (encodeVal F (rmOfEntry F) false (if clmp = true ∧ x.isNan = false ∧ x.sign = true then .zero false else x)).1).1

/-- MMA_START and MMA_COMPLETE (R282, R284 to R286). A unit that is free takes the MMA that was queued first. An MMA that completes writes into D, for every row and column, the sum of its products over k, in blocks
of sixteen each rounded once, on the start that C (rounded once), a FULL D or +0 gives; its elements are scaled in the MX and TWO forms, and A's come from the source accumulator through the
down-converter in the ACCA form; a NaN is 0x7FC0_0000; D is FULL and its cursor one wave on, and the token names D. The records queue, or fail their format and shape checks, as they fire (corners: assumption 66). -/
def Obligations.MatrixUnitQueuesAndComputes : Prop :=
  MatrixQueues ∧
  BlocksAreExact ∧
  (∀ (s : State) (o : Op) (pre post : List Op) (cl : Nat), s.ops = pre ++ o :: post → o.cl = cl → o.ph = .mmaQ →
    (∀ p ∈ pre, p.cl = cl → p.ph ≠ .mmaQ) → (∀ p ∈ s.ops, p.cl = cl → p.ph ≠ .mmaRun) → (∀ p ∈ pre ++ post, p.id ≠ o.id) →
    s.pwr.prs.getD (dieOf cl) 0#4 ≠ 3#4 →
    exec (.mmaStart cl) s = .next { s with ops := pre ++ { o with ph := .mmaRun } :: post }) ∧
  ∀ (s : State) (o : Op) (m : MmaRec) (hs : List (BitVec 8)) (a b c sa sb ba bb : Nat) (old : W64), mineAlone s o → o.ph = .mmaRun → mmaOf o.ins = some (m, hs) →
    s.tiles.badT = [] → s.tiles.badA = [] → o.act = some (m.d.toNat, old) → o.left = [a, b, c, sa, sb, ba, bb] →
    let src := m.ta.toNat % 16
    let D := accGet s o.cl m.d.toNat
    let A : Nat → Nat → Val := match o.ins with
      | .mmaAcca fs clmp psh _ => fun i k => downConverted (assocGet 0#64 o.cap fs.toNat) clmp psh.toInt (accElem s o.cl src i k)
      | _ => element s o a sa ba true
    let start := fun (i j : Nat) =>
      if c ≠ 1000 then
        let e := tdir s o.cl c
        let v := (operand (assocGet 0#64 o.cap (teFMT e)) false (tileElem s o.cl e i j)).1
        decodeVal b32 (encodeVal b32 .rne false v).1
      else if old.extractLsb' 62 2 = 0#2 then Val.zero false
      else (operand b32 false (accElem s o.cl m.d.toNat i j).toNat).1
    let k := teRows (tdir s o.cl b)
    let el := fun (i j : Nat) => macBlocks (A i) (fun x => element s o b sb bb false x j) (k / 16) (start i j)
    k % 16 = 0 → (∀ fs clmp psh n, o.ins = .mmaAcca fs clmp psh n → src ≠ m.d.toNat) →
    ∃ t, exec (.mmaComplete o.cl) s = .next t ∧ Sends (opFiring o) o.ins (wide (BitVec.ofNat 64 m.d.toNat)) false s t ∧
      t.ops = (s.ops.filter fun p => decide (p.id ≠ o.id)) ∧
      accGet t o.cl m.d.toNat = { D with st := 1#2, cur := ⟨D.cur.thr, D.cur.wave + 1#24⟩ } ∧
      (∀ i j, i < D.rows.toNat + 1 → j < D.cols.toNat + 1 → accElem t o.cl m.d.toNat i j =
        if (el i j).isNan then 0x7FC00000#32 else BitVec.ofNat 32 (encodeVal b32 .rne false (el i j)).1) ∧
      (∀ h x z, h < 16 → h ≠ m.d.toNat → x < 128 → z < 128 → accElem t o.cl h x z = accElem s o.cl h x z) ∧
      t.tiles.bytes = s.tiles.bytes ∧ t.tiles.dir = s.tiles.dir ∧ t.mem = s.mem ∧ t.co = s.co

/-! ### Transfers -/

/-- The slot an XACC names. -/
def Sys2Proof.Claims.accSlot : Instr → List Nat
  | .xacc r => [r.fs.toNat]
  | _ => []

/-- Quarter k of a request token, and the fields of Tables 14.1 to 14.3 that all forms share: the control field and CTAG. -/
def Sys2Proof.Claims.quarter (x : Xfer) (k : Nat) : Nat := (x.req.extractLsb' (64 * k) 64).toNat
def Sys2Proof.Claims.ctl (x : Xfer) : BitVec 24 := x.req.extractLsb' 232 24
def Sys2Proof.Claims.ctag (x : Xfer) : Tag := ⟨x.req.extractLsb' 216 16, x.req.extractLsb' 192 24⟩
/-- LEN of XCOPY and XFILL. -/
def Sys2Proof.Claims.len (x : Xfer) : Nat := (x.req.extractLsb' 128 40).toNat

/-- The token of a transfer that is over: under CTAG, with the request's S when that stays with the thread (R311). -/
def Sys2Proof.Claims.XferSends (x : Xfer) (node : SweepNode) (pay : W64) (e : Bool) (s t : State) : Prop :=
  ∃ d, t.flights = s.flights ++ (targetsOf x.ins).map fun g =>
    { inst := x.inst, src := .xfer x.id, node := node, sent := s.tick, dst := targetPlace x.place g, opnd := g.opnd,
      tok := { payload := wide pay, wide := false, tag := ctag x, e := e, s := decide ((ctag x).thr = x.tag.thr) && x.as_, deps := d } }

/-- The state once the engine has looked ahead as far as it does (R316): free values decide how far (assumption 55); under easy pressure it does not
(R421). -/
def Sys2Proof.Claims.lookedAhead (s : State) (x : Xfer) : State :=
  if s.pwr.prs.getD (dieOf x.cl) 0#4 = 3#4 then s
  else match ctxOfInst s x.inst with
  | some c => lookAhead x c (Config.readAhead s.tick) s
  | none => s

/-- Bytes of an element of XGATH and XSCAT (ESZ), and COUNT (Table 14.2). -/
def Sys2Proof.Claims.stride (x : Xfer) : Nat := 2 ^ ((ctl x).toNat / 2 ^ 20)
def Sys2Proof.Claims.howMany (x : Xfer) : Nat := (ctl x).toNat % 2 ^ 14 + 1
/-- The entry that an XACC captured, and its COUNT. -/
def Sys2Proof.Claims.accEntry (x : Xfer) : W64 := (x.cap.head?.map (·.2)).getD 0#64
def Sys2Proof.Claims.accCount (x : Xfer) : Nat := quarter x 2 % 2 ^ 32
/-- The destination range that XCOPY, XFILL and XACC divide at every 256 bytes (R307). -/
def Sys2Proof.Claims.divided (x : Xfer) : Nat × Nat :=
  match x.ins with
  | .xfill _ => (quarter x 0, len x)
  | .xacc _ => (quarter x 1, (accCount x * containerOf (accEntry x) + 7) / 8)
  | _ => (quarter x 1, len x)
/-- How many chunks a transfer has, and the stream offset of chunk j (R307, R309). -/
def Sys2Proof.Claims.chunks_ (x : Xfer) : Nat :=
  let r := divided x
  match x.ins with
  | .xgath _ | .xscat _ => howMany x
  | .xtile _ => lineCount x.entry
  | _ => if r.2 = 0 then 0 else (r.1 + r.2 - 1) / 256 - r.1 / 256 + 1
def Sys2Proof.Claims.offset (x : Xfer) (j : Nat) : Nat :=
  let r := divided x
  match x.ins with
  | .xgath _ | .xscat _ => j * stride x
  | .xtile _ => j * lineLen x.entry
  | _ => max r.1 ((r.1 / 256 + j) * 256) - r.1
/-- Bytes of chunk j of a divided range. -/
def Sys2Proof.Claims.pieceLen (x : Xfer) (j : Nat) : Nat :=
  let r := divided x
  min (r.1 + r.2) ((r.1 / 256 + j + 1) * 256) - (r.1 + offset x j)
/-- XFER_ERR with its cause and offset (Table 14.5). -/
def Sys2Proof.Claims.xferErr (cause off : Nat) : W64 := BitVec.ofNat 48 off ++ BitVec.ofNat 8 cause ++ 0x09#8
/-- The cluster that holds an XTILE's tile (R313). -/
def Sys2Proof.Claims.tileAt (n : Inst) (x : Xfer) : Nat := clusterAt (n.x0 + quarter x 1 / 2 ^ 40 % 32) (n.y0 + quarter x 1 / 2 ^ 36 % 16)

/-- The next chunk's accesses (R307, R308, R316): those that the form gives, stream 0 its source and 1 its destination, each under the pin of its window,
whose leaf gives the physical address. -/
def Sys2Proof.Claims.ChunksAreLocated : Prop :=
  ∀ (s : State) (x : Xfer) (c : Ctx) (pin : Nat → Nat → Pin) (l : List (Nat × Nat × Nat)), x ∈ s.xfers → (∀ y ∈ s.xfers, y.id = x.id → y = x) → x.ph = .running → x.els = none →
    s.ops = [] → s.pwr.prs.getD (dieOf x.cl) 0#4 ≠ 3#4 → ctxOfInst s x.inst = some c → x.next < chunks_ x →
    let j := x.next
    let n := stride x
    let w := ((x.idx.getD j (0#32, false)).1).toNat
    let known := x.idx.length = howMany x ∧ (x.idx.getD j (0#32, false)).2 = false
    ((∃ r, x.ins = .xgath r ∧ known ∧ l = [(0, quarter x 0 + w * n, n), (1, quarter x 1 + j * n, n)]) ∨
      (∃ r, x.ins = .xscat r ∧ known ∧ l = [(0, quarter x 0 + j * n, n), (1, quarter x 1 + w * n, n)]) ∨
      (∃ r, x.ins = .xtile r ∧ l = [(0, quarter x 0 + j * tePitch x.entry, lineLen x.entry)]) ∨
      (∃ r, x.ins = .xfill r ∧ l = [(1, quarter x 0 + offset x j, pieceLen x j)]) ∨
      (∃ r, (x.ins = .xcopy r ∨ x.ins = .xacc r) ∧ l = [(0, quarter x 0 + offset x j, pieceLen x j), (1, quarter x 1 + offset x j, pieceLen x j)])) →
    let at_ := fun (a : Nat × Nat × Nat) =>
      let p := pin a.1 (a.2.1 / 65536)
      (p.leaf.extractLsb' 16 36).toNat * 65536 / p.size * p.size + a.2.1 % p.size
    (∀ a ∈ l, 1 ≤ a.2.2 ∧ a.2.1 / 65536 = (a.2.1 + a.2.2 - 1) / 65536 ∧ at_ a < 2 ^ 40 ∧
      x.pins.find? (fun q => decide (q.stream = a.1 ∧ q.win = a.2.1 / 65536)) = some (pin a.1 (a.2.1 / 65536))) →
    ∃ t y els, exec (.transferChunk x.id) s = .next t ∧ findX t x.id = some y ∧ y.els = some els ∧ y.next = x.next ∧ y.ph = .running ∧
      els.map (fun e => (e.va, e.len, e.pa)) = l.map (fun a => (a.2.1, a.2.2, at_ a)) ∧ t.mem = s.mem ∧ t.co = s.co ∧ t.tiles = s.tiles

/-- Chunks of XGATH, XSCAT, XTILE and XACC, and of any transfer once an input has been poisoned (R307 to R309, R313, R315). A chunk writes the element or line that its source
holds, or held when it was read ahead, and no other byte: XGATH and XTILE to memory, XSCAT at its index, XTILE's load into the tile, XACC the
sums, each encoded once, of destination and source elements, whose flags it notes. From the first poisoned input on, a chunk is written poisoned: every word
of each sector that it touches is marked, and the bytes outside the chunk keep their values; an XSCAT whose index is poisoned writes nothing. -/
def Sys2Proof.Claims.ChunksMoveElements : Prop :=
  ∀ (s : State) (x : Xfer) (n : Inst), x ∈ s.xfers → (∀ y ∈ s.xfers, y.id = x.id → y = x) → findInst s x.inst = some n → x.ph = .running → s.fab.flits = [] → x.next < chunks_ x →
    let u := lookedAhead s x
    let j := x.next
    let kind := fun (e : El) => 1 ≤ e.len ∧ (e.kind = .s ∨ e.kind = .d ∨ e.kind = .u)
    let holds := fun (e : El) => kind e ∧ ∀ k, k < e.len → homeHolds u e.key (e.pa + k)
    let lies := fun (e : El) => kind e ∧ ∀ k, k < e.len → homeReady u e.key (e.pa + k)
    let apart := fun (e d : El) => ∀ i k, i < e.len → k < d.len → sectorOf (e.pa + i) ≠ sectorOf (d.pa + k)
    let inputs := fun (e : El) (b : Nat → Byte × Bool) => ((∀ c ∈ x.ahead, c.1 ≠ j) ∧ ∀ k, k < e.len → b k = byteAt u e.key (e.pa + k)) ∨
      ∃ bs, (x.ahead.find? fun c => decide (c.1 = j)) = some (j, bs) ∧ bs.length = e.len ∧ ∀ k, k < e.len → b k = bs.getD k (0#8, false)
    let goes := fun (P : State → Xfer → Prop) => ∃ t y, exec (.transferChunk x.id) s = .next t ∧ findX t x.id = some y ∧ y.next = j + 1 ∧ y.els = none ∧ y.ph = .running ∧
      t.flights = u.flights ∧ t.ops = u.ops ∧ t.co.l1w = u.co.l1w ∧ P t y
    let same := fun (t : State) => ∀ key a, byteAt t key a = byteAt u key a
    let moves := fun (e : El) (byte : Nat → Byte) => goes fun t y => y.psnFrom = none ∧ t.tiles = u.tiles ∧
      ∀ a, byteAt t e.key a = if e.pa ≤ a ∧ a < e.pa + e.len then (byte (a - e.pa), false) else byteAt u e.key a
    let first := some (x.psnFrom.getD j)
    let spoils := fun (e : El) => goes fun t y => y.psnFrom = first ∧ t.tiles = u.tiles ∧
      ∀ a, let hit := e.pa / 64 * 64 ≤ sectorOf a ∧ sectorOf a < e.pa + e.len
        (¬ hit → byteAt t e.key a = byteAt u e.key a) ∧ (hit → (byteAt t e.key a).2 = true) ∧
        (¬ (e.pa ≤ a ∧ a < e.pa + e.len) → (byteAt t e.key a).1 = (byteAt u e.key a).1)
    let bad := fun (e : El) (b : Nat → Byte × Bool) => x.psnFrom ≠ none ∨ ∃ k, k < e.len ∧ (b k).2 = true
    let one := fun (va len : Nat) => va / 65536 = (va + len - 1) / 65536
    let sz := stride x
    let idx := x.idx.getD j (0#32, false)
    let full := x.idx.length = howMany x
    (∀ r e d b, x.ins = .xgath r → full → idx.2 = false → one (quarter x 0 + idx.1.toNat * sz) sz → x.els = some [e, d] → e.len = sz → d.len = sz → holds e → lies d → apart e d → inputs e b →
      (¬ bad e b → moves d fun k => (b k).1) ∧ (bad e b → spoils d)) ∧
    (∀ r d, x.ins = .xgath r → full → idx.2 = true → x.els = some [d] → d.len = sz → lies d → spoils d) ∧
    (∀ r e d b, x.ins = .xscat r → full → idx.2 = false → one (quarter x 0 + j * sz) sz → x.els = some [e, d] → e.len = sz → d.len = sz → holds e → lies d → apart e d → inputs e b →
      (¬ bad e b → moves d fun k => (b k).1) ∧ (bad e b → spoils d)) ∧
    (∀ r, x.ins = .xscat r → full → idx.2 = true → x.els = some [] → goes fun t y => y.psnFrom = first ∧ t.tiles = u.tiles ∧ same t) ∧
    (∀ r e b, x.ins = .xtile r → x.idx = [] → quarter x 1 < 2 ^ 63 → one (quarter x 0 + j * tePitch x.entry) (lineLen x.entry) → x.els = some [e] → e.len = lineLen x.entry → holds e → inputs e b →
      tileLies x.entry → memWf s.tiles.bytes = true →
      (¬ bad e b → goes fun t y => y.psnFrom = none ∧ same t ∧ t.tiles.dir = s.tiles.dir ∧
        lineBytes t (tileAt n x) x.entry j = (List.range e.len).map (fun k => (b k).1) ∧
        ∀ i, i < lineCount x.entry → i ≠ j → lineBytes t (tileAt n x) x.entry i = lineBytes s (tileAt n x) x.entry i) ∧
      (bad e b → goes fun t y => y.psnFrom = first ∧ same t ∧ t.tiles.dir = s.tiles.dir)) ∧
    (∀ r d, x.ins = .xtile r → x.idx = [] → 2 ^ 63 ≤ quarter x 1 → s.tiles.badT = [] → x.els = some [d] → d.len = lineLen x.entry → lies d → (∀ c ∈ x.ahead, c.2 = []) →
      (x.psnFrom = none → moves d fun k => lineByte s (tileAt n x) x.entry j k) ∧ (x.psnFrom ≠ none → spoils d)) ∧
    (∀ r e d b, x.ins = .xacc r → x.idx = [] → acceptLanes (accEntry x) = true → one (quarter x 0 + offset x j) (pieceLen x j) → x.els = some [e, d] → e.len = pieceLen x j → d.len = pieceLen x j → holds e → holds d →
      apart e d → inputs e b →
      let F := accEntry x
      let c := containerOf F
      let lane := fun (g : Nat → Byte) (i : Nat) => if c = 4 then (g (i / 2)).toNat / 16 ^ (i % 2) % 16
        else (List.range (c / 8)).foldl (fun v t => v + (g (i * (c / 8) + t)).toNat * 256 ^ t) 0
      let old := fun k => (byteAt u d.key (d.pa + k)).1
      let m := min (8 * d.len / c) (accCount x - 8 * offset x j / c)
      let sum := fun (i : Nat) =>
        let p := operand F false (lane old i)
        let q := operand F false (lane (fun k => (b k).1) i)
        let z := opAdd (decide (rmOfEntry F = .rdn)) p.1 q.1
        let y := encodeVal F (rmOfEntry F) false z.1
        (y.1, y.2 ||| z.2 ||| p.2 ||| q.2)
      let badHere := bad e b ∨ ∃ k, k < d.len ∧ (byteAt u d.key (d.pa + k)).2 = true
      (¬ badHere → lies d → ∃ g, moves d g ∧ (∀ i, i < m → lane g i = (sum i).1 % 2 ^ c) ∧ (∀ i, m ≤ i → i < 8 * d.len / c → lane g i = lane old i) ∧
        goes fun _ y => y.fl = x.fl ||| (List.range m).foldl (fun f i => f ||| (sum i).2) 0#5) ∧
      (badHere → spoils d)) ∧
    (∀ r e d b, x.ins = .xcopy r → x.idx = [] → one (quarter x 0 + offset x j) (pieceLen x j) → x.els = some [e, d] → e.len = pieceLen x j → d.len = pieceLen x j → holds e → lies d → apart e d → inputs e b →
      bad e b → spoils d) ∧
    (∀ r d, x.ins = .xfill r → x.idx = [] → x.els = some [d] → d.len = pieceLen x j → lies d → x.psnFrom ≠ none → spoils d)

/-- What the engine does before and around the chunks (R308 to R310). Index words are read as they stand, with their poison; once the last has come, the lowest index that is not
poisoned and is 2^LLIM or more ends the transfer with RANGE and its offset, nothing having been written. An access that its page does not permit ends it with PERM and the chunk's
offset. After the last chunk the transfer is finished, with POISON and the offset of the first chunk that met poison. That on a page of the index array PERM names chunk 0, and that PERM
wins over poison met before, are the model's choices (assumption 67). -/
def Sys2Proof.Claims.ChunksFailWhere : Prop :=
  ∀ (s : State) (x : Xfer), x ∈ s.xfers → (∀ y ∈ s.xfers, y.id = x.id → y = x) → x.ph = .running → s.fab.flits = [] →
    let gathers := ∃ r, x.ins = .xgath r ∨ x.ins = .xscat r
    let endsAs := fun (y : Xfer) (e : Option W64) => y.ph = .finish ∧ y.err = e
    (∀ e, gathers → x.idx.length < howMany x → x.els = some [e] → e.len = 4 * min 64 (howMany x - x.idx.length) → (e.kind = .s ∨ e.kind = .d ∨ e.kind = .u) → (∀ k, k < e.len → homeHolds s e.key (e.pa + k)) →
      (quarter x 2 + 4 * x.idx.length) / 65536 = (quarter x 2 + 4 * x.idx.length + e.len - 1) / 65536 →
      let b := fun (k : Nat) => byteAt s e.key (e.pa + k)
      let all := x.idx ++ (List.range (e.len / 4)).map fun k =>
        ((b (4 * k + 3)).1 ++ (b (4 * k + 2)).1 ++ (b (4 * k + 1)).1 ++ (b (4 * k)).1, (b (4 * k)).2 || (b (4 * k + 1)).2 || (b (4 * k + 2)).2 || (b (4 * k + 3)).2)
      let out := fun (w : W32 × Bool) => w.2 = false ∧ 2 ^ ((ctl x).toNat / 2 ^ 14 % 64) ≤ w.1.toNat
      ∃ t y, exec (.transferChunk x.id) s = .next t ∧ findX t x.id = some y ∧ y.idx = all ∧ y.next = x.next ∧ y.els = none ∧ (∀ key a, byteAt t key a = byteAt s key a) ∧
        (all.length < howMany x → y.ph = .running) ∧
        (all.length = howMany x → (∀ w ∈ all, ¬ out w) → y.ph = .running) ∧
        (all.length = howMany x → ∀ j w, all[j]? = some w → out w → (∀ i v, i < j → all[i]? = some v → ¬ out v) → endsAs y (some (xferErr 2 (j * stride x))))) ∧
    (∀ c va a u, x.els = none → s.ops = [] → s.pwr.prs.getD (dieOf x.cl) 0#4 ≠ 3#4 → ctxOfInst s x.inst = some c → x.next < chunks_ x →
      xlateAll x.id (dieOf x.cl) c (curReads x ++ curWrites x) s = (.perm va, a, u) → (∃ v, findX u x.id = some v) →
      ∃ t y, exec (.transferChunk x.id) s = .next t ∧ findX t x.id = some y ∧ endsAs y (some (xferErr 4 (offset x x.next))) ∧ t.mem = u.mem ∧ t.co = u.co ∧ t.tiles = u.tiles) ∧
    ((gathers → x.idx.length = howMany x) → chunks_ x ≤ x.next → isXfer x.ins = true → ∃ t y, exec (.transferChunk x.id) s = .next t ∧ findX t x.id = some y ∧
      endsAs y (x.psnFrom.map fun j => xferErr 3 (offset x j)) ∧ t.mem = s.mem ∧ t.co = s.co ∧ t.tiles = s.tiles)

/-- The end of a transfer (R309 to R311, R313): the result of Table 14.7, or its error, goes out under CTAG; when CTAG is of another thread, S is not passed on and the firing thread's
stream ends if the request carried S. An XTILE's tile is FULL once loaded, and EMPTY after a failure; a stored one has a reader less and keeps its state. -/
def Sys2Proof.Claims.TransfersEnd : Prop :=
  ∀ (s : State) (x : Xfer) (n : Inst) (k : Nat), x ∈ s.xfers → (∀ y ∈ s.xfers, y.id = x.id → y = x) → findInst s x.inst = some n → x.ph = .finish → x.act = some k →
    let pay : W64 := match x.ins with
      | .xcopy _ | .xfill _ => BitVec.ofNat 64 (len x)
      | .xacc _ => BitVec.ofNat 64 (accCount x)
      | .xtile _ => BitVec.ofNat 64 x.hsel
      | _ => BitVec.ofNat 64 (howMany x)
    let ends := (ctag x).thr ≠ x.tag.thr ∧ x.as_ = true
    ∃ t, exec (.transferComplete x.id) s = .next t ∧ XferSends x (.engine k) (x.err.getD pay) x.err.isSome s t ∧ t.xfers = (s.xfers.filter fun y => decide (y.id ≠ x.id)) ∧
      (ends → ∀ d, thrOf t x.inst d = thrOf (endOfStream x.inst x.tag.thr s) x.inst d) ∧ (¬ ends → ∀ d, thrOf t x.inst d = thrOf s x.inst d) ∧
      t.mem = s.mem ∧ t.co = s.co ∧ t.tiles.bytes = s.tiles.bytes ∧
      (∀ r, x.ins = .xtile r → x.hsel < 256 →
        let cl := tileAt n x
        (2 ^ 63 ≤ quarter x 1 → tReaders t cl x.hsel = tReaders s cl x.hsel - 1 ∧ t.tiles.dir = s.tiles.dir) ∧
        (quarter x 1 < 2 ^ 63 → tdir t cl x.hsel = stateIs (tdir s cl x.hsel) (if x.err.isSome = true then 0#2 else 1#2) ∧ t.tiles.readers = s.tiles.readers))

/-- TRANSFER_CHUNK and TRANSFER_COMPLETE (R307 to R311, Table 14.7). A chunk of an XFILL writes its eight-byte pattern by address, one of an
XCOPY the bytes that its source holds, or held when they were read ahead (how far ahead is the engine's: assumption 55), and no other byte
of device memory changes; after the last chunk the transfer is finished; its completion token, under CTAG, gives what Table 14.7 says, its
flags are raised, and it is gone. Where the chunks of every form lie, what those of XGATH, XSCAT, XTILE and XACC move, how poison, indices and permissions end a transfer, and a CTAG of
another thread, are stated with them. -/
def Obligations.TransfersMoveTheirBytes : Prop :=
  ChunksAreLocated ∧ ChunksMoveElements ∧ ChunksFailWhere ∧ TransfersEnd ∧
  ∀ (s : State) (x : Xfer), x ∈ s.xfers → (∀ y ∈ s.xfers, y.id = x.id → y = x) →
    let u := lookedAhead s x
    let moves := fun (e : El) (byte : Nat → Byte) => ∃ t y, exec (.transferChunk x.id) s = .next t ∧ findX t x.id = some y ∧ y.next = x.next + 1 ∧ y.els = none ∧ y.ph = .running ∧
      y.psnFrom = none ∧ (∀ a, byteAt t e.key a = if e.pa ≤ a ∧ a < e.pa + e.len then (byte (a - e.pa), false) else byteAt u e.key a) ∧
      t.flights = u.flights ∧ t.ops = u.ops ∧ t.tiles = u.tiles ∧ t.co.l1w = u.co.l1w
    let lies := fun (e : El) => (e.kind = .s ∨ e.kind = .d ∨ e.kind = .u) ∧ ∀ k, k < e.len → homeReady u e.key (e.pa + k)
    (x.ph = .running → x.psnFrom = none → x.idx = [] → s.fab.flits = [] →
      (∀ r e, x.ins = .xfill r → 0 < len x → x.els = some [e] → lies e → (∀ c ∈ x.ahead, c.2 = []) →
        let base := max (quarter x 0) ((quarter x 0 / 256 + x.next) * 256)
        e.len = min (quarter x 0 + len x) ((quarter x 0 / 256 + x.next + 1) * 256) - base → base < quarter x 0 + len x →
        moves e fun k => BitVec.ofNat 8 (quarter x 1 / 256 ^ ((base + k) % 8))) ∧
      (∀ r e d, x.ins = .xcopy r → 0 < len x → x.els = some [e, d] → lies e → lies d → e.len = d.len → (∀ i k, i < e.len → k < d.len → sectorOf (e.pa + i) ≠ sectorOf (d.pa + k)) →
        let base := max (quarter x 1) ((quarter x 1 / 256 + x.next) * 256)
        d.len = min (quarter x 1 + len x) ((quarter x 1 / 256 + x.next + 1) * 256) - base → base < quarter x 1 + len x →
        (quarter x 0 + (base - quarter x 1)) / 65536 = (quarter x 0 + (base - quarter x 1) + d.len - 1) / 65536 →
        ((∀ c ∈ x.ahead, c.1 ≠ x.next) → moves d fun k => (byteAt u e.key (e.pa + k)).1) ∧
        (∀ bs, (x.ahead.find? fun c => decide (c.1 = x.next)) = some (x.next, bs) → bs.length = d.len → (∀ b ∈ bs, b.2 = false) →
          moves d fun k => (bs.getD k (0#8, false)).1)) ∧
      (∀ r, (x.ins = .xfill r ∨ x.ins = .xcopy r) →
        let q := if x.ins = .xfill r then quarter x 0 else quarter x 1
        (len x = 0 ∨ (q + len x - 1) / 256 - q / 256 + 1 ≤ x.next) →
        exec (.transferChunk x.id) s = .next { s with xfers := s.xfers.map fun y => if y.id = x.id then { y with ph := .finish, err := none, els := none, pins := [], ahead := [] } else y })) ∧
    (x.ph = .finish → x.err = none → (ctag x).thr = x.tag.thr → ∀ k, x.act = some k →
      let pay : W64 := match x.ins with
        | .xcopy _ | .xfill _ => BitVec.ofNat 64 (len x)
        | .xacc _ => BitVec.ofNat 64 (quarter x 2 % 2 ^ 32)
        | .xtile _ => BitVec.ofNat 64 x.hsel
        | _ => BitVec.ofNat 64 ((ctl x).toNat % 2 ^ 14 + 1)
      ∃ t, exec (.transferComplete x.id) s = .next t ∧ XferSends x (.engine k) pay false s t ∧ t.xfers = (s.xfers.filter fun y => decide (y.id ≠ x.id)) ∧
        t.insts.map (fun n => n.flags) = (s.insts.map fun n => if n.iid = x.inst then n.flags ||| x.fl else n.flags) ∧
        t.mem = s.mem ∧ t.co = s.co ∧ t.tiles.bytes = s.tiles.bytes)

/-- The transfer records as they fire (R297, R301, R30), and as their thread's order lets them go (R252): a request to the home wave-order unit, with an error in it when an operand carries E; once
performed it stands last in its port's queue with its request token and captured slot, its thread linked, and no byte has moved. -/
def Sys2Proof.Claims.TransferRecords : Prop :=
  (∀ (i : Instr) (s : State), isXfer i = true → fresh s →
    let f := s.firing
    let code : Option W64 := if f.a.e then some (a64 f) else if f.b.e then some (b64 f) else if f.c.e then some (c64 f) else none
    ∃ t, exec i s = .next t ∧ Waits i .wouNet (firingHome s) (accSlot i) code s t) ∧
  ∀ (s : State) (o : Op), isXfer o.ins = true → alone s o → (o.ph = .wouNet ∨ o.ph = .wouPend) → o.err = none → linksNow (thrOf s o.inst o.tag.thr) o →
    (s.xfers.filter fun x => decide (x.ph = .port ∧ x.cl = o.cl)).length < 32 →
    ∃ t x, exec (.orderedRequest o.id) s = .next t ∧ t.xfers = s.xfers ++ [x] ∧ x.id = o.id ∧ x.ph = .port ∧ x.ins = o.ins ∧ x.req = o.a.payload ∧
      x.inst = o.inst ∧ x.tag = o.tag ∧ x.place = o.place ∧ x.cap = o.cap ∧ x.cl = o.cl ∧ x.next = 0 ∧ x.act = none ∧
      t.ops = (s.ops.filter fun p => decide (p.id ≠ o.id)) ∧ linked (seqOf o.ins) (thrOf s o.inst o.tag.thr) (thrOf t o.inst o.tag.thr) ∧
      t.flights = s.flights ∧ t.mem = s.mem ∧ t.co = s.co ∧ t.tiles = s.tiles

/-- A PE of the cluster selects a record at an entry of its tile store in this cycle. -/
def Sys2Proof.Claims.takesEntry (s : State) (cl h : Nat) : Prop :=
  ∃ n k y q, instAt s cl = some n ∧ k < 32 ∧ fires s n cl k = true ∧ chosen s n cl k = some y ∧ slotInstr n y.place = some q ∧
    h ∈ tileUse { s with firing := mkFiring s n.iid y.place y.tag q y.a y.b y.c } q

/-- ADMISSION, ENGINE_TAKE and CLAIM (R299, R302 to R305, R313). The first transfer of a port's queue is admitted with its footprints when its fields are in range and its ranges neither leave the address
space nor meet; a field out of range gives XFER_FIELD and ends it; one that moves nothing is over at once; an XTILE goes to its claim. An admitted transfer that no earlier one conflicts with takes a free engine of its
die. A claim waits for its tile, and for the PEs that select a record at it, which none does under easy pressure; then it makes it BUSY for a load or adds a reader for a store. How a record reaches its port is stated with it. -/
def Obligations.TransfersReachTheirEngines : Prop :=
  TransferRecords ∧
  ∀ (s : State) (x : Xfer) (n : Inst), x ∈ s.xfers → (∀ y ∈ s.xfers, y.id = x.id → y = x) → findInst s x.inst = some n → n.phase = .running → n.ending = false →
    let enters := fun (ph : XPhase) (rd wr : List (Nat × Nat)) => ∃ t y, exec (.admission x.id) s = .next t ∧ findX t x.id = some y ∧ y.ph = ph ∧
      y.rd = rd ∧ y.wr = wr ∧ y.ins = x.ins ∧ y.req = x.req ∧ y.act = x.act ∧ y.next = x.next ∧ t = { s with xfers := t.xfers, nextId := s.nextId + 1 } ∧
      t.xfers.filter (fun z => decide (z.id ≠ x.id)) = s.xfers.filter (fun z => decide (z.id ≠ x.id))
    let a := quarter x 0
    let b := quarter x 1
    let l := len x
    (x.ph = .port → (∀ y ∈ s.xfers, y.ph = .port → y.cl = x.cl → y.id = x.id) → (∀ y ∈ s.xfers, ∀ st fid, y.ph ≠ .again st fid) → (s.xfers.filter fun y => decide (y.ctx = x.ctx ∧ y.ph ≠ .port)).length < 1024 →
      (∀ r, x.ins = .xfill r → a < 2 ^ 56 → quarter x 2 < 2 ^ 40 → ctl x = 0#24 → a + l ≤ 2 ^ 56 →
        enters (if l = 0 then .finish else .admitted) [] [(a, l)]) ∧
      (∀ r, x.ins = .xcopy r → a < 2 ^ 56 → b < 2 ^ 56 → quarter x 2 < 2 ^ 40 → ctl x = 0#24 → a + l ≤ 2 ^ 56 → b + l ≤ 2 ^ 56 →
        (l = 0 ∨ a + l ≤ b ∨ b + l ≤ a) → enters (if l = 0 then .finish else .admitted) [(a, l)] [(b, l)]) ∧
      (∀ r, (x.ins = .xfill r ∨ x.ins = .xcopy r) → (2 ^ 56 ≤ a ∨ 2 ^ 40 ≤ quarter x 2 ∨ ctl x ≠ 0#24) → (ctag x).thr = x.tag.thr →
        ∃ t, exec (.admission x.id) s = .next t ∧ XferSends x .frontEnd 0x0109#64 true s t ∧ t.xfers = s.xfers.filter fun z => decide (z.id ≠ x.id))) ∧
    (x.ph = .admitted → x.act = none → (∀ y ∈ s.xfers, y.id ≠ x.id → y.ph = .port ∧ y.act = none) →
      ∃ t k, exec (.engineTake x.id) s = .next t ∧ t = { s with xfers := t.xfers, fe := t.fe } ∧ k / 32 = dieOf x.cl ∧
        t.xfers = s.xfers.map fun y => if y.id = x.id then { y with ph := .running, act := some k, replay := 0 } else y) ∧
    (∀ r, x.ins = .xtile r → x.ph = .claim → x.hsel < 256 →
      let cl := clusterAt (n.x0 + b / 2 ^ 40 % 32) (n.y0 + b / 2 ^ 36 % 16)
      let e := tdir s cl x.hsel
      e ≠ 0#64 → e.extractLsb' 0 62 = x.entry.extractLsb' 0 62 → acceptScalar (fmtOf s x.inst (teFMT e)) = true → containerOf (fmtOf s x.inst (teFMT e)) = teC e →
      let took := s.xfers.map fun y => if y.id = x.id then { y with ph := .admitted } else y
      let rests := s.pwr.prs.getD (dieOf cl) 0#4 = 3#4
      (¬ rests → takesEntry s cl x.hsel → exec (.claim x.id) s = .next s) ∧
      (rests ∨ ¬ takesEntry s cl x.hsel →
      (b < 2 ^ 63 → teSTATE e = 0 → tReaders s cl x.hsel = 0 → ∃ t, exec (.claim x.id) s = .next t ∧ t.xfers = took ∧
        tdir t cl x.hsel = stateIs e 2#2 ∧ t.tiles.bytes = s.tiles.bytes) ∧
      (2 ^ 63 ≤ b → teSTATE e = 1 → ∃ t, exec (.claim x.id) s = .next t ∧ t.xfers = took ∧
        t.tiles.dir = s.tiles.dir ∧ tReaders t cl x.hsel = tReaders s cl x.hsel + 1)))

/-! ### Registration and its messages -/

/-- Message n is `m`, and no earlier message of its pair about the same home is still on its way, or waits and must go first (R209). -/
def Sys2Proof.Claims.reaches (s : State) (n : Nat) (m : Msg) : Prop :=
  s.co.msgs[n]? = some m ∧
  ∀ x ∈ s.co.msgs.take n, (x.held = true ∧ keepsBack x m = false) ∨ x.src ≠ m.src ∨ x.dst ≠ m.dst ∨ homeOf x.pa ≠ homeOf m.pa
/-- No write-back by an L1 of words of a sector, and no read forwarded to it, or that took a word of it along, is on its way (R215). -/
def Sys2Proof.Claims.uncrossed (s : State) (c sec : Nat) : Prop :=
  ∀ x ∈ s.co.msgs, x.pa = sec →
    (∀ l, x.body = .wb l → x.src ≠ .l1 c) ∧ ∀ op k ws cap, x.body = .fwd op k ws cap → x.dst ≠ .l1 c ∧ ∀ y ∈ cap, y.2.1 ≠ c
/-- No load keeps a word of its L1 as a later store found it. -/
def Sys2Proof.Claims.noneKept (s : State) : Prop := ∀ o ∈ s.ops, o.snap = []
/-- The other word of an aligned 8-byte unit. -/
def Sys2Proof.Claims.mate (w : Nat) : Nat := if w % 2 = 0 then w + 1 else w - 1
/-- The L1 words once a registration of word w of cluster c has been performed: the other word of its aligned 8-byte unit, where one store wrote both,
is seen by others as it stands (R239; assumption 57). -/
def Sys2Proof.Claims.unitSeen (s : State) (c sec w : Nat) : List L1Word :=
  s.co.l1w.map fun x => if x.cl = c ∧ x.pa = sec + 4 * mate w then { x with prev := none } else x
/-- A message about the sector of `m`, from its destination. -/
def Sys2Proof.Claims.answer (m : Msg) (dst : Agent) (b : Body) : Msg := { src := m.dst, dst := dst, pa := m.pa, key := m.key, body := b, held := false }
/-- The home's L2 holds the sector under the key. -/
def Sys2Proof.Claims.inL2 (s : State) (sec key : Nat) (y : L2Sec) : Prop := l2Find s sec = some y ∧ y.key = key ∧ y.pa = sec
/-- The owner of a word by the records of its home (Table 10.5). -/
def Sys2Proof.Claims.homeOwner (s : State) (sec w : Nat) : Option Agent := ownerOf (regGet s none sec) w
/-- Nothing but the coherence state and the operations in progress has changed. -/
def Sys2Proof.Claims.onlyCo (s t : State) : Prop := t = { s with co := t.co, ops := t.ops }
/-- The L1 words of all clusters, but for one place. -/
def Sys2Proof.Claims.l1Is (s t : State) (c pa : Nat) (x : Option L1Word) : Prop :=
  ∀ d a, l1wFind t d a = if d = c ∧ a = pa then x else l1wFind s d a
/-- The L1 words of all clusters, but for word w of a sector; a V copy of the unit's other word is gone too when the grant brought bytes (R155; assumption 57). -/
def Sys2Proof.Claims.grantIs (s t : State) (c sec w : Nat) (brought : Prop) (x : Option L1Word) : Prop :=
  l1wFind t c (sec + 4 * w) = x ∧
  (∀ d a, ¬ (d = c ∧ a = sec + 4 * w) → ¬ (d = c ∧ a = sec + 4 * mate w) → l1wFind t d a = l1wFind s d a) ∧
  (¬ brought → l1wFind t c (sec + 4 * mate w) = l1wFind s c (sec + 4 * mate w)) ∧
  (brought → (∀ y, l1wFind t c (sec + 4 * mate w) = some y → y.st ≠ .v) ∧
    ∀ y, l1wFind s c (sec + 4 * mate w) = some y → y.st ≠ .v → l1wFind t c (sec + 4 * mate w) = some y)

/-- REGISTRATION, GRANT, REVOKE and REVOKE_ANSWER of one word at a home and at L1s of its die (R213 to R216). A registration of a word that
nobody owns makes its sender the owner and grants it the home's value; one of a word that another L1 owns makes the sender the owner and
revokes the previous one, whose answer then is granted. A revoke takes the word from its owner, with its value; a grant makes a P word O,
keeping the bytes written, with the mark of a value granted unless one store had written it whole, and lets one whose eviction has waited for it go
home. How a word stored together with another is seen meanwhile is the model's choice (assumption 57). -/
def Obligations.RegistrationMovesOwnership : Prop :=
  ∀ (s : State) (n : Nat) (m : Msg) (w c : Nat), reaches s n m → w < 16 → c < 512 → homeDie m.pa = c / 128 → m.pa % 64 = 0 →
    let rest := s.co.msgs.eraseIdx n
    let mine := ((m.pa + 4 * w : Nat))
    (∀ mask y, m.src = .l1 c → m.dst = .home → m.body = .reg [(w, mask)] → inL2 s m.pa m.key y → hostHolds s m.pa = false → (∀ x ∈ s.co.dirRec, x.1 ≠ m.pa) → y.pz.getLsbD w = false →
      ((∀ r ∈ s.co.reg, r.pa ≠ m.pa) → ∃ t, exec (.registration n) s = .next t ∧ onlyCo s t ∧ homeOwner t m.pa w = some (.l1 c) ∧
        (∀ v, v < 16 → v ≠ w → homeOwner t m.pa v = none) ∧ t.co.msgs = rest ++ [answer m (.l1 c) (.grant [(w, y.data.getD w 0#32, false)])] ∧
        t.co.l2 = s.co.l2 ∧ t.co.gwait = s.co.gwait ∧ t.co.l1w = unitSeen s c m.pa w) ∧
      (∀ r j, regGet s none m.pa = r → (∃ q ∈ s.co.reg, q = r) → r.pa = m.pa → r.rdc = none → r.owna = BitVec.ofNat 7 (j % 128) → j < 512 → j / 128 = c / 128 → j ≠ c →
        r.wcode = (List.replicate 16 0#2).set w 1#2 → ∃ t, exec (.registration n) s = .next t ∧ onlyCo s t ∧ homeOwner t m.pa w = some (.l1 c) ∧
          t.co.msgs = rest ++ [answer m (.l1 j) (.revoke [w])] ∧
          t.co.gwait = s.co.gwait ++ [{ rdc := none, pa := mine, dest := .l1 c, from_ := .l1 j, ans := none, base := none, up := false }] ∧
          t.co.l2 = s.co.l2 ∧ t.co.l1w = unitSeen s c m.pa w)) ∧
    (∀ x, m.dst = .l1 c → m.body = .revoke [w] → uncrossed s c m.pa → l1wFind s c mine = some x → x.st = .o →
      ∃ t, exec (.revoke n) s = .next t ∧ onlyCo s t ∧ l1Is s t c mine none ∧ t.co.msgs = rest ++ [answer m m.src (.answer [(w, Part.full x.data x.psn)] false)] ∧
        t.co.l2 = s.co.l2 ∧ t.co.reg = s.co.reg) ∧
    (∀ v p d, m.src = .l1 c → m.dst = .home → m.body = .answer [(w, Part.full v p)] false →
      s.co.gwait = [{ rdc := none, pa := mine, dest := .l1 d, from_ := .l1 c, ans := none, base := none, up := false }] →
      ∃ t k, exec (.revokeAnswer n) s = .next t ∧ onlyCo s t ∧ t.co.gwait = [] ∧
        t.co.msgs = rest ++ [{ src := .home, dst := .l1 d, pa := m.pa, key := k, body := .grant [(w, v, p)], held := false }] ∧
        t.co.l1w = s.co.l1w ∧ t.co.l2 = s.co.l2 ∧ t.co.reg = s.co.reg) ∧
    (∀ v p x r, m.dst = .l1 c → m.body = .grant [(w, v, p)] → l1wFind s c mine = some x → x.st = .p → s.co.regOut = [r] → r.cl = c → r.pa = mine →
      isDevice m.pa = true → uncrossed s c m.pa → noneKept s → (∀ z ∈ s.co.l1w, z.prev = none ∧ (z.evict = true → z = x)) →
      let word := { x with st := .o, data := mergeWord v x.data x.wr, have_ := 0xF#4, wr := 0#4, whole := false, psn := x.psn || (p && !x.whole) }
      ∃ t, exec (.grant n) s = .next t ∧ onlyCo s t ∧ t.co.regOut = [] ∧ t.co.l2 = s.co.l2 ∧ t.ops = (s.ops.filter fun o => decide (o.ph ≠ .acks)) ∧
        (x.evict = false → t.co.msgs = rest ∧ grantIs s t c m.pa w (x.wr ≠ 0xF#4) (some word)) ∧
        (x.evict = true → grantIs s t c m.pa w (x.wr ≠ 0xF#4) none ∧
          t.co.msgs = rest ++ [{ src := .l1 c, dst := .home, pa := m.pa, key := x.key, body := .wb [(w, word.data, word.psn)], held := false }]))

/-- RECALL, WRITE_BACK, HOME_READ, FORWARDED_READ and DATA_RETURN of one word (R214, R217, R218, R220). A recall writes an O word home,
which becomes V; a write-back by the owner puts its value into L2 and ends its registration; a read gives the home's value of a word that
nobody owns and is forwarded to the owner of any other, who gives its own once it knows it whole, also once the word has left it: a forwarded read on its
way keeps a word that a write-back takes home. What comes back is cached as V beside words that the L1 has written, unless an acquire, or a later read of
the sector, has overtaken it, when the V copies that it finds go too; a load that waits for it has its value. How a word stored together with another is
seen meanwhile is the model's choice (assumption 57). -/
def Obligations.ReadsAndWriteBacksReachTheirHome : Prop :=
  ∀ (s : State) (n : Nat) (m : Msg) (w c : Nat), reaches s n m → w < 16 → c < 512 → homeDie m.pa = c / 128 → m.pa % 64 = 0 → isDevice m.pa = true →
    let rest := s.co.msgs.eraseIdx n
    let mine := ((m.pa + 4 * w : Nat))
    (∀ x, m.dst = .l1 c → m.body = .recall [w] → uncrossed s c m.pa → noneKept s → l1wFind s c mine = some x → x.st = .o → x.prev = none → x.cl = c → x.pa = mine →
      ∃ t, exec (.recall n) s = .next t ∧ onlyCo s t ∧ l1Is s t c mine (some { x with st := .v }) ∧ t.co.l2 = s.co.l2 ∧ t.co.reg = s.co.reg ∧
        t.co.msgs = rest ++ [{ src := .l1 c, dst := .home, pa := m.pa, key := x.key, body := .wb [(w, x.data, x.psn)], held := false }]) ∧
    (∀ v p y, m.src = .l1 c → m.dst = .home → m.body = .wb [(w, v, p)] → homeOwner s m.pa w = some (.l1 c) → inL2 s m.pa m.key y → s.co.gwait = [] →
      ∃ t, exec (.writeBack n) s = .next t ∧ onlyCo s t ∧ homeOwner t m.pa w = none ∧
        ((∀ x ∈ rest, x.pa = m.pa → ∀ op k ws cap, x.body = .fwd op k ws cap → x.dst ≠ .l1 c) → t.co.msgs = rest) ∧
        (∀ x op k, rest = [x] → x.src = .home → x.dst = .l1 c → x.pa = m.pa → x.body = .fwd op k [w] [] →
          t.co.msgs = [{ x with body := .fwd op k [w] [(w, 0, Part.full v p)] }]) ∧
        (∀ u, u < 16 → u ≠ w → homeOwner t m.pa u = homeOwner s m.pa u) ∧ t.co.l1w = s.co.l1w ∧
        l2Find t m.pa = some { y with data := y.data.set w v, dirty := true, pz := if p then y.pz ||| (1#16 <<< w) else y.pz &&& ~~~(1#16 <<< w) } ∧
        ∀ a, a ≠ m.pa → l2Find t a = l2Find s a) ∧
    (∀ op k, m.dst = .home → m.body = .read op k [w] → hostHolds s m.pa = false → (∀ x ∈ s.co.dirRec, x.1 ≠ m.pa) →
      ((∃ j, m.src = .l1 j) ∨ ∀ o ∈ s.ops, ∀ x ∈ o.els, x.len < 8) →
      (∀ y, homeOwner s m.pa w = none → inL2 s m.pa m.key y → exec (.homeRead n) s = .next { s with co := { s.co with
        l2 := (s.co.l2), msgs := rest ++ [answer m (.l1 k) (.fill op [(w, y.data.getD w 0#32, y.pz.getLsbD w)])] } }) ∧
      (∀ y, homeOwner s m.pa w = some (.l1 c) → inL2 s m.pa m.key y → (∀ x, l1wFind s c mine = some x → x.prev = none) →
        exec (.homeRead n) s = .next { s with co := { s.co with msgs := rest ++ [answer m (.l1 c) (.fwd op k [w] [])] } })) ∧
    (∀ op k cap, m.dst = .l1 c → m.body = .fwd op k [w] cap →
      let gives := fun (v : W32) (p : Bool) =>
        exec (.forwardedRead n) s = .next { s with co := { s.co with msgs := rest ++ [answer m (.l1 k) (.fill op [(w, v, p)])] } }
      (∀ x, cap = [] → l1wFind s c mine = some x → x.st ≠ .v → (∀ q ∈ s.co.msgs, q.src = .l1 c → q.pa = m.pa → ∀ l, q.body ≠ .wb l) →
        (x.prev = none → x.st = .o ∨ x.whole = true → gives x.data x.psn) ∧ (∀ q, x.prev = some q → q.sure = true → gives q.data q.psn) ∧
        ((x.prev = none ∧ x.st = .p ∧ x.whole = false) ∨ (∃ q, x.prev = some q ∧ q.sure = false) → exec (.forwardedRead n) s = .next (holdMsg n s))) ∧
      (∀ j q, cap = [(w, j, q)] → (q.sure = true → gives q.data q.psn) ∧ (q.sure = false → exec (.forwardedRead n) s = .next (holdMsg n s)))) ∧
    (∀ o v x, m.dst = .l1 c → m.body = .fill o.id [(w, v, false)] → s.co.msgs = [m] → mineAlone s o → o.cl = c → (∃ r, o.ins = .ld r) → o.ph = .miss → hasNothing o →
      o.els = [x] → o.left = [0] → x.kind = .s → x.pa / 4 * 4 = mine → 1 ≤ x.len → x.pa % 4 + x.len ≤ 4 → l1Room s c m.pa = true →
      (∀ z, l1wFind s c mine = some z → z.st = .v) →
      ∃ t q, exec (.dataReturn (.msg n)) s = .next t ∧ findOp t o.id = some q ∧ q.ph = .done ∧ q.err = none ∧
        q.val = BitVec.ofNat 256 (littleEndian (fun _ => v) x.pa x.len) ∧ t.co.msgs = [] ∧ t.flights = s.flights ∧ t.mem = s.mem) ∧
    (∀ o v p, m.dst = .l1 c → m.body = .fill o.id [(w, v, p)] → o ∈ s.ops → (∀ q ∈ s.ops, q.id = o.id ∨ q.cl = c → q = o) → o.ph = .done → o.got = [] →
      isPf o.ins = false → s.co.msgs = [m] → l1Room s c m.pa = true →
      ∃ t, exec (.dataReturn (.msg n)) s = .next t ∧ t.co.msgs = rest ∧ t.mem = s.mem ∧ t.flights = s.flights ∧
        (o.stale = true → t.co.l1w = s.co.l1w.filter fun x => decide (x.cl ≠ c ∨ x.st ≠ .v ∨ sectorOf x.pa ≠ m.pa)) ∧
        (o.stale = false → ∀ x, l1wFind s c mine = some x → x.st ≠ .v → t.co.l1w = s.co.l1w) ∧
        (o.stale = false → (∀ x, l1wFind s c mine = some x → x.st = .v) →
          ∃ x, l1Is s t c mine (some x) ∧ x.st = .v ∧ x.data = v ∧ x.have_ = 0xF#4 ∧ x.psn = p))

/-! ### The directory, evictions, and lost copies -/

/-- Something other than this message is on its way, or waits, about a sector. -/
def Sys2Proof.Claims.settled (s : State) (sec : Nat) : Prop :=
  (∀ w ∈ s.co.dwait, w.pa ≠ sec) ∧ (∀ x ∈ s.co.dirRec, x.1 ≠ sec) ∧ hostHolds s sec = false ∧ (∀ b ∈ s.co.bisnp, b.1 ≠ sec)
/-- The L1 sectors of all clusters, but for one. -/
def Sys2Proof.Claims.secIs (s t : State) (c sec : Nat) (x : Option L1Sec) : Prop :=
  ∀ d a, l1dFind t d a = if d = c ∧ a = sec then x else l1dFind s d a

/-- DIRECTORY_REQUEST, DIRECTORY_INVALIDATE and RETURNED_SECTOR at a home and at L1s of its die (R225, Table 10.9). With no holder, a shared request gets E and an exclusive one M, and the directory names the requester; with another holder, an exclusive request waits and the
holder is invalidated; a shared one waits while a holder of E or M is asked to share, and gets S at once beside holders of S. A holder gives the sector up, or keeps it in S, and answers with its data when it held E or M. Data returned goes into L2, and the waiting request, its last answer there, is granted. -/
def Obligations.DirectoryServesOneOwner : Prop :=
  ∀ (s : State) (n : Nat) (m : Msg) (c : Nat), reaches s n m → c < 512 → homeDie m.pa = c / 128 → m.pa % 64 = 0 →
    let rest := s.co.msgs.eraseIdx n
    (∀ y k, m.src = .l1 c → m.dst = .home → m.body = .dreq k → settled s m.pa → inL2 s m.pa m.key y → dirbOf s m.pa = 0#8 → s.co.dir.length < 16 →
      (y.pz = 0#16 ∨ ∀ o ∈ s.ops, isPf o.ins = false) →
      ((∀ e ∈ s.co.dir, e.pa ≠ m.pa) → ∃ t e, exec (.directoryRequest n) s = .next t ∧ onlyCo s t ∧
        t.co.msgs = rest ++ [answer m (.l1 c) (.dgrant (if k = .shared then .e else .m) y.data y.pz)] ∧
        t.co.dir = s.co.dir ++ [e] ∧ e.rdc = none ∧ e.pa = m.pa ∧ e.em = true ∧ e.holders = 1#128 <<< (c % 128) ∧ t.co.l2 = s.co.l2 ∧ t.co.l1d = s.co.l1d) ∧
      (∀ e j, s.co.dir = [e] → e.rdc = none → e.pa = m.pa → e.holders = 1#128 <<< j → j < 128 → j ≠ c % 128 →
        let asks := fun (b : Body) => exec (.directoryRequest n) s = .next { s with co := { s.co with
          msgs := rest ++ [answer m (.l1 (128 * (c / 128) + j)) b],
          dwait := s.co.dwait ++ [{ rdc := none, pa := m.pa, req := some m, need := [.l1 (128 * (c / 128) + j)] }] } }
        (k ≠ .shared → asks .inval) ∧ (k = .shared → e.em = true → asks .share) ∧
        (k = .shared → e.em = false → ∃ t f, exec (.directoryRequest n) s = .next t ∧ onlyCo s t ∧
          t.co.msgs = rest ++ [answer m (.l1 c) (.dgrant .s y.data y.pz)] ∧ t.co.dir = [f] ∧ f.rdc = none ∧ f.pa = m.pa ∧ f.em = false ∧
          f.holders = (1#128 <<< j) ||| (1#128 <<< (c % 128)) ∧ t.co.l2 = s.co.l2 ∧ t.co.l1d = s.co.l1d))) ∧
    (∀ x, m.dst = .l1 c → l1dFind s c m.pa = some x →
      let data := if x.st = .e ∨ x.st = .m then some (x.data, x.psn) else none
      let sent := fun (t : State) => t.co.msgs = rest ++ [{ src := .l1 c, dst := m.src, pa := m.pa, key := x.key, body := .dret data (decide (x.st = .m)) false, held := false }] ∧
        onlyCo s t ∧ t.co.l2 = s.co.l2 ∧ t.co.l1w = s.co.l1w
      (m.body = .inval → ∃ t, exec (.directoryInvalidate n) s = .next t ∧ sent t ∧ secIs s t c m.pa none) ∧
      (m.body = .share → ∃ t, exec (.directoryInvalidate n) s = .next t ∧ sent t ∧ secIs s t c m.pa (some { x with st := .s }))) ∧
    (∀ d psn dirty q k y e, m.src = .l1 c → m.dst = .home → m.body = .dret (some (d, psn)) dirty false → (∀ x ∈ s.co.dirRec, x.1 ≠ m.pa) → (∀ b ∈ s.co.bisnp, b.1 ≠ m.pa) →
      hostHolds s m.pa = false → dirbOf s m.pa = 0#8 → inL2 s m.pa m.key y → q.key = m.key → k < 512 → k / 128 = c / 128 → k ≠ c →
      s.co.dwait = [{ rdc := none, pa := m.pa, req := some q, need := [.l1 c] }] → q.body = .dreq .excl → q.src = .l1 k →
      s.co.dir = [e] → e.rdc = none → e.pa = m.pa → e.holders = 1#128 <<< (c % 128) → (psn = 0#16 ∨ ∀ o ∈ s.ops, isPf o.ins = false) →
      ∃ t f, exec (.returnedSector n) s = .next t ∧ onlyCo s t ∧ t.co.dwait = [] ∧ l2Find t m.pa = some { y with data := d, pz := psn, dirty := true } ∧
        t.co.msgs = rest ++ [{ src := .home, dst := .l1 k, pa := m.pa, key := m.key, body := .dgrant .m d psn, held := false }] ∧
        t.co.dir = [f] ∧ f.pa = m.pa ∧ f.em = true ∧ f.holders = 1#128 <<< (k % 128))

/-- The four sectors of a line. -/
def Sys2Proof.Claims.ofLine (line sec : Nat) : Prop := line % 256 = 0 ∧ ∃ k, k < 4 ∧ sec = line + 64 * k

/-- Error counter k, one up, at most 2^32 − 1. -/
def Sys2Proof.Claims.counts (k : Nat) (s t : State) : Prop :=
  t.ras.ctrs = s.ras.ctrs.set k (if s.ras.ctrs.getD k 0#32 = 0xFFFFFFFF#32 then 0xFFFFFFFF#32 else s.ras.ctrs.getD k 0#32 + 1#32)
/-- And a log entry with the counter's number, die, unit and address. -/
def Sys2Proof.Claims.logs (k die unit pa : Nat) (s t : State) : Prop :=
  counts k s t ∧ t.ras.logW = s.ras.logW + 1#64 ∧ ∃ e ∈ t.ras.log, e = ⟨BitVec.ofNat 8 k, BitVec.ofNat 4 die, BitVec.ofNat 10 unit, BitVec.ofNat 64 pa,
    BitVec.ofNat 64 s.time⟩

/-- OWNER_LOST and SECTOR_ERROR (R224, R230, R411, R417): a lost V copy is only forgotten; a lost owned word leaves poison at its home, without an owner, and its instance's context is told by an OWNER entry; a lost D-page sector in S is forgotten, and one in E or M returns poisoned; a bad sector of the home's L2 is marked poisoned (assumption 35); each is counted and logged. A
unit of a tile store is marked bad; a corrected error is only counted. -/
def Sys2Proof.Claims.LostCopies : Prop :=
  ∀ (s : State) (c sec : Nat), c < 512 → sec % 64 = 0 → s.ras.ctrs.length = 14 →
    ((∀ p ∈ s.co.l1w, p.cl = c → sectorOf p.pa = sec → p.st = .v) → (∃ p ∈ s.co.l1w, p.cl = c ∧ sectorOf p.pa = sec) →
      ∃ t, exec (.ownerLost c sec) s = .next t ∧ t.co = { s.co with l1w := s.co.l1w.filter fun p => decide (p.cl ≠ c ∨ sectorOf p.pa ≠ sec) } ∧
        logs 7 (c / 128) (c % 128) sec s t ∧ t.mem = s.mem ∧ t.insts = s.insts) ∧
    (∀ x y w n d, s.co.l1w.filter (fun p => decide (p.cl = c ∧ sectorOf p.pa = sec)) = [x] → x.st = .o → x.pa = sec + 4 * w → w < 16 → isDevice sec = true → homeDie sec = c / 128 →
      homeOwner s sec w = some (.l1 c) → inL2 s sec x.key y → s.co.msgs = [] → s.co.gwait = [] → instAt s c = some n → findInst s n.iid = some n → findCtx s n.ctx = some d →
      ∃ t e dd, exec (.ownerLost c sec) s = .next t ∧ homeOwner t sec w = none ∧ l2Find t sec = some { y with pz := y.pz ||| (1#16 <<< w), dirty := true } ∧
        l1wFind t c x.pa = none ∧ findCtx t n.ctx = some dd ∧ dd.held = d.held ++ [e] ∧ e.kind = 0x06#8 ∧ e.fid = d.nextFid ∧ e.data = BitVec.ofNat 64 x.pa ∧ e.inst = n.iid ∧
        logs 7 (c / 128) (c % 128) sec s t ∧ t.mem = s.mem) ∧
    (∀ x, l1dFind s c sec = some x → ∃ t, exec (.sectorError (.l1 c) sec) s = .next t ∧ secIs s t c sec none ∧ logs 7 (c / 128) (c % 128) sec s t ∧ t.mem = s.mem ∧
      (x.st = .s → t.co.msgs = s.co.msgs) ∧
      (x.st = .e ∨ x.st = .m → ∃ q, t.co.msgs = s.co.msgs ++ [q] ∧ q.src = .l1 c ∧ q.pa = sec ∧ q.body = .dret (some (x.data, 0xFFFF#16)) true true)) ∧
    (∀ y, l2Find s sec = some y → y.pa = sec → ∃ t, exec (.sectorError .l2 sec) s = .next t ∧ l2Find t sec = some { y with pz := 0xFFFF#16, dirty := true } ∧
      logs 7 (homeDie sec) (homeOf sec % 128) sec s t ∧ t.mem = s.mem ∧ t.co.l1w = s.co.l1w ∧ t.insts = s.insts) ∧
    (∀ off, off < 2 ^ 20 → ∃ t, exec (.sectorError (.tile c) off) s = .next t ∧ t = { s with tiles := t.tiles } ∧ t.tiles = { s.tiles with badT := t.tiles.badT } ∧
      ∀ u, u ∈ t.tiles.badT ↔ u = 2 ^ 20 * c + off / 8 * 8 ∨ u ∈ s.tiles.badT) ∧
    (∃ t, exec (.sectorError .corrected sec) s = .next t ∧ counts 8 s t ∧ t = { s with ras := t.ras } ∧ t.ras = { s.ras with ctrs := t.ras.ctrs })

/-- The evictions (R219, R220, R226, R229): an L1 gives up a modified sector, with its data, and forgets V words; an L2 slice writes a dirty sector to memory, whole, and no other byte; an RDC and the snoop filter give a modified host sector back to host memory. A sector
kept in L2 reads as before. Lost copies are stated with them. -/
def Obligations.EvictionsKeepAndLossesPoison : Prop :=
  LostCopies ∧
  ∀ (s : State) (sec line : Nat), ofLine line sec →
    (∀ c x, c < 512 → l1dFind s c sec = some x → x.st = .m → isDevice sec = true → homeDie sec = c / 128 → (∀ p ∈ s.co.l1d, p.cl = c → p.pa = sec ∨ p.pa / 256 * 256 ≠ line) →
      (∀ p ∈ s.co.l1w, p.cl = c → p.pa / 256 * 256 ≠ line) → ∃ t, exec (.l1Eviction c line) s = .next t ∧ onlyCo s t ∧ secIs s t c sec none ∧
        t.co.msgs = s.co.msgs ++ [{ src := .l1 c, dst := .home, pa := sec, key := x.key, body := .dret (some (x.data, x.psn)) true true, held := false }] ∧
        t.co.l1w = s.co.l1w ∧ t.co.l2 = s.co.l2) ∧
    (∀ c, noneKept s → (∀ p ∈ s.co.l1d, p.cl = c → p.pa / 256 * 256 ≠ line) → (∀ p ∈ s.co.l1w, p.cl = c → p.pa / 256 * 256 = line → p.st = .v) →
      exec (.l1Eviction c line) s = .next { s with co := { s.co with l1w := s.co.l1w.filter fun p => decide (p.cl ≠ c ∨ p.pa / 256 * 256 ≠ line) } }) ∧
    (∀ y, l2Find s sec = some y → y.dirty = true → y.key = 0 → y.pa = sec → y.data.length = 16 → memWf s.mem = true → (∀ p ∈ s.co.l2, p.pa = sec ∨ p.pa / 256 * 256 ≠ line) →
      (∀ r ∈ s.co.reg, r.pa / 256 * 256 ≠ line) → quiet s sec → channelOut s sec = false → assocGet 0 s.co.crc sec ≠ 5 → s.ras.badGrp = [] → ∃ t, exec (.l2Eviction line) s = .next t ∧ l2Find t sec = none ∧
        (∀ a, memGet t.mem a = if sec ≤ a ∧ a < sec + 64 then (y.data.getD ((a - sec) / 4) 0#32).extractLsb' (8 * ((a - sec) % 4)) 8 else memGet s.mem a) ∧
        (sec ∈ t.co.psn ↔ y.pz ≠ 0#16) ∧ t.insts = s.insts ∧ t.ops = s.ops ∧ t.co.l1w = s.co.l1w) ∧
    (∀ d x, d < 4 → isHost sec = true → s.co.rdc = [x] → x.die = d → x.pa = sec → x.st = .m → x.psn = 0#16 → x.data.length = 16 → memWf s.mem = true → quiet { s with co := { s.co with rdc := [] } } sec →
      let back := fun (t : State) => t.co.rdc = [] ∧ (∀ a, memGet t.mem a =
        if sec ≤ a ∧ a < sec + 64 then (x.data.getD ((a - sec) / 4) 0#32).extractLsb' (8 * ((a - sec) % 4)) 8 else memGet s.mem a) ∧ t.insts = s.insts ∧ t.ops = s.ops
      (∃ t, exec (.rdcEviction d sec) s = .next t ∧ back t) ∧
      (∀ f ∈ s.co.snoop, f.1 = sec → ∃ t, exec (.snoopFilterEviction sec) s = .next t ∧ back t))

/-! ### The host link, the fabric, and errors -/

/-- A die's RDC holds one host sector, modified and free of poison, and nothing else about it is anywhere. -/
def Sys2Proof.Claims.dieHolds (s : State) (d sec : Nat) (x : RdcSec) : Prop :=
  d < 4 ∧ isHost sec = true ∧ s.co.rdc = [x] ∧ x.die = d ∧ x.pa = sec ∧ x.st = .m ∧ x.psn = 0#16 ∧ quiet { s with co := { s.co with rdc := [] } } sec
/-- Memory holds the words of a sector, and is otherwise as before. -/
def Sys2Proof.Claims.secStored (s t : State) (sec : Nat) (d : List W32) : Prop :=
  ∀ a, memGet t.mem a = if sec ≤ a ∧ a < sec + 64 then (d.getD ((a - sec) / 4) 0#32).extractLsb' (8 * ((a - sec) % 4)) 8 else memGet s.mem a
/-- The link is up in CXL mode. -/
def Sys2Proof.Claims.cxl (s : State) : Prop := s.link.mode = 2#2

/-- Accesses into the peer window at issue (R395, R396): a load goes to the node that its aperture's entry names, under that entry's KEY, when the entry
admits it, and fails with PERM otherwise; a transfer's chunk whose entry admits no chunk ends the transfer. -/
def Sys2Proof.Claims.AperturesAdmit : Prop :=
  (∀ (s u : State) (o : Op) (r : MemRec) (c : Ctx) (x : El) (p : Nat), o.ins = .ld r → mineAlone s o → o.ph = .l1Net → o.replay = 0 → checkAddr o = none →
    ctxOfInst s o.inst = some c → translate (some (dieOf o.cl)) (.cluster o.cl) c ⟨true, false, false⟩ (accessOf o) s = (.ok [x], u) →
    u.ops = s.ops → u.fab = s.fab → x.kind = .peer → p < 96 → s.fab.up = 1#96 <<< p →
    let e := assocGet 0#64 s.fab.apert (x.pa / 2 ^ 40 % 2048)
    let node := e.extractLsb' 0 20
    let admits := s.fab.nv = true ∧ e.getLsbD 63 = true ∧ e.getLsbD 62 = true ∧ node.extractLsb' 14 6 = s.fab.nodeid.extractLsb' 14 6 ∧ node ≠ s.fab.nodeid
    (admits → ∃ t q f k, exec (.unorderedRequest o.id) s = .next t ∧ findOp t o.id = some q ∧ q.ph = .miss ∧ q.left = [0] ∧
      q.els = [{ x with pa := 2 ^ 52 + node.toNat * 2 ^ 40 + x.pa % 2 ^ 40, key := k }] ∧ k / 2048 = (e.extractLsb' 48 8).toNat ∧
      t.fab.flits = [f] ∧ f.port = p ∧ f.id = o.id ∧ f.el = 0 ∧ f.node = node ∧ f.lost = false ∧ t.mem = u.mem ∧ t.flights = u.flights) ∧
    (¬ admits → ∃ t q, exec (.unorderedRequest o.id) s = .next t ∧ findOp t o.id = some q ∧ q.ph = .done ∧ q.err = some (BitVec.ofNat 64 (256 * x.va + 7)) ∧
      t.fab = s.fab ∧ t.mem = u.mem ∧ t.flights = u.flights)) ∧
  ∀ (s u : State) (x : Xfer) (r : XferRec) (c : Ctx) (e : El), x ∈ s.xfers → (∀ y ∈ s.xfers, y.id = x.id → y = x) → x.ins = .xfill r → x.ph = .running →
    x.els = none → x.next = 0 → x.pins = [] → 0 < len x → s.ops = [] → s.pwr.prs.getD (dieOf x.cl) 0#4 ≠ 3#4 → ctxOfInst s x.inst = some c →
    xlateAll x.id (dieOf x.cl) c (curWrites x) s = (.ok [e], none, u) → (∃ v, findX u x.id = some v) → u.fab = s.fab → e.kind = .peer →
    let w := assocGet 0#64 s.fab.apert (e.pa / 2 ^ 40 % 2048)
    (s.fab.nv = false ∨ w.getLsbD 63 = false ∨ w.extractLsb' 0 20 = s.fab.nodeid) →
    ∃ t y, exec (.transferChunk x.id) s = .next t ∧ findX t x.id = some y ∧ y.ph = .finish ∧ y.err = some 0x0409#64 ∧ t.mem = u.mem ∧ t.co = u.co

/-- The scale-up fabric (R397 to R401). A flit that fails its CRC and every later one of its port are discarded and counted, a peer's until the replay that is asked for; a replay sends them again; after eight failed replays a retrain brings the port back, or takes it down, and a port that goes down hands its requests to another, or keeps them where none is up; a path that
has been gone for 100 ms turns its requests into accesses of nothing; a refusal ends an access with PERM; an inbound access is performed at the home and answered, or refused without effect, and none reaches a device without a valid node ID. That a port's buffer keeps its flits'
order is the model's choice (assumption 20). The checks at issue are stated with it. -/
def Obligations.FabricDeliversOrRefuses : Prop :=
  AperturesAdmit ∧
  ∀ (s : State) (p : Nat), p < 96 → s.ras.ctrs.length = 14 →
    let up := s.fab.up.getLsbD p = true
    let fails := assocGet 0 s.fab.fails p
    let keeps := fun (t : State) => t.insts = s.insts ∧ t.mem = s.mem ∧ t.co = s.co ∧ t.tiles = s.tiles
    let again := fun (l : List Flit) => l.map fun f => if f.port = p then { f with lost := false } else f
    (∀ pre f post, up → s.fab.flits = pre ++ f :: post → f.port = p → ∃ t, exec (.flitCrcFailure p (pre.filter fun g => decide (g.port = p)).length) s = .next t ∧
      counts 10 s t ∧ assocGet 0 t.fab.fails p = fails + 1 ∧ keeps t ∧
      t.fab.flits = pre ++ { f with lost := true } :: post.map fun g => if g.port = p then { g with lost := true } else g) ∧
    (∀ n, up → (s.fab.flits.filter fun g => decide (g.port = p)).length ≤ n →
      (p ∈ s.fab.asked → exec (.flitCrcFailure p n) s = .next s) ∧
      (p ∉ s.fab.asked → ∃ t, exec (.flitCrcFailure p n) s = .next t ∧ counts 10 s t ∧ t.fab.asked = s.fab.asked ++ [p] ∧ t.fab.flits = s.fab.flits ∧
        assocGet 0 t.fab.rx p = assocGet 0 s.fab.rx p + 1 ∧ keeps t)) ∧
    (up → 1 ≤ fails → fails ≤ 8 → assocGet 0 s.fab.rx p = 0 → exec (.replay p) s = .next { s with fab := { s.fab with flits := again s.fab.flits } }) ∧
    (up → fails = 0 → 1 ≤ assocGet 0 s.fab.rx p → assocGet 0 s.fab.rx p ≤ 8 →
      exec (.replay p) s = .next { s with fab := { s.fab with asked := s.fab.asked.filter fun q => decide (q ≠ p) } }) ∧
    (up → 9 ≤ fails → ∃ t, exec (.retrain p true) s = .next t ∧ counts 11 s t ∧ assocGet 0 t.fab.fails p = 0 ∧ t.fab.flits = again s.fab.flits ∧ t.fab.up = s.fab.up ∧ keeps t) ∧
    (s.fab.up = 1#96 <<< p → ∃ t, exec (.portDown p) s = .next t ∧ t.fab.up = 0#96 ∧ keeps t ∧
      t.fab.flits = (s.fab.flits.map fun f => if f.port = p then { f with port := 96, lost := false } else f) ∧
      ∀ f ∈ s.fab.flits, f.port = p → ∃ c ∈ t.fab.cut, c.1 = f.node) ∧
    (∀ q, q < 96 → q ≠ p → s.fab.up = (1#96 <<< p) ||| (1#96 <<< q) → ∃ t, exec (.portDown p) s = .next t ∧ t.fab.up = 1#96 <<< q ∧ keeps t ∧
      t.fab.flits = s.fab.flits.map fun f => if f.port = p then { f with port := q, lost := false } else f) ∧
    (∀ node since, s.fab.up = 0#96 → (node, since) ∈ s.fab.cut → since + 100000000 ≤ s.time → ∃ t, exec (.pathTimeout node) s = .next t ∧ keeps t ∧
      t.fab.flits = (s.fab.flits.filter fun f => decide (f.node ≠ node)) ∧
      ∀ o ∈ t.ops, ∀ x ∈ o.els, x.kind = .peer → BitVec.ofNat 20 ((x.pa - 2 ^ 52) / 2 ^ 40) ≠ node) ∧
    (∀ o x r, o.ins = .ld r → mineAlone s o → o.ph = .miss → o.els = [x] → o.left = [0] → x.kind = .peer →
      ∃ t q, exec (.refusal o.id) s = .next t ∧ findOp t o.id = some q ∧ q.ph = .done ∧ q.err = some (BitVec.ofNat 64 (256 * x.va + 7)) ∧ keeps t) ∧
    (∀ a, (∀ i ∈ s.inbox, ∀ b, i ≠ .inboundAccess b) → s.fab.asked = [] →
      let admits := s.fab.nv = true ∧ s.fab.lsin = true ∧ a.src.extractLsb' 14 6 = s.fab.nodeid.extractLsb' 14 6
      let answered := fun (t : State) (r : InRes) => exec (.inboundAccess a) s = .next t ∧ t.fab.out = (a, r) :: s.fab.out ∧ t.inbox = s.inbox ∧
        t.insts = s.insts ∧ t.mem = s.mem ∧ t.co.l1w = s.co.l1w
      (∀ bs, a.kind = .store bs → 1 ≤ bs.length → admits → (∀ k, k < bs.length → homeReady s a.key (a.pa + k)) → ∃ t, answered t .ack ∧
        ∀ x, byteAt t a.key x = if a.pa ≤ x ∧ x < a.pa + bs.length then (bs.getD (x - a.pa) 0#8, false) else byteAt s a.key x) ∧
      (∀ k, a.kind = .load k → 1 ≤ k → admits → (∀ j, j < k → homeReady s a.key (a.pa + j)) →
        ∃ t, answered t (.data ((List.range k).map fun j => byteAt s a.key (a.pa + j))) ∧ ∀ x, byteAt t a.key x = byteAt s a.key x) ∧
      (s.fab.nv = true → (inBulk a.kind = false ∧ ¬ admits) ∨ (inBulk a.kind = true ∧ s.fab.bulkin = false) →
        ∃ t, answered t .refused ∧ t.co = s.co ∧ t.ops = s.ops)) ∧
    (∀ a, s.fab.nv = false → (∀ i ∈ s.inbox, ∀ b, i ≠ .inboundAccess b) → exec (.inboundAccess a) s = .next s)

/-- No host access waits in the inbox: a store of the host to a register is performed at once (R392; assumption 64). -/
def Sys2Proof.Claims.noHostWaits (s : State) : Prop := ∀ i ∈ s.inbox, isHostAcc i = false
/-- KSEL names the key, and INTEN, the bit beside it, is written until the first CTXLOAD (R414, R415): set, it reads 1 at once, and the clearing begins;
cleared, MEMCAP is again what bring-up reported, which R415 does not say (the model's choice: assumption 62). While READY reads 0, or after a fatal error,
only KSEL is written (the model's choice: assumption 43); while KBUSY is set, nothing is. -/
def Sys2Proof.Claims.KeySelect : Prop :=
  ∀ (s : State) (v : W64), noHostWaits s →
    let named := { s with ras := { s.ras with ksel := v.setWidth 8 } }
    let gives := fun (t : State) => exec (.registerWrite 0x3C00 v) s = .next t
    (s.ras.kbusy = true → gives s) ∧
    (s.ras.kbusy = false → s.pwr.ready = false ∨ s.ft.fatal = true ∨ s.fe.loaded = true → gives named) ∧
    (s.ras.kbusy = false → s.pwr.ready = true → s.ft.fatal = false → s.fe.loaded = false →
      (v.getLsbD 8 = true → s.ras.inten = true → gives named) ∧
      (v.getLsbD 8 = true → s.ras.inten = false → gives { named with ras := { named.ras with inten := true, kbusy := true, kcmd := 3#2 } }) ∧
      (v.getLsbD 8 = false → gives { named with ras := { named.ras with inten := false }, link := { s.link with memcap := s.link.popul } }))
/-- A sector's row of failed bursts is over. -/
def Sys2Proof.Claims.rowEnds (s : State) (sec : Nat) : Coh := { s.co with crc := assocDel s.co.crc sec }
/-- What a read of HBM and a retraining of its channel do (R408, R409): a burst that fails its CRC is counted and repeated, four times at most; then
only a retraining goes on, and the sector stays in its L2. Retrained, the channel carries the burst again: one that succeeds ends the row, and one that
fails once more gives poison, once, for a read, and discards a write, counted and logged; a channel that cannot be retrained is out of service. An error
found in stored data is counted, and logged and poisoned where it cannot be corrected; a sector that its home holds is not read. How failures of a burst
are counted, in a row of 1 to 5, with 6 and 7 for a read's and a write's burst after its retraining, is the model's choice (assumption 68). -/
def Sys2Proof.Claims.BurstsAreRepeated : Prop :=
  ∀ (s : State) (sec : Nat), sec % 64 = 0 → s.ras.ctrs.length = 14 → devicePresent s sec = true → channelOut s sec = false →
    let keeps := fun (t : State) => t.insts = s.insts ∧ t.mem = s.mem ∧ t.tiles = s.tiles ∧ t.ops = s.ops ∧ t.co.l2 = s.co.l2
    let unit := (Config.stackOf (sec / 64)).val
    let n := assocGet 0 s.co.crc sec
    let clean := { s with co := rowEnds s sec }
    let fails := fun (t : State) => exec (.hbmRead sec .crc) s = .next t ∧ t.mem = s.mem ∧ t.insts = s.insts ∧ t.ops = s.ops ∧ t.co.psn = s.co.psn ∧
      t.co.crc = assocDel s.co.crc sec ∧ t.co.outCh = s.co.outCh ∧ ∃ c, counts 2 s { s with ras := { s.ras with ctrs := c } } ∧
        logs 3 (homeDie sec) unit sec { s with ras := { s.ras with ctrs := c } } t
    (n = 5 → (∀ o, exec (.hbmRead sec o) s = .next s) ∧
      ((∀ p ∈ s.co.l2, p.pa = sec ∨ p.pa / 256 ≠ sec / 256) → (∀ r ∈ s.co.reg, r.pa / 256 ≠ sec / 256) → exec (.l2Eviction (sec / 256 * 256)) s = .next s)) ∧
    (n < 5 → ∃ t, exec (.hbmRead sec .crc) s = .next t ∧ counts 2 s t ∧ keeps t ∧ t.co = { s.co with crc := assocSet s.co.crc sec (n + 1) }) ∧
    (n = 6 → ∃ t, fails t ∧ t.co.l2 = s.co.l2 ∧ t.co.rdFail = s.co.rdFail ++ (if (l2Find s sec).isSome = true then [] else [sec])) ∧
    (n = 7 → ∃ t, fails t ∧ (∀ a, l2Find t a = if a = sec then none else l2Find s a) ∧ t.co.rdFail = s.co.rdFail) ∧
    (n ≠ 5 → (∀ wr ok, exec (.channelRetrain sec wr ok) s = .next s) ∧
      exec (.hbmRead sec .clean) s = .next clean ∧
      (∀ y, l2Find s sec = some y → exec (.hbmRead sec .corrected) s = .next clean ∧ exec (.hbmRead sec .uncorrectable) s = .next clean) ∧
      (l2Find s sec = none →
        (∃ t, exec (.hbmRead sec .corrected) s = .next t ∧ counts 0 s t ∧ keeps t ∧ t.co = rowEnds s sec) ∧
        (∃ t, exec (.hbmRead sec .uncorrectable) s = .next t ∧ logs 1 (homeDie sec) unit sec s t ∧ keeps t ∧ ∀ x, x ∈ t.co.psn ↔ x = sec ∨ x ∈ s.co.psn))) ∧
    (n = 5 → ∀ wr, exec (.channelRetrain sec wr true) s = .next { s with co := { s.co with crc := assocSet s.co.crc sec (if wr = true then 7 else 6) } } ∧
      ∃ t, exec (.channelRetrain sec wr false) s = .next t ∧ logs 3 (homeDie sec) unit sec s t ∧ t.mem = s.mem ∧ t.insts = s.insts ∧ t.ops = s.ops ∧
        t.co.psn = s.co.psn ∧ t.co.rdFail = s.co.rdFail ∧ t.co.crc = assocDel s.co.crc sec ∧ t.co.outCh = s.co.outCh ++ [Config.channelOf (sec / 64)] ∧
        (wr = false → t.co.l2 = s.co.l2) ∧ (wr = true → ∀ a, l2Find t a = if a = sec then none else l2Find s a)) ∧
    (∀ key, sec ∈ s.co.rdFail → (hbmFetch key sec s).1 = (zeroSec, 0xFFFF#16) ∧ sec ∉ (hbmFetch key sec s).2.co.rdFail)

/-- Errors, keys, counters and integrity (R408, R409, R412, R414, R415, R417). A directory byte in error asks every other die to give the sector up; a key command loads or clears the key it names, unless it names key 0; a half of a counter
register written as 0 clears its counter; the clearing that setting INTEN begins zeroes device memory. Reads of HBM and KSEL are stated with it. -/
def Obligations.ErrorsAreCountedAndKeysLoaded : Prop :=
  KeySelect ∧
  BurstsAreRepeated ∧
  ∀ (s : State) (sec : Nat), sec % 64 = 0 → s.ras.ctrs.length = 14 →
    let keeps := fun (t : State) => t.insts = s.insts ∧ t.mem = s.mem ∧ t.tiles = s.tiles ∧ t.ops = s.ops ∧ t.co.l2 = s.co.l2
    (∃ t, exec (.directoryByteError sec true) s = .next t ∧ counts 4 s t ∧ keeps t ∧ t.co = s.co) ∧
    (devicePresent s sec = true → settled s sec → s.link.mem = false → ∃ t k, exec (.directoryByteError sec false) s = .next t ∧ keeps t ∧
      let others := (List.range 4).filter fun d => decide (d ≠ homeDie sec)
      t.co.msgs = s.co.msgs ++ (others.map fun d => { src := .home, dst := .rdc d, pa := sec, key := k, body := .inval, held := false }) ∧
      t.co.dirRec = s.co.dirRec ++ [(sec, false)] ∧
      t.co.dwait = s.co.dwait ++ [{ rdc := none, pa := sec, req := none, need := others.map Agent.rdc }]) ∧
    (s.ras.kbusy = true →
      let done := fun (t : State) (stat : Byte) => t.ras.kbusy = false ∧ t.ras.kstat = stat
      let key := s.ras.kdata.getD 3 0#64 ++ s.ras.kdata.getD 2 0#64 ++ s.ras.kdata.getD 1 0#64 ++ s.ras.kdata.getD 0 0#64
      (s.ras.ksel = 0#8 → s.ras.kcmd = 1#2 → ∃ t, exec .kcmdLoad s = .next t ∧ done t 1#8 ∧ t.ras.keys = s.ras.keys ∧ keeps t) ∧
      (s.ras.ksel = 0#8 → s.ras.kcmd = 2#2 → ∃ t, exec .kcmdClear s = .next t ∧ done t 1#8 ∧ t.ras.keys = s.ras.keys ∧ keeps t) ∧
      (s.ras.ksel ≠ 0#8 → s.co.rdc = [] → (∀ x ∈ s.co.l2, x.key % 256 ≠ s.ras.ksel.toNat) →
        (s.ras.kcmd = 1#2 → ∃ t, exec .kcmdLoad s = .next t ∧ done t 0#8 ∧ keeps t ∧ ∀ k, assocGet 0#256 t.ras.keys k = if k = s.ras.ksel.toNat then key else assocGet 0#256 s.ras.keys k) ∧
        (s.ras.kcmd = 2#2 → ∃ t, exec .kcmdClear s = .next t ∧ done t 0#8 ∧ keeps t ∧ ∀ k, assocGet 0#256 t.ras.keys k = if k = s.ras.ksel.toNat then 0#256 else assocGet 0#256 s.ras.keys k))) ∧
    (∀ j v, j < 7 → noHostWaits s → ∃ t, exec (.counterWrite (8 * j) v) s = .next t ∧ t = { s with ras := t.ras } ∧ t.ras = { s.ras with ctrs := t.ras.ctrs } ∧
      ∀ k, k < 14 → t.ras.ctrs.getD k 0#32 = if (k = 2 * j ∧ v.extractLsb' 32 32 = 0#32) ∨ (k = 2 * j + 1 ∧ v.extractLsb' 0 32 = 0#32) then 0#32 else s.ras.ctrs.getD k 0#32) ∧
    (s.ras.kbusy = true → s.ras.kcmd = 3#2 → ∃ t, exec .inten s = .next t ∧ t.ras.inten = s.ras.inten ∧ t.ras.kbusy = false ∧ t.co.l2 = [] ∧ t.co.l1w = [] ∧ t.co.dirb = [] ∧
      (∀ a, memGet t.mem a = if a < 2 ^ 40 then 0#8 else memGet s.mem a) ∧ t.link.memcap.toNat ≤ s.link.popul.toNat ∧ t.insts = s.insts ∧ t.fe = s.fe ∧ t.pwr = s.pwr) ∧
    (s.ras.kbusy = false ∨ s.ras.kcmd ≠ 3#2 → exec .inten s = .next s)

/-- CACHE and MEM of the link, and its loss (R380, R390): CACHE and MEM are set in CXL mode alone and cleared in order; when the link goes down MODE, CACHE and MEM read 0 and unfinished accesses of host memory meet an address that holds nothing. Registers, threads, device memory and its caches
are not touched. -/
def Sys2Proof.Claims.LinkState : Prop :=
  ∀ s : State, s.co.rdc = [] → s.co.l1d = [] → s.co.bisnp = [] → s.co.dirb = [] → s.co.snoop = [] →
    let linkIs := fun (i : Instr) (l : Link) => exec i s = .next { s with link := l }
    (cxl s → s.link.cache = false → linkIs .cacheSet { s.link with cache := true }) ∧
    (cxl s → s.link.mem = false → linkIs .memSet { s.link with mem := true }) ∧
    (s.link.mem = true → linkIs .memClear { s.link with mem := false }) ∧
    (cxl s → s.link.cache = true → s.co.msgs = [] → s.co.dwait = [] → s.co.rdcReq = [] → s.ops = [] → s.xfers = [] → (Instr.cacheClear ∉ s.inbox) →
      linkIs .cacheClear { s.link with cache := false }) ∧
    (s.link.mode ≠ 1#2 → s.link.mode ≠ 2#2 → exec .hostLinkDown s = .next s) ∧
    (s.link.mode = 1#2 ∨ cxl s → ∃ t, exec .hostLinkDown s = .next t ∧ t.link = { s.link with mode := 0#2, cache := false, mem := false } ∧
      t.ops = (s.ops.map fun o => { o with els := o.els.map fun x => if x.kind = .hostc ∨ x.kind = .hostu then { x with kind := .hole } else x }) ∧
      t.insts = s.insts ∧ t.mem = s.mem ∧ t.co.l2 = s.co.l2 ∧ t.co.l1w = s.co.l1w ∧ t.fe = s.fe ∧ t.ras = s.ras ∧ t.pwr = s.pwr)

/-- MSI-X (R387): a vector that is pending goes out, with its entry's data at its entry's address, once its mask bit is written 0; while masked it stays
pending. That no other mask holds it is the model's choice (assumption 10). -/
def Sys2Proof.Claims.VectorsAreSent : Prop :=
  ∀ (s : State) (v : Nat) (hi : W64), v < 2048 → noHostWaits s →
    let entries := assocSet s.link.msix (2 * v + 1) hi
    (hi.getLsbD 32 = false → v ∈ s.link.pba → exec (.registerWrite (0x8000 + 16 * v + 8) hi) s = .next { s with link := { s.link with
      msix := entries, pba := s.link.pba.filter fun x => decide (x ≠ v),
      sent := (BitVec.ofNat 16 v, assocGet 0#64 s.link.msix (2 * v), hi.setWidth 32) :: s.link.sent } }) ∧
    (hi.getLsbD 32 = true ∨ v ∉ s.link.pba → exec (.registerWrite (0x8000 + 16 * v + 8) hi) s = .next { s with link := { s.link with msix := entries } })

/-- An 8-byte store of the host to a register, as an access of the host that waits for its turn. -/
def Sys2Proof.Claims.regStore (off : Nat) (v : W64) (n : Nat) : Instr :=
  .hostAccess { pa := 2 ^ 40 + off, len := 8, wr := some (bytesOfNat v.toNat 8), caches := false, excl := false, psn := false, no := n }
/-- The host's stores to registers keep their place among its accesses (R392): behind one that waits they wait too, in arrival order, and
are performed when their turn has come. That they are held beside them is the model's form (assumption 64). -/
def Sys2Proof.Claims.StoresKeepTheirPlace : Prop :=
  ∀ (s : State) (off : Nat) (v : W64),
    let queues := fun (i : Instr) (o : Nat) (x : W64) =>
      exec i s = .next { s with nextId := s.nextId + 1, inbox := s.inbox ++ [regStore o x s.nextId] }
    (¬ noHostWaits s → queues (.registerWrite off v) off v ∧ queues (.counterWrite off v) (0x3000 + off) v ∧ queues (.thresholdWrite v) 0x4208 v ∧
      queues (.triggerStore off v 8 none) off v ∧ ∀ q, q < 16384 → queues (.kick q 8) (0x100000 + 8 * q) 0#64) ∧
    (∀ n rest, s.inbox = regStore off v n :: rest → off < 2 ^ 26 → s.link.mode = 1#2 ∨ cxl s →
      exec (regStore off v n) s = .next (registerWrite off v { s with inbox := rest })) ∧
    (∀ n, noHostWaits s → off < 2 ^ 26 → s.link.mode = 1#2 ∨ cxl s → exec (regStore off v n) s = exec (.registerWrite off v) s)
/-- A sector that a range of bytes touches. -/
def Sys2Proof.Claims.touches (pa n sec : Nat) : Bool := decide (pa / 64 * 64 ≤ sec ∧ sec < pa + n)
/-- The directory bytes once the host has accessed sectors that nobody held (R227, R391): one that keeps its copy, through CXL.mem, is their holder. -/
def Sys2Proof.Claims.hostNoted (a : HostAcc) (s t : State) : Prop :=
  ∀ sec, dirbOf t sec = if a.caches = true ∧ s.link.mode = 2#2 ∧ s.link.mem = true ∧ sec % 64 = 0 ∧ touches a.pa a.len sec = true then (if a.excl = true then 0x0B#8 else 0x09#8) else dirbOf s sec

/-- The host's snoops, GO, back-invalidation answers and accesses (R388 to R392, Table 19.4). A snoop gives the host a modified sector, which then is S, gone or unchanged; GO gives an RDC its sector in S or E; the host's answer gives a sector back to its home's L2, or, once MEM reads 0, is an
ordinary write; a host write reaches the home, or host memory, and changes no other byte; a host read gets the bytes that the home gives; poison that
the host sends marks every word of the sectors it touches; a host that keeps a copy is noted in the directory. The link state, the interrupt messages (assumption 10)
and the order of register stores (assumption 64) are stated with it. -/
def Obligations.HostLinkAndItsData : Prop :=
  LinkState ∧ VectorsAreSent ∧ StoresKeepTheirPlace ∧
  ∀ (s : State) (d sec : Nat), memWf s.mem = true → sec % 64 = 0 →
    (∀ x, dieHolds s d sec x → cxl s → s.link.cache = true →
      let snoops := fun (i : Instr) (r : SnpRsp) (rdc : List RdcSec) => ∃ t, exec i s = .next t ∧ secStored s t sec x.data ∧ t.co.rdc = rdc ∧
        t.link.out = .answer d sec r (some (x.data, x.psn)) :: s.link.out ∧ t.insts = s.insts ∧ t.ops = s.ops
      snoops (.snpData d sec) .sFwdM [{ x with st := .s }] ∧ snoops (.snpInv d sec) .iFwdM [] ∧ snoops (.snpCur d sec) .vFwdV [x]) ∧
    (∀ k st bs, s.co.rdc.length + s.co.reg.length < 262144 → s.co.snoop.length < 1048576 → s.co.rdcReq = [(d, sec, k)] → rdcFind s d sec = none → bs.bytes.length = 64 →
      ∃ t x, exec (.go d sec st bs) s = .next t ∧ t.co.rdcReq = [] ∧ rdcFind t d sec = some x ∧ x.st = (if k = .shared ∧ st = .s then .s else .e) ∧ x.psn = (if bs.psn = true then 0xFFFF#16 else 0#16) ∧
        (∀ i, i < 64 → secByte x.data i = bs.bytes.getD i 0#8) ∧ secStored s t sec x.data) ∧
    (∀ bs y, s.co.bisnp = [(sec, true)] → inL2 s sec 0 y → bs.bytes.length = 64 → (∀ x ∈ s.co.dirRec, x.1 ≠ sec) → (∀ w ∈ s.co.dwait, w.pa ≠ sec) → dirbOf s sec = 0x0B#8 →
      ∃ t, exec (.bisnpResponse sec (some bs)) s = .next t ∧ t.co.bisnp = [] ∧ dirbOf t sec = 0#8 ∧ t.mem = s.mem ∧
        ∃ z, l2Find t sec = some z ∧ z.dirty = true ∧ z.key = 0 ∧ z.pz = (if bs.psn = true then 0xFFFF#16 else 0#16) ∧
          ∀ i, i < 64 → secByte z.data i = bs.bytes.getD i 0#8) ∧
    (∀ bs, s.co.bisnp = [] → s.link.mode = 1#2 ∨ cxl s → s.link.mode = 1#2 ∨ s.link.mem = false → noHostWaits s → bs.bytes.length = 64 →
      (∀ k, k < 64 → homeReady s 0 (sec + k)) → ∃ t, exec (.bisnpResponse sec (some bs)) s = .next t ∧ t.mem = s.mem ∧ t.co.l1w = s.co.l1w ∧
        ∀ x, byteAt t 0 x = if sec ≤ x ∧ x < sec + 64 then (bs.bytes.getD (x - sec) 0#8, bs.psn) else byteAt s 0 x) ∧
    (∀ a bs, s.link.mode = 1#2 ∨ cxl s → a.wr = some bs → bs.length = a.len → 1 ≤ a.len → noHostWaits s →
      let hit := fun (x : Nat) => touches a.pa a.len (sectorOf x) = true
      ((∀ k, k < a.len → homeReady s 0 (a.pa + k)) → ∃ t, exec (.hostAccess a) s = .next t ∧ t.inbox = s.inbox ∧ t.mem = s.mem ∧ t.co.l1w = s.co.l1w ∧ hostNoted a s t ∧
        (∀ x, (byteAt t 0 x).1 = if a.pa ≤ x ∧ x < a.pa + a.len then bs.getD (x - a.pa) 0#8 else (byteAt s 0 x).1) ∧
        (∀ x, hit x → (byteAt t 0 x).2 = a.psn) ∧ ∀ x, ¬ hit x → byteAt t 0 x = byteAt s 0 x) ∧
      (isHost a.pa = true → isHost (a.pa + a.len - 1) = true → s.co.rdc = [] → s.co.l1d = [] → s.co.msgs = [] → s.co.gwait = [] → s.co.dwait = [] → s.co.dirRec = [] → s.co.bisnp = [] →
        s.co.rdcReq = [] → ∃ t, exec (.hostAccess a) s = .next t ∧ t.inbox = s.inbox ∧ t.co.l2 = s.co.l2 ∧
        (∀ x, memGet t.mem x = if a.pa ≤ x ∧ x < a.pa + a.len then bs.getD (x - a.pa) 0#8 else memGet s.mem x) ∧
        ∀ x, let word := x / 4 * 4
          (hit x → (psnAt t word = true ↔ a.psn = true ∨ (psnAt s word = true ∧ ¬ (a.pa ≤ word ∧ word + 4 ≤ a.pa + a.len)))) ∧
          (¬ hit x → psnAt t word = psnAt s word))) ∧
    (∀ a, s.link.mode = 1#2 ∨ cxl s → a.wr = none → 1 ≤ a.len → noHostWaits s → (∀ k, k < a.len → homeReady s 0 (a.pa + k)) →
      ∃ t, exec (.hostAccess a) s = .next t ∧ hostNoted a s t ∧ t.link.out = .data a.pa ((List.range a.len).map fun k => byteAt s 0 (a.pa + k)) :: s.link.out ∧
        t.inbox = s.inbox ∧ t.mem = s.mem ∧ ∀ x, byteAt t 0 x = byteAt s 0 x)

/-! ### Queues and launches -/

/-- Queue x of context c, the only one of its number. -/
def Sys2Proof.Claims.queueIs (s : State) (x : Queue) (c : Ctx) : Prop :=
  x ∈ s.fe.queues ∧ (∀ y ∈ s.fe.queues, y.q = x.q → y = x) ∧ findCtx s x.ctx = some c
/-- Bytes read without poison. -/
def Sys2Proof.Claims.sound (bs : List (Byte × Bool)) : Prop := ∀ b ∈ bs, b.2 = false
/-- Launch l is known and the only one of its queue. -/
def Sys2Proof.Claims.launchIs (s : State) (l : Launch) : Prop := l ∈ s.fe.launches ∧ ∀ m ∈ s.fe.launches, m.q = l.q ∨ m.id = l.id → m = l
/-- A kick: the queue may read its next slot again, whatever stopped it. -/
def Sys2Proof.Claims.kicked (q : Nat) (s : State) : State :=
  { s with fe := { s.fe with queues := s.fe.queues.map fun x => if x.q = q then { x with halted := false, told := false } else x } }
/-- A residency after a trigger store of other than 0. -/
def Sys2Proof.Claims.raised (r : Resident) : Resident := { r with pending := if r.pending = 0xFFFF#16 then 0xFFFF#16 else r.pending + 1#16 }
/-- The residencies once a value has been stored to a trigger register (R336). -/
def Sys2Proof.Claims.triggered (ctx : Nat) (trig : BitVec 4) (v : W64) (l : List Resident) : List Resident :=
  let this := fun (r : Resident) => decide (r.ctx = ctx ∧ r.trig = trig)
  if v ≠ 0#64 then l.map fun r => if this r then raised r else r
  else (l.filter fun r => !(this r && r.active.isNone)).map fun r => if this r then { r with ending := true, pending := 0#16 } else r

/-- A trigger store of the value has been performed: the residencies, and deficits only of what is still ready (R338). -/
def Sys2Proof.Claims.stores (ctx : Nat) (trig : BitVec 4) (v : W64) (s t : State) : Prop :=
  (∃ d, t = { s with fe := { s.fe with resident := triggered ctx trig v s.fe.resident, deficit := d } }) ∧ (∀ x ∈ t.fe.deficit, x ∈ s.fe.deficit) ∧
  (v ≠ 0#64 → t.fe.deficit = s.fe.deficit)

/-- KICK, TRIGGER_STORE, PACKET_CONSUME, SIGNAL_RECHECK, and the end of a packet that starts nothing (R325 to R327, R333, R336). A kick of
eight bytes, direct or stored to its register, lets its queue read again; other widths do nothing. A trigger store counts one more pending
run, or ends the residency; a device's store reaches a residency of its own context alone. Stores of the host are performed at once where no access
of it waits (R392; assumption 64). A queue reads the header of its slot; one of type 0 waits for the next
kick or event, when it is read again; the rest of a published packet of one slot is read, it is queued as a launch with its wait signals, its header is zeroed and
RIDX moves on; a header, or rest, that cannot be read halts the queue with a FRONT entry. A wait signal read as at most 0 is waited for no longer. A NOP, and a packet of no known
type, end without a trace when COMP is 0. -/
def Obligations.QueuesTakeWhatIsPublished : Prop :=
  ∀ s : State,
    (∀ q n, n ≠ 8 ∨ 16384 ≤ q → exec (.kick q n) s = .next s) ∧
    (∀ off v n, n ≠ 8 → exec (.triggerStore off v n none) s = .next s) ∧
    (noHostWaits s → (∀ q, q < 16384 → exec (.kick q 8) s = .next (kicked q s)) ∧
      (∀ q v, q < 16384 → exec (.triggerStore (0x100000 + 8 * q) v 8 none) s = .next (kicked q s)) ∧
      ∀ ctx (trig : BitVec 4) v, ctx < 4096 → ∃ t, exec (.triggerStore (0x120000 + 8 * (16 * ctx + trig.toNat)) v 8 none) s = .next t ∧ stores ctx trig v s t) ∧
    (∀ o r x n ctx (trig : BitVec 4) v, ctx < 4096 → o.ins = .st r → mineAlone s o → o.ph = .miss → o.els = [x] → o.left = [0] → x.kind = .mmio → x.len = 8 →
      x.pa = 2 ^ 40 + 0x120000 + 8 * (16 * ctx + trig.toNat) → findInst s o.inst = some n →
      ∃ t, exec (.triggerStore (0x120000 + 8 * (16 * ctx + trig.toNat)) v 8 (some o.id)) s = .next t ∧ Sends (opFiring o) o.ins o.b.payload false s t ∧
        (∃ u, (n.ctx = ctx → stores ctx trig v s u) ∧ (n.ctx ≠ ctx → u = s) ∧ t.fe = u.fe) ∧ t.mem = s.mem ∧ t.co = s.co) ∧
    (∀ x c, queueIs s x c →
      let slot := x.ring + 64 * (x.ridx.toNat % 2 ^ x.logn)
      (x.halted = true → exec (.packetConsume x.q) s = .next s) ∧
      (x.halted = false →
        (∀ hs y, sysRead none c slot 8 s = (.ok hs, y) → sound hs → pkType (dwords hs) = 0 → exec (.packetConsume x.q) s = .next y) ∧
        (∀ hs bs y u, sysRead none c slot 8 s = (.ok hs, y) → sound hs → pkType (dwords hs) ≠ 0 → sysRead none c (slot + 8) 56 y = (.ok bs, u) → sound bs → hs.length = 8 →
          let p := dwords hs ++ dwords bs
          (∀ k v, pkType p = 2 ∨ pkNarg p < 2 → sysReady none c [(needWr, slot, 8), (needWr, x.desc + 8, 8)] 0 u = (.ok [], k, v) →
            let w := (sysWrite none c (x.desc + 8) (dwBytes (x.ridx + 1#64)) (sysWrite none c slot (List.replicate 8 0#8) v).2).2
            ∃ t l, exec (.packetConsume x.q) s = .next t ∧ t = { w with nextId := w.nextId + 1, fe := t.fe } ∧
              t.fe = { w.fe with launches := w.fe.launches ++ [l], queues := w.fe.queues.map fun y => if y.q = x.q then { y with ridx := x.ridx + 1#64 } else y } ∧
              l.id = w.nextId ∧ l.q = x.q ∧ l.ctx = x.ctx ∧ l.pkt = p ∧ l.waits = ([(word p 4).toNat, (word p 5).toNat].filter fun a => decide (a ≠ 0)))) ∧
        (∀ a u d, (sysRead none c slot 8 s = (.noPage a, u) ∨ sysRead none c slot 8 s = (.noPerm a, u)) ∨
            (∃ hs y, sysRead none c slot 8 s = (.ok hs, y) ∧ sound hs ∧ pkType (dwords hs) ≠ 0 ∧ (sysRead none c (slot + 8) 56 y = (.noPage a, u) ∨ sysRead none c (slot + 8) 56 y = (.noPerm a, u))) →
          x.told = false → findCtx u x.ctx = some d →
          ∃ t e dd, exec (.packetConsume x.q) s = .next t ∧ findCtx t x.ctx = some dd ∧ dd.held = d.held ++ [e] ∧ e.kind = 7#8 ∧ e.fid = d.nextFid ∧
            e.va = BitVec.ofNat 64 a ∧ e.data = BitVec.ofNat 16 x.q ++ 1#8 ++ 0#40 ∧
            t.fe.queues = (u.fe.queues.map fun y => if y.q = x.q then { y with halted := true, told := true } else y) ∧ t.fe.launches = u.fe.launches ∧ t.mem = u.mem))) ∧
    (∀ l c, launchIs s l → findCtx s l.ctx = some c →
      (∀ a bs u, l.waits = [a] → pkBad l.pkt = false → sysRead none c a 8 s = (.ok bs, u) → sound bs →
        exec (.signalRecheck l.id) s = .next (if (dwAt bs 0).toInt ≤ 0 then
          { u with fe := { u.fe with launches := u.fe.launches.map fun m => if m.id = l.id then { m with waits := m.waits.filter fun b => decide (b ≠ a) } else m } }
          else u)) ∧
      (s.ft.fatal = false → pkComp l.pkt = 0 → (pkBad l.pkt = false ∧ l.waits = [] ∧ pkType l.pkt = 2) ∨ 2 < pkType l.pkt →
        ∃ t, exec (.placement l.id) s = .next t ∧ (∀ x ∈ t.fe.deficit, x ∈ s.fe.deficit) ∧
          t = { s with fe := { s.fe with launches := s.fe.launches.filter fun m => decide (m.id ≠ l.id), deficit := t.fe.deficit } }))

/-- Words of an RCB that break no rule (Table 15.2, R321). -/
def Sys2Proof.Claims.rcbFits (b : List W64) : Prop :=
  let own := word b 1
  own.extractLsb' 19 5 = 0#5 ∧ own.extractLsb' 0 16 = 0#16 ∧ (word b 3).extractLsb' 0 32 = 0#32 ∧ (∀ k, k < 4 → word b (4 + k) = 0#64) ∧
  (own.getLsbD 63 = true ∨ (1 ≤ (own.extractLsb' 32 10).toNat ∧ (own.extractLsb' 32 10).toNat ≤ 512)) ∧
  (own.getLsbD 60 = true ∨ own.extractLsb' 24 8 ≠ 0#8) ∧ (word b 2).toNat % 65536 = 0
/-- The effective limits of an RCB, its own or its parent's by INH: MAXCL, MAXINST and MAXSPILL (R321). -/
def Sys2Proof.Claims.limits (b up : List W64) : Nat × Nat × Nat :=
  let own := fun (k : Nat) => if (word b 1).getLsbD k = true then up else b
  (((word (own 63) 1).extractLsb' 32 10).toNat, ((word (own 62) 1).extractLsb' 42 16).toNat, (word (own 61) 2).toNat)
/-- Clusters, instances and spill bytes of a context's instances under an RCB (R322). -/
def Sys2Proof.Claims.usedAt (s : State) (ctx : Nat) (rcb : W64) : Nat × Nat × Nat :=
  let l := s.insts.filter fun i => decide (i.ctx = ctx ∧ rcb ∈ i.path)
  ((l.map fun i => if i.phase = .saved then 0 else i.w * i.h).sum, l.length, (l.map (·.spillN)).sum)

/-- The budgets of a launch whose path is one RCB and the root (R320 to R322, Table 15.6). A path that breaks a rule ends the launch as REJECTED
with cause RCB; one whose effective limits it can never meet with cause BUDGET and the effective FDOM; one that is short only for the moment
leaves it queued. -/
def Sys2Proof.Claims.BudgetsBindLaunches : Prop :=
  ∀ (s u v w : State) (l : Launch) (c : Ctx) (h : List W64) (bs rs : List (Byte × Bool)), s.ft.fatal = false → launchIs s l → findCtx s l.ctx = some c →
    pkBad l.pkt = false → pkType l.pkt = 1 → pkKeep l.pkt = false → l.waits = [] →
    let a := word l.pkt 2
    let reads := fun (x y z t : State) => readHeader c (pkImage l.pkt) x = (.ok h, y) ∧ sysRead none c a.toNat 64 y = (.ok bs, z) ∧ sysRead none c c.rootRcb.toNat 64 z = (.ok rs, t)
    let b := dwords bs
    let r := dwords rs
    reads s u v w → sound bs → sound rs → a ≠ c.rootRcb → a.toNat % 64 = 0 → c.rootRcb.toNat % 64 = 0 → word b 0 = c.rootRcb → c.rootRcb ≠ 0#64 → w.fe.dead = [] →
    1 ≤ hdrW h → hdrW h ≤ 32 → 1 ≤ hdrH h → hdrH h ≤ 16 →
    let fits := rcbFits b ∧ rcbFits r ∧ word r 0 = 0#64 ∧ (word r 1).extractLsb' 58 6 = 0#6
    let wh := hdrW h * hdrH h
    let sp := (max (hdrSpill h) (256 * pkSpillU l.pkt) + 65535) / 65536 * 65536
    let small := fun (m : Nat × Nat × Nat) (n : Nat × Nat × Nat) => m.1 < n.1 + wh ∨ m.2.1 < n.2.1 + 1 ∨ m.2.2 < n.2.2 + sp
    let own := limits b r
    let top := limits r r
    (¬ fits → exec (.placement l.id) s = .next (endLaunch l (noRun 3 2 0 0) 0#32 w)) ∧
    (fits → small own (0, 0, 0) ∨ small top (0, 0, 0) →
      exec (.placement l.id) s = .next (endLaunch l (noRun 3 3 0 0) ((word (if (word b 1).getLsbD 58 = true then r else b) 3).extractLsb' 32 32) w)) ∧
    (∀ x y z, fits → ¬ small own (0, 0, 0) → ¬ small top (0, 0, 0) → sp ≤ c.spoolSz * 65536 → saveLen (hdrW h) (hdrH h) ≤ c.saveSz * 65536 →
      w.fe.launches = [l] → w.fe.resident = [] → findCtx w l.ctx = some c → reads w x y z → z.fe = w.fe →
      small own (usedAt z c.handle a) ∨ small top (usedAt z c.handle c.rootRcb) →
      exec (.placement l.id) s = .next { z with fe := { z.fe with deficit := [] } })

/-- A new instance: what the packet, the image header and the loaded image make of it (R22, R328). -/
def Sys2Proof.Claims.startsAs (i : Inst) (pkt hdr : List W64) (x0 y0 : Nat) (d : Loaded) : Prop :=
  i.phase = .running ∧ i.injected = true ∧ i.stopped = false ∧ i.ending = false ∧ i.x0 = x0 ∧ i.y0 = y0 ∧ i.w = hdrW hdr ∧ i.h = hdrH hdr ∧ i.slots = d.slots ∧ i.sets = [] ∧
  i.flags = 0#5 ∧ i.sinkCnt = 0#64 ∧ i.errCnt = 0#32 ∧ i.epoch = 0#8 ∧ i.pkt = pkt ∧
  i.threads.map (·.thr) = (List.range (pkNthr pkt + 1)).map (BitVec.ofNat 16) ∧ ∀ h ∈ i.threads, h.st = .live ∧ h.cw = 0#24 ∧ h.last = none
/-- Its injected tokens: for each thread in turn one for each entry word, with its argument, under tag (thread, 0). -/
def Sys2Proof.Claims.injects (tick iid : Nat) (pkt : List W64) (d : Loaded) : List Flight :=
  (List.range (pkNthr pkt + 1)).flatMap fun k => d.entry.map fun e =>
    { inst := iid, src := .inject, node := .frontEnd, sent := tick, dst := targetPlace { x := entryX e, y := entryY e, pe := 0, slot := 0 } (entryTarget e), opnd := (entryTarget e).opnd,
      tok := { payload := (if entryArg e < pkNarg pkt then word pkt (7 + entryArg e) else 0#64).setWidth 256, wide := false, tag := ⟨BitVec.ofNat 16 k, 0#24⟩, e := false, s := false, deps := [] } }
/-- Instances have identifiers of their own. -/
def Sys2Proof.Claims.distinct (s : State) : Prop := ∀ i ∈ s.insts, ∀ j ∈ s.insts, i.iid = j.iid → i = j
/-- An instance whose sweep begins: its nodes are its clusters, the front end and the engines that hold its transfers (R368). -/
def Sys2Proof.Claims.sweeps (s : State) (move : Bool) (i : Inst) : Inst :=
  { i with phase := .sweeping ((List.range (i.w * i.h)).map SweepNode.cluster ++ [.frontEnd] ++
      ((s.xfers.filter fun x => decide (x.inst = i.iid)).filterMap (·.act)).map SweepNode.engine) [], probe1 := none, moving := move }
/-- Instances that can be swept. -/
def Sys2Proof.Claims.mayLeave (i : Inst) : Bool := decide (i.phase = .running ∧ i.injected = true ∧ i.ending = false)
/-- Paddle work leaves (R339): every class-0 instance is swept, and reservations of class 0 are given up. -/
def Sys2Proof.Claims.paddlesGone (s : State) : State :=
  { s with insts := s.insts.map fun i => if mayLeave i && decide (i.cls = 0) then sweeps s false i else i,
           fe := { s.fe with resident := s.fe.resident.map fun r => if r.active.isNone && decide (r.cls = 0) then { r with rect := none } else r } }

/-- PLACEMENT, RUN, PREEMPTION and COMPACTION (R328, R329, R336, R338, R373). The one ready launch, judged sound and within its budgets, is placed at the first free origin of R329's order: the new instance has its slots, LIVE threads 0 to NTHR and injected
tokens, its clusters' tile stores are clear, and the launch is queued no longer. A pending run of a resident graph starts at its reserved rectangle as a new instance, its count one less. While any launch or saved instance above class 0 finds no space, every class-0 instance is swept at once (R339); for the launch whose turn it is, after 50 µs without a free
rectangle lower classes are swept off the first rectangle that this frees; one that even this does not help has the first instance moved that can go to an earlier origin. The budgets are stated with them. -/
def Obligations.LaunchesArePlacedAndMakeSpace : Prop :=
  BudgetsBindLaunches ∧
  ∀ s : State, s.ft.fatal = false →
    (∀ l c a0 a d o u v w, s.fe.launches = [l] → s.fe.resident = [] → s.insts = [] → findCtx s l.ctx = some c → pkBad l.pkt = false → pkType l.pkt = 1 → pkKeep l.pkt = false → l.waits = [] → l.id < 2 ^ 64 →
      judge c l.pkt none s = (.ok a0, u) → u.fe = s.fe → u.insts = [] → judge c l.pkt none u = (.ok a, v) → v.fe = s.fe → v.insts = [] → v.pwr = s.pwr → a.budget = true → 1 ≤ a.weight →
      hdrW a.hdr * hdrH a.hdr ≤ 512 → (a.cls = 0 → s.pwr.padm = true) → a.spill ≤ c.spoolSz * 65536 → saveLen (hdrW a.hdr) (hdrH a.hdr) ≤ c.saveSz * 65536 →
      firstFree (s.fe.off ++ s.fe.dead) (hdrW a.hdr) (hdrH a.hdr) = some o →
      let k := { v with fe := { v.fe with deficit := v.fe.deficit.filter fun x => decide ((l.ctx, word l.pkt 2) = (x.1, x.2.1) ∧ a.cls = x.2.2.1) } }
      loadImage c (pkImage l.pkt) a.hdr k = (.ok d, w) → w.fe = k.fe → w.insts = [] → w.flights = [] →
      ∃ t i, exec (.placement l.id) s = .next t ∧ t.insts = [i] ∧ startsAs i l.pkt a.hdr o.1 o.2 d ∧ i.num = c.nextInst ∧ i.cls = a.cls ∧ t.flights = injects w.tick i.iid l.pkt d ∧
        t.fe.launches = [] ∧ t.fe.resident = [] ∧ t.mem = w.mem ∧ ∀ cl ∈ rectCls o.1 o.2 (hdrW a.hdr) (hdrH a.hdr), ∀ k, k < 2 ^ 20 → tileByte t cl k = 0#8) ∧
    (∀ r c d u x0 y0 w h, r ∈ s.fe.resident → (∀ y ∈ s.fe.resident, y.ctx = r.ctx → y.trig = r.trig → y = r) → findCtx s r.ctx = some c → r.active = none → r.ending = false → r.pending ≠ 0#16 →
      r.rect = some (x0, y0, w, h) → loadImage c (pkImage r.pkt) r.hdr s = (.ok d, u) → u.fe = s.fe → u.insts = s.insts → (∀ i ∈ s.insts, i.iid ≠ u.nextId) →
      ∃ t i, exec (.run r.ctx r.trig) s = .next t ∧ t.insts = s.insts ++ [i] ∧ startsAs i r.pkt r.hdr x0 y0 d ∧ i.trig = some r.trig ∧ t.flights = u.flights ++ injects u.tick i.iid r.pkt d ∧ t.fe.launches = s.fe.launches ∧
        t.fe.resident = s.fe.resident.map fun y => if y = r then { r with active := some i.iid, pending := r.pending - 1#16, rect := some (x0, y0, hdrW r.hdr, hdrH r.hdr), since := none } else y) ∧
    (∀ who cs u p, readyCands s = (some cs, u) → distinct u →
      ((∃ x ∈ cs, 1 ≤ x.att.cls ∧ findSpace u x = none) → p = paddlesGone u) → ((∀ x ∈ cs, 1 ≤ x.att.cls → findSpace u x ≠ none) → p = u) →
      (∀ w, waiting who p = (none, w) → exec (.preemption who) s = .next w) ∧
      ∀ x w v, waiting who p = (some x, w) → v = noteSince x w → distinct v →
        let found := firstFree (takenCls v (fun _ => true) fun _ => true) (hdrW x.att.hdr) (hdrH x.att.hdr)
        let late := ∃ t0, x.since = some t0 ∧ t0 + 50000 ≤ v.time
        (found ≠ none ∨ ¬ late ∨ victimRect v x x.att.cls = none → exec (.preemption who) s = .next v) ∧
        ∀ o, found = none → late → victimRect v x x.att.cls = some o →
          let meets := fun (l : List Nat) => l.any fun k => (rectCls o.1 o.2 (hdrW x.att.hdr) (hdrH x.att.hdr)).contains k
          exec (.preemption who) s = .next { v with
            insts := v.insts.map fun i => if mayLeave i && decide (i.cls < x.att.cls) && meets (instCls i) then sweeps v false i else i,
            fe := { v.fe with resident := v.fe.resident.map fun r => if r.active.isNone && decide (r.cls < x.att.cls) && meets (resCls r) then { r with rect := none } else r } }) ∧
    (∀ i c cs u, findInst s i.iid = some i → i.phase = .saved → i.ending = false → 1 ≤ i.cls → cands s = (some cs, u) → findCtx s i.ctx = some c → distinct u →
      firstFree (takenCls u (fun _ => true) fun _ => true) i.w i.h = none → exec (.restore i.iid) s = .next (paddlesGone u)) ∧
    (∀ who x u t0 i, waiting who s = (some x, u) → distinct u → x.since = some t0 → t0 + 50000 ≤ u.time → victimRect u x x.att.cls = none → hdrW x.att.hdr * hdrH x.att.hdr ≤ freeOrLower u x.att.cls →
      firstMover u x.att.cls = some i → exec (.compaction who) s = .next { u with insts := u.insts.map fun j => if j = i then sweeps u true i else j })

/-! ### The fault queue, RESUME, SHOOT and fatal errors -/

/-- All work is gone: instances, tokens, operations, transfers, contexts, queues, launches and residencies (R363). -/
def Sys2Proof.Claims.workIsGone (t : State) : Prop :=
  t.insts = [] ∧ t.flights = [] ∧ t.ops = [] ∧ t.xfers = [] ∧ t.fe.ctxs = [] ∧ t.fe.queues = [] ∧ t.fe.launches = [] ∧ t.fe.resident = [] ∧ t.fe.busy = false ∧ t.ft.busy = false ∧
  t.co.tlb = []
/-- The eight doublewords of an entry (Table 16.6); those of an instance quote its contact sheet as it is now. -/
def Sys2Proof.Claims.entryIs (s : State) (e : FEntry) : List W64 :=
  let now := fun (old : W64) (f : Inst → W64) => if e.sheet1 = 0#64 then old else match findInst s e.inst with
    | some i => f i
    | none => old
  [e.kind ++ e.src ++ e.acc ++ e.level ++ 0#8 ++ e.fid, e.va, e.place, now e.sheet0 (sheet0 s), now e.sheet1 sheet1, e.fdom ++ 0#32, e.data, e.time]
/-- A RESUME of one FID under way: ACT, HANDLE, NM1 = 0. -/
def Sys2Proof.Claims.resumes (s : State) (act : BitVec 2) (c : Ctx) (e : FEntry) : Prop :=
  s.ft.busy = true ∧ s.ft.cmd = 1#8 ∧ s.ft.hits = none ∧ c.handle < 4096 ∧ s.ft.arg0 = act ++ 0#2 ++ BitVec.ofNat 12 c.handle ++ 0#16 ++ e.fid ∧ findCtx s c.handle = some c ∧
  c.out.filter (fun f => decide (f.fid = e.fid)) = [e] ∧ e.fid ≠ 0#32 ∧ (∀ f ∈ c.out, f.fid ≠ 0#32) ∧ ∃ n, findInst s e.inst = some n ∧ n.phase = .running
/-- The command is over: OK, with one entry resumed more. -/
def Sys2Proof.Claims.resumed (u : State) (s : State) : State := { u with ft := { u.ft with busy := false, stat := 0#8, res := s.ft.res + 1#64, hits := none } }
/-- ENDED threads of an instance are FREE once nothing holds them (R161). -/
def Sys2Proof.Claims.endedGo (inst : Nat) (l : List Inst) : List Inst :=
  l.map fun i => if i.iid = inst then { i with threads := i.threads.map fun h => if h.st = .ended then { h with st := .free, last := none, eos := false, acq := none } else h } else i
/-- The entry is outstanding no longer. -/
def Sys2Proof.Claims.closes (c : Ctx) (e : FEntry) (s : State) : State :=
  { s with fe := { s.fe with ctxs := s.fe.ctxs.map fun d => if d.handle = c.handle then { d with out := d.out.filter fun f => decide (f.fid ≠ e.fid) } else d } }

/-- A vector is raised (R387): its entry's data goes to its entry's address, or it is pending while its mask bit is 1; an entry never written is
masked (assumption 10). -/
def Sys2Proof.Claims.interrupts (v : BitVec 16) (s : State) : State :=
  let hi := assocGet 0x100000000#64 s.link.msix (2 * v.toNat + 1)
  if 2048 ≤ v.toNat then s
  else if hi.getLsbD 32 = true then { s with link := { s.link with pba := if v.toNat ∈ s.link.pba then s.link.pba else s.link.pba ++ [v.toNat] } }
  else { s with link := { s.link with sent := (v, assocGet 0#64 s.link.msix (2 * v.toNat), hi.setWidth 32) :: s.link.sent } }

/-- The index bits of a level of the walk, and the bytes that a leaf of that level maps (Table 16.1). -/
def Sys2Proof.Claims.levelOf (va : Nat) : Nat → Nat × Nat
  | 0 => (va / 2 ^ 45 % 2 ^ 11, 0)
  | 1 => (va / 2 ^ 34 % 2 ^ 11, 2 ^ 34)
  | 2 => (va / 2 ^ 25 % 2 ^ 9, 2 ^ 25)
  | _ => (va / 2 ^ 16 % 2 ^ 9, 2 ^ 16)
/-- A valid table entry of a level that breaks no rule of R343: reserved bits, a table's other fields, where leaves may stand, their alignment, KD with
KEY. -/
def Sys2Proof.Claims.entryFits (e : W64) (lvl : Nat) : Prop :=
  let lf := e.getLsbD 62 = true
  e.extractLsb' 0 7 = 0#7 ∧ (lf ∨ (e.extractLsb' 52 10 = 0#10 ∧ e.extractLsb' 8 8 = 0#8)) ∧ (lf → lvl ≠ 0) ∧ (lf ∨ lvl ≠ 3) ∧
  (lf → lvl = 1 → e.extractLsb' 16 18 = 0#18) ∧ (lf → lvl = 2 → e.extractLsb' 16 9 = 0#9) ∧ (e.getLsbD 7 = true → e.extractLsb' 8 8 = 0#8)
/-- A table entry that stands at its home in plaintext. -/
def Sys2Proof.Claims.standsAt (s : State) (a : Nat) (e : W64) : Prop :=
  ∀ k, k < 8 → homeReady s 0 (a + k) ∧ byteAt s 0 (a + k) = (e.extractLsb' (8 * k) 8, false)
/-- What the walk from a table finds, `n` levels before its end (R343). -/
def Sys2Proof.Claims.finds (s : State) (va : Nat) : Nat → Nat → Found → Prop
  | 0, _, _ => False
  | n + 1, table, f =>
    let lvl := 3 - n
    let a := table + 8 * (levelOf va lvl).1
    ∃ e, standsAt s a e ∧
      (e.getLsbD 63 = false → f = .fault 1#8 lvl) ∧
      (e.getLsbD 63 = true → ¬ entryFits e lvl → f = .fault 2#8 lvl) ∧
      (e.getLsbD 63 = true → entryFits e lvl → e.getLsbD 62 = true → f = .leaf e (levelOf va lvl).2 a) ∧
      (e.getLsbD 63 = true → entryFits e lvl → e.getLsbD 62 = false → finds s va n (65536 * (e.extractLsb' 16 36).toNat) f)

/-- Translation of an access that no slice has cached (R343 to R346, Tables 16.1 to 16.3). A walk that finds no valid entry, or a malformed one, faults at
its level; a leaf that does not permit the access parks it as PROT, or refuses it, by F, with A and D as they were; one that does permit it gives the address,
and the key, and has its A bit, for a write its D bit too, set in memory first. -/
def Sys2Proof.Claims.WalksTranslate : Prop :=
  ∀ (s : State) (die : Option Nat) (w : Who) (c : Ctx) (n : Need) (va len : Nat) (f : Found), s.co.tlb = [] → va < 2 ^ 56 → c.ptroot % 2 ^ 14 = 0 → finds s va 4 c.ptroot f →
    let r := translate die w c n [(va, len)] s
    (∀ kind lvl, f = .fault kind lvl → r = (.park kind lvl va, s)) ∧
    ∀ e size pte, f = .leaf e size pte →
      let pa := 65536 * (e.extractLsb' 16 36).toNat + va % size
      let cached := fun (l : W64) => ({ die := die, slice := sliceOf die va, asid := c.asid, va := va - va % size, size := size, leaf := l, pte := pte } : Tlb)
      let kept := { s with co := { s.co with tlb := [cached e] } }
      let el : El := { va := va, pa := pa, len := len, kind := kindAt s (e.extractLsb' 57 2).toNat pa,
                       key := (if e.getLsbD 7 = true then c.key else (e.extractLsb' 8 8).toNat) + (if e.getLsbD 56 = true then 256 else 0), page := size }
      let allowed := e.extractLsb' 57 2 ≠ 3#2 ∧ (e.getLsbD 56 = true → s.ras.inten = true ∧ pa < 2 ^ 40) ∧ (n.rd = true → e.getLsbD 61 = true) ∧ (n.wr = true → e.getLsbD 60 = true) ∧
        (n.img = true → e.getLsbD 59 = true)
      let marked := e.getLsbD 54 = true ∧ (n.wr = true → e.getLsbD 53 = true)
      let new := e ||| (1#64 <<< 54) ||| (if n.wr = true then 1#64 <<< 53 else 0#64)
      (¬ allowed → e.getLsbD 55 = true → r = (.park 3#8 0 va, kept)) ∧
      (¬ allowed → e.getLsbD 55 = false → r = (.perm va, kept)) ∧
      (allowed → marked → r = (.ok [el], kept)) ∧
      (allowed → ¬ marked → ∃ t, r = (.ok [el], t) ∧ t.co.tlb = [cached new] ∧ t.mem = s.mem ∧ t.insts = s.insts ∧ t.ops = s.ops ∧
        ∀ x, byteAt t 0 x = if pte ≤ x ∧ x < pte + 8 then (new.extractLsb' (8 * (x - pte)) 8, false) else byteAt s 0 x)

/-- Requests that meet a fault park (R352 to R355, Tables 16.4 and 16.6): the context's next FID is given out, the entry waits for the ring and is outstanding, and
the request stays under it. Unordered requests have SRC 1, ordered ones 0 (they are not linked), transfers 2, tile accesses 3 and streams 4. -/
def Sys2Proof.Claims.RequestsPark : Prop :=
  ∀ (s u : State) (n : Inst) (c : Ctx) (kind : Byte) (lvl va : Nat), findCtx s n.ctx = some c → findCtx u n.ctx = some c → u.insts = s.insts → u.ops = s.ops → u.xfers = s.xfers →
    let next := if c.nextFid = 0xFFFFFFFF#32 then 1#32 else c.nextFid + 1#32
    let enters := fun (src acc : BitVec 4) (place : Place) (tag : Tag) (data : W64) (t : State) => ∃ e,
      findCtx t n.ctx = some { c with nextFid := next, held := c.held ++ [e], out := c.out ++ [e] } ∧ e.fid = c.nextFid ∧ e.kind = kind ∧ e.src = src ∧ e.acc = acc ∧
      e.level = BitVec.ofNat 8 lvl ∧ e.va = BitVec.ofNat 64 va ∧ e.inst = n.iid ∧ e.data = data ∧ e.time = BitVec.ofNat 64 u.time ∧
      e.place = BitVec.ofNat 8 place.x ++ BitVec.ofNat 8 place.y ++ BitVec.ofNat 5 place.pe ++ BitVec.ofNat 3 place.slot ++ tag.thr ++ tag.wave
    1 ≤ kind.toNat → kind.toNat ≤ 3 →
    (∀ o : Op, mineAlone s o → findInst s o.inst = some n → o.replay = 0 → checkAddr o = none →
      translate (some (dieOf o.cl)) (.cluster o.cl) c (needOf o.ins) (accessOf o) s = (.park kind lvl va, u) →
      let parks := fun (i : Instr) (src : BitVec 4) (data : W64) => ∃ t, exec i s = .next t ∧
        enters src (if (needOf o.ins).rd = true ∧ (needOf o.ins).wr = true then 2#4 else if (needOf o.ins).wr = true then 1#4 else 0#4) o.place o.tag data t ∧
        t.ops = (s.ops.map fun p => if p = o then { o with ph := .parked c.nextFid } else p) ∧ t.flights = u.flights ∧ t.mem = u.mem ∧ t.co = u.co
      (∀ r, (o.ins = .ld r ∨ o.ins = .ldx r ∨ o.ins = .st r ∨ o.ins = .stx r ∨ o.ins = .own r ∨ o.ins = .cas r) → isOrdered o.ins = false → o.ph = .l1Net → parks (.unorderedRequest o.id) 1#4 0#64) ∧
      (∀ r, (o.ins = .ld r ∨ o.ins = .ldx r ∨ o.ins = .st r ∨ o.ins = .stx r ∨ o.ins = .own r ∨ o.ins = .cas r) → isOrdered o.ins = true → o.ph = .release → released s o = true → halting s o.inst = false →
        parks (.releasePerformed o.id) 0#4 0#64) ∧
      (∀ r f, o.ins = .tld r f → o.ph = .tile → parks (.tileCompletion o.id) 3#4 0#64) ∧
      (∀ r f, o.ins = .sstrm r f → o.ph = .stream → (streamStep o = 1 → o.n < (o.val.extractLsb' 192 32).toNat) →
        parks (.sstrmToken o.id) 4#4 (BitVec.ofNat 64 (if streamStep o = 0 then o.n else (o.val.extractLsb' 128 64).toNat + o.n)))) ∧
    (∀ (x : Xfer) r k, x ∈ s.xfers → (∀ y ∈ s.xfers, y.id = x.id → y = x) → findInst s x.inst = some n → x.ins = .xfill r → x.ph = .running → x.act = some k → x.els = none → x.pins = [] →
      s.ops = [] → s.fab.flits = [] → s.pwr.prs.getD (dieOf x.cl) 0#4 ≠ 3#4 →
      let base := max (quarter x 0) ((quarter x 0 / 256 + x.next) * 256)
      let end_ := min (quarter x 0 + len x) ((quarter x 0 / 256 + x.next + 1) * 256)
      base < end_ → translate (some (dieOf x.cl)) (.engine k) c ⟨false, true, false⟩ [(base, end_ - base)] s = (.park kind lvl va, u) → u.fab.flits = [] →
      ∃ t, exec (.transferChunk x.id) s = .next t ∧ enters 2#4 1#4 x.place x.tag (BitVec.ofNat 64 (base - quarter x 0)) t ∧
        t.xfers = (s.xfers.map fun y => if y = x then { x with ph := .parked c.nextFid, els := none, pins := [], act := none, ahead := [] } else y) ∧ t.mem = u.mem ∧ t.co = u.co)

/-- FAULT_ENTRY_WRITE and FAULT_ENTRY_RETRY, the RESUMEs, SHOOT with SHOOTDOWN_COMPLETE, and FATAL_ERROR (R349, R353 to R358, R363). The first entry that waits is written to the ring with WIDX one more, at first or again after a failure, unless the ring is full. A resumed entry is outstanding no
longer: a failed request is done with PERM, a replayed one is issued again, after which an ENDED thread that nothing holds any more is FREE, an answered trap emits the reply. A SHOOT drops the cached translations of its range and context, and is over once nothing uses them, with the L1 words of the range gone. A fatal error ends all work and keeps memory. That an interrupt of either goes out under no mask but its entry's is the model's choice (assumption 10). Translation, and how requests park, are stated with it. -/
def Obligations.FaultsAreReportedAndResumed : Prop :=
  WalksTranslate ∧
  RequestsPark ∧
  ∀ s : State,
    (∀ c e rest bs u, findCtx s c.handle = some c → c.held = e :: rest → sysRead none c c.fqdesc 16 s = (.ok bs, u) → sound bs →
      let i : Instr := if c.feFail then .faultEntryRetry c.handle else .faultEntryWrite c.handle
      let slot := c.fqRing + 64 * ((dwAt bs 0).toNat % 2 ^ c.fqLog)
      (dwAt bs 0 - dwAt bs 8 = BitVec.ofNat 64 (2 ^ c.fqLog) → exec i s = .next u) ∧
      (∀ k v, dwAt bs 0 - dwAt bs 8 ≠ BitVec.ofNat 64 (2 ^ c.fqLog) → sysReady none c [(needWr, slot, 64), (needWr, c.fqdesc, 8)] 0 u = (.ok [], k, v) →
        let w := (sysWrite none c c.fqdesc (dwBytes (dwAt bs 0 + 1#64)) (sysWrite none c slot ((entryIs v e).flatMap dwBytes) v).2).2
        exec i s = .next (interrupts c.fqVec { w with fe := { w.fe with ctxs := w.fe.ctxs.map fun d => if d.handle = c.handle then { d with held := d.held.drop 1, feFail := false } else d } }))) ∧
    (∀ c e o, (∀ p ∈ s.ops, p.id = o.id ∨ p.inst = o.inst → p = o) → o ∈ s.ops → o.inst = e.inst →
      (resumes s 1#2 c e → 1 ≤ e.kind.toNat → e.kind.toNat ≤ 3 → o.ph = .parked e.fid → isOrdered o.ins = false → isTileMem o.ins = false → isStream o.ins = false →
        exec .resumeFail s = .next (resumed { closes c e s with insts := endedGo e.inst s.insts, ops := s.ops.map fun p => if p = o then { o with ph := .done, err := some (BitVec.ofNat 56 e.va.toNat ++ 7#8) } else p } s)) ∧
      (resumes s 0#2 c e → 1 ≤ e.kind.toNat → e.kind.toNat ≤ 3 → o.ph = .parked e.fid → isOrdered o.ins = false → isTileMem o.ins = false → isStream o.ins = false →
        ∃ u, exec (.unorderedRequest o.id) { closes c e s with nextId := s.nextId + 1, ops := s.ops.map fun p => if p = o then { o with ph := .l1Net, replay := s.nextId } else p } = .next u ∧ exec .resumeReplay s = .next (resumed (freeEnded o.inst u) s)) ∧
      (∀ code g, resumes s 2#2 c e → e.kind = 4#8 → o.ph = .trap e.fid → o.ins = .sysTrap code g → ∃ t, exec .resumeReply s = .next t ∧ Sends (opFiring o) o.ins (s.ft.arg1.setWidth 256) false s t ∧
        t.ops = (s.ops.filter fun p => decide (p.id ≠ o.id)) ∧ t.fe = (closes c e s).fe ∧ t.ft = (resumed s s).ft ∧ t.mem = s.mem ∧ t.co = s.co)) ∧
    (∀ c e, (resumes s 0#2 c e → e.kind = 4#8 → exec .resumeReplay s = .next { s with ft := { s.ft with busy := false, stat := 1#8, res := 0#64, hits := none } })) ∧
    (s.ft.busy = true → s.ft.cmd = 2#8 → s.ft.shoot = none → s.ft.arg0.extractLsb' 56 8 = 0#8 → s.ft.arg0.extractLsb' 0 16 = 0#16 → s.ft.arg1.extractLsb' 60 3 = 0#3 → s.ft.arg1.extractLsb' 32 16 = 0#16 →
      ∀ c, findCtx s (s.ft.arg1.extractLsb' 48 12).toNat = some c →
      let va := s.ft.arg0.toNat
      let n := (s.ft.arg1.extractLsb' 0 32).toNat
      let glb := s.ft.arg1.getLsbD 63
      let covered := fun (x : Tlb) => (n = 0 ∨ (va < x.va + x.size ∧ x.va < va + 65536 * n)) ∧ (glb = true ∨ (x.asid = c.asid ∧ x.leaf.getLsbD 52 = false))
      ∃ t k, exec .shoot s = .next t ∧ t = { s with co := { s.co with tlb := t.co.tlb }, ft := { s.ft with shoot := some k } } ∧ k.va = va ∧ k.nwin = n ∧ k.ctx = (if glb then none else some c.handle) ∧
        ∀ x, x ∈ t.co.tlb ↔ x ∈ s.co.tlb ∧ ¬ covered x) ∧
    (∀ k, s.ft.shoot = some k → s.ops = [] → s.xfers = [] → s.co.l1d = [] → (∀ x ∈ s.co.l1w, x.st = .v ∧ x.cl < 512) →
      exec .shootdownComplete s = .next { s with
        co := { s.co with l1w := s.co.l1w.filter fun x => !(k.ctx.all (fun c => decide (c = x.ctx)) && decide (k.nwin = 0 ∨ (k.va < x.va + 4 ∧ x.va < k.va + k.nwin * 65536))) },
        ft := { s.ft with busy := false, stat := 0#8, res := 0#64, shoot := none, hits := none } }) ∧
    (∀ cause : BitVec 8, (1 ≤ cause.toNat → cause.toNat ≤ 4 → s.ft.fatal = false → ∃ t, exec (.fatalError cause) s = .next t ∧ workIsGone t ∧ t.ft.fatal = true ∧ t.ft.fcause = cause ∧
        t.mem = s.mem ∧ t.co.l2 = s.co.l2 ∧ t.co.l1w = s.co.l1w ∧ t.ras = s.ras ∧ t.pwr = s.pwr ∧ t.link = (interrupts s.link.fatVec s).link) ∧
      (s.ft.fatal = true → exec (.fatalError cause) s = .next s))

/-! ### Commands of the front end -/

/-- A front-end command is in progress. -/
def Sys2Proof.Claims.commands (s : State) (op : Byte) : Prop := s.fe.busy = true ∧ s.fe.cmd = op
/-- It is over, with its status and result. -/
def Sys2Proof.Claims.answers (stat : Byte) (res : Nat) (s : State) : State := { s with fe := { s.fe with busy := false, stat := stat, res := BitVec.ofNat 64 res } }
/-- A number below a limit that is the lowest not in use. -/
def Sys2Proof.Claims.lowest (used : List Nat) (limit n : Nat) : Prop := n < limit ∧ n ∉ used ∧ ∀ m, m < n → m ∈ used
/-- The context that descriptor words and a fault queue make (Tables 15.1 and 16.5). -/
def Sys2Proof.Claims.ctxMade (h : Nat) (d : List W64) (ring log : Nat) (vec : BitVec 16) : Ctx :=
  { handle := h, asid := (word d 0).extractLsb' 48 16, key := ((word d 0).extractLsb' 40 8).toNat, dbg := (word d 0).getLsbD 39, ptroot := (word d 1).toNat,
    fqdesc := (word d 2).toNat, save := (word d 3).toNat, saveSz := ((word d 4).extractLsb' 32 32).toNat, spoolSz := ((word d 4).extractLsb' 0 32).toNat, spool := (word d 5).toNat,
    rootRcb := word d 6, fqRing := ring, fqLog := log, fqVec := vec, nextFid := 1#32, nextInst := 1#32, fmt := defaultFormats, held := [], out := [], feFail := false }
/-- Descriptor words without a broken rule (R319, R341), of an ASID that is not resident. -/
def Sys2Proof.Claims.ctxFits (s : State) (d : List W64) : Prop :=
  (word d 0).extractLsb' 0 39 = 0#39 ∧ word d 7 = 0#64 ∧ (word d 1).toNat % 2 ^ 14 = 0 ∧ (word d 1).toNat < 2 ^ 52 ∧ (word d 2).toNat % 64 = 0 ∧ (word d 3).toNat % 65536 = 0 ∧ (word d 5).toNat % 65536 = 0 ∧
  (word d 6).toNat % 64 = 0 ∧ ∀ c ∈ s.fe.ctxs, c.asid ≠ (word d 0).extractLsb' 48 16
/-- Words of a fault-queue descriptor that break no rule (R353, Table 16.5), and of a queue descriptor (Table 15.3). -/
def Sys2Proof.Claims.fqFits (f : List W64) : Prop :=
  let log := ((word f 3).extractLsb' 0 8).toNat
  (word f 3).extractLsb' 32 32 = 0#32 ∧ (word f 3).extractLsb' 8 8 = 0#8 ∧ (∀ k, k < 4 → word f (4 + k) = 0#64) ∧ (word f 2).toNat % 4096 = 0 ∧ 4 ≤ log ∧ log ≤ 16 ∧
  (((word f 3).extractLsb' 16 16).toNat < 2048 ∨ (word f 3).extractLsb' 16 16 = 0xFFFF#16)
def Sys2Proof.Claims.queueFits (d : List W64) : Prop :=
  let log := ((word d 3).extractLsb' 0 8).toNat
  (word d 3).extractLsb' 8 56 = 0#56 ∧ (word d 2).toNat % 4096 = 0 ∧ 4 ≤ log ∧ log ≤ 20 ∧ ∀ k, k < 4 → word d (4 + k) = 0#64
/-- All numbers below a limit are in use. -/
def Sys2Proof.Claims.allUsed (used : List Nat) (limit : Nat) : Prop := ∀ n, n < limit → n ∈ used

/-- The eight commands of Table 15.9 (R319, R335, R353). CTXLOAD makes the context of its descriptor resident under the lowest handle not in
use; CTXDROP ends one that nothing uses; QMAP maps a queue under the lowest number and QUNMAP ends it (that handle and number are the lowest
is the model's choice, assumption 8), its queued launches first ending as REJECTED, PACKET; with every handle or number in use the answer is FULL; a fault-queue descriptor that is
refused or cannot be read makes nothing resident. That FULL goes before a bad fault-queue descriptor, that a context descriptor that reads poison, a queue descriptor that is unaligned, cannot be
read or breaks Table 15.3, and CTXFMT's FEARG0 with other bits set are BADARG, is the model's choice (assumption 70). CTXFMT sets a slot of a context's default table; INSTEND marks its instance and, once drained, ends
it; CLOFF takes a cluster out of service, its instance swept off it first; CLON gives it back. A bad argument is answered BADARG, a context
in use INUSE; nothing else changes. -/
def Obligations.FrontEndCommandsAct : Prop :=
  ∀ s : State,
    let a := s.fe.cur0
    let bad := fun (i : Instr) => exec i s = .next (answers 1#8 0 s)
    (commands s 1#8 → (a.toNat % 64 ≠ 0 ∨ 2 ^ 52 ≤ a.toNat → bad .ctxload) ∧
      ∀ bs u, a.toNat % 64 = 0 → a.toNat < 2 ^ 52 → physRead a.toNat 64 s = (.ok bs, u) → sound bs →
        (ctxFits s (dwords bs) → allUsed (s.fe.ctxs.map (·.handle)) 4096 → exec .ctxload s = .next (answers 2#8 0 u)) ∧
        (ctxFits s (dwords bs) → ∀ h z v, lowest (s.fe.ctxs.map (·.handle)) 4096 h → sysRead none (ctxMade h (dwords bs) 0 4 0xFFFF#16) (word (dwords bs) 2).toNat 64 u = (z, v) → z ≠ .wait →
          (∀ fs, z = .ok fs → ¬ sound fs ∨ ¬ fqFits (dwords fs)) → exec .ctxload s = .next (answers 1#8 0 v)) ∧
        (ctxFits s (dwords bs) → ∀ h fs v, lowest (s.fe.ctxs.map (·.handle)) 4096 h → sysRead none (ctxMade h (dwords bs) 0 4 0xFFFF#16) (word (dwords bs) 2).toNat 64 u = (.ok fs, v) → sound fs →
          let f := dwords fs
          let log := ((word f 3).extractLsb' 0 8).toNat
          let vec := (word f 3).extractLsb' 16 16
          fqFits f →
          exec .ctxload s = .next (answers 0#8 h { v with fe := { v.fe with ctxs := v.fe.ctxs ++ [ctxMade h (dwords bs) (word f 2).toNat log vec] } })) ∧
        (¬ ctxFits s (dwords bs) → exec .ctxload s = .next (answers 1#8 0 u))) ∧
    (commands s 1#8 → a.toNat % 64 = 0 → a.toNat < 2 ^ 52 → ∀ z u, physRead a.toNat 64 s = (z, u) → z ≠ .wait → (∀ bs, z = .ok bs → ¬ sound bs) → exec .ctxload s = .next (answers 1#8 0 u)) ∧
    (commands s 2#8 → (findCtx s a.toNat = none → bad .ctxdrop) ∧ ∀ c, findCtx s a.toNat = some c →
      let used := (∃ q ∈ s.fe.queues, q.ctx = c.handle) ∨ (∃ i ∈ s.insts, i.ctx = c.handle) ∨ ∃ r ∈ s.fe.resident, r.ctx = c.handle
      (used → exec .ctxdrop s = .next (answers 3#8 0 s)) ∧
      (¬ used → exec .ctxdrop s = .next (answers 0#8 0 { s with fe := { s.fe with ctxs := s.fe.ctxs.filter fun x => decide (x.handle ≠ c.handle) } }))) ∧
    (commands s 3#8 → (findCtx s s.fe.cur1.toNat = none → bad .qmap) ∧ ∀ c, findCtx s s.fe.cur1.toNat = some c → (a.toNat % 64 ≠ 0 → bad .qmap) ∧
      (∀ z u, a.toNat % 64 = 0 → sysRead none c a.toNat 64 s = (z, u) → z ≠ .wait → (∀ bs, z = .ok bs → ¬ sound bs ∨ ¬ queueFits (dwords bs)) → exec .qmap s = .next (answers 1#8 0 u)) ∧
      (∀ bs u, a.toNat % 64 = 0 → sysRead none c a.toNat 64 s = (.ok bs, u) → sound bs → queueFits (dwords bs) → allUsed (s.fe.queues.map (·.q)) 16384 → exec .qmap s = .next (answers 2#8 0 u)) ∧
      ∀ bs u q, a.toNat % 64 = 0 → sysRead none c a.toNat 64 s = (.ok bs, u) → sound bs → lowest (s.fe.queues.map (·.q)) 16384 q →
        let d := dwords bs
        let log := ((word d 3).extractLsb' 0 8).toNat
        queueFits d →
        exec .qmap s = .next (answers 0#8 q { u with fe := { u.fe with queues := u.fe.queues ++
          [{ q := q, ctx := c.handle, desc := a.toNat, ring := (word d 2).toNat, logn := log, ridx := word d 1, halted := false, told := false }] } })) ∧
    (commands s 4#8 → ((∀ x ∈ s.fe.queues, x.q ≠ a.toNat) → bad .qunmap) ∧ ((∃ x ∈ s.fe.queues, x.q = a.toNat) → (∀ l ∈ s.fe.launches, l.q ≠ a.toNat) →
      exec .qunmap s = .next (answers 0#8 0 { s with fe := { s.fe with queues := s.fe.queues.filter fun x => decide (x.q ≠ a.toNat) } })) ∧
      ((∃ x ∈ s.fe.queues, x.q = a.toNat) →
        let gone := fun (v : State) => answers 0#8 0 { v with fe := { v.fe with queues := v.fe.queues.filter fun x => decide (x.q ≠ a.toNat) } }
        ((∀ l ∈ s.fe.launches, ∀ m ∈ s.fe.launches, l.id = m.id → l = m) → (∀ l ∈ s.fe.launches, l.q = a.toNat → pkComp l.pkt = 0) →
          ∃ d, exec .qunmap s = .next (gone { s with fe := { s.fe with launches := (s.fe.launches.filter fun l => decide (l.q ≠ a.toNat)), deficit := d } }) ∧ ∀ x ∈ d, x ∈ s.fe.deficit) ∧
        ∀ l, l ∈ s.fe.launches → l.q = a.toNat → (s.fe.launches.filter fun m => decide (m.q = a.toNat)) = [l] →
          let v := endLaunch l (noRun 3 1 0 0) 0#32 s
          ((∀ m ∈ v.fe.launches, m.q ≠ a.toNat) → exec .qunmap s = .next (gone v)) ∧ ((∃ m ∈ v.fe.launches, m.q = a.toNat) → exec .qunmap s = .next v))) ∧
    (commands s 5#8 → (findCtx s (a.extractLsb' 16 12).toNat = none → bad .ctxfmt) ∧ ∀ c, findCtx s (a.extractLsb' 16 12).toNat = some c →
      (a.extractLsb' 28 36 ≠ 0#36 ∨ a.extractLsb' 5 11 ≠ 0#11 ∨ fmtMalformed s.fe.cur1 = true → bad .ctxfmt) ∧
      (a.extractLsb' 28 36 = 0#36 → a.extractLsb' 5 11 = 0#11 → fmtMalformed s.fe.cur1 = false → exec .ctxfmt s = .next (answers 0#8 0 { s with fe := { s.fe with
        ctxs := s.fe.ctxs.map fun x => if x.handle = c.handle then { x with fmt := x.fmt.set (a.extractLsb' 0 5).toNat s.fe.cur1 } else x } }))) ∧
    (commands s 6#8 → (findCtx s a.toNat = none → bad .instend) ∧ ∀ c, findCtx s a.toNat = some c →
      ((∀ i ∈ s.insts, i.ctx ≠ c.handle ∨ i.num.toNat ≠ s.fe.cur1.toNat) → exec .instend s = .next (answers 0#8 0 s)) ∧
      ∀ i, s.insts = [i] → i.ctx = c.handle → i.num.toNat = s.fe.cur1.toNat →
        (i.ending = false → exec .instend s = .next { s with insts := [{ i with ending := true, moving := false }] }) ∧
        (i.ending = true → i.phase = .running → i.injected = true → s.ops = [] → s.xfers = [] → s.flights = [] → s.co.l1w = [] → s.co.l1d = [] → pkComp i.pkt = 0 →
          ∃ t, exec .instend s = .next t ∧ t.insts = [] ∧ t.fe.busy = false ∧ t.fe.stat = 0#8 ∧ t.fe.launches = s.fe.launches ∧ t.fe.queues = s.fe.queues ∧ t.mem = s.mem ∧ t.co = s.co)) ∧
    (commands s 7#8 → (511 < a.toNat → bad .cloff) ∧ (a.toNat ≤ 511 → distinct s → ∃ t, exec .cloff s = .next t ∧ (∀ k, k ∈ t.fe.off ↔ k = a.toNat ∨ k ∈ s.fe.off) ∧
      t.fe.resident = (s.fe.resident.map fun r => if r.active.isNone && (resCls r).contains a.toNat then { r with rect := none } else r) ∧ t.mem = s.mem ∧ t.co = s.co ∧ t.fe.ctxs = s.fe.ctxs ∧
      (instAt s a.toNat = none → t.insts = s.insts ∧ t.fe.busy = false ∧ t.fe.stat = 0#8) ∧
      (∀ i, instAt s a.toNat = some i → t.insts = (s.insts.map fun j => if j = i ∧ mayLeave i = true then sweeps s false i else j) ∧ t.fe.busy = true))) ∧
    (commands s 8#8 → (511 < a.toNat → bad .clon) ∧
      (a.toNat ≤ 511 → exec .clon s = .next (answers 0#8 0 { s with fe := { s.fe with off := s.fe.off.filter fun c => decide (c ≠ a.toNat) } })))

/-! ### Sweeps and restores -/

/-- Nothing of the part is in progress. -/
def Sys2Proof.Claims.still (s : State) : Prop := s.ops = [] ∧ s.xfers = [] ∧ s.flights = [] ∧ s.co.l1w = [] ∧ s.co.l1d = []

/-- A doubleword at an address among bytes to be written, lowest byte first. -/
def Sys2Proof.Claims.stands (l : List (Nat × List Byte)) (a : Nat) (w : W64) : Prop :=
  ∀ j, j < 8 → ∃ p ∈ l, p.1 ≤ a + j ∧ a + j < p.1 + p.2.length ∧ p.2.getD (a + j - p.1) 0#8 = w.extractLsb' (8 * j) 8
/-- A place and tag in one word (Table 7.5). -/
def Sys2Proof.Claims.placed (p : Place) (t : Tag) : W64 :=
  BitVec.ofNat 8 p.x ++ BitVec.ofNat 8 p.y ++ BitVec.ofNat 5 p.pe ++ BitVec.ofNat 3 p.slot ++ t.thr ++ t.wave
/-- STATE of a thread (Tables 7.1 and 17.5). -/
def Sys2Proof.Claims.stateNo : ThrState → BitVec 2
  | .free => 0#2
  | .live => 1#2
  | .caller => 2#2
  | .ended => 3#2
/-- STATE and FID of a saved transfer (Table 17.6). -/
def Sys2Proof.Claims.xferState : XPhase → BitVec 2 × W32
  | .parked f => (1#2, f)
  | .claim => (2#2, 0#32)
  | .again st f => (BitVec.ofNat 2 st, f)
  | _ => (0#2, 0#32)
/-- Token-fed positions of a set that are filled before a position. -/
def Sys2Proof.Claims.filledBefore (x : Machine.PSet) : Pos → Nat
  | .a => 0
  | .b => if x.a.isSome = true then 1 else 0
  | .c => (if x.a.isSome = true then 1 else 0) + (if x.b.isSome = true then 1 else 0)

/-- The layout of the save block (R366, R367, Tables 17.1 to 17.7), as a sweep writes it and a restore reads it: the instance header, the format
table, the thread table, a transfer, and of each cluster the header, accumulator descriptors, directory, slot records, tile store and accumulator store,
with the token records of a set of the matching stores, or the SPB bit of one in the spill area. -/
def Sys2Proof.Claims.SaveBlocksAreLaidOut : Prop :=
  (∀ (s : State) (c : Ctx) (i : Inst), i.w ≤ 32 → i.h ≤ 16 →
    let at_ := fun (off : Nat) (w : W64) => stands (saveWrites s c i) (c.save + i.saveB + off) w
    let mine := s.xfers.filter fun x => decide (x.inst = i.iid)
    at_ 0x00 (i.num ++ i.epoch ++ BitVec.ofNat 8 i.w ++ BitVec.ofNat 8 i.h ++ 0#3 ++ i.flags) ∧ at_ 0x08 i.sinkCnt ∧ at_ 0x10 (i.errCnt ++ 0#31 ++ BitVec.ofBool i.stopped) ∧
    at_ 0x18 (if i.errCnt = 0#32 then 0#64 else placed i.errPlace i.errTag) ∧ at_ 0x20 (BitVec.ofNat 64 (c.spool + i.spillB)) ∧
    at_ 0x28 (0#48 ++ (if i.errCnt = 0#32 then 0#8 else i.errCode) ++ 0#8) ∧ at_ 0x30 (BitVec.ofNat 64 mine.length) ∧ at_ 0x38 (BitVec.ofNat 64 s.time) ∧
    (∀ k, k < 32 → at_ (0x100 + 8 * k) (word i.fmt k)) ∧
    (∀ t, t < 65536 →
      let h := getThr i (BitVec.ofNat 16 t)
      let f : Frame := h.frame.getD { caller := 0#16, crec := Place.zero, rwave := 0#24, s := false }
      let l := h.last.getD (0#10, 0#10)
      at_ (0x100000 + 16 * t) (stateNo h.st ++ BitVec.ofBool h.last.isSome ++ BitVec.ofBool h.frame.isSome ++ BitVec.ofBool f.s ++ 0#3 ++ h.cw ++ 0#2 ++ l.1 ++ l.2 ++ 0#10) ∧
      at_ (0x100000 + 16 * t + 8) (f.caller ++ f.rwave ++ BitVec.ofNat 5 f.crec.x ++ BitVec.ofNat 4 f.crec.y ++ BitVec.ofNat 5 f.crec.pe ++ BitVec.ofNat 3 f.crec.slot ++ 0#7)) ∧
    (∀ j x, mine[j]? = some x → x.todo < 4 →
      let b := 0x10000 + 64 * j
      (∀ k, k < 4 → at_ (b + 8 * k) (x.req.extractLsb' (64 * k) 64)) ∧ at_ (b + 0x20) (placed x.place x.tag) ∧
      at_ (b + 0x28) ((xferState x.ph).1 ++ BitVec.ofBool x.as_ ++ BitVec.ofNat 2 x.todo ++ 0#27 ++ (xferState x.ph).2) ∧ at_ (b + 0x30) (BitVec.ofNat 64 (xOffset x x.next)) ∧
      at_ (b + 0x38) ((x.cap.head?.map (·.2)).getD 0#64)) ∧
    ∀ x y, x < i.w → y < i.h →
      let cb := 0x200000 + 0x300000 * (y * i.w + x)
      let cl := clusterAt (i.x0 + x) (i.y0 + y)
      (∀ h, h < 16 → let d := accGet s cl h
        at_ (cb + 0x100 + 8 * h) (d.st ++ 0#6 ++ d.rows ++ d.cols ++ 0#2 ++ d.cur.thr ++ d.cur.wave)) ∧
      (∀ h, h < 256 → at_ (cb + 0x800 + 8 * h) (tdir s cl h)) ∧
      (∀ pe slot ws k, pe < 32 → slot < 8 → i.slots.find? (fun q => decide (q.1 = { x := x, y := y, pe := pe, slot := slot })) = some ws → k < 4 →
        at_ (cb + 0x1000 + 32 * (8 * pe + slot) + 8 * k) (word ws.2 k)) ∧
      (∀ n, n < 2 ^ 17 → at_ (cb + 0x100000 + 8 * n) ((((List.range 8).map fun j => tileByte s cl (8 * n + j)).foldr (fun (b : Byte) (v : Nat) => b.toNat + 256 * v) 0 : Nat) : BitVec 64)) ∧
      (∀ n, n < 2 ^ 17 → at_ (cb + 0x200000 + 8 * n) (assocGet 0#32 s.tiles.words (2 ^ 18 * cl + 2 * n + 1) ++ assocGet 0#32 s.tiles.words (2 ^ 18 * cl + 2 * n))) ∧
      (∀ z, s.ops = [] → i.sets = [z] → z.place.x < i.w → z.place.pe < 32 → z.place.slot < 8 →
        let here := z.place.x = x ∧ z.place.y = y
        let b := 8 * z.place.pe + z.place.slot
        at_ cb (BitVec.ofNat 8 x ++ BitVec.ofNat 8 y ++ 0#34 ++ (if here ∧ z.spilled = false then BitVec.ofNat 14 ([z.a, z.b, z.c].filterMap id).length else 0#14)) ∧
        (∀ q, q < 4 → at_ (cb + 0x20 + 8 * q) (if here ∧ z.spilled = true ∧ b / 64 = q then 1#64 <<< (b % 64) else 0#64)) ∧
        (here → z.spilled = false → ∀ p k, z.get p = some k →
          let r := cb + 0x10000 + 64 * filledBefore z p
          let opnd : BitVec 2 := match p with
            | .a => 0#2
            | .b => 1#2
            | .c => 2#2
          at_ r (placed z.place z.tag) ∧ at_ (r + 8) (1#1 ++ 0#3 ++ BitVec.ofBool k.e ++ BitVec.ofBool k.s ++ BitVec.ofBool k.wide ++ opnd ++ 0#2 ++ 0#21 ++ 0#32) ∧
          (∀ n, n < 4 → at_ (r + 16 + 8 * n) (if n = 0 ∨ k.wide = true then k.payload.extractLsb' (64 * n) 64 else 0#64)) ∧ at_ (r + 48) 0#64 ∧ at_ (r + 56) 0#64))) ∧
  (∀ w : List W64, let r := recOfWords w
    let h := word w 1
    placed r.place r.tag = word w 0 ∧ r.place.x < 256 ∧ r.place.y < 256 ∧ r.place.pe < 32 ∧ r.place.slot < 8 ∧ r.kind = (h.extractLsb' 60 3).toNat ∧ r.e = h.getLsbD 59 ∧ r.s = h.getLsbD 58 ∧ r.wide = h.getLsbD 57 ∧
    r.opnd = (h.extractLsb' 55 2).toNat ∧ r.act = (h.extractLsb' 53 2).toNat ∧ r.pay = word w 5 ++ word w 4 ++ word w 3 ++ word w 2 ∧ r.aux0 = word w 6 ∧ r.aux1 = word w 7) ∧
  ∀ (i : Inst) (l : List W64) (n : Nat), l.length = 131072 → n < 65536 →
    let a := word l (2 * n)
    let b := word l (2 * n + 1)
    (a ≠ 0#64 ∨ b ≠ 0#64) → ∃ t ∈ threadsOf i l, t.thr = BitVec.ofNat 16 n ∧ stateNo t.st = a.extractLsb' 62 2 ∧ t.cw = a.extractLsb' 32 24 ∧
      t.last = (if a.getLsbD 61 = true then some (a.extractLsb' 20 10, a.extractLsb' 10 10) else none) ∧
      t.frame = if a.getLsbD 60 = true then some { caller := b.extractLsb' 48 16, rwave := b.extractLsb' 24 24, s := a.getLsbD 59, crec := { x := (b.extractLsb' 19 5).toNat, y := (b.extractLsb' 15 4).toNat, pe := (b.extractLsb' 10 5).toNat, slot := (b.extractLsb' 7 3).toNat } } else none

/-- A saved instance of one cluster is on its turn and restored at an origin, with so many saved transfers: `l` and `m` are the words of its block. -/
def Sys2Proof.Claims.readsBack (s : State) (i : Inst) (c : Ctx) (o : Nat × Nat) (nx : Nat) (l m : List (List W64)) (v : State) : Prop :=
  s.insts = [i] ∧ i.phase = .saved ∧ i.ending = false ∧ i.w = 1 ∧ i.h = 1 ∧ (i.cls = 0 → s.pwr.padm = true) ∧ s.fe.launches = [] ∧ s.fe.resident = [] ∧ still s ∧
  findCtx s i.ctx = some c ∧ firstFree (s.fe.off ++ s.fe.dead) 1 1 = some o ∧
  (let at_ := fun (off : Nat) => c.save + i.saveB + off
   ((word (l.getD 0 []) 6).extractLsb' 0 11).toNat = nx ∧
   ∃ u, bulkRead c [(at_ 0, 64), (at_ 0x100, 256), (at_ 0x100000, 2 ^ 20), (at_ 0x200000, 64)] s = (.ok l, u) ∧
     bulkRead c [(at_ 0x10000, 64 * nx), (at_ 0x200100, 128), (at_ 0x200800, 2048), (at_ 0x201000, 8192), (at_ 0x210000, 64 * ((word (l.getD 3 []) 0).extractLsb' 0 14).toNat),
       (at_ 0x300000, 2 ^ 20), (at_ 0x400000, 2 ^ 20)] u = (.ok m, v)) ∧
  (m.getD 0 []).length = 8 * nx ∧ (m.getD 3 []).length = 1024 ∧
  v.insts = [i] ∧ still v ∧ v.fe = s.fe
/-- The sets that the KIND 0 records make have room, and none stands in the spill area. -/
def Sys2Proof.Claims.seats (i : Inst) (recs : List TokRec) : Prop :=
  let waits := recs.filter fun r => decide (r.kind = 0)
  (∀ x ∈ i.sets, x.spilled = true ∧ ∀ r ∈ waits, r.place ≠ x.place ∨ r.tag ≠ x.tag) ∧ (∀ r ∈ recs, r.place.x = 0 ∧ r.place.y = 0) ∧
  ∀ p, ((waits.foldl (fun q r => joinSet r q) []).filter fun x => decide (x.place.x = 0 ∧ x.place.y = 0 ∧ x.place.pe = p)).length ≤ 64
/-- Records of one request: one place, tag, KIND and AUX0, in operand order. -/
def Sys2Proof.Claims.oneRequest (g : List TokRec) : Prop :=
  g.Pairwise fun p q => p.place = q.place ∧ p.tag = q.tag ∧ p.kind = q.kind ∧ p.aux0 = q.aux0 ∧ p.opnd < q.opnd
/-- A firing with the tokens of a request's records at the positions that tokens feed. -/
def Sys2Proof.Claims.firesFrom (f : Firing) (iid : Nat) (ins : Instr) (g : List TokRec) : Prop :=
  f.inst = iid ∧ ∀ r ∈ g, f.place = r.place ∧ f.tag = r.tag ∧ (tokenFed ins .a = true → r.opnd = 0 → f.a = tokOfRec r) ∧ (tokenFed ins .b = true → r.opnd = 1 → f.b = tokOfRec r) ∧
    (tokenFed ins .c = true → r.opnd = 2 → f.c = tokOfRec r)
/-- The slot whose entry an ordered request, an unordered one or an SSTRM captured when it fired. -/
def Sys2Proof.Claims.captures (ins : Instr) (k : Nat) : Prop :=
  (∃ fn r, (ins = .amo fn r ∨ ins = .red fn r) ∧ amoFloat fn = true ∧ k = r.fs.toNat) ∨ (∃ r, (ins = .xred r ∨ ins = .xrd r) ∧ k = r.fs.toNat) ∨ ∃ fs tg, ins = .sstrm fs tg ∧ k = fs.toNat

/-- Step 5 of a restore, and recorded actions (R371, R372). The records of a request that was fired make it one again, with its tokens and the entry it captured: pending in its
wave-order unit, parked under its FID until it is resumed, or, of KIND 4, waiting under R93 or for a reply. An action recorded in them is performed: FAIL ends the request with PERM, REPLAY begins it
anew, a SYS.TRAP or SYS.BRK answered with a REPLY emits AUX1, in FID order, counted from the FID that the context gives next. Saved transfers are admitted again, as they were saved. -/
def Sys2Proof.Claims.RestoresDeliver : Prop :=
  ∀ (s : State) (i : Inst) (c : Ctx) (o : Nat × Nat) (nx : Nat) l m v, readsBack s i c o nx l m v →
    let recs := (chunks 8 (m.getD 4 [])).map recOfWords
    let fired := recs.filter fun r => decide (r.kind ≠ 0)
    seats i recs →
    (∀ r g, nx = 0 → fired = r :: g → oneRequest fired → ∃ t j, exec (.restore i.iid) s = .next t ∧ t.insts = [j] ∧ ∀ ins, slotInstr j r.place = some ins →
      let fid : W32 := r.aux0.extractLsb' 0 32
      let stays := fun (P : Op → Prop) => ∃ x, t.ops = [x] ∧ x.ins = ins ∧ firesFrom (opFiring x) i.iid ins fired ∧ t.flights = [] ∧
        (∀ q ∈ fired, q.opnd = 0 → ∀ k, captures ins k → x.cap = [(k, q.aux1)]) ∧ P x
      let trap := (∃ code tg, ins = .sysTrap code tg) ∨ ∃ code tg, ins = .sysBrk code tg
      (r.act = 0 → isStream ins = false → r.kind = 1 → fid = 0#32 → stays fun x => x.ph = .wouPend) ∧
      (r.act = 0 → isStream ins = false → (r.kind = 1 ∧ fid ≠ 0#32) ∨ r.kind = 2 ∨ r.kind = 3 → stays fun x => x.ph = .parked fid) ∧
      (r.act = 0 → isStream ins = true → r.kind = 3 → stays fun x => x.n = r.aux0.toNat ∧ ∃ f, x.ph = .parked f) ∧
      (∀ fs tg, ins = .ftsync fs tg → r.kind = 4 → r.opnd = 0 → stays fun x => x.ph = .sync ∧ x.act = some (fs.toNat, r.aux1)) ∧
      (trap → r.kind = 4 → r.act ≠ 3 → stays fun x => x.ph = .trap fid) ∧
      (r.act = 2 → isStream ins = false → (r.kind = 1 ∧ fid ≠ 0#32) ∨ r.kind = 2 ∨ r.kind = 3 → stays fun x => x.ph = (if isTileMem ins = true then .tile else .done) ∧
        ∀ a, (i.failed.find? fun f => decide (f.1 = fid)) = some (fid, a) → x.err = some (BitVec.ofNat 56 a ++ 7#8)) ∧
      (r.act = 1 → isTileMem ins = true → r.kind = 3 → stays fun x => x.ph = .tile ∧ x.err = none) ∧
      (r.act = 1 → isTileMem ins = false → isStream ins = false → isOrdered ins = false → r.kind = 2 → ∃ w x u, w.ops = [x] ∧ x.ins = ins ∧ x.ph = .l1Net ∧ firesFrom (opFiring x) i.iid ins fired ∧
        exec (.unorderedRequest x.id) w = .next u ∧ t.ops = u.ops ∧ t.flights = u.flights) ∧
      (trap → r.kind = 4 → r.act = 3 → r.opnd = 0 → (∀ e ∈ c.out, e.inst ≠ i.iid ∨ e.kind ≠ 5#8) → t.ops = [] ∧ (∃ f, firesFrom f i.iid ins fired ∧ Sends f ins (r.aux1.setWidth 256) false v t) ∧
        ((∃ code tg, ins = .sysBrk code tg) → j.stopped = false))) ∧
    (∀ p q, nx = 0 → fired = [p, q] ∨ fired = [q, p] → p.kind = 4 → q.kind = 4 → p.act = 3 → q.act = 3 → p.opnd = 0 → q.opnd = 0 →
      fidDist c.nextFid (p.aux0.extractLsb' 0 32) < fidDist c.nextFid (q.aux0.extractLsb' 0 32) →
      ∃ t j, exec (.restore i.iid) s = .next t ∧ t.insts = [j] ∧ ∀ a ta b tb, slotInstr j p.place = some (.sysTrap a ta) → slotInstr j q.place = some (.sysTrap b tb) → t.ops = [] ∧
        ∃ f g w, firesFrom f i.iid (.sysTrap a ta) [p] ∧ firesFrom g i.iid (.sysTrap b tb) [q] ∧ w = { v with flights := w.flights } ∧
          Sends f (.sysTrap a ta) (p.aux1.setWidth 256) false v w ∧ Sends g (.sysTrap b tb) (q.aux1.setWidth 256) false w t) ∧
    (nx ≤ 1024 → fired = [] →
      let w := fun (k n : Nat) => word (m.getD 0 []) (8 * k + n)
      let place := fun (k : Nat) => (recOfWords [w k 4]).place
      (∀ k, k < nx → (w k 5).extractLsb' 59 2 = 0#2) →
      ∃ t j, exec (.restore i.iid) s = .next t ∧ t.insts = [j] ∧ ((∀ k, k < nx → ∃ ins, slotInstr j (place k) = some ins) → t.xfers.length = nx ∧ t.xfers.Pairwise (fun x y => x.arr < y.arr) ∧
        ∀ k x, t.xfers[k]? = some x → some x.ins = slotInstr j (place k) ∧ x.inst = i.iid ∧ x.req = (w k 3 ++ w k 2 ++ w k 1 ++ w k 0 : W256) ∧ placed x.place x.tag = w k 4 ∧ x.as_ = (w k 5).getLsbD 61 ∧
          x.ph = (if (w k 5).extractLsb' 62 2 = 1#2 then .parked ((w k 5).extractLsb' 0 32) else if (w k 5).extractLsb' 62 2 = 2#2 then .claim else .admitted) ∧
          ((∃ n, n ≤ chunks_ x ∧ offset x n = (w k 6).toNat) → offset x x.next = (w k 6).toNat) ∧ ∀ r, x.ins = .xacc r → x.cap = [(r.fs.toNat, w k 7)]))

/-- MARKER, SWEEP and RESTORE (R368 to R371). A node's marker reaches a cluster once nothing of it is under way and no token of that node is
behind. Once every cluster has all markers, the instance's block is written where its save block lies, a cluster's part by that cluster and the rest by the
front end, its clusters are free and only
spilled sets stay with it. A saved instance, on its turn, comes back at the first free origin with its EPOCH one higher: threads, counts,
flags, formats, slot records, directory, accumulator descriptors and both stores are those of the block, each waiting token is back in a set of its slot and tag, and the spilled
sets have stayed (what stays with a saved instance is the model's choice, assumptions 36 and 37). The block's layout, and what becomes of fired requests, recorded actions and saved transfers,
are stated with them. -/
def Obligations.SweepsSaveAndRestoresBringBack : Prop :=
  SaveBlocksAreLaidOut ∧
  RestoresDeliver ∧
  (∀ (s : State) (i : Inst) ns ms node k, findInst s i.iid = some i → i.phase = .sweeping ns ms → node ∈ ns → k < i.w * i.h → (node, k) ∉ ms → i.injected = true →
    (∀ o ∈ s.ops, o.inst ≠ i.iid) → (∀ x ∈ s.xfers, x.inst ≠ i.iid) → (∀ f ∈ s.flights, f.inst = i.iid → f.node = node → f.dst.y * i.w + f.dst.x ≠ k) →
    exec (.marker i.iid node k) s = .next { s with insts := s.insts.map fun j => if j.iid = i.iid then { j with phase := .sweeping ns (ms ++ [(node, k)]) } else j }) ∧
  (∀ (s : State) (i : Inst) (c : Ctx) ns ms k v, s.insts = [i] → i.phase = .sweeping ns ms → i.injected = true → (∀ n ∈ ns, ∀ k, k < i.w * i.h → (n, k) ∈ ms) → still s → findCtx s i.ctx = some c →
    let ws := (saveWrites s c i).filter fun w => !w.2.isEmpty
    let who := fun (a : Nat) => let b := c.save + i.saveB + 0x200000
      if a < b then none else some (clusterAt (i.x0 + (a - b) / 0x300000 % i.w) (i.y0 + (a - b) / 0x300000 / i.w))
    sysReadyBy who c (ws.map fun w => (needWr, w.1, w.2.length)) 0 s = (.ok [], k, v) → v.insts = [i] → v.ops = [] → v.xfers = [] →
    let z := writeAllBy who c ws v
    exec (.sweep i.iid) s = .next { z with ops := [], xfers := [], insts := [{ i with phase := .saved, sets := i.sets.filter (·.spilled), nodes := [], xdone := [], bases := [], forced := [], probe1 := none, brkAt := none, errAt := 0, xpsn := [], xfl := [], strm := [], told := [] }], fe := { z.fe with resident := z.fe.resident.map fun r => if r.active = some i.iid then { r with rect := none } else r } }) ∧
  (∀ (s : State) (i : Inst) (c : Ctx) (o : Nat × Nat) l m v, readsBack s i c o 0 l m v →
    let h := l.getD 0 []
    let recs := (chunks 8 (m.getD 4 [])).map recOfWords
    let cl := clusterAt o.1 o.2
    (∀ r ∈ recs, r.kind = 0) → seats i recs →
    ∃ t j, exec (.restore i.iid) s = .next t ∧ t.insts = [j] ∧ still t ∧ j.iid = i.iid ∧ j.num = i.num ∧ j.phase = .running ∧ j.x0 = o.1 ∧ j.y0 = o.2 ∧ j.w = 1 ∧ j.h = 1 ∧ j.epoch = i.epoch + 1#8 ∧
      j.stopped = (word h 2).getLsbD 0 ∧ j.fmt = l.getD 1 [] ∧ j.flags = (word h 0).extractLsb' 0 5 ∧ j.sinkCnt = word h 1 ∧ j.errCnt = (word h 2).extractLsb' 32 32 ∧ j.threads = threadsOf i (l.getD 2 []) ∧
      j.sets = recs.foldl (fun q r => joinSet r q) [] ++ i.sets ∧
      (∀ pe slot, pe < 32 → slot < 8 →
        let w := fun (k : Nat) => word (m.getD 3 []) (4 * (8 * pe + slot) + k)
        let first := rawOfWords [w 0]
        (j.slots.find? fun q => decide (q.1 = { x := 0, y := 0, pe := pe, slot := slot })) =
          if w 0 = 0#64 ∧ w 1 = 0#64 ∧ w 2 = 0#64 ∧ w 3 = 0#64 then none else some ({ x := 0, y := 0, pe := pe, slot := slot }, [w 0, w 1, w 2, w 3].take (recordLen first.xi first.nt.toNat))) ∧
      (∀ n, n < 256 → tdir t cl n = word (m.getD 2 []) n) ∧
      (∀ n, n < 16 → let w := word (m.getD 1 []) n
        accGet t cl n = { st := w.extractLsb' 62 2, rows := w.extractLsb' 49 7, cols := w.extractLsb' 42 7, cur := ⟨w.extractLsb' 24 16, w.extractLsb' 0 24⟩, readers := 0 }) ∧
      (∀ n, n < 2 ^ 20 → tileByte t cl n = ((m.getD 5 []).flatMap dwBytes).getD n 0#8) ∧
      (∀ n, n < 2 ^ 17 → assocGet 0#32 t.tiles.words (2 ^ 18 * cl + 2 * n) = (word (m.getD 6 []) n).extractLsb' 0 32 ∧ assocGet 0#32 t.tiles.words (2 ^ 18 * cl + 2 * n + 1) = (word (m.getD 6 []) n).extractLsb' 32 32) ∧
      t.mem = v.mem ∧ t.fe.off = s.fe.off)

/-! ### Power, pressure and resets -/

/-- Degrees Celsius in sixteenths. -/
def Sys2Proof.Claims.deg (l : List (BitVec 16)) (k : Nat) : Int := (l.getD k 0#16).toInt
/-- The sensors of a compute die's junction temperature. -/
def Sys2Proof.Claims.senses (d k : Nat) : Prop := (k / 8 = d ∧ k < 32) ∨ k = 32 + d
/-- The least pressure that the overrides of R420 allow. -/
def Sys2Proof.Claims.leastPressure (hot held : Bool) : Nat := if hot then 2 else if held then 1 else 0

/-- Every die's pressure state by R420, from readings, thresholds and the states before: up at once to the highest state whose threshold the
junction temperature has reached, down one below the threshold less 3 °C, not below what the overrides ask. -/
def Sys2Proof.Claims.pressureIs (half light easy : Byte) (reading : Nat → Int) (held : List Bool) (old new : List (BitVec 4)) : Prop :=
  ∀ (d : Nat) (tj : Int), d < 4 → (∀ k, senses d k → reading k ≤ tj) → (∃ k, senses d k ∧ reading k = tj) →
    let o := (old.getD d 0#4).toNat
    let limit : Nat → Int := fun p => 16 * ((if p = 1 then half else if p = 2 then light else easy).toNat : Nat)
    let up := if limit 3 ≤ tj then 3 else if limit 2 ≤ tj then 2 else if limit 1 ≤ tj then 1 else 0
    let own := if o ≤ up then up else if tj < limit o - 48 then o - 1 else o
    let hot := decide (1680 ≤ reading (36 + 3 * d) ∨ 1680 ≤ reading (37 + 3 * d) ∨ 1680 ≤ reading (38 + 3 * d))
    (new.getD d 0#4).toNat = max own (leastPressure hot (held.getD d false))

/-- SENSOR_SAMPLE, POWER_UPDATE and HOLDING_INSTANCE (R420, R422 to R425, R427, Table 22.1). A sample stores all 48 readings; each die's pressure rises at once to the highest state whose threshold its junction temperature has reached and falls one state only below that state's threshold less 3 °C, held up by a stack at 105 °C
or by power; REFR follows each stack; 115 °C on a die trips the device: all work ends and the compute dies lose their power, what their caches held written having gone to its homes first (assumption 63). An update makes HOLD take effect and decides PADM, and clearing it sweeps every
paddle instance. The holding instance takes every free cluster while HOLD and PADM are 1 and nothing waits. -/
def Obligations.PressureAndPaddlePowerFollowTheSensors : Prop :=
  ∀ s : State, PowerOk s.pwr →
    let hot := fun (f : Nat → Int) (d : Nat) => decide (1680 ≤ f (36 + 3 * d) ∨ 1680 ≤ f (37 + 3 * d) ∨ 1680 ≤ f (38 + 3 * d))
    (∀ temps, temps.length = 48 → (∀ k, k < 36 → deg temps k < 1840) →
      ∃ t, exec (.sensorSample temps) s = .next t ∧ t = { s with pwr := { s.pwr with sensors := t.pwr.sensors, prs := t.pwr.prs, refr := t.pwr.refr } } ∧
        (∀ k, k < 48 → registerRead (0x4000 + 8 * k) t = 1#1 ++ 0#47 ++ temps.getD k 0#16) ∧
        pressureIs s.pwr.half s.pwr.light s.pwr.easy (deg temps) s.pwr.heldBy s.pwr.prs t.pwr.prs ∧
        (∀ k, k < 12 → let x := deg temps (36 + k)
          (t.pwr.refr.getD k 0#2).toNat = if x < 1360 then 0 else if x < 1520 then 1 else if x < 1680 then 2 else 3)) ∧
    (∀ temps k, temps.length = 48 → k < 36 → 1840 ≤ deg temps k → s.ft.fatal = false →
      ∃ t, exec (.sensorSample temps) s = .next t ∧ workIsGone t ∧ registerRead 0x2028 t = 1#1 ++ 0#55 ++ 4#8 ∧ (s.pwr.dieOff = false → t.pwr.dieOff = true ∧ t.co.l1w = [] ∧ t.co.l1d = [] ∧ t.co.rdc = [] ∧
        (s.co.l1d = [] → s.co.rdc = [] → s.co.msgs = [] → s.co.gwait = [] →
          (s.co.l1w = [] → t.mem = s.mem ∧ t.co.l2 = s.co.l2) ∧
          ∀ x y, s.co.l1w = [x] → x.st = .o → x.pa % 4 = 0 → inL2 s (sectorOf x.pa) x.key y → y.data.length = 16 → (∀ k, k < 4 → devicePresent s (x.pa + k) = true) →
            ∀ k, k < 4 → byteAt t x.key (x.pa + k) = (x.data.extractLsb' (8 * k) 8, x.psn)))) ∧
    (∀ pkg dies, dies.length = 4 → ∃ t, exec (.powerUpdate pkg dies) s = .next t ∧ t.pwr.pkgpwr = pkg ∧ t.pwr.diepwr ∈ dies ∧ (∀ p ∈ dies, p.toNat ≤ t.pwr.diepwr.toNat) ∧ t.pwr.holdOn = s.pwr.hold ∧
      (∀ d, d < 4 → let p := (dies.getD d 0#16).toNat
        let held := if 650 < p then true else if p < 620 then false else s.pwr.heldBy.getD d false
        t.pwr.heldBy.getD d false = held ∧ (t.pwr.prs.getD d 0#4).toNat =
          max (s.pwr.prs.getD d 0#4).toNat (leastPressure (hot (fun k => ((s.pwr.sensors.getD k (false, 0#16)).2).toInt) d) held)) ∧
      (let full := ∀ d, d < 4 → t.pwr.prs.getD d 0#4 = 0#4
       let sp := s.pwr.setpt.toNat
       (sp = 0 ∨ sp < pkg.toNat ∨ ¬ full ∨ (sp ≤ pkg.toNat + s.pwr.hyst.toNat ∧ s.pwr.padm = false) →
         t.pwr.padm = false ∧ t.fe.holdCl = [] ∧ (∀ i ∈ t.insts, i.cls = 0 → mayLeave i = false ∧ i.moving = false) ∧
         t.insts.map (·.iid) = s.insts.map (·.iid) ∧ ∀ i ∈ s.insts, i.cls ≠ 0 → (∀ j ∈ s.insts, j.iid = i.iid → j = i) → i ∈ t.insts) ∧
       (full → pkg.toNat + s.pwr.hyst.toNat < sp → t.pwr.padm = true ∧ t.insts = s.insts ∧ t.fe = s.fe) ∧
       (full → sp ≠ 0 → pkg.toNat ≤ sp → sp ≤ pkg.toNat + s.pwr.hyst.toNat → s.pwr.padm = true → t.pwr.padm = true ∧ t.insts = s.insts ∧ t.fe = s.fe)) ∧
      t.mem = s.mem ∧ t.co = s.co ∧ t.ops = s.ops) ∧
    (s.pwr.holdOn = true → s.pwr.padm = true → s.ft.fatal = false → s.pwr.dieOff = false → s.fe.launches = [] → s.fe.resident = [] → ∃ t, exec .holdingInstance s = .next t ∧ t = { s with fe := { s.fe with holdCl := t.fe.holdCl } } ∧
      ∀ c, c ∈ t.fe.holdCl ↔ c < 512 ∧ c ∉ s.fe.off ∧ c ∉ s.fe.dead ∧ ∀ i ∈ s.insts, i.phase ≠ .saved → c ∉ instCls i) ∧
    (s.pwr.holdOn = false ∨ s.pwr.padm = false ∨ s.ft.fatal = true ∨ s.pwr.dieOff = true → exec .holdingInstance s = .next s)

/-- REGISTER_WRITE, THRESHOLD_WRITE, BRING_UP, WARM_RESET and COLD_RESET (R335, R356, R384, R394, R420, R428). A command register starts its command with the arguments that stand there, unless the part is not READY, has failed or is busy; an OP of no row is BADARG (the model's choice, assumption 70); other registers take their writable fields, thresholds only whole, and the dies' states follow them (assumption 34);
writes at other offsets and other alignments do nothing, and what a write does while its block is busy, before READY or after a fatal error is the model's choice where the spec does not say (assumptions 39 and 43). Writes are performed at once where no access of the host waits (assumption 64). Bring-up counts the clusters that fail, reports the link, which is down where it trained as Table 0.1 and R382 do not allow,
and the memory, 192 GiB a die with every die and stack in service (what else it is: assumption 42), and sets READY, before which a warm reset is ignored. A reset ends all work, loses keys and gives every register its reset value; device memory is zero after a cold reset or with integrity, and stays otherwise. That tile stores are as State.reset has them after either
reset is the model's choice: the spec gives them no reset value (assumptions 2 and 42). -/
def Obligations.RegistersResetsAndBringUp : Prop :=
  ∀ s : State,
    let w := fun (off : Nat) (v : W64) => exec (.registerWrite off v) s
    let open_ := s.pwr.ready = true ∧ s.ft.fatal = false
    (noHostWaits s →
    (∀ off v, off % 8 ≠ 0 ∨ (0x28 ≤ off ∧ off < 0x1000) ∨ (0x1018 ≤ off ∧ off < 0x2000) ∨ (0x10000 ≤ off ∧ off < 0x20000) → w off v = .next s) ∧
    (∀ v, let op := v.extractLsb' 0 8
      (¬ open_ ∨ s.fe.busy = true → w 0x1000 v = .next s) ∧
      (open_ → s.fe.busy = false → 1 ≤ op.toNat → op.toNat ≤ 8 → w 0x1000 v =
        .next { s with fe := { s.fe with busy := true, cmd := op, cur0 := s.fe.arg0, cur1 := s.fe.arg1, res := 0#64, loaded := s.fe.loaded || decide (op = 1#8) } }) ∧
      (open_ → s.fe.busy = false → op.toNat = 0 ∨ 8 < op.toNat → w 0x1000 v = .next (answers 1#8 0 s)) ∧
      (¬ open_ ∨ s.ft.busy = true → w 0x2000 v = .next s) ∧
      (open_ → s.ft.busy = false → op.toNat = 2 ∨ (op.toNat = 1 ∧ s.ft.arg0.extractLsb' 62 2 ≠ 3#2) → w 0x2000 v = .next { s with ft := { s.ft with busy := true, cmd := op, res := 0#64 } }) ∧
      (open_ → s.ft.busy = false → op.toNat = 0 ∨ 2 < op.toNat ∨ (op.toNat = 1 ∧ s.ft.arg0.extractLsb' 62 2 = 3#2) → w 0x2000 v = .next { s with ft := { s.ft with busy := false, stat := 1#8, res := 0#64, hits := none } })) ∧
    (∀ v, w 0x1008 v = .next { s with fe := { s.fe with arg0 := v } } ∧ w 0x1010 v = .next { s with fe := { s.fe with arg1 := v } } ∧
      (s.ft.busy = false → w 0x2008 v = .next { s with ft := { s.ft with arg0 := v } } ∧ w 0x2010 v = .next { s with ft := { s.ft with arg1 := v } }) ∧
      w 0x20 v = .next { s with link := { s.link with fatVec := v.extractLsb' 0 16 } } ∧
      w 0x18 v = .next { s with fab := { s.fab with nv := s.fab.nv || v.getLsbD 63, lsin := v.getLsbD 62, bulkin := v.getLsbD 61, nodeid := if s.fab.nv then s.fab.nodeid else v.extractLsb' 0 20 } } ∧
      (s.ras.kbusy = true → ∀ off, 0x3C00 ≤ off → off < 0x4000 → w off v = .next s) ∧
      (s.ras.kbusy = false → ∀ j, j < 4 → w (0x3C08 + 8 * j) v = .next { s with ras := { s.ras with kdata := s.ras.kdata.set j v } }) ∧
      (∀ k, k < 2048 → ∃ t, w (0x20000 + 8 * k) v = .next t ∧ registerRead (0x20000 + 8 * k) t = v &&& 0xC0FF0000000FFFFF#64 ∧ t = { s with fab := { s.fab with apert := t.fab.apert } }) ∧
      w 0x4208 v = exec (.thresholdWrite v) s ∧
      w 0x4218 v = .next { s with pwr := { s.pwr with hold := v.getLsbD 63, holdOn := s.pwr.holdOn && v.getLsbD 63, setpt := v.extractLsb' 16 16, hyst := v.extractLsb' 0 16 }, fe := { s.fe with holdCl := if v.getLsbD 63 = true then s.fe.holdCl else [] } } ∧
      (v.extractLsb' 0 8 = 0x5A#8 → w 0x4228 v = exec .warmReset s) ∧ (v.extractLsb' 0 8 ≠ 0x5A#8 → w 0x4228 v = .next s))) ∧
    (s.pwr.ready = false → exec .warmReset s = .next s) ∧
    (∀ v : W64, noHostWaits s → let h := v.extractLsb' 0 8
      let l := v.extractLsb' 8 8
      let e := v.extractLsb' 16 8
      (80 ≤ h.toNat → h.toNat < l.toNat → l.toNat < e.toNat → e.toNat ≤ 112 → ∃ t, exec (.thresholdWrite v) s = .next t ∧
        t = { s with pwr := { s.pwr with half := h, light := l, easy := e, prs := t.pwr.prs, refr := t.pwr.refr } } ∧
        pressureIs h l e (fun k => ((s.pwr.sensors.getD k (false, 0#16)).2).toInt) s.pwr.heldBy s.pwr.prs t.pwr.prs) ∧
      (¬ (80 ≤ h.toNat ∧ h.toNat < l.toNat ∧ l.toNat < e.toNat ∧ e.toNat ≤ 112) → exec (.thresholdWrite v) s = .next s)) ∧
    (∀ b : BringUp, (s.pwr.ready = true → exec (.bringUp b) s = .next s) ∧
      (s.pwr.ready = false → ∃ t, exec (.bringUp b) s = .next t ∧ t = { s with fe := { s.fe with dead := t.fe.dead }, link := t.link, fab := { s.fab with up := b.ports }, pwr := t.pwr } ∧
        t.pwr = { s.pwr with ready := true, dieok := b.dieOk, stkok := b.stkOk, cold := s.pwr.wasCold, clout := BitVec.ofNat 9 t.fe.dead.length } ∧ t.fe.dead.Nodup ∧
        (let trains := 1 ≤ b.width.toNat ∧ b.width.toNat ≤ 16 ∧ ((b.mode = 1#2 ∧ 1 ≤ b.gts.toNat ∧ b.gts.toNat ≤ 128) ∨ (b.mode = 2#2 ∧ b.gts = 64#8))
         (trains → t.link = { s.link with mode := b.mode, width := b.width, gts := b.gts, memcap := t.link.memcap, popul := t.link.memcap }) ∧
         (¬ trains → t.link = { s.link with mode := 0#2, width := 0#6, gts := 0#8, memcap := t.link.memcap, popul := t.link.memcap })) ∧
        (b.dieOk = 0xF#4 → b.stkOk = 0xFFF#12 → t.link.memcap = 0x3000000000#64) ∧
        (t.link.memcap.toNat % 65536 = 0 ∧ t.link.memcap.toNat ≤ 192 * 2 ^ 30 ∧
          ((b.dieOk ≠ 0xF#4 ∨ b.stkOk ≠ 0xFFF#12) → t.link.memcap.toNat ≤ b.memcap.toNat)) ∧
        ∀ c, c ∈ t.fe.dead ↔ c < 512 ∧ (c ∈ b.badCl ∨ b.dieOk.getLsbD (c / 128) = false))) ∧
    (∀ cold : Bool, (cold = false → s.pwr.ready = true) → ∃ t, exec (if cold then .coldReset else .warmReset) s = .next t ∧ workIsGone t ∧ t.ras.keys = [] ∧ t.tiles = Tiles.reset ∧ t.co.l1w = [] ∧ t.co.l1d = [] ∧ t.co.l2 = [] ∧ t.co.rdc = [] ∧
      (∀ off, off < 0x3000 ∨ (0x3C00 ≤ off ∧ off < 0x5000) → registerRead off t = registerRead off State.reset) ∧
      (cold = true ∨ s.ras.inten = true → (∀ a, memGet t.mem a = if a < 2 ^ 40 then 0#8 else memGet s.mem a) ∧ (∀ a ∈ t.co.psn, 2 ^ 40 ≤ a) ∧ t.co.dirb = [] ∧ t.co.meta_ = []) ∧
      (cold = false → s.ras.inten = false → s.co.l1w = [] → s.co.l1d = [] → s.co.l2 = [] → s.co.rdc = [] → s.co.msgs = [] → s.co.gwait = [] →
        t.mem = s.mem ∧ t.co.psn = s.co.psn ∧ t.co.dirb = s.co.dirb ∧ t.co.meta_ = s.co.meta_))
end

