-- ==== Sys2Proof/Laws/Memory.lean ====
section
/-! SUPPORT. Byte memory: reading after writing, and the canonical form that every memory operation keeps. -/
namespace Sys2Proof.Machine

@[simp] theorem memGet_nil (a : Nat) : memGet [] a = 0#8 := rfl

/-- Below every listed address memory reads zero. -/
theorem memGet_of_wfFrom {m : Memory} {lo a : Nat} (h : memWfFrom (some lo) m = true) (ha : a ≤ lo) : memGet m a = 0#8 := by
  induction m generalizing lo with
  | nil => rfl
  | cons c t ih =>
    obtain ⟨k, v⟩ := c
    simp only [memWfFrom, Option.all_some, Bool.and_eq_true, decide_eq_true_eq] at h
    simp only [memGet]
    rw [if_neg (by omega)]
    exact ih h.2 (by omega)

/-- Reading the byte just written. -/
@[simp] theorem memGet_memSet_same {m : Memory} {lo : Option Nat} (h : memWfFrom lo m = true) (a : Nat) (v : Byte) :
    memGet (memSet m a v) a = v := by
  induction m generalizing lo with
  | nil => by_cases hv : v = 0#8 <;> simp [memSet, hv, memGet]
  | cons c t ih =>
    obtain ⟨k, w⟩ := c
    simp only [memWfFrom, Bool.and_eq_true] at h
    have h0 : memGet t k = 0#8 := memGet_of_wfFrom h.2 (Nat.le_refl k)
    by_cases h1 : a < k
    · by_cases hv : v = 0#8
      · have h2 := memGet_of_wfFrom h.2 (Nat.le_of_lt h1)
        simp [memSet, h1, hv, memGet, Nat.ne_of_gt h1, h2]
      · simp [memSet, h1, hv, memGet]
    · by_cases h2 : a = k
      · subst h2
        by_cases hv : v = 0#8 <;> simp [memSet, hv, memGet, h0]
      · simp only [memSet, if_neg h1, if_neg h2, memGet, if_neg (Ne.symm h2)]
        exact ih h.2

/-- Reading any other byte. -/
theorem memGet_memSet_ne (m : Memory) {a b : Nat} (v : Byte) (h : b ≠ a) : memGet (memSet m a v) b = memGet m b := by
  induction m with
  | nil => by_cases hv : v = 0#8 <;> simp [memSet, hv, memGet, Ne.symm h]
  | cons c t ih =>
    obtain ⟨k, w⟩ := c
    simp only [memSet]
    split
    · split <;> simp [memGet, Ne.symm h]
    · split
      · split
        · rw [memGet, if_neg (by omega)]
        · rw [memGet, memGet, if_neg (by omega), if_neg (by omega)]
      · simp only [memGet, ih]

theorem memSet_wfFrom {m : Memory} {lo : Option Nat} {a : Nat} (v : Byte) (h : memWfFrom lo m = true)
    (ha : ∀ l ∈ lo, l < a) : memWfFrom lo (memSet m a v) = true := by
  induction m generalizing lo with
  | nil =>
    by_cases hv : v = 0#8
    · simp [memSet, hv, memWfFrom]
    · cases lo <;> simp_all [memSet, memWfFrom]
  | cons c t ih =>
    obtain ⟨k, w⟩ := c
    simp only [memWfFrom, Bool.and_eq_true, decide_eq_true_eq] at h
    obtain ⟨⟨h1, h2⟩, h3⟩ := h
    simp only [memSet]
    split
    · split
      · simp [memWfFrom, h1, h2, h3]
      · cases lo <;> simp_all [memWfFrom]
    · split
      · split
        · subst a
          cases t with
          | nil => rfl
          | cons d t =>
            simp only [memWfFrom, Option.all_some, Bool.and_eq_true, decide_eq_true_eq] at h3 ⊢
            refine ⟨⟨?_, h3.1.2⟩, h3.2⟩
            cases lo with
            | none => rfl
            | some l =>
              have := ha l rfl
              simp only [Option.all_some, decide_eq_true_eq] at *
              omega
        · simp_all [memWfFrom]
      · simp only [memWfFrom, Bool.and_eq_true, decide_eq_true_eq]
        exact ⟨⟨h1, h2⟩, ih h3 (by simp only [Option.mem_def, Option.some.injEq]; omega)⟩

/-- Writing a byte keeps the canonical form. -/
@[simp] theorem memSet_wf {m : Memory} (a : Nat) (v : Byte) (h : memWf m = true) : memWf (memSet m a v) = true :=
  memSet_wfFrom v h (by simp)

/-- Writing bytes keeps the canonical form. -/
@[simp] theorem memWrite_wf {m : Memory} (a : Nat) (bs : List Byte) (h : memWf m = true) : memWf (memWrite m a bs) = true := by
  induction bs generalizing m a with
  | nil => exact h
  | cons b t ih => exact ih (a + 1) (memSet_wf a b h)

theorem memWfFrom_filter {m : Memory} {lo : Option Nat} (p : Host.Cell → Bool) (h : memWfFrom lo m = true) :
    memWfFrom lo (m.filter p) = true := by
  induction m generalizing lo with
  | nil => rfl
  | cons c t ih =>
    obtain ⟨k, v⟩ := c
    simp only [memWfFrom, Bool.and_eq_true, decide_eq_true_eq] at h
    obtain ⟨⟨h1, h2⟩, h3⟩ := h
    by_cases hp : p (k, v) = true
    · simp only [List.filter_cons, hp, ↓reduceIte, memWfFrom, Bool.and_eq_true, decide_eq_true_eq]
      exact ⟨⟨h1, h2⟩, ih h3⟩
    · simp only [List.filter_cons, hp]
      have h4 := ih h3
      revert h4
      cases t.filter p with
      | nil => simp [memWfFrom]
      | cons d t =>
        intro h4
        simp only [memWfFrom, Option.all_some, Bool.and_eq_true, decide_eq_true_eq] at h4
        simp only [Bool.false_eq_true, ↓reduceIte, memWfFrom, Bool.and_eq_true, decide_eq_true_eq]
        refine ⟨⟨?_, h4.1.2⟩, h4.2⟩
        cases lo with
        | none => rfl
        | some l =>
          simp only [Option.all_some, decide_eq_true_eq] at *
          omega

/-- Dropping entries keeps the canonical form. -/
@[simp] theorem memWf_filter {m : Memory} (p : Host.Cell → Bool) (h : memWf m = true) : memWf (m.filter p) = true :=
  memWfFrom_filter p h

/-- Clearing a range keeps the canonical form. -/
@[simp] theorem memClearRange_wf {m : Memory} (a n : Nat) (h : memWf m = true) : memWf (memClearRange m a n) = true :=
  memWf_filter _ h

/-- A byte outside a write is unchanged. -/
theorem memGet_memWrite_out (m : Memory) {a b : Nat} (bs : List Byte) (h : b < a ∨ a + bs.length ≤ b) :
    memGet (memWrite m a bs) b = memGet m b := by
  induction bs generalizing m a with
  | nil => rfl
  | cons c t ih =>
    simp only [List.length_cons] at h
    simp only [memWrite]
    rw [ih _ (by omega), memGet_memSet_ne _ _ (by omega)]

/-- A byte inside a write holds what was written. -/
theorem memGet_memWrite_in {m : Memory} (h : memWf m = true) (a : Nat) (bs : List Byte) (k : Nat) (hk : k < bs.length) :
    memGet (memWrite m a bs) (a + k) = bs.getD k 0#8 := by
  induction bs generalizing m a k with
  | nil => simp at hk
  | cons c t ih =>
    simp only [memWrite]
    cases k with
    | zero =>
      rw [memGet_memWrite_out _ _ (by omega), Nat.add_zero]
      exact memGet_memSet_same (lo := none) h a c
    | succ k =>
      have := ih (memSet_wf a c h) (a + 1) k (by simpa using hk)
      rw [show a + (k + 1) = a + 1 + k by omega, this]
      rfl

/-- A range that has been cleared reads zero, and no other byte changes. -/
theorem memGet_memClearRange (m : Memory) (a n b : Nat) :
    memGet (memClearRange m a n) b = if a ≤ b ∧ b < a + n then 0#8 else memGet m b := by
  induction m with
  | nil => simp [memClearRange, memGet]
  | cons c t ih =>
    obtain ⟨k, v⟩ := c
    have hc : memClearRange ((k, v) :: t) a n =
        if k < a ∨ a + n ≤ k then (k, v) :: memClearRange t a n else memClearRange t a n := by
      simp only [memClearRange, List.filter_cons, decide_eq_true_eq]
    rw [hc]
    by_cases hk : k < a ∨ a + n ≤ k
    · rw [if_pos hk]
      simp only [memGet, ih]
      by_cases hb : k = b
      · rw [if_pos hb, if_pos hb, if_neg (by omega)]
      · rw [if_neg hb, if_neg hb]
    · rw [if_neg hk, ih]
      by_cases hb : k = b
      · rw [if_pos (by omega), if_pos (by omega)]
      · simp only [memGet, if_neg hb]

end Sys2Proof.Machine
end

