-- ==== Sys2Proof/Laws/Invariant.lean ====
section
/-! SUPPORT. The invariant that every step keeps: how it passes through an update of the state and through folds. -/
namespace Sys2Proof.Machine

/-- The invariant of an outcome: of its next state, if it has one. -/
def InvO : Out → Prop
  | .next t => Inv t
  | _ => True
@[simp] theorem invO_next (t : State) : InvO (.next t) = Inv t := rfl
@[simp] theorem invO_fault (f : Fault) : InvO (.fault f) = True := rfl
@[simp] theorem invO_refused (f : Refusal) : InvO (.refused f) = True := rfl

/-- The invariant sees five parts of the state. -/
@[simp] theorem inv_mk (time tick agenda inbox firing nextId insts flights ops xfers mem co tiles fe ft link fab ras pwr) :
    Inv ⟨time, tick, agenda, inbox, firing, nextId, insts, flights, ops, xfers, mem, co, tiles, fe, ft, link, fab, ras, pwr⟩ =
      InvOf mem tiles.bytes link.mode ras.ctrs pwr := rfl
@[simp] theorem invOf_self (s : State) : InvOf s.mem s.tiles.bytes s.link.mode s.ras.ctrs s.pwr = Inv s := rfl

/-- Branches. -/
@[simp] theorem inv_ite {c : Prop} [Decidable c] {a b : State} (ha : Inv a) (hb : Inv b) : Inv (if c then a else b) := by
  split <;> assumption
@[simp] theorem invO_ite {c : Prop} [Decidable c] {a b : Out} (ha : InvO a) (hb : InvO b) : InvO (if c then a else b) := by
  split <;> assumption
theorem inv_ite_snd {c : Prop} [Decidable c] {α : Type} {a b : α × State} (ha : Inv a.2) (hb : Inv b.2) :
    Inv (if c then a else b).2 := by
  split <;> assumption
theorem inv_ite_fst {c : Prop} [Decidable c] {α : Type} {a b : State × α} (ha : Inv a.1) (hb : Inv b.1) :
    Inv (if c then a else b).1 := by
  split <;> assumption

/-- Bytes written, and cleared, in memory and in the tile stores; a counter set. -/
@[simp] theorem invOf_mem {s : State} (a : Nat) (bs : List Byte) (h : Inv s) :
    InvOf (memWrite s.mem a bs) s.tiles.bytes s.link.mode s.ras.ctrs s.pwr := ⟨⟨memWrite_wf a bs h.1.1, h.1.2⟩, h.2⟩
@[simp] theorem invOf_memFilter {s : State} (p : Host.Cell → Bool) (h : Inv s) :
    InvOf (s.mem.filter p) s.tiles.bytes s.link.mode s.ras.ctrs s.pwr := ⟨⟨memWf_filter p h.1.1, h.1.2⟩, h.2⟩
@[simp] theorem invOf_tiles {s : State} (a : Nat) (bs : List Byte) (h : Inv s) :
    InvOf s.mem (memWrite s.tiles.bytes a bs) s.link.mode s.ras.ctrs s.pwr := ⟨⟨h.1.1, memWrite_wf a bs h.1.2⟩, h.2⟩
@[simp] theorem invOf_tilesFilter {s : State} (p : Host.Cell → Bool) (h : Inv s) :
    InvOf s.mem (s.tiles.bytes.filter p) s.link.mode s.ras.ctrs s.pwr := ⟨⟨h.1.1, memWf_filter p h.1.2⟩, h.2⟩
@[simp] theorem invOf_tilesClear {s : State} (a n : Nat) (h : Inv s) :
    InvOf s.mem (memClearRange s.tiles.bytes a n) s.link.mode s.ras.ctrs s.pwr := ⟨⟨h.1.1, memClearRange_wf a n h.1.2⟩, h.2⟩
@[simp] theorem invOf_ctrs {s : State} (k : Nat) (v : W32) (h : Inv s) :
    InvOf s.mem s.tiles.bytes s.link.mode (s.ras.ctrs.set k v) s.pwr := ⟨h.1, h.2.1, by simp [h.2.2.1], h.2.2.2⟩

theorem inv_foldl {α : Type} {f : State → α → State} (hf : ∀ s x, Inv s → Inv (f s x)) (l : List α) {s : State} (h : Inv s) :
    Inv (l.foldl f s) := by
  induction l generalizing s with
  | nil => exact h
  | cons x t ih => exact ih (hf s x h)
theorem inv_foldl_fst {α β : Type} {f : State × β → α → State × β} (hf : ∀ z x, Inv z.1 → Inv (f z x).1) (l : List α)
    {z : State × β} (h : Inv z.1) : Inv (l.foldl f z).1 := by
  induction l generalizing z with
  | nil => exact h
  | cons x t ih => exact ih (hf z x h)
theorem inv_foldl_snd {α β : Type} {f : β × State → α → β × State} (hf : ∀ z x, Inv z.2 → Inv (f z x).2) (l : List α)
    {z : β × State} (h : Inv z.2) : Inv (l.foldl f z).2 := by
  induction l generalizing z with
  | nil => exact h
  | cons x t ih => exact ih (hf z x h)

end Sys2Proof.Machine
end

