-- ==== Sys2Proof/Laws/InvRecords.lean ====
section
/-! SUPPORT. The invariant of Safety.lean passes through every function over states: the shared operations and the integer, float and vector groups. -/
set_option linter.unusedSimpArgs false
namespace Sys2Proof.Machine

theorem inv_modInst (id : Nat) (f : Inst → Inst) {s : State} (hI : Inv s) : Inv (modInst id f s) := by
  unfold modInst
  repeat' assumption
theorem inv_modCtx (h : Nat) (f : Ctx → Ctx) {s : State} (hI : Inv s) : Inv (modCtx h f s) := by
  unfold modCtx
  repeat' assumption
theorem inv_modThr (inst : Nat) (t : BitVec 16) (f : Thread → Thread) {s : State} (hI : Inv s) : Inv (modThr inst t f s) := by
  unfold modThr
  repeat' assumption
theorem inv_modOp (id : Nat) (f : Op → Op) {s : State} (hI : Inv s) : Inv (modOp id f s) := by
  unfold modOp
  repeat' assumption
theorem inv_delOp (id : Nat) {s : State} (hI : Inv s) : Inv (delOp id s) := by
  unfold delOp
  repeat' assumption
theorem inv_modX (id : Nat) (f : Xfer → Xfer) {s : State} (hI : Inv s) : Inv (modX id f s) := by
  unfold modX
  repeat' assumption
theorem inv_delX (id : Nat) {s : State} (hI : Inv s) : Inv (delX id s) := by
  unfold delX
  repeat' assumption
theorem inv_freeEnded (inst : Nat) {s : State} (hI : Inv s) : Inv (freeEnded inst s) := by
  unfold freeEnded
  repeat' assumption
theorem inv_newOp (i : Instr) (ph : Phase) (cl : Nat) (cap : List (Nat × W64)) {s : State}
    (hI : Inv s) : Inv (newOp i ph cl cap s).2 := by
  unfold newOp
  repeat' assumption
theorem inv_bumpNode (inst : Nat) (n : SweepNode) (snt : Nat) (rcv : Nat) {s : State}
    (hI : Inv s) : Inv (bumpNode inst n snt rcv s) := by
  unfold bumpNode
  repeat' assumption
theorem inv_sendTok (inst : Nat) (src : Src) (node : SweepNode) (p : Place) (ts : List Target) (k : Tok) {s : State}
    (hI : Inv s) : Inv (sendTok inst src node p ts k s) := by
  unfold sendTok
  repeat' assumption
theorem inv_sendFrom (inst : Nat) (p : Place) (ts : List Target) (k : Tok) {s : State}
    (hI : Inv s) : Inv (sendFrom inst p ts k s) := by
  unfold sendFrom
  repeat' assumption
theorem inv_emitAt (f : Firing) (i : Instr) (tag : Tag) (pay : W256) (sf : Bool) {s : State}
    (hI : Inv s) : Inv (emitAt f i tag pay sf s) := by
  unfold emitAt
  repeat' assumption
theorem inv_emitVal (f : Firing) (i : Instr) (pay : W256) {s : State} (hI : Inv s) : Inv (emitVal f i pay s) := by
  unfold emitVal
  repeat' assumption
theorem inv_emit64 (f : Firing) (i : Instr) (v : W64) {s : State} (hI : Inv s) : Inv (emit64 f i v s) := by
  unfold emit64
  repeat' assumption
theorem inv_emitErr (f : Firing) (i : Instr) (code : W64) {s : State} (hI : Inv s) : Inv (emitErr f i code s) := by
  unfold emitErr
  repeat' assumption
theorem inv_unlessErr (i : Instr) (body : State → State) {s : State}
    (hbody : ∀ a0, Inv a0 → Inv (body a0)) (hI : Inv s) : InvO (unlessErr i body s) := by
  unfold unlessErr
  repeat' (first | assumption | with_reducible refine hbody _ ?_ | rw [invO_next] | split)
theorem inv_raise (inst : Nat) (fl : Flags) {s : State} (hI : Inv s) : Inv (raise inst fl s) := by
  unfold raise
  repeat' assumption
theorem inv_endOfStream (inst : Nat) (t : BitVec 16) {s : State} (hI : Inv s) : Inv (endOfStream inst t s) := by
  unfold endOfStream
  repeat' assumption
theorem inv_endIf (b : Bool) (inst : Nat) (t : BitVec 16) {s : State} (hI : Inv s) : Inv (endIf b inst t s) := by
  unfold endIf
  repeat' (first | assumption | with_reducible refine inv_ite ?_ ?_)
theorem inv_recordError (inst : Nat) (code : Byte) (tag : Tag) (p : Place) {s : State}
    (hI : Inv s) : Inv (recordError inst code tag p s) := by
  unfold recordError
  repeat' assumption
theorem inv_takeException (ctx : Nat) (inst : Option Nat) (fdom : W32) (w : Why) {s : State}
    (hI : Inv s) : Inv (takeException ctx inst fdom w s).2 := by
  unfold takeException
  repeat' (first | assumption | simp only [inv_mk, invOf_self] | split)
theorem inv_endException (ctx : Nat) (fid : W32) {s : State} (hI : Inv s) : Inv (endException ctx fid s) := by
  unfold endException
  repeat' assumption
theorem inv_opException (o : Op) (w : Why) {s : State} (hI : Inv s) : Inv (opException o w s).2 := by
  unfold opException
  repeat' (first | assumption | with_reducible refine inv_takeException _ _ _ _ ?_ | split)
theorem inv_intOp (i : Instr) (r : IntRec) (f : Nat → Nat → Nat → Nat → Nat) {s : State}
    (hI : Inv s) : InvO (intOp i r f s) := by
  unfold intOp
  repeat' (first | assumption | with_reducible refine inv_unlessErr _ _ (fun _ _ => ?_) ?_)
theorem inv_execAdd (r : IntRec) {s : State} (hI : Inv s) : InvO (execAdd r s) := by
  unfold execAdd
  repeat' (first | assumption | with_reducible refine inv_intOp _ _ _ ?_)
theorem inv_execSub (r : IntRec) {s : State} (hI : Inv s) : InvO (execSub r s) := by
  unfold execSub
  repeat' (first | assumption | with_reducible refine inv_intOp _ _ _ ?_)
theorem inv_execMulLo (r : IntRec) {s : State} (hI : Inv s) : InvO (execMulLo r s) := by
  unfold execMulLo
  repeat' (first | assumption | with_reducible refine inv_intOp _ _ _ ?_)
theorem inv_execMulHis (r : IntRec) {s : State} (hI : Inv s) : InvO (execMulHis r s) := by
  unfold execMulHis
  repeat' (first | assumption | with_reducible refine inv_intOp _ _ _ ?_)
theorem inv_execMulHiu (r : IntRec) {s : State} (hI : Inv s) : InvO (execMulHiu r s) := by
  unfold execMulHiu
  repeat' (first | assumption | with_reducible refine inv_intOp _ _ _ ?_)
theorem inv_execAnd (r : IntRec) {s : State} (hI : Inv s) : InvO (execAnd r s) := by
  unfold execAnd
  repeat' (first | assumption | with_reducible refine inv_intOp _ _ _ ?_)
theorem inv_execOr (r : IntRec) {s : State} (hI : Inv s) : InvO (execOr r s) := by
  unfold execOr
  repeat' (first | assumption | with_reducible refine inv_intOp _ _ _ ?_)
theorem inv_execXor (r : IntRec) {s : State} (hI : Inv s) : InvO (execXor r s) := by
  unfold execXor
  repeat' (first | assumption | with_reducible refine inv_intOp _ _ _ ?_)
theorem inv_execAndn (r : IntRec) {s : State} (hI : Inv s) : InvO (execAndn r s) := by
  unfold execAndn
  repeat' (first | assumption | with_reducible refine inv_intOp _ _ _ ?_)
theorem inv_execShl (r : IntRec) {s : State} (hI : Inv s) : InvO (execShl r s) := by
  unfold execShl
  repeat' (first | assumption | with_reducible refine inv_intOp _ _ _ ?_)
theorem inv_execShrL (r : IntRec) {s : State} (hI : Inv s) : InvO (execShrL r s) := by
  unfold execShrL
  repeat' (first | assumption | with_reducible refine inv_intOp _ _ _ ?_)
theorem inv_execShrA (r : IntRec) {s : State} (hI : Inv s) : InvO (execShrA r s) := by
  unfold execShrA
  repeat' (first | assumption | with_reducible refine inv_intOp _ _ _ ?_)
theorem inv_execRotL (r : IntRec) {s : State} (hI : Inv s) : InvO (execRotL r s) := by
  unfold execRotL
  repeat' (first | assumption | with_reducible refine inv_intOp _ _ _ ?_)
theorem inv_execRotR (r : IntRec) {s : State} (hI : Inv s) : InvO (execRotR r s) := by
  unfold execRotR
  repeat' (first | assumption | with_reducible refine inv_intOp _ _ _ ?_)
theorem inv_execBcntClz (r : IntRec) {s : State} (hI : Inv s) : InvO (execBcntClz r s) := by
  unfold execBcntClz
  repeat' (first | assumption | with_reducible refine inv_intOp _ _ _ ?_)
theorem inv_execBcntCtz (r : IntRec) {s : State} (hI : Inv s) : InvO (execBcntCtz r s) := by
  unfold execBcntCtz
  repeat' (first | assumption | with_reducible refine inv_intOp _ _ _ ?_)
theorem inv_execBcntPopc (r : IntRec) {s : State} (hI : Inv s) : InvO (execBcntPopc r s) := by
  unfold execBcntPopc
  repeat' (first | assumption | with_reducible refine inv_intOp _ _ _ ?_)
theorem inv_execMinS (r : IntRec) {s : State} (hI : Inv s) : InvO (execMinS r s) := by
  unfold execMinS
  repeat' (first | assumption | with_reducible refine inv_intOp _ _ _ ?_)
theorem inv_execMinU (r : IntRec) {s : State} (hI : Inv s) : InvO (execMinU r s) := by
  unfold execMinU
  repeat' (first | assumption | with_reducible refine inv_intOp _ _ _ ?_)
theorem inv_execMaxS (r : IntRec) {s : State} (hI : Inv s) : InvO (execMaxS r s) := by
  unfold execMaxS
  repeat' (first | assumption | with_reducible refine inv_intOp _ _ _ ?_)
theorem inv_execMaxU (r : IntRec) {s : State} (hI : Inv s) : InvO (execMaxU r s) := by
  unfold execMaxU
  repeat' (first | assumption | with_reducible refine inv_intOp _ _ _ ?_)
theorem inv_execAbs (r : IntRec) {s : State} (hI : Inv s) : InvO (execAbs r s) := by
  unfold execAbs
  repeat' (first | assumption | with_reducible refine inv_intOp _ _ _ ?_)
theorem inv_execCmp (rel : CmpRel) (r : IntRec) {s : State} (hI : Inv s) : InvO (execCmp rel r s) := by
  unfold execCmp
  repeat' (first | assumption | with_reducible refine inv_intOp _ _ _ ?_)
theorem inv_execAddsS (r : IntRec) {s : State} (hI : Inv s) : InvO (execAddsS r s) := by
  unfold execAddsS
  repeat' (first | assumption | with_reducible refine inv_intOp _ _ _ ?_)
theorem inv_execAddsU (r : IntRec) {s : State} (hI : Inv s) : InvO (execAddsU r s) := by
  unfold execAddsU
  repeat' (first | assumption | with_reducible refine inv_intOp _ _ _ ?_)
theorem inv_execMula (r : IntRec) {s : State} (hI : Inv s) : InvO (execMula r s) := by
  unfold execMula
  repeat' (first | assumption | with_reducible refine inv_intOp _ _ _ ?_)
theorem inv_execExt (fn : ExtFn) (r : IntRec) {s : State} (hI : Inv s) : InvO (execExt fn r s) := by
  unfold execExt
  repeat' (first | assumption | with_reducible refine inv_unlessErr _ _ (fun _ _ => ?_) ?_)
theorem inv_execBfx (r : IntRec) {s : State} (hI : Inv s) : InvO (execBfx r s) := by
  unfold execBfx
  repeat' (first | assumption | with_reducible refine inv_unlessErr _ _ (fun _ _ => ?_) ?_)
theorem inv_execBfi (r : IntRec) {s : State} (hI : Inv s) : InvO (execBfi r s) := by
  unfold execBfi
  repeat' (first | assumption | with_reducible refine inv_unlessErr _ _ (fun _ _ => ?_) ?_)
theorem inv_execLea (sh : BitVec 3) (r : IntRec) {s : State} (hI : Inv s) : InvO (execLea sh r s) := by
  unfold execLea
  repeat' (first | assumption | with_reducible refine inv_unlessErr _ _ (fun _ _ => ?_) ?_)
theorem inv_divFire (i : Instr) {s : State} (hI : Inv s) : Inv (divFire i s) := by
  unfold divFire
  repeat' (first | assumption | with_reducible refine inv_ite ?_ ?_)
theorem inv_execDivS (r : IntRec) {s : State} (hI : Inv s) : InvO (execDivS r s) := by
  unfold execDivS
  repeat' (first
        | assumption | with_reducible refine inv_unlessErr _ _ (fun _ _ => ?_) ?_ | with_reducible refine inv_divFire _ ?_)
theorem inv_execDivU (r : IntRec) {s : State} (hI : Inv s) : InvO (execDivU r s) := by
  unfold execDivU
  repeat' (first
        | assumption | with_reducible refine inv_unlessErr _ _ (fun _ _ => ?_) ?_ | with_reducible refine inv_divFire _ ?_)
theorem inv_execRemS (r : IntRec) {s : State} (hI : Inv s) : InvO (execRemS r s) := by
  unfold execRemS
  repeat' (first
        | assumption | with_reducible refine inv_unlessErr _ _ (fun _ _ => ?_) ?_ | with_reducible refine inv_divFire _ ?_)
theorem inv_execRemU (r : IntRec) {s : State} (hI : Inv s) : InvO (execRemU r s) := by
  unfold execRemU
  repeat' (first
        | assumption | with_reducible refine inv_unlessErr _ _ (fun _ _ => ?_) ?_ | with_reducible refine inv_divFire _ ?_)
theorem inv_execDivideComplete (op : Nat) {s : State} (hI : Inv s) : InvO (execDivideComplete op s) := by
  unfold execDivideComplete
  repeat' (first | assumption | with_reducible refine invO_ite ?_ ?_ | split)
theorem inv_withFormats (i : Instr) (v : Bool) (slots : List Nat) (body : State → State) {s : State}
    (hbody : ∀ a0, Inv a0 → Inv (body a0)) (hI : Inv s) : InvO (withFormats i v slots body s) := by
  unfold withFormats
  repeat' (first
        | assumption | with_reducible refine hbody _ ?_ | with_reducible refine inv_unlessErr _ _ (fun _ _ => ?_) ?_ | split)
theorem inv_fltEmit (x : Firing) (i : Instr) (r : W256 × Flags) {s : State} (hI : Inv s) : Inv (fltEmit x i r s) := by
  unfold fltEmit
  repeat' assumption
theorem inv_fltOp (i : Instr) (r : FltRec) (f : W64 → LaneFn) {s : State} (hI : Inv s) : InvO (fltOp i r f s) := by
  unfold fltOp
  repeat' (first | assumption | with_reducible refine inv_withFormats _ _ _ _ (fun _ _ => ?_) ?_)
theorem inv_execFadd (r : FltRec) {s : State} (hI : Inv s) : InvO (execFadd r s) := by
  unfold execFadd
  repeat' (first | assumption | with_reducible refine inv_fltOp _ _ _ ?_)
theorem inv_execFsub (r : FltRec) {s : State} (hI : Inv s) : InvO (execFsub r s) := by
  unfold execFsub
  repeat' (first | assumption | with_reducible refine inv_fltOp _ _ _ ?_)
theorem inv_execFmul (r : FltRec) {s : State} (hI : Inv s) : InvO (execFmul r s) := by
  unfold execFmul
  repeat' (first | assumption | with_reducible refine inv_fltOp _ _ _ ?_)
theorem inv_execFma (fn : FmaFn) (r : FltRec) {s : State} (hI : Inv s) : InvO (execFma fn r s) := by
  unfold execFma
  repeat' (first | assumption | with_reducible refine inv_fltOp _ _ _ ?_)
theorem inv_iterFire (i : Instr) (r : FltRec) {s : State} (hI : Inv s) : InvO (iterFire i r s) := by
  unfold iterFire
  repeat' (first | assumption | with_reducible refine inv_withFormats _ _ _ _ (fun _ _ => ?_) ?_)
theorem inv_execFdiv (r : FltRec) {s : State} (hI : Inv s) : InvO (execFdiv r s) := by
  unfold execFdiv
  repeat' (first | assumption | with_reducible refine inv_iterFire _ _ ?_)
theorem inv_execFsqrt (r : FltRec) {s : State} (hI : Inv s) : InvO (execFsqrt r s) := by
  unfold execFsqrt
  repeat' (first | assumption | with_reducible refine inv_iterFire _ _ ?_)
theorem inv_execFrcp (r : FltRec) {s : State} (hI : Inv s) : InvO (execFrcp r s) := by
  unfold execFrcp
  repeat' (first | assumption | with_reducible refine inv_iterFire _ _ ?_)
theorem inv_execFrsq (r : FltRec) {s : State} (hI : Inv s) : InvO (execFrsq r s) := by
  unfold execFrsq
  repeat' (first | assumption | with_reducible refine inv_iterFire _ _ ?_)
theorem inv_execFexp2 (r : FltRec) {s : State} (hI : Inv s) : InvO (execFexp2 r s) := by
  unfold execFexp2
  repeat' (first | assumption | with_reducible refine inv_iterFire _ _ ?_)
theorem inv_execFlog2 (r : FltRec) {s : State} (hI : Inv s) : InvO (execFlog2 r s) := by
  unfold execFlog2
  repeat' (first | assumption | with_reducible refine inv_iterFire _ _ ?_)
theorem inv_execIterativeFloatComplete (op : Nat) {s : State} (hI : Inv s) : InvO (execIterativeFloatComplete op s) := by
  unfold execIterativeFloatComplete
  repeat' (first
        | assumption | with_reducible refine inv_ite ?_ ?_ | simp only [inv_mk, invOf_self] | rw [invO_next] | split)
theorem inv_execFminNum (r : FltRec) {s : State} (hI : Inv s) : InvO (execFminNum r s) := by
  unfold execFminNum
  repeat' (first | assumption | with_reducible refine inv_fltOp _ _ _ ?_)
theorem inv_execFminIeee (r : FltRec) {s : State} (hI : Inv s) : InvO (execFminIeee r s) := by
  unfold execFminIeee
  repeat' (first | assumption | with_reducible refine inv_fltOp _ _ _ ?_)
theorem inv_execFmaxNum (r : FltRec) {s : State} (hI : Inv s) : InvO (execFmaxNum r s) := by
  unfold execFmaxNum
  repeat' (first | assumption | with_reducible refine inv_fltOp _ _ _ ?_)
theorem inv_execFmaxIeee (r : FltRec) {s : State} (hI : Inv s) : InvO (execFmaxIeee r s) := by
  unfold execFmaxIeee
  repeat' (first | assumption | with_reducible refine inv_fltOp _ _ _ ?_)
theorem inv_execFabs (r : FltRec) {s : State} (hI : Inv s) : InvO (execFabs r s) := by
  unfold execFabs
  repeat' (first | assumption | with_reducible refine inv_fltOp _ _ _ ?_)
theorem inv_execFneg (r : FltRec) {s : State} (hI : Inv s) : InvO (execFneg r s) := by
  unfold execFneg
  repeat' (first | assumption | with_reducible refine inv_fltOp _ _ _ ?_)
theorem inv_execFcps (r : FltRec) {s : State} (hI : Inv s) : InvO (execFcps r s) := by
  unfold execFcps
  repeat' (first | assumption | with_reducible refine inv_fltOp _ _ _ ?_)
theorem inv_execFcmp (rel : FcmpRel) (r : FltRec) {s : State} (hI : Inv s) : InvO (execFcmp rel r s) := by
  unfold execFcmp
  repeat' (first | assumption | with_reducible refine inv_fltOp _ _ _ ?_)
theorem inv_execFcls (r : FltRec) {s : State} (hI : Inv s) : InvO (execFcls r s) := by
  unfold execFcls
  repeat' (first | assumption | with_reducible refine inv_fltOp _ _ _ ?_)
theorem inv_execFcvtFf (dst : BitVec 5) (r : FltRec) {s : State} (hI : Inv s) : InvO (execFcvtFf dst r s) := by
  unfold execFcvtFf
  repeat' (first
        | assumption | with_reducible refine inv_withFormats _ _ _ _ (fun _ _ => ?_) ?_ | with_reducible refine inv_ite ?_ ?_)
theorem inv_toInt (i : Instr) (r : FltRec) (lo : Int) (hi : Int) {s : State} (hI : Inv s) : InvO (toInt i r lo hi s) := by
  unfold toInt
  repeat' (first | assumption | with_reducible refine inv_withFormats _ _ _ _ (fun _ _ => ?_) ?_)
theorem inv_execFcvtFi (r : FltRec) {s : State} (hI : Inv s) : InvO (execFcvtFi r s) := by
  unfold execFcvtFi
  repeat' (first | assumption | with_reducible refine inv_toInt _ _ _ _ ?_)
theorem inv_execFcvtFiu (r : FltRec) {s : State} (hI : Inv s) : InvO (execFcvtFiu r s) := by
  unfold execFcvtFiu
  repeat' (first | assumption | with_reducible refine inv_toInt _ _ _ _ ?_)
theorem inv_fromInt (i : Instr) (dst : BitVec 5) (r : FltRec) (n : W64 → Int) {s : State}
    (hI : Inv s) : InvO (fromInt i dst r n s) := by
  unfold fromInt
  repeat' (first | assumption | with_reducible refine inv_withFormats _ _ _ _ (fun _ _ => ?_) ?_)
theorem inv_execFcvtIf (dst : BitVec 5) (r : FltRec) {s : State} (hI : Inv s) : InvO (execFcvtIf dst r s) := by
  unfold execFcvtIf
  repeat' (first | assumption | with_reducible refine inv_fromInt _ _ _ _ ?_)
theorem inv_execFcvtIuf (dst : BitVec 5) (r : FltRec) {s : State} (hI : Inv s) : InvO (execFcvtIuf dst r s) := by
  unfold execFcvtIuf
  repeat' (first | assumption | with_reducible refine inv_fromInt _ _ _ _ ?_)
theorem inv_execFrnd (m : Rm) (r : FltRec) {s : State} (hI : Inv s) : InvO (execFrnd m r s) := by
  unfold execFrnd
  repeat' (first | assumption | with_reducible refine inv_fltOp _ _ _ ?_)
theorem inv_execFscl (r : FltRec) {s : State} (hI : Inv s) : InvO (execFscl r s) := by
  unfold execFscl
  repeat' (first | assumption | with_reducible refine inv_fltOp _ _ _ ?_)
theorem inv_execFxp (r : FltRec) {s : State} (hI : Inv s) : InvO (execFxp r s) := by
  unfold execFxp
  repeat' (first | assumption | with_reducible refine inv_fltOp _ _ _ ?_)
theorem inv_moveOp (i : Instr) (r : VecRec) (f : Nat → Nat → State → W256) {s : State}
    (hI : Inv s) : InvO (moveOp i r f s) := by
  unfold moveOp
  repeat' (first | assumption | with_reducible refine inv_withFormats _ _ _ _ (fun _ _ => ?_) ?_)
theorem inv_execVbcast (r : VecRec) {s : State} (hI : Inv s) : InvO (execVbcast r s) := by
  unfold execVbcast
  repeat' (first | assumption | with_reducible refine inv_moveOp _ _ _ ?_)
theorem inv_execVlaneGet (r : VecRec) {s : State} (hI : Inv s) : InvO (execVlaneGet r s) := by
  unfold execVlaneGet
  repeat' (first | assumption | with_reducible refine inv_moveOp _ _ _ ?_)
theorem inv_execVlanePut (r : VecRec) {s : State} (hI : Inv s) : InvO (execVlanePut r s) := by
  unfold execVlanePut
  repeat' (first | assumption | with_reducible refine inv_moveOp _ _ _ ?_)
theorem inv_execVshuf (pat : W32) (r : VecRec) {s : State} (hI : Inv s) : InvO (execVshuf pat r s) := by
  unfold execVshuf
  repeat' (first | assumption | with_reducible refine inv_moveOp _ _ _ ?_)
theorem inv_execVperm (r : VecRec) {s : State} (hI : Inv s) : InvO (execVperm r s) := by
  unfold execVperm
  repeat' (first
        | assumption | with_reducible refine inv_withFormats _ _ _ _ (fun _ _ => ?_) ?_ | with_reducible refine inv_ite ?_ ?_)
theorem inv_execVmask (r : VecRec) {s : State} (hI : Inv s) : InvO (execVmask r s) := by
  unfold execVmask
  repeat' (first | assumption | with_reducible refine inv_moveOp _ _ _ ?_)
theorem inv_execVsel (r : VecRec) {s : State} (hI : Inv s) : InvO (execVsel r s) := by
  unfold execVsel
  repeat' (first | assumption | with_reducible refine inv_moveOp _ _ _ ?_)
theorem inv_laneOp (i : Instr) (slots : List Nat) (body : State → State) {s : State}
    (hbody : ∀ a0, Inv a0 → Inv (body a0)) (hI : Inv s) : InvO (laneOp i slots body s) := by
  unfold laneOp
  repeat' (first
        | assumption | with_reducible refine hbody _ ?_ | with_reducible refine inv_withFormats _ _ _ _ (fun _ _ => ?_) ?_)
theorem inv_emitFl (i : Instr) (x : Nat × Flags) {s : State} (hI : Inv s) : Inv (emitFl i x s) := by
  unfold emitFl
  repeat' assumption
theorem inv_execVredAdd (r : VecRec) {s : State} (hI : Inv s) : InvO (execVredAdd r s) := by
  unfold execVredAdd
  repeat' (first | assumption | with_reducible refine inv_laneOp _ _ _ (fun _ _ => ?_) ?_)
theorem inv_execVdot (r : VecRec) {s : State} (hI : Inv s) : InvO (execVdot r s) := by
  unfold execVdot
  repeat' (first | assumption | with_reducible refine inv_laneOp _ _ _ (fun _ _ => ?_) ?_)
theorem inv_vredPick (i : Instr) (r : VecRec) (pre : Val → Val) (better : Val → Val → Bool) {s : State}
    (hI : Inv s) : InvO (vredPick i r pre better s) := by
  unfold vredPick
  repeat' (first | assumption | with_reducible refine inv_laneOp _ _ _ (fun _ _ => ?_) ?_)
theorem inv_execVredMax (r : VecRec) {s : State} (hI : Inv s) : InvO (execVredMax r s) := by
  unfold execVredMax
  repeat' (first | assumption | with_reducible refine inv_vredPick _ _ _ _ ?_)
theorem inv_execVredMin (r : VecRec) {s : State} (hI : Inv s) : InvO (execVredMin r s) := by
  unfold execVredMin
  repeat' (first | assumption | with_reducible refine inv_vredPick _ _ _ _ ?_)
theorem inv_execVredAmax (r : VecRec) {s : State} (hI : Inv s) : InvO (execVredAmax r s) := by
  unfold execVredAmax
  repeat' (first | assumption | with_reducible refine inv_vredPick _ _ _ _ ?_)
theorem inv_execVscan (r : VecRec) {s : State} (hI : Inv s) : InvO (execVscan r s) := by
  unfold execVscan
  repeat' (first | assumption | with_reducible refine inv_laneOp _ _ _ (fun _ _ => ?_) ?_)
theorem inv_execVpack (dst : BitVec 5) (r : VecRec) {s : State} (hI : Inv s) : InvO (execVpack dst r s) := by
  unfold execVpack
  repeat' (first
        | assumption | with_reducible refine inv_laneOp _ _ _ (fun _ _ => ?_) ?_ | with_reducible refine inv_ite ?_ ?_)
theorem inv_execVunpk (dst : BitVec 5) (hi : Bool) (r : VecRec) {s : State} (hI : Inv s) : InvO (execVunpk dst hi r s) := by
  unfold execVunpk
  repeat' (first
        | assumption | with_reducible refine inv_laneOp _ _ _ (fun _ _ => ?_) ?_ | with_reducible refine inv_ite ?_ ?_)
theorem inv_scaleOp (i : Instr) (slots : List Nat) (scl : State → List (Nat × (W64 → Bool))) (body : State → State) {s : State}
    (hbody : ∀ a0, Inv a0 → Inv (body a0)) (hI : Inv s) : InvO (scaleOp i slots scl body s) := by
  unfold scaleOp
  repeat' (first
        | assumption | with_reducible refine hbody _ ?_ | with_reducible refine inv_laneOp _ _ _ (fun _ _ => ?_) ?_
        | with_reducible refine inv_ite ?_ ?_ | split)
theorem inv_execVbexp (scl : BitVec 5) (r : VecRec) {s : State} (hI : Inv s) : InvO (execVbexp scl r s) := by
  unfold execVbexp
  repeat' (first | assumption | with_reducible refine inv_scaleOp _ _ _ _ (fun _ _ => ?_) ?_)
theorem inv_execVqnt (dst : BitVec 5) (r : VecRec) {s : State} (hI : Inv s) : InvO (execVqnt dst r s) := by
  unfold execVqnt
  repeat' (first
        | assumption | with_reducible refine inv_scaleOp _ _ _ _ (fun _ _ => ?_) ?_ | with_reducible refine inv_ite ?_ ?_)
theorem inv_execVdqnt (dst : BitVec 5) (r : VecRec) {s : State} (hI : Inv s) : InvO (execVdqnt dst r s) := by
  unfold execVdqnt
  repeat' (first
        | assumption | with_reducible refine inv_scaleOp _ _ _ _ (fun _ _ => ?_) ?_ | with_reducible refine inv_ite ?_ ?_)

end Sys2Proof.Machine
end

