-- ==== Sys2Proof/Laws/InvCoherence.lean ====
section
/-! SUPPORT. The invariant of Safety.lean passes through every function over states: memory sectors, caches and coherence, translation and peers. -/
set_option linter.unusedSimpArgs false
namespace Sys2Proof.Machine

theorem inv_count (k : Nat) {s : State} (hI : Inv s) : Inv (count k s) := by
  unfold count
  repeat' (first | assumption | with_reducible refine invOf_ctrs _ _ ?_ | simp only [inv_mk, invOf_self])
theorem inv_logEvent (k : Nat) (die : Nat) (unit : Nat) (pa : Nat) {s : State}
    (hI : Inv s) : Inv (logEvent k die unit pa s) := by
  unfold logEvent
  repeat' assumption
theorem inv_countLog (k : Nat) (die : Nat) (unit : Nat) (pa : Nat) {s : State}
    (hI : Inv s) : Inv (countLog k die unit pa s) := by
  unfold countLog
  repeat' (first | assumption | with_reducible refine inv_logEvent _ _ _ _ ?_ | with_reducible refine inv_count _ ?_)
theorem inv_reportHole (cl : Nat) (pa : Nat) {s : State} (hI : Inv s) : Inv (reportHole cl pa s) := by
  unfold reportHole
  repeat' (first | assumption | with_reducible refine inv_countLog _ _ _ _ ?_ | with_reducible refine inv_ite ?_ ?_)
theorem inv_reportHoleBy (w : Who) (pa : Nat) {s : State} (hI : Inv s) : Inv (reportHoleBy w pa s) := by
  unfold reportHoleBy
  repeat' (first
         | assumption | with_reducible refine inv_countLog _ _ _ _ ?_ | with_reducible refine inv_reportHole _ _ ?_
         | with_reducible refine inv_ite ?_ ?_ | with_reducible refine inv_ite_snd ?_ ?_ | with_reducible refine inv_ite_fst ?_ ?_
         | with_reducible refine invO_ite ?_ ?_ | with_reducible refine inv_foldl (fun _ _ _ => ?_) _ ?_
         | with_reducible refine inv_foldl_snd (fun _ _ _ => ?_) _ ?_ | with_reducible refine inv_foldl_fst (fun _ _ _ => ?_) _ ?_
         | with_reducible refine invOf_mem _ _ ?_ | with_reducible refine invOf_memFilter _ ?_ | with_reducible refine invOf_tiles _ _ ?_
         | with_reducible refine invOf_tilesFilter _ ?_ | with_reducible refine invOf_tilesClear _ _ ?_
         | with_reducible refine invOf_ctrs _ _ ?_ | simp only [inv_mk, invOf_self] | rw [invO_next] | split)
theorem inv_setPsn (b : Bool) (sec : Nat) {s : State} (hI : Inv s) : Inv (setPsn b sec s) := by
  unfold setPsn
  repeat' assumption
theorem inv_formMeta (sec : Nat) {s : State} (hI : Inv s) : Inv (formMeta sec s) := by
  unfold formMeta
  repeat' (first
         | assumption | with_reducible refine inv_ite ?_ ?_ | with_reducible refine inv_ite_snd ?_ ?_
         | with_reducible refine inv_ite_fst ?_ ?_ | with_reducible refine invO_ite ?_ ?_
         | with_reducible refine inv_foldl (fun _ _ _ => ?_) _ ?_ | with_reducible refine inv_foldl_snd (fun _ _ _ => ?_) _ ?_
         | with_reducible refine inv_foldl_fst (fun _ _ _ => ?_) _ ?_ | with_reducible refine invOf_mem _ _ ?_
         | with_reducible refine invOf_memFilter _ ?_ | with_reducible refine invOf_tiles _ _ ?_
         | with_reducible refine invOf_tilesFilter _ ?_ | with_reducible refine invOf_tilesClear _ _ ?_
         | with_reducible refine invOf_ctrs _ _ ?_ | simp only [inv_mk, invOf_self] | rw [invO_next] | split)
theorem inv_uncorrectable (sec : Nat) {s : State} (hI : Inv s) : Inv (uncorrectable sec s) := by
  unfold uncorrectable
  repeat' (first
         | assumption | with_reducible refine inv_countLog _ _ _ _ ?_ | with_reducible refine inv_setPsn _ _ ?_
         | with_reducible refine inv_formMeta _ ?_ | with_reducible refine inv_ite ?_ ?_ | with_reducible refine inv_ite_snd ?_ ?_
         | with_reducible refine inv_ite_fst ?_ ?_ | with_reducible refine invO_ite ?_ ?_
         | with_reducible refine inv_foldl (fun _ _ _ => ?_) _ ?_ | with_reducible refine inv_foldl_snd (fun _ _ _ => ?_) _ ?_
         | with_reducible refine inv_foldl_fst (fun _ _ _ => ?_) _ ?_ | with_reducible refine invOf_mem _ _ ?_
         | with_reducible refine invOf_memFilter _ ?_ | with_reducible refine invOf_tiles _ _ ?_
         | with_reducible refine invOf_tilesFilter _ ?_ | with_reducible refine invOf_tilesClear _ _ ?_
         | with_reducible refine invOf_ctrs _ _ ?_ | simp only [inv_mk, invOf_self] | rw [invO_next] | split)
theorem inv_channelGone (sec : Nat) {s : State} (hI : Inv s) : Inv (channelGone sec s) := by
  unfold channelGone
  repeat' (first
         | assumption | with_reducible refine inv_countLog _ _ _ _ ?_ | with_reducible refine inv_ite ?_ ?_
         | with_reducible refine inv_ite_snd ?_ ?_ | with_reducible refine inv_ite_fst ?_ ?_ | with_reducible refine invO_ite ?_ ?_
         | with_reducible refine inv_foldl (fun _ _ _ => ?_) _ ?_ | with_reducible refine inv_foldl_snd (fun _ _ _ => ?_) _ ?_
         | with_reducible refine inv_foldl_fst (fun _ _ _ => ?_) _ ?_ | with_reducible refine invOf_mem _ _ ?_
         | with_reducible refine invOf_memFilter _ ?_ | with_reducible refine invOf_tiles _ _ ?_
         | with_reducible refine invOf_tilesFilter _ ?_ | with_reducible refine invOf_tilesClear _ _ ?_
         | with_reducible refine invOf_ctrs _ _ ?_ | simp only [inv_mk, invOf_self] | rw [invO_next] | split)
theorem inv_treeUpdate (g : Nat) (x1 : Nat) (x2 : Nat) {s : State} (hI : Inv s) : Inv (treeUpdate g x1 x2 s) := by
  fun_induction treeUpdate g x1 x2 s
  all_goals repeat' (first
         | assumption | with_reducible apply_assumption | with_reducible refine inv_ite ?_ ?_ | with_reducible refine inv_ite_snd ?_ ?_
         | with_reducible refine inv_ite_fst ?_ ?_ | with_reducible refine invO_ite ?_ ?_
         | with_reducible refine inv_foldl (fun _ _ _ => ?_) _ ?_ | with_reducible refine inv_foldl_snd (fun _ _ _ => ?_) _ ?_
         | with_reducible refine inv_foldl_fst (fun _ _ _ => ?_) _ ?_ | with_reducible refine invOf_mem _ _ ?_
         | with_reducible refine invOf_memFilter _ ?_ | with_reducible refine invOf_tiles _ _ ?_
         | with_reducible refine invOf_tilesFilter _ ?_ | with_reducible refine invOf_tilesClear _ _ ?_
         | with_reducible refine invOf_ctrs _ _ ?_ | simp only [inv_mk, invOf_self] | rw [invO_next] | split)
theorem inv_cacheNodes (l : List (Nat × Nat)) {s : State} (hI : Inv s) : Inv (cacheNodes l s) := by
  unfold cacheNodes
  repeat' (first
         | assumption | with_reducible refine inv_ite ?_ ?_ | with_reducible refine inv_ite_snd ?_ ?_
         | with_reducible refine inv_ite_fst ?_ ?_ | with_reducible refine invO_ite ?_ ?_
         | with_reducible refine inv_foldl (fun _ _ _ => ?_) _ ?_ | with_reducible refine inv_foldl_snd (fun _ _ _ => ?_) _ ?_
         | with_reducible refine inv_foldl_fst (fun _ _ _ => ?_) _ ?_ | with_reducible refine invOf_mem _ _ ?_
         | with_reducible refine invOf_memFilter _ ?_ | with_reducible refine invOf_tiles _ _ ?_
         | with_reducible refine invOf_tilesFilter _ ?_ | with_reducible refine invOf_tilesClear _ _ ?_
         | with_reducible refine invOf_ctrs _ _ ?_ | simp only [inv_mk, invOf_self] | rw [invO_next] | split)
theorem inv_integFail (sec : Nat) {s : State} (hI : Inv s) : Inv (integFail sec s) := by
  unfold integFail
  repeat' (first | assumption | with_reducible refine inv_countLog _ _ _ _ ?_)
theorem inv_macFail (sec : Nat) {s : State} (hI : Inv s) : Inv (macFail sec s) := by
  unfold macFail
  repeat' (first
         | assumption | with_reducible refine inv_integFail _ ?_ | with_reducible refine inv_setPsn _ _ ?_
         | with_reducible refine inv_formMeta _ ?_)
theorem inv_integFetch (key : Nat) (sec : Nat) {s : State} (hI : Inv s) : Inv (integFetch key sec s).2 := by
  unfold integFetch
  repeat' (first
         | assumption | with_reducible refine inv_macFail _ ?_ | with_reducible refine inv_cacheNodes _ ?_
         | with_reducible refine inv_integFail _ ?_ | with_reducible refine inv_ite ?_ ?_ | with_reducible refine inv_ite_snd ?_ ?_
         | with_reducible refine inv_ite_fst ?_ ?_ | simp only [inv_mk, invOf_self] | split)
theorem inv_burstOver (sec : Nat) {s : State} (hI : Inv s) : Inv (burstOver sec s) := by
  unfold burstOver
  repeat' (first | assumption | with_reducible refine inv_ite ?_ ?_ | simp only [inv_mk, invOf_self])
theorem inv_hbmFetch (key : Nat) (sec : Nat) {s : State} (hI : Inv s) : Inv (hbmFetch key sec s).2 := by
  unfold hbmFetch
  repeat' (first
         | assumption | with_reducible refine inv_integFetch _ _ ?_ | with_reducible refine inv_uncorrectable _ ?_ | with_reducible refine inv_burstOver _ ?_
         | with_reducible refine inv_channelGone _ ?_ | with_reducible refine inv_ite ?_ ?_ | with_reducible refine inv_ite_snd ?_ ?_
         | simp only [inv_mk, invOf_self] | split)
theorem inv_reencrypt (key : Nat) (grp : Nat) (oldMaj : Nat) (newMaj : Nat) (but_ : Nat) (minors : List Nat) {s : State}
    (hI : Inv s) : Inv (reencrypt key grp oldMaj newMaj but_ minors s) := by
  refine inv_foldl (fun s x h => ?_) _ hI
  refine inv_formMeta _ ?_
  rw [inv_mk]
  exact invOf_mem _ _ (inv_ite h (inv_macFail _ h))
theorem inv_integStore (key : Nat) (sec : Nat) (plain : List Byte) {s : State}
    (hI : Inv s) : Inv (integStore key sec plain s) := by
  unfold integStore
  extract_lets g i wrap mn maj t stored
  have ht : Inv t := inv_ite (inv_reencrypt _ _ _ _ _ _ hI) hI
  clear_value t stored
  refine inv_treeUpdate _ _ _ ?_
  rw [inv_mk]
  exact invOf_mem _ _ ht
theorem inv_hbmStore (key : Nat) (sec : Nat) (d : List W32) (pz : BitVec 16) {s : State} (hI : Inv s) : Inv (hbmStore key sec d pz s) := by
  unfold hbmStore
  repeat' (first
         | assumption | with_reducible refine inv_integStore _ _ _ ?_ | with_reducible refine inv_formMeta _ ?_
         | with_reducible refine inv_setPsn _ _ ?_ | with_reducible refine inv_channelGone _ ?_ | with_reducible refine inv_ite ?_ ?_
         | with_reducible refine inv_burstOver _ ?_ | with_reducible refine invOf_mem _ _ ?_ | with_reducible refine invOf_tiles _ _ ?_ | simp only [inv_mk, invOf_self] | split)
theorem inv_l1wDel (cl : Nat) (pa : Nat) {s : State} (hI : Inv s) : Inv (l1wDel cl pa s) := by
  unfold l1wDel
  repeat' assumption
theorem inv_l1wPut (x : L1Word) {s : State} (hI : Inv s) : Inv (l1wPut x s) := by
  unfold l1wPut
  repeat' assumption
theorem inv_regPut (r : RegRec) {s : State} (hI : Inv s) : Inv (regPut r s) := by
  unfold regPut
  repeat' assumption
theorem inv_l2Drop (sec : Nat) {s : State} (hI : Inv s) : Inv (l2Drop sec s) := by
  unfold l2Drop
  repeat' assumption
theorem inv_l2Put (x : L2Sec) {s : State} (hI : Inv s) : Inv (l2Put x s) := by
  unfold l2Put
  repeat' assumption
theorem inv_l2Clean (x : L2Sec) {s : State} (hI : Inv s) : Inv (l2Clean x s) := by
  unfold l2Clean
  repeat' (first
        | assumption | with_reducible refine inv_l2Put _ ?_ | with_reducible refine inv_hbmStore _ _ _ _ ?_
        | with_reducible refine inv_ite ?_ ?_)
theorem inv_l2Out (sec : Nat) {s : State} (hI : Inv s) : Inv (l2Out sec s) := by
  unfold l2Out
  repeat' (first
        | assumption | with_reducible refine inv_l2Drop _ ?_ | with_reducible refine inv_hbmStore _ _ _ _ ?_
        | with_reducible refine inv_ite ?_ ?_ | split)
theorem inv_l2Under (key : Nat) (x : L2Sec) {s : State} (hI : Inv s) : Inv (l2Under key x s).2 :=
  inv_ite_snd hI (inv_l2Put _ (inv_hbmFetch _ _ (inv_l2Out _ hI)))
theorem inv_recallInto (sec : Nat) {s : State} (w : Nat) (hI : Inv s) : Inv (recallInto sec s w) := by
  unfold recallInto
  split
  · exact inv_regPut _ (inv_foldl (fun _ _ h => inv_ite (inv_regPut _ h) h) _ (inv_l1wPut _ (inv_l2Put _ (inv_l2Under _ _ hI))))
  · exact hI
theorem inv_l2Make (sec : Nat) {s : State} (hI : Inv s) : Inv (l2Make sec s) := by
  unfold l2Make
  refine inv_ite hI ?_
  split
  · exact inv_foldl (fun _ _ h => inv_l2Out _ (inv_foldl (fun _ _ h => inv_recallInto _ _ h) _ h)) _ hI
  · exact hI
theorem inv_l2Get (key : Nat) (sec : Nat) {s : State} (hI : Inv s) : Inv (l2Get key sec s).2 := by
  unfold l2Get
  repeat' (first
         | assumption | with_reducible refine inv_l2Under _ _ ?_ | with_reducible refine inv_l2Make _ ?_ | with_reducible refine inv_l2Put _ ?_
         | with_reducible refine inv_hbmFetch _ _ ?_ | with_reducible refine inv_l2Out _ ?_ | with_reducible refine inv_ite ?_ ?_
         | with_reducible refine inv_ite_snd ?_ ?_ | simp only [inv_mk, invOf_self] | split)
theorem inv_l2Write (key : Nat) (pa : Nat) (bs : List Byte) {s : State} (hI : Inv s) : Inv (l2Write key pa bs s) := by
  unfold l2Write
  repeat' (first | assumption | with_reducible refine inv_l2Get _ _ ?_ | with_reducible refine inv_l2Put _ ?_)
theorem inv_l2Poison (key : Nat) (pa : Nat) {s : State} (hI : Inv s) : Inv (l2Poison key pa s) := by
  unfold l2Poison
  repeat' (first | assumption | with_reducible refine inv_l2Get _ _ ?_ | with_reducible refine inv_l2Put _ ?_)
theorem inv_l2WritePoisoned (key : Nat) (pa : Nat) (bs : List Byte) {s : State}
    (hI : Inv s) : Inv (l2WritePoisoned key pa bs s) := by
  unfold l2WritePoisoned
  repeat' (first | assumption | with_reducible refine inv_l2Poison _ _ ?_ | with_reducible refine inv_l2Write _ _ _ ?_)
theorem inv_sendMsg (src : Agent) (dst : Agent) (sec : Nat) (key : Nat) (b : Body) {s : State}
    (hI : Inv s) : Inv (sendMsg src dst sec key b s) := by
  unfold sendMsg
  repeat' assumption
theorem inv_dropMsg (n : Nat) {s : State} (hI : Inv s) : Inv (dropMsg n s) := by
  unfold dropMsg
  repeat' assumption
theorem inv_holdMsg (n : Nat) {s : State} (hI : Inv s) : Inv (holdMsg n s) := by
  unfold holdMsg
  repeat' (first | assumption | with_reducible refine inv_ite ?_ ?_ | simp only [inv_mk, invOf_self] | split)
theorem inv_markPlaced (cl : Nat) (sec : Nat) (w : Nat) {s : State} (hI : Inv s) : Inv (markPlaced cl sec w s) := by
  unfold markPlaced
  repeat' (first
         | assumption | with_reducible refine inv_ite ?_ ?_ | with_reducible refine inv_ite_snd ?_ ?_
         | with_reducible refine inv_ite_fst ?_ ?_ | with_reducible refine invO_ite ?_ ?_
         | with_reducible refine inv_foldl (fun _ _ _ => ?_) _ ?_ | with_reducible refine inv_foldl_snd (fun _ _ _ => ?_) _ ?_
         | with_reducible refine inv_foldl_fst (fun _ _ _ => ?_) _ ?_ | with_reducible refine invOf_mem _ _ ?_
         | with_reducible refine invOf_memFilter _ ?_ | with_reducible refine invOf_tiles _ _ ?_
         | with_reducible refine invOf_tilesFilter _ ?_ | with_reducible refine invOf_tilesClear _ _ ?_
         | with_reducible refine invOf_ctrs _ _ ?_ | simp only [inv_mk, invOf_self] | rw [invO_next] | split)
theorem inv_invalidateV (cl : Nat) (p : L1Word → Bool) {s : State} (hI : Inv s) : Inv (invalidateV cl p s) := by
  unfold invalidateV
  repeat' assumption
theorem inv_acquireL1 (cl : Nat) {s : State} (hI : Inv s) : Inv (acquireL1 cl s) := by
  unfold acquireL1
  repeat' assumption
theorem inv_resolveOne (g : GWait) {s : State} (hI : Inv s) : Inv (resolveOne g s) := by
  unfold resolveOne
  repeat' (first | assumption | with_reducible refine inv_ite ?_ ?_)
theorem inv_resolveAll (x0 : Nat) {s : State} (hI : Inv s) : Inv (resolveAll x0 s) := by
  fun_induction resolveAll x0 s
  all_goals repeat' (first | assumption | with_reducible apply_assumption | with_reducible refine inv_resolveOne _ ?_)
theorem inv_resolve {s : State} (hI : Inv s) : Inv (resolve s) := by
  unfold resolve
  repeat' (first | assumption | with_reducible refine inv_resolveAll _ ?_)
theorem inv_putAnswer (pl : Option Nat) (pa : Nat) (a : Agent) (v : Part) {s : State} (hI : Inv s) : Inv (putAnswer pl pa a v s) := by
  unfold putAnswer
  repeat' (first | assumption | simp only [inv_mk, invOf_self])
theorem inv_addWait (g : GWait) {s : State} (hI : Inv s) : Inv (addWait g s) := by
  unfold addWait
  repeat' assumption
theorem inv_setDirb (sec : Nat) (b : Byte) {s : State} (hI : Inv s) : Inv (setDirb sec b s) := by
  unfold setDirb
  repeat' assumption
theorem inv_sendBisnp (sec : Nat) (inv : Bool) {s : State} (hI : Inv s) : Inv (sendBisnp sec inv s) := by
  unfold sendBisnp
  repeat' (first | assumption | with_reducible refine inv_ite ?_ ?_)
theorem inv_placedBy (pl : Option Nat) (frm : Agent) (old : Option Agent) (sec : Nat) (w : Nat) {s : State} (hI : Inv s) : Inv
    (placedBy pl frm old sec w s) := by
  unfold placedBy
  repeat' (first
         | assumption | with_reducible refine inv_markPlaced _ _ _ ?_ | with_reducible refine inv_ite ?_ ?_
         | with_reducible refine inv_foldl (fun _ _ _ => ?_) _ ?_ | split)
theorem inv_regWord (pl : Option Nat) (frm : Agent) (sec : Nat) (key : Nat) (code : BitVec 2) (x : State × RegAcc) (wm : Nat ×
    BitVec 4) (hx : Inv x.1) : Inv (regWord pl frm sec key code x wm).1 := by
  unfold regWord
  repeat' (first
         | assumption | with_reducible refine inv_addWait _ ?_ | with_reducible refine inv_l2Put _ ?_
         | with_reducible refine inv_l2Get _ _ ?_ | with_reducible refine inv_regPut _ ?_ | with_reducible refine inv_placedBy _ _ _ _ _ ?_
         | with_reducible refine inv_ite ?_ ?_ | with_reducible refine inv_ite_snd ?_ ?_ | with_reducible refine inv_ite_fst ?_ ?_
         | simp only [inv_mk, invOf_self] | split)
theorem inv_sendGrouped (src : Agent) (sec : Nat) (key : Nat) (mk : List Nat → Body) (x4 : List (Agent × Nat)) (x5 : List Agent) {s : State}
    (hI : Inv s) : Inv (sendGrouped src sec key mk x4 x5 s) := by
  fun_induction sendGrouped src sec key mk x4 x5 s
  all_goals repeat' (first | assumption | with_reducible apply_assumption)
theorem inv_regPerform (pl : Option Nat) (frm : Agent) (sec : Nat) (key : Nat) (code : BitVec 2) (ws : List (Nat × BitVec 4)) {s :
    State} (hI : Inv s) : Inv (regPerform pl frm sec key code ws s) := by
  unfold regPerform
  repeat' (first
         | assumption | with_reducible refine inv_sendMsg _ _ _ _ _ ?_ | with_reducible refine inv_sendGrouped _ _ _ _ _ _ ?_
         | with_reducible refine inv_regWord _ _ _ _ _ _ _ ?_ | with_reducible refine inv_ite ?_ ?_
         | with_reducible refine inv_ite_snd ?_ ?_ | with_reducible refine inv_ite_fst ?_ ?_
         | with_reducible refine inv_foldl (fun _ _ _ => ?_) _ ?_ | with_reducible refine inv_foldl_snd (fun _ _ _ => ?_) _ ?_
         | with_reducible refine inv_foldl_fst (fun _ _ _ => ?_) _ ?_ | simp only [inv_mk, invOf_self] | split)
theorem inv_registrationAt (n : Nat) (m : Msg) (ws : List (Nat × BitVec 4)) {s : State}
    (hI : Inv s) : Inv (registrationAt n m ws s) := by
  unfold registrationAt
  repeat' (first
        | assumption | with_reducible refine inv_holdMsg _ ?_ | with_reducible refine inv_sendBisnp _ _ ?_
        | with_reducible refine inv_regPerform _ _ _ _ _ _ ?_ | with_reducible refine inv_regPut _ ?_
        | with_reducible refine inv_ite ?_ ?_ | simp only [inv_mk, invOf_self] | split)
theorem inv_execRegistration (n : Nat) {s : State} (hI : Inv s) : InvO (execRegistration n s) := by
  unfold execRegistration
  repeat' (first | assumption | with_reducible refine inv_registrationAt _ _ _ ?_ | rw [invO_next] | split)
theorem inv_acksDone {s : State} (hI : Inv s) : Inv (acksDone s) := by
  unfold acksDone
  repeat' assumption
theorem inv_grantWord (cl : Nat) (sec : Nat) {s : State} (g : Nat × W32 × Bool)
    (hI : Inv s) : Inv (grantWord cl sec s g) := by
  unfold grantWord
  repeat' (first | assumption | with_reducible refine inv_ite ?_ ?_ | simp only [inv_mk, invOf_self] | split)
theorem inv_captureFwd (cl : Nat) (sec : Nat) (ws : List Nat) {s : State} (hI : Inv s) : Inv (captureFwd cl sec ws s) := by
  unfold captureFwd
  repeat' (first
         | assumption | with_reducible refine inv_ite ?_ ?_ | with_reducible refine inv_ite_snd ?_ ?_
         | with_reducible refine inv_ite_fst ?_ ?_ | with_reducible refine invO_ite ?_ ?_
         | with_reducible refine inv_foldl (fun _ _ _ => ?_) _ ?_ | with_reducible refine inv_foldl_snd (fun _ _ _ => ?_) _ ?_
         | with_reducible refine inv_foldl_fst (fun _ _ _ => ?_) _ ?_ | with_reducible refine invOf_mem _ _ ?_
         | with_reducible refine invOf_memFilter _ ?_ | with_reducible refine invOf_tiles _ _ ?_
         | with_reducible refine invOf_tilesFilter _ ?_ | with_reducible refine invOf_tilesClear _ _ ?_
         | with_reducible refine invOf_ctrs _ _ ?_ | simp only [inv_mk, invOf_self] | rw [invO_next] | split)
theorem inv_captureBack (pl : Option Nat) (src : Agent) (sec : Nat) (w : Nat) (p : Part) {s : State} (hI : Inv s) : Inv
    (captureBack pl src sec w p s) := by
  unfold captureBack
  repeat' (first | assumption | simp only [inv_mk, invOf_self] | split)
theorem inv_dropOwned (cl : Nat) (pa : Nat) {s : State} (hI : Inv s) : Inv (dropOwned cl pa s) := by
  unfold dropOwned
  repeat' (first | assumption | with_reducible refine inv_ite ?_ ?_ | split)
theorem inv_revokeRdc (d : Nat) (sec : Nat) (key : Nat) {s : State} (w : Nat)
    (hI : Inv s) : Inv (revokeRdc d sec key s w) := by
  unfold revokeRdc
  repeat' (first | assumption | simp only [inv_mk, invOf_self] | split)
theorem inv_revokeAt (n : Nat) (m : Msg) (ws : List Nat) {s : State} (hI : Inv s) : Inv (revokeAt n m ws s) := by
  unfold revokeAt
  repeat' (first
        | assumption | with_reducible refine inv_sendMsg _ _ _ _ _ ?_ | with_reducible refine inv_dropOwned _ _ ?_
        | with_reducible refine inv_revokeRdc _ _ _ _ ?_ | with_reducible refine inv_foldl (fun _ _ _ => ?_) _ ?_
        | simp only [inv_mk, invOf_self] | split)
theorem inv_execRevoke (n : Nat) {s : State} (hI : Inv s) : InvO (execRevoke n s) := by
  unfold execRevoke
  repeat' (first | assumption | with_reducible refine inv_revokeAt _ _ _ ?_ | rw [invO_next] | split)
theorem inv_answerAt (n : Nat) (m : Msg) (ws : List (Nat × Part)) (more : Bool) {s : State} (hI : Inv s) : Inv (answerAt n m ws more s) := by
  unfold answerAt
  repeat' (first
         | assumption | with_reducible refine inv_resolve ?_ | with_reducible refine inv_regPut _ ?_
         | with_reducible refine inv_putAnswer _ _ _ _ ?_ | with_reducible refine inv_dropMsg _ ?_ | with_reducible refine inv_ite ?_ ?_
         | with_reducible refine inv_ite_snd ?_ ?_ | with_reducible refine inv_ite_fst ?_ ?_
         | with_reducible refine inv_foldl (fun _ _ _ => ?_) _ ?_ | with_reducible refine inv_foldl_snd (fun _ _ _ => ?_) _ ?_
         | with_reducible refine inv_foldl_fst (fun _ _ _ => ?_) _ ?_ | simp only [inv_mk, invOf_self] | split)
theorem inv_execRevokeAnswer (n : Nat) {s : State} (hI : Inv s) : InvO (execRevokeAnswer n s) := by
  unfold execRevokeAnswer
  repeat' (first | assumption | with_reducible refine inv_answerAt _ _ _ _ ?_ | rw [invO_next] | split)
theorem inv_writeBackWords (cl : Nat) (sec : Nat) (ws : List Nat) (toV : Bool) {s : State}
    (hI : Inv s) : Inv (writeBackWords cl sec ws toV s) := by
  unfold writeBackWords
  repeat' (first
        | assumption | with_reducible refine inv_sendMsg _ _ _ _ _ ?_ | with_reducible refine inv_ite ?_ ?_
        | with_reducible refine inv_foldl (fun _ _ _ => ?_) _ ?_)
theorem inv_evictPending (cl : Nat) (sec : Nat) {s : State} (hI : Inv s) : Inv (evictPending cl sec s) := by
  unfold evictPending
  repeat' (first
         | assumption | with_reducible refine inv_writeBackWords _ _ _ _ ?_ | with_reducible refine inv_ite ?_ ?_
         | with_reducible refine inv_ite_snd ?_ ?_ | with_reducible refine inv_ite_fst ?_ ?_ | with_reducible refine invO_ite ?_ ?_
         | with_reducible refine inv_foldl (fun _ _ _ => ?_) _ ?_ | with_reducible refine inv_foldl_snd (fun _ _ _ => ?_) _ ?_
         | with_reducible refine inv_foldl_fst (fun _ _ _ => ?_) _ ?_ | with_reducible refine invOf_mem _ _ ?_
         | with_reducible refine invOf_memFilter _ ?_ | with_reducible refine invOf_tiles _ _ ?_
         | with_reducible refine invOf_tilesFilter _ ?_ | with_reducible refine invOf_tilesClear _ _ ?_
         | with_reducible refine invOf_ctrs _ _ ?_ | simp only [inv_mk, invOf_self] | rw [invO_next] | split)
theorem inv_grantAt (n : Nat) (m : Msg) (ws : List (Nat × W32 × Bool)) {s : State} (hI : Inv s) : Inv (grantAt n m ws s) := by
  unfold grantAt
  repeat' (first
         | assumption | with_reducible refine inv_putAnswer _ _ _ _ ?_ | with_reducible refine inv_resolve ?_
         | with_reducible refine inv_grantWord _ _ _ ?_ | with_reducible refine inv_evictPending _ _ ?_
         | with_reducible refine inv_acksDone ?_ | with_reducible refine inv_dropMsg _ ?_
         | with_reducible refine inv_foldl (fun _ _ _ => ?_) _ ?_ | with_reducible refine inv_foldl_snd (fun _ _ _ => ?_) _ ?_
         | with_reducible refine inv_foldl_fst (fun _ _ _ => ?_) _ ?_ | simp only [inv_mk, invOf_self] | split)
theorem inv_execGrant (n : Nat) {s : State} (hI : Inv s) : InvO (execGrant n s) := by
  unfold execGrant
  repeat' (first | assumption | with_reducible refine inv_grantAt _ _ _ ?_ | rw [invO_next] | split)
theorem inv_evictS (cl : Nat) {s : State} (sec : Nat) (hI : Inv s) : Inv (evictS cl s sec) := by
  unfold evictS
  repeat' (first
         | assumption | with_reducible refine inv_writeBackWords _ _ _ _ ?_ | with_reducible refine inv_invalidateV _ _ ?_
         | with_reducible refine inv_ite ?_ ?_ | simp only [inv_mk, invOf_self] | split)
theorem inv_recallAt (n : Nat) (m : Msg) (ws : List Nat) {s : State} (hI : Inv s) : Inv (recallAt n m ws s) := by
  unfold recallAt
  repeat' (first
         | assumption | with_reducible refine inv_sendGrouped _ _ _ _ _ _ ?_ | with_reducible refine inv_dropMsg _ ?_
         | with_reducible refine inv_writeBackWords _ _ _ _ ?_ | with_reducible refine inv_holdMsg _ ?_
         | with_reducible refine inv_ite ?_ ?_ | simp only [inv_mk, invOf_self] | split)
theorem inv_execRecall (n : Nat) {s : State} (hI : Inv s) : InvO (execRecall n s) := by
  unfold execRecall
  repeat' (first | assumption | with_reducible refine inv_recallAt _ _ _ ?_ | rw [invO_next] | split)
theorem inv_dropRevoke (dst : Agent) (sec : Nat) (w : Nat) {s : State} (hI : Inv s) : Inv (dropRevoke dst sec w s) := by
  unfold dropRevoke
  repeat' (first
         | assumption | with_reducible refine inv_ite ?_ ?_ | with_reducible refine inv_ite_snd ?_ ?_
         | with_reducible refine inv_ite_fst ?_ ?_ | with_reducible refine invO_ite ?_ ?_
         | with_reducible refine inv_foldl (fun _ _ _ => ?_) _ ?_ | with_reducible refine inv_foldl_snd (fun _ _ _ => ?_) _ ?_
         | with_reducible refine inv_foldl_fst (fun _ _ _ => ?_) _ ?_ | with_reducible refine invOf_mem _ _ ?_
         | with_reducible refine invOf_memFilter _ ?_ | with_reducible refine invOf_tiles _ _ ?_
         | with_reducible refine invOf_tilesFilter _ ?_ | with_reducible refine invOf_tilesClear _ _ ?_
         | with_reducible refine invOf_ctrs _ _ ?_ | simp only [inv_mk, invOf_self] | rw [invO_next] | split)
theorem inv_wbWord (pl : Option Nat) (src : Agent) (sec : Nat) (key : Nat) {s : State} (x : Nat × W32 × Bool)
    (hI : Inv s) : Inv (wbWord pl src sec key s x) := by
  unfold wbWord
  repeat' (first
        | assumption | with_reducible refine inv_l2Get _ _ ?_ | with_reducible refine inv_l2Put _ ?_
        | with_reducible refine inv_ite ?_ ?_ | simp only [inv_mk, invOf_self] | split)
theorem inv_writeBackAt (n : Nat) (m : Msg) (ws : List (Nat × W32 × Bool)) {s : State}
    (hI : Inv s) : Inv (writeBackAt n m ws s) := by
  unfold writeBackAt
  repeat' (first
        | assumption | with_reducible refine inv_resolve ?_ | with_reducible refine inv_wbWord _ _ _ _ _ ?_
        | with_reducible refine inv_foldl (fun _ _ _ => ?_) _ ?_)
theorem inv_execWriteBack (n : Nat) {s : State} (hI : Inv s) : InvO (execWriteBack n s) := by
  unfold execWriteBack
  repeat' (first | assumption | with_reducible refine inv_writeBackAt _ _ _ ?_ | rw [invO_next] | split)
theorem inv_forwardRead (src : Agent) (op : Nat) (cl : Nat) (sec : Nat) (key : Nat) (ws : List Nat) (to_ : List (Agent × Nat)) {s
    : State} (hI : Inv s) : Inv (forwardRead src op cl sec key ws to_ s) := by
  unfold forwardRead
  repeat' (first
         | assumption | with_reducible refine inv_sendMsg _ _ _ _ _ ?_ | with_reducible refine inv_sendGrouped _ _ _ _ _ _ ?_
         | with_reducible refine inv_ite ?_ ?_ | with_reducible refine inv_ite_snd ?_ ?_ | with_reducible refine inv_ite_fst ?_ ?_
         | with_reducible refine inv_foldl (fun _ _ _ => ?_) _ ?_ | with_reducible refine inv_foldl_fst (fun _ _ _ => ?_) _ ?_ | split)
theorem inv_l2Quiet (spec : Bool) (key : Nat) (sec : Nat) {s : State} (hI : Inv s) : Inv (l2Quiet spec key sec s).2 := by
  unfold l2Quiet
  repeat' (first
         | assumption | with_reducible refine inv_l2Get _ _ ?_ | with_reducible refine inv_ite ?_ ?_
         | with_reducible refine inv_ite_snd ?_ ?_ | with_reducible refine inv_ite_fst ?_ ?_ | with_reducible refine invO_ite ?_ ?_
         | with_reducible refine inv_foldl (fun _ _ _ => ?_) _ ?_ | with_reducible refine inv_foldl_snd (fun _ _ _ => ?_) _ ?_
         | with_reducible refine inv_foldl_fst (fun _ _ _ => ?_) _ ?_ | with_reducible refine invOf_mem _ _ ?_
         | with_reducible refine invOf_memFilter _ ?_ | with_reducible refine invOf_tiles _ _ ?_
         | with_reducible refine invOf_tilesFilter _ ?_ | with_reducible refine invOf_tilesClear _ _ ?_
         | with_reducible refine invOf_ctrs _ _ ?_ | simp only [inv_mk, invOf_self] | rw [invO_next] | split)
theorem inv_homeReadAt (n : Nat) (m : Msg) (op : Nat) (cl : Nat) (ws : List Nat) {s : State} (hI : Inv s) : Inv (homeReadAt n m op cl ws s) := by
  unfold homeReadAt
  repeat' (first
         | assumption | with_reducible refine inv_l2Quiet _ _ _ ?_ | with_reducible refine inv_sendMsg _ _ _ _ _ ?_
         | with_reducible refine inv_dropMsg _ ?_ | with_reducible refine inv_forwardRead _ _ _ _ _ _ _ ?_
         | with_reducible refine inv_sendBisnp _ _ ?_ | with_reducible refine inv_holdMsg _ ?_ | with_reducible refine inv_ite ?_ ?_
         | with_reducible refine inv_ite_snd ?_ ?_ | simp only [inv_mk, invOf_self] | split)
theorem inv_execHomeRead (n : Nat) {s : State} (hI : Inv s) : InvO (execHomeRead n s) := by
  unfold execHomeRead
  repeat' (first | assumption | with_reducible refine inv_homeReadAt _ _ _ _ _ ?_ | rw [invO_next] | split)
theorem inv_forwardedAt (n : Nat) (m : Msg) (op : Nat) (cl : Nat) (ws : List Nat) (cap : List (Nat × Nat × Part)) {s : State} (hI
    : Inv s) : Inv (forwardedAt n m op cl ws cap s) := by
  unfold forwardedAt
  repeat' (first
         | assumption | with_reducible refine inv_sendMsg _ _ _ _ _ ?_ | with_reducible refine inv_dropMsg _ ?_
         | with_reducible refine inv_forwardRead _ _ _ _ _ _ _ ?_ | with_reducible refine inv_holdMsg _ ?_
         | with_reducible refine inv_ite ?_ ?_ | with_reducible refine inv_ite_snd ?_ ?_ | split)
theorem inv_execForwardedRead (n : Nat) {s : State} (hI : Inv s) : InvO (execForwardedRead n s) := by
  unfold execForwardedRead
  repeat' (first | assumption | with_reducible refine inv_forwardedAt _ _ _ _ _ _ ?_ | simp only [inv_mk, invOf_self] | rw [invO_next] | split)
theorem inv_dirPut (e : DirEnt) {s : State} (hI : Inv s) : Inv (dirPut e s) := by
  unfold dirPut
  repeat' assumption
theorem inv_dirKeep (e : DirEnt) {s : State} (hI : Inv s) : Inv (dirKeep e s) := by
  unfold dirKeep
  repeat' (first
         | assumption | with_reducible refine inv_ite ?_ ?_ | with_reducible refine inv_ite_snd ?_ ?_
         | with_reducible refine inv_ite_fst ?_ ?_ | with_reducible refine invO_ite ?_ ?_
         | with_reducible refine inv_foldl (fun _ _ _ => ?_) _ ?_ | with_reducible refine inv_foldl_snd (fun _ _ _ => ?_) _ ?_
         | with_reducible refine inv_foldl_fst (fun _ _ _ => ?_) _ ?_ | with_reducible refine invOf_mem _ _ ?_
         | with_reducible refine invOf_memFilter _ ?_ | with_reducible refine invOf_tiles _ _ ?_
         | with_reducible refine invOf_tilesFilter _ ?_ | with_reducible refine invOf_tilesClear _ _ ?_
         | with_reducible refine invOf_ctrs _ _ ?_ | simp only [inv_mk, invOf_self] | rw [invO_next] | split)
theorem inv_l1dDel (cl : Nat) (sec : Nat) {s : State} (hI : Inv s) : Inv (l1dDel cl sec s) := by
  unfold l1dDel
  repeat' assumption
theorem inv_l1dPut (x : L1Sec) {s : State} (hI : Inv s) : Inv (l1dPut x s) := by
  unfold l1dPut
  repeat' assumption
theorem inv_rdcDel (d : Nat) (sec : Nat) {s : State} (hI : Inv s) : Inv (rdcDel d sec s) := by
  unfold rdcDel
  repeat' assumption
theorem inv_rdcPut (x : RdcSec) {s : State} (hI : Inv s) : Inv (rdcPut x s) := by
  unfold rdcPut
  repeat' assumption
theorem inv_evictD (cl : Nat) {s : State} (sec : Nat) (hI : Inv s) : Inv (evictD cl s sec) := by
  unfold evictD
  repeat' (first | assumption | with_reducible refine inv_ite ?_ ?_ | simp only [inv_mk, invOf_self] | split)
theorem inv_evictLine (cl : Nat) (line : Nat) {s : State} (hI : Inv s) : Inv (evictLine cl line s) :=
  inv_foldl (fun _ _ h => inv_evictD _ _ (inv_evictS _ _ h)) _ hI
theorem inv_l1Make (cl : Nat) (sec : Nat) {s : State} (hI : Inv s) : Inv (l1Make cl sec s).2 := by
  unfold l1Make
  refine inv_ite_snd hI ?_
  extract_lets l stuck
  generalize (Option.orElse _ _) = o
  cases o with
  | none => exact hI
  | some a =>
    dsimp only
    exact inv_evictLine cl a hI
theorem inv_snoopSet (sec : Nat) (d : Nat) (on : Bool) {s : State} (hI : Inv s) : Inv (snoopSet sec d on s) := by
  unfold snoopSet
  repeat' assumption
theorem inv_takeData (pl : Option Nat) (sec : Nat) (key : Nat) (d : List W32 × BitVec 16) (dirty : Bool) {s : State}
    (hI : Inv s) : Inv (takeData pl sec key d dirty s) := by
  unfold takeData
  repeat' (first
        | assumption | with_reducible refine inv_l2Get _ _ ?_ | with_reducible refine inv_l2Put _ ?_
        | simp only [inv_mk, invOf_self] | split)
theorem inv_placeData (pl : Option Nat) (sec : Nat) (key : Nat) {s : State}
    (hI : Inv s) : Inv (placeData pl sec key s).2 := by
  unfold placeData
  repeat' (first | assumption | with_reducible refine inv_l2Get _ _ ?_ | simp only [inv_mk, invOf_self] | split)
theorem inv_dropWaiting (frm : Agent) (sec : Nat) {s : State} (hI : Inv s) : Inv (dropWaiting frm sec s) := by
  unfold dropWaiting
  repeat' (first | assumption | simp only [inv_mk, invOf_self] | split)
theorem inv_grantSector (pl : Option Nat) (frm : Agent) (k : DReq) (sec : Nat) (key : Nat) {s : State}
    (hI : Inv s) : Inv (grantSector pl frm k sec key s) := by
  unfold grantSector
  repeat' (first
        | assumption | with_reducible refine inv_placeData _ _ _ ?_ | with_reducible refine inv_dirPut _ ?_
        | with_reducible refine inv_setDirb _ _ ?_ | with_reducible refine inv_sendMsg _ _ _ _ _ ?_
        | with_reducible refine inv_ite ?_ ?_ | simp only [inv_mk, invOf_self] | split)
theorem inv_rdcAsk (d : Nat) (k : DReq) (sec : Nat) (key : Nat) {s : State} (hI : Inv s) : Inv (rdcAsk d k sec key s) := by
  unfold rdcAsk
  repeat' (first | assumption | with_reducible refine inv_ite ?_ ?_)
theorem inv_dirServe (pl : Option Nat) (n : Nat) (m : Msg) (k : DReq) {s : State} (hI : Inv s) : Inv (dirServe pl n m k s) := by
  unfold dirServe
  repeat' (first
         | assumption | with_reducible refine inv_sendBisnp _ _ ?_ | with_reducible refine inv_sendMsg _ _ _ _ _ ?_
         | with_reducible refine inv_l2Get _ _ ?_ | with_reducible refine inv_dropMsg _ ?_
         | with_reducible refine inv_grantSector _ _ _ _ _ ?_ | with_reducible refine inv_ite ?_ ?_
         | with_reducible refine inv_ite_snd ?_ ?_ | with_reducible refine inv_foldl (fun _ _ _ => ?_) _ ?_
         | with_reducible refine inv_foldl_snd (fun _ _ _ => ?_) _ ?_ | simp only [inv_mk, invOf_self] | split)
theorem inv_evictEntry (e : DirEnt) {s : State} (hI : Inv s) : Inv (evictEntry e s) := by
  unfold evictEntry
  repeat' (first
        | assumption | with_reducible refine inv_ite ?_ ?_ | with_reducible refine inv_foldl (fun _ _ _ => ?_) _ ?_)
theorem inv_directoryRequestAt (n : Nat) (m : Msg) (k : DReq) {s : State}
    (hI : Inv s) : Inv (directoryRequestAt n m k s) := by
  unfold directoryRequestAt
  repeat' (first
        | assumption | with_reducible refine inv_holdMsg _ ?_ | with_reducible refine inv_evictEntry _ ?_
        | with_reducible refine inv_dirServe _ _ _ _ ?_ | with_reducible refine inv_rdcAsk _ _ _ _ ?_
        | with_reducible refine inv_ite ?_ ?_ | simp only [inv_mk, invOf_self] | split)
theorem inv_execDirectoryRequest (n : Nat) {s : State} (hI : Inv s) : InvO (execDirectoryRequest n s) := by
  unfold execDirectoryRequest
  repeat' (first | assumption | with_reducible refine inv_directoryRequestAt _ _ _ ?_ | rw [invO_next] | split)
theorem inv_rdcAnswer (d : Nat) (m : Msg) {s : State} (hI : Inv s) : Inv (rdcAnswer d m s) := by
  unfold rdcAnswer
  repeat' (first | assumption | with_reducible refine inv_sendMsg _ _ _ _ _ ?_ | simp only [inv_mk, invOf_self] | split)
theorem inv_directoryInvalidateAt (n : Nat) (m : Msg) (share : Bool) {s : State} (hI : Inv s) : Inv (directoryInvalidateAt n m share s) := by
  unfold directoryInvalidateAt
  repeat' (first
         | assumption | with_reducible refine inv_rdcAnswer _ _ ?_ | with_reducible refine inv_holdMsg _ ?_
         | with_reducible refine inv_l1dDel _ _ ?_ | with_reducible refine inv_l1dPut _ ?_ | with_reducible refine inv_sendMsg _ _ _ _ _ ?_
         | with_reducible refine inv_dropMsg _ ?_ | with_reducible refine inv_ite ?_ ?_
         | with_reducible refine inv_foldl (fun _ _ _ => ?_) _ ?_ | simp only [inv_mk, invOf_self] | split)
theorem inv_execDirectoryInvalidate (n : Nat) {s : State} (hI : Inv s) : InvO (execDirectoryInvalidate n s) := by
  unfold execDirectoryInvalidate
  repeat' (first | assumption | with_reducible refine inv_directoryInvalidateAt _ _ _ ?_ | rw [invO_next] | split)
theorem inv_dirForget (pl : Option Nat) (sec : Nat) (x2 : Agent) (gone : Bool) {s : State}
    (hI : Inv s) : Inv (dirForget pl sec x2 gone s) := by
  unfold dirForget
  repeat' (first | assumption | simp only [inv_mk, invOf_self] | split)
theorem inv_dirFinish (w : DWait) {s : State} (hI : Inv s) : Inv (dirFinish w s) := by
  unfold dirFinish
  repeat' (first
        | assumption | with_reducible refine inv_grantSector _ _ _ _ _ ?_ | with_reducible refine inv_rdcAnswer _ _ ?_
        | simp only [inv_mk, invOf_self] | split)
theorem inv_requestAt (n : Nat) (m : Msg) {s : State} (hI : Inv s) : Inv (requestAt n m s) := by
  unfold requestAt
  repeat' (first
         | assumption | with_reducible refine inv_directoryRequestAt _ _ _ ?_ | with_reducible refine inv_homeReadAt _ _ _ _ _ ?_
         | with_reducible refine inv_registrationAt _ _ _ ?_ | split)
theorem inv_serveHeld (sec : Nat) (x1 : Nat) (x2 : Nat) {s : State} (hI : Inv s) : Inv (serveHeld sec x1 x2 s) := by
  fun_induction serveHeld sec x1 x2 s
  all_goals repeat' (first
         | assumption | with_reducible apply_assumption | with_reducible refine inv_requestAt _ _ ?_ | with_reducible refine inv_ite ?_ ?_
         | split)
theorem inv_dirRecover (sec : Nat) {s : State} (hI : Inv s) : Inv (dirRecover sec s) := by
  unfold dirRecover
  split
  · exact hI
  · extract_lets c s1 s2 s3
    have h1 : Inv s1 := hI
    have h2 : Inv s2 := inv_setDirb _ _ (inv_countLog _ _ _ _ h1)
    clear_value s2
    have h3 : Inv s3 := by
      refine inv_ite h2 ?_
      split
      · exact inv_l2Poison _ _ h2
      · exact inv_formMeta _ (inv_setPsn _ _ h2)
    exact inv_serveHeld _ _ _ h3
theorem inv_dirProgress (pl : Option Nat) (sec : Nat) {s : State} (hI : Inv s) : Inv (dirProgress pl sec s) := by
  unfold dirProgress
  repeat' (first
        | assumption | with_reducible refine inv_dirFinish _ ?_ | with_reducible refine inv_dirRecover _ ?_
        | with_reducible refine inv_ite ?_ ?_ | simp only [inv_mk, invOf_self] | split)
theorem inv_returnedAt (n : Nat) (m : Msg) (data : Option (List W32 × BitVec 16)) (dirty : Bool) (evict : Bool) {s : State} (hI :
    Inv s) : Inv (returnedAt n m data dirty evict s) := by
  unfold returnedAt
  repeat' (first
         | assumption | with_reducible refine inv_dirProgress _ _ ?_ | with_reducible refine inv_snoopSet _ _ _ ?_
         | with_reducible refine inv_dirForget _ _ _ _ ?_ | with_reducible refine inv_takeData _ _ _ _ _ ?_
         | with_reducible refine inv_dropMsg _ ?_ | with_reducible refine inv_holdMsg _ ?_ | with_reducible refine inv_ite ?_ ?_
         | with_reducible refine inv_ite_snd ?_ ?_ | with_reducible refine inv_ite_fst ?_ ?_ | simp only [inv_mk, invOf_self] | split)
theorem inv_execReturnedSector (n : Nat) {s : State} (hI : Inv s) : InvO (execReturnedSector n s) := by
  unfold execReturnedSector
  repeat' (first | assumption | with_reducible refine inv_returnedAt _ _ _ _ _ ?_ | rw [invO_next] | split)
theorem inv_l1Ask (cl : Nat) (k : DReq) (sec : Nat) (key : Nat) {s : State} (hI : Inv s) : Inv (l1Ask cl k sec key s) := by
  unfold l1Ask
  repeat' (first | assumption | with_reducible refine inv_ite ?_ ?_)
theorem inv_recallNow (sec : Nat) (key : Nat) {s : State} (w : Nat) (hI : Inv s) : Inv (recallNow sec key s w) := by
  unfold recallNow
  repeat' (first
         | assumption | with_reducible refine inv_l2Get _ _ ?_ | with_reducible refine inv_recallInto _ _ ?_
         | with_reducible refine inv_ite ?_ ?_ | with_reducible refine inv_ite_snd ?_ ?_ | split)
theorem inv_dropCopies (sec : Nat) {s : State} (hI : Inv s) : Inv (dropCopies sec s) := by
  unfold dropCopies
  repeat' assumption
theorem inv_shareCopies (sec : Nat) {s : State} (hI : Inv s) : Inv (shareCopies sec s) := by
  unfold shareCopies
  repeat' assumption
theorem inv_prepare (wr : Bool) (ws : List Nat) (key : Nat) (sec : Nat) {s : State}
    (hI : Inv s) : Inv (prepare wr ws key sec s).2 := by
  unfold prepare
  repeat' (first
        | assumption | with_reducible refine inv_sendBisnp _ _ ?_ | with_reducible refine inv_takeData _ _ _ _ _ ?_
        | with_reducible refine inv_l2Get _ _ ?_ | with_reducible refine inv_setDirb _ _ ?_
        | with_reducible refine inv_dropCopies _ ?_ | with_reducible refine inv_recallNow _ _ _ ?_
        | with_reducible refine inv_shareCopies _ ?_ | with_reducible refine inv_ite ?_ ?_
        | with_reducible refine inv_ite_snd ?_ ?_ | with_reducible refine inv_foldl (fun _ _ _ => ?_) _ ?_ | split)
theorem inv_hostStore (sec : Nat) (d : List W32) (psn : BitVec 16) {s : State} (hI : Inv s) : Inv (hostStore sec d psn s) := by
  unfold hostStore
  refine inv_foldl (fun _ _ h => inv_setPsn _ _ h) _ ?_
  rw [inv_mk]
  exact invOf_mem _ _ hI
theorem inv_tellHost (m : HostMsg) {s : State} (hI : Inv s) : Inv (tellHost m s) := by
  unfold tellHost
  repeat' (first
         | assumption | with_reducible refine inv_ite ?_ ?_ | with_reducible refine inv_ite_snd ?_ ?_
         | with_reducible refine inv_ite_fst ?_ ?_ | with_reducible refine invO_ite ?_ ?_
         | with_reducible refine inv_foldl (fun _ _ _ => ?_) _ ?_ | with_reducible refine inv_foldl_snd (fun _ _ _ => ?_) _ ?_
         | with_reducible refine inv_foldl_fst (fun _ _ _ => ?_) _ ?_ | with_reducible refine invOf_mem _ _ ?_
         | with_reducible refine invOf_memFilter _ ?_ | with_reducible refine invOf_tiles _ _ ?_
         | with_reducible refine invOf_tilesFilter _ ?_ | with_reducible refine invOf_tilesClear _ _ ?_
         | with_reducible refine invOf_ctrs _ _ ?_ | simp only [inv_mk, invOf_self] | rw [invO_next] | split)
theorem inv_toHost (d : Nat) (sec : Nat) {s : State} (hI : Inv s) : Inv (toHost d sec s) := by
  unfold toHost
  split
  · exact inv_hostStore _ _ _ hI
  · exact hI
theorem inv_dieDrop (d : Nat) (sec : Nat) {s : State} (hI : Inv s) : Inv (dieDrop d sec s) := by
  unfold dieDrop
  repeat' assumption
theorem inv_dieShare (d : Nat) (sec : Nat) {s : State} (hI : Inv s) : Inv (dieShare d sec s) := by
  unfold dieShare
  repeat' assumption
theorem inv_snoopDie (k : Snp) (d : Nat) (sec : Nat) {s : State} (hI : Inv s) : Inv (snoopDie k d sec s) := by
  unfold snoopDie
  repeat' (first
         | assumption | with_reducible refine inv_dieDrop _ _ ?_ | with_reducible refine inv_dieShare _ _ ?_
         | with_reducible refine inv_toHost _ _ ?_ | with_reducible refine inv_tellHost _ ?_ | with_reducible refine inv_ite ?_ ?_
         | with_reducible refine inv_ite_snd ?_ ?_ | with_reducible refine inv_ite_fst ?_ ?_ | with_reducible refine invO_ite ?_ ?_
         | with_reducible refine inv_foldl (fun _ _ _ => ?_) _ ?_ | with_reducible refine inv_foldl_snd (fun _ _ _ => ?_) _ ?_
         | with_reducible refine inv_foldl_fst (fun _ _ _ => ?_) _ ?_ | with_reducible refine invOf_mem _ _ ?_
         | with_reducible refine invOf_memFilter _ ?_ | with_reducible refine invOf_tiles _ _ ?_
         | with_reducible refine invOf_tilesFilter _ ?_ | with_reducible refine invOf_tilesClear _ _ ?_
         | with_reducible refine invOf_ctrs _ _ ?_ | simp only [inv_mk, invOf_self] | rw [invO_next] | split)
theorem inv_evictDie (d : Nat) (sec : Nat) {s : State} (hI : Inv s) : Inv (evictDie d sec s) := by
  unfold evictDie
  repeat' (first
         | assumption | with_reducible refine inv_toHost _ _ ?_ | with_reducible refine inv_tellHost _ ?_
         | with_reducible refine inv_dieDrop _ _ ?_ | with_reducible refine inv_ite ?_ ?_ | with_reducible refine inv_ite_snd ?_ ?_
         | with_reducible refine inv_ite_fst ?_ ?_ | with_reducible refine invO_ite ?_ ?_
         | with_reducible refine inv_foldl (fun _ _ _ => ?_) _ ?_ | with_reducible refine inv_foldl_snd (fun _ _ _ => ?_) _ ?_
         | with_reducible refine inv_foldl_fst (fun _ _ _ => ?_) _ ?_ | with_reducible refine invOf_mem _ _ ?_
         | with_reducible refine invOf_memFilter _ ?_ | with_reducible refine invOf_tiles _ _ ?_
         | with_reducible refine invOf_tilesFilter _ ?_ | with_reducible refine invOf_tilesClear _ _ ?_
         | with_reducible refine invOf_ctrs _ _ ?_ | simp only [inv_mk, invOf_self] | rw [invO_next] | split)
theorem inv_returnSec {s : State} (sec : Nat) (hI : Inv s) : Inv (returnSec s sec) :=
  inv_foldl (fun _ _ h => inv_evictDie _ _ h) _ hI
theorem inv_settleHost (wr : Bool) (sec : Nat) {s : State} (hI : Inv s) : Inv (settleHost wr sec s).2 := by
  unfold settleHost
  repeat' (first
         | assumption | with_reducible refine inv_snoopDie _ _ _ ?_ | with_reducible refine inv_ite ?_ ?_
         | with_reducible refine inv_ite_snd ?_ ?_ | with_reducible refine inv_ite_fst ?_ ?_
         | with_reducible refine inv_foldl (fun _ _ _ => ?_) _ ?_ | with_reducible refine inv_foldl_snd (fun _ _ _ => ?_) _ ?_
         | with_reducible refine inv_foldl_fst (fun _ _ _ => ?_) _ ?_ | split)
theorem inv_prepareRange (wr : Bool) (key : Nat) (pa : Nat) (n : Nat) {s : State}
    (hI : Inv s) : Inv (prepareRange wr key pa n s).2 := by
  unfold prepareRange
  repeat' (first
        | assumption | with_reducible refine inv_prepare _ _ _ _ ?_ | with_reducible refine inv_settleHost _ _ ?_
        | with_reducible refine inv_ite_snd ?_ ?_ | with_reducible refine inv_foldl_snd (fun _ _ _ => ?_) _ ?_)
theorem inv_hostPart (sec : Nat) (pa : Nat) (bs : List Byte) (poison : Bool) {s : State} (hI : Inv s) : Inv (hostPart sec pa bs poison s) :=
  inv_hostStore _ _ _ hI
theorem inv_placeWrite (key : Nat) (pa : Nat) (bs : List Byte) (poison : Bool) {s : State} (hI : Inv s) : Inv (placeWrite key pa bs poison s) := by
  refine inv_foldl (fun s sec h => ?_) _ hI
  dsimp only
  exact inv_ite (inv_ite (inv_l2WritePoisoned _ _ _ (inv_foldl (fun _ _ h => inv_recallNow _ _ _ h) _ h)) (inv_l2Write _ _ _ h))
    (inv_ite (inv_hostPart _ _ _ _ h) h)
theorem inv_cas64At (pa : Nat) (old : W64) (new : W64) {s : State} (hI : Inv s) : Inv (cas64At pa old new s).2 := by
  unfold cas64At
  repeat' (first
        | assumption | with_reducible refine inv_placeWrite _ _ _ _ ?_ | with_reducible refine inv_ite_snd ?_ ?_)
theorem inv_noteHole (w : Who) (coh : Nat) (pa : Nat) {s : State} (hI : Inv s) : Inv (noteHole w coh pa s) := by
  unfold noteHole
  repeat' (first
         | assumption | with_reducible refine inv_reportHoleBy _ _ ?_ | with_reducible refine inv_ite ?_ ?_
         | with_reducible refine inv_ite_snd ?_ ?_ | with_reducible refine inv_ite_fst ?_ ?_ | with_reducible refine invO_ite ?_ ?_
         | with_reducible refine inv_foldl (fun _ _ _ => ?_) _ ?_ | with_reducible refine inv_foldl_snd (fun _ _ _ => ?_) _ ?_
         | with_reducible refine inv_foldl_fst (fun _ _ _ => ?_) _ ?_ | with_reducible refine invOf_mem _ _ ?_
         | with_reducible refine invOf_memFilter _ ?_ | with_reducible refine invOf_tiles _ _ ?_
         | with_reducible refine invOf_tilesFilter _ ?_ | with_reducible refine invOf_tilesClear _ _ ?_
         | with_reducible refine invOf_ctrs _ _ ?_ | simp only [inv_mk, invOf_self] | rw [invO_next] | split)
theorem inv_walkFrom (w : Who) (va : Nat) (x2 : Nat) (x3 : Nat) (x4 : Nat) {s : State}
    (hI : Inv s) : Inv (walkFrom w va x2 x3 x4 s).2 := by
  induction x2 generalizing x3 x4 s with
  | zero => exact hI
  | succ n ih =>
    have h0 := inv_prepareRange false 0 (x4 + 8 * walkIndex va x3) 8 hI
    have h1 := inv_noteHole w 2 (x4 + 8 * walkIndex va x3) h0
    unfold walkFrom
    dsimp only
    generalize prepareRange false 0 (x4 + 8 * walkIndex va x3) 8 s = p at h0 h1 ⊢
    generalize noteHole w 2 (x4 + 8 * walkIndex va x3) p.2 = t at h1 ⊢
    generalize read64At (x4 + 8 * walkIndex va x3) t = r
    repeat' (first | assumption | exact ih _ _ h1 | refine inv_ite_snd ?_ ?_)
theorem inv_walk (w : Who) (root : Nat) (va : Nat) {s : State} (hI : Inv s) : Inv (walk w root va s).2 := by
  unfold walk
  repeat' (first | assumption | with_reducible refine inv_walkFrom _ _ _ _ _ ?_ | simp only [inv_mk, invOf_self])
theorem inv_tlbPut (t : Tlb) {s : State} (hI : Inv s) : Inv (tlbPut t s) := by
  unfold tlbPut
  repeat' (first | assumption | with_reducible refine inv_ite ?_ ?_)
theorem inv_tlbDrop (p : Tlb → Bool) {s : State} (hI : Inv s) : Inv (tlbDrop p s) := by
  unfold tlbDrop
  repeat' assumption
theorem inv_lookup (die : Option Nat) (w : Who) (c : Ctx) (va : Nat) (k : Nat) {s : State} (hI : Inv s) : Inv (lookup die w c va k s).2 := by
  unfold lookup
  repeat' (first
         | assumption | with_reducible refine inv_tlbPut _ ?_ | with_reducible refine inv_walk _ _ _ ?_
         | with_reducible refine inv_ite ?_ ?_ | with_reducible refine inv_ite_snd ?_ ?_ | with_reducible refine inv_ite_fst ?_ ?_
         | with_reducible refine invO_ite ?_ ?_ | with_reducible refine inv_foldl (fun _ _ _ => ?_) _ ?_
         | with_reducible refine inv_foldl_snd (fun _ _ _ => ?_) _ ?_ | with_reducible refine inv_foldl_fst (fun _ _ _ => ?_) _ ?_
         | with_reducible refine invOf_mem _ _ ?_ | with_reducible refine invOf_memFilter _ ?_ | with_reducible refine invOf_tiles _ _ ?_
         | with_reducible refine invOf_tilesFilter _ ?_ | with_reducible refine invOf_tilesClear _ _ ?_
         | with_reducible refine invOf_ctrs _ _ ?_ | simp only [inv_mk, invOf_self] | rw [invO_next] | split)
theorem inv_markAD (die : Option Nat) (c : Ctx) (va : Nat) (wr : Bool) (e : W64) (size : Nat) (pte : Nat) {s : State}
    (hI : Inv s) : Inv (markAD die c va wr e size pte s).2 := by
  unfold markAD
  repeat' (first
        | assumption | with_reducible refine inv_prepareRange _ _ _ _ ?_ | with_reducible refine inv_cas64At _ _ _ ?_
        | with_reducible refine inv_tlbPut _ ?_ | with_reducible refine inv_tlbDrop _ ?_
        | with_reducible refine inv_ite_snd ?_ ?_)
theorem inv_leavesOf (die : Option Nat) (w : Who) (c : Ctx) (x3 : List (Nat × Nat)) {s : State} (hI : Inv s) : Inv (leavesOf die w c x3 s).2 := by
  fun_induction leavesOf die w c x3 s
  all_goals repeat' (first
         | assumption | with_reducible apply_assumption | with_reducible refine inv_lookup _ _ _ _ _ ?_
         | with_reducible refine inv_ite ?_ ?_ | with_reducible refine inv_ite_snd ?_ ?_ | with_reducible refine inv_ite_fst ?_ ?_
         | with_reducible refine invO_ite ?_ ?_ | with_reducible refine inv_foldl (fun _ _ _ => ?_) _ ?_
         | with_reducible refine inv_foldl_snd (fun _ _ _ => ?_) _ ?_ | with_reducible refine inv_foldl_fst (fun _ _ _ => ?_) _ ?_
         | with_reducible refine invOf_mem _ _ ?_ | with_reducible refine invOf_memFilter _ ?_ | with_reducible refine invOf_tiles _ _ ?_
         | with_reducible refine invOf_tilesFilter _ ?_ | with_reducible refine invOf_tilesClear _ _ ?_
         | with_reducible refine invOf_ctrs _ _ ?_ | simp only [inv_mk, invOf_self] | rw [invO_next] | split)
theorem inv_markAll (die : Option Nat) (c : Ctx) (wr : Bool) (x3 : List (Nat × Nat × Found)) {s : State}
    (hI : Inv s) : Inv (markAll die c wr x3 s).2 := by
  induction x3 generalizing s with
  | nil => exact hI
  | cons x t ih =>
    obtain ⟨va, n, f⟩ := x
    cases f with
    | leaf e size pte =>
      have h := inv_markAD die c va wr e size pte hI
      unfold markAll
      dsimp only
      exact inv_ite_snd (ih h) h
    | fault k l => exact ih hI
    | wait => exact ih hI
theorem inv_settleLeaves (die : Option Nat) (c : Ctx) (n : Need) (l : List (Nat × Nat × Found)) {s : State} (hI : Inv s) : Inv
    (settleLeaves die c n l s).2 := by
  unfold settleLeaves
  repeat' (first
         | assumption | with_reducible refine inv_markAll _ _ _ _ ?_ | with_reducible refine inv_ite ?_ ?_
         | with_reducible refine inv_ite_snd ?_ ?_ | with_reducible refine inv_ite_fst ?_ ?_ | with_reducible refine invO_ite ?_ ?_
         | with_reducible refine inv_foldl (fun _ _ _ => ?_) _ ?_ | with_reducible refine inv_foldl_snd (fun _ _ _ => ?_) _ ?_
         | with_reducible refine inv_foldl_fst (fun _ _ _ => ?_) _ ?_ | with_reducible refine invOf_mem _ _ ?_
         | with_reducible refine invOf_memFilter _ ?_ | with_reducible refine invOf_tiles _ _ ?_
         | with_reducible refine invOf_tilesFilter _ ?_ | with_reducible refine invOf_tilesClear _ _ ?_
         | with_reducible refine invOf_ctrs _ _ ?_ | simp only [inv_mk, invOf_self] | rw [invO_next] | split)
theorem inv_translate (die : Option Nat) (w : Who) (c : Ctx) (n : Need) (vas : List (Nat × Nat)) {s : State} (hI : Inv s) : Inv
    (translate die w c n vas s).2 := by
  unfold translate
  repeat' (first
         | assumption | with_reducible refine inv_settleLeaves _ _ _ _ ?_ | with_reducible refine inv_leavesOf _ _ _ _ ?_
         | with_reducible refine inv_ite ?_ ?_ | with_reducible refine inv_ite_snd ?_ ?_ | with_reducible refine inv_ite_fst ?_ ?_
         | with_reducible refine invO_ite ?_ ?_ | with_reducible refine inv_foldl (fun _ _ _ => ?_) _ ?_
         | with_reducible refine inv_foldl_snd (fun _ _ _ => ?_) _ ?_ | with_reducible refine inv_foldl_fst (fun _ _ _ => ?_) _ ?_
         | with_reducible refine invOf_mem _ _ ?_ | with_reducible refine invOf_memFilter _ ?_ | with_reducible refine invOf_tiles _ _ ?_
         | with_reducible refine invOf_tilesFilter _ ?_ | with_reducible refine invOf_tilesClear _ _ ?_
         | with_reducible refine invOf_ctrs _ _ ?_ | simp only [inv_mk, invOf_self] | rw [invO_next] | split)
theorem inv_speculate (die : Option Nat) (w : Who) (c : Ctx) (n : Need) (va : Nat) (len : Nat) {s : State} (hI : Inv s) : Inv
    (speculate die w c n va len s).2 := by
  unfold speculate
  repeat' (first
         | assumption | with_reducible refine inv_lookup _ _ _ _ _ ?_ | with_reducible refine inv_ite ?_ ?_
         | with_reducible refine inv_ite_snd ?_ ?_ | with_reducible refine inv_ite_fst ?_ ?_ | with_reducible refine invO_ite ?_ ?_
         | with_reducible refine inv_foldl (fun _ _ _ => ?_) _ ?_ | with_reducible refine inv_foldl_snd (fun _ _ _ => ?_) _ ?_
         | with_reducible refine inv_foldl_fst (fun _ _ _ => ?_) _ ?_ | with_reducible refine invOf_mem _ _ ?_
         | with_reducible refine invOf_memFilter _ ?_ | with_reducible refine invOf_tiles _ _ ?_
         | with_reducible refine invOf_tilesFilter _ ?_ | with_reducible refine invOf_tilesClear _ _ ?_
         | with_reducible refine invOf_ctrs _ _ ?_ | simp only [inv_mk, invOf_self] | rw [invO_next] | split)
theorem inv_noteCut (node : BitVec 20) {s : State} (hI : Inv s) : Inv (noteCut node s) := by
  unfold noteCut
  repeat' (first | assumption | with_reducible refine inv_ite ?_ ?_)
theorem inv_sendFlit (id : Nat) (el : Nat) (node : BitVec 20) (off : Nat) {s : State}
    (hI : Inv s) : Inv (sendFlit id el node off s) := by
  unfold sendFlit
  repeat' (first | assumption | with_reducible refine inv_noteCut _ ?_ | simp only [inv_mk, invOf_self] | split)
theorem inv_sendLines (id : Nat) (el : Nat) (node : BitVec 20) (off : Nat) (n : Nat) {s : State}
    (hI : Inv s) : Inv (sendLines id el node off n s) :=
  inv_foldl (fun _ _ h => inv_sendFlit _ _ _ _ h) _ hI
theorem inv_ackFlits (p : Flit → Bool) {s : State} (hI : Inv s) : Inv (ackFlits p s) := by
  unfold ackFlits
  repeat' (first | assumption | simp only [inv_mk, invOf_self] | split)
theorem inv_dropFlit (id : Nat) (el : Nat) {s : State} (hI : Inv s) : Inv (dropFlit id el s) := by
  unfold dropFlit
  repeat' assumption
theorem inv_dropFlits (id : Nat) {s : State} (hI : Inv s) : Inv (dropFlits id s) := by
  unfold dropFlits
  repeat' assumption
theorem inv_peerWrite (key : Nat) (a : Nat) (bs : List Byte) (poison : Bool) {s : State}
    (hI : Inv s) : Inv (peerWrite key a bs poison s) := by
  unfold peerWrite
  extract_lets s1
  have h1 : Inv s1 := by
    rw [inv_mk]
    exact invOf_mem _ _ hI
  clear_value s1
  split
  · exact inv_foldl (fun _ _ h => inv_foldl (fun _ _ h => inv_setPsn _ _ h) _ h) _ h1
  · refine inv_foldl (fun s k h => ?_) _ h1
    dsimp only
    split
    · exact inv_setPsn _ _ h
    · exact h

end Sys2Proof.Machine
end

