-- ==== Sys2Proof/Laws/InvMemory.lean ====
section
/-! SUPPORT. The invariant of Safety.lean passes through every function over states: memory records, wave order and the format table. -/
set_option linter.unusedSimpArgs false
namespace Sys2Proof.Machine

theorem inv_setTdir (cl : Nat) (h : Nat) (e : W64) {s : State} (hI : Inv s) : Inv (setTdir cl h e s) := by
  unfold setTdir
  repeat' assumption
theorem inv_setTState (cl : Nat) (h : Nat) (st : Nat) {s : State} (hI : Inv s) : Inv (setTState cl h st s) := by
  unfold setTState
  repeat' assumption
theorem inv_addReader (cl : Nat) (h : Nat) (d : Int) {s : State} (hI : Inv s) : Inv (addReader cl h d s) := by
  unfold addReader
  repeat' assumption
theorem inv_accPut (cl : Nat) (h : Nat) (x2 : AccD) {s : State} (hI : Inv s) : Inv (accPut cl h x2 s) := by
  unfold accPut
  repeat' assumption
theorem inv_setAccElem (cl : Nat) (h : Nat) (i : Nat) (j : Nat) (v : W32) {s : State}
    (hI : Inv s) : Inv (setAccElem cl h i j v s) := by
  unfold setAccElem
  repeat' assumption
theorem inv_setTileBytes (cl : Nat) (off : Nat) (bs : List Byte) {s : State}
    (hI : Inv s) : Inv (setTileBytes cl off bs s) := by
  unfold setTileBytes
  repeat' (first | assumption | with_reducible refine invOf_tiles _ _ ?_ | simp only [inv_mk, invOf_self])
theorem inv_setTileElem (cl : Nat) (e : W64) (i : Nat) (j : Nat) (v : Nat) {s : State}
    (hI : Inv s) : Inv (setTileElem cl e i j v s) := by
  unfold setTileElem
  repeat' (first | assumption | with_reducible refine inv_setTileBytes _ _ _ ?_ | with_reducible refine inv_ite ?_ ?_)
theorem inv_setLineElem (cl : Nat) (e : W64) (k : Nat) (t : Nat) (v : Nat) {s : State}
    (hI : Inv s) : Inv (setLineElem cl e k t v s) := by
  unfold setLineElem
  repeat' (first
        | assumption | with_reducible refine inv_setTileElem _ _ _ _ _ ?_ | with_reducible refine inv_ite ?_ ?_)
theorem inv_doneEl (id : Nat) (i : Nat) (ws : List (Nat × W32 × Bool)) {s : State} (hI : Inv s) : Inv (doneEl id i ws s) := by
  unfold doneEl
  repeat' assumption
theorem inv_failOp (id : Nat) (code : W64) {s : State} (hI : Inv s) : Inv (failOp id code s) := by
  unfold failOp
  repeat' assumption
theorem inv_askWords (o : Op) (x : El) {s : State} (hI : Inv s) : Inv (askWords o x s) := by
  unfold askWords
  repeat' (first | assumption | with_reducible refine inv_ite ?_ ?_)
theorem inv_fetchEl (o : Op) (i : Nat) (x : El) {s : State} (hI : Inv s) : Inv (fetchEl o i x s).2 := by
  unfold fetchEl
  repeat' (first
        | assumption | with_reducible refine inv_askWords _ _ ?_ | with_reducible refine inv_l1Ask _ _ _ _ ?_
        | with_reducible refine inv_prepareRange _ _ _ _ ?_ | with_reducible refine inv_reportHole _ _ ?_
        | with_reducible refine inv_ite_snd ?_ ?_ | simp only [inv_mk, invOf_self] | split)
theorem inv_writeWordS (cl : Nat) (ctx : Nat) (id : Nat) (x : El) (bs : List Byte) (acc : State × List (Nat × BitVec 4)) (w : Nat)
    (hacc : Inv acc.1) : Inv (writeWordS cl ctx id x bs acc w).1 := by
  unfold writeWordS
  repeat' (first | assumption | simp only [inv_mk, invOf_self] | split)
theorem inv_keepPrev (cl : Nat) (x : El) (s0 : State) (new : List Nat) {s : State} (hI : Inv s) : Inv (keepPrev cl x s0 new s) := by
  refine inv_foldl (fun t w h => inv_ite h ?_) _ hI
  split
  · exact inv_ite h (inv_l1wPut _ h)
  · exact h
theorem inv_snapLoads (cl : Nat) (id : Nat) (x : El) {s : State} (hI : Inv s) : Inv (snapLoads cl id x s) := by
  unfold snapLoads
  repeat' (first
         | assumption | with_reducible refine inv_ite ?_ ?_ | with_reducible refine inv_ite_fst ?_ ?_ | simp only [inv_mk, invOf_self]
         | split)
theorem inv_writeS (cl : Nat) (ctx : Nat) (id : Nat) (x : El) (bs : List Byte) {s : State} (hI : Inv s) : Inv (writeS cl ctx id x bs s) := by
  unfold writeS
  repeat' (first
         | assumption | with_reducible refine inv_sendMsg _ _ _ _ _ ?_ | with_reducible refine inv_keepPrev _ _ _ _ ?_
         | with_reducible refine inv_writeWordS _ _ _ _ _ _ _ ?_ | with_reducible refine inv_snapLoads _ _ _ ?_
         | with_reducible refine inv_ite ?_ ?_ | with_reducible refine inv_ite_snd ?_ ?_ | with_reducible refine inv_ite_fst ?_ ?_
         | with_reducible refine inv_foldl (fun _ _ _ => ?_) _ ?_ | with_reducible refine inv_foldl_snd (fun _ _ _ => ?_) _ ?_
         | with_reducible refine inv_foldl_fst (fun _ _ _ => ?_) _ ?_ | simp only [inv_mk, invOf_self] | split)
theorem inv_wantM (cl : Nat) (x : El) {s : State} (hI : Inv s) : Inv (wantM cl x s).2 := by
  unfold wantM
  repeat' (first
        | assumption | with_reducible refine inv_l1Ask _ _ _ _ ?_ | with_reducible refine inv_ite_snd ?_ ?_ | split)
theorem inv_storeEl (o : Op) (i : Nat) (x : El) {s : State} (hI : Inv s) : Inv (storeEl o i x s) := by
  unfold storeEl
  repeat' (first
         | assumption | with_reducible refine inv_reportHole _ _ ?_ | with_reducible refine inv_dropFlit _ _ ?_
         | with_reducible refine inv_peerWrite _ _ _ _ ?_ | with_reducible refine inv_placeWrite _ _ _ _ ?_
         | with_reducible refine inv_prepareRange _ _ _ _ ?_ | with_reducible refine inv_l1dPut _ ?_
         | with_reducible refine inv_failOp _ _ ?_ | with_reducible refine inv_countLog _ _ _ _ ?_
         | with_reducible refine inv_wantM _ _ ?_ | with_reducible refine inv_writeS _ _ _ _ _ ?_
         | with_reducible refine inv_doneEl _ _ _ ?_ | with_reducible refine inv_l1Make _ _ ?_ | with_reducible refine inv_ite ?_ ?_
         | with_reducible refine inv_ite_snd ?_ ?_ | with_reducible refine inv_ite_fst ?_ ?_ | simp only [inv_mk, invOf_self] | split)
theorem inv_rmwDone (o : Op) (v : W64) (fl : Flags) {s : State} (hI : Inv s) : Inv (rmwDone o v fl s) := by
  unfold rmwDone
  repeat' assumption
theorem inv_rmwPerform (o : Op) (x : El) (old : List (Byte × Bool)) (wr : List Byte → State → State) {s : State}
    (hwr : ∀ a0 a1, Inv a1 → Inv (wr a0 a1)) (hI : Inv s) : Inv (rmwPerform o x old wr s) := by
  unfold rmwPerform
  repeat' (first | assumption | with_reducible refine hwr _ _ ?_ | with_reducible refine inv_rmwDone _ _ _ ?_ | split)
theorem inv_dropMine (cl : Nat) (x : El) {s : State} (hI : Inv s) : Inv (dropMine cl x s) := by
  unfold dropMine
  repeat' (first | assumption | with_reducible refine inv_foldl (fun _ _ _ => ?_) _ ?_)
theorem inv_rdcStore (d : Nat) (pa : Nat) (bs : List Byte) (poison : Bool) {s : State} (hI : Inv s) : Inv (rdcStore d pa bs poison s) := by
  unfold rdcStore
  repeat' (first
         | assumption | with_reducible refine inv_rdcPut _ ?_ | with_reducible refine inv_ite ?_ ?_
         | with_reducible refine inv_ite_snd ?_ ?_ | with_reducible refine inv_foldl (fun _ _ _ => ?_) _ ?_
         | with_reducible refine inv_foldl_snd (fun _ _ _ => ?_) _ ?_ | with_reducible refine inv_foldl_fst (fun _ _ _ => ?_) _ ?_
         | simp only [inv_mk, invOf_self] | split)
theorem inv_rdcWrite (d : Nat) (x : El) (bs : List Byte) {s : State} (hI : Inv s) : Inv (rdcWrite d x bs s) := by
  unfold rdcWrite
  repeat' (first | assumption | with_reducible refine inv_rdcStore _ _ _ _ ?_)
theorem inv_wantRdc (d : Nat) (x : El) {s : State} (hI : Inv s) : Inv (wantRdc d x s).2 := by
  unfold wantRdc
  repeat' (first
        | assumption | with_reducible refine inv_rdcAsk _ _ _ _ ?_ | with_reducible refine inv_ite_snd ?_ ?_
        | simp only [inv_mk, invOf_self] | split)
theorem inv_rdcReady (d : Nat) (wr : Bool) (x : El) {s : State} (hI : Inv s) : Inv (rdcReady d wr x s).2 := by
  unfold rdcReady
  repeat' (first
         | assumption | with_reducible refine inv_rdcAsk _ _ _ _ ?_ | with_reducible refine inv_wantRdc _ _ ?_
         | with_reducible refine inv_ite ?_ ?_ | with_reducible refine inv_ite_snd ?_ ?_ | with_reducible refine inv_ite_fst ?_ ?_
         | with_reducible refine inv_foldl (fun _ _ _ => ?_) _ ?_ | with_reducible refine inv_foldl_snd (fun _ _ _ => ?_) _ ?_
         | with_reducible refine inv_foldl_fst (fun _ _ _ => ?_) _ ?_ | simp only [inv_mk, invOf_self] | split)
theorem inv_rmwEl (o : Op) (i : Nat) (x : El) {s : State} (hI : Inv s) : Inv (rmwEl o i x s) := by
  unfold rmwEl
  repeat' (first
         | assumption | with_reducible refine inv_reportHole _ _ ?_ | with_reducible refine inv_failOp _ _ ?_
         | with_reducible refine inv_dropFlit _ _ ?_ | with_reducible refine inv_peerWrite _ _ _ _ ?_
         | with_reducible refine inv_l1dPut _ ?_ | with_reducible refine inv_wantM _ _ ?_ | with_reducible refine inv_rdcWrite _ _ _ ?_
         | with_reducible refine inv_wantRdc _ _ ?_ | with_reducible refine inv_askWords _ _ ?_
         | with_reducible refine inv_writeS _ _ _ _ _ ?_ | with_reducible refine inv_l1Make _ _ ?_
         | with_reducible refine inv_placeWrite _ _ _ _ ?_ | with_reducible refine inv_rmwPerform _ _ _ _ (fun _ _ _ => ?_) ?_
         | with_reducible refine inv_dropMine _ _ ?_ | with_reducible refine inv_prepareRange _ _ _ _ ?_
         | with_reducible refine inv_ite ?_ ?_ | with_reducible refine inv_ite_snd ?_ ?_ | with_reducible refine inv_ite_fst ?_ ?_
         | simp only [inv_mk, invOf_self] | split)
theorem inv_ownEl (o : Op) (i : Nat) (x : El) {s : State} (hI : Inv s) : Inv (ownEl o i x s) := by
  unfold ownEl
  repeat' (first
         | assumption | with_reducible refine inv_fetchEl _ _ _ ?_ | with_reducible refine inv_l1dPut _ ?_
         | with_reducible refine inv_wantM _ _ ?_ | with_reducible refine inv_askWords _ _ ?_
         | with_reducible refine inv_writeS _ _ _ _ _ ?_ | with_reducible refine inv_l1Make _ _ ?_
         | with_reducible refine inv_doneEl _ _ _ ?_ | with_reducible refine inv_failOp _ _ ?_ | with_reducible refine inv_ite ?_ ?_
         | with_reducible refine inv_ite_snd ?_ ?_ | with_reducible refine inv_ite_fst ?_ ?_ | simp only [id_eq]
         | simp only [inv_mk, invOf_self] | split)
theorem inv_wbkEl (o : Op) (i : Nat) (x : El) {s : State} (hI : Inv s) : Inv (wbkEl o i x s) := by
  unfold wbkEl
  repeat' (first
        | assumption | with_reducible refine inv_writeBackWords _ _ _ _ ?_ | with_reducible refine inv_modOp _ _ ?_
        | with_reducible refine inv_doneEl _ _ _ ?_ | with_reducible refine inv_prepare _ _ _ _ ?_
        | with_reducible refine inv_ite ?_ ?_ | simp only [inv_mk, invOf_self] | split)
theorem inv_acquired (o : Op) {s : State} (hI : Inv s) : Inv (acquired o s) := by
  unfold acquired
  repeat' (first | assumption | with_reducible refine inv_ite ?_ ?_)
theorem inv_completeOp (o : Op) {s : State} (hI : Inv s) : Inv (completeOp o s) := by
  unfold completeOp
  repeat' (first
        | assumption | with_reducible refine inv_acquired _ ?_ | with_reducible refine inv_modOp _ _ ?_
        | with_reducible refine inv_foldl (fun _ _ h => inv_l2Clean _ h) _ ?_ | with_reducible refine inv_ite ?_ ?_ | simp only [inv_mk, invOf_self]
        | split)
theorem inv_pfAsk (o : Op) (i : Nat) (x : El) {s : State} (hI : Inv s) : Inv (pfAsk o i x s) := by
  unfold pfAsk
  repeat' (first
         | assumption | with_reducible refine inv_l1Ask _ _ _ _ ?_ | with_reducible refine inv_askWords _ _ ?_
         | with_reducible refine inv_doneEl _ _ _ ?_ | with_reducible refine inv_ite ?_ ?_ | split)
theorem inv_pfNext (o : Op) {s : State} (hI : Inv s) : Inv (pfNext o s) := by
  unfold pfNext
  repeat' (first
         | assumption | with_reducible refine inv_delOp _ ?_ | with_reducible refine inv_modOp _ _ ?_
         | with_reducible refine inv_pfAsk _ _ _ ?_ | with_reducible refine inv_ite ?_ ?_
         | with_reducible refine inv_foldl (fun _ _ _ => ?_) _ ?_ | simp only [inv_mk, invOf_self] | split)
theorem inv_tryEl (id : Nat) {s : State} (i : Nat) (hI : Inv s) : Inv (tryEl id s i) := by
  unfold tryEl
  split
  · exact hI
  · rename_i o _
    split
    · exact hI
    · rename_i x _
      refine inv_ite hI ?_
      have hf := inv_fetchEl o i x hI
      split
      all_goals first
        | exact inv_storeEl _ _ _ hI
        | exact inv_ownEl _ _ _ hI
        | exact inv_wbkEl _ _ _ hI
        | exact inv_pfAsk _ _ _ hI
        | exact inv_rmwEl _ _ _ hI
        | (dsimp only
           generalize fetchEl o i x s = r at hf ⊢
           split
           · exact inv_doneEl _ _ _ hf
           · exact hf)
theorem inv_attempt (id : Nat) {s : State} (hI : Inv s) : Inv (attempt id s) := by
  unfold attempt
  split
  · exact hI
  · rename_i o _
    refine inv_ite hI ?_
    have h := inv_foldl (fun _ i h => inv_tryEl id i h) o.left hI
    dsimp only
    generalize List.foldl (tryEl id) s o.left = t at h ⊢
    split
    · exact h
    · exact inv_ite h (inv_ite (inv_pfNext _ h) (inv_completeOp _ h))
theorem inv_attemptCl (cl : Nat) (sec : Nat) {s : State} (hI : Inv s) : Inv (attemptCl cl sec s) := by
  unfold attemptCl
  repeat' (first
        | assumption | with_reducible refine inv_attempt _ ?_ | with_reducible refine inv_foldl (fun _ _ _ => ?_) _ ?_)
theorem inv_emitDone (o : Op) {s : State} (hI : Inv s) : Inv (emitDone o s) := by
  unfold emitDone
  repeat' (first | assumption | with_reducible refine inv_ite ?_ ?_)
theorem inv_parkOp (o : Op) (kind : Byte) (lvl : Nat) (va : Nat) {s : State} (hI : Inv s) : Inv (parkOp o kind lvl va s) := by
  unfold parkOp
  repeat' (first | assumption | with_reducible refine inv_opException _ _ ?_ | with_reducible refine inv_modOp _ _ ?_)
theorem inv_checkStart (o : Op) {s : State} (hI : Inv s) : Inv (checkStart o s).2 := by
  unfold checkStart
  repeat' (first
         | assumption | with_reducible refine inv_parkOp _ _ _ _ ?_ | with_reducible refine inv_translate _ _ _ _ _ ?_
         | with_reducible refine inv_ite ?_ ?_ | with_reducible refine inv_ite_snd ?_ ?_ | with_reducible refine inv_ite_fst ?_ ?_
         | with_reducible refine invO_ite ?_ ?_ | with_reducible refine inv_foldl (fun _ _ _ => ?_) _ ?_
         | with_reducible refine inv_foldl_snd (fun _ _ _ => ?_) _ ?_ | with_reducible refine inv_foldl_fst (fun _ _ _ => ?_) _ ?_
         | with_reducible refine invOf_mem _ _ ?_ | with_reducible refine invOf_memFilter _ ?_ | with_reducible refine invOf_tiles _ _ ?_
         | with_reducible refine invOf_tilesFilter _ ?_ | with_reducible refine invOf_tilesClear _ _ ?_
         | with_reducible refine invOf_ctrs _ _ ?_ | simp only [inv_mk, invOf_self] | rw [invO_next] | split)
theorem inv_startOf (o : Op) {s : State} (hI : Inv s) : Inv (startOf o s).2 := by
  unfold startOf
  repeat' (first
         | assumption | with_reducible refine inv_modOp _ _ ?_ | with_reducible refine inv_checkStart _ ?_
         | with_reducible refine inv_ite ?_ ?_ | with_reducible refine inv_ite_snd ?_ ?_ | with_reducible refine inv_ite_fst ?_ ?_
         | simp only [inv_mk, invOf_self] | split)
theorem inv_sendFlits (o : Op) (els : List El) {s : State} (hI : Inv s) : Inv (sendFlits o els s) := by
  unfold sendFlits
  repeat' (first
        | assumption | with_reducible refine inv_sendLines _ _ _ _ _ ?_ | with_reducible refine inv_ite ?_ ?_
        | with_reducible refine inv_foldl (fun _ _ _ => ?_) _ ?_ | split)
theorem inv_begin_ (o : Op) (els : List El) {s : State} (hI : Inv s) : Inv (begin_ o els s) := by
  unfold begin_
  repeat' (first
        | assumption | with_reducible refine inv_sendFlits _ _ ?_ | with_reducible refine inv_attempt _ ?_
        | with_reducible refine inv_ite ?_ ?_)
theorem inv_finish (id : Nat) (err : Option W64) {s : State} (hI : Inv s) : Inv (finish id err s) := by
  unfold finish
  repeat' assumption
theorem inv_stamp (id : Nat) {s : State} (hI : Inv s) : Inv (stamp id s) := by
  unfold stamp
  repeat' assumption
theorem inv_prefetchAt (o : Op) (va : Nat) (line : Nat) {s : State} (hI : Inv s) : Inv (prefetchAt o va line s) := by
  unfold prefetchAt
  repeat' (first
         | assumption | with_reducible refine inv_modOp _ _ ?_ | with_reducible refine inv_attempt _ ?_
         | with_reducible refine inv_speculate _ _ _ _ _ _ ?_ | with_reducible refine inv_delOp _ ?_ | with_reducible refine inv_ite ?_ ?_
         | with_reducible refine inv_ite_snd ?_ ?_ | with_reducible refine inv_ite_fst ?_ ?_ | simp only [inv_mk, invOf_self] | split)
theorem inv_prefetch (o : Op) {s : State} (hI : Inv s) : Inv (prefetch o s) := by
  unfold prefetch
  repeat' (first
         | assumption | with_reducible refine inv_prefetchAt _ _ _ ?_ | with_reducible refine inv_delOp _ ?_
         | with_reducible refine inv_ite ?_ ?_ | simp only [inv_mk, invOf_self] | split)
theorem inv_readAheadOf (o : Op) (va : Nat) {s : State} (hI : Inv s) : Inv (readAheadOf o va s) := by
  unfold readAheadOf
  repeat' (first
         | assumption | with_reducible refine inv_prefetchAt _ _ _ ?_ | with_reducible refine inv_ite ?_ ?_ | simp only [inv_mk, invOf_self]
         | split)
theorem inv_unorderedStep (op : Nat) {s : State} (hI : Inv s) : Inv (unorderedStep op s) := by
  unfold unorderedStep
  repeat' (first
        | assumption | with_reducible refine inv_prefetch _ ?_ | with_reducible refine inv_startOf _ ?_
        | with_reducible refine inv_finish _ _ ?_ | with_reducible refine inv_begin_ _ _ ?_
        | with_reducible refine inv_stamp _ ?_ | with_reducible refine inv_ite ?_ ?_ | simp only [inv_mk, invOf_self] | split)
theorem inv_execUnorderedRequest (op : Nat) {s : State} (hI : Inv s) : InvO (execUnorderedRequest op s) := by
  unfold execUnorderedRequest
  repeat' (first | assumption | with_reducible refine inv_unorderedStep _ ?_ | rw [invO_next])
theorem inv_cacheFill (o : Op) (cl : Nat) (sec : Nat) (key : Nat) {s : State} (hI : Inv s) : Inv (cacheFill o cl sec key s) := by
  unfold cacheFill
  repeat' (first
         | assumption | with_reducible refine inv_l1wPut _ ?_ | with_reducible refine inv_l1Make _ _ ?_
         | with_reducible refine inv_ite ?_ ?_ | with_reducible refine inv_ite_snd ?_ ?_ | with_reducible refine inv_ite_fst ?_ ?_
         | with_reducible refine invO_ite ?_ ?_ | with_reducible refine inv_foldl (fun _ _ _ => ?_) _ ?_
         | with_reducible refine inv_foldl_snd (fun _ _ _ => ?_) _ ?_ | with_reducible refine inv_foldl_fst (fun _ _ _ => ?_) _ ?_
         | with_reducible refine invOf_mem _ _ ?_ | with_reducible refine invOf_memFilter _ ?_ | with_reducible refine invOf_tiles _ _ ?_
         | with_reducible refine invOf_tilesFilter _ ?_ | with_reducible refine invOf_tilesClear _ _ ?_
         | with_reducible refine invOf_ctrs _ _ ?_ | simp only [inv_mk, invOf_self] | rw [invO_next] | split)
theorem inv_fillAt (n : Nat) (m : Msg) (cl : Nat) (op : Nat) (ws : List (Nat × W32 × Bool)) {s : State} (hI : Inv s) : Inv (fillAt
    n m cl op ws s) := by
  unfold fillAt
  repeat' (first
         | assumption | with_reducible refine inv_cacheFill _ _ _ _ ?_ | with_reducible refine inv_attempt _ ?_
         | with_reducible refine inv_attemptCl _ _ ?_ | with_reducible refine inv_dropMsg _ ?_ | with_reducible refine inv_modOp _ _ ?_
         | with_reducible refine inv_ite ?_ ?_ | with_reducible refine inv_ite_snd ?_ ?_ | with_reducible refine inv_ite_fst ?_ ?_
         | simp only [inv_mk, invOf_self] | split)
theorem inv_dgrantAt (n : Nat) (m : Msg) (st : Mesi) (d : List W32) (psn : BitVec 16) {s : State} (hI : Inv s) : Inv (dgrantAt n m st d psn s) := by
  unfold dgrantAt
  repeat' (first
         | assumption | with_reducible refine inv_rdcPut _ ?_ | with_reducible refine inv_evictD _ _ ?_
         | with_reducible refine inv_l1dPut _ ?_ | with_reducible refine inv_attemptCl _ _ ?_ | with_reducible refine inv_dropMsg _ ?_
         | with_reducible refine inv_holdMsg _ ?_ | with_reducible refine inv_l1Make _ _ ?_ | with_reducible refine inv_ite ?_ ?_
         | with_reducible refine inv_ite_snd ?_ ?_ | with_reducible refine inv_ite_fst ?_ ?_ | simp only [inv_mk, invOf_self] | split)
theorem inv_execDataReturn (r : Ret) {s : State} (hI : Inv s) : InvO (execDataReturn r s) := by
  unfold execDataReturn
  repeat' (first
        | assumption | with_reducible refine inv_fillAt _ _ _ _ _ ?_ | with_reducible refine inv_dgrantAt _ _ _ _ _ ?_
        | with_reducible refine inv_attempt _ ?_ | with_reducible refine inv_emitDone _ ?_
        | with_reducible refine inv_ite ?_ ?_ | simp only [inv_mk, invOf_self] | rw [invO_next] | split)
theorem inv_memFire (i : Instr) (slots : List Nat) (bad : Option Nat) {s : State}
    (hI : Inv s) : Inv (memFire i slots bad s) := by
  unfold memFire
  repeat' (first | assumption | with_reducible refine inv_ite ?_ ?_ | split)
theorem inv_execLd (r : MemRec) {s : State} (hI : Inv s) : InvO (execLd r s) := by
  unfold execLd
  repeat' (first | assumption | with_reducible refine inv_memFire _ _ _ ?_ | rw [invO_next])
theorem inv_execSt (r : MemRec) {s : State} (hI : Inv s) : InvO (execSt r s) := by
  unfold execSt
  repeat' (first | assumption | with_reducible refine inv_memFire _ _ _ ?_ | rw [invO_next])
theorem inv_execLdx (r : MemRec) {s : State} (hI : Inv s) : InvO (execLdx r s) := by
  unfold execLdx
  repeat' (first | assumption | with_reducible refine inv_memFire _ _ _ ?_ | rw [invO_next])
theorem inv_execStx (r : MemRec) {s : State} (hI : Inv s) : InvO (execStx r s) := by
  unfold execStx
  repeat' (first | assumption | with_reducible refine inv_memFire _ _ _ ?_ | rw [invO_next])
theorem inv_execMnop (r : MemRec) {s : State} (hI : Inv s) : InvO (execMnop r s) := by
  unfold execMnop
  repeat' (first | assumption | with_reducible refine inv_memFire _ _ _ ?_ | rw [invO_next])
theorem inv_execPf (r : MemRec) {s : State} (hI : Inv s) : InvO (execPf r s) := by
  unfold execPf
  repeat' (first
        | assumption | with_reducible refine inv_memFire _ _ _ ?_ | with_reducible refine inv_ite ?_ ?_ | rw [invO_next])
theorem inv_execOwn (r : MemRec) {s : State} (hI : Inv s) : InvO (execOwn r s) := by
  unfold execOwn
  repeat' (first | assumption | with_reducible refine inv_memFire _ _ _ ?_ | rw [invO_next])
theorem inv_execInvRegion (r : MemRec) {s : State} (hI : Inv s) : InvO (execInvRegion r s) := by
  unfold execInvRegion
  repeat' (first | assumption | with_reducible refine inv_memFire _ _ _ ?_ | rw [invO_next])
theorem inv_execInvAll (r : MemRec) {s : State} (hI : Inv s) : InvO (execInvAll r s) := by
  unfold execInvAll
  repeat' (first | assumption | with_reducible refine inv_memFire _ _ _ ?_ | rw [invO_next])
theorem inv_execWbk (r : MemRec) {s : State} (hI : Inv s) : InvO (execWbk r s) := by
  unfold execWbk
  repeat' (first | assumption | with_reducible refine inv_memFire _ _ _ ?_ | rw [invO_next])
theorem inv_execFenceAcq (r : MemRec) {s : State} (hI : Inv s) : InvO (execFenceAcq r s) := by
  unfold execFenceAcq
  repeat' (first | assumption | with_reducible refine inv_memFire _ _ _ ?_ | rw [invO_next])
theorem inv_execFenceRel (r : MemRec) {s : State} (hI : Inv s) : InvO (execFenceRel r s) := by
  unfold execFenceRel
  repeat' (first | assumption | with_reducible refine inv_memFire _ _ _ ?_ | rw [invO_next])
theorem inv_execFenceAr (r : MemRec) {s : State} (hI : Inv s) : InvO (execFenceAr r s) := by
  unfold execFenceAr
  repeat' (first | assumption | with_reducible refine inv_memFire _ _ _ ?_ | rw [invO_next])
theorem inv_execFenceSc (r : MemRec) {s : State} (hI : Inv s) : InvO (execFenceSc r s) := by
  unfold execFenceSc
  repeat' (first | assumption | with_reducible refine inv_memFire _ _ _ ?_ | rw [invO_next])
theorem inv_dropXferV (o : Op) {s : State} (hI : Inv s) : Inv (dropXferV o s) := by
  unfold dropXferV
  repeat' (first | assumption | with_reducible refine inv_ite ?_ ?_ | simp only [inv_mk, invOf_self] | split)
theorem inv_linkStep (o : Op) {s : State} (hI : Inv s) : Inv (linkStep o s) := by
  unfold linkStep
  repeat' assumption
theorem inv_wbkStart (o : Op) (r : Nat × Nat) {s : State} (hI : Inv s) : Inv (wbkStart o r s) := by
  unfold wbkStart
  repeat' (first
        | assumption | with_reducible refine inv_writeBackWords _ _ _ _ ?_ | with_reducible refine inv_modOp _ _ ?_
        | with_reducible refine inv_attempt _ ?_ | with_reducible refine inv_foldl (fun _ _ _ => ?_) _ ?_)
theorem inv_invalidate (o : Op) (p : L1Word → Bool) {s : State} (hI : Inv s) : Inv (invalidate o p s) := by
  unfold invalidate
  repeat' (first | assumption | with_reducible refine inv_ite ?_ ?_)
theorem inv_toPort (o : Op) {s : State} (hI : Inv s) : Inv (toPort o s) := by
  unfold toPort
  repeat' (first | assumption | simp only [inv_mk, invOf_self] | split)
theorem inv_performNow (o : Op) {s : State} (hI : Inv s) : Inv (performNow o s) := by
  unfold performNow
  repeat' (first
        | assumption | with_reducible refine inv_finish _ _ ?_ | with_reducible refine inv_linkStep _ ?_
        | with_reducible refine inv_invalidate _ _ ?_ | with_reducible refine inv_wbkStart _ _ ?_
        | with_reducible refine inv_toPort _ ?_ | with_reducible refine inv_startOf _ ?_
        | with_reducible refine inv_modThr _ _ _ ?_ | with_reducible refine inv_begin_ _ _ ?_
        | with_reducible refine inv_ite ?_ ?_ | simp only [inv_mk, invOf_self] | split)
theorem inv_performOrdered (o : Op) {s : State} (hI : Inv s) : Inv (performOrdered o s) := by
  unfold performOrdered
  repeat' (first | assumption | with_reducible refine inv_performNow _ ?_ | with_reducible refine inv_ite ?_ ?_)
theorem inv_execOrderedRequest (op : Nat) {s : State} (hI : Inv s) : InvO (execOrderedRequest op s) := by
  unfold execOrderedRequest
  repeat' (first
        | assumption | with_reducible refine inv_freeEnded _ ?_ | with_reducible refine inv_performOrdered _ ?_
        | with_reducible refine inv_dropXferV _ ?_ | with_reducible refine invO_ite ?_ ?_ | rw [invO_next] | split)
theorem inv_releaseStep (op : Nat) {s : State} (hI : Inv s) : Inv (releaseStep op s) := by
  unfold releaseStep
  repeat' (first
        | assumption | with_reducible refine inv_freeEnded _ ?_ | with_reducible refine inv_performNow _ ?_
        | with_reducible refine inv_ite ?_ ?_ | split)
theorem inv_execReleasePerformed (op : Nat) {s : State} (hI : Inv s) : InvO (execReleasePerformed op s) := by
  unfold execReleasePerformed
  repeat' (first | assumption | with_reducible refine inv_releaseStep _ ?_ | rw [invO_next])
theorem inv_execFtset (r : MemRec) {s : State} (hI : Inv s) : InvO (execFtset r s) := by
  unfold execFtset
  repeat' (first | assumption | with_reducible refine inv_memFire _ _ _ ?_ | rw [invO_next])
theorem inv_ftsetDone (o : Op) (r : MemRec) {s : State} (hI : Inv s) : Inv (ftsetDone o r s) := by
  unfold ftsetDone
  repeat' (first | assumption | with_reducible refine inv_ite ?_ ?_)
theorem inv_execFtsetPerformed (op : Nat) {s : State} (hI : Inv s) : InvO (execFtsetPerformed op s) := by
  unfold execFtsetPerformed
  repeat' (first
        | assumption | with_reducible refine inv_freeEnded _ ?_ | with_reducible refine inv_ftsetDone _ _ ?_
        | with_reducible refine inv_ite ?_ ?_ | rw [invO_next] | split)
theorem inv_execFtget (fs : BitVec 5) (t : List Target) {s : State} (hI : Inv s) : InvO (execFtget fs t s) := by
  unfold execFtget
  repeat' (first | assumption | with_reducible refine inv_unlessErr _ _ (fun _ _ => ?_) ?_)
theorem inv_ftsync (fs : BitVec 5) (r : CtlRec) {s : State} (hI : Inv s) : Inv (ftsync fs r s) := by
  unfold ftsync
  repeat' (first
        | assumption | with_reducible refine inv_emitDone _ ?_ | with_reducible refine inv_ite ?_ ?_
        | simp only [inv_mk, invOf_self] | split)
theorem inv_execFtsync (fs : BitVec 5) (r : CtlRec) {s : State} (hI : Inv s) : InvO (execFtsync fs r s) := by
  unfold execFtsync
  repeat' (first
        | assumption | with_reducible refine inv_unlessErr _ _ (fun _ _ => ?_) ?_ | with_reducible refine inv_ftsync _ _ ?_)
theorem inv_execAmo (fn : AmoFn) (r : MemRec) {s : State} (hI : Inv s) : InvO (execAmo fn r s) := by
  unfold execAmo
  repeat' (first
        | assumption | with_reducible refine inv_memFire _ _ _ ?_ | simp only [inv_mk, invOf_self] | rw [invO_next])
theorem inv_execRed (fn : AmoFn) (r : MemRec) {s : State} (hI : Inv s) : InvO (execRed fn r s) := by
  unfold execRed
  repeat' (first
        | assumption | with_reducible refine inv_memFire _ _ _ ?_ | simp only [inv_mk, invOf_self] | rw [invO_next])
theorem inv_execCas (r : MemRec) {s : State} (hI : Inv s) : InvO (execCas r s) := by
  unfold execCas
  repeat' (first | assumption | with_reducible refine inv_memFire _ _ _ ?_ | rw [invO_next])
theorem inv_execXred (r : MemRec) {s : State} (hI : Inv s) : InvO (execXred r s) := by
  unfold execXred
  repeat' (first
        | assumption | with_reducible refine inv_memFire _ _ _ ?_ | simp only [inv_mk, invOf_self] | rw [invO_next])
theorem inv_execXrd (r : MemRec) {s : State} (hI : Inv s) : InvO (execXrd r s) := by
  unfold execXrd
  repeat' (first
        | assumption | with_reducible refine inv_memFire _ _ _ ?_ | simp only [inv_mk, invOf_self] | rw [invO_next])

end Sys2Proof.Machine
end

