-- ==== Sys2Proof/Laws/InvTiles.lean ====
section
/-! SUPPORT. The invariant of Safety.lean passes through every function over states: control, tiles, matrices, matching stores, threads and calls. -/
set_option linter.unusedSimpArgs false
namespace Sys2Proof.Machine

theorem inv_execPass (r : CtlRec) {s : State} (hI : Inv s) : InvO (execPass r s) := by
  unfold execPass
  repeat' (first | assumption | with_reducible refine inv_unlessErr _ _ (fun _ _ => ?_) ?_)
theorem inv_execConst (v : Subst) (t : List Target) {s : State} (hI : Inv s) : InvO (execConst v t s) := by
  unfold execConst
  repeat' (first | assumption | with_reducible refine inv_unlessErr _ _ (fun _ _ => ?_) ?_)
theorem inv_steer (i : Instr) (want : Bool) {s : State} (hI : Inv s) : Inv (steer i want s) := by
  unfold steer
  repeat' (first | assumption | with_reducible refine inv_ite ?_ ?_)
theorem inv_execSteerT (r : CtlRec) {s : State} (hI : Inv s) : InvO (execSteerT r s) := by
  unfold execSteerT
  repeat' (first
        | assumption | with_reducible refine inv_unlessErr _ _ (fun _ _ => ?_) ?_ | with_reducible refine inv_steer _ _ ?_)
theorem inv_execSteerF (r : CtlRec) {s : State} (hI : Inv s) : InvO (execSteerF r s) := by
  unfold execSteerF
  repeat' (first
        | assumption | with_reducible refine inv_unlessErr _ _ (fun _ _ => ?_) ?_ | with_reducible refine inv_steer _ _ ?_)
theorem inv_execSelect (r : CtlRec) {s : State} (hI : Inv s) : InvO (execSelect r s) := by
  unfold execSelect
  repeat' (first | assumption | with_reducible refine inv_unlessErr _ _ (fun _ _ => ?_) ?_)
theorem inv_execWaveAdv (r : CtlRec) {s : State} (hI : Inv s) : InvO (execWaveAdv r s) := by
  unfold execWaveAdv
  repeat' (first | assumption | with_reducible refine inv_unlessErr _ _ (fun _ _ => ?_) ?_)
theorem inv_execWaveSet (r : CtlRec) {s : State} (hI : Inv s) : InvO (execWaveSet r s) := by
  unfold execWaveSet
  repeat' (first | assumption | with_reducible refine inv_unlessErr _ _ (fun _ _ => ?_) ?_)
theorem inv_sink (count : Bool) (eos : Bool) {s : State} (hI : Inv s) : Inv (sink count eos s) := by
  unfold sink
  repeat' (first
        | assumption | with_reducible refine inv_modInst _ _ ?_ | with_reducible refine inv_endIf _ _ _ ?_
        | with_reducible refine inv_ite ?_ ?_)
theorem inv_execSinkDrop {s : State} (hI : Inv s) : InvO (execSinkDrop s) := by
  unfold execSinkDrop
  repeat' (first | assumption | with_reducible refine inv_sink _ _ ?_ | rw [invO_next])
theorem inv_execSinkEos {s : State} (hI : Inv s) : InvO (execSinkEos s) := by
  unfold execSinkEos
  repeat' (first | assumption | with_reducible refine inv_sink _ _ ?_ | rw [invO_next])
theorem inv_execSinkCount {s : State} (hI : Inv s) : InvO (execSinkCount s) := by
  unfold execSinkCount
  repeat' (first | assumption | with_reducible refine inv_sink _ _ ?_ | rw [invO_next])
theorem inv_execEosMake (r : CtlRec) {s : State} (hI : Inv s) : InvO (execEosMake r s) := by
  unfold execEosMake
  repeat' assumption
theorem inv_execErrTest (r : CtlRec) {s : State} (hI : Inv s) : InvO (execErrTest r s) := by
  unfold execErrTest
  repeat' assumption
theorem inv_execErrClear (r : CtlRec) {s : State} (hI : Inv s) : InvO (execErrClear r s) := by
  unfold execErrClear
  repeat' assumption
theorem inv_execErrMake (r : CtlRec) (code : BitVec 8) {s : State} (hI : Inv s) : InvO (execErrMake r code s) := by
  unfold execErrMake
  repeat' (first | assumption | with_reducible refine inv_unlessErr _ _ (fun _ _ => ?_) ?_)
theorem inv_trapEntry (i : Instr) (kind : Byte) (code : BitVec 16) {s : State}
    (hI : Inv s) : Inv (trapEntry i kind code s) := by
  unfold trapEntry
  repeat' (first
        | assumption | with_reducible refine inv_opException _ _ ?_ | with_reducible refine inv_modOp _ _ ?_
        | simp only [inv_mk, invOf_self] | split)
theorem inv_execSysTrap (code : BitVec 16) (t : List Target) {s : State} (hI : Inv s) : InvO (execSysTrap code t s) := by
  unfold execSysTrap
  repeat' (first
        | assumption | with_reducible refine inv_unlessErr _ _ (fun _ _ => ?_) ?_
        | with_reducible refine inv_trapEntry _ _ _ ?_)
theorem inv_sysBrk (i : Instr) (code : BitVec 16) {s : State} (hI : Inv s) : Inv (sysBrk i code s) := by
  unfold sysBrk
  repeat' (first
        | assumption | with_reducible refine inv_modInst _ _ ?_ | with_reducible refine inv_trapEntry _ _ _ ?_
        | with_reducible refine inv_ite ?_ ?_)
theorem inv_execSysBrk (code : BitVec 16) (t : List Target) {s : State} (hI : Inv s) : InvO (execSysBrk code t s) := by
  unfold execSysBrk
  repeat' (first
        | assumption | with_reducible refine inv_unlessErr _ _ (fun _ _ => ?_) ?_ | with_reducible refine inv_sysBrk _ _ ?_)
theorem inv_sysQry (i : Instr) (sel : BitVec 8) {s : State} (hI : Inv s) : Inv (sysQry i sel s) := by
  unfold sysQry
  repeat' (first
        | assumption | with_reducible refine inv_emit64 _ _ _ ?_ | with_reducible refine inv_ite ?_ ?_
        | simp only [inv_mk, invOf_self] | split)
theorem inv_execSysQry (sel : BitVec 8) (t : List Target) {s : State} (hI : Inv s) : InvO (execSysQry sel t s) := by
  unfold execSysQry
  repeat' (first
        | assumption | with_reducible refine inv_unlessErr _ _ (fun _ _ => ?_) ?_ | with_reducible refine inv_sysQry _ _ ?_)
theorem inv_execSysClk (t : List Target) {s : State} (hI : Inv s) : InvO (execSysClk t s) := by
  unfold execSysClk
  repeat' (first | assumption | with_reducible refine inv_unlessErr _ _ (fun _ _ => ?_) ?_)
theorem inv_received (n : Nat) (f : Flight) {s : State} (hI : Inv s) : Inv (received n f s) := by
  unfold received
  repeat' assumption
theorem inv_discardTok (f : Flight) {s : State} (hI : Inv s) : Inv (discardTok f s) := by
  unfold discardTok
  repeat' assumption
theorem inv_execCwCopyUpdate (inst : Nat) (cl : Nat) (pe : Nat) (thr : BitVec 16) {s : State}
    (hI : Inv s) : InvO (execCwCopyUpdate inst cl pe thr s) := by
  unfold execCwCopyUpdate
  repeat' assumption
theorem inv_ageOverride (i : Inst) (cl : Nat) (pe : Nat) {s : State} (hI : Inv s) : Inv (ageOverride i cl pe s) := by
  unfold ageOverride
  repeat' (first | assumption | simp only [inv_mk, invOf_self] | split)
theorem inv_execAgeOverride (cl : Nat) (pe : Nat) {s : State} (hI : Inv s) : InvO (execAgeOverride cl pe s) := by
  unfold execAgeOverride
  repeat' (first | assumption | with_reducible refine inv_ageOverride _ _ _ ?_ | rw [invO_next] | split)
theorem inv_withTiles (i : Instr) (hs : List Nat) (ok : W64 → Bool) (body : State → State) {s : State}
    (hbody : ∀ a0, Inv a0 → Inv (body a0)) (hI : Inv s) : InvO (withTiles i hs ok body s) := by
  unfold withTiles
  repeat' (first
        | assumption | with_reducible refine hbody _ ?_ | with_reducible refine inv_unlessErr _ _ (fun _ _ => ?_) ?_
        | simp only [inv_mk, invOf_self] | split)
theorem inv_emitHandle (i : Instr) (h : Nat) {s : State} (hI : Inv s) : Inv (emitHandle i h s) := by
  unfold emitHandle
  repeat' assumption
theorem inv_tileOp (i : Instr) (h : Nat) (e : W64) (old : W256) (slots : List Nat) {s : State}
    (hI : Inv s) : Inv (tileOp i h e old slots s) := by
  unfold tileOp
  repeat' assumption
theorem inv_execTld (h : BitVec 8) (t : List Target) {s : State} (hI : Inv s) : InvO (execTld h t s) := by
  unfold execTld
  repeat' (first | assumption | with_reducible refine inv_withTiles _ _ _ _ (fun _ _ => ?_) ?_)
theorem inv_tldAccFire (h : BitVec 4) (t : List Target) {s : State} (hI : Inv s) : Inv (tldAccFire h t s) := by
  unfold tldAccFire
  repeat' assumption
theorem inv_execTldAcc (h : BitVec 4) (t : List Target) {s : State} (hI : Inv s) : InvO (execTldAcc h t s) := by
  unfold execTldAcc
  repeat' (first | assumption | with_reducible refine inv_unlessErr _ _ (fun _ _ => ?_) ?_)
theorem inv_execTst (h : BitVec 8) (t : List Target) {s : State} (hI : Inv s) : InvO (execTst h t s) := by
  unfold execTst
  repeat' (first | assumption | with_reducible refine inv_withTiles _ _ _ _ (fun _ _ => ?_) ?_)
theorem inv_execTstAcc (h : BitVec 4) (t : List Target) {s : State} (hI : Inv s) : InvO (execTstAcc h t s) := by
  unfold execTstAcc
  repeat' (first | assumption | with_reducible refine inv_unlessErr _ _ (fun _ _ => ?_) ?_)
theorem inv_execTzero (h : BitVec 8) (t : List Target) {s : State} (hI : Inv s) : InvO (execTzero h t s) := by
  unfold execTzero
  repeat' (first
        | assumption | with_reducible refine inv_withTiles _ _ _ _ (fun _ _ => ?_) ?_
        | with_reducible refine inv_emitHandle _ _ ?_ | with_reducible refine inv_setTState _ _ _ ?_
        | with_reducible refine invOf_tilesClear _ _ ?_ | simp only [inv_mk, invOf_self])
theorem inv_accEmpty (cl : Nat) (h : Nat) (cur : Tag) {s : State} (hI : Inv s) : Inv (accEmpty cl h cur s) := by
  unfold accEmpty
  repeat' assumption
theorem inv_execTzeroAcc (h : BitVec 4) (t : List Target) {s : State} (hI : Inv s) : InvO (execTzeroAcc h t s) := by
  unfold execTzeroAcc
  repeat' (first | assumption | with_reducible refine inv_unlessErr _ _ (fun _ _ => ?_) ?_)
theorem inv_execTempty (h : BitVec 8) (t : List Target) {s : State} (hI : Inv s) : InvO (execTempty h t s) := by
  unfold execTempty
  repeat' (first
        | assumption | with_reducible refine inv_withTiles _ _ _ _ (fun _ _ => ?_) ?_ | with_reducible refine inv_ite ?_ ?_)
theorem inv_twoTiles (i : Instr) (src : BitVec 8) (dst : BitVec 8) (ok : W64 → Bool) (shape : W64 → W64 → Bool) {s : State}
    (hI : Inv s) : InvO (twoTiles i src dst ok shape s) := by
  unfold twoTiles
  repeat' (first
        | assumption | with_reducible refine inv_withTiles _ _ _ _ (fun _ _ => ?_) ?_ | with_reducible refine inv_ite ?_ ?_)
theorem inv_execTcvt (src : BitVec 8) (dst : BitVec 8) (t : List Target) {s : State}
    (hI : Inv s) : InvO (execTcvt src dst t s) := by
  unfold execTcvt
  repeat' (first | assumption | with_reducible refine inv_twoTiles _ _ _ _ _ ?_)
theorem inv_execTtrn (src : BitVec 8) (dst : BitVec 8) (t : List Target) {s : State}
    (hI : Inv s) : InvO (execTtrn src dst t s) := by
  unfold execTtrn
  repeat' (first | assumption | with_reducible refine inv_twoTiles _ _ _ _ _ ?_)
theorem inv_tdescWrite (cl : Nat) (h : Nat) (e : W64) {s : State} (hI : Inv s) : Inv (tdescWrite cl h e s) := by
  unfold tdescWrite
  split
  · exact inv_setTdir _ _ _ hI
  · exact inv_foldl (fun _ _ h => inv_setTdir _ _ _ h) _ hI
theorem inv_execTdesc (h : BitVec 8) (t : List Target) {s : State} (hI : Inv s) : InvO (execTdesc h t s) := by
  unfold execTdesc
  repeat' (first
        | assumption | with_reducible refine inv_unlessErr _ _ (fun _ _ => ?_) ?_ | with_reducible refine inv_emit64 _ _ _ ?_
        | with_reducible refine inv_tdescWrite _ _ _ ?_ | with_reducible refine inv_ite ?_ ?_)
theorem inv_execTqry (h : BitVec 8) (t : List Target) {s : State} (hI : Inv s) : InvO (execTqry h t s) := by
  unfold execTqry
  repeat' (first | assumption | with_reducible refine inv_unlessErr _ _ (fun _ _ => ?_) ?_)
theorem inv_execTqryAcc (h : BitVec 4) (t : List Target) {s : State} (hI : Inv s) : InvO (execTqryAcc h t s) := by
  unfold execTqryAcc
  repeat' (first | assumption | with_reducible refine inv_unlessErr _ _ (fun _ _ => ?_) ?_)
theorem inv_execSpacc (h : BitVec 8) (t : List Target) {s : State} (hI : Inv s) : InvO (execSpacc h t s) := by
  unfold execSpacc
  repeat' (first
        | assumption | with_reducible refine inv_withTiles _ _ _ _ (fun _ _ => ?_) ?_ | with_reducible refine inv_ite ?_ ?_)
theorem inv_tileRevert (o : Op) {s : State} (hI : Inv s) : Inv (tileRevert o s) := by
  unfold tileRevert
  repeat' (first | assumption | simp only [inv_mk, invOf_self] | split)
theorem inv_tileEmit (id : Nat) (err : Option W64) (v : Nat) {s : State} (hI : Inv s) : Inv (tileEmit id err v s) := by
  unfold tileEmit
  repeat' (first | assumption | with_reducible refine inv_emitDone _ ?_ | simp only [inv_mk, invOf_self] | split)
theorem inv_storeError (o : Op) {s : State} (hI : Inv s) : Inv (storeError o s) := by
  unfold storeError
  repeat' (first
        | assumption | with_reducible refine inv_tileEmit _ _ _ ?_ | with_reducible refine inv_countLog _ _ _ _ ?_)
theorem inv_tldStore (o : Op) {s : State} (hI : Inv s) : Inv (tldStore o s) := by
  unfold tldStore
  repeat' (first
        | assumption | with_reducible refine inv_setLineElem _ _ _ _ _ ?_ | with_reducible refine inv_ite ?_ ?_
        | with_reducible refine inv_foldl (fun _ _ _ => ?_) _ ?_)
theorem inv_tldAccStore (o : Op) {s : State} (hI : Inv s) : Inv (tldAccStore o s) := by
  unfold tldAccStore
  repeat' (first | assumption | with_reducible refine inv_foldl (fun _ _ _ => ?_) _ ?_)
theorem inv_tileAccessed (o : Op) {s : State} (hI : Inv s) : Inv (tileAccessed o s) := by
  unfold tileAccessed
  repeat' (first
        | assumption | with_reducible refine inv_tldStore _ ?_ | with_reducible refine inv_tileEmit _ _ _ ?_
        | with_reducible refine inv_setTState _ _ _ ?_ | with_reducible refine inv_tldAccStore _ ?_
        | with_reducible refine inv_accPut _ _ _ ?_ | with_reducible refine inv_tileRevert _ ?_
        | simp only [inv_mk, invOf_self] | split)
theorem inv_tileAccess (o : Op) {s : State} (hI : Inv s) : Inv (tileAccess o s) := by
  unfold tileAccess
  repeat' (first
        | assumption | with_reducible refine inv_tileEmit _ _ _ ?_ | with_reducible refine inv_tileRevert _ ?_
        | with_reducible refine inv_tileAccessed _ ?_ | with_reducible refine inv_storeError _ ?_
        | with_reducible refine inv_startOf _ ?_ | with_reducible refine inv_begin_ _ _ ?_
        | with_reducible refine inv_stamp _ ?_ | with_reducible refine inv_ite ?_ ?_ | simp only [inv_mk, invOf_self] | split)
theorem inv_putOver (cl : Nat) (x : W64) (y : W64) (n : Nat) (at_ : Nat → Nat × Nat) (val : Nat → Nat) {s : State} (hI : Inv s) :
    Inv (putOver cl x y n at_ val s) := by
  unfold putOver
  repeat' (first
         | assumption | with_reducible refine inv_setTileElem _ _ _ _ _ ?_ | with_reducible refine inv_ite ?_ ?_
         | with_reducible refine inv_ite_snd ?_ ?_ | with_reducible refine inv_ite_fst ?_ ?_ | with_reducible refine invO_ite ?_ ?_
         | with_reducible refine inv_foldl (fun _ _ _ => ?_) _ ?_ | with_reducible refine inv_foldl_snd (fun _ _ _ => ?_) _ ?_
         | with_reducible refine inv_foldl_fst (fun _ _ _ => ?_) _ ?_ | with_reducible refine invOf_mem _ _ ?_
         | with_reducible refine invOf_memFilter _ ?_ | with_reducible refine invOf_tiles _ _ ?_
         | with_reducible refine invOf_tilesFilter _ ?_ | with_reducible refine invOf_tilesClear _ _ ?_
         | with_reducible refine invOf_ctrs _ _ ?_ | simp only [inv_mk, invOf_self] | rw [invO_next] | split)
theorem inv_tcvtDone (o : Op) {s : State} (hI : Inv s) : Inv (tcvtDone o s) := by
  unfold tcvtDone
  repeat' (first
         | assumption | with_reducible refine inv_putOver _ _ _ _ _ _ ?_ | with_reducible refine inv_raise _ _ ?_
         | with_reducible refine inv_foldl (fun _ _ _ => ?_) _ ?_ | with_reducible refine inv_foldl_snd (fun _ _ _ => ?_) _ ?_
         | with_reducible refine inv_foldl_fst (fun _ _ _ => ?_) _ ?_ | simp only [inv_mk, invOf_self] | split)
theorem inv_ttrnDone (o : Op) {s : State} (hI : Inv s) : Inv (ttrnDone o s) := by
  unfold ttrnDone
  repeat' (first | assumption | with_reducible refine inv_putOver _ _ _ _ _ _ ?_ | simp only [inv_mk, invOf_self] | split)
theorem inv_spaccDone (o : Op) {s : State} (hI : Inv s) : Inv (spaccDone o s) := by
  unfold spaccDone
  repeat' (first
        | assumption | with_reducible refine inv_storeError _ ?_ | with_reducible refine inv_setTState _ _ _ ?_
        | with_reducible refine inv_tileEmit _ _ _ ?_ | with_reducible refine inv_raise _ _ ?_
        | with_reducible refine inv_setTileElem _ _ _ _ _ ?_ | with_reducible refine inv_ite ?_ ?_)
theorem inv_twoDone (o : Op) (body : State → State) {s : State}
    (hbody : ∀ a0, Inv a0 → Inv (body a0)) (hI : Inv s) : Inv (twoDone o body s) := by
  unfold twoDone
  repeat' (first
        | assumption | with_reducible refine hbody _ ?_ | with_reducible refine inv_storeError _ ?_
        | with_reducible refine inv_setTState _ _ _ ?_ | with_reducible refine inv_addReader _ _ _ ?_
        | with_reducible refine inv_tileEmit _ _ _ ?_ | with_reducible refine inv_ite ?_ ?_)
theorem inv_execTileCompletion (op : Nat) {s : State} (hI : Inv s) : InvO (execTileCompletion op s) := by
  unfold execTileCompletion
  repeat' (first
        | assumption | with_reducible refine inv_tileAccess _ ?_ | with_reducible refine inv_twoDone _ _ (fun _ _ => ?_) ?_
        | with_reducible refine inv_tcvtDone _ ?_ | with_reducible refine inv_ttrnDone _ ?_
        | with_reducible refine inv_spaccDone _ ?_ | with_reducible refine inv_ite ?_ ?_ | rw [invO_next] | split)
theorem inv_keepFirst (x0 : Option Tok) (b : Option Tok) {s : State} (hI : Inv s) : Inv (keepFirst x0 b s) := by
  unfold keepFirst
  repeat' assumption
theorem inv_isect (t : List Target) {s : State} (hI : Inv s) : Inv (isect t s) := by
  unfold isect
  repeat' (first | assumption | with_reducible refine inv_ite ?_ ?_)
theorem inv_execIsect (t : List Target) {s : State} (hI : Inv s) : InvO (execIsect t s) := by
  unfold execIsect
  repeat' (first
        | assumption | with_reducible refine inv_unlessErr _ _ (fun _ _ => ?_) ?_ | with_reducible refine inv_isect _ ?_)
theorem inv_execSstrm (fs : BitVec 5) (t : List Target) {s : State} (hI : Inv s) : InvO (execSstrm fs t s) := by
  unfold execSstrm
  repeat' (first | assumption | with_reducible refine inv_withFormats _ _ _ _ (fun _ _ => ?_) ?_)
theorem inv_streamTok (o : Op) (v : W64) (e : Bool) (sf : Bool) {s : State} (hI : Inv s) : Inv (streamTok o v e sf s) := by
  unfold streamTok
  repeat' assumption
theorem inv_streamErr (o : Op) (code : W64) {s : State} (hI : Inv s) : Inv (streamErr o code s) := by
  unfold streamErr
  repeat' assumption
theorem inv_streamEnd (o : Op) {s : State} (hI : Inv s) : Inv (streamEnd o s) := by
  unfold streamEnd
  repeat' assumption
theorem inv_streamNext (id : Nat) (step : Nat) (coord : W64) (f : Op → Op) {s : State}
    (hI : Inv s) : Inv (streamNext id step coord f s) := by
  unfold streamNext
  repeat' assumption
theorem inv_streamGot (o : Op) {s : State} (hI : Inv s) : Inv (streamGot o s) := by
  unfold streamGot
  repeat' (first
        | assumption | with_reducible refine inv_streamNext _ _ _ _ ?_ | with_reducible refine inv_ite ?_ ?_
        | simp only [inv_mk, invOf_self] | split)
theorem inv_streamAhead (o : Op) {s : State} (hI : Inv s) : Inv (streamAhead o s) := by
  unfold streamAhead
  repeat' (first
         | assumption | with_reducible refine inv_readAheadOf _ _ ?_ | with_reducible refine inv_ite ?_ ?_
         | with_reducible refine inv_ite_snd ?_ ?_ | with_reducible refine inv_ite_fst ?_ ?_ | with_reducible refine invO_ite ?_ ?_
         | with_reducible refine inv_foldl (fun _ _ _ => ?_) _ ?_ | with_reducible refine inv_foldl_snd (fun _ _ _ => ?_) _ ?_
         | with_reducible refine inv_foldl_fst (fun _ _ _ => ?_) _ ?_ | with_reducible refine invOf_mem _ _ ?_
         | with_reducible refine invOf_memFilter _ ?_ | with_reducible refine invOf_tiles _ _ ?_
         | with_reducible refine invOf_tilesFilter _ ?_ | with_reducible refine invOf_tilesClear _ _ ?_
         | with_reducible refine invOf_ctrs _ _ ?_ | simp only [inv_mk, invOf_self] | rw [invO_next] | split)
theorem inv_streamGo (o : Op) {s : State} (hI : Inv s) : Inv (streamGo o s) := by
  unfold streamGo
  split
  · exact inv_streamErr _ _ hI
  · refine inv_ite (inv_streamGot _ hI) (inv_ite hI (inv_ite (inv_streamEnd _ hI) ?_))
    have h := inv_startOf o hI
    generalize startOf o s = r at h ⊢
    obtain ⟨x, t⟩ := r
    cases x with
    | wait => exact h
    | parked => exact h
    | fail e => exact inv_streamErr _ _ h
    | go els => exact inv_streamAhead _ (inv_begin_ _ _ (inv_stamp _ h))
theorem inv_execSstrmToken (op : Nat) {s : State} (hI : Inv s) : InvO (execSstrmToken op s) := by
  unfold execSstrmToken
  repeat' (first | assumption | with_reducible refine inv_streamGo _ ?_ | rw [invO_next] | split)
theorem inv_curNext (cl : Nat) (d : Nat) {s : State} (hI : Inv s) : Inv (curNext cl d s) := by
  unfold curNext
  repeat' assumption
theorem inv_mmaQueue (i : Instr) (cl : Nat) (p : MmaParts) (t : MmaTiles) {s : State}
    (hI : Inv s) : Inv (mmaQueue i cl p t s) := by
  unfold mmaQueue
  repeat' (first
        | assumption | with_reducible refine inv_accPut _ _ _ ?_ | with_reducible refine inv_ite ?_ ?_
        | with_reducible refine inv_foldl (fun _ _ _ => ?_) _ ?_)
theorem inv_mmaFire (i : Instr) {s : State} (hI : Inv s) : Inv (mmaFire i s) := by
  unfold mmaFire
  repeat' (first
        | assumption | with_reducible refine inv_mmaQueue _ _ _ _ ?_ | with_reducible refine inv_ite ?_ ?_
        | simp only [inv_mk, invOf_self] | split)
theorem inv_execMmaDense (m : MmaRec) {s : State} (hI : Inv s) : InvO (execMmaDense m s) := by
  unfold execMmaDense
  repeat' (first | assumption | with_reducible refine inv_mmaFire _ ?_ | rw [invO_next])
theorem inv_execMmaAcca (fs : BitVec 5) (clmp : Bool) (psh : BitVec 6) (m : MmaRec) {s : State}
    (hI : Inv s) : InvO (execMmaAcca fs clmp psh m s) := by
  unfold execMmaAcca
  repeat' (first | assumption | with_reducible refine inv_mmaFire _ ?_ | rw [invO_next])
theorem inv_execMmaMx (sa : BitVec 8) (sb : BitVec 8) (m : MmaRec) {s : State} (hI : Inv s) : InvO (execMmaMx sa sb m s) := by
  unfold execMmaMx
  repeat' (first | assumption | with_reducible refine inv_mmaFire _ ?_ | rw [invO_next])
theorem inv_execMmaTwo (ba : BitVec 8) (bb : BitVec 8) (sa : BitVec 8) (sb : BitVec 8) (m : MmaRec) {s : State}
    (hI : Inv s) : InvO (execMmaTwo ba bb sa sb m s) := by
  unfold execMmaTwo
  repeat' (first | assumption | with_reducible refine inv_mmaFire _ ?_ | rw [invO_next])
theorem inv_execMmaStart (cl : Nat) {s : State} (hI : Inv s) : InvO (execMmaStart cl s) := by
  unfold execMmaStart
  repeat' (first | assumption | with_reducible refine invO_ite ?_ ?_ | split)
theorem inv_mmaFree (o : Op) (p : MmaParts) {s : State} (hI : Inv s) : Inv (mmaFree o p s) := by
  unfold mmaFree
  repeat' (first
        | assumption | with_reducible refine inv_accPut _ _ _ ?_ | with_reducible refine inv_ite ?_ ?_
        | with_reducible refine inv_foldl (fun _ _ _ => ?_) _ ?_)
theorem inv_mmaDone (o : Op) (p : MmaParts) {s : State} (hI : Inv s) : Inv (mmaDone o p s) := by
  unfold mmaDone
  repeat' (first
        | assumption | with_reducible refine inv_accPut _ _ _ ?_ | with_reducible refine inv_delOp _ ?_
        | with_reducible refine inv_emit64 _ _ _ ?_ | with_reducible refine inv_raise _ _ ?_
        | with_reducible refine inv_mmaFree _ _ ?_ | with_reducible refine inv_foldl (fun _ _ _ => ?_) _ ?_)
theorem inv_mmaSpoilt (o : Op) (p : MmaParts) {s : State} (hI : Inv s) : Inv (mmaSpoilt o p s) := by
  unfold mmaSpoilt
  repeat' (first
        | assumption | with_reducible refine inv_storeError _ ?_ | with_reducible refine inv_accEmpty _ _ _ ?_
        | with_reducible refine inv_mmaFree _ _ ?_)
theorem inv_execMmaComplete (cl : Nat) {s : State} (hI : Inv s) : InvO (execMmaComplete cl s) := by
  unfold execMmaComplete
  repeat' (first
        | assumption | with_reducible refine inv_mmaSpoilt _ _ ?_ | with_reducible refine inv_mmaDone _ _ ?_
        | with_reducible refine inv_ite ?_ ?_ | rw [invO_next] | split)
theorem inv_putBack (i : Instr) {s : State} (hI : Inv s) : Inv (putBack i s) := by
  unfold putBack
  repeat' assumption
theorem inv_allocThr (inst : Nat) (c : BitVec 16) (cw : BitVec 24) {s : State} (hI : Inv s) : Inv (allocThr inst c cw s) := by
  unfold allocThr
  repeat' assumption
theorem inv_spawn (i : Instr) {s : State} (hI : Inv s) : Inv (spawn i s) := by
  unfold spawn
  repeat' (first | assumption | with_reducible refine inv_endIf _ _ _ ?_ | simp only [inv_mk, invOf_self] | split)
theorem inv_execSpawn (r : CtlRec) {s : State} (hI : Inv s) : InvO (execSpawn r s) := by
  unfold execSpawn
  repeat' (first
        | assumption | with_reducible refine inv_unlessErr _ _ (fun _ _ => ?_) ?_ | with_reducible refine inv_spawn _ ?_)
theorem inv_execTagGet (r : CtlRec) {s : State} (hI : Inv s) : InvO (execTagGet r s) := by
  unfold execTagGet
  repeat' (first | assumption | with_reducible refine inv_unlessErr _ _ (fun _ _ => ?_) ?_)
theorem inv_tagMove (i : Instr) (t : Tag) {s : State} (hI : Inv s) : Inv (tagMove i t s) := by
  unfold tagMove
  repeat' (first | assumption | with_reducible refine inv_endIf _ _ _ ?_ | with_reducible refine inv_ite ?_ ?_)
theorem inv_execTagSet (r : CtlRec) {s : State} (hI : Inv s) : InvO (execTagSet r s) := by
  unfold execTagSet
  repeat' (first
        | assumption | with_reducible refine inv_unlessErr _ _ (fun _ _ => ?_) ?_ | with_reducible refine inv_tagMove _ _ ?_)
theorem inv_execTagThr (r : CtlRec) {s : State} (hI : Inv s) : InvO (execTagThr r s) := by
  unfold execTagThr
  repeat' (first
        | assumption | with_reducible refine inv_unlessErr _ _ (fun _ _ => ?_) ?_ | with_reducible refine inv_tagMove _ _ ?_)
theorem inv_execTagWav (r : CtlRec) {s : State} (hI : Inv s) : InvO (execTagWav r s) := by
  unfold execTagWav
  repeat' (first
        | assumption | with_reducible refine inv_unlessErr _ _ (fun _ _ => ?_) ?_ | with_reducible refine inv_tagMove _ _ ?_)
theorem inv_execLoopGate (r : CtlRec) {s : State} (hI : Inv s) : InvO (execLoopGate r s) := by
  unfold execLoopGate
  repeat' (first | assumption | with_reducible refine inv_unlessErr _ _ (fun _ _ => ?_) ?_)
theorem inv_discardPermits (inst : Nat) (p : Place) (t : BitVec 16) (ts : List Target) {s : State}
    (hI : Inv s) : Inv (discardPermits inst p t ts s) := by
  unfold discardPermits
  repeat' (first | assumption | with_reducible refine inv_endIf _ _ _ ?_ | simp only [inv_mk, invOf_self] | split)
theorem inv_emitWaves (i : Instr) (k : Nat) {s : State} (hI : Inv s) : Inv (emitWaves i k s) := by
  unfold emitWaves
  repeat' (first | assumption | with_reducible refine inv_foldl (fun _ _ _ => ?_) _ ?_)
theorem inv_execLoopOpen (r : CtlRec) (k : BitVec 7) {s : State} (hI : Inv s) : InvO (execLoopOpen r k s) := by
  unfold execLoopOpen
  repeat' (first
        | assumption | with_reducible refine inv_unlessErr _ _ (fun _ _ => ?_) ?_
        | with_reducible refine inv_emitWaves _ _ ?_ | with_reducible refine inv_discardPermits _ _ _ _ ?_)
theorem inv_loopClose (i : Instr) {s : State} (hI : Inv s) : Inv (loopClose i s) := by
  unfold loopClose
  repeat' (first | assumption | with_reducible refine inv_ite ?_ ?_)
theorem inv_execLoopClose (r : CtlRec) {s : State} (hI : Inv s) : InvO (execLoopClose r s) := by
  unfold execLoopClose
  repeat' (first
        | assumption | with_reducible refine inv_unlessErr _ _ (fun _ _ => ?_) ?_ | with_reducible refine inv_loopClose _ ?_)
theorem inv_callFire (i : Instr) (v : Bool) {s : State} (hI : Inv s) : Inv (callFire i v s) := by
  unfold callFire
  repeat' (first | assumption | with_reducible refine inv_ite ?_ ?_ | simp only [inv_mk, invOf_self] | split)
theorem inv_execCall (r : CtlRec) {s : State} (hI : Inv s) : InvO (execCall r s) := by
  unfold execCall
  repeat' (first
        | assumption | with_reducible refine inv_unlessErr _ _ (fun _ _ => ?_) ?_ | with_reducible refine inv_callFire _ _ ?_)
theorem inv_retFire (i : Instr) {s : State} (hI : Inv s) : Inv (retFire i s) := by
  unfold retFire
  repeat' (first | assumption | with_reducible refine inv_endIf _ _ _ ?_ | simp only [inv_mk, invOf_self] | split)
theorem inv_execRet (r : CtlRec) {s : State} (hI : Inv s) : InvO (execRet r s) := by
  unfold execRet
  repeat' (first | assumption | with_reducible refine inv_retFire _ ?_ | rw [invO_next])
theorem inv_doHandOff (o : Op) {s : State} (hI : Inv s) : Inv (doHandOff o s) := by
  unfold doHandOff
  repeat' assumption
theorem inv_execHandOff (op : Nat) {s : State} (hI : Inv s) : InvO (execHandOff op s) := by
  unfold execHandOff
  repeat' (first | assumption | with_reducible refine inv_ite ?_ ?_ | rw [invO_next] | split)
theorem inv_doReturn (o : Op) (fr : Frame) {s : State} (hI : Inv s) : Inv (doReturn o fr s) := by
  unfold doReturn
  extract_lets call ts cv child s1 s2 s3 s4 s5
  have h4 : Inv s4 := inv_sendFrom _ _ _ _ (inv_modThr _ _ _ (inv_endOfStream _ _ (inv_modThr _ _ _ (inv_delOp _ hI))))
  have h5 : Inv s5 := by
    clear_value s4
    unfold s5
    split
    · exact inv_doHandOff _ h4
    · exact h4
  exact inv_freeEnded _ h5
theorem inv_execReturn (op : Nat) {s : State} (hI : Inv s) : InvO (execReturn op s) := by
  unfold execReturn
  repeat' (first
        | assumption | with_reducible refine inv_doReturn _ _ ?_ | with_reducible refine inv_ite ?_ ?_ | rw [invO_next]
        | split)

end Sys2Proof.Machine
end

