-- ==== Sys2Proof/Laws/InvTransfer.lean ====
section
/-! SUPPORT. The invariant of Safety.lean passes through every function over states: transfers, the fetch of a record, the front end's accesses and completion. -/
set_option linter.unusedSimpArgs false
namespace Sys2Proof.Machine

theorem inv_execXcopy (r : XferRec) {s : State} (hI : Inv s) : InvO (execXcopy r s) := by
  unfold execXcopy
  repeat' assumption
theorem inv_execXgath (r : XferRec) {s : State} (hI : Inv s) : InvO (execXgath r s) := by
  unfold execXgath
  repeat' assumption
theorem inv_execXscat (r : XferRec) {s : State} (hI : Inv s) : InvO (execXscat r s) := by
  unfold execXscat
  repeat' assumption
theorem inv_execXtile (r : XferRec) {s : State} (hI : Inv s) : InvO (execXtile r s) := by
  unfold execXtile
  repeat' assumption
theorem inv_execXfill (r : XferRec) {s : State} (hI : Inv s) : InvO (execXfill r s) := by
  unfold execXfill
  repeat' assumption
theorem inv_execXacc (r : XferRec) {s : State} (hI : Inv s) : InvO (execXacc r s) := by
  unfold execXacc
  repeat' assumption
theorem inv_xEmit (x : Xfer) (node : SweepNode) (err : Option W64) (v : W64) {s : State}
    (hI : Inv s) : Inv (xEmit x node err v s) := by
  unfold xEmit
  repeat' (first | assumption | with_reducible refine inv_endIf _ _ _ ?_)
theorem inv_admitted_ (x : Xfer) (i : Inst) {s : State} (hI : Inv s) : Inv (admitted_ x i s) := by
  unfold admitted_
  repeat' (first
        | assumption | with_reducible refine inv_delX _ ?_ | with_reducible refine inv_xEmit _ _ _ _ ?_
        | simp only [inv_mk, invOf_self] | split)
theorem inv_readmit (t : Xfer) (st : Nat) (fid : W32) {s : State} (hI : Inv s) : Inv (readmit t st fid s) := by
  unfold readmit
  repeat' (first
         | assumption | with_reducible refine inv_ite ?_ ?_ | with_reducible refine inv_ite_snd ?_ ?_
         | with_reducible refine inv_ite_fst ?_ ?_ | with_reducible refine invO_ite ?_ ?_
         | with_reducible refine inv_foldl (fun _ _ _ => ?_) _ ?_ | with_reducible refine inv_foldl_snd (fun _ _ _ => ?_) _ ?_
         | with_reducible refine inv_foldl_fst (fun _ _ _ => ?_) _ ?_ | with_reducible refine invOf_mem _ _ ?_
         | with_reducible refine invOf_memFilter _ ?_ | with_reducible refine invOf_tiles _ _ ?_
         | with_reducible refine invOf_tilesFilter _ ?_ | with_reducible refine invOf_tilesClear _ _ ?_
         | with_reducible refine invOf_ctrs _ _ ?_ | simp only [inv_mk, invOf_self] | rw [invO_next] | split)
theorem inv_execAdmission (x : Nat) {s : State} (hI : Inv s) : InvO (execAdmission x s) := by
  unfold execAdmission
  repeat' (first
        | assumption | with_reducible refine inv_admitted_ _ _ ?_ | with_reducible refine invO_ite ?_ ?_ | rw [invO_next]
        | split)
theorem inv_execEngineTake (x : Nat) {s : State} (hI : Inv s) : InvO (execEngineTake x s) := by
  unfold execEngineTake
  repeat' (first
        | assumption | with_reducible refine inv_ite ?_ ?_ | simp only [inv_mk, invOf_self] | rw [invO_next] | split)
theorem inv_endX (id : Nat) (err : Option W64) {s : State} (hI : Inv s) : Inv (endX id err s) := by
  unfold endX
  repeat' assumption
theorem inv_xRefuse (x : Xfer) (code : W64) {s : State} (hI : Inv s) : Inv (xRefuse x code s) := by
  unfold xRefuse
  repeat' (first | assumption | with_reducible refine inv_delX _ ?_ | with_reducible refine inv_xEmit _ _ _ _ ?_)
theorem inv_claimStep (x : Xfer) {s : State} (hI : Inv s) : Inv (claimStep x s) := by
  unfold claimStep
  repeat' (first | assumption | with_reducible refine inv_xRefuse _ _ ?_ | with_reducible refine inv_ite ?_ ?_)
theorem inv_xlate (id : Nat) (die : Nat) (c : Ctx) (a : XAcc) {s : State} (hI : Inv s) : Inv (xlate id die c a s).2 := by
  unfold xlate
  repeat' (first
         | assumption | with_reducible refine inv_modX _ _ ?_ | with_reducible refine inv_settleLeaves _ _ _ _ ?_
         | with_reducible refine inv_leavesOf _ _ _ _ ?_ | simp only [inv_mk, invOf_self] | split)
theorem inv_xlateAll (id : Nat) (die : Nat) (c : Ctx) (x3 : List XAcc) {s : State}
    (hI : Inv s) : Inv (xlateAll id die c x3 s).2.2 := by
  induction x3 generalizing s with
  | nil => exact hI
  | cons a t ih =>
    have h := inv_xlate id die c a hI
    unfold xlateAll
    generalize xlate id die c a s = r at h ⊢
    dsimp only
    have h2 := ih h
    generalize xlateAll id die c t r.2 = q at h2 ⊢
    split
    · split
      · exact h2
      · exact h2
    · exact h
theorem inv_parkX (x : Xfer) (x1 : XAcc) (kind : Byte) (lvl : Nat) (va : Nat) {s : State}
    (hI : Inv s) : Inv (parkX x x1 kind lvl va s) := by
  unfold parkX
  repeat' (first
        | assumption | with_reducible refine inv_takeException _ _ _ _ ?_ | with_reducible refine inv_dropFlits _ ?_
        | with_reducible refine inv_modX _ _ ?_ | simp only [inv_mk, invOf_self] | split)
theorem inv_xFlits (id : Nat) (els : List El) {s : State} (hI : Inv s) : Inv (xFlits id els s) := by
  unfold xFlits
  repeat' (first
        | assumption | with_reducible refine inv_sendLines _ _ _ _ _ ?_ | with_reducible refine inv_ite ?_ ?_
        | with_reducible refine inv_foldl (fun _ _ _ => ?_) _ ?_ | split)
theorem inv_xTranslate (x : Xfer) (c : Ctx) {s : State} (hI : Inv s) : Inv (xTranslate x c s) := by
  unfold xTranslate
  repeat' (first
        | assumption | with_reducible refine inv_xlateAll _ _ _ _ ?_ | with_reducible refine inv_endX _ _ ?_
        | with_reducible refine inv_xFlits _ _ ?_ | with_reducible refine inv_modX _ _ ?_
        | with_reducible refine inv_parkX _ _ _ _ _ ?_ | with_reducible refine inv_ite ?_ ?_ | simp only [inv_mk, invOf_self]
        | split)
theorem inv_xReady (id : Nat) (die : Nat) (x2 : List (El × Bool)) (x3 : Nat) {s : State} (hI : Inv s) : Inv (xReady id die x2 x3 s).2 := by
  induction x2 generalizing x3 s with
  | nil => exact hI
  | cons a t ih =>
    obtain ⟨e, wr⟩ := a
    unfold xReady
    extract_lets r
    have h : Inv r.2 := by
      unfold r
      split
      · exact hI
      · exact hI
      · exact hI
      · exact inv_rdcReady _ _ _ hI
      · exact inv_prepareRange _ _ _ _ hI
    clear_value r
    exact inv_ite_snd (ih _ h) h
theorem inv_xReadEl (x : Xfer) (e : El) {s : State} (hI : Inv s) : Inv (xReadEl x e s).2 := by
  unfold xReadEl
  repeat' (first | assumption | with_reducible refine inv_reportHoleBy _ _ ?_ | simp only [inv_mk, invOf_self] | split)
theorem inv_xReadAll (x : Xfer) (x1 : List El) {s : State} (hI : Inv s) : Inv (xReadAll x x1 s).2 := by
  fun_induction xReadAll x x1 s
  all_goals repeat' (first | assumption | with_reducible apply_assumption | with_reducible refine inv_xReadEl _ _ ?_)
theorem inv_xWriteAll (x : Xfer) (poison : Bool) (x2 : List El) (x3 : List Byte) {s : State}
    (hI : Inv s) : Inv (xWriteAll x poison x2 x3 s) := by
  induction x2 generalizing x3 s with
  | nil => exact hI
  | cons e t ih =>
    unfold xWriteAll
    extract_lets b s1
    refine ih _ ?_
    unfold s1
    split
    · exact inv_peerWrite _ _ _ _ hI
    · exact inv_reportHoleBy _ _ hI
    · exact hI
    · exact inv_rdcStore _ _ _ _ hI
    · exact inv_placeWrite _ _ _ _ hI
theorem inv_nextChunk (id : Nat) (f : Xfer → Xfer) {s : State} (hI : Inv s) : Inv (nextChunk id f s) := by
  unfold nextChunk
  repeat' assumption
theorem inv_idxStep (x : Xfer) (bs : List (Byte × Bool)) {s : State} (hI : Inv s) : Inv (idxStep x bs s) := by
  unfold idxStep
  repeat' (first | assumption | with_reducible refine inv_ite ?_ ?_ | simp only [inv_mk, invOf_self] | split)
theorem inv_putLine (x : Xfer) (cl : Nat) (j : Nat) (bs : List Byte) (bad : Bool) {s : State}
    (hI : Inv s) : Inv (putLine x cl j bs bad s) := by
  unfold putLine
  repeat' (first
        | assumption | with_reducible refine inv_setLineElem _ _ _ _ _ ?_ | with_reducible refine inv_ite ?_ ?_
        | with_reducible refine inv_foldl (fun _ _ _ => ?_) _ ?_)
theorem inv_xPerform (x : Xfer) (els : List El) {s : State} (hI : Inv s) : Inv (xPerform x els s) := by
  unfold xPerform
  repeat' (first
         | assumption | with_reducible refine inv_nextChunk _ _ ?_ | with_reducible refine inv_xWriteAll _ _ _ _ ?_
         | with_reducible refine inv_putLine _ _ _ _ _ ?_ | with_reducible refine inv_countLog _ _ _ _ ?_
         | with_reducible refine inv_idxStep _ _ ?_ | with_reducible refine inv_xReadAll _ _ ?_ | with_reducible refine inv_ite ?_ ?_
         | with_reducible refine inv_ite_snd ?_ ?_ | with_reducible refine inv_ite_fst ?_ ?_ | simp only [inv_mk, invOf_self] | split)
theorem inv_aheadEls (x : Xfer) (c : Ctx) (l : List XAcc) {s : State} (hI : Inv s) : Inv (aheadEls x c l s).2 := by
  induction l generalizing x s with
  | nil => exact hI
  | cons a t ih =>
    unfold aheadEls
    extract_lets z r
    have hz : Inv z.2 := inv_speculate _ _ _ _ _ _ hI
    have h : Inv r.2 := by
      unfold r
      split
      · exact hI
      · exact hz
    clear_value r
    split
    · exact h
    · split
      · exact h
      · exact h
      · exact h
      · exact ih _ (inv_modX _ _ h)
theorem inv_lookAhead (x : Xfer) (c : Ctx) (d : Nat) {s : State} (hI : Inv s) : Inv (lookAhead x c d s) := by
  unfold lookAhead
  repeat' (first
         | assumption | with_reducible refine inv_modX _ _ ?_ | with_reducible refine inv_xReadAll _ _ ?_
         | with_reducible refine inv_xReady _ _ _ _ ?_ | with_reducible refine inv_aheadEls _ _ _ ?_ | with_reducible refine inv_ite ?_ ?_
         | with_reducible refine inv_ite_snd ?_ ?_ | with_reducible refine inv_ite_fst ?_ ?_ | simp only [inv_mk, invOf_self] | split)
theorem inv_execTransferChunk (x : Nat) {s : State} (hI : Inv s) : InvO (execTransferChunk x s) := by
  unfold execTransferChunk
  repeat' (first
         | assumption | with_reducible refine inv_xPerform _ _ ?_ | with_reducible refine inv_xReady _ _ _ _ ?_
         | with_reducible refine inv_lookAhead _ _ _ ?_ | with_reducible refine inv_xTranslate _ _ ?_
         | with_reducible refine inv_endX _ _ ?_ | with_reducible refine inv_ite ?_ ?_ | with_reducible refine inv_ite_snd ?_ ?_
         | with_reducible refine inv_ite_fst ?_ ?_ | with_reducible refine invO_ite ?_ ?_ | simp only [inv_mk, invOf_self] | rw [invO_next]
         | split)
theorem inv_xTileEnd (x : Xfer) {s : State} (hI : Inv s) : Inv (xTileEnd x s) := by
  unfold xTileEnd
  repeat' (first | assumption | with_reducible refine inv_ite ?_ ?_ | simp only [inv_mk, invOf_self] | split)
theorem inv_execTransferComplete (x : Nat) {s : State} (hI : Inv s) : InvO (execTransferComplete x s) := by
  unfold execTransferComplete
  repeat' (first
        | assumption | with_reducible refine inv_modInst _ _ ?_ | with_reducible refine inv_raise _ _ ?_
        | with_reducible refine inv_xTileEnd _ ?_ | with_reducible refine inv_delX _ ?_
        | with_reducible refine inv_xEmit _ _ _ _ ?_ | with_reducible refine invO_ite ?_ ?_ | simp only [inv_mk, invOf_self]
        | rw [invO_next] | split)
theorem inv_noteReady {s : State} (hI : Inv s) : Inv (noteReady s) := by
  unfold noteReady
  repeat' (first
         | assumption | with_reducible refine inv_ite ?_ ?_ | with_reducible refine inv_ite_snd ?_ ?_
         | with_reducible refine inv_ite_fst ?_ ?_ | with_reducible refine invO_ite ?_ ?_
         | with_reducible refine inv_foldl (fun _ _ _ => ?_) _ ?_ | with_reducible refine inv_foldl_snd (fun _ _ _ => ?_) _ ?_
         | with_reducible refine inv_foldl_fst (fun _ _ _ => ?_) _ ?_ | with_reducible refine invOf_mem _ _ ?_
         | with_reducible refine invOf_memFilter _ ?_ | with_reducible refine invOf_tiles _ _ ?_
         | with_reducible refine invOf_tilesFilter _ ?_ | with_reducible refine invOf_tilesClear _ _ ?_
         | with_reducible refine invOf_ctrs _ _ ?_ | simp only [inv_mk, invOf_self] | rw [invO_next] | split)
theorem inv_execClaim (x : Nat) {s : State} (hI : Inv s) : InvO (execClaim x s) := by
  unfold execClaim
  repeat' (first
        | assumption | with_reducible refine inv_claimStep _ ?_ | with_reducible refine inv_ite ?_ ?_ | rw [invO_next]
        | split)
theorem inv_fetch (cl pe : Nat) {s t : State} {i : Instr} (h : Inv s) (hf : fetch s cl pe = some (i, t)) : Inv t := by
  unfold fetch at hf
  repeat' split at hf
  all_goals try (simp at hf; done)
  simp only [Option.some.injEq, Prod.mk.injEq] at hf
  rw [← hf.2]
  refine inv_bumpNode _ _ _ _ ?_
  rw [inv_mk, invOf_self]
  exact inv_modInst _ _ h
theorem inv_sysPrep (die : Option Nat) (c : Ctx) (n : Need) (va : Nat) (len : Nat) {s : State}
    (hI : Inv s) : Inv (sysPrep die c n va len s).2.2 := by
  unfold sysPrep
  repeat' (first
        | assumption | with_reducible refine inv_translate _ _ _ _ _ ?_ | with_reducible refine inv_prepareRange _ _ _ _ ?_
        | with_reducible refine inv_ite_snd ?_ ?_ | with_reducible refine inv_foldl_snd (fun _ _ _ => ?_) _ ?_
        | simp only [inv_mk, invOf_self] | split)
theorem inv_sysReadEl (by_ : Option Nat) (x : El) {s : State} (hI : Inv s) : Inv (sysReadEl by_ x s).2 := by
  unfold sysReadEl
  repeat' (first | assumption | with_reducible refine inv_reportHoleBy _ _ ?_ | split)
theorem inv_sysReadEls (by_ : Option Nat) (x1 : List El) {s : State} (hI : Inv s) : Inv (sysReadEls by_ x1 s).2 := by
  fun_induction sysReadEls by_ x1 s
  all_goals repeat' (first | assumption | with_reducible apply_assumption | with_reducible refine inv_sysReadEl _ _ ?_ | split)
theorem inv_sysWriteEls (by_ : Option Nat) (x1 : List El) (x2 : List Byte) {s : State} (hI : Inv s) : Inv (sysWriteEls by_ x1 x2 s) := by
  induction x1 generalizing x2 s with
  | nil => exact hI
  | cons e t ih =>
    unfold sysWriteEls
    extract_lets s1
    refine ih _ ?_
    unfold s1
    split
    · exact hI
    · exact inv_reportHoleBy _ _ hI
    · exact inv_placeWrite _ _ _ _ hI
theorem inv_sysReadN (by_ : Option Nat) (c : Ctx) (n : Need) (va : Nat) (len : Nat) {s : State} (hI : Inv s) : Inv (sysReadN by_ c n va len s).2 := by
  unfold sysReadN
  repeat' (first
         | assumption | with_reducible refine inv_sysReadEls _ _ ?_ | with_reducible refine inv_sysPrep _ _ _ _ _ ?_
         | simp only [inv_mk, invOf_self] | split)
theorem inv_sysRead (die : Option Nat) (c : Ctx) (va : Nat) (len : Nat) {s : State}
    (hI : Inv s) : Inv (sysRead die c va len s).2 := by
  unfold sysRead
  repeat' (first | assumption | with_reducible refine inv_sysReadN _ _ _ _ _ ?_)
theorem inv_sysWrite (by_ : Option Nat) (c : Ctx) (va : Nat) (bs : List Byte) {s : State} (hI : Inv s) : Inv (sysWrite by_ c va bs s).2 := by
  unfold sysWrite
  repeat' (first
         | assumption | with_reducible refine inv_sysWriteEls _ _ _ ?_ | with_reducible refine inv_sysPrep _ _ _ _ _ ?_
         | simp only [inv_mk, invOf_self] | split)
theorem inv_sysReadyBy (who : Nat → Option Nat) (c : Ctx) (x2 : List (Need × Nat × Nat)) (x3 : Nat) {s : State}
    (hI : Inv s) : Inv (sysReadyBy who c x2 x3 s).2.2 := by
  induction x2 generalizing x3 s with
  | nil => exact hI
  | cons a t ih =>
    obtain ⟨n, va, len⟩ := a
    have h := inv_sysPrep (who va) c n va len hI
    unfold sysReadyBy
    generalize sysPrep (who va) c n va len s = p at h ⊢
    dsimp only
    split
    · exact ih _ h
    · exact h
theorem inv_sysReady (by_ : Option Nat) (c : Ctx) (l : List (Need × Nat × Nat)) (k : Nat) {s : State} (hI : Inv s) : Inv (sysReady
    by_ c l k s).2.2 := by
  unfold sysReady
  repeat' (first | assumption | with_reducible refine inv_sysReadyBy _ _ _ _ ?_)
theorem inv_physRead (pa : Nat) (len : Nat) {s : State} (hI : Inv s) : Inv (physRead pa len s).2 := by
  unfold physRead
  repeat' (first
         | assumption | with_reducible refine inv_reportHoleBy _ _ ?_ | with_reducible refine inv_prepareRange _ _ _ _ ?_
         | with_reducible refine inv_ite ?_ ?_ | with_reducible refine inv_ite_snd ?_ ?_ | with_reducible refine inv_ite_fst ?_ ?_
         | simp only [inv_mk, invOf_self] | split)
theorem inv_returnHost (cl : Nat) (sec : Nat) {s : State} (hI : Inv s) : Inv (returnHost cl sec s) := by
  unfold returnHost
  repeat' (first
        | assumption | with_reducible refine inv_takeData _ _ _ _ _ ?_ | with_reducible refine inv_ite ?_ ?_ | split)
theorem inv_leaveSec (cl : Nat) (z : Bool × State) (sec : Nat) (hz : Inv z.2) : Inv (leaveSec cl z sec).2 := by
  unfold leaveSec
  repeat' (first
        | assumption | with_reducible refine inv_returnHost _ _ ?_ | with_reducible refine inv_recallNow _ _ _ ?_
        | with_reducible refine inv_prepare _ _ _ _ ?_ | with_reducible refine inv_ite_snd ?_ ?_
        | with_reducible refine inv_foldl (fun _ _ _ => ?_) _ ?_ | simp only [inv_mk, invOf_self] | split)
theorem inv_emptyL1 (cl : Nat) {s : State} (hI : Inv s) : Inv (emptyL1 cl s) := by
  unfold emptyL1
  repeat' (first | assumption | with_reducible refine inv_foldl (fun _ _ _ => ?_) _ ?_ | simp only [inv_mk, invOf_self])
theorem inv_leaveCl (z : Bool × State) (cl : Nat) (hz : Inv z.2) : Inv (leaveCl z cl).2 := by
  unfold leaveCl
  repeat' (first
        | assumption | with_reducible refine inv_leaveSec _ _ _ ?_ | with_reducible refine inv_emptyL1 _ ?_
        | with_reducible refine inv_ite_snd ?_ ?_ | with_reducible refine inv_foldl_snd (fun _ _ _ => ?_) _ ?_)
theorem inv_frontEntry (ctx : Nat) (inst : Option Nat) (fdom : W32) (acc : BitVec 4) (q : Nat) (cause : Nat) (va : Nat) {s : State}
    (hI : Inv s) : Inv (frontEntry ctx inst fdom acc q cause va s) := by
  unfold frontEntry
  repeat' (first | assumption | with_reducible refine inv_takeException _ _ _ _ ?_)
theorem inv_decSignal (c : Ctx) (va : Nat) {s : State} (hI : Inv s) : Inv (decSignal c va s).2 := by
  unfold decSignal
  repeat' (first
         | assumption | with_reducible refine inv_sysWriteEls _ _ _ ?_ | with_reducible refine inv_sysReadEls _ _ ?_
         | with_reducible refine inv_sysPrep _ _ _ _ _ ?_ | with_reducible refine inv_ite ?_ ?_ | with_reducible refine inv_ite_snd ?_ ?_
         | with_reducible refine inv_ite_fst ?_ ?_ | simp only [inv_mk, invOf_self] | split)
theorem inv_finishLaunch (ctx : Nat) (q : Nat) (pkt : List W64) (inst : Option Nat) (fdom : W32) (o : Outcome) {s : State} (hI :
    Inv s) : Inv (finishLaunch ctx q pkt inst fdom o s).2 := by
  unfold finishLaunch
  repeat' (first
         | assumption | with_reducible refine inv_decSignal _ _ ?_ | with_reducible refine inv_sysWriteEls _ _ _ ?_
         | with_reducible refine inv_sysPrep _ _ _ _ _ ?_ | with_reducible refine inv_frontEntry _ _ _ _ _ _ _ ?_
         | with_reducible refine inv_ite ?_ ?_ | with_reducible refine inv_ite_snd ?_ ?_ | with_reducible refine inv_ite_fst ?_ ?_
         | simp only [inv_mk, invOf_self] | split)
theorem inv_lapse (iid : Nat) (ctx : Nat) {s : State} (hI : Inv s) : Inv (lapse iid ctx s) := by
  unfold lapse
  repeat' assumption
theorem inv_runOver (iid : Nat) {s : State} (hI : Inv s) : Inv (runOver iid s) := by
  unfold runOver
  repeat' assumption
theorem inv_endInst (i : Inst) (outcome : Nat) (report : List W64) {s : State}
    (hI : Inv s) : Inv (endInst i outcome report s).2 := by
  unfold endInst
  repeat' (first
        | assumption | with_reducible refine inv_leaveCl _ _ ?_ | with_reducible refine inv_finishLaunch _ _ _ _ _ _ ?_
        | with_reducible refine inv_runOver _ ?_ | with_reducible refine inv_lapse _ _ ?_
        | with_reducible refine inv_ite_snd ?_ ?_ | with_reducible refine inv_foldl_snd (fun _ _ _ => ?_) _ ?_
        | simp only [inv_mk, invOf_self])
theorem inv_probe (i : Inst) {s : State} (hI : Inv s) : Inv (probe i s) := by
  unfold probe
  repeat' (first
        | assumption | with_reducible refine inv_endInst _ _ _ ?_ | with_reducible refine inv_ite ?_ ?_
        | simp only [inv_mk, invOf_self] | split)
theorem inv_execProbe (inst : Nat) {s : State} (hI : Inv s) : InvO (execProbe inst s) := by
  unfold execProbe
  repeat' (first
        | assumption | with_reducible refine inv_probe _ ?_ | with_reducible refine inv_ite ?_ ?_ | rw [invO_next] | split)

end Sys2Proof.Machine
end

