-- ==== Sys2Proof/Laws/InvFront.lean ====
section
/-! SUPPORT. The invariant of Safety.lean passes through every function over states: images, placement and faults. -/
set_option linter.unusedSimpArgs false
namespace Sys2Proof.Machine

theorem inv_imgRead (c : Ctx) (base : Nat) (off : Nat) (len : Nat) (rep : Nat) {s : State}
    (hI : Inv s) : Inv (imgRead c base off len rep s).2 := by
  unfold imgRead
  repeat' (first
        | assumption | with_reducible refine inv_sysReadN _ _ _ _ _ ?_ | simp only [inv_mk, invOf_self] | split)
theorem inv_readRecord (c : Ctx) (base : Nat) (h : List W64) (idxAt : Nat) (off : Nat) {s : State}
    (hI : Inv s) : Inv (readRecord c base h idxAt off s).2 := by
  unfold readRecord
  repeat' (first
        | assumption | with_reducible refine inv_imgRead _ _ _ _ _ ?_ | with_reducible refine inv_ite_snd ?_ ?_
        | simp only [inv_mk, invOf_self] | split)
theorem inv_readSlot (c : Ctx) (base : Nat) (h : List W64) (k : Nat) {s : State}
    (hI : Inv s) : Inv (readSlot c base h k s).2 := by
  unfold readSlot
  repeat' (first
        | assumption | with_reducible refine inv_imgRead _ _ _ _ _ ?_ | with_reducible refine inv_readRecord _ _ _ _ _ ?_
        | with_reducible refine inv_ite_snd ?_ ?_ | simp only [inv_mk, invOf_self] | split)
theorem inv_readSlots (c : Ctx) (base : Nat) (h : List W64) (x3 : List Nat) {s : State}
    (hI : Inv s) : Inv (readSlots c base h x3 s).2 := by
  fun_induction readSlots c base h x3 s
  all_goals repeat' (first
        | assumption | with_reducible apply_assumption | with_reducible refine inv_readSlot _ _ _ _ ?_)
theorem inv_readWords (c : Ctx) (base : Nat) (off : Nat) (reason : Nat) (bad : W64 → Bool) (x5 : List Nat) {s : State}
    (hI : Inv s) : Inv (readWords c base off reason bad x5 s).2 := by
  induction x5 generalizing s with
  | nil => exact hI
  | cons k t ih =>
    have h := inv_imgRead c base (off + 8 * k) 8 (off + 8 * k) hI
    unfold readWords
    generalize imgRead c base (off + 8 * k) 8 (off + 8 * k) s = r at h ⊢
    dsimp only
    have h2 := ih h
    generalize readWords c base off reason bad t r.2 = q at h2 ⊢
    split
    · exact h
    · exact h
    · refine inv_ite_snd h ?_
      split
      · exact h2
      · exact h2
theorem inv_readDirs (c : Ctx) (base : Nat) (off : Nat) (l : List Nat) {s : State}
    (hI : Inv s) : Inv (readDirs c base off l s).2 := by
  induction l generalizing s with
  | nil => exact hI
  | cons k t ih =>
    have h := inv_readWords c base (off + 2048 * k) 0 (fun _ => false) (List.range 256) hI
    unfold readDirs
    generalize readWords c base (off + 2048 * k) 0 (fun _ => false) (List.range 256) s = r at h ⊢
    have h2 := ih h
    dsimp only
    generalize readDirs c base off t r.2 = q at h2 ⊢
    obtain ⟨o, u⟩ := r
    cases o with
    | wait => exact h
    | bad b => exact h
    | ok d =>
      dsimp only
      generalize List.find? _ _ = f
      cases f with
      | some j => exact h
      | none =>
        dsimp only
        split
        · exact h2
        · exact h2
theorem inv_loadRest (c : Ctx) (base : Nat) (h : List W64) (l : List SlotRd) {s : State}
    (hI : Inv s) : Inv (loadRest c base h l s).2 := by
  unfold loadRest
  extract_lets w e ks f d
  have he : Inv e.2 := inv_readWords _ _ _ _ _ _ hI
  have hf : Inv f.2 := inv_readWords _ _ _ _ _ _ he
  have hd : Inv d.2 := inv_readDirs _ _ _ _ hf
  clear_value e f d
  repeat' (first | exact he | exact hf | exact hd | split)
theorem inv_imgAhead (c : Ctx) (base : Nat) (h : List W64) {s : State} (hI : Inv s) : Inv (imgAhead c base h s) := by
  unfold imgAhead
  repeat' (first
         | assumption | with_reducible refine inv_speculate _ _ _ _ _ _ ?_ | with_reducible refine inv_ite ?_ ?_
         | with_reducible refine inv_ite_snd ?_ ?_ | with_reducible refine inv_ite_fst ?_ ?_ | with_reducible refine invO_ite ?_ ?_
         | with_reducible refine inv_foldl (fun _ _ _ => ?_) _ ?_ | with_reducible refine inv_foldl_snd (fun _ _ _ => ?_) _ ?_
         | with_reducible refine inv_foldl_fst (fun _ _ _ => ?_) _ ?_ | with_reducible refine invOf_mem _ _ ?_
         | with_reducible refine invOf_memFilter _ ?_ | with_reducible refine invOf_tiles _ _ ?_
         | with_reducible refine invOf_tilesFilter _ ?_ | with_reducible refine invOf_tilesClear _ _ ?_
         | with_reducible refine invOf_ctrs _ _ ?_ | simp only [inv_mk, invOf_self] | rw [invO_next] | split)
theorem inv_loadImage (c : Ctx) (base : Nat) (h : List W64) {s : State} (hI : Inv s) : Inv (loadImage c base h s).2 := by
  unfold loadImage
  extract_lets ks l
  have hl : Inv l.2 := inv_readSlots _ _ _ _ hI
  clear_value l
  split
  · exact inv_loadRest _ _ _ _ hl
  · rename_i k _
    extract_lets need t
    have ht : Inv t := inv_imgAhead _ _ _ (inv_readSlots _ _ _ _ hI)
    clear_value t
    split <;> exact ht
theorem inv_readHeader (c : Ctx) (base : Nat) {s : State} (hI : Inv s) : Inv (readHeader c base s).2 := by
  unfold readHeader
  repeat' (first | assumption | with_reducible refine inv_imgRead _ _ _ _ _ ?_ | simp only [inv_mk, invOf_self] | split)
theorem inv_readPath (c : Ctx) (x1 : Nat) (x2 : W64) {s : State} (hI : Inv s) : Inv (readPath c x1 x2 s).2 := by
  induction x1 generalizing x2 s with
  | zero => exact hI
  | succ n ih =>
    have h := inv_sysRead none c x2.toNat 64 hI
    unfold readPath
    refine inv_ite_snd hI ?_
    generalize sysRead none c x2.toNat 64 s = r at h ⊢
    dsimp only
    split
    · exact h
    · rename_i bs _
      refine inv_ite_snd h (inv_ite_snd h (inv_ite_snd h ?_))
      have h2 := ih (x2 := word (dwords bs) 0) h
      generalize readPath c n (word (dwords bs) 0) r.2 = q at h2 ⊢
      split
      · exact h2
      · exact h2
    · exact h
theorem inv_modRes (ctx : Nat) (trig : BitVec 4) (f : Resident → Resident) {s : State}
    (hI : Inv s) : Inv (modRes ctx trig f s) := by
  unfold modRes
  repeat' assumption
theorem inv_judge (c : Ctx) (pkt : List W64) (me : Option (Nat × BitVec 4)) {s : State}
    (hI : Inv s) : Inv (judge c pkt me s).2 := by
  unfold judge
  repeat' (first
        | assumption | with_reducible refine inv_readHeader _ _ ?_ | with_reducible refine inv_readPath _ _ _ ?_
        | simp only [inv_mk, invOf_self] | split)
theorem inv_candOf (who : Nat) (ctx : Nat) (order : Nat) (pkt : List W64) (since : Option Nat) (me : Option (Nat × BitVec 4)) {s : State}
    (hI : Inv s) : Inv (candOf who ctx order pkt since me s).2 := by
  unfold candOf
  repeat' (first | assumption | with_reducible refine inv_judge _ _ _ ?_ | simp only [inv_mk, invOf_self] | split)
theorem inv_allCands (l : List (State → Option (List Cand) × State)) {s : State}
    (hl : ∀ f ∈ l, ∀ t, Inv t → Inv (f t).2) (hI : Inv s) : Inv (allCands l s).2 := by
  induction l generalizing s with
  | nil => exact hI
  | cons f t ih =>
    have h := hl f (by simp) s hI
    have h2 := ih (fun g hg => hl g (by simp [hg])) h
    unfold allCands
    generalize f s = r at h h2 ⊢
    dsimp only
    generalize allCands t r.2 = q at h2 ⊢
    split
    · exact h
    · exact h2
theorem inv_cands {s : State} (hI : Inv s) : Inv (cands s).2 := by
  unfold cands
  refine inv_allCands _ (fun f hf t ht => ?_) hI
  simp only [List.mem_append, List.mem_map] at hf
  obtain ⟨x, _, rfl⟩ | ⟨x, _, rfl⟩ := hf
  · exact inv_candOf _ _ _ _ _ _ ht
  · exact inv_candOf _ _ _ _ _ _ ht
theorem inv_candDeficit (cs : List Cand) {s : State} (hI : Inv s) : Inv (candDeficit cs s) := by
  unfold candDeficit
  repeat' (first
         | assumption | with_reducible refine inv_ite ?_ ?_ | with_reducible refine inv_ite_snd ?_ ?_
         | with_reducible refine inv_ite_fst ?_ ?_ | with_reducible refine invO_ite ?_ ?_
         | with_reducible refine inv_foldl (fun _ _ _ => ?_) _ ?_ | with_reducible refine inv_foldl_snd (fun _ _ _ => ?_) _ ?_
         | with_reducible refine inv_foldl_fst (fun _ _ _ => ?_) _ ?_ | with_reducible refine invOf_mem _ _ ?_
         | with_reducible refine invOf_memFilter _ ?_ | with_reducible refine invOf_tiles _ _ ?_
         | with_reducible refine invOf_tilesFilter _ ?_ | with_reducible refine invOf_tilesClear _ _ ?_
         | with_reducible refine invOf_ctrs _ _ ?_ | simp only [inv_mk, invOf_self] | rw [invO_next] | split)
theorem inv_settleDeficit {s : State} (hI : Inv s) : Inv (settleDeficit s) := by
  unfold settleDeficit
  simpa only [inv_mk, invOf_self] using hI
theorem inv_readyCands {s : State} (hI : Inv s) : Inv (readyCands s).2 := by
  unfold readyCands
  repeat' (first
         | assumption | with_reducible refine inv_candDeficit _ ?_ | with_reducible refine inv_cands ?_ | with_reducible refine inv_settleDeficit ?_
         | with_reducible refine inv_ite ?_ ?_ | with_reducible refine inv_ite_snd ?_ ?_ | with_reducible refine inv_ite_fst ?_ ?_
         | with_reducible refine invO_ite ?_ ?_ | with_reducible refine inv_foldl (fun _ _ _ => ?_) _ ?_
         | with_reducible refine inv_foldl_snd (fun _ _ _ => ?_) _ ?_ | with_reducible refine inv_foldl_fst (fun _ _ _ => ?_) _ ?_
         | with_reducible refine invOf_mem _ _ ?_ | with_reducible refine invOf_memFilter _ ?_ | with_reducible refine invOf_tiles _ _ ?_
         | with_reducible refine invOf_tilesFilter _ ?_ | with_reducible refine invOf_tilesClear _ _ ?_
         | with_reducible refine invOf_ctrs _ _ ?_ | simp only [inv_mk, invOf_self] | rw [invO_next] | split)
theorem inv_drrCommit (c : Nat) (z : Cand × Deficits × RKey) {s : State} (hI : Inv s) : Inv (drrCommit c z s) := by
  unfold drrCommit
  repeat' (first | assumption | with_reducible refine inv_settleDeficit ?_ | simp only [inv_mk, invOf_self])
theorem inv_freshTiles (cl : Nat) (d : List W64) {s : State} (hI : Inv s) : Inv (freshTiles cl d s) := by
  unfold freshTiles
  repeat' (first | assumption | with_reducible refine invOf_tilesFilter _ ?_ | simp only [inv_mk, invOf_self])
theorem inv_freshAll (cls : List Nat) (dirs : List (List W64)) {s : State} (hI : Inv s) : Inv (freshAll cls dirs s) := by
  unfold freshAll
  repeat' (first
        | assumption | with_reducible refine inv_freshTiles _ _ ?_ | with_reducible refine inv_foldl (fun _ _ _ => ?_) _ ?_)
theorem inv_inject (iid : Nat) (pkt : List W64) (es : List W64) {s : State} (hI : Inv s) : Inv (inject iid pkt es s) := by
  unfold inject
  repeat' (first | assumption | with_reducible refine inv_foldl (fun _ _ _ => ?_) _ ?_)
theorem inv_dropHolding (cls : List Nat) {s : State} (hI : Inv s) : Inv (dropHolding cls s) := by
  unfold dropHolding
  repeat' (first | assumption | with_reducible refine inv_ite ?_ ?_)
theorem inv_place (c : Ctx) (pkt : List W64) (q : Nat) (x3 : Attempt) (sp : Space) (l : Loaded) (trig : Option (BitVec 4)) {s : State}
    (hI : Inv s) : Inv (place c pkt q x3 sp l trig s).2 := by
  unfold place
  repeat' (first
        | assumption | with_reducible refine inv_freshAll _ _ ?_ | with_reducible refine inv_dropHolding _ ?_
        | with_reducible refine inv_modCtx _ _ ?_ | with_reducible refine inv_modInst _ _ ?_
        | with_reducible refine inv_inject _ _ _ ?_ | with_reducible refine inv_foldl (fun _ _ _ => ?_) _ ?_
        | simp only [inv_mk, invOf_self])
theorem inv_dropLaunch (id : Nat) {s : State} (hI : Inv s) : Inv (dropLaunch id s) := by
  unfold dropLaunch
  repeat' (first | assumption | with_reducible refine inv_settleDeficit ?_ | simp only [inv_mk, invOf_self])
theorem inv_endLaunch (l : Launch) (o : Outcome) (fdom : W32) {s : State} (hI : Inv s) : Inv (endLaunch l o fdom s) := by
  unfold endLaunch
  repeat' (first
        | assumption | with_reducible refine inv_finishLaunch _ _ _ _ _ _ ?_ | with_reducible refine inv_dropLaunch _ ?_
        | with_reducible refine inv_ite ?_ ?_)
theorem inv_noteSince (x : Cand) {s : State} (hI : Inv s) : Inv (noteSince x s) := by
  unfold noteSince
  repeat' (first
         | assumption | with_reducible refine inv_modRes _ _ _ ?_ | with_reducible refine inv_ite ?_ ?_
         | with_reducible refine inv_ite_snd ?_ ?_ | with_reducible refine inv_ite_fst ?_ ?_ | with_reducible refine invO_ite ?_ ?_
         | with_reducible refine inv_foldl (fun _ _ _ => ?_) _ ?_ | with_reducible refine inv_foldl_snd (fun _ _ _ => ?_) _ ?_
         | with_reducible refine inv_foldl_fst (fun _ _ _ => ?_) _ ?_ | with_reducible refine invOf_mem _ _ ?_
         | with_reducible refine invOf_memFilter _ ?_ | with_reducible refine invOf_tiles _ _ ?_
         | with_reducible refine invOf_tilesFilter _ ?_ | with_reducible refine invOf_tilesClear _ _ ?_
         | with_reducible refine invOf_ctrs _ _ ?_ | simp only [inv_mk, invOf_self] | rw [invO_next] | split)
theorem inv_placeLaunch (l : Launch) (z : Cand × Deficits × RKey) {s : State} (hI : Inv s) : Inv (placeLaunch l z s) := by
  unfold placeLaunch
  repeat' (first
        | assumption | with_reducible refine inv_loadImage _ _ _ ?_ | with_reducible refine inv_endLaunch _ _ _ ?_
        | with_reducible refine inv_place _ _ _ _ _ _ _ ?_ | with_reducible refine inv_drrCommit _ _ ?_
        | with_reducible refine inv_dropLaunch _ ?_ | with_reducible refine inv_noteSince _ ?_
        | with_reducible refine inv_ite ?_ ?_ | simp only [inv_mk, invOf_self] | split)
theorem inv_attemptLaunch (c : Ctx) (l : Launch) {s : State} (hI : Inv s) : Inv (attemptLaunch c l s) := by
  unfold attemptLaunch
  split
  · exact inv_endLaunch _ _ _ hI
  · have h := inv_judge c l.pkt none hI
    generalize judge c l.pkt none s = j at h ⊢
    have h2 := inv_readyCands h
    dsimp only
    generalize readyCands j.2 = k at h2 ⊢
    split
    · exact h
    · exact inv_endLaunch _ _ _ h
    · split
      · exact h2
      · split
        · exact h2
        · exact inv_ite (inv_placeLaunch _ _ h2) h2
theorem inv_placement (l : Launch) {s : State} (hI : Inv s) : Inv (placement l s) := by
  unfold placement
  repeat' (first
        | assumption | with_reducible refine inv_endLaunch _ _ _ ?_ | with_reducible refine inv_attemptLaunch _ _ ?_
        | with_reducible refine inv_ite ?_ ?_ | split)
theorem inv_execPlacement (launch : Nat) {s : State} (hI : Inv s) : InvO (execPlacement launch s) := by
  unfold execPlacement
  repeat' (first
        | assumption | with_reducible refine inv_placement _ ?_ | with_reducible refine inv_ite ?_ ?_ | rw [invO_next]
        | split)
theorem inv_endResidency (r : Resident) (o : Outcome) (fdom : W32) {s : State} (hI : Inv s) : Inv (endResidency r o fdom s) := by
  unfold endResidency
  repeat' (first
         | assumption | with_reducible refine inv_settleDeficit ?_ | with_reducible refine inv_finishLaunch _ _ _ _ _ _ ?_
         | with_reducible refine inv_ite ?_ ?_ | with_reducible refine inv_ite_snd ?_ ?_ | with_reducible refine inv_ite_fst ?_ ?_
         | with_reducible refine invO_ite ?_ ?_ | with_reducible refine inv_foldl (fun _ _ _ => ?_) _ ?_
         | with_reducible refine inv_foldl_snd (fun _ _ _ => ?_) _ ?_ | with_reducible refine inv_foldl_fst (fun _ _ _ => ?_) _ ?_
         | with_reducible refine invOf_mem _ _ ?_ | with_reducible refine invOf_memFilter _ ?_ | with_reducible refine invOf_tiles _ _ ?_
         | with_reducible refine invOf_tilesFilter _ ?_ | with_reducible refine invOf_tilesClear _ _ ?_
         | with_reducible refine invOf_ctrs _ _ ?_ | simp only [inv_mk, invOf_self] | rw [invO_next] | split)
theorem inv_runPlaced (r : Resident) (x1 : Attempt) (sp : Space) (iid : Nat) {s : State}
    (hI : Inv s) : Inv (runPlaced r x1 sp iid s) := by
  unfold runPlaced
  repeat' assumption
theorem inv_runAt (c : Ctx) (r : Resident) (x2 : Attempt) (sp : Space) (z : Option (Cand × Deficits × RKey)) {s : State}
    (hI : Inv s) : Inv (runAt c r x2 sp z s) := by
  unfold runAt
  have h := inv_loadImage c (pkImage r.pkt) x2.hdr hI
  generalize loadImage c (pkImage r.pkt) x2.hdr s = d at h ⊢
  dsimp only
  split
  · exact h
  · exact inv_endResidency _ _ _ h
  · rename_i l _
    have h2 := inv_runPlaced r x2 sp (place c r.pkt r.queue x2 sp l (some r.trig) d.2).1 (inv_place c r.pkt r.queue x2 sp l (some r.trig) h)
    split
    · exact inv_drrCommit _ _ h2
    · exact h2
theorem inv_runAnew (c : Ctx) (r : Resident) {s : State} (hI : Inv s) : Inv (runAnew c r s) := by
  unfold runAnew
  have h := inv_judge c r.pkt (some (r.ctx, r.trig)) hI
  generalize judge c r.pkt (some (r.ctx, r.trig)) s = j at h ⊢
  have h2 := inv_readyCands h
  dsimp only
  generalize readyCands j.2 = k at h2 ⊢
  split
  · exact h
  · exact inv_endResidency _ _ _ h
  · split
    · exact h2
    · split
      · exact h2
      · refine inv_ite h2 ?_
        split
        · exact inv_runAt _ _ _ _ _ h2
        · exact inv_noteSince _ h2
theorem inv_run (r : Resident) {s : State} (hI : Inv s) : Inv (run r s) := by
  unfold run
  repeat' (first
        | assumption | with_reducible refine inv_runAt _ _ _ _ _ ?_ | with_reducible refine inv_runAnew _ _ ?_
        | simp only [inv_mk, invOf_self] | split)
theorem inv_execRun (ctx : Nat) (trig : BitVec 4) {s : State} (hI : Inv s) : InvO (execRun ctx trig s) := by
  unfold execRun
  repeat' (first
        | assumption | with_reducible refine inv_run _ ?_ | with_reducible refine inv_ite ?_ ?_ | rw [invO_next] | split)
theorem inv_startSweep (iid : Nat) (move : Bool) {s : State} (hI : Inv s) : Inv (startSweep iid move s) := by
  unfold startSweep
  repeat' assumption
theorem inv_releaseRect (p : Resident → Bool) {s : State} (hI : Inv s) : Inv (releaseRect p s) := by
  unfold releaseRect
  repeat' assumption
theorem inv_paddlesOut {s : State} (hI : Inv s) : Inv (paddlesOut s) := by
  unfold paddlesOut
  repeat' (first
         | assumption | with_reducible refine inv_startSweep _ _ ?_ | with_reducible refine inv_releaseRect _ ?_
         | with_reducible refine inv_ite ?_ ?_ | with_reducible refine inv_ite_snd ?_ ?_ | with_reducible refine inv_ite_fst ?_ ?_
         | with_reducible refine invO_ite ?_ ?_ | with_reducible refine inv_foldl (fun _ _ _ => ?_) _ ?_
         | with_reducible refine inv_foldl_snd (fun _ _ _ => ?_) _ ?_ | with_reducible refine inv_foldl_fst (fun _ _ _ => ?_) _ ?_
         | with_reducible refine invOf_mem _ _ ?_ | with_reducible refine invOf_memFilter _ ?_ | with_reducible refine invOf_tiles _ _ ?_
         | with_reducible refine invOf_tilesFilter _ ?_ | with_reducible refine invOf_tilesClear _ _ ?_
         | with_reducible refine invOf_ctrs _ _ ?_ | simp only [inv_mk, invOf_self] | rw [invO_next] | split)
theorem inv_clearRect (x : Cand) (c : Nat) (o : Nat × Nat) {s : State} (hI : Inv s) : Inv (clearRect x c o s) := by
  unfold clearRect
  repeat' (first | assumption | with_reducible refine inv_foldl (fun _ _ _ => ?_) _ ?_)
theorem inv_waiting (who : Nat) {s : State} (hI : Inv s) : Inv (waiting who s).2 := by
  unfold waiting
  have h := inv_readyCands hI
  generalize readyCands s = k at h ⊢
  dsimp only
  split
  · exact h
  · split <;> exact h
theorem inv_preempt (x : Cand) {s : State} (hI : Inv s) : Inv (preempt x s) := by
  unfold preempt
  repeat' (first
         | assumption | with_reducible refine inv_clearRect _ _ _ ?_ | with_reducible refine inv_ite ?_ ?_ | simp only [inv_mk, invOf_self]
         | split)
theorem inv_yieldPaddles {s : State} (hI : Inv s) : Inv (yieldPaddles s) := by
  unfold yieldPaddles
  repeat' (first
         | assumption | with_reducible refine inv_paddlesOut ?_ | with_reducible refine inv_readyCands ?_
         | with_reducible refine inv_ite ?_ ?_ | with_reducible refine inv_ite_snd ?_ ?_ | with_reducible refine inv_ite_fst ?_ ?_
         | simp only [inv_mk, invOf_self] | split)
theorem inv_execPreemption (launch : Nat) {s : State} (hI : Inv s) : InvO (execPreemption launch s) := by
  unfold execPreemption
  repeat' (first
         | assumption | with_reducible refine inv_noteSince _ ?_ | with_reducible refine inv_preempt _ ?_
         | with_reducible refine inv_yieldPaddles ?_ | with_reducible refine inv_waiting _ ?_ | with_reducible refine inv_ite ?_ ?_
         | with_reducible refine inv_ite_snd ?_ ?_ | with_reducible refine inv_ite_fst ?_ ?_ | with_reducible refine invO_ite ?_ ?_
         | simp only [inv_mk, invOf_self] | rw [invO_next] | split)
theorem inv_compact (x : Cand) {s : State} (hI : Inv s) : Inv (compact x s) := by
  unfold compact
  repeat' (first | assumption | with_reducible refine inv_ite ?_ ?_ | split)
theorem inv_execCompaction (launch : Nat) {s : State} (hI : Inv s) : InvO (execCompaction launch s) := by
  unfold execCompaction
  repeat' (first
        | assumption | with_reducible refine inv_waiting _ ?_ | with_reducible refine inv_compact _ ?_
        | with_reducible refine invO_ite ?_ ?_ | simp only [inv_mk, invOf_self] | rw [invO_next] | split)
theorem inv_sendVec (v : BitVec 16) {s : State} (hI : Inv s) : Inv (sendVec v s) := by
  unfold sendVec
  repeat' (first
         | assumption | with_reducible refine inv_ite ?_ ?_ | with_reducible refine inv_ite_snd ?_ ?_
         | with_reducible refine inv_ite_fst ?_ ?_ | with_reducible refine invO_ite ?_ ?_
         | with_reducible refine inv_foldl (fun _ _ _ => ?_) _ ?_ | with_reducible refine inv_foldl_snd (fun _ _ _ => ?_) _ ?_
         | with_reducible refine inv_foldl_fst (fun _ _ _ => ?_) _ ?_ | with_reducible refine invOf_mem _ _ ?_
         | with_reducible refine invOf_memFilter _ ?_ | with_reducible refine invOf_tiles _ _ ?_
         | with_reducible refine invOf_tilesFilter _ ?_ | with_reducible refine invOf_tilesClear _ _ ?_
         | with_reducible refine invOf_ctrs _ _ ?_ | simp only [inv_mk, invOf_self] | rw [invO_next] | split)
theorem inv_raiseVec (v : BitVec 16) {s : State} (hI : Inv s) : Inv (raiseVec v s) := by
  unfold raiseVec
  repeat' (first | assumption | with_reducible refine inv_ite ?_ ?_)
theorem inv_sendPending (v : Nat) {s : State} (hI : Inv s) : Inv (sendPending v s) := by
  unfold sendPending
  repeat' (first | assumption | with_reducible refine inv_ite ?_ ?_)
theorem inv_failPa (c : Ctx) (va : Nat) {s : State} (hI : Inv s) : Inv (failPa c va s).2 := by
  unfold failPa
  have h := inv_lookup none .front c va 0 hI
  generalize lookup none .front c va 0 s = r at h ⊢
  dsimp only
  split <;> exact h
theorem inv_feFailed (c : Ctx) (va : Nat) {s : State} (hI : Inv s) : Inv (feFailed c va s) := by
  unfold feFailed
  repeat' (first
        | assumption | with_reducible refine inv_failPa _ _ ?_ | with_reducible refine inv_modCtx _ _ ?_
        | with_reducible refine inv_countLog _ _ _ _ ?_ | with_reducible refine inv_ite ?_ ?_)
theorem inv_writeSlot (c : Ctx) (e : FEntry) (widx : W64) {s : State} (hI : Inv s) : Inv (writeSlot c e widx s) := by
  unfold writeSlot
  repeat' (first
        | assumption | with_reducible refine inv_sysReady _ _ _ _ ?_ | with_reducible refine inv_feFailed _ _ ?_
        | with_reducible refine inv_sysWrite _ _ _ _ ?_ | with_reducible refine inv_raiseVec _ ?_
        | with_reducible refine inv_modCtx _ _ ?_ | simp only [inv_mk, invOf_self] | split)
theorem inv_writeEntry (c : Ctx) (e : FEntry) {s : State} (hI : Inv s) : Inv (writeEntry c e s) := by
  unfold writeEntry
  repeat' (first
        | assumption | with_reducible refine inv_sysRead _ _ _ _ ?_ | with_reducible refine inv_feFailed _ _ ?_
        | with_reducible refine inv_writeSlot _ _ _ ?_ | with_reducible refine inv_ite ?_ ?_ | simp only [inv_mk, invOf_self]
        | split)
theorem inv_entryStep (ctx : Nat) (again : Bool) {s : State} (hI : Inv s) : Inv (entryStep ctx again s) := by
  unfold entryStep
  repeat' (first
        | assumption | with_reducible refine inv_writeEntry _ _ ?_ | with_reducible refine inv_ite ?_ ?_ | split)
theorem inv_execFaultEntryWrite (ctx : Nat) {s : State} (hI : Inv s) : InvO (execFaultEntryWrite ctx s) := by
  unfold execFaultEntryWrite
  repeat' (first | assumption | with_reducible refine inv_entryStep _ _ ?_ | rw [invO_next])
theorem inv_execFaultEntryRetry (ctx : Nat) {s : State} (hI : Inv s) : InvO (execFaultEntryRetry ctx s) := by
  unfold execFaultEntryRetry
  repeat' (first | assumption | with_reducible refine inv_entryStep _ _ ?_ | rw [invO_next])
theorem inv_breaksOver (iid : Nat) {s : State} (hI : Inv s) : Inv (breaksOver iid s) := by
  unfold breaksOver
  repeat' (first | assumption | with_reducible refine inv_foldl (fun _ _ _ => ?_) _ ?_ | split)
theorem inv_issueAgain (id : Nat) (act : Nat) {s : State} (hI : Inv s) : Inv (issueAgain id act s) := by
  unfold issueAgain
  repeat' (first
         | assumption | with_reducible refine inv_modOp _ _ ?_ | with_reducible refine inv_ite ?_ ?_
         | with_reducible refine inv_ite_snd ?_ ?_ | with_reducible refine inv_ite_fst ?_ ?_ | with_reducible refine invO_ite ?_ ?_
         | with_reducible refine inv_foldl (fun _ _ _ => ?_) _ ?_ | with_reducible refine inv_foldl_snd (fun _ _ _ => ?_) _ ?_
         | with_reducible refine inv_foldl_fst (fun _ _ _ => ?_) _ ?_ | with_reducible refine invOf_mem _ _ ?_
         | with_reducible refine invOf_memFilter _ ?_ | with_reducible refine invOf_tiles _ _ ?_
         | with_reducible refine invOf_tilesFilter _ ?_ | with_reducible refine invOf_tilesClear _ _ ?_
         | with_reducible refine invOf_ctrs _ _ ?_ | simp only [inv_mk, invOf_self] | rw [invO_next] | split)
theorem inv_actOn (o : Op) (fid : W32) (act : Nat) (va : Nat) (reply : W64) {s : State} (hI : Inv s) : Inv (actOn o fid act va reply s) := by
  unfold actOn
  repeat' (first
         | assumption | with_reducible refine inv_unorderedStep _ ?_ | with_reducible refine inv_releaseStep _ ?_
         | with_reducible refine inv_linkStep _ ?_ | with_reducible refine inv_finish _ _ ?_ | with_reducible refine inv_freeEnded _ ?_
         | with_reducible refine inv_issueAgain _ _ ?_ | with_reducible refine inv_emit64 _ _ _ ?_ | with_reducible refine inv_delOp _ ?_
         | with_reducible refine inv_breaksOver _ ?_ | with_reducible refine inv_modOp _ _ ?_ | with_reducible refine inv_ite ?_ ?_
         | simp only [inv_mk, invOf_self] | split)
theorem inv_actOnX (x : Xfer) (act : Nat) {s : State} (hI : Inv s) : Inv (actOnX x act s) := by
  unfold actOnX
  repeat' (first
         | assumption | with_reducible refine inv_modX _ _ ?_ | with_reducible refine inv_endX _ _ ?_ | with_reducible refine inv_ite ?_ ?_
         | simp only [inv_mk, invOf_self] | split)
theorem inv_recRead (c : Ctx) (va : Nat) {s : State} (hI : Inv s) : Inv (recRead c va s).2.2 := by
  unfold recRead
  repeat' (first | assumption | with_reducible refine inv_sysRead _ _ _ _ ?_ | simp only [inv_mk, invOf_self] | split)
theorem inv_recWrite (c : Ctx) (va : Nat) (w : W64) {s : State} (hI : Inv s) : Inv (recWrite c va w s).2 := by
  unfold recWrite
  repeat' (first | assumption | with_reducible refine inv_sysWrite _ _ _ _ ?_ | simp only [inv_mk, invOf_self] | split)
theorem inv_recordTok (c : Ctx) (e : FEntry) (act : Nat) (reply : W64) (base : Nat) (x5 : Nat) (j : Nat) (skip : Nat) {s : State}
    (hI : Inv s) : Inv (recordTok c e act reply base x5 j skip s).2 := by
  induction x5 generalizing j skip s with
  | zero => exact hI
  | succ n ih =>
    have h := inv_recRead c (base + 64 * j) hI
    unfold recordTok
    dsimp only
    generalize recRead c (base + 64 * j) s = r at h ⊢
    split
    · exact h
    · rename_i w _
      refine inv_ite_snd (ih _ _ h) ?_
      have h2 := inv_recWrite c (base + 64 * j + 8) (word w 1 ||| (BitVec.ofNat 64 act <<< 53)) h
      generalize recWrite c (base + 64 * j + 8) (word w 1 ||| (BitVec.ofNat 64 act <<< 53)) r.2.2 = q at h2 ⊢
      have h3 := inv_recWrite c (base + 64 * j + 56) reply h2
      generalize recWrite c (base + 64 * j + 56) reply q.2 = u at h3 ⊢
      split
      · have h4 : Inv (if act = resREPLY then u else q).2 := inv_ite_snd h3 h2
        generalize (if act = resREPLY then u else q) = t at h4 ⊢
        split
        · exact inv_ite_snd h4 (ih _ _ h4)
        · exact h4
      · exact h2
theorem inv_recordXfer (c : Ctx) (e : FEntry) (act : Nat) (base : Nat) (x4 : Nat) {s : State}
    (hI : Inv s) : Inv (recordXfer c e act base x4 s).2 := by
  induction x4 generalizing s with
  | zero => exact hI
  | succ n ih =>
    have h := inv_recRead c (base + 64 * n) hI
    unfold recordXfer
    dsimp only
    generalize recRead c (base + 64 * n) s = r at h ⊢
    split
    · exact h
    · exact inv_ite_snd (inv_recWrite _ _ _ h) (ih h)
theorem inv_noteFail (iid : Nat) (act : Nat) (e : FEntry) {s : State} (hI : Inv s) : Inv (noteFail iid act e s) := by
  unfold noteFail
  repeat' (first | assumption | with_reducible refine inv_ite ?_ ?_)
theorem inv_recordAmongX (c : Ctx) (e : FEntry) (act : Nat) (base : Nat) {s : State} (hI : Inv s) : Inv (recordAmongX c e act base s).2 := by
  unfold recordAmongX
  have h := inv_recRead c base hI
  generalize recRead c base s = r at h ⊢
  dsimp only
  split
  · exact h
  · exact inv_recordXfer _ _ _ _ _ h
theorem inv_recordAmongToks (c : Ctx) (i : Inst) (e : FEntry) (act : Nat) (reply : W64) (cb : Nat) {s : State}
    (hI : Inv s) : Inv (recordAmongToks c i e act reply cb s).2 := by
  unfold recordAmongToks
  have h := inv_recRead c cb hI
  generalize recRead c cb s = r at h ⊢
  dsimp only
  split
  · exact h
  · exact inv_recordTok _ _ _ _ _ _ _ _ h
theorem inv_recordSaved (c : Ctx) (i : Inst) (e : FEntry) (act : Nat) (reply : W64) {s : State}
    (hI : Inv s) : Inv (recordSaved c i e act reply s).2 := by
  unfold recordSaved
  exact inv_ite_snd (inv_recordAmongX _ _ _ _ hI) (inv_recordAmongToks _ _ _ _ _ _ hI)
theorem inv_endSpoiled (i : Inst) (code : Byte) (outcome : Nat) {s : State}
    (hI : Inv s) : Inv (endSpoiled i code outcome s) := by
  unfold endSpoiled
  repeat' (first
        | assumption | with_reducible refine inv_endInst _ _ _ ?_ | with_reducible refine inv_modInst _ _ ?_
        | with_reducible refine inv_ite ?_ ?_)
theorem inv_resumeOne (c : Ctx) (act : Nat) (reply : W64) (z : Bool × State) (e : FEntry)
    (hz : Inv z.2) : Inv (resumeOne c act reply z e).2 := by
  unfold resumeOne
  repeat' (first
        | assumption | with_reducible refine inv_endException _ _ ?_ | with_reducible refine inv_recordSaved _ _ _ _ _ ?_
        | with_reducible refine inv_noteFail _ _ _ ?_ | with_reducible refine inv_endSpoiled _ _ _ ?_
        | with_reducible refine inv_modOp _ _ ?_ | with_reducible refine inv_modX _ _ ?_
        | with_reducible refine inv_actOn _ _ _ _ _ ?_ | with_reducible refine inv_actOnX _ _ ?_
        | with_reducible refine inv_ite_snd ?_ ?_ | simp only [inv_mk, invOf_self] | split)
theorem inv_ftDone (stat : Byte) (res : W64) {s : State} (hI : Inv s) : Inv (ftDone stat res s) := by
  unfold ftDone
  repeat' assumption
theorem inv_resume (act : Nat) {s : State} (hI : Inv s) : Inv (resume act s) := by
  unfold resume
  repeat' (first
        | assumption | with_reducible refine inv_ftDone _ _ ?_ | with_reducible refine inv_resumeOne _ _ _ _ _ ?_
        | with_reducible refine inv_ite ?_ ?_ | with_reducible refine inv_foldl_snd (fun _ _ _ => ?_) _ ?_
        | simp only [inv_mk, invOf_self] | split)
theorem inv_execResumeReplay {s : State} (hI : Inv s) : InvO (execResumeReplay s) := by
  unfold execResumeReplay
  repeat' (first | assumption | with_reducible refine inv_resume _ ?_ | rw [invO_next])
theorem inv_execResumeFail {s : State} (hI : Inv s) : InvO (execResumeFail s) := by
  unfold execResumeFail
  repeat' (first | assumption | with_reducible refine inv_resume _ ?_ | rw [invO_next])
theorem inv_execResumeReply {s : State} (hI : Inv s) : InvO (execResumeReply s) := by
  unfold execResumeReply
  repeat' (first | assumption | with_reducible refine inv_resume _ ?_ | rw [invO_next])
theorem inv_execShoot {s : State} (hI : Inv s) : InvO (execShoot s) := by
  unfold execShoot
  repeat' (first | assumption | with_reducible refine inv_ite ?_ ?_ | simp only [inv_mk, invOf_self] | rw [invO_next])
theorem inv_shootSec (cl : Nat) (z : Bool × State) (sec : Nat) (hz : Inv z.2) : Inv (shootSec cl z sec).2 := by
  unfold shootSec
  repeat' (first
         | assumption | with_reducible refine inv_leaveSec _ _ _ ?_ | with_reducible refine inv_settleHost _ _ ?_
         | with_reducible refine inv_ite ?_ ?_ | with_reducible refine inv_ite_snd ?_ ?_ | with_reducible refine inv_ite_fst ?_ ?_
         | with_reducible refine invO_ite ?_ ?_ | with_reducible refine inv_foldl (fun _ _ _ => ?_) _ ?_
         | with_reducible refine inv_foldl_snd (fun _ _ _ => ?_) _ ?_ | with_reducible refine inv_foldl_fst (fun _ _ _ => ?_) _ ?_
         | with_reducible refine invOf_mem _ _ ?_ | with_reducible refine invOf_memFilter _ ?_ | with_reducible refine invOf_tiles _ _ ?_
         | with_reducible refine invOf_tilesFilter _ ?_ | with_reducible refine invOf_tilesClear _ _ ?_
         | with_reducible refine invOf_ctrs _ _ ?_ | simp only [inv_mk, invOf_self] | rw [invO_next] | split)
theorem inv_shootCl (k : Shoot) (z : Bool × State) (cl : Nat) (hz : Inv z.2) : Inv (shootCl k z cl).2 := by
  unfold shootCl
  repeat' (first
         | assumption | with_reducible refine inv_dirPut _ ?_ | with_reducible refine inv_shootSec _ _ _ ?_
         | with_reducible refine inv_ite ?_ ?_ | with_reducible refine inv_ite_snd ?_ ?_ | with_reducible refine inv_ite_fst ?_ ?_
         | with_reducible refine inv_foldl (fun _ _ _ => ?_) _ ?_ | with_reducible refine inv_foldl_snd (fun _ _ _ => ?_) _ ?_
         | with_reducible refine inv_foldl_fst (fun _ _ _ => ?_) _ ?_ | simp only [inv_mk, invOf_self] | split)
theorem inv_execShootdownComplete {s : State} (hI : Inv s) : InvO (execShootdownComplete s) := by
  unfold execShootdownComplete
  split
  · exact hI
  · rename_i k _
    refine invO_ite hI ?_
    have h := inv_foldl_snd (f := shootCl k) (fun z x hz => inv_shootCl k z x hz) (List.range 512) (z := (true, s)) hI
    generalize (List.range 512).foldl (shootCl k) (true, s) = r at h ⊢
    refine inv_ite (inv_ftDone _ _ ?_) h
    rw [inv_mk, invOf_self]
    exact h
theorem inv_endAllWork {s : State} (hI : Inv s) : Inv (endAllWork s) := by
  unfold endAllWork
  repeat' assumption
theorem inv_fatal (cause : Byte) {s : State} (hI : Inv s) : Inv (fatal cause s) := by
  unfold fatal
  repeat' (first | assumption | with_reducible refine inv_raiseVec _ ?_ | with_reducible refine inv_ite ?_ ?_)
theorem inv_execFatalError (cause : BitVec 8) {s : State} (hI : Inv s) : InvO (execFatalError cause s) := by
  unfold execFatalError
  repeat' (first
        | assumption | with_reducible refine inv_fatal _ ?_ | with_reducible refine inv_ite ?_ ?_ | rw [invO_next])
theorem inv_writeAllBy (who : Nat → Option Nat) (c : Ctx) (x2 : List (Nat × List Byte)) {s : State} (hI : Inv s) : Inv (writeAllBy who c x2 s) := by
  fun_induction writeAllBy who c x2 s
  all_goals repeat' (first | assumption | with_reducible apply_assumption | with_reducible refine inv_sysWrite _ _ _ _ ?_)
theorem inv_writeAll (by_ : Option Nat) (c : Ctx) (l : List (Nat × List Byte)) {s : State} (hI : Inv s) : Inv (writeAll by_ c l s) := by
  unfold writeAll
  repeat' (first | assumption | with_reducible refine inv_writeAllBy _ _ _ ?_)
theorem inv_withSpill (by_ : Option Nat) (i : Inst) (j : Inst) (k : State → State) {s : State}
    (hk : ∀ a0, Inv a0 → Inv (k a0)) (hI : Inv s) : Inv (withSpill by_ i j k s) := by
  unfold withSpill
  split
  · exact hk _ hI
  · rename_i c _
    extract_lets ws r
    have h : Inv r.2.2 := inv_sysReady _ _ _ _ hI
    clear_value r
    obtain ⟨x, b, t⟩ := r
    cases x with
    | wait => exact h
    | noPage a => exact inv_endSpoiled _ _ _ h
    | noPerm a => exact inv_endSpoiled _ _ _ h
    | ok l => exact hk _ (inv_writeAll _ _ _ h)
theorem inv_readRecs (by_ : Option Nat) (c : Ctx) (i : Inst) (l : List (Nat × Nat)) (x : PSet) {s : State}
    (hI : Inv s) : Inv (readRecs by_ c i l x s).2.2 := by
  induction l generalizing x s with
  | nil => exact hI
  | cons r t ih =>
    have h := inv_sysRead by_ c (spillAddr c i r.2) 64 hI
    unfold readRecs
    generalize sysRead by_ c (spillAddr c i r.2) 64 s = q at h ⊢
    dsimp only
    split
    · exact ih _ h
    · exact ih _ h
theorem inv_arrive (n : Nat) (f : Flight) (i : Inst) {s : State} (hI : Inv s) : Inv (arrive n f i s) := by
  unfold arrive
  repeat' (first
         | assumption | with_reducible refine inv_discardTok _ ?_ | with_reducible refine inv_withSpill _ _ _ _ (fun _ _ => ?_) ?_
         | with_reducible refine inv_received _ _ ?_ | with_reducible refine inv_modInst _ _ ?_ | simp only [inv_mk, invOf_self] | split)
theorem inv_execTokenArrival (n : Nat) {s : State} (hI : Inv s) : InvO (execTokenArrival n s) := by
  unfold execTokenArrival
  repeat' (first | assumption | with_reducible refine inv_arrive _ _ _ ?_ | rw [invO_next] | split)
theorem inv_refillAt (i : Inst) (j : Inst) (k : Nat) (x : PSet) {s : State} (hI : Inv s) : Inv (refillAt i j k x s) := by
  unfold refillAt
  split
  · exact hI
  · rename_i c _
    extract_lets by_ r z j'
    have h : Inv r.2.2 := inv_sysReady _ _ _ _ hI
    have h2 : Inv z.2.2 := inv_readRecs _ _ _ _ _ h
    clear_value r z
    split
    · exact h
    · exact inv_endSpoiled _ _ _ h
    · exact inv_endSpoiled _ _ _ h
    · exact inv_ite (inv_endSpoiled _ _ _ h2) (inv_withSpill _ _ _ _ (fun _ ht => inv_modInst _ _ ht) h2)
theorem inv_refill (i : Inst) (p : Place) (t : Tag) {s : State} (hI : Inv s) : Inv (refill i p t s) := by
  unfold refill
  repeat' (first
         | assumption | with_reducible refine inv_received _ _ ?_ | with_reducible refine inv_discardTok _ ?_
         | with_reducible refine inv_refillAt _ _ _ _ ?_ | with_reducible refine inv_ite ?_ ?_ | simp only [inv_mk, invOf_self] | split)
theorem inv_execRefill (inst : Nat) (pl : Place) (tag : Tag) {s : State} (hI : Inv s) : InvO (execRefill inst pl tag s) := by
  unfold execRefill
  repeat' (first | assumption | with_reducible refine inv_refill _ _ _ ?_ | rw [invO_next] | split)

end Sys2Proof.Machine
end

