-- ==== Sys2Proof/Laws/InvQueues.lean ====
section
/-! SUPPORT. The invariant of Safety.lean passes through every function over states: sweep, restore, queues and commands. -/
set_option linter.unusedSimpArgs false
namespace Sys2Proof.Machine

theorem inv_execMarker (inst : Nat) (node : SweepNode) (k : Nat) {s : State}
    (hI : Inv s) : InvO (execMarker inst node k s) := by
  unfold execMarker
  repeat' (first | assumption | with_reducible refine inv_ite ?_ ?_ | rw [invO_next] | split)
theorem inv_save (i0 : Inst) (c : Ctx) {s : State} (hI : Inv s) : Inv (save i0 c s) := by
  unfold save
  repeat' (first
         | assumption | with_reducible refine inv_modInst _ _ ?_ | with_reducible refine inv_writeAllBy _ _ _ ?_
         | with_reducible refine inv_endSpoiled _ _ _ ?_ | with_reducible refine inv_sysReadyBy _ _ _ _ ?_
         | with_reducible refine inv_leaveCl _ _ ?_ | with_reducible refine inv_ite ?_ ?_ | with_reducible refine inv_ite_snd ?_ ?_
         | with_reducible refine inv_ite_fst ?_ ?_ | with_reducible refine inv_foldl (fun _ _ _ => ?_) _ ?_
         | with_reducible refine inv_foldl_snd (fun _ _ _ => ?_) _ ?_ | with_reducible refine inv_foldl_fst (fun _ _ _ => ?_) _ ?_
         | simp only [inv_mk, invOf_self] | split)
theorem inv_execSweep (inst : Nat) {s : State} (hI : Inv s) : InvO (execSweep inst s) := by
  unfold execSweep
  repeat' (first
        | assumption | with_reducible refine inv_save _ _ ?_ | with_reducible refine inv_ite ?_ ?_ | rw [invO_next] | split)
theorem inv_bulkRead (c : Ctx) (x1 : List (Nat × Nat)) {s : State} (hI : Inv s) : Inv (bulkRead c x1 s).2 := by
  induction x1 generalizing s with
  | nil => exact hI
  | cons x t ih =>
    obtain ⟨a, n⟩ := x
    unfold bulkRead
    refine inv_ite_snd ?_ ?_
    · exact ih hI
    · have h := inv_sysRead none c a n hI
      generalize sysRead none c a n s = r at h ⊢
      dsimp only
      split
      · exact h
      · exact h
      · exact h
      · refine inv_ite_snd h ?_
        have h2 := ih h
        generalize bulkRead c t r.2 = q at h2 ⊢
        exact h2
theorem inv_restoreTile (id : Nat) (i : Instr) (old : W64) {s : State} (hI : Inv s) : Inv (restoreTile id i old s) := by
  unfold restoreTile
  repeat' (first
         | assumption | with_reducible refine inv_accPut _ _ _ ?_ | with_reducible refine inv_addReader _ _ _ ?_
         | with_reducible refine inv_modOp _ _ ?_ | with_reducible refine inv_ite ?_ ?_ | with_reducible refine inv_ite_snd ?_ ?_
         | with_reducible refine inv_ite_fst ?_ ?_ | with_reducible refine invO_ite ?_ ?_
         | with_reducible refine inv_foldl (fun _ _ _ => ?_) _ ?_ | with_reducible refine inv_foldl_snd (fun _ _ _ => ?_) _ ?_
         | with_reducible refine inv_foldl_fst (fun _ _ _ => ?_) _ ?_ | with_reducible refine invOf_mem _ _ ?_
         | with_reducible refine invOf_memFilter _ ?_ | with_reducible refine invOf_tiles _ _ ?_
         | with_reducible refine invOf_tilesFilter _ ?_ | with_reducible refine invOf_tilesClear _ _ ?_
         | with_reducible refine invOf_ctrs _ _ ?_ | simp only [inv_mk, invOf_self] | rw [invO_next] | split)
theorem inv_dropFid (iid : Nat) (ins : Instr) (w : W64) (f : W32) {s : State} (hI : Inv s) : Inv (dropFid iid ins w f s) := by
  unfold dropFid
  repeat' (first
         | assumption | with_reducible refine inv_modInst _ _ ?_ | with_reducible refine inv_ite ?_ ?_
         | with_reducible refine inv_ite_snd ?_ ?_ | with_reducible refine inv_ite_fst ?_ ?_ | with_reducible refine invO_ite ?_ ?_
         | with_reducible refine inv_foldl (fun _ _ _ => ?_) _ ?_ | with_reducible refine inv_foldl_snd (fun _ _ _ => ?_) _ ?_
         | with_reducible refine inv_foldl_fst (fun _ _ _ => ?_) _ ?_ | with_reducible refine invOf_mem _ _ ?_
         | with_reducible refine invOf_memFilter _ ?_ | with_reducible refine invOf_tiles _ _ ?_
         | with_reducible refine invOf_tilesFilter _ ?_ | with_reducible refine invOf_tilesClear _ _ ?_
         | with_reducible refine invOf_ctrs _ _ ?_ | simp only [inv_mk, invOf_self] | rw [invO_next] | split)
theorem inv_restoreOp (iid : Nat) (z : List Todo × State) (g : List TokRec) (hz : Inv z.2) : Inv (restoreOp iid z g).2 := by
  unfold restoreOp
  repeat' (first
         | assumption | with_reducible refine inv_restoreTile _ _ _ ?_ | with_reducible refine inv_modOp _ _ ?_
         | with_reducible refine inv_newOp _ _ _ _ ?_ | with_reducible refine inv_dropFid _ _ _ _ ?_ | with_reducible refine inv_ite ?_ ?_
         | with_reducible refine inv_ite_snd ?_ ?_ | with_reducible refine inv_ite_fst ?_ ?_ | simp only [inv_mk, invOf_self] | split)
theorem inv_restoreX (iid : Nat) (z : List Todo × State) (w : List W64 × Option Nat × BitVec 5) (hz : Inv z.2) : Inv (restoreX iid z w).2 := by
  unfold restoreX
  repeat' (first
         | assumption | with_reducible refine inv_addReader _ _ _ ?_ | with_reducible refine inv_ite ?_ ?_
         | with_reducible refine inv_ite_snd ?_ ?_ | with_reducible refine inv_ite_fst ?_ ?_ | simp only [inv_mk, invOf_self] | split)
theorem inv_actTodo (iid : Nat) {s : State} (t : Todo) (hI : Inv s) : Inv (actTodo iid s t) := by
  unfold actTodo
  repeat' (first
        | assumption | with_reducible refine inv_actOn _ _ _ _ _ ?_ | with_reducible refine inv_actOnX _ _ ?_
        | simp only [inv_mk, invOf_self] | split)
theorem inv_restoreCl (cl : Nat) (x : SavedCl) {s : State} (hI : Inv s) : Inv (restoreCl cl x s) := by
  unfold restoreCl
  extract_lets s1 s2 s3 ws
  have h3 : Inv s3 := inv_setTileBytes _ _ _ (inv_foldl (fun s k h => inv_accPut _ _ _ h) _ (inv_freshTiles _ _ hI))
  clear_value s3
  rw [inv_mk]
  exact h3
theorem inv_rebuild (i0 : Inst) (o : Nat × Nat) (h : List W64) (fmt : List W64) (xs : List W64) (thr : List W64) (cs : List SavedCl) {s : State}
    (hI : Inv s) : Inv (rebuild i0 o h fmt xs thr cs s) := by
  unfold rebuild
  extract_lets recs sets z0 src i cls xw gs late
  refine inv_withSpill _ _ _ _ (fun s hI => ?_) hI
  extract_lets s1 s2 s3 s4 zx z s5 s6 follow
  have h1 : Inv s1 := inv_dropHolding _ hI
  have h2 : Inv s2 := by
    refine inv_foldl (fun s k h => ?_) _ h1
    split
    · exact inv_acquireL1 _ (inv_restoreCl _ _ h)
    · exact h
  clear_value s2
  have h3 : Inv s3 := inv_modInst _ _ h2
  have h4 : Inv s4 := inv_foldl (fun s l h => inv_recordError _ _ _ _ h) _ h3
  clear_value s4
  have hx : Inv zx.2 := inv_foldl_snd (fun z w hz => inv_restoreX _ z w hz) _ h4
  clear_value zx
  have hz : Inv z.2 := inv_foldl_snd (fun z w hz => inv_restoreOp _ z w hz) _ hx
  clear_value z
  have h5 : Inv s5 := inv_foldl (fun s t h => inv_actTodo _ _ h) _ hz
  have h6 : Inv s6 := inv_modInst _ _ h5
  clear_value s6
  exact inv_settleDeficit h6
theorem inv_restoreAt (c : Ctx) (i : Inst) (o : Nat × Nat) {s : State} (hI : Inv s) : Inv (restoreAt c i o s) := by
  unfold restoreAt
  repeat' (first
        | assumption | with_reducible refine inv_bulkRead _ _ ?_ | with_reducible refine inv_endSpoiled _ _ _ ?_
        | with_reducible refine inv_rebuild _ _ _ _ _ _ _ ?_ | simp only [inv_mk, invOf_self] | split)
theorem inv_restore (i : Inst) {s : State} (hI : Inv s) : Inv (restore i s) := by
  unfold restore
  repeat' (first
         | assumption | with_reducible refine inv_paddlesOut ?_ | with_reducible refine inv_restoreAt _ _ _ ?_
         | with_reducible refine inv_cands ?_ | with_reducible refine inv_ite ?_ ?_ | with_reducible refine inv_ite_snd ?_ ?_
         | simp only [inv_mk, invOf_self] | split)
theorem inv_execRestore (inst : Nat) {s : State} (hI : Inv s) : InvO (execRestore inst s) := by
  unfold execRestore
  repeat' (first
        | assumption | with_reducible refine inv_restore _ ?_ | with_reducible refine inv_ite ?_ ?_ | rw [invO_next] | split)
theorem inv_savedReport (c : Ctx) (i : Inst) {s : State} (hI : Inv s) : Inv (savedReport c i s).2 := by
  unfold savedReport
  have h := inv_bulkRead c [(blockAt c i 0, 64), (blockAt c i 0x100000, 2 ^ 20)] hI
  generalize bulkRead c [(blockAt c i 0, 64), (blockAt c i 0x100000, 2 ^ 20)] s = r at h ⊢
  dsimp only
  split
  · exact h
  · exact h
  · exact h
theorem inv_hostOrder (off : Nat) (val : W64) (body : State → State) {s : State} (hb : ∀ a0, Inv a0 → Inv (body a0))
    (hI : Inv s) : Inv (hostOrder off val body s) := by
  unfold hostOrder
  exact inv_ite hI (hb _ hI)
theorem inv_modQ (q : Nat) (f : Queue → Queue) {s : State} (hI : Inv s) : Inv (modQ q f s) := by
  unfold modQ
  repeat' assumption
theorem inv_haltQ (x : Queue) (acc : BitVec 4) (va : Nat) {s : State} (hI : Inv s) : Inv (haltQ x acc va s) := by
  unfold haltQ
  repeat' (first
        | assumption | with_reducible refine inv_modQ _ _ ?_ | with_reducible refine inv_frontEntry _ _ _ _ _ _ _ ?_
        | with_reducible refine inv_ite ?_ ?_)
theorem inv_takePacket (c : Ctx) (x : Queue) (pkt : List W64) {s : State} (hI : Inv s) : Inv (takePacket c x pkt s) := by
  unfold takePacket
  repeat' (first
        | assumption | with_reducible refine inv_sysReady _ _ _ _ ?_ | with_reducible refine inv_haltQ _ _ _ ?_
        | with_reducible refine inv_sysWrite _ _ _ _ ?_ | with_reducible refine inv_modQ _ _ ?_
        | simp only [inv_mk, invOf_self] | split)
theorem inv_ringRead (c : Ctx) (x : Queue) (va : Nat) (len : Nat) (k : List W64 → State → State) {s : State} (hk : ∀ a0 a1, Inv a1
    → Inv (k a0 a1)) (hI : Inv s) : Inv (ringRead c x va len k s) := by
  unfold ringRead
  repeat' (first
         | assumption | with_reducible refine hk _ _ ?_ | with_reducible refine inv_haltQ _ _ _ ?_
         | with_reducible refine inv_sysRead _ _ _ _ ?_ | simp only [inv_mk, invOf_self] | split)
theorem inv_consume (c : Ctx) (x : Queue) {s : State} (hI : Inv s) : Inv (consume c x s) := by
  unfold consume
  repeat' (first
         | assumption | with_reducible refine inv_takePacket _ _ _ ?_ | with_reducible refine inv_ringRead _ _ _ _ _ (fun _ _ _ => ?_) ?_
         | with_reducible refine inv_ite ?_ ?_ | split)
theorem inv_execPacketConsume (q : Nat) {s : State} (hI : Inv s) : InvO (execPacketConsume q s) := by
  unfold execPacketConsume
  repeat' (first
        | assumption | with_reducible refine inv_consume _ _ ?_ | with_reducible refine inv_ite ?_ ?_ | rw [invO_next]
        | split)
theorem inv_kickQ (q : Nat) {s : State} (hI : Inv s) : Inv (kickQ q s) := by
  unfold kickQ
  repeat' assumption
theorem inv_execKick (q : Nat) (bytes : Nat) {s : State} (hI : Inv s) : InvO (execKick q bytes s) := by
  unfold execKick
  rw [invO_next]
  exact inv_ite (inv_hostOrder _ _ _ (fun _ h => inv_kickQ _ h) hI) hI
theorem inv_readWaits (c : Ctx) (l : Launch) (x2 : List Nat) {s : State} (hI : Inv s) : Inv (readWaits c l x2 s) := by
  induction x2 generalizing s with
  | nil => exact hI
  | cons a t ih =>
    have h := inv_sysRead none c a 8 hI
    unfold readWaits
    generalize sysRead none c a 8 s = r at h ⊢
    dsimp only
    split
    · exact ih h
    · refine inv_ite (inv_endLaunch _ _ _ h) (ih (inv_ite ?_ h))
      rw [inv_mk, invOf_self]
      exact h
    · exact inv_endLaunch _ _ _ h
theorem inv_execSignalRecheck (launch : Nat) {s : State} (hI : Inv s) : InvO (execSignalRecheck launch s) := by
  unfold execSignalRecheck
  repeat' (first
        | assumption | with_reducible refine inv_readWaits _ _ _ ?_ | with_reducible refine inv_ite ?_ ?_ | rw [invO_next]
        | split)
theorem inv_trigger (ctx : Nat) (trig : BitVec 4) (val : W64) {s : State} (hI : Inv s) : Inv (trigger ctx trig val s) := by
  unfold trigger
  repeat' (first
         | assumption | with_reducible refine inv_settleDeficit ?_ | with_reducible refine inv_modRes _ _ _ ?_
         | with_reducible refine inv_ite ?_ ?_ | simp only [inv_mk, invOf_self] | split)
theorem inv_doorbellStore (off : Nat) (val : W64) (from_ : Option Nat) {s : State}
    (hI : Inv s) : Inv (doorbellStore off val from_ s) := by
  unfold doorbellStore
  repeat' (first | assumption | with_reducible refine inv_trigger _ _ _ ?_ | with_reducible refine inv_ite ?_ ?_)
theorem inv_execTriggerStore (off : Nat) (val : W64) (bytes : Nat) (by_ : Option Nat) {s : State} (hI : Inv s) : InvO
    (execTriggerStore off val bytes by_ s) := by
  unfold execTriggerStore
  repeat' (first
         | assumption | with_reducible refine inv_doneEl _ _ _ ?_ | with_reducible refine inv_attempt _ ?_
         | with_reducible refine inv_doorbellStore _ _ _ ?_ | with_reducible refine inv_hostOrder _ _ _ (fun _ _ => ?_) ?_
         | with_reducible refine inv_ite ?_ ?_ | with_reducible refine invO_ite ?_ ?_ | simp only [inv_mk, invOf_self] | rw [invO_next]
         | split)
theorem inv_feDone (stat : Byte) (res : Nat) {s : State} (hI : Inv s) : Inv (feDone stat res s) := by
  unfold feDone
  repeat' assumption
theorem inv_feCmd (op : Byte) (body : State → State) {s : State}
    (hbody : ∀ a0, Inv a0 → Inv (body a0)) (hI : Inv s) : InvO (feCmd op body s) := by
  unfold feCmd
  repeat' (first | assumption | with_reducible refine hbody _ ?_ | with_reducible refine inv_ite ?_ ?_ | rw [invO_next])
theorem inv_ctxFq (c : Ctx) {s : State} (hI : Inv s) : Inv (ctxFq c s) := by
  unfold ctxFq
  repeat' (first
        | assumption | with_reducible refine inv_sysRead _ _ _ _ ?_ | with_reducible refine inv_feDone _ _ ?_
        | with_reducible refine inv_ite ?_ ?_ | simp only [inv_mk, invOf_self] | split)
theorem inv_ctxload {s : State} (hI : Inv s) : Inv (ctxload s) := by
  unfold ctxload
  repeat' (first
        | assumption | with_reducible refine inv_feDone _ _ ?_ | with_reducible refine inv_physRead _ _ ?_
        | with_reducible refine inv_ctxFq _ ?_ | with_reducible refine inv_ite ?_ ?_ | simp only [inv_mk, invOf_self] | split)
theorem inv_execCtxload {s : State} (hI : Inv s) : InvO (execCtxload s) := by
  unfold execCtxload
  repeat' (first
        | assumption | with_reducible refine inv_feCmd _ _ (fun _ _ => ?_) ?_ | with_reducible refine inv_ctxload ?_)
theorem inv_ctxdrop {s : State} (hI : Inv s) : Inv (ctxdrop s) := by
  unfold ctxdrop
  repeat' (first | assumption | with_reducible refine inv_ite ?_ ?_ | simp only [inv_mk, invOf_self] | split)
theorem inv_execCtxdrop {s : State} (hI : Inv s) : InvO (execCtxdrop s) := by
  unfold execCtxdrop
  repeat' (first
        | assumption | with_reducible refine inv_feCmd _ _ (fun _ _ => ?_) ?_ | with_reducible refine inv_ctxdrop ?_)
theorem inv_qmap {s : State} (hI : Inv s) : Inv (qmap s) := by
  unfold qmap
  repeat' (first
        | assumption | with_reducible refine inv_feDone _ _ ?_ | with_reducible refine inv_sysRead _ _ _ _ ?_
        | with_reducible refine inv_ite ?_ ?_ | simp only [inv_mk, invOf_self] | split)
theorem inv_execQmap {s : State} (hI : Inv s) : InvO (execQmap s) := by
  unfold execQmap
  repeat' (first
        | assumption | with_reducible refine inv_feCmd _ _ (fun _ _ => ?_) ?_ | with_reducible refine inv_qmap ?_)
theorem inv_qunmap {s : State} (hI : Inv s) : Inv (qunmap s) := by
  unfold qunmap
  repeat' (first
        | assumption | with_reducible refine inv_feDone _ _ ?_ | with_reducible refine inv_endLaunch _ _ _ ?_
        | with_reducible refine inv_ite ?_ ?_ | with_reducible refine inv_foldl (fun _ _ _ => ?_) _ ?_
        | simp only [inv_mk, invOf_self] | split)
theorem inv_execQunmap {s : State} (hI : Inv s) : InvO (execQunmap s) := by
  unfold execQunmap
  repeat' (first
        | assumption | with_reducible refine inv_feCmd _ _ (fun _ _ => ?_) ?_ | with_reducible refine inv_qunmap ?_)
theorem inv_ctxfmt {s : State} (hI : Inv s) : Inv (ctxfmt s) := by
  unfold ctxfmt
  repeat' (first | assumption | with_reducible refine inv_ite ?_ ?_ | simp only [inv_mk, invOf_self] | split)
theorem inv_execCtxfmt {s : State} (hI : Inv s) : InvO (execCtxfmt s) := by
  unfold execCtxfmt
  repeat' (first
        | assumption | with_reducible refine inv_feCmd _ _ (fun _ _ => ?_) ?_ | with_reducible refine inv_ctxfmt ?_)
theorem inv_instEnding (c : Ctx) (i : Inst) {s : State} (hI : Inv s) : Inv (instEnding c i s) := by
  unfold instEnding
  dsimp only
  split
  · refine inv_ite ?_ hI
    have h := inv_endInst i 4 (reportOf s i) hI
    generalize endInst i 4 (reportOf s i) s = z at h ⊢
    exact inv_ite (inv_feDone _ _ h) h
  · exact hI
  · have h := inv_savedReport c i hI
    generalize savedReport c i s = r at h ⊢
    split
    · exact h
    · rename_i rep _
      have h2 := inv_endInst i 4 rep h
      generalize endInst i 4 rep r.2 = z at h2 ⊢
      exact inv_ite (inv_feDone _ _ h2) h2
theorem inv_instend {s : State} (hI : Inv s) : Inv (instend s) := by
  unfold instend
  repeat' (first
        | assumption | with_reducible refine inv_instEnding _ _ ?_ | with_reducible refine inv_ite ?_ ?_ | split)
theorem inv_execInstend {s : State} (hI : Inv s) : InvO (execInstend s) := by
  unfold execInstend
  repeat' (first
        | assumption | with_reducible refine inv_feCmd _ _ (fun _ _ => ?_) ?_ | with_reducible refine inv_instend ?_)
theorem inv_cloff {s : State} (hI : Inv s) : Inv (cloff s) := by
  unfold cloff
  repeat' (first
        | assumption | with_reducible refine inv_feDone _ _ ?_ | with_reducible refine inv_dropHolding _ ?_
        | with_reducible refine inv_releaseRect _ ?_ | with_reducible refine inv_startSweep _ _ ?_
        | with_reducible refine inv_ite ?_ ?_ | simp only [inv_mk, invOf_self] | split)
theorem inv_execCloff {s : State} (hI : Inv s) : InvO (execCloff s) := by
  unfold execCloff
  repeat' (first
        | assumption | with_reducible refine inv_feCmd _ _ (fun _ _ => ?_) ?_ | with_reducible refine inv_cloff ?_)
theorem inv_clon {s : State} (hI : Inv s) : Inv (clon s) := by
  unfold clon
  repeat' (first | assumption | with_reducible refine inv_ite ?_ ?_)
theorem inv_execClon {s : State} (hI : Inv s) : InvO (execClon s) := by
  unfold execClon
  repeat' (first
        | assumption | with_reducible refine inv_feCmd _ _ (fun _ _ => ?_) ?_ | with_reducible refine inv_clon ?_)

end Sys2Proof.Machine
end

