-- ==== Sys2Proof/Laws/InvDevice.lean ====
section
/-! SUPPORT. The invariant of Safety.lean passes through every function over states: the host link, the fabric, errors, power, resets and registers. -/
set_option linter.unusedSimpArgs false
namespace Sys2Proof.Machine

theorem inv_waitInbox (i : Instr) {s : State} (hI : Inv s) : Inv (waitInbox i s) := by
  unfold waitInbox
  repeat' (first | assumption | with_reducible refine inv_ite ?_ ?_)
theorem inv_leaveInbox (i : Instr) {s : State} (hI : Inv s) : Inv (leaveInbox i s) := by
  unfold leaveInbox
  repeat' assumption
theorem inv_clearHost (secs : List Nat) {s : State} (hI : Inv s) : Inv (clearHost secs s) := by
  unfold clearHost
  repeat' (first
        | assumption | with_reducible refine inv_ite ?_ ?_ | with_reducible refine inv_foldl (fun _ _ _ => ?_) _ ?_)
theorem inv_setHost (secs : List (Nat × Bool)) {s : State} (hI : Inv s) : Inv (setHost secs s) := by
  unfold setHost
  repeat' (first | assumption | with_reducible refine inv_foldl (fun _ _ _ => ?_) _ ?_)
theorem inv_hostGets (a : HostAcc) {s : State} (hI : Inv s) : Inv (hostGets a s) := by
  unfold hostGets
  repeat' (first
         | assumption | with_reducible refine inv_tellHost _ ?_ | with_reducible refine inv_ite ?_ ?_
         | with_reducible refine inv_ite_snd ?_ ?_ | with_reducible refine inv_ite_fst ?_ ?_ | with_reducible refine invO_ite ?_ ?_
         | with_reducible refine inv_foldl (fun _ _ _ => ?_) _ ?_ | with_reducible refine inv_foldl_snd (fun _ _ _ => ?_) _ ?_
         | with_reducible refine inv_foldl_fst (fun _ _ _ => ?_) _ ?_ | with_reducible refine invOf_mem _ _ ?_
         | with_reducible refine invOf_memFilter _ ?_ | with_reducible refine invOf_tiles _ _ ?_
         | with_reducible refine invOf_tilesFilter _ ?_ | with_reducible refine invOf_tilesClear _ _ ?_
         | with_reducible refine invOf_ctrs _ _ ?_ | simp only [inv_mk, invOf_self] | rw [invO_next] | split)
theorem inv_hostDevice (a : HostAcc) {s : State} (hI : Inv s) : Inv (hostDevice a s) := by
  unfold hostDevice
  repeat' (first
         | assumption | with_reducible refine inv_leaveInbox _ ?_ | with_reducible refine inv_hostGets _ ?_
         | with_reducible refine inv_placeWrite _ _ _ _ ?_ | with_reducible refine inv_setHost _ ?_
         | with_reducible refine inv_waitInbox _ ?_ | with_reducible refine inv_clearHost _ ?_
         | with_reducible refine inv_prepareRange _ _ _ _ ?_ | with_reducible refine inv_ite ?_ ?_ | with_reducible refine inv_ite_snd ?_ ?_
         | with_reducible refine inv_ite_fst ?_ ?_ | simp only [inv_mk, invOf_self] | split)
theorem inv_hostOwn (a : HostAcc) {s : State} (hI : Inv s) : Inv (hostOwn a s) := by
  unfold hostOwn
  have h : Inv ((sectorsIn a.pa a.len).foldl (fun (z : Bool × State) sec => if z.1 then settleHost a.wr.isSome sec z.2 else z) (true, s)).2 :=
    inv_foldl_snd (fun _ _ h => inv_ite_snd (inv_settleHost _ _ h) h) _ hI
  refine inv_ite (inv_waitInbox _ h) (inv_leaveInbox _ (inv_hostGets _ ?_))
  split
  · exact inv_foldl (fun _ _ h => inv_hostPart _ _ _ _ h) _ h
  · exact h
theorem inv_hostHole (a : HostAcc) {s : State} (hI : Inv s) : Inv (hostHole a s) := by
  unfold hostHole
  repeat' (first
         | assumption | with_reducible refine inv_countLog _ _ _ _ ?_ | with_reducible refine inv_hostGets _ ?_
         | with_reducible refine inv_leaveInbox _ ?_)
theorem inv_hostMemory (a : HostAcc) {s : State} (hI : Inv s) : Inv (hostMemory a s) := by
  unfold hostMemory
  repeat' (first
         | assumption | with_reducible refine inv_hostHole _ ?_ | with_reducible refine inv_hostDevice _ ?_
         | with_reducible refine inv_hostOwn _ ?_ | with_reducible refine inv_waitInbox _ ?_ | with_reducible refine inv_leaveInbox _ ?_
         | with_reducible refine inv_ite ?_ ?_ | split)
theorem inv_bisnpResponse (sec : Nat) (dirty : Option HostData) (inv : Bool) {s : State} (hI : Inv s) : Inv (bisnpResponse sec dirty inv s) := by
  unfold bisnpResponse
  repeat' (first
         | assumption | with_reducible refine inv_dirProgress _ _ ?_ | with_reducible refine inv_setDirb _ _ ?_
         | with_reducible refine inv_takeData _ _ _ _ _ ?_ | with_reducible refine inv_ite ?_ ?_ | with_reducible refine inv_ite_fst ?_ ?_
         | simp only [inv_mk, invOf_self] | split)
theorem inv_execBisnpResponse (sector : Nat) (dirty : Option HostData) {s : State} (hI : Inv s) : InvO (execBisnpResponse sector dirty s) := by
  unfold execBisnpResponse
  repeat' (first
         | assumption | with_reducible refine inv_hostMemory _ ?_ | with_reducible refine inv_leaveInbox _ ?_
         | with_reducible refine inv_bisnpResponse _ _ _ ?_ | with_reducible refine inv_waitInbox _ ?_ | with_reducible refine inv_ite ?_ ?_
         | with_reducible refine inv_ite_snd ?_ ?_ | with_reducible refine inv_ite_fst ?_ ?_ | with_reducible refine invO_ite ?_ ?_
         | simp only [inv_mk, invOf_self] | rw [invO_next] | split)
theorem inv_snoop (i : Instr) (d : Nat) (sec : Nat) (body : State → State) {s : State}
    (hbody : ∀ a0, Inv a0 → Inv (body a0)) (hI : Inv s) : InvO (snoop i d sec body s) := by
  unfold snoop
  repeat' (first
        | assumption | with_reducible refine hbody _ ?_ | with_reducible refine inv_leaveInbox _ ?_
        | with_reducible refine inv_waitInbox _ ?_ | with_reducible refine inv_ite ?_ ?_ | rw [invO_next])
theorem inv_execSnpData (die : Nat) (sector : Nat) {s : State} (hI : Inv s) : InvO (execSnpData die sector s) := by
  unfold execSnpData
  repeat' (first
         | assumption | with_reducible refine inv_snoopDie _ _ _ ?_ | with_reducible refine inv_snoop _ _ _ _ (fun _ _ => ?_) ?_
         | rw [invO_next])
theorem inv_execSnpInv (die : Nat) (sector : Nat) {s : State} (hI : Inv s) : InvO (execSnpInv die sector s) := by
  unfold execSnpInv
  repeat' (first
         | assumption | with_reducible refine inv_snoopDie _ _ _ ?_ | with_reducible refine inv_snoop _ _ _ _ (fun _ _ => ?_) ?_
         | rw [invO_next])
theorem inv_execSnpCur (die : Nat) (sector : Nat) {s : State} (hI : Inv s) : InvO (execSnpCur die sector s) := by
  unfold execSnpCur
  repeat' (first
         | assumption | with_reducible refine inv_snoopDie _ _ _ ?_ | with_reducible refine inv_snoop _ _ _ _ (fun _ _ => ?_) ?_
         | rw [invO_next])
theorem inv_go (d : Nat) (sec : Nat) (k : DReq) (st : Mesi) (x : HostData) {s : State} (hI : Inv s) : Inv (go d sec k st x s) := by
  unfold go
  extract_lets c s1 s2 v y z
  have h2 : Inv s2 := inv_ite (inv_hostStore _ _ _ hI) hI
  clear_value s2
  exact inv_snoopSet _ _ _ (inv_rdcPut _ h2)
theorem inv_snoopMake (sec : Nat) {s : State} (hI : Inv s) : Inv (snoopMake sec s).2 := by
  unfold snoopMake
  refine inv_ite_snd hI ?_
  extract_lets l
  refine inv_ite_snd hI ?_
  generalize List.find? _ l = o
  cases o with
  | none => exact hI
  | some a =>
    dsimp only
    exact inv_returnSec a hI
theorem inv_execGo (die : Nat) (sector : Nat) (st : Mesi) (data : HostData) {s : State} (hI : Inv s) : InvO (execGo die sector st data s) := by
  unfold execGo
  repeat' (first
         | assumption | with_reducible refine inv_go _ _ _ _ _ ?_ | with_reducible refine inv_snoopMake _ ?_
         | with_reducible refine inv_waitInbox _ ?_ | with_reducible refine inv_leaveInbox _ ?_ | with_reducible refine inv_ite ?_ ?_
         | with_reducible refine inv_ite_snd ?_ ?_ | with_reducible refine inv_ite_fst ?_ ?_ | with_reducible refine invO_ite ?_ ?_
         | simp only [inv_mk, invOf_self] | rw [invO_next] | split)
theorem inv_execCacheClear {s : State} (hI : Inv s) : InvO (execCacheClear s) := by
  unfold execCacheClear
  rw [invO_next]
  refine inv_ite (inv_leaveInbox _ hI) (inv_ite (inv_waitInbox _ hI) (inv_leaveInbox _ ?_))
  have h := inv_foldl (f := returnSec) (fun s x h => inv_returnSec x h) (hostSecs s) hI
  generalize List.foldl returnSec _ _ = t at h ⊢
  rw [inv_mk]
  exact h
theorem inv_execCacheSet {s : State} (hI : Inv s) : InvO (execCacheSet s) := by
  unfold execCacheSet
  repeat' (first | assumption | with_reducible refine inv_ite ?_ ?_ | simp only [inv_mk, invOf_self] | rw [invO_next])
theorem inv_bisnpOver {s : State} (hI : Inv s) : Inv (bisnpOver s) := by
  unfold bisnpOver
  repeat' (first
        | assumption | with_reducible refine inv_dirProgress _ _ ?_ | with_reducible refine inv_foldl (fun _ _ _ => ?_) _ ?_)
theorem inv_memOff {s : State} (hI : Inv s) : Inv (memOff s) := by
  unfold memOff
  repeat' (first | assumption | with_reducible refine inv_bisnpOver ?_)
theorem inv_execMemClear {s : State} (hI : Inv s) : InvO (execMemClear s) := by
  unfold execMemClear
  repeat' (first
        | assumption | with_reducible refine inv_memOff ?_ | with_reducible refine inv_ite ?_ ?_ | rw [invO_next])
theorem inv_execMemSet {s : State} (hI : Inv s) : InvO (execMemSet s) := by
  unfold execMemSet
  repeat' (first
        | assumption | with_reducible refine inv_clearHost _ ?_ | with_reducible refine inv_ite ?_ ?_
        | simp only [inv_mk, invOf_self] | rw [invO_next])
theorem inv_loseSec {s : State} (sec : Nat) (hI : Inv s) : Inv (loseSec s sec) := by
  unfold loseSec
  repeat' (first
        | assumption | with_reducible refine inv_dieDrop _ _ ?_ | with_reducible refine inv_countLog _ _ _ _ ?_
        | with_reducible refine inv_ite ?_ ?_ | with_reducible refine inv_foldl (fun _ _ _ => ?_) _ ?_)
theorem inv_execHostLinkDown {s : State} (hI : Inv s) : InvO (execHostLinkDown s) := by
  unfold execHostLinkDown
  rw [invO_next]
  refine inv_ite hI (inv_memOff ?_)
  have h := inv_foldl (f := loseSec) (fun s x h => inv_loseSec x h) (hostSecs s) hI
  generalize List.foldl loseSec _ _ = t at h ⊢
  rw [inv_mk]
  exact ⟨h.1, (by decide : (0#2 : BitVec 2) ≠ 3#2), h.2.2⟩
theorem inv_execSnoopFilterEviction (sector : Nat) {s : State} (hI : Inv s) : InvO (execSnoopFilterEviction sector s) := by
  unfold execSnoopFilterEviction
  rw [invO_next]
  generalize List.find? _ _ = o
  cases o with
  | none => exact hI
  | some x =>
    dsimp only
    exact inv_ite hI (inv_returnSec _ hI)
theorem inv_crcFailure (port : Nat) (n : Nat) {s : State} (hI : Inv s) : Inv (crcFailure port n s) := by
  unfold crcFailure
  repeat' (first
        | assumption | with_reducible refine inv_count _ ?_ | with_reducible refine inv_ite ?_ ?_
        | simp only [inv_mk, invOf_self])
theorem inv_execFlitCrcFailure (port : Nat) (n : Nat) {s : State} (hI : Inv s) : InvO (execFlitCrcFailure port n s) := by
  unfold execFlitCrcFailure
  repeat' (first | assumption | with_reducible refine inv_crcFailure _ _ ?_ | rw [invO_next])
theorem inv_resend (port : Nat) {s : State} (hI : Inv s) : Inv (resend port s) := by
  unfold resend
  repeat' assumption
theorem inv_rearm (port : Nat) {s : State} (hI : Inv s) : Inv (rearm port s) := by
  unfold rearm
  repeat' (first
         | assumption | with_reducible refine inv_ite ?_ ?_ | with_reducible refine inv_ite_snd ?_ ?_
         | with_reducible refine inv_ite_fst ?_ ?_ | with_reducible refine invO_ite ?_ ?_
         | with_reducible refine inv_foldl (fun _ _ _ => ?_) _ ?_ | with_reducible refine inv_foldl_snd (fun _ _ _ => ?_) _ ?_
         | with_reducible refine inv_foldl_fst (fun _ _ _ => ?_) _ ?_ | with_reducible refine invOf_mem _ _ ?_
         | with_reducible refine invOf_memFilter _ ?_ | with_reducible refine invOf_tiles _ _ ?_
         | with_reducible refine invOf_tilesFilter _ ?_ | with_reducible refine invOf_tilesClear _ _ ?_
         | with_reducible refine invOf_ctrs _ _ ?_ | simp only [inv_mk, invOf_self] | rw [invO_next] | split)
theorem inv_execReplay (port : Nat) {s : State} (hI : Inv s) : InvO (execReplay port s) := by
  unfold execReplay
  repeat' (first
         | assumption | with_reducible refine inv_rearm _ ?_ | with_reducible refine inv_resend _ ?_ | with_reducible refine inv_ite ?_ ?_
         | with_reducible refine invO_ite ?_ ?_ | simp only [inv_mk, invOf_self] | rw [invO_next] | split)
theorem inv_dropPort (port : Nat) {s : State} (hI : Inv s) : Inv (dropPort port s) := by
  unfold dropPort
  repeat' (first
        | assumption | with_reducible refine inv_noteCut _ ?_ | with_reducible refine inv_ite ?_ ?_
        | with_reducible refine inv_foldl (fun _ _ _ => ?_) _ ?_)
theorem inv_execPortDown (port : Nat) {s : State} (hI : Inv s) : InvO (execPortDown port s) := by
  unfold execPortDown
  repeat' (first
        | assumption | with_reducible refine inv_dropPort _ ?_ | with_reducible refine inv_ite ?_ ?_ | rw [invO_next])
theorem inv_raisePort (port : Nat) {s : State} (hI : Inv s) : Inv (raisePort port s) := by
  unfold raisePort
  repeat' assumption
theorem inv_execRetrain (port : Nat) (ok : Bool) {s : State} (hI : Inv s) : InvO (execRetrain port ok s) := by
  unfold execRetrain
  repeat' (first
         | assumption | with_reducible refine inv_raisePort _ ?_ | with_reducible refine inv_dropPort _ ?_
         | with_reducible refine inv_rearm _ ?_ | with_reducible refine inv_resend _ ?_ | with_reducible refine inv_count _ ?_
         | with_reducible refine inv_ite ?_ ?_ | with_reducible refine invO_ite ?_ ?_ | simp only [inv_mk, invOf_self] | rw [invO_next]
         | split)
theorem inv_execPathTimeout (node : BitVec 20) {s : State} (hI : Inv s) : InvO (execPathTimeout node s) := by
  unfold execPathTimeout
  repeat' (first | assumption | with_reducible refine inv_ite ?_ ?_ | simp only [inv_mk, invOf_self] | rw [invO_next])
theorem inv_answerPeer (a : InAcc) (r : InRes) {s : State} (hI : Inv s) : Inv (answerPeer a r s) := by
  unfold answerPeer
  repeat' (first
         | assumption | with_reducible refine inv_leaveInbox _ ?_ | with_reducible refine inv_ite ?_ ?_
         | with_reducible refine inv_ite_snd ?_ ?_ | with_reducible refine inv_ite_fst ?_ ?_ | with_reducible refine invO_ite ?_ ?_
         | with_reducible refine inv_foldl (fun _ _ _ => ?_) _ ?_ | with_reducible refine inv_foldl_snd (fun _ _ _ => ?_) _ ?_
         | with_reducible refine inv_foldl_fst (fun _ _ _ => ?_) _ ?_ | with_reducible refine invOf_mem _ _ ?_
         | with_reducible refine invOf_memFilter _ ?_ | with_reducible refine invOf_tiles _ _ ?_
         | with_reducible refine invOf_tilesFilter _ ?_ | with_reducible refine invOf_tilesClear _ _ ?_
         | with_reducible refine invOf_ctrs _ _ ?_ | simp only [inv_mk, invOf_self] | rw [invO_next] | split)
theorem inv_inbound (a : InAcc) {s : State} (hI : Inv s) : Inv (inbound a s) := by
  unfold inbound
  repeat' (first
         | assumption | with_reducible refine inv_placeWrite _ _ _ _ ?_ | with_reducible refine inv_prepareRange _ _ _ _ ?_
         | with_reducible refine inv_countLog _ _ _ _ ?_ | with_reducible refine inv_answerPeer _ _ ?_
         | with_reducible refine inv_waitInbox _ ?_ | with_reducible refine inv_leaveInbox _ ?_ | with_reducible refine inv_ite ?_ ?_
         | with_reducible refine inv_ite_snd ?_ ?_ | with_reducible refine inv_ite_fst ?_ ?_ | simp only [inv_mk, invOf_self] | split)
theorem inv_execInboundAccess (x0 : InAcc) {s : State} (hI : Inv s) : InvO (execInboundAccess x0 s) := by
  unfold execInboundAccess
  repeat' (first | assumption | with_reducible refine inv_inbound _ ?_ | rw [invO_next])
theorem inv_refusal (id : Nat) {s : State} (hI : Inv s) : Inv (refusal id s) := by
  unfold refusal
  repeat' (first | assumption | with_reducible refine inv_attempt _ ?_ | with_reducible refine inv_ite ?_ ?_ | split)
theorem inv_execRefusal (id : Nat) {s : State} (hI : Inv s) : InvO (execRefusal id s) := by
  unfold execRefusal
  repeat' (first | assumption | with_reducible refine inv_refusal _ ?_ | rw [invO_next])
theorem inv_execL1Eviction (cl : Nat) (line : Nat) {s : State} (hI : Inv s) : InvO (execL1Eviction cl line s) := by
  unfold execL1Eviction
  rw [invO_next]
  exact inv_foldl (fun s x h => inv_evictD _ _ (inv_evictS _ _ h)) _ hI
theorem inv_recallOwners (pl : Option Nat) (sec : Nat) {s : State} (hI : Inv s) : Inv (recallOwners pl sec s) := by
  unfold recallOwners
  repeat' (first
        | assumption | with_reducible refine inv_sendGrouped _ _ _ _ _ _ ?_ | with_reducible refine inv_ite ?_ ?_)
theorem inv_l2EvictSec {s : State} (sec : Nat) (hI : Inv s) : Inv (l2EvictSec s sec) := by
  unfold l2EvictSec
  repeat' (first
        | assumption | with_reducible refine inv_recallOwners _ _ ?_ | with_reducible refine inv_l2Out _ ?_
        | with_reducible refine inv_ite ?_ ?_)
theorem inv_execL2Eviction (line : Nat) {s : State} (hI : Inv s) : InvO (execL2Eviction line s) := by
  unfold execL2Eviction
  rw [invO_next]
  exact inv_foldl (fun s x h => inv_l2EvictSec x h) _ hI
theorem inv_rdcOut (d : Nat) (sec : Nat) (bad : Bool) {s : State} (hI : Inv s) : Inv (rdcOut d sec bad s) := by
  unfold rdcOut
  split
  · exact hI
  · extract_lets dirty v w out told
    have h : Inv out := inv_dieDrop _ _ hI
    have h2 : Inv told := inv_tellHost _ h
    clear_value out v w told
    exact inv_ite (inv_ite (inv_hostStore _ _ _ h2) h2) (inv_ite h (inv_sendMsg _ _ _ _ _ h))
theorem inv_execRdcEviction (die : Nat) (sector : Nat) {s : State} (hI : Inv s) : InvO (execRdcEviction die sector s) := by
  unfold execRdcEviction
  repeat' (first
        | assumption | with_reducible refine inv_recallOwners _ _ ?_ | with_reducible refine inv_rdcOut _ _ _ ?_
        | with_reducible refine inv_ite ?_ ?_ | simp only [inv_mk, invOf_self] | rw [invO_next])
theorem inv_sramUE (die : Nat) (unit : Nat) (pa : Nat) {s : State} (hI : Inv s) : Inv (sramUE die unit pa s) := by
  unfold sramUE
  repeat' (first | assumption | with_reducible refine inv_countLog _ _ _ _ ?_)
theorem inv_loseAt (cl : Nat) (key : Nat) {s : State} (pa : Nat) (hI : Inv s) : Inv (loseAt cl key s pa) := by
  unfold loseAt
  repeat' (first
        | assumption | with_reducible refine inv_resolve ?_ | with_reducible refine inv_putAnswer _ _ _ _ ?_
        | with_reducible refine inv_l2Get _ _ ?_ | with_reducible refine inv_l2Put _ ?_
        | with_reducible refine inv_sendMsg _ _ _ _ _ ?_ | with_reducible refine inv_ite ?_ ?_
        | simp only [inv_mk, invOf_self] | split)
theorem inv_ownerLost (cl : Nat) (sec : Nat) {s : State} (hI : Inv s) : Inv (ownerLost cl sec s) := by
  unfold ownerLost
  repeat' (first
        | assumption | with_reducible refine inv_acksDone ?_ | with_reducible refine inv_loseAt _ _ _ ?_
        | with_reducible refine inv_sramUE _ _ _ ?_ | with_reducible refine inv_takeException _ _ _ _ ?_
        | with_reducible refine inv_foldl (fun _ _ _ => ?_) _ ?_ | simp only [inv_mk, invOf_self] | split)
theorem inv_execOwnerLost (cl : Nat) (sector : Nat) {s : State} (hI : Inv s) : InvO (execOwnerLost cl sector s) := by
  unfold execOwnerLost
  repeat' (first
        | assumption | with_reducible refine inv_ownerLost _ _ ?_ | with_reducible refine inv_sramUE _ _ _ ?_
        | with_reducible refine inv_ite ?_ ?_ | simp only [inv_mk, invOf_self] | rw [invO_next])
theorem inv_l1Bad (cl : Nat) (sec : Nat) {s : State} (hI : Inv s) : Inv (l1Bad cl sec s) := by
  unfold l1Bad
  repeat' (first
        | assumption | with_reducible refine inv_sramUE _ _ _ ?_ | with_reducible refine inv_sendMsg _ _ _ _ _ ?_
        | with_reducible refine inv_ite ?_ ?_ | simp only [inv_mk, invOf_self] | split)
theorem inv_rdcBad (d : Nat) (sec : Nat) {s : State} (hI : Inv s) : Inv (rdcBad d sec s) := by
  unfold rdcBad
  repeat' (first
         | assumption | with_reducible refine inv_sramUE _ _ _ ?_ | with_reducible refine inv_rdcOut _ _ _ ?_
         | with_reducible refine inv_waitInbox _ ?_ | with_reducible refine inv_leaveInbox _ ?_ | with_reducible refine inv_ite ?_ ?_
         | simp only [inv_mk, invOf_self] | split)
theorem inv_l2Bad (sec : Nat) {s : State} (hI : Inv s) : Inv (l2Bad sec s) := by
  unfold l2Bad
  repeat' (first | assumption | with_reducible refine inv_l2Put _ ?_ | with_reducible refine inv_sramUE _ _ _ ?_ | split)
theorem inv_tileUnitBad (c : Nat) (off : Nat) {s : State} (hI : Inv s) : Inv (tileUnitBad c off s) := by
  unfold tileUnitBad
  repeat' (first | assumption | with_reducible refine inv_ite ?_ ?_)
theorem inv_accUnitBad (c : Nat) (off : Nat) {s : State} (hI : Inv s) : Inv (accUnitBad c off s) := by
  unfold accUnitBad
  repeat' (first | assumption | with_reducible refine inv_ite ?_ ?_)
theorem inv_execSectorError (at_ : Holder) (sector : Nat) {s : State} (hI : Inv s) : InvO (execSectorError at_ sector s) := by
  unfold execSectorError
  repeat' (first
        | assumption | with_reducible refine inv_l1Bad _ _ ?_ | with_reducible refine inv_rdcBad _ _ ?_
        | with_reducible refine inv_l2Bad _ ?_ | with_reducible refine inv_tileUnitBad _ _ ?_ | with_reducible refine inv_accUnitBad _ _ ?_
        | with_reducible refine inv_count _ ?_ | rw [invO_next] | split)
theorem inv_burstFails (sec : Nat) {s : State} (hI : Inv s) : Inv (burstFails sec s) := by
  unfold burstFails
  repeat' (first
         | assumption | with_reducible refine inv_count _ ?_ | with_reducible refine inv_countLog _ _ _ _ ?_
         | with_reducible refine inv_burstOver _ ?_ | with_reducible refine inv_l2Drop _ ?_ | with_reducible refine inv_ite ?_ ?_
         | simp only [inv_mk, invOf_self])
theorem inv_hbmRead (sec : Nat) (o : HbmOutcome) {s : State} (hI : Inv s) : Inv (hbmRead sec o s) := by
  unfold hbmRead
  repeat' (first
         | assumption | with_reducible refine inv_integFail _ ?_ | with_reducible refine inv_uncorrectable _ ?_ | with_reducible refine inv_burstFails _ ?_
         | with_reducible refine inv_count _ ?_ | with_reducible refine inv_ite ?_ ?_ | simp only [inv_mk, invOf_self] | split)
theorem inv_execHbmRead (sector : Nat) (o : HbmOutcome) {s : State} (hI : Inv s) : InvO (execHbmRead sector o s) := by
  unfold execHbmRead
  repeat' (first | assumption | with_reducible refine inv_hbmRead _ _ ?_ | rw [invO_next])
theorem inv_channelRetrain (sec : Nat) (wr : Bool) (ok : Bool) {s : State} (hI : Inv s) : Inv (channelRetrain sec wr ok s) := by
  unfold channelRetrain
  repeat' (first
         | assumption | with_reducible refine inv_l2Drop _ ?_ | with_reducible refine inv_countLog _ _ _ _ ?_ | with_reducible refine inv_burstOver _ ?_
         | with_reducible refine inv_ite ?_ ?_ | simp only [inv_mk, invOf_self] | split)
theorem inv_execChannelRetrain (sector : Nat) (wr : Bool) (ok : Bool) {s : State}
    (hI : Inv s) : InvO (execChannelRetrain sector wr ok s) := by
  unfold execChannelRetrain
  repeat' (first | assumption | with_reducible refine inv_channelRetrain _ _ _ ?_ | rw [invO_next])
theorem inv_directoryByteError (sec : Nat) {s : State} (hI : Inv s) : Inv (directoryByteError sec s) := by
  unfold directoryByteError
  repeat' (first
        | assumption | with_reducible refine inv_sendBisnp _ _ ?_ | with_reducible refine inv_ite ?_ ?_
        | with_reducible refine inv_foldl (fun _ _ _ => ?_) _ ?_)
theorem inv_execDirectoryByteError (sector : Nat) (corrected : Bool) {s : State}
    (hI : Inv s) : InvO (execDirectoryByteError sector corrected s) := by
  unfold execDirectoryByteError
  repeat' (first
        | assumption | with_reducible refine inv_count _ ?_ | with_reducible refine inv_directoryByteError _ ?_
        | with_reducible refine inv_ite ?_ ?_ | rw [invO_next])
theorem inv_flushRdc (k : Nat) {s : State} (hI : Inv s) : Inv (flushRdc k s).2 := by
  unfold flushRdc
  repeat' (first
        | assumption | with_reducible refine inv_takeData _ _ _ _ _ ?_ | with_reducible refine inv_ite_snd ?_ ?_
        | with_reducible refine inv_foldl_snd (fun _ _ _ => ?_) _ ?_ | simp only [inv_mk, invOf_self] | split)
theorem inv_flushL2 (k : Nat) {s : State} (hI : Inv s) : Inv (flushL2 k s) := by
  unfold flushL2
  repeat' (first
        | assumption | with_reducible refine inv_l2Out _ ?_ | with_reducible refine inv_ite ?_ ?_
        | with_reducible refine inv_foldl (fun _ _ _ => ?_) _ ?_)
theorem inv_keyDone (stat : Byte) {s : State} (hI : Inv s) : Inv (keyDone stat s) := by
  unfold keyDone
  repeat' assumption
theorem inv_keyCommand (cmd : BitVec 2) (v : W256) {s : State} (hI : Inv s) : Inv (keyCommand cmd v s) := by
  unfold keyCommand
  repeat' (first
        | assumption | with_reducible refine inv_keyDone _ ?_ | with_reducible refine inv_flushRdc _ ?_
        | with_reducible refine inv_flushL2 _ ?_ | with_reducible refine inv_ite ?_ ?_ | simp only [inv_mk, invOf_self])
theorem inv_execKcmdLoad {s : State} (hI : Inv s) : InvO (execKcmdLoad s) := by
  unfold execKcmdLoad
  repeat' (first | assumption | with_reducible refine inv_keyCommand _ _ ?_ | rw [invO_next])
theorem inv_execKcmdClear {s : State} (hI : Inv s) : InvO (execKcmdClear s) := by
  unfold execKcmdClear
  repeat' (first | assumption | with_reducible refine inv_keyCommand _ _ ?_ | rw [invO_next])
theorem inv_clearDevice {s : State} (hI : Inv s) : Inv (clearDevice s) := by
  unfold clearDevice
  repeat' (first | assumption | with_reducible refine invOf_memFilter _ ?_ | simp only [inv_mk, invOf_self])
theorem inv_execInten {s : State} (hI : Inv s) : InvO (execInten s) := by
  unfold execInten
  rw [invO_next]
  refine inv_ite hI ?_
  have h := inv_clearDevice hI
  generalize clearDevice s = t at h ⊢
  rw [inv_mk]
  exact h
theorem inv_counterWrite (off : Nat) (val : W64) {s : State} (hI : Inv s) : Inv (counterWrite off val s) := by
  unfold counterWrite
  refine inv_ite ?_ hI
  extract_lets k c c1 c2
  have h : c2.length = 14 := by
    have := hI.2.2.1
    unfold c2 c1 c
    repeat' split
    all_goals simp [this]
  exact ⟨hI.1, hI.2.1, h, hI.2.2.2⟩
theorem inv_execCounterWrite (off : Nat) (val : W64) {s : State} (hI : Inv s) : InvO (execCounterWrite off val s) :=
  inv_hostOrder _ _ _ (fun _ h => inv_counterWrite _ _ h) hI
/-- A pressure state of the list is legal. -/
theorem prs_getD_le {l : List (BitVec 4)} (h : ∀ x ∈ l, x.toNat ≤ 3) (d : Nat) : (l.getD d 0#4).toNat ≤ 3 := by
  rw [List.getD_eq_getElem?_getD]
  cases hd : l[d]? with
  | none => simp
  | some x => exact h x (List.mem_of_getElem? hd)
theorem heldAt_le (s : State) (d : Nat) : heldAt s d ≤ 2 := by
  unfold heldAt
  dsimp only
  split <;> split <;> decide
theorem reached_le (s : State) (t : Int) : reached s t ≤ 3 := by
  unfold reached
  repeat' split
  all_goals decide
theorem nextPressure_le {s : State} (h : ∀ x ∈ s.pwr.prs, x.toNat ≤ 3) (d : Nat) : nextPressure s d ≤ 3 := by
  have h1 := prs_getD_le h d
  have h2 := heldAt_le s d
  have h3 := reached_le s (junction s d)
  unfold nextPressure
  dsimp only
  repeat' split
  all_goals omega
/-- Four states, each at most 3, are legal. -/
theorem prsOk (f : Nat → Nat) (hf : ∀ d, f d ≤ 3) :
    ((List.range 4).map fun d => BitVec.ofNat 4 (f d)).length = 4 ∧
    ∀ x ∈ (List.range 4).map fun d => BitVec.ofNat 4 (f d), x.toNat ≤ 3 := by
  refine ⟨by simp, fun x hx => ?_⟩
  simp only [List.mem_map] at hx
  obtain ⟨d, -, rfl⟩ := hx
  have := hf d
  rw [BitVec.toNat_ofNat]
  omega
theorem powerOk_reset (cold : Bool) : PowerOk (Power.reset cold) := by
  refine ⟨(by decide : 80 ≤ (100#8).toNat ∧ (100#8).toNat < (104#8).toNat ∧ (104#8).toNat < (108#8).toNat ∧ (108#8).toNat ≤ 112), rfl, fun x hx => ?_, rfl⟩
  simp only [Power.reset] at hx
  rw [List.eq_of_mem_replicate hx]
  decide
/-- Power registers whose pressure states are replaced by legal ones. -/
theorem powerOk_prs {p q : Power} (h : PowerOk p) (f : Nat → Nat) (hf : ∀ d, f d ≤ 3)
    (e : q.prs = (List.range 4).map fun d => BitVec.ofNat 4 (f d)) (e1 : q.half = p.half) (e2 : q.light = p.light)
    (e3 : q.easy = p.easy) (e4 : q.sensors = p.sensors) : PowerOk q := by
  unfold PowerOk
  rw [e, e1, e2, e3, e4]
  exact ⟨h.1, (prsOk f hf).1, (prsOk f hf).2, h.2.2.2⟩
theorem inv_flushBytes (key : Nat) (sec : Nat) (w : Nat) (p : Part) {s : State} (hI : Inv s) : Inv (flushBytes key sec w p s) :=
  inv_l2Put _ (inv_l2Get _ _ hI)
theorem inv_flushWord {s : State} (x : L1Word) (hI : Inv s) : Inv (flushWord s x) := by
  unfold flushWord
  repeat' (first | assumption | with_reducible refine inv_flushBytes _ _ _ _ ?_ | with_reducible refine inv_ite ?_ ?_ | split)
theorem inv_flushSector (pa : Nat) (key : Nat) (d : List W32) (psn : BitVec 16) {s : State} (hI : Inv s) : Inv (flushSector pa key d psn s) := by
  unfold flushSector
  exact inv_ite (inv_hostStore _ _ _ hI) (inv_takeData _ _ _ _ _ hI)
theorem inv_flushLeft {s : State} (m : Msg) (hI : Inv s) : Inv (flushLeft s m) := by
  unfold flushLeft
  repeat' (first
         | assumption | with_reducible refine inv_flushSector _ _ _ _ ?_ | with_reducible refine inv_flushBytes _ _ _ _ ?_
         | with_reducible refine inv_ite ?_ ?_ | with_reducible refine inv_ite_snd ?_ ?_ | with_reducible refine inv_ite_fst ?_ ?_
         | with_reducible refine invO_ite ?_ ?_ | with_reducible refine inv_foldl (fun _ _ _ => ?_) _ ?_
         | with_reducible refine inv_foldl_snd (fun _ _ _ => ?_) _ ?_ | with_reducible refine inv_foldl_fst (fun _ _ _ => ?_) _ ?_
         | with_reducible refine invOf_mem _ _ ?_ | with_reducible refine invOf_memFilter _ ?_ | with_reducible refine invOf_tiles _ _ ?_
         | with_reducible refine invOf_tilesFilter _ ?_ | with_reducible refine invOf_tilesClear _ _ ?_
         | with_reducible refine invOf_ctrs _ _ ?_ | simp only [inv_mk, invOf_self] | rw [invO_next] | split)
theorem inv_flushGrant {s : State} (m : Msg) (hI : Inv s) : Inv (flushGrant s m) := by
  unfold flushGrant
  repeat' (first
         | assumption | with_reducible refine inv_flushBytes _ _ _ _ ?_ | with_reducible refine inv_ite ?_ ?_
         | with_reducible refine inv_ite_snd ?_ ?_ | with_reducible refine inv_ite_fst ?_ ?_ | with_reducible refine invO_ite ?_ ?_
         | with_reducible refine inv_foldl (fun _ _ _ => ?_) _ ?_ | with_reducible refine inv_foldl_snd (fun _ _ _ => ?_) _ ?_
         | with_reducible refine inv_foldl_fst (fun _ _ _ => ?_) _ ?_ | with_reducible refine invOf_mem _ _ ?_
         | with_reducible refine invOf_memFilter _ ?_ | with_reducible refine invOf_tiles _ _ ?_
         | with_reducible refine invOf_tilesFilter _ ?_ | with_reducible refine invOf_tilesClear _ _ ?_
         | with_reducible refine invOf_ctrs _ _ ?_ | simp only [inv_mk, invOf_self] | rw [invO_next] | split)
theorem inv_flushAnswer {s : State} (m : Msg) (hI : Inv s) : Inv (flushAnswer s m) := by
  unfold flushAnswer
  repeat' (first
         | assumption | with_reducible refine inv_flushBytes _ _ _ _ ?_ | with_reducible refine inv_ite ?_ ?_
         | with_reducible refine inv_ite_snd ?_ ?_ | with_reducible refine inv_ite_fst ?_ ?_ | with_reducible refine invO_ite ?_ ?_
         | with_reducible refine inv_foldl (fun _ _ _ => ?_) _ ?_ | with_reducible refine inv_foldl_snd (fun _ _ _ => ?_) _ ?_
         | with_reducible refine inv_foldl_fst (fun _ _ _ => ?_) _ ?_ | with_reducible refine invOf_mem _ _ ?_
         | with_reducible refine invOf_memFilter _ ?_ | with_reducible refine invOf_tiles _ _ ?_
         | with_reducible refine invOf_tilesFilter _ ?_ | with_reducible refine invOf_tilesClear _ _ ?_
         | with_reducible refine invOf_ctrs _ _ ?_ | simp only [inv_mk, invOf_self] | rw [invO_next] | split)
theorem inv_flushWait {s : State} (g : GWait) (hI : Inv s) : Inv (flushWait s g) := by
  unfold flushWait
  repeat' (first
         | assumption | with_reducible refine inv_flushBytes _ _ _ _ ?_ | with_reducible refine inv_ite ?_ ?_
         | with_reducible refine inv_ite_snd ?_ ?_ | with_reducible refine inv_ite_fst ?_ ?_ | with_reducible refine invO_ite ?_ ?_
         | with_reducible refine inv_foldl (fun _ _ _ => ?_) _ ?_ | with_reducible refine inv_foldl_snd (fun _ _ _ => ?_) _ ?_
         | with_reducible refine inv_foldl_fst (fun _ _ _ => ?_) _ ?_ | with_reducible refine invOf_mem _ _ ?_
         | with_reducible refine invOf_memFilter _ ?_ | with_reducible refine invOf_tiles _ _ ?_
         | with_reducible refine invOf_tilesFilter _ ?_ | with_reducible refine invOf_tilesClear _ _ ?_
         | with_reducible refine invOf_ctrs _ _ ?_ | simp only [inv_mk, invOf_self] | rw [invO_next] | split)
theorem inv_flushDies {s : State} (hI : Inv s) : Inv (flushDies s) := by
  unfold flushDies
  repeat' (first
         | assumption | with_reducible refine inv_flushWait _ ?_ | with_reducible refine inv_flushWord _ ?_
         | with_reducible refine inv_flushGrant _ ?_ | with_reducible refine inv_flushAnswer _ ?_ | with_reducible refine inv_flushLeft _ ?_
         | with_reducible refine inv_flushSector _ _ _ _ ?_ | with_reducible refine inv_ite ?_ ?_ | with_reducible refine inv_ite_snd ?_ ?_
         | with_reducible refine inv_ite_fst ?_ ?_ | with_reducible refine invO_ite ?_ ?_
         | with_reducible refine inv_foldl (fun _ _ _ => ?_) _ ?_ | with_reducible refine inv_foldl_snd (fun _ _ _ => ?_) _ ?_
         | with_reducible refine inv_foldl_fst (fun _ _ _ => ?_) _ ?_ | with_reducible refine invOf_mem _ _ ?_
         | with_reducible refine invOf_memFilter _ ?_ | with_reducible refine invOf_tiles _ _ ?_
         | with_reducible refine invOf_tilesFilter _ ?_ | with_reducible refine invOf_tilesClear _ _ ?_
         | with_reducible refine invOf_ctrs _ _ ?_ | simp only [inv_mk, invOf_self] | rw [invO_next] | split)
theorem inv_flushCaches {s : State} (hI : Inv s) : Inv (flushCaches s) := by
  unfold flushCaches
  repeat' (first
         | assumption | with_reducible refine inv_l2Out _ ?_ | with_reducible refine inv_flushDies ?_
         | with_reducible refine inv_foldl (fun _ _ _ => ?_) _ ?_ | simp only [inv_mk, invOf_self] | split)
theorem inv_setPressure {s : State} (hI : Inv s) : Inv (setPressure s) := by
  obtain ⟨h1, h2, h3, h4, h5, h6, h7⟩ := hI
  have h := prsOk (nextPressure s) (nextPressure_le h6)
  exact ⟨h1, h2, h3, h4, h.1, h.2, h7⟩
theorem inv_powerOff {s : State} (hI : Inv s) : Inv (powerOff s) := by
  unfold powerOff
  refine inv_ite hI ?_
  have h := inv_flushDies hI
  generalize flushDies s = t at h ⊢
  rw [inv_mk]
  exact h
theorem inv_execSensorSample (temps : List (BitVec 16)) {s : State} (hI : Inv s) : InvO (execSensorSample temps s) := by
  unfold execSensorSample
  rw [invO_next]
  refine dite (temps.length ≠ 48) (fun h => ?_) (fun h => ?_)
  · rw [if_pos h]
    exact hI
  · rw [if_neg h]
    have h1 : Inv { s with pwr := { s.pwr with sensors := temps.map fun t => (true, t) } } := by
      refine ⟨hI.1, hI.2.1, hI.2.2.1, hI.2.2.2.1, hI.2.2.2.2.1, hI.2.2.2.2.2.1, ?_⟩
      simpa using h
    exact inv_ite (inv_powerOff (inv_fatal _ (inv_setPressure h1))) (inv_setPressure h1)
theorem inv_withdraw {s : State} (hI : Inv s) : Inv (withdraw s) := by
  unfold withdraw
  have h := inv_paddlesOut (s := { s with fe := { s.fe with holdCl := [] } }) hI
  generalize paddlesOut _ = t at h ⊢
  rw [inv_mk]
  exact h
theorem inv_powerUpdate (pkg : BitVec 16) (dies : List (BitVec 16)) {s : State}
    (hI : Inv s) : Inv (powerUpdate pkg dies s) := by
  unfold powerUpdate
  dsimp only
  refine inv_ite (inv_withdraw ?_) (inv_ite ?_ (inv_ite ?_ (inv_withdraw ?_)))
  all_goals
    rw [inv_mk]
    refine ⟨hI.1, hI.2.1, hI.2.2.1, powerOk_prs hI.2.2.2 (fun d => max (s.pwr.prs.getD d 0#4).toNat (heldAt _ d)) ?_ rfl rfl rfl rfl rfl⟩
    intro d
    exact Nat.max_le.mpr ⟨prs_getD_le hI.2.2.2.2.2.1 d, Nat.le_succ_of_le (heldAt_le _ d)⟩
theorem inv_execPowerUpdate (pkg : BitVec 16) (dies : List (BitVec 16)) {s : State}
    (hI : Inv s) : InvO (execPowerUpdate pkg dies s) := by
  unfold execPowerUpdate
  repeat' (first | assumption | with_reducible refine inv_powerUpdate _ _ ?_ | rw [invO_next])
theorem inv_execHoldingInstance {s : State} (hI : Inv s) : InvO (execHoldingInstance s) := by
  unfold execHoldingInstance
  repeat' (first
        | assumption | with_reducible refine inv_cands ?_ | with_reducible refine inv_ite ?_ ?_
        | simp only [inv_mk, invOf_self] | rw [invO_next] | split)
theorem inv_resetTo (cold : Bool) {s : State} (hI : Inv s) : Inv (resetTo cold s) := by
  unfold resetTo
  extract_lets keep s1
  have h1 : Inv s1 := inv_endAllWork (inv_ite (inv_flushCaches hI) (inv_clearDevice hI))
  clear_value s1
  refine ⟨⟨h1.1.1, rfl⟩, (by decide : (0#2 : BitVec 2) ≠ 3#2), ?_, powerOk_reset cold⟩
  cases cold
  · exact h1.2.2.1
  · rfl
theorem inv_execWarmReset {s : State} (hI : Inv s) : InvO (execWarmReset s) := by
  unfold execWarmReset
  repeat' (first
         | assumption | with_reducible refine inv_resetTo _ ?_ | with_reducible refine inv_ite ?_ ?_ | with_reducible refine invO_ite ?_ ?_
         | rw [invO_next] | split)
theorem inv_execColdReset {s : State} (hI : Inv s) : InvO (execColdReset s) := by
  unfold execColdReset
  repeat' (first | assumption | with_reducible refine inv_resetTo _ ?_ | rw [invO_next])
theorem inv_execBringUp (b : BringUp) {s : State} (hI : Inv s) : InvO (execBringUp b s) := by
  unfold execBringUp
  rw [invO_next]
  refine inv_ite hI ?_
  dsimp only
  rw [inv_mk]
  refine ⟨hI.1, ?_, hI.2.2.1, hI.2.2.2⟩
  show (if linkTrains b then b.mode else 0#2) ≠ 3#2
  refine dite (linkTrains b = true) (fun h => ?_) (fun h => ?_)
  · rw [if_pos h]
    rcases (of_decide_eq_true h).2.2 with h | h <;> (rw [h.1]; decide)
  · rw [if_neg h]
    decide
theorem inv_thresholdWrite (val : W64) {s : State} (hI : Inv s) : Inv (thresholdWrite val s) := by
  unfold thresholdWrite
  refine dite (80 ≤ (val.extractLsb' 0 8).toNat ∧ (val.extractLsb' 0 8).toNat < (val.extractLsb' 8 8).toNat ∧
    (val.extractLsb' 8 8).toNat < (val.extractLsb' 16 8).toNat ∧ (val.extractLsb' 16 8).toNat ≤ 112) (fun h => ?_) (fun h => ?_)
  · rw [if_pos h]
    refine inv_setPressure ?_
    rw [inv_mk]
    refine ⟨hI.1, hI.2.1, hI.2.2.1, ?_, hI.2.2.2.2⟩
    simpa only [BitVec.ofNat_toNat, BitVec.setWidth_eq] using h
  · rw [if_neg h]
    exact hI
theorem inv_execThresholdWrite (val : W64) {s : State} (hI : Inv s) : InvO (execThresholdWrite val s) :=
  inv_hostOrder _ _ _ (fun _ h => inv_thresholdWrite _ h) hI
theorem inv_writeFecmd (val : W64) {s : State} (hI : Inv s) : Inv (writeFecmd val s) := by
  unfold writeFecmd
  repeat' (first | assumption | with_reducible refine inv_ite ?_ ?_)
theorem inv_writeFtcmd (val : W64) {s : State} (hI : Inv s) : Inv (writeFtcmd val s) := by
  unfold writeFtcmd
  repeat' (first | assumption | with_reducible refine inv_ite ?_ ?_)
theorem inv_writeKcmd (val : W64) {s : State} (hI : Inv s) : Inv (writeKcmd val s) := by
  unfold writeKcmd
  repeat' (first | assumption | with_reducible refine inv_ite ?_ ?_)
theorem inv_writeNode (val : W64) {s : State} (hI : Inv s) : Inv (writeNode val s) := by
  unfold writeNode
  repeat' assumption
theorem inv_writeHold (val : W64) {s : State} (hI : Inv s) : Inv (writeHold val s) := by
  unfold writeHold
  repeat' assumption
theorem inv_writeKsel (val : W64) {s : State} (hI : Inv s) : Inv (writeKsel val s) := by
  unfold writeKsel
  repeat' (first | assumption | with_reducible refine inv_ite ?_ ?_ | simp only [inv_mk, invOf_self] | split)
theorem inv_outState (o : Out) {s : State} (ho : InvO o) (hI : Inv s) : Inv (outState o s) := by
  unfold outState
  repeat' (first | assumption | split)
theorem inv_writeMsix (off : Nat) (val : W64) {s : State} (hI : Inv s) : Inv (writeMsix off val s) := by
  unfold writeMsix
  repeat' (first | assumption | with_reducible refine inv_sendPending _ ?_)
theorem inv_writeApert (off : Nat) (val : W64) {s : State} (hI : Inv s) : Inv (writeApert off val s) := by
  unfold writeApert
  repeat' assumption
theorem inv_writePower (off : Nat) (val : W64) {s : State} (hI : Inv s) : Inv (writePower off val s) := by
  unfold writePower
  repeat' (first
         | assumption | with_reducible refine inv_execWarmReset ?_ | with_reducible refine inv_outState _ ?_ ?_
         | with_reducible refine inv_writeHold _ ?_ | with_reducible refine inv_thresholdWrite _ ?_ | with_reducible refine inv_ite ?_ ?_
         | split)
theorem inv_writeKeys (off : Nat) (val : W64) {s : State} (hI : Inv s) : Inv (writeKeys off val s) := by
  unfold writeKeys
  repeat' (first
        | assumption | with_reducible refine inv_writeKsel _ ?_ | with_reducible refine inv_writeKcmd _ ?_
        | with_reducible refine inv_ite ?_ ?_)
theorem inv_writeCmd (off : Nat) (val : W64) {s : State} (hI : Inv s) : Inv (writeCmd off val s) := by
  unfold writeCmd
  repeat' (first
        | assumption | with_reducible refine inv_writeFecmd _ ?_ | with_reducible refine inv_writeFtcmd _ ?_
        | with_reducible refine inv_ite ?_ ?_)
theorem inv_registerWrite (off : Nat) (val : W64) {s : State} (hI : Inv s) : Inv (registerWrite off val s) := by
  unfold registerWrite
  exact inv_ite hI (inv_ite (inv_writeNode _ hI) (inv_ite hI (inv_ite (inv_writeCmd _ _ hI) (inv_ite
    (inv_counterWrite _ _ hI) (inv_ite (inv_writeKeys _ _ hI) (inv_ite (inv_writePower _ _ hI) (inv_ite
    (inv_writeMsix _ _ hI) (inv_ite (inv_writeApert _ _ hI) (inv_ite (inv_doorbellStore _ _ _ hI) hI)))))))))
theorem inv_execRegisterWrite (off : Nat) (val : W64) {s : State} (hI : Inv s) : InvO (execRegisterWrite off val s) :=
  inv_hostOrder _ _ _ (fun _ h => inv_registerWrite _ _ h) hI
theorem inv_hostRegister (a : HostAcc) {s : State} (hI : Inv s) : Inv (hostRegister a s) := by
  unfold hostRegister
  refine inv_ite hI ?_
  split
  · exact inv_registerWrite _ _ hI
  · exact inv_tellHost _ hI
theorem inv_execHostAccess (a : HostAcc) {s : State} (hI : Inv s) : InvO (execHostAccess a s) := by
  unfold execHostAccess
  repeat' (first
         | assumption | with_reducible refine inv_hostRegister _ ?_ | with_reducible refine inv_waitInbox _ ?_
         | with_reducible refine inv_leaveInbox _ ?_ | with_reducible refine inv_hostMemory _ ?_ | with_reducible refine inv_ite ?_ ?_
         | with_reducible refine invO_ite ?_ ?_ | rw [invO_next] | split)
theorem inv_tickOn {s : State} (hI : Inv s) : Inv (tickOn s) := by
  unfold tickOn
  repeat' assumption
theorem inv_placeFetch {s : State} (ws : List W64) (hI : Inv s) : Inv (placeFetch s ws) := by
  unfold placeFetch
  extract_lets i s1
  have h1 : Inv s1 := inv_freshTiles _ _ hI
  clear_value s1
  refine ⟨h1.1, h1.2.1, h1.2.2.1, h1.2.2.2.1, ?_, ?_, h1.2.2.2.2.2.2⟩
  · simp [h1.2.2.2.2.1]
  · intro x hx
    obtain h | h := List.mem_or_eq_of_mem_set hx
    · exact h1.2.2.2.2.2.1 x h
    · subst h
      decide

end Sys2Proof.Machine
end

