-- ==== Sys2Proof/Laws/PerInstr.lean ====
section
/-! SUPPORT. Statements about the syntax of every instruction, one lemma a constructor. -/
namespace Sys2Proof.Laws.Length
open Sys2Proof Sys2Proof.Machine

/-- R36: a record's words number 1 + XI + ceil(NT/2), and there are one to four of them. -/
def Statement (i : Instr) : Prop :=
  countOk i = true → (encode i).length = recordLen (extOf i).isSome (targetsOf i).length ∧ 1 ≤ (encode i).length ∧ (encode i).length ≤ 4

/-- The words of raw fields, counted. -/
theorem wordsOfRaw_length (r : Raw) (h : r.nt.toNat ≤ 4) : (wordsOfRaw r).length = recordLen r.xi r.nt.toNat := by
  unfold wordsOfRaw recordLen
  obtain h | h | h | h | h : r.nt.toNat = 0 ∨ r.nt.toNat = 1 ∨ r.nt.toNat = 2 ∨ r.nt.toNat = 3 ∨ r.nt.toNat = 4 := by omega
  all_goals cases r.xi <;> simp [h]
/-- At most four targets make the law hold. -/
theorem ofCount (i : Instr) (h : (targetsOf i).length ≤ 4) : Statement i := by
  intro _
  have hn : (rawOf i).nt.toNat = (targetsOf i).length := by
    simp only [rawOf, BitVec.toNat_ofNat]
    omega
  have hl : (encode i).length = recordLen (extOf i).isSome (targetsOf i).length := by
    rw [encode, wordsOfRaw_length _ (by omega), hn]
    rfl
  rw [hl]
  unfold recordLen
  refine ⟨rfl, by omega, ?_⟩
  cases (extOf i).isSome <;> simp <;> omega
/-- A record's count of targets is what R36 allows. -/
theorem ofRecord (i : Instr) {sh : Shape} (hs : shape i = some sh) : Statement i := by
  intro h
  refine ofCount i ?_ h
  simp only [countOk, hs, Bool.and_eq_true, decide_eq_true_eq] at h
  exact h.1

theorem pass (a0 : CtlRec) : Statement (.pass a0) := ofRecord _ rfl
theorem const (a0 : Subst) (a1 : List Target) : Statement (.const a0 a1) := ofRecord _ rfl
theorem steerT (a0 : CtlRec) : Statement (.steerT a0) := ofRecord _ rfl
theorem steerF (a0 : CtlRec) : Statement (.steerF a0) := ofRecord _ rfl
theorem select (a0 : CtlRec) : Statement (.select a0) := ofRecord _ rfl
theorem waveAdv (a0 : CtlRec) : Statement (.waveAdv a0) := ofRecord _ rfl
theorem waveSet (a0 : CtlRec) : Statement (.waveSet a0) := ofRecord _ rfl
theorem loopGate (a0 : CtlRec) : Statement (.loopGate a0) := ofRecord _ rfl
theorem loopOpen (a0 : CtlRec) (a1 : BitVec 7) : Statement (.loopOpen a0 a1) := ofRecord _ rfl
theorem loopClose (a0 : CtlRec) : Statement (.loopClose a0) := ofRecord _ rfl
theorem spawn (a0 : CtlRec) : Statement (.spawn a0) := ofRecord _ rfl
theorem tagGet (a0 : CtlRec) : Statement (.tagGet a0) := ofRecord _ rfl
theorem tagSet (a0 : CtlRec) : Statement (.tagSet a0) := ofRecord _ rfl
theorem tagThr (a0 : CtlRec) : Statement (.tagThr a0) := ofRecord _ rfl
theorem tagWav (a0 : CtlRec) : Statement (.tagWav a0) := ofRecord _ rfl
theorem call (a0 : CtlRec) : Statement (.call a0) := ofRecord _ rfl
theorem ret (a0 : CtlRec) : Statement (.ret a0) := ofRecord _ rfl
theorem sinkDrop : Statement (.sinkDrop) := ofRecord _ rfl
theorem sinkEos : Statement (.sinkEos) := ofRecord _ rfl
theorem sinkCount : Statement (.sinkCount) := ofRecord _ rfl
theorem eosMake (a0 : CtlRec) : Statement (.eosMake a0) := ofRecord _ rfl
theorem errTest (a0 : CtlRec) : Statement (.errTest a0) := ofRecord _ rfl
theorem errClear (a0 : CtlRec) : Statement (.errClear a0) := ofRecord _ rfl
theorem errMake (a0 : CtlRec) (a1 : BitVec 8) : Statement (.errMake a0 a1) := ofRecord _ rfl
theorem sysTrap (a0 : BitVec 16) (a1 : List Target) : Statement (.sysTrap a0 a1) := ofRecord _ rfl
theorem sysBrk (a0 : BitVec 16) (a1 : List Target) : Statement (.sysBrk a0 a1) := ofRecord _ rfl
theorem sysQry (a0 : BitVec 8) (a1 : List Target) : Statement (.sysQry a0 a1) := ofRecord _ rfl
theorem sysClk (a0 : List Target) : Statement (.sysClk a0) := ofRecord _ rfl
theorem add (a0 : IntRec) : Statement (.add a0) := ofRecord _ rfl
theorem sub (a0 : IntRec) : Statement (.sub a0) := ofRecord _ rfl
theorem mulLo (a0 : IntRec) : Statement (.mulLo a0) := ofRecord _ rfl
theorem mulHis (a0 : IntRec) : Statement (.mulHis a0) := ofRecord _ rfl
theorem mulHiu (a0 : IntRec) : Statement (.mulHiu a0) := ofRecord _ rfl
theorem divS (a0 : IntRec) : Statement (.divS a0) := ofRecord _ rfl
theorem divU (a0 : IntRec) : Statement (.divU a0) := ofRecord _ rfl
theorem remS (a0 : IntRec) : Statement (.remS a0) := ofRecord _ rfl
theorem remU (a0 : IntRec) : Statement (.remU a0) := ofRecord _ rfl
theorem and (a0 : IntRec) : Statement (.and a0) := ofRecord _ rfl
theorem or (a0 : IntRec) : Statement (.or a0) := ofRecord _ rfl
theorem xor (a0 : IntRec) : Statement (.xor a0) := ofRecord _ rfl
theorem andn (a0 : IntRec) : Statement (.andn a0) := ofRecord _ rfl
theorem shl (a0 : IntRec) : Statement (.shl a0) := ofRecord _ rfl
theorem shrL (a0 : IntRec) : Statement (.shrL a0) := ofRecord _ rfl
theorem shrA (a0 : IntRec) : Statement (.shrA a0) := ofRecord _ rfl
theorem rotL (a0 : IntRec) : Statement (.rotL a0) := ofRecord _ rfl
theorem rotR (a0 : IntRec) : Statement (.rotR a0) := ofRecord _ rfl
theorem bcntClz (a0 : IntRec) : Statement (.bcntClz a0) := ofRecord _ rfl
theorem bcntCtz (a0 : IntRec) : Statement (.bcntCtz a0) := ofRecord _ rfl
theorem bcntPopc (a0 : IntRec) : Statement (.bcntPopc a0) := ofRecord _ rfl
theorem minS (a0 : IntRec) : Statement (.minS a0) := ofRecord _ rfl
theorem minU (a0 : IntRec) : Statement (.minU a0) := ofRecord _ rfl
theorem maxS (a0 : IntRec) : Statement (.maxS a0) := ofRecord _ rfl
theorem maxU (a0 : IntRec) : Statement (.maxU a0) := ofRecord _ rfl
theorem abs (a0 : IntRec) : Statement (.abs a0) := ofRecord _ rfl
theorem cmp (a0 : CmpRel) (a1 : IntRec) : Statement (.cmp a0 a1) := ofRecord _ rfl
theorem ext (a0 : ExtFn) (a1 : IntRec) : Statement (.ext a0 a1) := ofRecord _ rfl
theorem bfx (a0 : IntRec) : Statement (.bfx a0) := ofRecord _ rfl
theorem bfi (a0 : IntRec) : Statement (.bfi a0) := ofRecord _ rfl
theorem lea (a0 : BitVec 3) (a1 : IntRec) : Statement (.lea a0 a1) := ofRecord _ rfl
theorem addsS (a0 : IntRec) : Statement (.addsS a0) := ofRecord _ rfl
theorem addsU (a0 : IntRec) : Statement (.addsU a0) := ofRecord _ rfl
theorem mula (a0 : IntRec) : Statement (.mula a0) := ofRecord _ rfl
theorem fadd (a0 : FltRec) : Statement (.fadd a0) := ofRecord _ rfl
theorem fsub (a0 : FltRec) : Statement (.fsub a0) := ofRecord _ rfl
theorem fmul (a0 : FltRec) : Statement (.fmul a0) := ofRecord _ rfl
theorem fma (a0 : FmaFn) (a1 : FltRec) : Statement (.fma a0 a1) := ofRecord _ rfl
theorem fdiv (a0 : FltRec) : Statement (.fdiv a0) := ofRecord _ rfl
theorem fsqrt (a0 : FltRec) : Statement (.fsqrt a0) := ofRecord _ rfl
theorem frcp (a0 : FltRec) : Statement (.frcp a0) := ofRecord _ rfl
theorem frsq (a0 : FltRec) : Statement (.frsq a0) := ofRecord _ rfl
theorem fexp2 (a0 : FltRec) : Statement (.fexp2 a0) := ofRecord _ rfl
theorem flog2 (a0 : FltRec) : Statement (.flog2 a0) := ofRecord _ rfl
theorem fminNum (a0 : FltRec) : Statement (.fminNum a0) := ofRecord _ rfl
theorem fminIeee (a0 : FltRec) : Statement (.fminIeee a0) := ofRecord _ rfl
theorem fmaxNum (a0 : FltRec) : Statement (.fmaxNum a0) := ofRecord _ rfl
theorem fmaxIeee (a0 : FltRec) : Statement (.fmaxIeee a0) := ofRecord _ rfl
theorem fabs (a0 : FltRec) : Statement (.fabs a0) := ofRecord _ rfl
theorem fneg (a0 : FltRec) : Statement (.fneg a0) := ofRecord _ rfl
theorem fcps (a0 : FltRec) : Statement (.fcps a0) := ofRecord _ rfl
theorem fcmp (a0 : FcmpRel) (a1 : FltRec) : Statement (.fcmp a0 a1) := ofRecord _ rfl
theorem fcls (a0 : FltRec) : Statement (.fcls a0) := ofRecord _ rfl
theorem fcvtFf (a0 : BitVec 5) (a1 : FltRec) : Statement (.fcvtFf a0 a1) := ofRecord _ rfl
theorem fcvtFi (a0 : FltRec) : Statement (.fcvtFi a0) := ofRecord _ rfl
theorem fcvtFiu (a0 : FltRec) : Statement (.fcvtFiu a0) := ofRecord _ rfl
theorem fcvtIf (a0 : BitVec 5) (a1 : FltRec) : Statement (.fcvtIf a0 a1) := ofRecord _ rfl
theorem fcvtIuf (a0 : BitVec 5) (a1 : FltRec) : Statement (.fcvtIuf a0 a1) := ofRecord _ rfl
theorem frnd (a0 : Rm) (a1 : FltRec) : Statement (.frnd a0 a1) := ofRecord _ rfl
theorem fscl (a0 : FltRec) : Statement (.fscl a0) := ofRecord _ rfl
theorem fxp (a0 : FltRec) : Statement (.fxp a0) := ofRecord _ rfl
theorem vbcast (a0 : VecRec) : Statement (.vbcast a0) := ofRecord _ rfl
theorem vlaneGet (a0 : VecRec) : Statement (.vlaneGet a0) := ofRecord _ rfl
theorem vlanePut (a0 : VecRec) : Statement (.vlanePut a0) := ofRecord _ rfl
theorem vshuf (a0 : W32) (a1 : VecRec) : Statement (.vshuf a0 a1) := ofRecord _ rfl
theorem vperm (a0 : VecRec) : Statement (.vperm a0) := ofRecord _ rfl
theorem vredAdd (a0 : VecRec) : Statement (.vredAdd a0) := ofRecord _ rfl
theorem vredMax (a0 : VecRec) : Statement (.vredMax a0) := ofRecord _ rfl
theorem vredMin (a0 : VecRec) : Statement (.vredMin a0) := ofRecord _ rfl
theorem vredAmax (a0 : VecRec) : Statement (.vredAmax a0) := ofRecord _ rfl
theorem vscan (a0 : VecRec) : Statement (.vscan a0) := ofRecord _ rfl
theorem vmask (a0 : VecRec) : Statement (.vmask a0) := ofRecord _ rfl
theorem vsel (a0 : VecRec) : Statement (.vsel a0) := ofRecord _ rfl
theorem vpack (a0 : BitVec 5) (a1 : VecRec) : Statement (.vpack a0 a1) := ofRecord _ rfl
theorem vunpk (a0 : BitVec 5) (a1 : Bool) (a2 : VecRec) : Statement (.vunpk a0 a1 a2) := ofRecord _ rfl
theorem vbexp (a0 : BitVec 5) (a1 : VecRec) : Statement (.vbexp a0 a1) := ofRecord _ rfl
theorem vqnt (a0 : BitVec 5) (a1 : VecRec) : Statement (.vqnt a0 a1) := ofRecord _ rfl
theorem vdqnt (a0 : BitVec 5) (a1 : VecRec) : Statement (.vdqnt a0 a1) := ofRecord _ rfl
theorem vdot (a0 : VecRec) : Statement (.vdot a0) := ofRecord _ rfl
theorem ld (a0 : MemRec) : Statement (.ld a0) := ofRecord _ rfl
theorem st (a0 : MemRec) : Statement (.st a0) := ofRecord _ rfl
theorem ldx (a0 : MemRec) : Statement (.ldx a0) := ofRecord _ rfl
theorem stx (a0 : MemRec) : Statement (.stx a0) := ofRecord _ rfl
theorem mnop (a0 : MemRec) : Statement (.mnop a0) := ofRecord _ rfl
theorem pf (a0 : MemRec) : Statement (.pf a0) := ofRecord _ rfl
theorem amo (a0 : AmoFn) (a1 : MemRec) : Statement (.amo a0 a1) := ofRecord _ rfl
theorem cas (a0 : MemRec) : Statement (.cas a0) := ofRecord _ rfl
theorem red (a0 : AmoFn) (a1 : MemRec) : Statement (.red a0 a1) := ofRecord _ rfl
theorem xred (a0 : MemRec) : Statement (.xred a0) := ofRecord _ rfl
theorem xrd (a0 : MemRec) : Statement (.xrd a0) := ofRecord _ rfl
theorem fenceAcq (a0 : MemRec) : Statement (.fenceAcq a0) := ofRecord _ rfl
theorem fenceRel (a0 : MemRec) : Statement (.fenceRel a0) := ofRecord _ rfl
theorem fenceAr (a0 : MemRec) : Statement (.fenceAr a0) := ofRecord _ rfl
theorem fenceSc (a0 : MemRec) : Statement (.fenceSc a0) := ofRecord _ rfl
theorem own (a0 : MemRec) : Statement (.own a0) := ofRecord _ rfl
theorem invRegion (a0 : MemRec) : Statement (.invRegion a0) := ofRecord _ rfl
theorem invAll (a0 : MemRec) : Statement (.invAll a0) := ofRecord _ rfl
theorem wbk (a0 : MemRec) : Statement (.wbk a0) := ofRecord _ rfl
theorem ftset (a0 : MemRec) : Statement (.ftset a0) := ofRecord _ rfl
theorem ftget (a0 : BitVec 5) (a1 : List Target) : Statement (.ftget a0 a1) := ofRecord _ rfl
theorem ftsync (a0 : BitVec 5) (a1 : CtlRec) : Statement (.ftsync a0 a1) := ofRecord _ rfl
theorem tld (a0 : BitVec 8) (a1 : List Target) : Statement (.tld a0 a1) := ofRecord _ rfl
theorem tldAcc (a0 : BitVec 4) (a1 : List Target) : Statement (.tldAcc a0 a1) := ofRecord _ rfl
theorem tst (a0 : BitVec 8) (a1 : List Target) : Statement (.tst a0 a1) := ofRecord _ rfl
theorem tstAcc (a0 : BitVec 4) (a1 : List Target) : Statement (.tstAcc a0 a1) := ofRecord _ rfl
theorem tzero (a0 : BitVec 8) (a1 : List Target) : Statement (.tzero a0 a1) := ofRecord _ rfl
theorem tzeroAcc (a0 : BitVec 4) (a1 : List Target) : Statement (.tzeroAcc a0 a1) := ofRecord _ rfl
theorem tempty (a0 : BitVec 8) (a1 : List Target) : Statement (.tempty a0 a1) := ofRecord _ rfl
theorem tcvt (a0 : BitVec 8) (a1 : BitVec 8) (a2 : List Target) : Statement (.tcvt a0 a1 a2) := ofRecord _ rfl
theorem ttrn (a0 : BitVec 8) (a1 : BitVec 8) (a2 : List Target) : Statement (.ttrn a0 a1 a2) := ofRecord _ rfl
theorem tdesc (a0 : BitVec 8) (a1 : List Target) : Statement (.tdesc a0 a1) := ofRecord _ rfl
theorem tqry (a0 : BitVec 8) (a1 : List Target) : Statement (.tqry a0 a1) := ofRecord _ rfl
theorem tqryAcc (a0 : BitVec 4) (a1 : List Target) : Statement (.tqryAcc a0 a1) := ofRecord _ rfl
theorem mmaDense (a0 : MmaRec) : Statement (.mmaDense a0) := ofRecord _ rfl
theorem mmaAcca (a0 : BitVec 5) (a1 : Bool) (a2 : BitVec 6) (a3 : MmaRec) : Statement (.mmaAcca a0 a1 a2 a3) := ofRecord _ rfl
theorem mmaMx (a0 : BitVec 8) (a1 : BitVec 8) (a2 : MmaRec) : Statement (.mmaMx a0 a1 a2) := ofRecord _ rfl
theorem mmaTwo (a0 : BitVec 8) (a1 : BitVec 8) (a2 : BitVec 8) (a3 : BitVec 8) (a4 : MmaRec) : Statement (.mmaTwo a0 a1 a2 a3 a4) := ofRecord _ rfl
theorem isect (a0 : List Target) : Statement (.isect a0) := ofRecord _ rfl
theorem sstrm (a0 : BitVec 5) (a1 : List Target) : Statement (.sstrm a0 a1) := ofRecord _ rfl
theorem spacc (a0 : BitVec 8) (a1 : List Target) : Statement (.spacc a0 a1) := ofRecord _ rfl
theorem xcopy (a0 : XferRec) : Statement (.xcopy a0) := ofRecord _ rfl
theorem xgath (a0 : XferRec) : Statement (.xgath a0) := ofRecord _ rfl
theorem xscat (a0 : XferRec) : Statement (.xscat a0) := ofRecord _ rfl
theorem xtile (a0 : XferRec) : Statement (.xtile a0) := ofRecord _ rfl
theorem xfill (a0 : XferRec) : Statement (.xfill a0) := ofRecord _ rfl
theorem xacc (a0 : XferRec) : Statement (.xacc a0) := ofRecord _ rfl
theorem tokenArrival (a0 : Nat) : Statement (.tokenArrival a0) := ofCount _ (Nat.zero_le _)
theorem refill (a0 : Nat) (a1 : Place) (a2 : Tag) : Statement (.refill a0 a1 a2) := ofCount _ (Nat.zero_le _)
theorem ageOverride (a0 : Nat) (a1 : Nat) : Statement (.ageOverride a0 a1) := ofCount _ (Nat.zero_le _)
theorem cwCopyUpdate (a0 : Nat) (a1 : Nat) (a2 : Nat) (a3 : BitVec 16) : Statement (.cwCopyUpdate a0 a1 a2 a3) := ofCount _ (Nat.zero_le _)
theorem orderedRequest (a0 : Nat) : Statement (.orderedRequest a0) := ofCount _ (Nat.zero_le _)
theorem unorderedRequest (a0 : Nat) : Statement (.unorderedRequest a0) := ofCount _ (Nat.zero_le _)
theorem dataReturn (a0 : Ret) : Statement (.dataReturn a0) := ofCount _ (Nat.zero_le _)
theorem releasePerformed (a0 : Nat) : Statement (.releasePerformed a0) := ofCount _ (Nat.zero_le _)
theorem handOff (a0 : Nat) : Statement (.handOff a0) := ofCount _ (Nat.zero_le _)
theorem return_ (a0 : Nat) : Statement (.return_ a0) := ofCount _ (Nat.zero_le _)
theorem divideComplete (a0 : Nat) : Statement (.divideComplete a0) := ofCount _ (Nat.zero_le _)
theorem iterativeFloatComplete (a0 : Nat) : Statement (.iterativeFloatComplete a0) := ofCount _ (Nat.zero_le _)
theorem ftsetPerformed (a0 : Nat) : Statement (.ftsetPerformed a0) := ofCount _ (Nat.zero_le _)
theorem probe (a0 : Nat) : Statement (.probe a0) := ofCount _ (Nat.zero_le _)
theorem registration (a0 : Nat) : Statement (.registration a0) := ofCount _ (Nat.zero_le _)
theorem grant (a0 : Nat) : Statement (.grant a0) := ofCount _ (Nat.zero_le _)
theorem revoke (a0 : Nat) : Statement (.revoke a0) := ofCount _ (Nat.zero_le _)
end Sys2Proof.Laws.Length
/-! The dotted name keeps this theorem's last part from being read as the command word that Mathlib declares. -/
theorem Sys2Proof.Laws.Length.recall (a0 : Nat) : Sys2Proof.Laws.Length.Statement (.recall a0) :=
  Sys2Proof.Laws.Length.ofCount _ (Nat.zero_le _)
namespace Sys2Proof.Laws.Length
theorem writeBack (a0 : Nat) : Statement (.writeBack a0) := ofCount _ (Nat.zero_le _)
theorem homeRead (a0 : Nat) : Statement (.homeRead a0) := ofCount _ (Nat.zero_le _)
theorem forwardedRead (a0 : Nat) : Statement (.forwardedRead a0) := ofCount _ (Nat.zero_le _)
theorem l1Eviction (a0 : Nat) (a1 : Nat) : Statement (.l1Eviction a0 a1) := ofCount _ (Nat.zero_le _)
theorem l2Eviction (a0 : Nat) : Statement (.l2Eviction a0) := ofCount _ (Nat.zero_le _)
theorem rdcEviction (a0 : Nat) (a1 : Nat) : Statement (.rdcEviction a0 a1) := ofCount _ (Nat.zero_le _)
theorem ownerLost (a0 : Nat) (a1 : Nat) : Statement (.ownerLost a0 a1) := ofCount _ (Nat.zero_le _)
theorem directoryRequest (a0 : Nat) : Statement (.directoryRequest a0) := ofCount _ (Nat.zero_le _)
theorem directoryInvalidate (a0 : Nat) : Statement (.directoryInvalidate a0) := ofCount _ (Nat.zero_le _)
theorem sectorError (a0 : Holder) (a1 : Nat) : Statement (.sectorError a0 a1) := ofCount _ (Nat.zero_le _)
theorem snoopFilterEviction (a0 : Nat) : Statement (.snoopFilterEviction a0) := ofCount _ (Nat.zero_le _)
theorem snpData (a0 : Nat) (a1 : Nat) : Statement (.snpData a0 a1) := ofCount _ (Nat.zero_le _)
theorem snpInv (a0 : Nat) (a1 : Nat) : Statement (.snpInv a0 a1) := ofCount _ (Nat.zero_le _)
theorem snpCur (a0 : Nat) (a1 : Nat) : Statement (.snpCur a0 a1) := ofCount _ (Nat.zero_le _)
theorem go (a0 : Nat) (a1 : Nat) (a2 : Mesi) (a3 : HostData) : Statement (.go a0 a1 a2 a3) := ofCount _ (Nat.zero_le _)
theorem hostAccess (a0 : HostAcc) : Statement (.hostAccess a0) := ofCount _ (Nat.zero_le _)
theorem bisnpResponse (a0 : Nat) (a1 : Option HostData) : Statement (.bisnpResponse a0 a1) := ofCount _ (Nat.zero_le _)
theorem flitCrcFailure (a0 : Nat) (a1 : Nat) : Statement (.flitCrcFailure a0 a1) := ofCount _ (Nat.zero_le _)
theorem replay (a0 : Nat) : Statement (.replay a0) := ofCount _ (Nat.zero_le _)
theorem retrain (a0 : Nat) (a1 : Bool) : Statement (.retrain a0 a1) := ofCount _ (Nat.zero_le _)
theorem portDown (a0 : Nat) : Statement (.portDown a0) := ofCount _ (Nat.zero_le _)
theorem pathTimeout (a0 : BitVec 20) : Statement (.pathTimeout a0) := ofCount _ (Nat.zero_le _)
theorem inboundAccess (a0 : InAcc) : Statement (.inboundAccess a0) := ofCount _ (Nat.zero_le _)
theorem refusal (a0 : Nat) : Statement (.refusal a0) := ofCount _ (Nat.zero_le _)
theorem hbmRead (a0 : Nat) (a1 : HbmOutcome) : Statement (.hbmRead a0 a1) := ofCount _ (Nat.zero_le _)
theorem channelRetrain (a0 : Nat) (a1 : Bool) (a2 : Bool) : Statement (.channelRetrain a0 a1 a2) := ofCount _ (Nat.zero_le _)
theorem directoryByteError (a0 : Nat) (a1 : Bool) : Statement (.directoryByteError a0 a1) := ofCount _ (Nat.zero_le _)
theorem kick (a0 : Nat) (a1 : Nat) : Statement (.kick a0 a1) := ofCount _ (Nat.zero_le _)
theorem packetConsume (a0 : Nat) : Statement (.packetConsume a0) := ofCount _ (Nat.zero_le _)
theorem signalRecheck (a0 : Nat) : Statement (.signalRecheck a0) := ofCount _ (Nat.zero_le _)
theorem placement (a0 : Nat) : Statement (.placement a0) := ofCount _ (Nat.zero_le _)
theorem triggerStore (a0 : Nat) (a1 : W64) (a2 : Nat) (a3 : Option Nat) : Statement (.triggerStore a0 a1 a2 a3) := ofCount _ (Nat.zero_le _)
theorem run (a0 : Nat) (a1 : BitVec 4) : Statement (.run a0 a1) := ofCount _ (Nat.zero_le _)
theorem preemption (a0 : Nat) : Statement (.preemption a0) := ofCount _ (Nat.zero_le _)
theorem compaction (a0 : Nat) : Statement (.compaction a0) := ofCount _ (Nat.zero_le _)
theorem faultEntryWrite (a0 : Nat) : Statement (.faultEntryWrite a0) := ofCount _ (Nat.zero_le _)
theorem faultEntryRetry (a0 : Nat) : Statement (.faultEntryRetry a0) := ofCount _ (Nat.zero_le _)
theorem admission (a0 : Nat) : Statement (.admission a0) := ofCount _ (Nat.zero_le _)
theorem engineTake (a0 : Nat) : Statement (.engineTake a0) := ofCount _ (Nat.zero_le _)
theorem claim (a0 : Nat) : Statement (.claim a0) := ofCount _ (Nat.zero_le _)
theorem transferChunk (a0 : Nat) : Statement (.transferChunk a0) := ofCount _ (Nat.zero_le _)
theorem transferComplete (a0 : Nat) : Statement (.transferComplete a0) := ofCount _ (Nat.zero_le _)
theorem tileCompletion (a0 : Nat) : Statement (.tileCompletion a0) := ofCount _ (Nat.zero_le _)
theorem mmaStart (a0 : Nat) : Statement (.mmaStart a0) := ofCount _ (Nat.zero_le _)
theorem mmaComplete (a0 : Nat) : Statement (.mmaComplete a0) := ofCount _ (Nat.zero_le _)
theorem sstrmToken (a0 : Nat) : Statement (.sstrmToken a0) := ofCount _ (Nat.zero_le _)
theorem sweep (a0 : Nat) : Statement (.sweep a0) := ofCount _ (Nat.zero_le _)
theorem marker (a0 : Nat) (a1 : SweepNode) (a2 : Nat) : Statement (.marker a0 a1 a2) := ofCount _ (Nat.zero_le _)
theorem restore (a0 : Nat) : Statement (.restore a0) := ofCount _ (Nat.zero_le _)
theorem sensorSample (a0 : List (BitVec 16)) : Statement (.sensorSample a0) := ofCount _ (Nat.zero_le _)
theorem powerUpdate (a0 : BitVec 16) (a1 : List (BitVec 16)) : Statement (.powerUpdate a0 a1) := ofCount _ (Nat.zero_le _)
theorem fatalError (a0 : BitVec 8) : Statement (.fatalError a0) := ofCount _ (Nat.zero_le _)
theorem bringUp (a0 : BringUp) : Statement (.bringUp a0) := ofCount _ (Nat.zero_le _)
theorem thresholdWrite (a0 : W64) : Statement (.thresholdWrite a0) := ofCount _ (Nat.zero_le _)
theorem counterWrite (a0 : Nat) (a1 : W64) : Statement (.counterWrite a0 a1) := ofCount _ (Nat.zero_le _)
theorem registerWrite (a0 : Nat) (a1 : W64) : Statement (.registerWrite a0 a1) := ofCount _ (Nat.zero_le _)
theorem revokeAnswer (a0 : Nat) : Statement (.revokeAnswer a0) := ofCount _ (Nat.zero_le _)
theorem returnedSector (a0 : Nat) : Statement (.returnedSector a0) := ofCount _ (Nat.zero_le _)
theorem cacheClear : Statement (.cacheClear) := ofCount _ (Nat.zero_le _)
theorem cacheSet : Statement (.cacheSet) := ofCount _ (Nat.zero_le _)
theorem memClear : Statement (.memClear) := ofCount _ (Nat.zero_le _)
theorem memSet : Statement (.memSet) := ofCount _ (Nat.zero_le _)
theorem ctxload : Statement (.ctxload) := ofCount _ (Nat.zero_le _)
theorem ctxdrop : Statement (.ctxdrop) := ofCount _ (Nat.zero_le _)
theorem qmap : Statement (.qmap) := ofCount _ (Nat.zero_le _)
theorem qunmap : Statement (.qunmap) := ofCount _ (Nat.zero_le _)
theorem ctxfmt : Statement (.ctxfmt) := ofCount _ (Nat.zero_le _)
theorem instend : Statement (.instend) := ofCount _ (Nat.zero_le _)
theorem cloff : Statement (.cloff) := ofCount _ (Nat.zero_le _)
theorem clon : Statement (.clon) := ofCount _ (Nat.zero_le _)
theorem resumeReplay : Statement (.resumeReplay) := ofCount _ (Nat.zero_le _)
theorem resumeFail : Statement (.resumeFail) := ofCount _ (Nat.zero_le _)
theorem resumeReply : Statement (.resumeReply) := ofCount _ (Nat.zero_le _)
theorem shoot : Statement (.shoot) := ofCount _ (Nat.zero_le _)
theorem shootdownComplete : Statement (.shootdownComplete) := ofCount _ (Nat.zero_le _)
theorem holdingInstance : Statement (.holdingInstance) := ofCount _ (Nat.zero_le _)
theorem kcmdLoad : Statement (.kcmdLoad) := ofCount _ (Nat.zero_le _)
theorem kcmdClear : Statement (.kcmdClear) := ofCount _ (Nat.zero_le _)
theorem inten : Statement (.inten) := ofCount _ (Nat.zero_le _)
theorem warmReset : Statement (.warmReset) := ofCount _ (Nat.zero_le _)
theorem coldReset : Statement (.coldReset) := ofCount _ (Nat.zero_le _)
theorem hostLinkDown : Statement (.hostLinkDown) := ofCount _ (Nat.zero_le _)

end Sys2Proof.Laws.Length
end

