-- ==== Sys2Proof/Laws/State.lean ====
section
/-! SUPPORT. What the named updates of the state leave alone, field by field, and what they do to the fields they touch. -/
namespace Sys2Proof.Machine

@[simp] theorem modInst_time (id : Nat) (f : Inst → Inst) (s : State) : (modInst id f s).time = s.time := rfl
@[simp] theorem modInst_tick (id : Nat) (f : Inst → Inst) (s : State) : (modInst id f s).tick = s.tick := rfl
@[simp] theorem modInst_agenda (id : Nat) (f : Inst → Inst) (s : State) : (modInst id f s).agenda = s.agenda := rfl
@[simp] theorem modInst_inbox (id : Nat) (f : Inst → Inst) (s : State) : (modInst id f s).inbox = s.inbox := rfl
@[simp] theorem modInst_firing (id : Nat) (f : Inst → Inst) (s : State) : (modInst id f s).firing = s.firing := rfl
@[simp] theorem modInst_nextId (id : Nat) (f : Inst → Inst) (s : State) : (modInst id f s).nextId = s.nextId := rfl
@[simp] theorem modInst_flights (id : Nat) (f : Inst → Inst) (s : State) : (modInst id f s).flights = s.flights := rfl
@[simp] theorem modInst_ops (id : Nat) (f : Inst → Inst) (s : State) : (modInst id f s).ops = s.ops := rfl
@[simp] theorem modInst_xfers (id : Nat) (f : Inst → Inst) (s : State) : (modInst id f s).xfers = s.xfers := rfl
@[simp] theorem modInst_mem (id : Nat) (f : Inst → Inst) (s : State) : (modInst id f s).mem = s.mem := rfl
@[simp] theorem modInst_co (id : Nat) (f : Inst → Inst) (s : State) : (modInst id f s).co = s.co := rfl
@[simp] theorem modInst_tiles (id : Nat) (f : Inst → Inst) (s : State) : (modInst id f s).tiles = s.tiles := rfl
@[simp] theorem modInst_fe (id : Nat) (f : Inst → Inst) (s : State) : (modInst id f s).fe = s.fe := rfl
@[simp] theorem modInst_ft (id : Nat) (f : Inst → Inst) (s : State) : (modInst id f s).ft = s.ft := rfl
@[simp] theorem modInst_link (id : Nat) (f : Inst → Inst) (s : State) : (modInst id f s).link = s.link := rfl
@[simp] theorem modInst_fab (id : Nat) (f : Inst → Inst) (s : State) : (modInst id f s).fab = s.fab := rfl
@[simp] theorem modInst_ras (id : Nat) (f : Inst → Inst) (s : State) : (modInst id f s).ras = s.ras := rfl
@[simp] theorem modInst_pwr (id : Nat) (f : Inst → Inst) (s : State) : (modInst id f s).pwr = s.pwr := rfl

@[simp] theorem modCtx_time (h : Nat) (f : Ctx → Ctx) (s : State) : (modCtx h f s).time = s.time := rfl
@[simp] theorem modCtx_tick (h : Nat) (f : Ctx → Ctx) (s : State) : (modCtx h f s).tick = s.tick := rfl
@[simp] theorem modCtx_agenda (h : Nat) (f : Ctx → Ctx) (s : State) : (modCtx h f s).agenda = s.agenda := rfl
@[simp] theorem modCtx_inbox (h : Nat) (f : Ctx → Ctx) (s : State) : (modCtx h f s).inbox = s.inbox := rfl
@[simp] theorem modCtx_firing (h : Nat) (f : Ctx → Ctx) (s : State) : (modCtx h f s).firing = s.firing := rfl
@[simp] theorem modCtx_nextId (h : Nat) (f : Ctx → Ctx) (s : State) : (modCtx h f s).nextId = s.nextId := rfl
@[simp] theorem modCtx_insts (h : Nat) (f : Ctx → Ctx) (s : State) : (modCtx h f s).insts = s.insts := rfl
@[simp] theorem modCtx_flights (h : Nat) (f : Ctx → Ctx) (s : State) : (modCtx h f s).flights = s.flights := rfl
@[simp] theorem modCtx_ops (h : Nat) (f : Ctx → Ctx) (s : State) : (modCtx h f s).ops = s.ops := rfl
@[simp] theorem modCtx_xfers (h : Nat) (f : Ctx → Ctx) (s : State) : (modCtx h f s).xfers = s.xfers := rfl
@[simp] theorem modCtx_mem (h : Nat) (f : Ctx → Ctx) (s : State) : (modCtx h f s).mem = s.mem := rfl
@[simp] theorem modCtx_co (h : Nat) (f : Ctx → Ctx) (s : State) : (modCtx h f s).co = s.co := rfl
@[simp] theorem modCtx_tiles (h : Nat) (f : Ctx → Ctx) (s : State) : (modCtx h f s).tiles = s.tiles := rfl
@[simp] theorem modCtx_ft (h : Nat) (f : Ctx → Ctx) (s : State) : (modCtx h f s).ft = s.ft := rfl
@[simp] theorem modCtx_link (h : Nat) (f : Ctx → Ctx) (s : State) : (modCtx h f s).link = s.link := rfl
@[simp] theorem modCtx_fab (h : Nat) (f : Ctx → Ctx) (s : State) : (modCtx h f s).fab = s.fab := rfl
@[simp] theorem modCtx_ras (h : Nat) (f : Ctx → Ctx) (s : State) : (modCtx h f s).ras = s.ras := rfl
@[simp] theorem modCtx_pwr (h : Nat) (f : Ctx → Ctx) (s : State) : (modCtx h f s).pwr = s.pwr := rfl

@[simp] theorem modThr_time (i : Nat) (t : BitVec 16) (f : Thread → Thread) (s : State) : (modThr i t f s).time = s.time := rfl
@[simp] theorem modThr_tick (i : Nat) (t : BitVec 16) (f : Thread → Thread) (s : State) : (modThr i t f s).tick = s.tick := rfl
@[simp] theorem modThr_agenda (i : Nat) (t : BitVec 16) (f : Thread → Thread) (s : State) : (modThr i t f s).agenda = s.agenda := rfl
@[simp] theorem modThr_inbox (i : Nat) (t : BitVec 16) (f : Thread → Thread) (s : State) : (modThr i t f s).inbox = s.inbox := rfl
@[simp] theorem modThr_firing (i : Nat) (t : BitVec 16) (f : Thread → Thread) (s : State) : (modThr i t f s).firing = s.firing := rfl
@[simp] theorem modThr_nextId (i : Nat) (t : BitVec 16) (f : Thread → Thread) (s : State) : (modThr i t f s).nextId = s.nextId := rfl
@[simp] theorem modThr_flights (i : Nat) (t : BitVec 16) (f : Thread → Thread) (s : State) : (modThr i t f s).flights = s.flights := rfl
@[simp] theorem modThr_ops (i : Nat) (t : BitVec 16) (f : Thread → Thread) (s : State) : (modThr i t f s).ops = s.ops := rfl
@[simp] theorem modThr_xfers (i : Nat) (t : BitVec 16) (f : Thread → Thread) (s : State) : (modThr i t f s).xfers = s.xfers := rfl
@[simp] theorem modThr_mem (i : Nat) (t : BitVec 16) (f : Thread → Thread) (s : State) : (modThr i t f s).mem = s.mem := rfl
@[simp] theorem modThr_co (i : Nat) (t : BitVec 16) (f : Thread → Thread) (s : State) : (modThr i t f s).co = s.co := rfl
@[simp] theorem modThr_tiles (i : Nat) (t : BitVec 16) (f : Thread → Thread) (s : State) : (modThr i t f s).tiles = s.tiles := rfl
@[simp] theorem modThr_fe (i : Nat) (t : BitVec 16) (f : Thread → Thread) (s : State) : (modThr i t f s).fe = s.fe := rfl
@[simp] theorem modThr_ft (i : Nat) (t : BitVec 16) (f : Thread → Thread) (s : State) : (modThr i t f s).ft = s.ft := rfl
@[simp] theorem modThr_link (i : Nat) (t : BitVec 16) (f : Thread → Thread) (s : State) : (modThr i t f s).link = s.link := rfl
@[simp] theorem modThr_fab (i : Nat) (t : BitVec 16) (f : Thread → Thread) (s : State) : (modThr i t f s).fab = s.fab := rfl
@[simp] theorem modThr_ras (i : Nat) (t : BitVec 16) (f : Thread → Thread) (s : State) : (modThr i t f s).ras = s.ras := rfl
@[simp] theorem modThr_pwr (i : Nat) (t : BitVec 16) (f : Thread → Thread) (s : State) : (modThr i t f s).pwr = s.pwr := rfl

@[simp] theorem modOp_time (id : Nat) (f : Op → Op) (s : State) : (modOp id f s).time = s.time := rfl
@[simp] theorem modOp_tick (id : Nat) (f : Op → Op) (s : State) : (modOp id f s).tick = s.tick := rfl
@[simp] theorem modOp_agenda (id : Nat) (f : Op → Op) (s : State) : (modOp id f s).agenda = s.agenda := rfl
@[simp] theorem modOp_inbox (id : Nat) (f : Op → Op) (s : State) : (modOp id f s).inbox = s.inbox := rfl
@[simp] theorem modOp_firing (id : Nat) (f : Op → Op) (s : State) : (modOp id f s).firing = s.firing := rfl
@[simp] theorem modOp_nextId (id : Nat) (f : Op → Op) (s : State) : (modOp id f s).nextId = s.nextId := rfl
@[simp] theorem modOp_insts (id : Nat) (f : Op → Op) (s : State) : (modOp id f s).insts = s.insts := rfl
@[simp] theorem modOp_flights (id : Nat) (f : Op → Op) (s : State) : (modOp id f s).flights = s.flights := rfl
@[simp] theorem modOp_xfers (id : Nat) (f : Op → Op) (s : State) : (modOp id f s).xfers = s.xfers := rfl
@[simp] theorem modOp_mem (id : Nat) (f : Op → Op) (s : State) : (modOp id f s).mem = s.mem := rfl
@[simp] theorem modOp_co (id : Nat) (f : Op → Op) (s : State) : (modOp id f s).co = s.co := rfl
@[simp] theorem modOp_tiles (id : Nat) (f : Op → Op) (s : State) : (modOp id f s).tiles = s.tiles := rfl
@[simp] theorem modOp_fe (id : Nat) (f : Op → Op) (s : State) : (modOp id f s).fe = s.fe := rfl
@[simp] theorem modOp_ft (id : Nat) (f : Op → Op) (s : State) : (modOp id f s).ft = s.ft := rfl
@[simp] theorem modOp_link (id : Nat) (f : Op → Op) (s : State) : (modOp id f s).link = s.link := rfl
@[simp] theorem modOp_fab (id : Nat) (f : Op → Op) (s : State) : (modOp id f s).fab = s.fab := rfl
@[simp] theorem modOp_ras (id : Nat) (f : Op → Op) (s : State) : (modOp id f s).ras = s.ras := rfl
@[simp] theorem modOp_pwr (id : Nat) (f : Op → Op) (s : State) : (modOp id f s).pwr = s.pwr := rfl

@[simp] theorem delOp_time (id : Nat) (s : State) : (delOp id s).time = s.time := rfl
@[simp] theorem delOp_tick (id : Nat) (s : State) : (delOp id s).tick = s.tick := rfl
@[simp] theorem delOp_agenda (id : Nat) (s : State) : (delOp id s).agenda = s.agenda := rfl
@[simp] theorem delOp_inbox (id : Nat) (s : State) : (delOp id s).inbox = s.inbox := rfl
@[simp] theorem delOp_firing (id : Nat) (s : State) : (delOp id s).firing = s.firing := rfl
@[simp] theorem delOp_nextId (id : Nat) (s : State) : (delOp id s).nextId = s.nextId := rfl
@[simp] theorem delOp_insts (id : Nat) (s : State) : (delOp id s).insts = s.insts := rfl
@[simp] theorem delOp_flights (id : Nat) (s : State) : (delOp id s).flights = s.flights := rfl
@[simp] theorem delOp_xfers (id : Nat) (s : State) : (delOp id s).xfers = s.xfers := rfl
@[simp] theorem delOp_mem (id : Nat) (s : State) : (delOp id s).mem = s.mem := rfl
@[simp] theorem delOp_co (id : Nat) (s : State) : (delOp id s).co = s.co := rfl
@[simp] theorem delOp_tiles (id : Nat) (s : State) : (delOp id s).tiles = s.tiles := rfl
@[simp] theorem delOp_fe (id : Nat) (s : State) : (delOp id s).fe = s.fe := rfl
@[simp] theorem delOp_ft (id : Nat) (s : State) : (delOp id s).ft = s.ft := rfl
@[simp] theorem delOp_link (id : Nat) (s : State) : (delOp id s).link = s.link := rfl
@[simp] theorem delOp_fab (id : Nat) (s : State) : (delOp id s).fab = s.fab := rfl
@[simp] theorem delOp_ras (id : Nat) (s : State) : (delOp id s).ras = s.ras := rfl
@[simp] theorem delOp_pwr (id : Nat) (s : State) : (delOp id s).pwr = s.pwr := rfl

@[simp] theorem modX_time (id : Nat) (f : Xfer → Xfer) (s : State) : (modX id f s).time = s.time := rfl
@[simp] theorem modX_tick (id : Nat) (f : Xfer → Xfer) (s : State) : (modX id f s).tick = s.tick := rfl
@[simp] theorem modX_agenda (id : Nat) (f : Xfer → Xfer) (s : State) : (modX id f s).agenda = s.agenda := rfl
@[simp] theorem modX_inbox (id : Nat) (f : Xfer → Xfer) (s : State) : (modX id f s).inbox = s.inbox := rfl
@[simp] theorem modX_firing (id : Nat) (f : Xfer → Xfer) (s : State) : (modX id f s).firing = s.firing := rfl
@[simp] theorem modX_nextId (id : Nat) (f : Xfer → Xfer) (s : State) : (modX id f s).nextId = s.nextId := rfl
@[simp] theorem modX_insts (id : Nat) (f : Xfer → Xfer) (s : State) : (modX id f s).insts = s.insts := rfl
@[simp] theorem modX_flights (id : Nat) (f : Xfer → Xfer) (s : State) : (modX id f s).flights = s.flights := rfl
@[simp] theorem modX_ops (id : Nat) (f : Xfer → Xfer) (s : State) : (modX id f s).ops = s.ops := rfl
@[simp] theorem modX_mem (id : Nat) (f : Xfer → Xfer) (s : State) : (modX id f s).mem = s.mem := rfl
@[simp] theorem modX_co (id : Nat) (f : Xfer → Xfer) (s : State) : (modX id f s).co = s.co := rfl
@[simp] theorem modX_tiles (id : Nat) (f : Xfer → Xfer) (s : State) : (modX id f s).tiles = s.tiles := rfl
@[simp] theorem modX_fe (id : Nat) (f : Xfer → Xfer) (s : State) : (modX id f s).fe = s.fe := rfl
@[simp] theorem modX_ft (id : Nat) (f : Xfer → Xfer) (s : State) : (modX id f s).ft = s.ft := rfl
@[simp] theorem modX_link (id : Nat) (f : Xfer → Xfer) (s : State) : (modX id f s).link = s.link := rfl
@[simp] theorem modX_fab (id : Nat) (f : Xfer → Xfer) (s : State) : (modX id f s).fab = s.fab := rfl
@[simp] theorem modX_ras (id : Nat) (f : Xfer → Xfer) (s : State) : (modX id f s).ras = s.ras := rfl
@[simp] theorem modX_pwr (id : Nat) (f : Xfer → Xfer) (s : State) : (modX id f s).pwr = s.pwr := rfl

@[simp] theorem delX_time (id : Nat) (s : State) : (delX id s).time = s.time := rfl
@[simp] theorem delX_tick (id : Nat) (s : State) : (delX id s).tick = s.tick := rfl
@[simp] theorem delX_agenda (id : Nat) (s : State) : (delX id s).agenda = s.agenda := rfl
@[simp] theorem delX_inbox (id : Nat) (s : State) : (delX id s).inbox = s.inbox := rfl
@[simp] theorem delX_firing (id : Nat) (s : State) : (delX id s).firing = s.firing := rfl
@[simp] theorem delX_nextId (id : Nat) (s : State) : (delX id s).nextId = s.nextId := rfl
@[simp] theorem delX_insts (id : Nat) (s : State) : (delX id s).insts = s.insts := rfl
@[simp] theorem delX_flights (id : Nat) (s : State) : (delX id s).flights = s.flights := rfl
@[simp] theorem delX_ops (id : Nat) (s : State) : (delX id s).ops = s.ops := rfl
@[simp] theorem delX_mem (id : Nat) (s : State) : (delX id s).mem = s.mem := rfl
@[simp] theorem delX_co (id : Nat) (s : State) : (delX id s).co = s.co := rfl
@[simp] theorem delX_tiles (id : Nat) (s : State) : (delX id s).tiles = s.tiles := rfl
@[simp] theorem delX_fe (id : Nat) (s : State) : (delX id s).fe = s.fe := rfl
@[simp] theorem delX_ft (id : Nat) (s : State) : (delX id s).ft = s.ft := rfl
@[simp] theorem delX_link (id : Nat) (s : State) : (delX id s).link = s.link := rfl
@[simp] theorem delX_fab (id : Nat) (s : State) : (delX id s).fab = s.fab := rfl
@[simp] theorem delX_ras (id : Nat) (s : State) : (delX id s).ras = s.ras := rfl
@[simp] theorem delX_pwr (id : Nat) (s : State) : (delX id s).pwr = s.pwr := rfl

@[simp] theorem bumpNode_time (i : Nat) (n : SweepNode) (a b : Nat) (s : State) : (bumpNode i n a b s).time = s.time := rfl
@[simp] theorem bumpNode_tick (i : Nat) (n : SweepNode) (a b : Nat) (s : State) : (bumpNode i n a b s).tick = s.tick := rfl
@[simp] theorem bumpNode_agenda (i : Nat) (n : SweepNode) (a b : Nat) (s : State) : (bumpNode i n a b s).agenda = s.agenda := rfl
@[simp] theorem bumpNode_inbox (i : Nat) (n : SweepNode) (a b : Nat) (s : State) : (bumpNode i n a b s).inbox = s.inbox := rfl
@[simp] theorem bumpNode_firing (i : Nat) (n : SweepNode) (a b : Nat) (s : State) : (bumpNode i n a b s).firing = s.firing := rfl
@[simp] theorem bumpNode_nextId (i : Nat) (n : SweepNode) (a b : Nat) (s : State) : (bumpNode i n a b s).nextId = s.nextId := rfl
@[simp] theorem bumpNode_flights (i : Nat) (n : SweepNode) (a b : Nat) (s : State) : (bumpNode i n a b s).flights = s.flights := rfl
@[simp] theorem bumpNode_ops (i : Nat) (n : SweepNode) (a b : Nat) (s : State) : (bumpNode i n a b s).ops = s.ops := rfl
@[simp] theorem bumpNode_xfers (i : Nat) (n : SweepNode) (a b : Nat) (s : State) : (bumpNode i n a b s).xfers = s.xfers := rfl
@[simp] theorem bumpNode_mem (i : Nat) (n : SweepNode) (a b : Nat) (s : State) : (bumpNode i n a b s).mem = s.mem := rfl
@[simp] theorem bumpNode_co (i : Nat) (n : SweepNode) (a b : Nat) (s : State) : (bumpNode i n a b s).co = s.co := rfl
@[simp] theorem bumpNode_tiles (i : Nat) (n : SweepNode) (a b : Nat) (s : State) : (bumpNode i n a b s).tiles = s.tiles := rfl
@[simp] theorem bumpNode_fe (i : Nat) (n : SweepNode) (a b : Nat) (s : State) : (bumpNode i n a b s).fe = s.fe := rfl
@[simp] theorem bumpNode_ft (i : Nat) (n : SweepNode) (a b : Nat) (s : State) : (bumpNode i n a b s).ft = s.ft := rfl
@[simp] theorem bumpNode_link (i : Nat) (n : SweepNode) (a b : Nat) (s : State) : (bumpNode i n a b s).link = s.link := rfl
@[simp] theorem bumpNode_fab (i : Nat) (n : SweepNode) (a b : Nat) (s : State) : (bumpNode i n a b s).fab = s.fab := rfl
@[simp] theorem bumpNode_ras (i : Nat) (n : SweepNode) (a b : Nat) (s : State) : (bumpNode i n a b s).ras = s.ras := rfl
@[simp] theorem bumpNode_pwr (i : Nat) (n : SweepNode) (a b : Nat) (s : State) : (bumpNode i n a b s).pwr = s.pwr := rfl

@[simp] theorem sendTok_time (i : Nat) (src : Src) (n : SweepNode) (p : Place) (l : List Target) (k : Tok) (s : State) : (sendTok i src n p l k s).time = s.time := rfl
@[simp] theorem sendTok_tick (i : Nat) (src : Src) (n : SweepNode) (p : Place) (l : List Target) (k : Tok) (s : State) : (sendTok i src n p l k s).tick = s.tick := rfl
@[simp] theorem sendTok_agenda (i : Nat) (src : Src) (n : SweepNode) (p : Place) (l : List Target) (k : Tok) (s : State) : (sendTok i src n p l k s).agenda = s.agenda := rfl
@[simp] theorem sendTok_inbox (i : Nat) (src : Src) (n : SweepNode) (p : Place) (l : List Target) (k : Tok) (s : State) : (sendTok i src n p l k s).inbox = s.inbox := rfl
@[simp] theorem sendTok_firing (i : Nat) (src : Src) (n : SweepNode) (p : Place) (l : List Target) (k : Tok) (s : State) : (sendTok i src n p l k s).firing = s.firing := rfl
@[simp] theorem sendTok_nextId (i : Nat) (src : Src) (n : SweepNode) (p : Place) (l : List Target) (k : Tok) (s : State) : (sendTok i src n p l k s).nextId = s.nextId := rfl
@[simp] theorem sendTok_ops (i : Nat) (src : Src) (n : SweepNode) (p : Place) (l : List Target) (k : Tok) (s : State) : (sendTok i src n p l k s).ops = s.ops := rfl
@[simp] theorem sendTok_xfers (i : Nat) (src : Src) (n : SweepNode) (p : Place) (l : List Target) (k : Tok) (s : State) : (sendTok i src n p l k s).xfers = s.xfers := rfl
@[simp] theorem sendTok_mem (i : Nat) (src : Src) (n : SweepNode) (p : Place) (l : List Target) (k : Tok) (s : State) : (sendTok i src n p l k s).mem = s.mem := rfl
@[simp] theorem sendTok_co (i : Nat) (src : Src) (n : SweepNode) (p : Place) (l : List Target) (k : Tok) (s : State) : (sendTok i src n p l k s).co = s.co := rfl
@[simp] theorem sendTok_tiles (i : Nat) (src : Src) (n : SweepNode) (p : Place) (l : List Target) (k : Tok) (s : State) : (sendTok i src n p l k s).tiles = s.tiles := rfl
@[simp] theorem sendTok_fe (i : Nat) (src : Src) (n : SweepNode) (p : Place) (l : List Target) (k : Tok) (s : State) : (sendTok i src n p l k s).fe = s.fe := rfl
@[simp] theorem sendTok_ft (i : Nat) (src : Src) (n : SweepNode) (p : Place) (l : List Target) (k : Tok) (s : State) : (sendTok i src n p l k s).ft = s.ft := rfl
@[simp] theorem sendTok_link (i : Nat) (src : Src) (n : SweepNode) (p : Place) (l : List Target) (k : Tok) (s : State) : (sendTok i src n p l k s).link = s.link := rfl
@[simp] theorem sendTok_fab (i : Nat) (src : Src) (n : SweepNode) (p : Place) (l : List Target) (k : Tok) (s : State) : (sendTok i src n p l k s).fab = s.fab := rfl
@[simp] theorem sendTok_ras (i : Nat) (src : Src) (n : SweepNode) (p : Place) (l : List Target) (k : Tok) (s : State) : (sendTok i src n p l k s).ras = s.ras := rfl
@[simp] theorem sendTok_pwr (i : Nat) (src : Src) (n : SweepNode) (p : Place) (l : List Target) (k : Tok) (s : State) : (sendTok i src n p l k s).pwr = s.pwr := rfl

@[simp] theorem sendFrom_time (i : Nat) (p : Place) (l : List Target) (k : Tok) (s : State) : (sendFrom i p l k s).time = s.time := rfl
@[simp] theorem sendFrom_tick (i : Nat) (p : Place) (l : List Target) (k : Tok) (s : State) : (sendFrom i p l k s).tick = s.tick := rfl
@[simp] theorem sendFrom_agenda (i : Nat) (p : Place) (l : List Target) (k : Tok) (s : State) : (sendFrom i p l k s).agenda = s.agenda := rfl
@[simp] theorem sendFrom_inbox (i : Nat) (p : Place) (l : List Target) (k : Tok) (s : State) : (sendFrom i p l k s).inbox = s.inbox := rfl
@[simp] theorem sendFrom_firing (i : Nat) (p : Place) (l : List Target) (k : Tok) (s : State) : (sendFrom i p l k s).firing = s.firing := rfl
@[simp] theorem sendFrom_nextId (i : Nat) (p : Place) (l : List Target) (k : Tok) (s : State) : (sendFrom i p l k s).nextId = s.nextId := rfl
@[simp] theorem sendFrom_ops (i : Nat) (p : Place) (l : List Target) (k : Tok) (s : State) : (sendFrom i p l k s).ops = s.ops := rfl
@[simp] theorem sendFrom_xfers (i : Nat) (p : Place) (l : List Target) (k : Tok) (s : State) : (sendFrom i p l k s).xfers = s.xfers := rfl
@[simp] theorem sendFrom_mem (i : Nat) (p : Place) (l : List Target) (k : Tok) (s : State) : (sendFrom i p l k s).mem = s.mem := rfl
@[simp] theorem sendFrom_co (i : Nat) (p : Place) (l : List Target) (k : Tok) (s : State) : (sendFrom i p l k s).co = s.co := rfl
@[simp] theorem sendFrom_tiles (i : Nat) (p : Place) (l : List Target) (k : Tok) (s : State) : (sendFrom i p l k s).tiles = s.tiles := rfl
@[simp] theorem sendFrom_fe (i : Nat) (p : Place) (l : List Target) (k : Tok) (s : State) : (sendFrom i p l k s).fe = s.fe := rfl
@[simp] theorem sendFrom_ft (i : Nat) (p : Place) (l : List Target) (k : Tok) (s : State) : (sendFrom i p l k s).ft = s.ft := rfl
@[simp] theorem sendFrom_link (i : Nat) (p : Place) (l : List Target) (k : Tok) (s : State) : (sendFrom i p l k s).link = s.link := rfl
@[simp] theorem sendFrom_fab (i : Nat) (p : Place) (l : List Target) (k : Tok) (s : State) : (sendFrom i p l k s).fab = s.fab := rfl
@[simp] theorem sendFrom_ras (i : Nat) (p : Place) (l : List Target) (k : Tok) (s : State) : (sendFrom i p l k s).ras = s.ras := rfl
@[simp] theorem sendFrom_pwr (i : Nat) (p : Place) (l : List Target) (k : Tok) (s : State) : (sendFrom i p l k s).pwr = s.pwr := rfl

@[simp] theorem raise_time (i : Nat) (fl : Flags) (s : State) : (raise i fl s).time = s.time := rfl
@[simp] theorem raise_tick (i : Nat) (fl : Flags) (s : State) : (raise i fl s).tick = s.tick := rfl
@[simp] theorem raise_agenda (i : Nat) (fl : Flags) (s : State) : (raise i fl s).agenda = s.agenda := rfl
@[simp] theorem raise_inbox (i : Nat) (fl : Flags) (s : State) : (raise i fl s).inbox = s.inbox := rfl
@[simp] theorem raise_firing (i : Nat) (fl : Flags) (s : State) : (raise i fl s).firing = s.firing := rfl
@[simp] theorem raise_nextId (i : Nat) (fl : Flags) (s : State) : (raise i fl s).nextId = s.nextId := rfl
@[simp] theorem raise_flights (i : Nat) (fl : Flags) (s : State) : (raise i fl s).flights = s.flights := rfl
@[simp] theorem raise_ops (i : Nat) (fl : Flags) (s : State) : (raise i fl s).ops = s.ops := rfl
@[simp] theorem raise_xfers (i : Nat) (fl : Flags) (s : State) : (raise i fl s).xfers = s.xfers := rfl
@[simp] theorem raise_mem (i : Nat) (fl : Flags) (s : State) : (raise i fl s).mem = s.mem := rfl
@[simp] theorem raise_co (i : Nat) (fl : Flags) (s : State) : (raise i fl s).co = s.co := rfl
@[simp] theorem raise_tiles (i : Nat) (fl : Flags) (s : State) : (raise i fl s).tiles = s.tiles := rfl
@[simp] theorem raise_fe (i : Nat) (fl : Flags) (s : State) : (raise i fl s).fe = s.fe := rfl
@[simp] theorem raise_ft (i : Nat) (fl : Flags) (s : State) : (raise i fl s).ft = s.ft := rfl
@[simp] theorem raise_link (i : Nat) (fl : Flags) (s : State) : (raise i fl s).link = s.link := rfl
@[simp] theorem raise_fab (i : Nat) (fl : Flags) (s : State) : (raise i fl s).fab = s.fab := rfl
@[simp] theorem raise_ras (i : Nat) (fl : Flags) (s : State) : (raise i fl s).ras = s.ras := rfl
@[simp] theorem raise_pwr (i : Nat) (fl : Flags) (s : State) : (raise i fl s).pwr = s.pwr := rfl

@[simp] theorem recordError_time (i : Nat) (c : Byte) (g : Tag) (p : Place) (s : State) : (recordError i c g p s).time = s.time := rfl
@[simp] theorem recordError_tick (i : Nat) (c : Byte) (g : Tag) (p : Place) (s : State) : (recordError i c g p s).tick = s.tick := rfl
@[simp] theorem recordError_agenda (i : Nat) (c : Byte) (g : Tag) (p : Place) (s : State) : (recordError i c g p s).agenda = s.agenda := rfl
@[simp] theorem recordError_inbox (i : Nat) (c : Byte) (g : Tag) (p : Place) (s : State) : (recordError i c g p s).inbox = s.inbox := rfl
@[simp] theorem recordError_firing (i : Nat) (c : Byte) (g : Tag) (p : Place) (s : State) : (recordError i c g p s).firing = s.firing := rfl
@[simp] theorem recordError_nextId (i : Nat) (c : Byte) (g : Tag) (p : Place) (s : State) : (recordError i c g p s).nextId = s.nextId := rfl
@[simp] theorem recordError_flights (i : Nat) (c : Byte) (g : Tag) (p : Place) (s : State) : (recordError i c g p s).flights = s.flights := rfl
@[simp] theorem recordError_ops (i : Nat) (c : Byte) (g : Tag) (p : Place) (s : State) : (recordError i c g p s).ops = s.ops := rfl
@[simp] theorem recordError_xfers (i : Nat) (c : Byte) (g : Tag) (p : Place) (s : State) : (recordError i c g p s).xfers = s.xfers := rfl
@[simp] theorem recordError_mem (i : Nat) (c : Byte) (g : Tag) (p : Place) (s : State) : (recordError i c g p s).mem = s.mem := rfl
@[simp] theorem recordError_co (i : Nat) (c : Byte) (g : Tag) (p : Place) (s : State) : (recordError i c g p s).co = s.co := rfl
@[simp] theorem recordError_tiles (i : Nat) (c : Byte) (g : Tag) (p : Place) (s : State) : (recordError i c g p s).tiles = s.tiles := rfl
@[simp] theorem recordError_fe (i : Nat) (c : Byte) (g : Tag) (p : Place) (s : State) : (recordError i c g p s).fe = s.fe := rfl
@[simp] theorem recordError_ft (i : Nat) (c : Byte) (g : Tag) (p : Place) (s : State) : (recordError i c g p s).ft = s.ft := rfl
@[simp] theorem recordError_link (i : Nat) (c : Byte) (g : Tag) (p : Place) (s : State) : (recordError i c g p s).link = s.link := rfl
@[simp] theorem recordError_fab (i : Nat) (c : Byte) (g : Tag) (p : Place) (s : State) : (recordError i c g p s).fab = s.fab := rfl
@[simp] theorem recordError_ras (i : Nat) (c : Byte) (g : Tag) (p : Place) (s : State) : (recordError i c g p s).ras = s.ras := rfl
@[simp] theorem recordError_pwr (i : Nat) (c : Byte) (g : Tag) (p : Place) (s : State) : (recordError i c g p s).pwr = s.pwr := rfl

@[simp] theorem freeEnded_time (i : Nat) (s : State) : (freeEnded i s).time = s.time := rfl
@[simp] theorem freeEnded_tick (i : Nat) (s : State) : (freeEnded i s).tick = s.tick := rfl
@[simp] theorem freeEnded_agenda (i : Nat) (s : State) : (freeEnded i s).agenda = s.agenda := rfl
@[simp] theorem freeEnded_inbox (i : Nat) (s : State) : (freeEnded i s).inbox = s.inbox := rfl
@[simp] theorem freeEnded_firing (i : Nat) (s : State) : (freeEnded i s).firing = s.firing := rfl
@[simp] theorem freeEnded_nextId (i : Nat) (s : State) : (freeEnded i s).nextId = s.nextId := rfl
@[simp] theorem freeEnded_flights (i : Nat) (s : State) : (freeEnded i s).flights = s.flights := rfl
@[simp] theorem freeEnded_ops (i : Nat) (s : State) : (freeEnded i s).ops = s.ops := rfl
@[simp] theorem freeEnded_xfers (i : Nat) (s : State) : (freeEnded i s).xfers = s.xfers := rfl
@[simp] theorem freeEnded_mem (i : Nat) (s : State) : (freeEnded i s).mem = s.mem := rfl
@[simp] theorem freeEnded_co (i : Nat) (s : State) : (freeEnded i s).co = s.co := rfl
@[simp] theorem freeEnded_tiles (i : Nat) (s : State) : (freeEnded i s).tiles = s.tiles := rfl
@[simp] theorem freeEnded_fe (i : Nat) (s : State) : (freeEnded i s).fe = s.fe := rfl
@[simp] theorem freeEnded_ft (i : Nat) (s : State) : (freeEnded i s).ft = s.ft := rfl
@[simp] theorem freeEnded_link (i : Nat) (s : State) : (freeEnded i s).link = s.link := rfl
@[simp] theorem freeEnded_fab (i : Nat) (s : State) : (freeEnded i s).fab = s.fab := rfl
@[simp] theorem freeEnded_ras (i : Nat) (s : State) : (freeEnded i s).ras = s.ras := rfl
@[simp] theorem freeEnded_pwr (i : Nat) (s : State) : (freeEnded i s).pwr = s.pwr := rfl

@[simp] theorem endOfStream_time (i : Nat) (t : BitVec 16) (s : State) : (endOfStream i t s).time = s.time := rfl
@[simp] theorem endOfStream_tick (i : Nat) (t : BitVec 16) (s : State) : (endOfStream i t s).tick = s.tick := rfl
@[simp] theorem endOfStream_agenda (i : Nat) (t : BitVec 16) (s : State) : (endOfStream i t s).agenda = s.agenda := rfl
@[simp] theorem endOfStream_inbox (i : Nat) (t : BitVec 16) (s : State) : (endOfStream i t s).inbox = s.inbox := rfl
@[simp] theorem endOfStream_firing (i : Nat) (t : BitVec 16) (s : State) : (endOfStream i t s).firing = s.firing := rfl
@[simp] theorem endOfStream_nextId (i : Nat) (t : BitVec 16) (s : State) : (endOfStream i t s).nextId = s.nextId := rfl
@[simp] theorem endOfStream_flights (i : Nat) (t : BitVec 16) (s : State) : (endOfStream i t s).flights = s.flights := rfl
@[simp] theorem endOfStream_ops (i : Nat) (t : BitVec 16) (s : State) : (endOfStream i t s).ops = s.ops := rfl
@[simp] theorem endOfStream_xfers (i : Nat) (t : BitVec 16) (s : State) : (endOfStream i t s).xfers = s.xfers := rfl
@[simp] theorem endOfStream_mem (i : Nat) (t : BitVec 16) (s : State) : (endOfStream i t s).mem = s.mem := rfl
@[simp] theorem endOfStream_co (i : Nat) (t : BitVec 16) (s : State) : (endOfStream i t s).co = s.co := rfl
@[simp] theorem endOfStream_tiles (i : Nat) (t : BitVec 16) (s : State) : (endOfStream i t s).tiles = s.tiles := rfl
@[simp] theorem endOfStream_fe (i : Nat) (t : BitVec 16) (s : State) : (endOfStream i t s).fe = s.fe := rfl
@[simp] theorem endOfStream_ft (i : Nat) (t : BitVec 16) (s : State) : (endOfStream i t s).ft = s.ft := rfl
@[simp] theorem endOfStream_link (i : Nat) (t : BitVec 16) (s : State) : (endOfStream i t s).link = s.link := rfl
@[simp] theorem endOfStream_fab (i : Nat) (t : BitVec 16) (s : State) : (endOfStream i t s).fab = s.fab := rfl
@[simp] theorem endOfStream_ras (i : Nat) (t : BitVec 16) (s : State) : (endOfStream i t s).ras = s.ras := rfl
@[simp] theorem endOfStream_pwr (i : Nat) (t : BitVec 16) (s : State) : (endOfStream i t s).pwr = s.pwr := rfl

@[simp] theorem endException_time (h : Nat) (fid : W32) (s : State) : (endException h fid s).time = s.time := rfl
@[simp] theorem endException_tick (h : Nat) (fid : W32) (s : State) : (endException h fid s).tick = s.tick := rfl
@[simp] theorem endException_agenda (h : Nat) (fid : W32) (s : State) : (endException h fid s).agenda = s.agenda := rfl
@[simp] theorem endException_inbox (h : Nat) (fid : W32) (s : State) : (endException h fid s).inbox = s.inbox := rfl
@[simp] theorem endException_firing (h : Nat) (fid : W32) (s : State) : (endException h fid s).firing = s.firing := rfl
@[simp] theorem endException_nextId (h : Nat) (fid : W32) (s : State) : (endException h fid s).nextId = s.nextId := rfl
@[simp] theorem endException_insts (h : Nat) (fid : W32) (s : State) : (endException h fid s).insts = s.insts := rfl
@[simp] theorem endException_flights (h : Nat) (fid : W32) (s : State) : (endException h fid s).flights = s.flights := rfl
@[simp] theorem endException_ops (h : Nat) (fid : W32) (s : State) : (endException h fid s).ops = s.ops := rfl
@[simp] theorem endException_xfers (h : Nat) (fid : W32) (s : State) : (endException h fid s).xfers = s.xfers := rfl
@[simp] theorem endException_mem (h : Nat) (fid : W32) (s : State) : (endException h fid s).mem = s.mem := rfl
@[simp] theorem endException_co (h : Nat) (fid : W32) (s : State) : (endException h fid s).co = s.co := rfl
@[simp] theorem endException_tiles (h : Nat) (fid : W32) (s : State) : (endException h fid s).tiles = s.tiles := rfl
@[simp] theorem endException_ft (h : Nat) (fid : W32) (s : State) : (endException h fid s).ft = s.ft := rfl
@[simp] theorem endException_link (h : Nat) (fid : W32) (s : State) : (endException h fid s).link = s.link := rfl
@[simp] theorem endException_fab (h : Nat) (fid : W32) (s : State) : (endException h fid s).fab = s.fab := rfl
@[simp] theorem endException_ras (h : Nat) (fid : W32) (s : State) : (endException h fid s).ras = s.ras := rfl
@[simp] theorem endException_pwr (h : Nat) (fid : W32) (s : State) : (endException h fid s).pwr = s.pwr := rfl

@[simp] theorem accPut_time (cl h : Nat) (a : AccD) (s : State) : (accPut cl h a s).time = s.time := rfl
@[simp] theorem accPut_tick (cl h : Nat) (a : AccD) (s : State) : (accPut cl h a s).tick = s.tick := rfl
@[simp] theorem accPut_agenda (cl h : Nat) (a : AccD) (s : State) : (accPut cl h a s).agenda = s.agenda := rfl
@[simp] theorem accPut_inbox (cl h : Nat) (a : AccD) (s : State) : (accPut cl h a s).inbox = s.inbox := rfl
@[simp] theorem accPut_firing (cl h : Nat) (a : AccD) (s : State) : (accPut cl h a s).firing = s.firing := rfl
@[simp] theorem accPut_nextId (cl h : Nat) (a : AccD) (s : State) : (accPut cl h a s).nextId = s.nextId := rfl
@[simp] theorem accPut_insts (cl h : Nat) (a : AccD) (s : State) : (accPut cl h a s).insts = s.insts := rfl
@[simp] theorem accPut_flights (cl h : Nat) (a : AccD) (s : State) : (accPut cl h a s).flights = s.flights := rfl
@[simp] theorem accPut_ops (cl h : Nat) (a : AccD) (s : State) : (accPut cl h a s).ops = s.ops := rfl
@[simp] theorem accPut_xfers (cl h : Nat) (a : AccD) (s : State) : (accPut cl h a s).xfers = s.xfers := rfl
@[simp] theorem accPut_mem (cl h : Nat) (a : AccD) (s : State) : (accPut cl h a s).mem = s.mem := rfl
@[simp] theorem accPut_co (cl h : Nat) (a : AccD) (s : State) : (accPut cl h a s).co = s.co := rfl
@[simp] theorem accPut_fe (cl h : Nat) (a : AccD) (s : State) : (accPut cl h a s).fe = s.fe := rfl
@[simp] theorem accPut_ft (cl h : Nat) (a : AccD) (s : State) : (accPut cl h a s).ft = s.ft := rfl
@[simp] theorem accPut_link (cl h : Nat) (a : AccD) (s : State) : (accPut cl h a s).link = s.link := rfl
@[simp] theorem accPut_fab (cl h : Nat) (a : AccD) (s : State) : (accPut cl h a s).fab = s.fab := rfl
@[simp] theorem accPut_ras (cl h : Nat) (a : AccD) (s : State) : (accPut cl h a s).ras = s.ras := rfl
@[simp] theorem accPut_pwr (cl h : Nat) (a : AccD) (s : State) : (accPut cl h a s).pwr = s.pwr := rfl

@[simp] theorem setTileBytes_time (cl off : Nat) (bs : List Byte) (s : State) : (setTileBytes cl off bs s).time = s.time := rfl
@[simp] theorem setTileBytes_tick (cl off : Nat) (bs : List Byte) (s : State) : (setTileBytes cl off bs s).tick = s.tick := rfl
@[simp] theorem setTileBytes_agenda (cl off : Nat) (bs : List Byte) (s : State) : (setTileBytes cl off bs s).agenda = s.agenda := rfl
@[simp] theorem setTileBytes_inbox (cl off : Nat) (bs : List Byte) (s : State) : (setTileBytes cl off bs s).inbox = s.inbox := rfl
@[simp] theorem setTileBytes_firing (cl off : Nat) (bs : List Byte) (s : State) : (setTileBytes cl off bs s).firing = s.firing := rfl
@[simp] theorem setTileBytes_nextId (cl off : Nat) (bs : List Byte) (s : State) : (setTileBytes cl off bs s).nextId = s.nextId := rfl
@[simp] theorem setTileBytes_insts (cl off : Nat) (bs : List Byte) (s : State) : (setTileBytes cl off bs s).insts = s.insts := rfl
@[simp] theorem setTileBytes_flights (cl off : Nat) (bs : List Byte) (s : State) : (setTileBytes cl off bs s).flights = s.flights := rfl
@[simp] theorem setTileBytes_ops (cl off : Nat) (bs : List Byte) (s : State) : (setTileBytes cl off bs s).ops = s.ops := rfl
@[simp] theorem setTileBytes_xfers (cl off : Nat) (bs : List Byte) (s : State) : (setTileBytes cl off bs s).xfers = s.xfers := rfl
@[simp] theorem setTileBytes_mem (cl off : Nat) (bs : List Byte) (s : State) : (setTileBytes cl off bs s).mem = s.mem := rfl
@[simp] theorem setTileBytes_co (cl off : Nat) (bs : List Byte) (s : State) : (setTileBytes cl off bs s).co = s.co := rfl
@[simp] theorem setTileBytes_fe (cl off : Nat) (bs : List Byte) (s : State) : (setTileBytes cl off bs s).fe = s.fe := rfl
@[simp] theorem setTileBytes_ft (cl off : Nat) (bs : List Byte) (s : State) : (setTileBytes cl off bs s).ft = s.ft := rfl
@[simp] theorem setTileBytes_link (cl off : Nat) (bs : List Byte) (s : State) : (setTileBytes cl off bs s).link = s.link := rfl
@[simp] theorem setTileBytes_fab (cl off : Nat) (bs : List Byte) (s : State) : (setTileBytes cl off bs s).fab = s.fab := rfl
@[simp] theorem setTileBytes_ras (cl off : Nat) (bs : List Byte) (s : State) : (setTileBytes cl off bs s).ras = s.ras := rfl
@[simp] theorem setTileBytes_pwr (cl off : Nat) (bs : List Byte) (s : State) : (setTileBytes cl off bs s).pwr = s.pwr := rfl

@[simp] theorem tickOn_agenda (s : State) : (tickOn s).agenda = s.agenda := rfl
@[simp] theorem tickOn_inbox (s : State) : (tickOn s).inbox = s.inbox := rfl
@[simp] theorem tickOn_firing (s : State) : (tickOn s).firing = s.firing := rfl
@[simp] theorem tickOn_nextId (s : State) : (tickOn s).nextId = s.nextId := rfl
@[simp] theorem tickOn_flights (s : State) : (tickOn s).flights = s.flights := rfl
@[simp] theorem tickOn_ops (s : State) : (tickOn s).ops = s.ops := rfl
@[simp] theorem tickOn_xfers (s : State) : (tickOn s).xfers = s.xfers := rfl
@[simp] theorem tickOn_mem (s : State) : (tickOn s).mem = s.mem := rfl
@[simp] theorem tickOn_co (s : State) : (tickOn s).co = s.co := rfl
@[simp] theorem tickOn_tiles (s : State) : (tickOn s).tiles = s.tiles := rfl
@[simp] theorem tickOn_fe (s : State) : (tickOn s).fe = s.fe := rfl
@[simp] theorem tickOn_ft (s : State) : (tickOn s).ft = s.ft := rfl
@[simp] theorem tickOn_link (s : State) : (tickOn s).link = s.link := rfl
@[simp] theorem tickOn_fab (s : State) : (tickOn s).fab = s.fab := rfl
@[simp] theorem tickOn_ras (s : State) : (tickOn s).ras = s.ras := rfl
@[simp] theorem tickOn_pwr (s : State) : (tickOn s).pwr = s.pwr := rfl

@[simp] theorem newOp_time (i : Instr) (ph : Phase) (cl : Nat) (cap : List (Nat × W64)) (s : State) :
    (newOp i ph cl cap s).2.time = s.time := rfl
@[simp] theorem newOp_tick (i : Instr) (ph : Phase) (cl : Nat) (cap : List (Nat × W64)) (s : State) :
    (newOp i ph cl cap s).2.tick = s.tick := rfl
@[simp] theorem newOp_agenda (i : Instr) (ph : Phase) (cl : Nat) (cap : List (Nat × W64)) (s : State) :
    (newOp i ph cl cap s).2.agenda = s.agenda := rfl
@[simp] theorem newOp_inbox (i : Instr) (ph : Phase) (cl : Nat) (cap : List (Nat × W64)) (s : State) :
    (newOp i ph cl cap s).2.inbox = s.inbox := rfl
@[simp] theorem newOp_firing (i : Instr) (ph : Phase) (cl : Nat) (cap : List (Nat × W64)) (s : State) :
    (newOp i ph cl cap s).2.firing = s.firing := rfl
@[simp] theorem newOp_insts (i : Instr) (ph : Phase) (cl : Nat) (cap : List (Nat × W64)) (s : State) :
    (newOp i ph cl cap s).2.insts = s.insts := rfl
@[simp] theorem newOp_flights (i : Instr) (ph : Phase) (cl : Nat) (cap : List (Nat × W64)) (s : State) :
    (newOp i ph cl cap s).2.flights = s.flights := rfl
@[simp] theorem newOp_xfers (i : Instr) (ph : Phase) (cl : Nat) (cap : List (Nat × W64)) (s : State) :
    (newOp i ph cl cap s).2.xfers = s.xfers := rfl
@[simp] theorem newOp_mem (i : Instr) (ph : Phase) (cl : Nat) (cap : List (Nat × W64)) (s : State) :
    (newOp i ph cl cap s).2.mem = s.mem := rfl
@[simp] theorem newOp_co (i : Instr) (ph : Phase) (cl : Nat) (cap : List (Nat × W64)) (s : State) :
    (newOp i ph cl cap s).2.co = s.co := rfl
@[simp] theorem newOp_tiles (i : Instr) (ph : Phase) (cl : Nat) (cap : List (Nat × W64)) (s : State) :
    (newOp i ph cl cap s).2.tiles = s.tiles := rfl
@[simp] theorem newOp_fe (i : Instr) (ph : Phase) (cl : Nat) (cap : List (Nat × W64)) (s : State) :
    (newOp i ph cl cap s).2.fe = s.fe := rfl
@[simp] theorem newOp_ft (i : Instr) (ph : Phase) (cl : Nat) (cap : List (Nat × W64)) (s : State) :
    (newOp i ph cl cap s).2.ft = s.ft := rfl
@[simp] theorem newOp_link (i : Instr) (ph : Phase) (cl : Nat) (cap : List (Nat × W64)) (s : State) :
    (newOp i ph cl cap s).2.link = s.link := rfl
@[simp] theorem newOp_fab (i : Instr) (ph : Phase) (cl : Nat) (cap : List (Nat × W64)) (s : State) :
    (newOp i ph cl cap s).2.fab = s.fab := rfl
@[simp] theorem newOp_ras (i : Instr) (ph : Phase) (cl : Nat) (cap : List (Nat × W64)) (s : State) :
    (newOp i ph cl cap s).2.ras = s.ras := rfl
@[simp] theorem newOp_pwr (i : Instr) (ph : Phase) (cl : Nat) (cap : List (Nat × W64)) (s : State) :
    (newOp i ph cl cap s).2.pwr = s.pwr := rfl
@[simp] theorem newOp_nextId (i : Instr) (ph : Phase) (cl : Nat) (cap : List (Nat × W64)) (s : State) :
    (newOp i ph cl cap s).2.nextId = s.nextId + 1 := rfl
@[simp] theorem newOp_id (i : Instr) (ph : Phase) (cl : Nat) (cap : List (Nat × W64)) (s : State) :
    (newOp i ph cl cap s).1 = s.nextId := rfl

@[simp] theorem emitAt_time (f : Firing) (i : Instr) (g : Tag) (v : W256) (q : Bool) (s : State) : (emitAt f i g v q s).time = s.time := rfl
@[simp] theorem emitAt_tick (f : Firing) (i : Instr) (g : Tag) (v : W256) (q : Bool) (s : State) : (emitAt f i g v q s).tick = s.tick := rfl
@[simp] theorem emitAt_agenda (f : Firing) (i : Instr) (g : Tag) (v : W256) (q : Bool) (s : State) : (emitAt f i g v q s).agenda = s.agenda := rfl
@[simp] theorem emitAt_inbox (f : Firing) (i : Instr) (g : Tag) (v : W256) (q : Bool) (s : State) : (emitAt f i g v q s).inbox = s.inbox := rfl
@[simp] theorem emitAt_firing (f : Firing) (i : Instr) (g : Tag) (v : W256) (q : Bool) (s : State) : (emitAt f i g v q s).firing = s.firing := rfl
@[simp] theorem emitAt_nextId (f : Firing) (i : Instr) (g : Tag) (v : W256) (q : Bool) (s : State) : (emitAt f i g v q s).nextId = s.nextId := rfl
@[simp] theorem emitAt_ops (f : Firing) (i : Instr) (g : Tag) (v : W256) (q : Bool) (s : State) : (emitAt f i g v q s).ops = s.ops := rfl
@[simp] theorem emitAt_xfers (f : Firing) (i : Instr) (g : Tag) (v : W256) (q : Bool) (s : State) : (emitAt f i g v q s).xfers = s.xfers := rfl
@[simp] theorem emitAt_mem (f : Firing) (i : Instr) (g : Tag) (v : W256) (q : Bool) (s : State) : (emitAt f i g v q s).mem = s.mem := rfl
@[simp] theorem emitAt_co (f : Firing) (i : Instr) (g : Tag) (v : W256) (q : Bool) (s : State) : (emitAt f i g v q s).co = s.co := rfl
@[simp] theorem emitAt_tiles (f : Firing) (i : Instr) (g : Tag) (v : W256) (q : Bool) (s : State) : (emitAt f i g v q s).tiles = s.tiles := rfl
@[simp] theorem emitAt_fe (f : Firing) (i : Instr) (g : Tag) (v : W256) (q : Bool) (s : State) : (emitAt f i g v q s).fe = s.fe := rfl
@[simp] theorem emitAt_ft (f : Firing) (i : Instr) (g : Tag) (v : W256) (q : Bool) (s : State) : (emitAt f i g v q s).ft = s.ft := rfl
@[simp] theorem emitAt_link (f : Firing) (i : Instr) (g : Tag) (v : W256) (q : Bool) (s : State) : (emitAt f i g v q s).link = s.link := rfl
@[simp] theorem emitAt_fab (f : Firing) (i : Instr) (g : Tag) (v : W256) (q : Bool) (s : State) : (emitAt f i g v q s).fab = s.fab := rfl
@[simp] theorem emitAt_ras (f : Firing) (i : Instr) (g : Tag) (v : W256) (q : Bool) (s : State) : (emitAt f i g v q s).ras = s.ras := rfl
@[simp] theorem emitAt_pwr (f : Firing) (i : Instr) (g : Tag) (v : W256) (q : Bool) (s : State) : (emitAt f i g v q s).pwr = s.pwr := rfl

@[simp] theorem emitVal_time (f : Firing) (i : Instr) (v : W256) (s : State) : (emitVal f i v s).time = s.time := rfl
@[simp] theorem emitVal_tick (f : Firing) (i : Instr) (v : W256) (s : State) : (emitVal f i v s).tick = s.tick := rfl
@[simp] theorem emitVal_agenda (f : Firing) (i : Instr) (v : W256) (s : State) : (emitVal f i v s).agenda = s.agenda := rfl
@[simp] theorem emitVal_inbox (f : Firing) (i : Instr) (v : W256) (s : State) : (emitVal f i v s).inbox = s.inbox := rfl
@[simp] theorem emitVal_firing (f : Firing) (i : Instr) (v : W256) (s : State) : (emitVal f i v s).firing = s.firing := rfl
@[simp] theorem emitVal_nextId (f : Firing) (i : Instr) (v : W256) (s : State) : (emitVal f i v s).nextId = s.nextId := rfl
@[simp] theorem emitVal_ops (f : Firing) (i : Instr) (v : W256) (s : State) : (emitVal f i v s).ops = s.ops := rfl
@[simp] theorem emitVal_xfers (f : Firing) (i : Instr) (v : W256) (s : State) : (emitVal f i v s).xfers = s.xfers := rfl
@[simp] theorem emitVal_mem (f : Firing) (i : Instr) (v : W256) (s : State) : (emitVal f i v s).mem = s.mem := rfl
@[simp] theorem emitVal_co (f : Firing) (i : Instr) (v : W256) (s : State) : (emitVal f i v s).co = s.co := rfl
@[simp] theorem emitVal_tiles (f : Firing) (i : Instr) (v : W256) (s : State) : (emitVal f i v s).tiles = s.tiles := rfl
@[simp] theorem emitVal_fe (f : Firing) (i : Instr) (v : W256) (s : State) : (emitVal f i v s).fe = s.fe := rfl
@[simp] theorem emitVal_ft (f : Firing) (i : Instr) (v : W256) (s : State) : (emitVal f i v s).ft = s.ft := rfl
@[simp] theorem emitVal_link (f : Firing) (i : Instr) (v : W256) (s : State) : (emitVal f i v s).link = s.link := rfl
@[simp] theorem emitVal_fab (f : Firing) (i : Instr) (v : W256) (s : State) : (emitVal f i v s).fab = s.fab := rfl
@[simp] theorem emitVal_ras (f : Firing) (i : Instr) (v : W256) (s : State) : (emitVal f i v s).ras = s.ras := rfl
@[simp] theorem emitVal_pwr (f : Firing) (i : Instr) (v : W256) (s : State) : (emitVal f i v s).pwr = s.pwr := rfl

@[simp] theorem emit64_time (f : Firing) (i : Instr) (v : W64) (s : State) : (emit64 f i v s).time = s.time := rfl
@[simp] theorem emit64_tick (f : Firing) (i : Instr) (v : W64) (s : State) : (emit64 f i v s).tick = s.tick := rfl
@[simp] theorem emit64_agenda (f : Firing) (i : Instr) (v : W64) (s : State) : (emit64 f i v s).agenda = s.agenda := rfl
@[simp] theorem emit64_inbox (f : Firing) (i : Instr) (v : W64) (s : State) : (emit64 f i v s).inbox = s.inbox := rfl
@[simp] theorem emit64_firing (f : Firing) (i : Instr) (v : W64) (s : State) : (emit64 f i v s).firing = s.firing := rfl
@[simp] theorem emit64_nextId (f : Firing) (i : Instr) (v : W64) (s : State) : (emit64 f i v s).nextId = s.nextId := rfl
@[simp] theorem emit64_ops (f : Firing) (i : Instr) (v : W64) (s : State) : (emit64 f i v s).ops = s.ops := rfl
@[simp] theorem emit64_xfers (f : Firing) (i : Instr) (v : W64) (s : State) : (emit64 f i v s).xfers = s.xfers := rfl
@[simp] theorem emit64_mem (f : Firing) (i : Instr) (v : W64) (s : State) : (emit64 f i v s).mem = s.mem := rfl
@[simp] theorem emit64_co (f : Firing) (i : Instr) (v : W64) (s : State) : (emit64 f i v s).co = s.co := rfl
@[simp] theorem emit64_tiles (f : Firing) (i : Instr) (v : W64) (s : State) : (emit64 f i v s).tiles = s.tiles := rfl
@[simp] theorem emit64_fe (f : Firing) (i : Instr) (v : W64) (s : State) : (emit64 f i v s).fe = s.fe := rfl
@[simp] theorem emit64_ft (f : Firing) (i : Instr) (v : W64) (s : State) : (emit64 f i v s).ft = s.ft := rfl
@[simp] theorem emit64_link (f : Firing) (i : Instr) (v : W64) (s : State) : (emit64 f i v s).link = s.link := rfl
@[simp] theorem emit64_fab (f : Firing) (i : Instr) (v : W64) (s : State) : (emit64 f i v s).fab = s.fab := rfl
@[simp] theorem emit64_ras (f : Firing) (i : Instr) (v : W64) (s : State) : (emit64 f i v s).ras = s.ras := rfl
@[simp] theorem emit64_pwr (f : Firing) (i : Instr) (v : W64) (s : State) : (emit64 f i v s).pwr = s.pwr := rfl

@[simp] theorem emitErr_time (f : Firing) (i : Instr) (c : W64) (s : State) : (emitErr f i c s).time = s.time := rfl
@[simp] theorem emitErr_tick (f : Firing) (i : Instr) (c : W64) (s : State) : (emitErr f i c s).tick = s.tick := rfl
@[simp] theorem emitErr_agenda (f : Firing) (i : Instr) (c : W64) (s : State) : (emitErr f i c s).agenda = s.agenda := rfl
@[simp] theorem emitErr_inbox (f : Firing) (i : Instr) (c : W64) (s : State) : (emitErr f i c s).inbox = s.inbox := rfl
@[simp] theorem emitErr_firing (f : Firing) (i : Instr) (c : W64) (s : State) : (emitErr f i c s).firing = s.firing := rfl
@[simp] theorem emitErr_nextId (f : Firing) (i : Instr) (c : W64) (s : State) : (emitErr f i c s).nextId = s.nextId := rfl
@[simp] theorem emitErr_ops (f : Firing) (i : Instr) (c : W64) (s : State) : (emitErr f i c s).ops = s.ops := rfl
@[simp] theorem emitErr_xfers (f : Firing) (i : Instr) (c : W64) (s : State) : (emitErr f i c s).xfers = s.xfers := rfl
@[simp] theorem emitErr_mem (f : Firing) (i : Instr) (c : W64) (s : State) : (emitErr f i c s).mem = s.mem := rfl
@[simp] theorem emitErr_co (f : Firing) (i : Instr) (c : W64) (s : State) : (emitErr f i c s).co = s.co := rfl
@[simp] theorem emitErr_tiles (f : Firing) (i : Instr) (c : W64) (s : State) : (emitErr f i c s).tiles = s.tiles := rfl
@[simp] theorem emitErr_fe (f : Firing) (i : Instr) (c : W64) (s : State) : (emitErr f i c s).fe = s.fe := rfl
@[simp] theorem emitErr_ft (f : Firing) (i : Instr) (c : W64) (s : State) : (emitErr f i c s).ft = s.ft := rfl
@[simp] theorem emitErr_link (f : Firing) (i : Instr) (c : W64) (s : State) : (emitErr f i c s).link = s.link := rfl
@[simp] theorem emitErr_fab (f : Firing) (i : Instr) (c : W64) (s : State) : (emitErr f i c s).fab = s.fab := rfl
@[simp] theorem emitErr_ras (f : Firing) (i : Instr) (c : W64) (s : State) : (emitErr f i c s).ras = s.ras := rfl
@[simp] theorem emitErr_pwr (f : Firing) (i : Instr) (c : W64) (s : State) : (emitErr f i c s).pwr = s.pwr := rfl

/-! ### The fields they touch -/

@[simp] theorem modInst_insts (id : Nat) (f : Inst → Inst) (s : State) :
    (modInst id f s).insts = s.insts.map fun i => if i.iid = id then f i else i := rfl
@[simp] theorem modOp_ops (id : Nat) (f : Op → Op) (s : State) :
    (modOp id f s).ops = s.ops.map fun o => if o.id = id then f o else o := rfl
@[simp] theorem delOp_ops (id : Nat) (s : State) : (delOp id s).ops = s.ops.filter fun o => decide (o.id ≠ id) := rfl
@[simp] theorem modX_xfers (id : Nat) (f : Xfer → Xfer) (s : State) :
    (modX id f s).xfers = s.xfers.map fun x => if x.id = id then f x else x := rfl
@[simp] theorem delX_xfers (id : Nat) (s : State) : (delX id s).xfers = s.xfers.filter fun x => decide (x.id ≠ id) := rfl
@[simp] theorem modCtx_ctxs (h : Nat) (f : Ctx → Ctx) (s : State) :
    (modCtx h f s).fe.ctxs = s.fe.ctxs.map fun c => if c.handle = h then f c else c := rfl
@[simp] theorem sendFrom_flights (i : Nat) (p : Place) (l : List Target) (k : Tok) (s : State) :
    (sendFrom i p l k s).flights = s.flights ++ l.map fun t =>
      { inst := i, src := .slot p, node := placeNode s i p, sent := s.tick, dst := targetPlace p t, opnd := t.opnd, tok := k } := rfl
@[simp] theorem tickOn_tick (s : State) : (tickOn s).tick = s.tick + 1 := rfl

/-- Two updates of one instance are one. -/
theorem modInst_modInst (id : Nat) (f g : Inst → Inst) (s : State) (hg : ∀ i, (g i).iid = i.iid) :
    modInst id f (modInst id g s) = modInst id (fun i => f (g i)) s := by
  simp only [modInst, List.map_map]
  congr 1
  apply List.map_congr_left
  intro i _
  simp only [Function.comp]
  by_cases h : i.iid = id
  · simp [h, hg]
  · simp [h]

/-- Looking an instance up after an update that keeps its number. -/
theorem findInst_modInst (id k : Nat) (f : Inst → Inst) (s : State) (hf : ∀ i, (f i).iid = i.iid) :
    findInst (modInst id f s) k = (findInst s k).map fun i => if k = id then f i else i := by
  simp only [findInst, modInst]
  induction s.insts with
  | nil => rfl
  | cons i t ih =>
    have h1 : (if i.iid = id then f i else i).iid = i.iid := by split <;> simp [hf]
    simp only [List.map_cons, List.find?_cons, h1]
    by_cases h : i.iid = k
    · subst h
      by_cases h2 : i.iid = id <;> simp [h2]
    · simp only [h, decide_false]
      exact ih

/-- A new operation stands last. -/
theorem newOp_ops (i : Instr) (ph : Phase) (cl : Nat) (cap : List (Nat × W64)) (s : State) :
    ∃ o, (newOp i ph cl cap s).2.ops = s.ops ++ [o] ∧ o.id = s.nextId ∧ o.ins = i ∧ o.ph = ph ∧ o.cl = cl ∧ o.cap = cap ∧
      opFiring o = s.firing := ⟨_, rfl, rfl, rfl, rfl, rfl, rfl, rfl⟩

/-- Taking an exception gives out the context's next identifier, and its entry waits to be written. -/
theorem takeException_spec {s : State} {ctx : Nat} {c : Ctx} (h : findCtx s ctx = some c) (inst : Option Nat) (fdom : W32)
    (w : Why) :
    takeException ctx inst fdom w s =
      (c.nextFid, modCtx ctx (fun x => { x with
        nextFid := nextFidOf x.nextFid, held := x.held ++ [mkEntry s inst fdom c.nextFid w],
        out := if w.stays then x.out ++ [mkEntry s inst fdom c.nextFid w] else x.out }) s) := by
  simp only [takeException, h]
theorem takeException_none {s : State} {ctx : Nat} (h : findCtx s ctx = none) (inst : Option Nat) (fdom : W32) (w : Why) :
    takeException ctx inst fdom w s = (0#32, s) := by
  simp only [takeException, h]

/-- R17: an operand with E replaces a record's own effect. -/
theorem unlessErr_some {s : State} {c : W64} (h : firstErr s.firing = some c) (i : Instr) (body : State → State) :
    unlessErr i body s = .next (emitErr s.firing i c s) := by
  simp only [unlessErr, h]
theorem unlessErr_none {s : State} (h : firstErr s.firing = none) (i : Instr) (body : State → State) :
    unlessErr i body s = .next (body s) := by
  simp only [unlessErr, h]
theorem firstErr_none {f : Firing} (ha : f.a.e = false) (hb : f.b.e = false) (hc : f.c.e = false) : firstErr f = none := by
  simp [firstErr, ha, hb, hc]

end Sys2Proof.Machine
end

