-- ==== Sys2Proof/Tests/Slice0.lean ====
section
/-! SUPPORT. Tests: words of the spec that decode, what each WellFormed check refuses, and for every statement for the provers a
concrete state and operands that meet its hypotheses. -/
-- One test after the other: tests that wait for the kernel at the same time would each hold a thread's memory.
set_option Elab.async false
namespace Sys2Proof.Tests
open Sys2Proof Sys2Proof.Machine Sys2Proof.Claims

/-! ### Small states -/

/-- A token with a 64-bit value. -/
def tTok (v : Nat) : Tok := { Tok.zero with payload := BitVec.ofNat 256 v }
/-- A one-cluster instance with one slot, on cluster 0. -/
def tInst (ws : List W64) : Inst := fetchInst State.reset ws
def tCtx : Ctx := ctxMade 0 [] 0 4 0xFFFF#16
/-- The instance runs in context 0, and a record of slot (0, 0, 0, 0) fires with operands 7, 5 and 3. -/
def tState : State :=
  { State.reset with
    insts := [tInst [0x0E200800_00000001#64, 0x00002000_00000000#64]], nextId := 10,
    firing := ⟨1, Place.zero, Tag.zero, tTok 7, tTok 5, tTok 3⟩, fe := { Front.reset with ctxs := [tCtx] } }
def tOp (i : Instr) (ph : Phase) : Op :=
  { id := 5, inst := 1, place := Place.zero, tag := Tag.zero, ins := i, a := tTok 7, b := tTok 5, c := tTok 3, cl := 0, cap := [], ph := ph,
    arr := 0, chain := 0, seqNo := 0, err := none, got := [], snap := [], els := [], left := [], stale := false, val := 0#256, n := 0, act := none,
    todo := none, replay := 0 }
def tHas (o : Op) : State := { tState with ops := [o] }
/-- A state that a meaning gives. -/
def tNext (i : Instr) (s : State) : State :=
  match exec i s with
  | .next t => t
  | _ => s
/-- A target: operand a of slot 1 in the same PE. -/
def tTgt : Target := ⟨0#6, 0#6, 0#5, 1#3, .a⟩
def tCtl : CtlRec := ⟨false, .none, [tTgt]⟩
def tInt : IntRec := ⟨false, 0#2, .none, [tTgt]⟩

/-! ### Words of the spec (their examples name the file) -/

def tT (pe slot : Nat) (p : Pos) : Target := ⟨0#6, 0#6, BitVec.ofNat 5 pe, BitVec.ofNat 3 slot, p⟩
-- 05: lea; 18: select with an immediate; err.clear
theorem test_word_lea : decode [0x24000A03_FFFFFFF8#64, 0x00021000_00000000#64] =
    .ok (.lea 3#3 ⟨false, 0#2, .imm .b 0xFFFFFFF8#32, [tT 4 1 .a]⟩) := by rfl
theorem test_word_select : decode [0x04000A00_00000000#64, 0x00050000_00000000#64] =
    .ok (.select ⟨false, .imm .b 0#32, [tT 10 0 .a]⟩) := by rfl
theorem test_word_err_clear : decode [0x0D100800_00000000#64, 0x000C8800_00000000#64] =
    .ok (.errClear ⟨false, .none, [tT 25 0 .c]⟩) := by rfl
-- 06: stx
theorem test_word_stx : decode [0x63004844_3FE003FE#64, 0x00008000_00000000#64] =
    .ok (.stx ⟨0#5, true, .ord, .cl, .w, false, ⟨0x3FE#10, 0#10, 0x3FE#10⟩, .none, [tT 1 0 .a]⟩) := by rfl
-- 07: loop.open
theorem test_word_loop_open : decode [0x06100800_00000002#64, 0x00008400_00000000#64] =
    .ok (.loopOpen ⟨false, .none, [tT 1 0 .b]⟩ 2#7) := by rfl
-- 08: vred.add, vbexp; 09: vlane.get with an immediate
theorem test_word_vred : decode [0x54000800_00000000#64, 0x00018000_00000000#64] =
    .ok (.vredAdd ⟨0#5, none, false, .none, [tT 3 0 .a]⟩) := by rfl
theorem test_word_vbexp : decode [0x5A000800_00000008#64, 0x00010000_00000000#64] =
    .ok (.vbexp 8#5 ⟨0#5, none, false, .none, [tT 2 0 .a]⟩) := by rfl
theorem test_word_vlane : decode [0x51068A00_00000003#64, 0x000E0000_00000000#64] =
    .ok (.vlaneGet ⟨13#5, none, false, .imm .b 3#32, [tT 28 0 .a]⟩) := by rfl
-- 10: inv.region, wbk
theorem test_word_inv : decode [0x81000B50_000007FE#64, 0x00000000_00001000#64, 0x00010000_00000000#64] =
    .ok (.invRegion ⟨0#5, false, .ord, .die, .b, false, ⟨0#10, 1#10, 0x3FE#10⟩, .ext .b 0x1000#64, [tT 2 0 .a]⟩) := by rfl
theorem test_word_wbk : decode [0x82000060_3FE003FE#64] =
    .ok (.wbk ⟨0#5, false, .ord, .dev, .b, false, ⟨0x3FE#10, 0#10, 0x3FE#10⟩, .none, []⟩) := by rfl
-- 11: amo, fence, xred
theorem test_word_amo : decode [0x700008A6_3FE00001#64, 0x00008000_00000000#64] =
    .ok (.amo .add ⟨0#5, false, .acq, .dev, .d, false, ⟨0x3FE#10, 0#10, 1#10⟩, .none, [tT 1 0 .a]⟩) := by rfl
theorem test_word_fence : decode [0x75300860_00000402#64, 0x00018000_00000000#64] =
    .ok (.fenceSc ⟨0#5, false, .ord, .dev, .b, false, ⟨0#10, 1#10, 2#10⟩, .none, [tT 3 0 .a]⟩) := by rfl
theorem test_word_xred : decode [0x73000060_3FE00001#64] =
    .ok (.xred ⟨0#5, false, .ord, .dev, .b, false, ⟨0x3FE#10, 0#10, 1#10⟩, .none, []⟩) := by rfl
-- 04: ftset; 14: xcopy
theorem test_word_ftset : decode [0x88078840_3FE003FE#64, 0x00001000_00000000#64] =
    .ok (.ftset ⟨15#5, false, .ord, .cl, .b, false, ⟨0x3FE#10, 0#10, 0x3FE#10⟩, .none, [tT 0 1 .a]⟩) := by rfl
theorem test_word_xcopy : decode [0xB0000840_00000402#64, 0x00030000_00000000#64] =
    .ok (.xcopy ⟨0#5, false, ⟨0#10, 1#10, 2#10⟩, [tT 6 0 .a]⟩) := by rfl
/-- Boundary opcodes of every unassigned range (Table 2.4). -/
theorem test_unassigned : ∀ o ∈ [0x00, 0x0F, 0x27, 0x2F, 0x45, 0x4F, 0x5E, 0x5F, 0x66, 0x6F, 0x76, 0x7F, 0x83, 0x87, 0x8B, 0x8F, 0x9C, 0xAF,
    0xB6, 0xFF], (match decode [BitVec.ofNat 64 (o * 2 ^ 56)] with | .error e => decide (e = .opcode) | _ => false) = true := by decide

/-! ### What WellFormed refuses -/

theorem test_wf_count : wellFormed (.pass ⟨false, .none, List.replicate 5 tTgt⟩) = false := by decide
theorem test_wf_vector : wellFormed (.divS ⟨true, 0#2, .none, [tTgt]⟩) = false := by decide
theorem test_wf_loop : wellFormed (.loopOpen tCtl 0#7) = false ∧ wellFormed (.loopOpen tCtl 65#7) = false ∧ wellFormed (.loopOpen tCtl 64#7) = true := by decide
theorem test_wf_code : wellFormed (.errMake tCtl 0#8) = false ∧ wellFormed (.errMake tCtl 11#8) = false ∧ wellFormed (.sysQry 8#8 [tTgt]) = false := by decide
theorem test_wf_lane : wellFormed (.add ⟨false, 1#2, .none, [tTgt]⟩) = false ∧ wellFormed (.add tInt) = true := by decide
def tFlt : FltRec := ⟨0#5, false, none, false, false, false, false, .none, [tTgt]⟩
theorem test_wf_float : wellFormed (.fcmp .eq { tFlt with rm := some .rtz }) = false ∧ wellFormed (.fcls { tFlt with na := true }) = false ∧
    wellFormed (.fsqrt { tFlt with nb := true }) = false ∧ wellFormed (.fadd { tFlt with nc := true }) = false ∧
    wellFormed (.fcmp .eq { tFlt with sat := true }) = false ∧ wellFormed (.fadd tFlt) = true := by decide
theorem test_wf_from_int : wellFormed (.fcvtIf 0#5 { tFlt with fs := 1#5 }) = false := by decide
theorem test_wf_vec : wellFormed (.vperm ⟨0#5, some .rtz, false, .none, [tTgt]⟩) = false := by decide
def tSeq : Seq := ⟨0x3FE#10, 0#10, 0x3FE#10⟩
def tMem (o : Ord) (z : Size) : MemRec := ⟨0#5, false, o, .cl, z, false, if o = .unord then ⟨0#10, 0#10, 0#10⟩ else tSeq, .none, [tTgt]⟩
theorem test_wf_mem : wellFormed (.ld (tMem .rel .d)) = false ∧ wellFormed (.st (tMem .acq .d)) = false ∧ wellFormed (.ld (tMem .ord .v)) = false ∧
    wellFormed (.ld { tMem .ord .d with fs := 1#5 }) = false ∧ wellFormed (.ld { tMem .ord .d with scope := .dev }) = false ∧
    wellFormed (.ld { tMem .ord .d with seq := ⟨0#10, 1022#10, 0#10⟩ }) = false ∧ wellFormed (.ld { tMem .unord .d with seq := tSeq }) = false ∧
    wellFormed (.amo .add (tMem .ord .h)) = false ∧ wellFormed (.red .swap (tMem .ord .d)) = false ∧ wellFormed (.ld (tMem .ord .d)) = true := by decide
theorem test_wf_xfer : wellFormed (.xcopy ⟨1#5, false, tSeq, [tTgt]⟩) = false ∧ wellFormed (.xacc ⟨0#5, false, ⟨0#10, 1022#10, 0#10⟩, [tTgt]⟩) = false := by decide
theorem test_wf_mma : wellFormed (.mmaAcca 0#5 false 0#6 ⟨0#4, 16#8, 0#8, 0#8, []⟩) = false ∧
    wellFormed (.mmaMx 0xFF#8 0#8 ⟨0#4, 0#8, 0#8, 0#8, []⟩) = false ∧ wellFormed (.mmaMx 0#8 0xFF#8 ⟨0#4, 0#8, 0#8, 0#8, []⟩) = false := by decide
theorem test_wf_const : wellFormed (.const .none [tTgt]) = false := by decide
theorem test_wf_subst : wellFormed (.add ⟨false, 0#2, .imm .c 0#32, [tTgt]⟩) = false ∧ wellFormed (.ld { tMem .ord .d with sub := .imm .a 0#32 }) = false := by decide

/-! ### The statements' hypotheses can be met: decoding, steps, tokens -/

theorem test_met_inverts : ∀ i ∈ [Instr.lea 7#3 tInt, .loopOpen tCtl 64#7, .const (.ext .a 5#64) [tTgt], .ld (tMem .unord .b), .wbk { tMem .ord .b with scope := .sys },
    .amo .fadd { tMem .rel .h with fs := 31#5 }, .xacc ⟨31#5, false, tSeq, []⟩, .mmaMx 0xFE#8 0#8 ⟨15#4, 255#8, 255#8, 0xFF#8, []⟩],
    (shape i).isSome = true ∧ wellFormed i = true := by decide
/-- A PE with two ready sets of one slot, of waves 0 and 1. -/
def tTwo : Inst :=
  let i := tInst [0x0E200800_00000001#64, 0x00002000_00000000#64]
  { i with sets := [⟨Place.zero, ⟨0#16, 1#24⟩, some (tTok 1), none, none, false, 0, []⟩, ⟨Place.zero, Tag.zero, some (tTok 2), none, none, false, 0, []⟩] }
theorem test_met_chosen : tTwo.forced = [] ∧ (chosen { tState with insts := [tTwo] } tTwo 0 0).any (fun x => decide (x.tag = Tag.zero)) = true ∧
    ((readySets tTwo).filter (mayFire { tState with insts := [tTwo] } tTwo)).length = 2 := by decide
def tThr (v : W64) : State := { State.reset with agenda := [.event (.thresholdWrite v)] }
theorem test_met_keepsInv : Machine.Inv (tThr 0x706450#64) ∧ goesOn (step (tThr 0x706450#64)) = true := by
  refine ⟨?_, by decide⟩
  unfold Machine.Inv InvOf PowerOk
  decide
theorem test_met_stops : ∀ n ∈ tState.insts, ∀ x ∈ n.sets, (slotInstr n x.place).isSome = true := by decide
theorem test_met_accepts : ∃ i, decode [0x54000800_00000000#64, 0x00018000_00000000#64] = .ok i := ⟨_, test_word_vred⟩
theorem test_met_event : (tThr 0#64).agenda = .event (.thresholdWrite 0#64) :: [] ∧ shape (.thresholdWrite 0#64) = none := ⟨rfl, rfl⟩
def tFetch : State := State.reset.withFetchWord 192 0x00002000_00000000_0E200800_00000001
theorem test_fetch_runs : goesOn (step tFetch) = true := by decide
theorem test_met_fires : ∃ n x ws i, tFetch.agenda = .fire 0 0 :: [] ∧ instAt tFetch 0 = some n ∧ n.phase = .running ∧ n.stopped = false ∧ n.ending = false ∧
    tFetch.pwr.prs.getD (dieOf 0) 0#4 ≠ 3#4 ∧ chosen { tFetch with agenda := [] } n 0 0 = some x ∧ slotWords n x.place = some ws ∧ decode ws = .ok i :=
  ⟨_, _, _, _, rfl, rfl, rfl, rfl, rfl, by decide, rfl, rfl, rfl⟩

theorem test_met_emit : ∃ n, findInst tState tState.firing.inst = some n := ⟨_, rfl⟩
/-- An operand carries E. -/
def tErr (a b c : Bool) : State :=
  { tState with firing := ⟨1, Place.zero, Tag.zero, { tTok 7 with e := a }, { tTok 5 with e := b }, { tTok 3 with e := c }⟩ }
theorem test_met_errors : underR17 (.pass tCtl) = true ∧ (tErr true true true).firing.a.e = true ∧
    ((tErr false true true).firing.a.e = false ∧ (tErr false true true).firing.b.e = true) ∧
    ((tErr false false true).firing.a.e = false ∧ (tErr false false true).firing.b.e = false ∧ (tErr false false true).firing.c.e = true) := by decide
theorem test_met_computing : computes (.add tInt) = true ∧ computes (.pass tCtl) = true ∧ computes (.vmask ⟨0#5, none, false, .none, [tTgt]⟩) = true ∧ goesOn (exec (.add tInt) tState) = true ∧
    goesOn (exec (.vmask ⟨0#5, none, false, .none, [tTgt]⟩) tState) = true := by decide
theorem test_met_noErr : noErr tState ∧ a64 tState.firing ≠ 0#64 ∧ b64 tState.firing ≠ 0#64 := by unfold noErr; decide
/-- Operand a, and operand b, are 0. -/
def tZeros : State := { tState with firing := ⟨1, Place.zero, Tag.zero, tTok 0, tTok 0, tTok 0⟩ }
theorem test_met_zero : noErr tZeros ∧ a64 tZeros.firing = 0#64 ∧ b64 tZeros.firing = 0#64 := by unfold noErr; decide
/-- A thread in each state of Table 7.1. -/
def tThreads (st : ThrState) : State := { tState with insts := tState.insts.map fun i => { i with threads := [{ freshThread 0#16 with st := st }, { freshThread 1#16 with st := .live }] } }
theorem test_met_ends : (∃ n, findInst (tThreads .live) 1 = some n) ∧ (thrOf (tThreads .live) 1 0#16).st = .live ∧ (thrOf (tThreads .caller) 1 0#16).st = .caller ∧
    (thrOf (tThreads .free) 1 0#16).st = .free ∧ (thrOf (tThreads .live) 1 1#16).st ≠ .ended ∧
    ({ tThreads .live with ops := [tOp (.ld (tMem .ord .d)) .wouPend] }.ops.any fun o => decide (o.inst = 1 ∧ o.tag.thr = 0#16) && heldRequest 0 o) = true ∧
    ((tThreads .live).ops.any fun o => decide (o.inst = 1 ∧ o.tag.thr = 0#16) && heldRequest 0 o) = false :=
  ⟨⟨_, rfl⟩, by decide⟩
theorem test_met_traps : (∃ n c, findInst tState tState.firing.inst = some n ∧ findCtx tState n.ctx = some c ∧ c.dbg = false) ∧ (∀ o ∈ tState.ops, o.id ≠ tState.nextId) :=
  ⟨⟨_, _, rfl, rfl, rfl⟩, by decide⟩
theorem test_met_breaks : ∃ n c, findInst { tState with fe := { Front.reset with ctxs := [{ tCtx with dbg := true }] } } 1 = some n ∧
    findCtx { tState with fe := { Front.reset with ctxs := [{ tCtx with dbg := true }] } } n.ctx = some c ∧ c.dbg = true := ⟨_, _, rfl, rfl, rfl⟩

/-! Threads, loops and calls -/

theorem test_met_permits : let x : Machine.PSet := ⟨Place.zero, Tag.zero, none, some (tTok 1), none, false, 0, []⟩
    let y : Machine.PSet := ⟨Place.zero, Tag.zero, some (tTok 1), some (tTok 1), none, false, 0, []⟩
    ((x.a.isSome || x.b.isSome || x.c.isSome) = true ∧ x.place ∈ [Place.zero] ∧ x.tag.thr = 0#16 ∧ x.b ≠ none) ∧
    (y.place ∈ [Place.zero] ∧ y.tag.thr = 0#16 ∧ y ∈ [x, y] ∧ y.a ≠ none) ∧ (x.tag.thr ≠ 1#16) := by decide
/-- LOOP.CLOSE's distances 0 and more. -/
theorem test_met_loops : (∃ n, findInst tState tState.firing.inst = some n) ∧ (tZeros.firing.b.payload.extractLsb' 0 7).toNat = 0 ∧
    1 ≤ (tState.firing.b.payload.extractLsb' 0 7).toNat := ⟨⟨_, rfl⟩, by decide⟩
/-- A callee entry that is good and one that is not, in an image of one slot that takes operand a. -/
def tPass : Inst := { tInst [0x01000800_00000000#64, 0x00001000_00000000#64] with sets := [] }
def tCalls (entry : Nat) : State :=
  { tState with insts := [tPass], firing := ⟨1, Place.zero, Tag.zero, tTok 7, tTok entry, tTok 0⟩ }
theorem test_met_calls : noErr (tCalls 0) ∧ badEntry tPass Place.zero false ((b64 (tCalls 0).firing).setWidth 32) = false ∧
    badEntry tPass Place.zero false ((b64 (tCalls 0xC00).firing).setWidth 32) = true ∧ lowestFree tPass 0 1 = some 1#16 ∧
    (∀ o ∈ (tCalls 0).ops, o.id < (tCalls 0).nextId) ∧ (thrOf (tCalls 0) 1 0#16).frame = none := by unfold noErr; decide
/-- A child thread 1 of caller 0 that returns, and the caller's CALL. -/
def tFrame : Frame := ⟨0#16, Place.zero, 1#24, false⟩
def tRets (ph : Phase) : State :=
  { tState with
    insts := [{ tPass with threads := [{ freshThread 0#16 with st := .caller }, { freshThread 1#16 with st := .live, cw := 1#24, frame := some tFrame }] }],
    ops := [{ tOp (.ret tCtl) ph with tag := ⟨1#16, 0#24⟩ }], firing := ⟨1, Place.zero, ⟨1#16, 0#24⟩, tTok 7, tTok 0, tTok 0⟩ }
theorem test_met_returns : ∃ o n th call, findOp (tRets .retHold) 5 = some o ∧ o.ins = .ret tCtl ∧ o.ph = .retHold ∧ findInst (tRets .retHold) o.inst = some n ∧ n.phase = .running ∧ n.ending = false ∧
    th = thrOf (tRets .retHold) o.inst o.tag.thr ∧ th.st = .live ∧ th.frame = some tFrame ∧ th.cw = o.tag.wave + 1#24 ∧ th.last = none ∧ tFrame.caller ≠ o.tag.thr ∧
    (thrOf (tRets .retHold) o.inst tFrame.caller).st = .caller ∧ slotInstr n tFrame.crec = some call :=
  ⟨_, _, _, _, rfl, rfl, rfl, rfl, rfl, rfl, rfl, rfl, rfl, by decide, rfl, by decide, rfl, rfl⟩
theorem test_met_returns_alone : ∀ p ∈ (tRets .retHold).ops, p.inst = 1 → p.id = 5 := by decide
def tHands : State :=
  { tState with insts := [{ tPass with threads := [{ freshThread 0#16 with st := .live, cw := 1#24 }, { freshThread 1#16 with st := .live }] }],
                ops := [{ tOp (.call tCtl) .callHold with n := 1 }] }
theorem test_met_handsOff : ∃ o n th, findOp tHands 5 = some o ∧ o.ins = .call tCtl ∧ o.ph = .callHold ∧ o.n = (1#16).toNat ∧ 1#16 ≠ o.tag.thr ∧ findInst tHands o.inst = some n ∧
    n.phase = .running ∧ n.ending = false ∧ th = thrOf tHands o.inst o.tag.thr ∧ th.st = .live ∧ th.cw = o.tag.wave + 1#24 ∧ th.last = none :=
  ⟨_, _, _, rfl, rfl, rfl, rfl, by decide, rfl, rfl, rfl, rfl, rfl, by decide, rfl⟩
theorem test_met_lowest : 0 < 1 ∧ 1 ≤ 65536 ∧ 65535 < 65536 ∧ lowestFree tPass 0 1 = some 1#16 := by decide

/-! The integer group -/

theorem test_met_divides : noErr tState ∧ b64 tState.firing ≠ 0#64 ∧ noErr tZeros ∧ b64 tZeros.firing = 0#64 := by unfold noErr; decide
theorem test_met_divideEnds : ∃ o, findOp (tHas (tOp (.divS tInt) .divide)) 5 = some o ∧ o.ph = .divide ∧ b64 (opFiring o) ≠ 0#64 ∧ o.ins = .divS tInt := ⟨_, rfl, rfl, by decide, rfl⟩
/-- 7 + 5, 7 − 5, and −2^63 divided by −1 (R128). -/
theorem test_add : (tNext (.add tInt) tState).flights.map (fun f => (f.dst.slot, f.tok.payload, f.tok.e)) = [(1, 12#256, false)] := by decide
theorem test_div_wraps : (tNext (.divideComplete 5) (tHas { tOp (.divS tInt) .divide with a := tTok (2 ^ 63), b := tTok (2 ^ 64 - 1) })).flights.map (fun f => f.tok.payload) = [0x8000000000000000#256] := by decide

/-! The float and vector groups -/

/-- The default formats (Table 4.4) in the instance's table. -/
def tFmt : State := { tState with insts := tState.insts.map fun n => { n with fmt := defaultFormats } }
def tFr (k : BitVec 5) : FltRec := ⟨k, false, none, false, false, false, false, .none, [tTgt]⟩
def tVr (k : BitVec 5) : VecRec := ⟨k, none, false, .none, [tTgt]⟩
/-- Entries with a sign, without one, and without an exponent; entry 31 is malformed. -/
theorem test_met_floats : noErr tFmt ∧ acceptScalar (entry tFmt 0#5) = true ∧ acceptLanes (entry tFmt 0#5) = true ∧
    (1 ≤ fEW (entry tFmt 0#5) ∧ fS (entry tFmt 0#5) = 1) ∧ (acceptScalar (entry tFmt 8#5) = true ∧ fS (entry tFmt 8#5) = 0) ∧
    (acceptLanes (entry tFmt 10#5) = true ∧ fEW (entry tFmt 10#5) = 0 ∧ fS (entry tFmt 10#5) = 1) ∧
    containerOf (entry tFmt 0#5) = containerOf (entry tFmt 14#5) ∧ acceptLanes (entry tFmt 31#5) = false := by unfold noErr; decide
theorem test_met_iterative : ∃ o, findOp { tFmt with ops := [{ tOp (.fdiv (tFr 0#5)) .iter with cap := [(0, b32)] }] } 5 = some o ∧ o.ins = .fdiv (tFr 0#5) ∧
    o.ph = .iter ∧ o.cap = [((0#5).toNat, b32)] := ⟨_, rfl, rfl, rfl, rfl⟩
/-- 1.0 + 2.0 = 3.0 and 1.0 / 3.0 in binary32 (R82: rounded once, inexact). -/
def tOnes (b : Nat) : State := { tFmt with firing := ⟨1, Place.zero, Tag.zero, tTok 0x3F800000, tTok b, tTok 0⟩ }
theorem test_fadd : (tNext (.fadd (tFr 0#5)) (tOnes 0x40000000)).flights.map (fun f => f.tok.payload) = [0x40400000#256] := by decide
theorem test_fdiv : (opDiv (.fin false 1 0) (.fin false 3 0)).2 = 0#5 ∧ encodeVal b32 .rne false (opDiv (.fin false 1 0) (.fin false 3 0)).1 = (0x3EAAAAAB, 1#5) := by decide
/-- Values that lie above a chosen exponent. -/
theorem test_met_scaled : (Val.fin true 3 2).isFinite = true ∧ above (-1) (.fin true 3 2) ∧ above (-2) (.zero true) ∧ (Val.zero true).isZero = true ∧
    (Val.nan true false).isNan = true ∧ (Val.inf true).isNan = false := by refine ⟨rfl, ?_, trivial, rfl, rfl, rfl⟩; unfold above; decide
theorem test_met_formats : fmtValid b32 = true ∧ fSUBN b32 ≠ 2 ∧ (decodeVal b32 0x3F800000).isFinite = true := by decide
theorem test_met_roundings : 3 % 2 ^ 1 ≠ 0 ∧ 2 * (5 % 2 ^ 2) < 2 ^ 2 ∧ 2 ^ 2 < 2 * (7 % 2 ^ 2) ∧ 2 * (3 % 2 ^ 1) = 2 ^ 1 := by decide
/-- The checks that ILLFMT rests on, met and not. -/
theorem test_met_illfmt : (slotsOf (.fcvtFf 31#5 (tFr 0#5))).find? (fun k => !pathTakes (.fcvtFf 31#5 (tFr 0#5)) (fmtOf tFmt tFmt.firing.inst k)) = some 31 ∧
    (acceptScalar (entry tFmt 5#5) = true ∧ containerOf (entry tFmt 5#5) < 8) ∧ 2 * containerOf (entry tFmt 0#5) ≠ containerOf (entry tFmt 0#5) ∧
    acceptBlockScale (entry tFmt 0#5) = false ∧ acceptBlockScale (entry tFmt 8#5) = true := by decide
/-- Slot 20 holds FP4 with a block scale in slot `k`; slot 8 is one, slot 0 is none (R85). -/
def tScaled (k : Nat) : State :=
  { tFmt with insts := tFmt.insts.map fun n => { n with fmt := n.fmt.set 20 (0xC810012408100000#64 ||| BitVec.ofNat 64 (2 ^ 22 * k)) } }
theorem test_met_scales : noErr (tScaled 8) ∧ acceptLanes (entry (tScaled 8) 20#5) = true ∧ fSCL (entry (tScaled 8) 20#5) ≠ 0 ∧ fSCS (entry (tScaled 8) 20#5) = 8 ∧
    acceptBlockScale (fmtOf (tScaled 8) 1 8) = true ∧ acceptLanes (entry (tScaled 0) 20#5) = true ∧ acceptBlockScale (fmtOf (tScaled 0) 1 (fSCS (entry (tScaled 0) 20#5))) = false := by
  unfold noErr; decide
theorem test_met_lanes : 2 * containerOf (entry tFmt 1#5) = containerOf (entry tFmt 0#5) ∧ containerOf (entry tFmt 0#5) = 2 * containerOf (entry tFmt 1#5) ∧
    (containerOf (entry tFmt 5#5) ≤ containerOf (entry tFmt 0#5)) ∧ 1 ≤ fEW (entry tFmt 0#5) ∧ fEW (entry tFmt 10#5) = 0 := by decide
/-- Lanes with a NaN and without: lane 0 of operand a is the greatest of what is left. -/
def tLanes (a : Nat) : State := { tFmt with firing := ⟨1, Place.zero, Tag.zero, tTok a, tTok 0, tTok 0⟩ }
def tLane (a k : Nat) : Val := (operand b32 false (ln 32 (BitVec.ofNat 256 a) k)).1
theorem test_met_picks : (0 < 256 / 32 ∧ (tLane 0x3F800000 0).isNan = false ∧ ∀ j, j < 8 → (tLane 0x3F800000 j).isNan = false ∧ vltZ (tLane 0x3F800000 0).abs (tLane 0x3F800000 j).abs = false) ∧
    (∀ k, k < 8 → (tLane (List.foldl (fun m _ => m * 2 ^ 32 + 0x7FC00000) 0 (List.range 8)) k).isNan = true) ∧ (∀ k, k < 8 → (tLane 0 k).isZero = true) ∧
    (tLane 0x7F800000 0).abs = .inf false ∧ (tLane 0x3F800000 0).abs = .fin false (2 ^ 23) (-23) ∧
    vltZ (tLane 0xBF800000 1) (tLane 0xBF800000 0) = false := by decide

/-! Memory records -/

theorem test_met_sends : (memRecOf (.ld (tMem .ord .d))).isSome = true ∧ fresh tState ∧ isOrdered (.ld (tMem .ord .d)) = true ∧
    isOrdered (.ld (tMem .unord .d)) = false ∧ (isPf (.pf (tMem .unord .d)) = true ∧ (tErr true false false).firing.a.e = true) := by unfold fresh; decide
/-- A request of thread 0 whose unit lets it go, and one that must wait. -/
theorem test_met_ordered : (∀ i ∈ [Instr.mnop (tMem .ord .d), .fenceRel (tMem .ord .d), .fenceAcq (tMem .ord .d), .invAll (tMem .ord .d), .invRegion (tMem .ord .d), .ftset (tMem .ord .d)],
      alone (tHas (tOp i .wouNet)) (tOp i .wouNet) ∧ linksNow (thrOf (tHas (tOp i .wouNet)) 1 0#16) (tOp i .wouNet)) ∧
    (a64 (opFiring (tOp (.invRegion (tMem .ord .d)) .wouNet))).toNat + (b64 (opFiring (tOp (.invRegion (tMem .ord .d)) .wouNet))).toNat ≤ 2 ^ 56 ∧
    isXfer (.ld (tMem .ord .d)) = false := by
  refine ⟨?_, by decide, by decide⟩
  intro i h
  simp only [List.mem_cons, List.not_mem_nil, or_false] at h
  rcases h with rfl | rfl | rfl | rfl | rfl | rfl <;> exact ⟨⟨List.mem_singleton.2 rfl, by decide, by decide, ⟨_, rfl, rfl, rfl, rfl⟩, rfl, rfl, rfl, rfl⟩, rfl, rfl⟩
def tLate : Op := { tOp (.mnop (tMem .ord .d)) .wouNet with tag := ⟨0#16, 3#24⟩ }
theorem test_met_waits : alone (tHas tLate) tLate ∧ ¬ linksNow (thrOf (tHas tLate) 1 0#16) tLate ∧ ((tHas tLate).ops.filter fun p => decide (p.cl = tLate.cl ∧ p.id ≠ tLate.id)).length < 256 := by
  refine ⟨⟨List.mem_singleton.2 rfl, by decide, by decide, ⟨_, rfl, rfl, rfl, rfl⟩, rfl, rfl, rfl, rfl⟩, ?_, by decide⟩
  intro h; exact absurd h.1 (by decide)

/-! A page of 16 GiB at VA 0 that is mapped by a table in host memory, its first window held in a slice of die 0 and the whole in the front end's cache:
what an access of it comes to, whether its translation is cached or walked to -/

/-- A leaf with V, RD, W, IMG, A and D for memory at `pa`. -/
def tLeaf (coh : Nat) (pa : Nat) : W64 := 0xF860000000000000#64 ||| BitVec.ofNat 64 (2 ^ 57 * coh + pa)
def tRoot : Nat := 2 ^ 48 + 2 ^ 33
/-- The root and a level-1 table of one leaf, with the bytes of `l`. -/
def tTable (leaf : W64) (l : List (Nat × W64)) : Memory :=
  l.foldl (fun m x => memWrite m x.1 (bytesOfNat x.2.toNat 8)) (memWrite (memWrite [] tRoot (bytesOfNat (2 ^ 63 + tRoot + 65536) 8)) (tRoot + 65536) (bytesOfNat leaf.toNat 8))
def tCtxU : Ctx := { tCtx with ptroot := tRoot }
def tCached (leaf : W64) (die : Option Nat) (k : Nat) : Tlb := ⟨die, k, 0#16, 0, 2 ^ 34, leaf, tRoot + 65536⟩
/-- The leaf, cached by the front end and in every slice of die 0. -/
def tCaches (leaf : W64) : List Tlb := tCached leaf none 0 :: (List.range 64).map (tCached leaf (some 0))
def tUp (leaf : W64) (l : List (Nat × W64)) : State :=
  { tState with mem := tTable leaf l, co := { Coh.reset with tlb := tCaches leaf }, link := { Link.reset with mode := 1#2 },
                fe := { Front.reset with ctxs := [tCtxU] } }

/-- Nothing is cached but translations with this leaf, words in L1s and sectors in L2; the host link is up, and a table in host memory has the leaf. -/
structure Good (leaf : W64) (s : State) : Prop where
  co   : s.co = { Coh.reset with tlb := tCaches leaf, l1w := s.co.l1w, l2 := s.co.l2 }
  link : s.link.mode = 1#2
  root : (List.range 8).map (fun i => memGet s.mem (tRoot + i)) = bytesOfNat (2 ^ 63 + tRoot + 65536) 8
  next : (List.range 8).map (fun i => memGet s.mem (tRoot + 65536 + i)) = bytesOfNat leaf.toNat 8
theorem winPieces_one (va n : Nat) (h0 : 0 < n) (h : va % 65536 + n ≤ 65536) : winPieces va n = [(va, n)] := by
  have e : (va + n - 1) / 65536 - va / 65536 + 1 = 1 := by omega
  unfold winPieces
  rw [if_neg (by omega), e]
  simp only [List.range_one, List.map_cons, List.map_nil, Nat.add_zero, List.cons.injEq, Prod.mk.injEq, and_true]
  omega
theorem settleHost_good {leaf : W64} {s : State} (g : Good leaf s) (wr : Bool) (sec : Nat) : settleHost wr sec s = (true, s) := by
  obtain ⟨time, tick, agenda, inbox, firing, nextId, insts, flights, ops, xfers, mem, co, tiles, fe, ft, link, fab, ras, pwr⟩ := s
  have h := g.co
  simp only at h
  generalize co.l1w = a, co.l2 = b at h
  subst h
  cases wr <;> rfl
theorem foldl_keeps {α β : Type} (f : β → α → β) (b : β) : ∀ l : List α, (∀ x ∈ l, f b x = b) → l.foldl f b = b
  | [], _ => rfl
  | x :: t, h => by
    rw [List.foldl_cons, h x (List.mem_cons_self ..)]
    exact foldl_keeps f b t fun y hy => h y (List.mem_cons_of_mem _ hy)
theorem hostUp_good {leaf : W64} {s : State} (g : Good leaf s) : hostUp s = true := by unfold hostUp; rw [g.link]; rfl
theorem prepareRange_good {leaf : W64} {s : State} (g : Good leaf s) (wr : Bool) (key pa n : Nat) (h : 2 ^ 48 ≤ pa) (h2 : pa + n ≤ 2 ^ 49) :
    prepareRange wr key pa n s = (true, s) := by
  unfold prepareRange
  apply foldl_keeps
  intro sec hs
  have hsec : 2 ^ 48 ≤ sec ∧ sec < 2 ^ 49 := by
    unfold sectorsIn at hs
    split at hs
    · cases hs
    · obtain ⟨k, hk, rfl⟩ := List.mem_map.1 hs
      have := List.mem_range.1 hk
      unfold sectorOf at this ⊢
      omega
  have hd : devicePresent s sec = false := by
    unfold devicePresent isDevice
    rw [decide_eq_false (by omega)]; rfl
  have hh : isHost sec = true := by unfold isHost; exact decide_eq_true hsec
  simp only [Bool.not_true, hd, hh, hostUp_good g, settleHost_good g, Bool.false_eq_true, if_false, Bool.and_self, if_true]
theorem placeRead_good {leaf : W64} {s : State} (g : Good leaf s) (key pa n : Nat) (h : 2 ^ 48 ≤ pa) (h2 : pa + n ≤ 2 ^ 49) :
    placeRead key pa n s = (List.range n).map fun i => (memGet s.mem (pa + i), false) := by
  unfold placeRead
  apply List.map_congr_left
  intro i hi
  have := List.mem_range.1 hi
  have hd : devicePresent s (pa + i) = false := by
    unfold devicePresent isDevice
    rw [decide_eq_false (by omega)]; rfl
  have hh : isHost (pa + i) = true := by unfold isHost; exact decide_eq_true (by omega)
  have hp : psnAt s ((pa + i) / 4 * 4) = false := by unfold psnAt; rw [g.co]; rfl
  simp only [hd, hh, hostUp_good g, hp, Bool.false_eq_true, if_false, Bool.and_self, if_true]
theorem read64At_good {leaf : W64} {s : State} (g : Good leaf s) (pa : Nat) (h : 2 ^ 48 ≤ pa) (h2 : pa + 8 ≤ 2 ^ 49) :
    read64At pa s = (BitVec.ofNat 64 (natOfBytes ((List.range 8).map fun i => memGet s.mem (pa + i))), false) := by
  unfold read64At
  rw [placeRead_good g 0 pa 8 h h2]
  simp only [List.map_map, Prod.mk.injEq]
  exact ⟨rfl, rfl⟩
/-- A leaf that can stand in a level-1 table and lets every access pass. -/
def tOpen (leaf : W64) : Prop := leaf = tLeaf 0 (2 ^ 48) ∨ leaf = tLeaf 0 (2 ^ 40) ∨ leaf = tLeaf 0 0 ∨ leaf = tLeaf 0 (2 ^ 51)
def tIn (c : Ctx) : Prop := c.ptroot = tRoot ∧ c.asid = 0#16
/-- A page that is valid and permits neither loads nor stores. -/
def tShut : W64 := 0xC860000000000000#64
theorem walk_good {leaf : W64} {s : State} (g : Good leaf s) (o : tOpen leaf ∨ leaf = tShut) (w : Who) (va : Nat) (h : va < 2 ^ 34) :
    walk w tRoot va s = (.leaf leaf (2 ^ 34) (tRoot + 65536), s) := by
  have i0 : walkIndex va 0 = 0 := show va / 2 ^ 45 % 2048 = 0 by omega
  have i1 : walkIndex va 1 = 0 := show va / 2 ^ 34 % 2048 = 0 by omega
  have e0 : tRoot + 8 * walkIndex va 0 = tRoot := by rw [i0]; rfl
  have e1 : 281483566710784 + 8 * walkIndex va 1 = tRoot + 65536 := by rw [i1]; rfl
  have n0 : noteHole w 2 tRoot s = s := by
    unfold noteHole kindAt isDevice isMmio isHost tRoot
    simp [hostUp_good g]
  have n1 : noteHole w 2 (tRoot + 65536) s = s := by
    unfold noteHole kindAt isDevice isMmio isHost tRoot
    simp [hostUp_good g]
  have r0 := read64At_good g tRoot (by decide) (by decide)
  have r1 := read64At_good g (tRoot + 65536) (by decide) (by decide)
  rw [g.root] at r0
  rw [g.next] at r1
  have p0 := prepareRange_good g false 0 tRoot 8 (by decide) (by decide)
  have p1 := prepareRange_good g false 0 (tRoot + 65536) 8 (by decide) (by decide)
  unfold walk walkFrom
  simp only [e0, p0, n0, r0, Bool.not_true, Bool.false_eq_true, if_false]
  have b0 : BitVec.ofNat 64 (natOfBytes (bytesOfNat (2 ^ 63 + tRoot + 65536) 8)) = 0x8001000200010000#64 := by decide
  rw [b0]
  have b1 : BitVec.ofNat 64 (natOfBytes (bytesOfNat leaf.toNat 8)) = leaf := by rcases o with (rfl | rfl | rfl | rfl) | rfl <;> decide
  rw [b1] at r1
  simp only [show pteV 0x8001000200010000#64 = true from by decide, show pteMalformed 0x8001000200010000#64 0 = false from by decide,
    show pteLF 0x8001000200010000#64 = false from by decide, Bool.not_true, Bool.false_eq_true, if_false, show ptePFN 0x8001000200010000#64 * 65536 = 281483566710784 from by decide]
  unfold walkFrom
  simp only [show 0 + 1 = 1 from rfl, e1, p1, n1, r1, Bool.not_true, Bool.false_eq_true, if_false]
  have l : pteV leaf = true ∧ pteMalformed leaf 1 = false ∧ pteLF leaf = true := by rcases o with (rfl | rfl | rfl | rfl) | rfl <;> decide
  simp only [l.1, l.2.1, l.2.2, Bool.not_true, Bool.false_eq_true, if_false, if_true]
  rfl
/-- An address whose translation the cache of a die, or of the front end, serves. -/
def tOn (die : Option Nat) (va : Nat) : Prop := va < 2 ^ 34 ∧ (die = none ∨ die = some 0)
theorem tSlice (va : Nat) : sliceOf (some 0) va < 64 := (Config.tlbSlice (va / 65536)).isLt
theorem tlbMatch_held (leaf : W64) {die : Option Nat} {va : Nat} (h : tOn die va) (k : Nat) : tlbMatch die 0#16 va (tCached leaf die k) = decide (k = sliceOf die va) := by
  have hv : 0 = va / 2 ^ 34 * 2 ^ 34 := by have := h.1; omega
  unfold tlbMatch tCached
  simp only [← hv, true_and, decide_true, Bool.true_or, Bool.and_true]
theorem tlbMatch_other (leaf : W64) {die : Option Nat} (e : Option Nat) (n : e ≠ die) (a : BitVec 16) (va k : Nat) : tlbMatch die a va (tCached leaf e k) = false := by
  unfold tlbMatch tCached
  simp only [n, false_and, decide_false, Bool.false_and]
theorem tHeldIn (leaf : W64) {die : Option Nat} {va : Nat} (h : tOn die va) : tCached leaf die (sliceOf die va) ∈ tCaches leaf := by
  rcases h.2 with rfl | rfl
  · exact List.mem_cons_self ..
  · exact List.mem_cons_of_mem _ (List.mem_map.2 ⟨_, List.mem_range.2 (tSlice va), rfl⟩)
theorem tlbPut_good {leaf : W64} {s : State} (g : Good leaf s) {die : Option Nat} {va : Nat} (h : tOn die va) : tlbPut (tCached leaf die (sliceOf die va)) s = s := by
  have m : s.co.tlb.contains (tCached leaf die (sliceOf die va)) = true := by rw [g.co]; exact List.contains_iff_mem.2 (tHeldIn leaf h)
  unfold tlbPut; rw [if_pos m]
theorem tlbFind_good {leaf : W64} {s : State} (g : Good leaf s) {die : Option Nat} {va : Nat} (h : tOn die va) (k : Nat) :
    tlbFind s die 0#16 va k = none ∨ tlbFind s die 0#16 va k = some (tCached leaf die (sliceOf die va)) := by
  have hf : s.co.tlb.filter (tlbMatch die 0#16 va) = [tCached leaf die (sliceOf die va)] := by
    rw [g.co]
    show (tCached leaf none 0 :: (List.range 64).map (tCached leaf (some 0))).filter _ = _
    rcases h.2 with rfl | rfl
    · have n : ((List.range 64).map (tCached leaf (some 0))).filter (tlbMatch none 0#16 va) = [] := by
        rw [List.filter_eq_nil_iff]; intro x hx
        obtain ⟨k, -, rfl⟩ := List.mem_map.1 hx
        rw [tlbMatch_other leaf (some 0) (by decide)]; decide
      rw [List.filter_cons_of_pos (by rw [tlbMatch_held leaf h]; rfl), n]
      rfl
    · have n : ∀ j, j < 64 → (List.range 64).filter (fun k => decide (k = j)) = [j] := by decide
      rw [List.filter_cons_of_neg (by rw [tlbMatch_other leaf none (by decide)]; decide), List.filter_map,
        show (tlbMatch (some 0) 0#16 va ∘ tCached leaf (some 0)) = (fun k => decide (k = sliceOf (some 0) va)) from funext fun k => tlbMatch_held leaf h k, n _ (tSlice va)]
      rfl
  unfold tlbFind
  rw [hf]
  cases Config.tlbPick s.tick va k with
  | zero => exact .inr rfl
  | succ n => exact .inl rfl
theorem lookup_good {leaf : W64} {s : State} (g : Good leaf s) (o : tOpen leaf ∨ leaf = tShut) {c : Ctx} (hc : tIn c) {die : Option Nat} (w : Who) {va : Nat} (h : tOn die va) (k : Nat) :
    lookup die w c va k s = (.leaf leaf (2 ^ 34) (tRoot + 65536), s) := by
  unfold lookup
  rw [hc.1, hc.2, walk_good g o w va h.1]
  rcases tlbFind_good g h k with e | e
  · rw [e]
    have ht : ({ die := die, slice := sliceOf die va, asid := 0#16, va := va / 2 ^ 34 * 2 ^ 34, size := 2 ^ 34, leaf := leaf, pte := tRoot + 65536 } : Tlb) = tCached leaf die (sliceOf die va) := by
      rw [show va / 2 ^ 34 * 2 ^ 34 = 0 by have := h.1; omega]; rfl
    simp only [ht, tlbPut_good g h]
  · rw [e]; rfl
theorem kindAt_host {leaf : W64} {s : State} (g : Good leaf s) (coh pa : Nat) (h : 2 ^ 48 ≤ pa) (h2 : pa < 2 ^ 49) : kindAt s coh pa = .hostu := by
  have e : hostCached s = false := by unfold hostCached; rw [g.link]; rfl
  unfold kindAt isDevice isMmio isHost
  rw [decide_eq_false (by omega), decide_eq_false (by omega), decide_eq_true ⟨h, h2⟩, hostUp_good g, e]
  rfl
theorem kindAt_mmio (s : State) (coh pa : Nat) (h : 2 ^ 40 ≤ pa) (h2 : pa < 2 ^ 40 + 2 ^ 26) : kindAt s coh pa = .mmio := by
  unfold kindAt isDevice isMmio
  rw [decide_eq_false (by omega), decide_eq_true ⟨h, h2⟩]
  rfl
theorem translate_good {leaf : W64} {s : State} (g : Good leaf s) (o : tOpen leaf) {c : Ctx} (hc : tIn c) {die : Option Nat} (w : Who) (n : Need) (l : List (Nat × Nat)) (h : ∀ p ∈ l, tOn die p.1) :
    Machine.translate die w c n l s = (.ok (l.map fun p => { va := p.1, pa := leafPa leaf (2 ^ 34) p.1, len := p.2, kind := kindAt s 0 (leafPa leaf (2 ^ 34) p.1), key := 0, page := 2 ^ 34 }), s) := by
  have h1 : ∀ l : List (Nat × Nat), (∀ p ∈ l, tOn die p.1) → leavesOf die w c l s = (l.map fun p => (p.1, p.2, .leaf leaf (2 ^ 34) (tRoot + 65536)), s) := by
    intro l
    induction l with
    | nil => intro _; rfl
    | cons p t ih =>
      intro h
      unfold leavesOf
      simp only [lookup_good g (.inl o) hc w (h p (List.mem_cons_self ..)), ih fun q hq => h q (List.mem_cons_of_mem _ hq)]
      rfl
  have f : pteF leaf = false ∧ pteCOH leaf = 0 ∧ pteINTEG leaf = false ∧ pteRD leaf = true ∧ pteW leaf = true ∧ pteIMG leaf = true ∧ pteA leaf = true ∧ pteD leaf = true ∧
      leafKey c leaf = 0 := by
    have k : pteKD leaf = false ∧ pteKEY leaf = 0 ∧ pteINTEG leaf = false := by rcases o with rfl | rfl | rfl | rfl <;> decide
    unfold leafKey
    rw [k.1, k.2.1, k.2.2]
    simp only [Bool.false_eq_true, if_false]
    rcases o with rfl | rfl | rfl | rfl <;> decide
  have hp : ∀ pa, permits s leaf pa n = true := by
    intro pa; unfold permits; simp [f]
  have h2 : ∀ l : List (Nat × Nat), firstPark s n (l.map fun p => (p.1, p.2, .leaf leaf (2 ^ 34) (tRoot + 65536))) = none := by
    intro l; induction l with
    | nil => rfl
    | cons p t ih => simp only [List.map_cons, firstPark, f.1, Bool.false_and, Bool.false_eq_true, if_false, ih]
  have h3 : ∀ l : List (Nat × Nat), firstPerm s n (l.map fun p => (p.1, p.2, .leaf leaf (2 ^ 34) (tRoot + 65536))) = none := by
    intro l; induction l with
    | nil => rfl
    | cons p t ih => simp only [List.map_cons, firstPerm, hp, if_true, ih]
  have h4 : ∀ l : List (Nat × Nat), markAll die c n.wr (l.map fun p => (p.1, p.2, .leaf leaf (2 ^ 34) (tRoot + 65536))) s = (true, s) := by
    intro l; induction l with
    | nil => rfl
    | cons p t ih =>
      have m : markAD die c p.1 n.wr leaf (2 ^ 34) (tRoot + 65536) s = (true, s) := by
        unfold markAD; simp [f]
      simp only [List.map_cons, markAll, m, if_true, ih]
  have h5 : (l.map fun p => (p.1, p.2, Found.leaf leaf (2 ^ 34) (tRoot + 65536))).any (fun x => decide (x.2.2 = Found.wait)) = false := by
    simp
  unfold Machine.translate settleLeaves
  simp only [h1 l h, h2, h3, h4, h5, Bool.false_eq_true, if_false, if_true, List.map_map]
  refine Prod.ext ?_ rfl
  simp only [Access.ok.injEq]
  refine List.map_congr_left fun p _ => ?_
  unfold elOf
  simp only [Function.comp, f.2.1, f.2.2.2.2.2.2.2.2]
theorem winPieces_within (va n : Nat) : ∀ p ∈ winPieces va n, va ≤ p.1 ∧ p.1 + p.2 ≤ va + n := by
  intro p hp
  unfold winPieces at hp
  split at hp
  · cases hp
  · obtain ⟨k, hk, rfl⟩ := List.mem_map.1 hp
    have := List.mem_range.1 hk
    simp only
    omega
/-- The elements of a range on the page. -/
def tEls (base : Nat) (k : Kind) (va n : Nat) : List El := (winPieces va n).map fun p => ⟨p.1, base + p.1, p.2, k, 0, 2 ^ 34⟩
theorem leafPa_open (base va : Nat) (hb : base = 2 ^ 48 ∨ base = 2 ^ 40 ∨ base = 0 ∨ base = 2 ^ 51) (h : va < 2 ^ 34) : leafPa (tLeaf 0 base) (2 ^ 34) va = base + va := by
  unfold leafPa
  have e : ptePFN (tLeaf 0 base) * 65536 / 2 ^ 34 * 2 ^ 34 = base := by rcases hb with rfl | rfl | rfl | rfl <;> decide
  rw [e, Nat.mod_eq_of_lt h]
theorem sysPrep_host {s : State} (g : Good (tLeaf 0 (2 ^ 48)) s) {c : Ctx} (hc : tIn c) (n : Need) (va len : Nat) (h : va + len ≤ 2 ^ 33) :
    sysPrep none c n va len s = (.ok [], tEls (2 ^ 48) .hostu va len, s) := by
  have w := winPieces_within va len
  have e : (winPieces va len).map (fun p => ({ va := p.1, pa := leafPa (tLeaf 0 (2 ^ 48)) (2 ^ 34) p.1, len := p.2, kind := kindAt s 0 (leafPa (tLeaf 0 (2 ^ 48)) (2 ^ 34) p.1), key := 0, page := 2 ^ 34 } : El)) =
      tEls (2 ^ 48) .hostu va len := by
    refine List.map_congr_left fun p hp => ?_
    have := w p hp
    rw [leafPa_open _ _ (.inl rfl) (by omega), kindAt_host g 0 _ (by omega) (by omega)]
  unfold sysPrep
  rw [if_neg (by omega)]
  simp only [Option.map_none, translate_good g (.inl rfl) hc (sysWho none) n _ fun p hp => ⟨by have := w p hp; omega, .inl rfl⟩]
  rw [e]
  have f : (tEls (2 ^ 48) .hostu va len).find? (fun x => decide (x.kind = .peer)) = none := by
    rw [List.find?_eq_none]; intro x hx
    obtain ⟨p, -, rfl⟩ := List.mem_map.1 hx
    simp
  rw [f]
  simp only
  rw [foldl_keeps]
  · rfl
  · intro x hx
    obtain ⟨p, hp, rfl⟩ := List.mem_map.1 hx
    have := w p hp
    simp only [Bool.not_true, Bool.false_eq_true, if_false]
    exact prepareRange_good g _ _ _ _ (by omega) (by omega)
theorem sysPrep_mmioOn {s : State} (g : Good (tLeaf 0 (2 ^ 40)) s) {c : Ctx} (hc : tIn c) {by_ : Option Nat} (n : Need) (va len : Nat) (h : va + len ≤ 2 ^ 26) (d : ∀ p ∈ winPieces va len, tOn (by_.map dieOf) p.1) :
    sysPrep by_ c n va len s = (.ok [], tEls (2 ^ 40) .mmio va len, s) := by
  have w := winPieces_within va len
  have wl : ∀ p ∈ winPieces va len, p.1 < va + len := by
    intro p hp
    unfold winPieces at hp
    split at hp
    · cases hp
    · obtain ⟨k, hk, rfl⟩ := List.mem_map.1 hp
      have := List.mem_range.1 hk
      simp only
      omega
  have e : (winPieces va len).map (fun p => ({ va := p.1, pa := leafPa (tLeaf 0 (2 ^ 40)) (2 ^ 34) p.1, len := p.2, kind := kindAt s 0 (leafPa (tLeaf 0 (2 ^ 40)) (2 ^ 34) p.1), key := 0, page := 2 ^ 34 } : El)) =
      tEls (2 ^ 40) .mmio va len := by
    refine List.map_congr_left fun p hp => ?_
    have := w p hp
    have := wl p hp
    rw [leafPa_open _ _ (.inr (.inl rfl)) (by omega), kindAt_mmio s 0 _ (by omega) (by omega)]
  unfold sysPrep
  rw [if_neg (by omega)]
  simp only [translate_good g (.inr (.inl rfl)) hc (sysWho by_) n _ d]
  rw [e]
  have f : (tEls (2 ^ 40) .mmio va len).find? (fun x => decide (x.kind = .peer)) = none := by
    rw [List.find?_eq_none]; intro x hx
    obtain ⟨p, -, rfl⟩ := List.mem_map.1 hx
    simp
  rw [f]
  simp only
  rw [foldl_keeps]
  · rfl
  · intro x hx
    obtain ⟨p, hp, rfl⟩ := List.mem_map.1 hx
    simp only [Bool.not_true, Bool.false_eq_true, if_false]
theorem sysPrep_mmio {s : State} (g : Good (tLeaf 0 (2 ^ 40)) s) {c : Ctx} (hc : tIn c) (n : Need) (va len : Nat) (h : va + len ≤ 2 ^ 26) :
    sysPrep none c n va len s = (.ok [], tEls (2 ^ 40) .mmio va len, s) :=
  sysPrep_mmioOn g hc n va len h fun p hp => ⟨by have := winPieces_within va len p hp; omega, .inl rfl⟩
theorem sysReadN_host {s : State} (g : Good (tLeaf 0 (2 ^ 48)) s) {c : Ctx} (hc : tIn c) (n : Need) (va len : Nat) (h0 : 0 < len) (h1 : va % 65536 + len ≤ 65536) (h : va + len ≤ 2 ^ 33) :
    sysReadN none c n va len s = (.ok ((List.range len).map fun i => (memGet s.mem (2 ^ 48 + va + i), false)), s) := by
  unfold sysReadN
  rw [sysPrep_host g hc n va len h]
  simp only [tEls, winPieces_one va len h0 h1, List.map_cons, List.map_nil, sysReadEls, sysReadEl, placeRead_good g 0 (2 ^ 48 + va) len (by omega) (by omega), List.append_nil]
theorem sysReadEls_mmio (by_ : Option Nat) (base : Nat) (s : State) : ∀ l : List (Nat × Nat), sysReadEls by_ (l.map fun p => ⟨p.1, base + p.1, p.2, .mmio, 0, 2 ^ 34⟩) s = (List.replicate (l.map (·.2)).sum (0#8, false), s)
  | [] => rfl
  | p :: t => by simp only [List.map_cons, sysReadEls, sysReadEl, sysReadEls_mmio by_ base s t, List.sum_cons, List.replicate_append_replicate]
theorem sysWriteEls_mmio (by_ : Option Nat) (base : Nat) (s : State) : ∀ (l : List (Nat × Nat)) (bs : List Byte), sysWriteEls by_ (l.map fun p => ⟨p.1, base + p.1, p.2, .mmio, 0, 2 ^ 34⟩) bs s = s
  | [], _ => rfl
  | p :: t, bs => by simp only [List.map_cons, sysWriteEls, sysWriteEls_mmio by_ base s t]

/-! Accesses -/

theorem tDevGood : Good (tLeaf 0 0) (tUp (tLeaf 0 0) []) where
  co := rfl
  link := rfl
  root := by decide +kernel
  next := by decide +kernel
/-- The cached translation or the walk gives the same leaf, and nothing changes. -/
theorem test_looks : ∀ die ∈ [none, some 0], lookup die .front tCtxU 64 0 (tUp (tLeaf 0 0) []) = (.leaf (tLeaf 0 0) (2 ^ 34) (tRoot + 65536), tUp (tLeaf 0 0) []) := by
  intro die h
  simp only [List.mem_cons, List.not_mem_nil, or_false] at h
  exact lookup_good tDevGood (.inl (.inr (.inr (.inl rfl)))) ⟨rfl, rfl⟩ .front (va := 64) ⟨by decide, h⟩ 0
/-- An access to eight bytes at PA 64 by the only operation of the L1 of cluster 0, which holds both words. -/
def tEl (k : Kind) : El := ⟨64, 64, 8, k, 0, 2 ^ 34⟩
def tAcc (i : Instr) (ph : Phase) (k : Kind) : Op := { tOp i ph with els := [tEl k], left := [0] }
def tWord (pa : Nat) (v : W32) : L1Word := ⟨0, 0, pa, pa, .v, v, 0, 0xF#4, 0#4, false, false, none, false⟩
def tL1 (o : Op) : State := { tHas o with co := { Coh.reset with l1w := [tWord 64 5#32, tWord 68 6#32] } }
/-- The L1 of cluster 0 holds the sector at `pa`. -/
def tSec0 (pa : Nat) (st : Mesi) : L1Sec := ⟨0, 0, pa, pa, st, 0, List.replicate 16 9#32, 0#16⟩
def tL1Sec (o : Op) (pa : Nat) (st : Mesi) : State := { tHas o with co := { Coh.reset with l1d := [tSec0 pa st] } }
/-- Memory whose words at 64 and 68 are 5 and 6, and memory of 9s. -/
def tG (pa : Nat) : W32 := if pa = 64 then 5#32 else if pa = 68 then 6#32 else 9#32
theorem test_met_loads : let o := tAcc (.ld (tMem .unord .d)) .miss .s
    mineAlone (tL1 o) o ∧ hasNothing o ∧ o.left = List.range o.els.length ∧ (∀ x ∈ o.els, x.len = 8 ∧ x.pa % 8 = 0 ∧ ∀ m ∈ (tL1 o).co.msgs, m.pa ≠ x.pa / 64 * 64) ∧
    (∀ x ∈ o.els, 1 ≤ x.len ∧ x.pa % 64 + x.len ≤ 64 ∧ x.kind = .s ∧ ∀ k, k < x.len → hits (tL1 o) o.cl ((x.pa + k) / 4 * 4) (tG ((x.pa + k) / 4 * 4))) := by
  refine ⟨⟨List.mem_singleton.2 rfl, by decide, by decide, rfl, rfl, rfl⟩, ⟨rfl, rfl⟩, rfl, by decide, ?_⟩
  intro x hx
  rw [List.mem_singleton.1 hx]
  refine ⟨by decide, by decide, rfl, fun k hk => ?_⟩
  have hk : k < 8 := hk
  rcases (by omega : (64 + k) / 4 * 4 = 64 ∨ (64 + k) / 4 * 4 = 68) with e | e <;> (simp only [tEl, e]; exact ⟨_, rfl, rfl, rfl, rfl⟩)
/-- A sector of a D page in E, M or S, and one of host memory that stays cached. -/
theorem test_met_sectorLoads : (∀ st ∈ [Mesi.e, .m, .s], let o := tAcc (.ld (tMem .unord .d)) .miss .d
      mineAlone (tL1Sec o 64 st) o ∧ (tEl .d).kind = .d ∧ hitsSector (tL1Sec o 64 st) o.cl (tEl .d).pa fun _ => 9#32) ∧
    let o := { tAcc (.ld (tMem .unord .d)) .miss .hostc with els := [{ tEl .hostc with pa := 2 ^ 48 }] }
    mineAlone (tL1Sec o (2 ^ 48) .m) o ∧ cacheGoing (tL1Sec o (2 ^ 48) .m) = false ∧ hitsSector (tL1Sec o (2 ^ 48) .m) o.cl (2 ^ 48) fun _ => 9#32 := by
  have nine : ∀ k, k < 16 → (List.replicate 16 9#32).getD k 0#32 = 9#32 := by decide
  refine ⟨fun st _ => ⟨⟨List.mem_singleton.2 rfl, fun p h _ => List.mem_singleton.1 h, (fun _ h => nomatch h), rfl, rfl, rfl⟩, rfl, _, rfl, rfl, nine⟩,
    ⟨List.mem_singleton.2 rfl, fun p h _ => List.mem_singleton.1 h, (fun _ h => nomatch h), rfl, rfl, rfl⟩, rfl, _, rfl, rfl, nine⟩
/-- LD at VA 64. -/
def tLd : Op := { tOp (.ld (tMem .unord .d)) .l1Net with a := tTok 64 }
def tLdIn : State := { tUp (tLeaf 0 0) [] with ops := [tLd], co := { (tUp (tLeaf 0 0) []).co with l1w := [tWord 64 5#32, tWord 68 6#32] } }
theorem tLdGood : Good (tLeaf 0 0) tLdIn where
  co := rfl
  link := rfl
  root := tDevGood.root
  next := tDevGood.next
theorem test_met_arrives : mineAlone tLdIn tLd ∧ checkAddr tLd = none ∧ ctxOfInst tLdIn tLd.inst = some tCtxU ∧
    Machine.translate (some (dieOf tLd.cl)) (.cluster tLd.cl) tCtxU ⟨true, false, false⟩ (accessOf tLd) tLdIn = (.ok [tEl .s], tLdIn) ∧
    ∀ k, k < 8 → hits tLdIn 0 ((64 + k) / 4 * 4) (tG ((64 + k) / 4 * 4)) := by
  refine ⟨⟨List.mem_singleton.2 rfl, by decide, by decide, rfl, rfl, rfl⟩, by decide, rfl, ?_, ?_⟩
  · have a : accessOf tLd = [(64, 8)] := by decide
    rw [a, show some (dieOf tLd.cl) = some 0 from rfl, translate_good tLdGood (.inr (.inr (.inl rfl))) ⟨rfl, rfl⟩ (die := some 0) (.cluster tLd.cl) _ [(64, 8)] (by unfold tOn; decide)]
    simp only [List.map_cons, List.map_nil, leafPa_open 0 64 (.inr (.inr (.inl rfl))) (by decide), show kindAt tLdIn 0 (0 + 64) = .s from by decide]
    rfl
  · intro k hk
    rcases (by omega : (64 + k) / 4 * 4 = 64 ∨ (64 + k) / 4 * 4 = 68) with e | e <;> (rw [e]; exact ⟨_, rfl, rfl, rfl, rfl⟩)
theorem test_met_badAddresses : 2 ^ 56 ≤ (a64 (opFiring { tLd with a := tTok (2 ^ 56) })).toNat ∧ (a64 (opFiring { tLd with a := tTok 4 })).toNat < 2 ^ 56 ∧
    (a64 (opFiring { tLd with a := tTok 4 })).toNat % sizeBytes (tMem .unord .d).size ≠ 0 := by decide
theorem test_met_done : let o := tOp (.amo .add (tMem .unord .d)) .done
    (memRecOf o.ins).isSome = true ∧ o ∈ (tHas o).ops ∧ ((tHas o).co.regOut.any fun r => r.ops.contains o.id) = false ∧
    ([({ cl := 0, pa := 64, ops := [5] } : RegOut)].any fun r => r.ops.contains o.id) = true := by decide
theorem test_met_stores : let o := { tAcc (.st (tMem .unord .d)) .miss .s with b := tTok 0x0807060504030201 }
    mineAlone (tL1 o) o ∧ (tEl .s).len = sizeBytes (tMem .unord .d).size ∧ (tEl .s).pa % 64 + (tEl .s).len ≤ 64 ∧ l1Room (tL1 o) o.cl ((tEl .s).pa / 64 * 64) = true ∧
    (∀ st ∈ [Mesi.e, .m], l1dFind (tL1Sec { o with els := [tEl .d] } 64 st) 0 ((tEl .d).pa / 64 * 64) = some (tSec0 64 st)) ∧
    mineAlone (tL1Sec { o with els := [tEl .d] } 64 .e) { o with els := [tEl .d] } :=
  ⟨⟨List.mem_singleton.2 rfl, by decide, by decide, rfl, rfl, rfl⟩, by decide, by decide, by decide, by decide, ⟨List.mem_singleton.2 rfl, by decide, by decide, rfl, rfl, rfl⟩⟩
/-- The home's L2 holds the sector. -/
def tHome (o : Op) : State := { tHas o with co := { Coh.reset with l2 := [⟨64, List.replicate 16 7#32, false, 0#16, 0⟩] } }
theorem test_met_homes : let o := tAcc (.amo .add (tMem .unord .d)) .miss .u
    mineAlone (tHome o) o ∧ homeReady (tHome o) 0 64 ∧ isRmw o.ins = true ∧ (tEl .u).len = sizeBytes (tMem .unord .d).size :=
  ⟨⟨List.mem_singleton.2 rfl, by decide, by decide, rfl, rfl, rfl⟩, ⟨⟨by decide, rfl, by decide, by decide, by decide, by decide, by decide, by decide, by decide, by decide⟩, by decide, ⟨_, rfl, rfl, rfl, rfl⟩⟩, by decide, by decide⟩
theorem test_met_atomics : (tMem .unord .d).size ≠ .v ∧ 2 ^ 64 - 1 < 2 ^ (8 * sizeBytes (tMem .unord .d).size) ∧ decodeVal b32 0x3F800000 = .fin false (2 ^ 23) (-23) ∧
    cellL 0 ≤ -23 ∧ topOf (2 ^ 23) (-23) < cellL 0 + 447 ∧ (0 : Nat) % 2 ^ 512 / 2 ^ 499 = 0 := by decide +kernel

/-! The format table, the matching stores and quiet instances -/

theorem test_met_ftset : let o := { tOp (.ftset (tMem .ord .d)) .ftset with a := tTok 0xE1707F0000000000 }
    o.ins = .ftset (tMem .ord .d) ∧ o.ph = .ftset ∧ o.err = none ∧ alone (tHas o) o ∧ (∃ n, findInst (tHas o) o.inst = some n) ∧ fmtMalformed (a64 (opFiring o)) = false ∧ fmtMalformed 1#64 = true :=
  ⟨rfl, rfl, rfl, ⟨List.mem_singleton.2 rfl, by decide, by decide, ⟨_, rfl, rfl, rfl, rfl⟩, rfl, rfl, rfl, rfl⟩, ⟨_, rfl⟩, by decide, by decide⟩
/-- FTSYNC with an operation that works with an old value of slot 0, and with none. -/
theorem test_met_ftsync : let o := { tOp (.fdiv (tFr 0#5)) .iter with cap := [(0, 1#64)] }
    noErr (tHas o) ∧ fresh (tHas o) ∧ (∃ c ∈ o.cap, c.1 = (0#5).toNat ∧ c.2 ≠ fmtOf (tHas o) (tHas o).firing.inst 0) ∧ o.inst = (tHas o).firing.inst ∧ o.id < (tHas o).nextId ∧ o.ph ≠ .acks ∧
    (∀ p ∈ tState.ops, p.inst = tState.firing.inst → ¬ ∃ c ∈ p.cap, c.1 = (0#5).toNat) := by unfold noErr fresh; decide
/-- A token for operand a of slot (0, 0, 0, 1). -/
def tFlight : Flight := ⟨1, .slot Place.zero, .cluster 0, 0, ⟨0, 0, 0, 1⟩, .a, tTok 9⟩
def tSet (p : Place) (a b : Option Tok) : Machine.PSet := ⟨p, Tag.zero, a, b, none, false, 0, []⟩
theorem test_met_arrivals : ({ tState with flights := [tFlight] } : State).flights[0]? = some tFlight ∧ (∃ n, findInst tState tFlight.inst = some n) ∧
    (∀ g ∈ [tFlight].take 0, ¬ g.inst = 1) ∧
    (¬ isOf tFlight.dst tFlight.tok.tag (tSet ⟨0, 0, 0, 2⟩ (some (tTok 1)) none)) ∧ isOf tFlight.dst tFlight.tok.tag (tSet ⟨0, 0, 0, 1⟩ none (some (tTok 1))) ∧
    (tSet ⟨0, 0, 0, 1⟩ none (some (tTok 1))).a = none :=
  ⟨rfl, ⟨_, rfl⟩, by decide, by unfold isOf; decide, ⟨rfl, rfl⟩, rfl⟩
/-- 64 sets of other waves at the PE. -/
def tCrowd : List Machine.PSet := (List.range 64).map fun k => { tSet ⟨0, 0, 0, 1⟩ none (some (tTok 1)) with tag := ⟨0#16, BitVec.ofNat 24 (k + 1)⟩ }
theorem test_met_crowded : (∀ x ∈ tCrowd, ¬ (x.place = tFlight.dst ∧ x.tag = tFlight.tok.tag) ∧ (x.a.isSome || x.b.isSome || x.c.isSome) = true) ∧
    64 ≤ (tCrowd.filter fun x => !x.spilled && decide (x.place.x = tFlight.dst.x ∧ x.place.y = tFlight.dst.y ∧ x.place.pe = tFlight.dst.pe)).length ∧
    (tInst []).spillN = 0 := by decide +kernel
def tReady (x : Machine.PSet) : Inst := { tInst [0x0E200800_00000001#64, 0x00002000_00000000#64] with sets := [x] }
theorem test_met_refill : let x := { tSet Place.zero (some (tTok 1)) none with spilled := true }
    findInst { tState with insts := [tReady x] } (tReady x).iid = some (tReady x) ∧ setComplete (tReady x) x = true := by decide
theorem test_met_age : let x := { tSet Place.zero (some (tTok 1)) none with since := 1 }
    let s : State := { tState with insts := [tReady x], time := 4096 }
    instAt s 0 = some (tReady x) ∧ x ∈ readySets (tReady x) ∧ instCl (tReady x) x.place = 0 ∧ 0 < x.since ∧ x.since + 2926 ≤ s.time + 1 ∧ 0 < (tReady x).w * (tReady x).h := by decide
/-- A quiet instance in each state of the search. -/
def tQuiet (p : Option (W64 × W64)) (act : Bool) (rcv : W64) : Inst :=
  { tInst [] with sets := [], injected := true, probe1 := p, nodes := [⟨.cluster 0, 2#64, rcv, act⟩], pkt := [] }
theorem test_met_quiet : (∀ n ∈ [tQuiet none true 2#64, tQuiet none true 1#64, tQuiet (some (2#64, 2#64)) true 2#64, tQuiet (some (2#64, 2#64)) false 2#64],
      findInst { tState with insts := [n] } n.iid = some n ∧ n.phase = .running ∧ n.injected = true ∧ n.ending = false ∧ n.sets = [] ∧ n.pkt.getD 3 0#64 = 0#64) ∧
    ((tQuiet none true 2#64).nodes.foldl (fun a c => a + c.sent) 0#64) = (tQuiet none true 2#64).nodes.foldl (fun a c => a + c.recv) 0#64 ∧
    ((tQuiet none true 1#64).nodes.foldl (fun a c => a + c.sent) 0#64) ≠ (tQuiet none true 1#64).nodes.foldl (fun a c => a + c.recv) 0#64 := by decide

/-! Tiles -/

/-- A directory entry of a ring of one (Table 12.1). -/
def tEnt (st csel fmt rows cols base : Nat) : W64 :=
  BitVec.ofNat 64 (2 ^ 62 * st + 2 ^ 56 * csel + 2 ^ 51 * fmt + 2 ^ 42 * (rows - 1) + 2 ^ 33 * (cols - 1) + 2 ^ 21 * base)
/-- Two 2 by 2 tiles of binary32 in handles 1 and 2. -/
def tTiles (st : Nat) : State :=
  { tFmt with tiles := { Tiles.reset with dir := [(1, tEnt st 3 0 2 2 0), (2, tEnt st 3 0 2 2 1)] } }
theorem test_met_tiles : noErr (tTiles 1) ∧ fresh (tTiles 1) ∧ tileOk (tTiles 1) acceptScalar (tdir (tTiles 1) 0 (sel (tTiles 1) 1#8)) ∧ tileOk (tTiles 1) acceptLanes (tdir (tTiles 1) 0 (sel (tTiles 1) 2#8)) ∧
    sel (tTiles 1) 1#8 = 1 ∧ sel (tTiles 1) 2#8 = 2 ∧ firingCl (tTiles 1) = 0 ∧ teCols (tdir (tTiles 1) 0 1) * teC (tdir (tTiles 1) 0 1) % 8 = 0 ∧ teSTATE (tdir (tTiles 1) 0 1) ≠ 0 ∧
    teSTATE (tdir (tTiles 0) 0 1) = 0 ∧ tdir (tTiles 1) 0 (sel (tTiles 1) 3#8) = 0#64 ∧ teRows (tdir (tTiles 1) 0 1) = teCols (tdir (tTiles 1) 0 2) ∧
    tileLies (tdir (tTiles 1) 0 1) ∧ apart (tdir (tTiles 1) 0 1) (tdir (tTiles 1) 0 2) := by unfold noErr fresh tileOk tileLies apart; decide
/-- A tile of a format slot that holds none. -/
theorem test_met_badTile : let s := { tTiles 1 with tiles := { Tiles.reset with dir := [(1, tEnt 1 3 31 2 2 0)] } }
    tdir s 0 1 ≠ 0#64 ∧ acceptScalar (fmtOf s 1 (teFMT (tdir s 0 1))) = false := by decide
theorem test_met_tileEnds : let o := { tOp (.ttrn 1#8 2#8 [tTgt]) .tile with n := 256 + 2, cap := [(0, b32)] }
    let s := { tTiles 1 with ops := [o] }
    mineAlone s o ∧ s.tiles.badT = [] ∧ memWf s.tiles.bytes = true ∧ o.ph = .tile :=
  ⟨⟨List.mem_singleton.2 rfl, by decide, by decide, rfl, rfl, rfl⟩, rfl, by decide, rfl⟩
/-- SPACC at element (1, 1), the last, and beyond. -/
theorem test_met_spacc : let f := tTok (2 ^ 48 + 2 ^ 32)
    (f.payload.setWidth 64 |>.extractLsb' 48 16).toNat < teRows (tdir (tTiles 1) 0 1) ∧ (f.payload.setWidth 64 |>.extractLsb' 32 16).toNat < teCols (tdir (tTiles 1) 0 1) ∧ fmtValid b32 = true ∧
    teRows (tdir (tTiles 1) 0 1) ≤ ((tTok (2 ^ 49)).payload.setWidth 64 |>.extractLsb' 48 16).toNat := by decide
/-- A TLD whose two lines of eight bytes have come. -/
def tTld : Op :=
  { tOp (.tld 1#8 [tTgt]) .done with
    act := some (1, tEnt 2 3 0 2 2 0), els := [{ tEl .s with page := 65536 }, { tEl .s with va := 96, pa := 96 }],
    got := [(64, 1#32, false), (68, 2#32, false), (96, 3#32, false), (100, 4#32, false)] }
theorem test_met_tld : tTld.ph = .done ∧ tTld.act = some (1, tEnt 2 3 0 2 2 0) ∧ tileLies (tEnt 2 3 0 2 2 0) ∧
    tTld.els.flatMap (fun z => bytesOfWords z tTld.got) = [1#8, 0#8, 0#8, 0#8, 2#8, 0#8, 0#8, 0#8, 3#8, 0#8, 0#8, 0#8, 4#8, 0#8, 0#8, 0#8].map (fun b => (b, false)) ∧
    16 = lineCount (tEnt 2 3 0 2 2 0) * lineLen (tEnt 2 3 0 2 2 0) := by unfold tileLies; decide
theorem test_met_descriptors : (tEnt 0 3 0 2 2 0 ≠ 0#64 ∧ teSTATE (tEnt 0 3 0 2 2 0) = 0 ∧ teWellFormed (tEnt 0 3 0 2 2 0) = true ∧ (255#8).toNat % 2 ^ teRING (tEnt 0 3 0 2 2 0) = 0 ∧
    (255#8).toNat + 2 ^ teRING (tEnt 0 3 0 2 2 0) ≤ 256) ∧ teSTATE (tEnt 1 3 0 2 2 0) ≠ 0 := by decide

/-! Sparse streams -/

theorem test_met_isect : (let m := { tState with firing := ⟨1, Place.zero, Tag.zero, tTok 0xFFFFFFFF00000000, tTok 0xFFFFFFFF00000000, tTok 0⟩ }
      noErr m ∧ (a64 m.firing).extractLsb' 32 32 = 0xFFFFFFFF#32 ∧ (b64 m.firing).extractLsb' 32 32 = 0xFFFFFFFF#32) ∧
    (a64 tState.firing).extractLsb' 32 32 = (b64 tState.firing).extractLsb' 32 32 ∧ (a64 tState.firing).extractLsb' 32 32 ≠ 0xFFFFFFFF#32 ∧
    (1#64 <<< 32).extractLsb' 32 32 < (2#64 <<< 32).extractLsb' 32 32 ∧ acceptLanes (entry tFmt 0#5) = true ∧ acceptLanes (entry tFmt 31#5) = false := by unfold noErr; decide
/-- A stream with its four-byte value come. -/
def tStream (k : Nat) (v : W32) : Op :=
  { tOp (.sstrm 0#5 [tTgt]) .done with act := some (k, 3#64), els := [{ tEl .s with len := 4 }], got := [(64, v, false)], cap := [(0, b32)] }
theorem test_met_streams : (loadedBytes (tStream 1 0xFFFFFFFF#32)).any (·.2) = false ∧ (loadedBytes (tStream 1 0xFFFFFFFF#32)).map (·.1) = [0xFF#8, 0xFF#8, 0xFF#8, 0xFF#8] ∧
    natOfBytes [0xFF#8, 0xFF#8, 0xFF#8, 0xFF#8] = 0xFFFFFFFF ∧ (loadedBytes (tStream 1 5#32)).map (·.1) = [5#8, 0#8, 0#8, 0#8] := by decide
theorem test_met_codes : (decodeVal b32 0x3F800000).isZero = false ∧ (decodeVal b32 0x80000000).isZero = true := by decide
theorem test_met_streamEnds : let o := { tOp (.sstrm 0#5 [tTgt]) .stream with act := some (1, 0#64), val := BitVec.ofNat 256 (2 ^ 193), n := 2 }
    (o.val.extractLsb' 192 32).toNat ≤ o.n := by decide
/-- A stream's descriptor, 32 bytes of zero, has come. -/
theorem test_met_descriptor : let o := { tOp (.sstrm 0#5 [tTgt]) .done with act := some (0, 0#64), els := [{ tEl .s with len := 32 }] }
    (loadedBytes o).any (·.2) = false ∧ natOfBytes ((loadedBytes o).map (·.1)) = 0 := by decide

/-! The matrix unit and transfers -/

/-- A is 2 by 32 and B 32 by 2, of bfloat16. -/
def tMat : State := { tFmt with tiles := { Tiles.reset with dir := [(1, tEnt 1 2 1 2 32 0), (2, tEnt 1 2 1 32 2 1)] } }
def tMma : MmaRec := ⟨3#4, 1#8, 2#8, 0xFF#8, [tTgt]⟩
theorem test_met_queues : let p : MmaParts := ⟨tMma, none, none, none, false, 0#6⟩
    Claims.mmaOf (Instr.mmaDense tMma) = some (tMma, [1#8, 2#8]) ∧ mmaParts (.mmaDense tMma) = some p ∧ fresh tMat ∧ noErr tMat ∧ (∀ h ∈ [1#8, 2#8], tdir tMat 0 (sel tMat h) ≠ 0#64) ∧
    (∀ k ∈ mmaFormats tMat (.mmaDense tMma) tMma, k.2 = true) ∧ mmaShapesFit tMat (.mmaDense tMma) tMma = true ∧ tdir tState 0 (sel tState 1#8) = 0#64 := by unfold fresh noErr; decide +kernel
/-- B in a container that is not its format's, and B with too few rows. -/
def tMatWith (e : W64) : State := { tMat with tiles := { tMat.tiles with dir := [(1, tEnt 1 2 1 2 32 0), (2, e)] } }
theorem test_met_queuesFail : (let s := tMatWith (tEnt 1 3 1 32 2 1)
      fresh s ∧ noErr s ∧ (∀ h ∈ [1#8, 2#8], tdir s 0 (sel s h) ≠ 0#64) ∧ (mmaFormats s (.mmaDense tMma) tMma).find? (fun k => !k.2) = some (1, false)) ∧
    let s := tMatWith (tEnt 1 2 1 16 2 1)
    (∀ h ∈ [1#8, 2#8], tdir s 0 (sel s h) ≠ 0#64) ∧ (∀ k ∈ mmaFormats s (.mmaDense tMma) tMma, k.2 = true) ∧ mmaShapesFit s (.mmaDense tMma) tMma = false := by unfold fresh noErr; decide +kernel
def tRun (ph : Phase) : Op := { tOp (.mmaDense tMma) ph with act := some (3, 0#64), left := [1, 2, 1000, 1000, 1000, 1000, 1000], cap := [(1, 0xE0707F0000000000#64)] }
theorem test_met_starts : let s := { tMat with ops := [tRun .mmaQ] }
    s.ops = [] ++ tRun .mmaQ :: [] ∧ (tRun .mmaQ).cl = 0 ∧ (∀ p ∈ s.ops, p.cl = 0 → p.ph ≠ .mmaRun) ∧ s.pwr.prs.getD (dieOf 0) 0#4 ≠ 3#4 := by decide
theorem test_met_completes : let s := { tMat with ops := [tRun .mmaRun] }
    mineAlone s (tRun .mmaRun) ∧ s.tiles.badT = [] ∧ s.tiles.badA = [] ∧ teCols (tdir s 0 1) = teRows (tdir s 0 2) ∧ teRows (tdir s 0 2) % 16 = 0 :=
  ⟨⟨List.mem_singleton.2 rfl, by decide, by decide, rfl, rfl, rfl⟩, rfl, rfl, by decide, by decide⟩
theorem test_met_blocks : ∀ v ∈ [Val.fin true 3 2, Val.zero false], v.isFinite = true ∧ above 1 v := by
  intro v h; simp only [List.mem_cons, List.not_mem_nil, or_false] at h; rcases h with rfl | rfl
  · exact ⟨rfl, by unfold above; decide⟩
  · exact ⟨rfl, trivial⟩

def tXr : XferRec := ⟨0#5, false, tSeq, [tTgt]⟩
/-- A transfer's request of quarters 0 to 2 under CTAG 0. -/
def tReq (a b c : Nat) : W256 := BitVec.ofNat 256 (a + 2 ^ 64 * b + 2 ^ 128 * c)
def tXfer (i : Instr) (ph : XPhase) (req : W256) (els : Option (List El)) : Xfer :=
  { id := 5, inst := 1, ctx := 0, place := Place.zero, tag := Tag.zero, ins := i, req := req, as_ := false, deps := [], cap := [], cl := 0, ph := ph, arr := 0, chain := 0, seqNo := 0,
    rd := [], wr := [], hsel := 1, entry := 0#64, next := 0, idx := [], els := els, psnFrom := none, err := none, fl := 0#5, pins := [], act := none, todo := 0, replay := 0, ahead := [] }
def tMoves (x : Xfer) : State := { tMat with xfers := [x], co := { Coh.reset with l2 := [⟨64, zeroSec, false, 0#16, 0⟩, ⟨128, zeroSec, false, 0#16, 0⟩] } }
theorem test_met_transfers : isXfer (.xfill tXr) = true ∧ fresh tState ∧
    (let o := tOp (.xfill tXr) .wouNet
     alone (tHas o) o ∧ linksNow (thrOf (tHas o) 1 0#16) o ∧ ((tHas o).xfers.filter fun x => decide (x.ph = .port ∧ x.cl = o.cl)).length < 32) :=
  ⟨by decide, by unfold fresh; decide, ⟨List.mem_singleton.2 rfl, by decide, by decide, ⟨_, rfl, rfl, rfl, rfl⟩, rfl, rfl, rfl, rfl⟩, ⟨rfl, rfl⟩, by decide⟩
/-- An XFILL of 8 bytes at 64, and an XCOPY of 8 bytes from 128 to 64, at their first chunk and after the last. -/
theorem test_met_chunks : let x := tXfer (.xfill tXr) .running (tReq 64 7 8) (some [tEl .u])
    let y := tXfer (.xcopy tXr) .running (tReq 128 64 8) (some [{ tEl .u with va := 128, pa := 128 }, tEl .u])
    (x ∈ (tMoves x).xfers ∧ 0 < len x ∧ 8 = min (quarter x 0 + len x) ((quarter x 0 / 256 + x.next + 1) * 256) - max (quarter x 0) ((quarter x 0 / 256 + x.next) * 256)) ∧
    (0 < len y ∧ 8 = min (quarter y 1 + len y) ((quarter y 1 / 256 + y.next + 1) * 256) - max (quarter y 1) ((quarter y 1 / 256 + y.next) * 256) ∧
      (∀ i, i < 8 → ∀ k, k < 8 → sectorOf (128 + i) ≠ sectorOf (64 + k)) ∧ (quarter y 0) / 65536 = (quarter y 0 + 8 - 1) / 65536) ∧
    (len (tXfer (.xfill tXr) .running (tReq 64 7 0) none) = 0 ∧ (quarter x 0 + len x - 1) / 256 - quarter x 0 / 256 + 1 ≤ 1) := by decide
theorem test_met_chunkPlaces : let x := tXfer (.xcopy tXr) .running (tReq 128 64 8) none
    ∀ p ∈ [64, 128], ∀ k, k < 8 → homeReady (tMoves x) 0 (p + k) := by
  intro x p h k hk
  have e : sectorOf (p + k) = p := by
    simp only [List.mem_cons, List.not_mem_nil, or_false] at h; unfold sectorOf; rcases h with rfl | rfl <;> omega
  unfold homeReady quiet
  rw [e]
  simp only [List.mem_cons, List.not_mem_nil, or_false] at h
  rcases h with rfl | rfl <;>
    exact ⟨⟨by decide, rfl, by decide, by decide, by decide, by decide, by decide, by decide, by decide, by decide⟩, by decide, ⟨_, rfl, rfl, rfl, rfl⟩⟩
theorem test_met_finish : let x := { tXfer (.xfill tXr) .finish (tReq 64 7 8) none with act := some 0 }
    x.ph = .finish ∧ x.err = none ∧ (ctag x).thr = x.tag.thr ∧ x.act = some 0 := by decide
theorem test_met_admission : let x := tXfer (.xcopy tXr) .port (tReq (2 ^ 56 - 8) 64 8) none
    (∃ n, findInst (tMoves x) x.inst = some n ∧ n.phase = .running ∧ n.ending = false) ∧ (∀ y ∈ (tMoves x).xfers, y.ph = .port → y.cl = x.cl → y.id = x.id) ∧
    ((tMoves x).xfers.filter fun y => decide (y.ctx = x.ctx ∧ y.ph ≠ .port)).length < 1024 ∧ quarter x 0 < 2 ^ 56 ∧ quarter x 1 < 2 ^ 56 ∧ quarter x 2 < 2 ^ 40 ∧ ctl x = 0#24 ∧
    quarter x 0 + len x ≤ 2 ^ 56 ∧ quarter x 1 + len x ≤ quarter x 0 ∧ (ctag x).thr = x.tag.thr ∧ 2 ^ 56 ≤ quarter (tXfer (.xfill tXr) .port (tReq (2 ^ 56) 64 8) none) 0 :=
  ⟨⟨_, rfl, rfl, rfl⟩, by decide⟩
theorem test_met_engines : let x := tXfer (.xfill tXr) .admitted (tReq 64 7 8) none
    x.ph = .admitted ∧ x.act = none ∧ ∀ y ∈ (tMoves x).xfers, y.id ≠ x.id → y.ph = .port ∧ y.act = none := by decide
/-- An XTILE that loads into handle 1, which is EMPTY, and one that stores from it, FULL. -/
def tClaim (st b : Nat) : Xfer := { tXfer (.xtile tXr) .claim (tReq 64 b 0) none with entry := tEnt st 2 1 2 32 0 }
def tClaims (st b : Nat) : State := { tMoves (tClaim st b) with tiles := { Tiles.reset with dir := [(1, tEnt st 2 1 2 32 0)] } }
theorem test_met_claims : ∀ p ∈ [(0, 1), (1, 2 ^ 63 + 1)], (tClaim p.1 p.2).hsel < 256 ∧ clusterAt (0 + quarter (tClaim p.1 p.2) 1 / 2 ^ 40 % 32) (0 + quarter (tClaim p.1 p.2) 1 / 2 ^ 36 % 16) = 0 ∧
    tdir (tClaims p.1 p.2) 0 1 ≠ 0#64 ∧ (tdir (tClaims p.1 p.2) 0 1).extractLsb' 0 62 = (tClaim p.1 p.2).entry.extractLsb' 0 62 ∧ teSTATE (tdir (tClaims p.1 p.2) 0 1) = p.1 ∧
    acceptScalar (fmtOf (tClaims p.1 p.2) 1 (teFMT (tdir (tClaims p.1 p.2) 0 1))) = true ∧ containerOf (fmtOf (tClaims p.1 p.2) 1 (teFMT (tdir (tClaims p.1 p.2) 0 1))) = teC (tdir (tClaims p.1 p.2) 0 1) ∧
    tReaders (tClaims p.1 p.2) 0 1 = 0 ∧ (quarter (tClaim p.1 p.2) 1 < 2 ^ 63 ∨ 2 ^ 63 ≤ quarter (tClaim p.1 p.2) 1) := by decide
/-- The same tile, which a ready TZERO of a PE selects, or none; and the die under easy pressure. -/
def tClaimI (l : List Machine.PSet) : Inst := { tInst [0x0100080000000000#64, 0x0000100000000000#64] with slots := [(Place.zero, encode (.tzero 1#8 [tTgt]))], sets := l }
def tClaimS (l : List Machine.PSet) (r : BitVec 4) : State := { tClaims 0 1 with insts := [tClaimI l], pwr := { Power.reset false with prs := [r, r, r, r] } }
theorem test_met_claimTurn : takesEntry (tClaimS [tSet Place.zero (some (tTok 1)) none] 0#4) 0 1 ∧ ¬ takesEntry (tClaimS [] 0#4) 0 1 ∧ (tClaimS [] 0#4).pwr.prs.getD (dieOf 0) 0#4 ≠ 3#4 ∧ (tClaimS [] 3#4).pwr.prs.getD (dieOf 0) 0#4 = 3#4 := by
  refine ⟨⟨tClaimI [tSet Place.zero (some (tTok 1)) none], 0, tSet Place.zero (some (tTok 1)) none, .tzero 1#8 [tTgt], rfl, by decide, by decide, rfl, rfl, by decide⟩, ?_, by decide, by decide⟩
  rintro ⟨n, k, y, q, hn, -, -, hc, -⟩
  have e : n = tClaimI [] := (Option.some.inj ((show instAt (tClaimS [] 0#4) 0 = some (tClaimI []) from rfl).symm.trans hn)).symm
  subst e
  exact nomatch ((show chosen (tClaimS [] 0#4) (tClaimI []) 0 k = none from rfl).symm.trans hc)


/-! Coherence: word 1 of the sector at 256, between the L1s of clusters 0 and 3 and its home on die 0 -/

def tMsg (src dst : Agent) (b : Body) : Msg := ⟨src, dst, 256, 0, b, false⟩
def tL2 : L2Sec := ⟨256, List.replicate 16 7#32, false, 0#16, 0⟩
def tReg (c : Nat) : RegRec := ⟨none, 256, BitVec.ofNat 7 c, 0#7, false, (List.replicate 16 0#2).set 1 1#2, [], 0#4⟩
def tOwn (c : Nat) (st : WSt) : L1Word := ⟨c, 0, 260, 260, st, 5#32, 0, 0xF#4, 1#4, false, false, none, false⟩
def tCo (m : Msg) (c : Coh) : State := { tState with co := { c with msgs := [m] } }
def tHeld : Coh := { Coh.reset with l2 := [tL2] }
theorem test_met_reaches (m : Msg) (c : Coh) : reaches (tCo m c) 0 m ∧ homeDie 256 = 0 / 128 ∧ homeDie 256 = 3 / 128 ∧ 256 % 64 = 0 ∧ isDevice 256 = true :=
  ⟨⟨rfl, fun _ h => nomatch h⟩, by decide⟩
theorem test_met_registration : let m := tMsg (.l1 0) .home (.reg [(1, 0xF#4)])
    inL2 (tCo m tHeld) 256 0 tL2 ∧ hostHolds (tCo m tHeld) 256 = false ∧ tL2.pz.getLsbD 1 = false ∧ (∀ r ∈ (tCo m tHeld).co.reg, r.pa ≠ 256) ∧
    regGet (tCo m { tHeld with reg := [tReg 3] }) none 256 = tReg 3 ∧ (tReg 3).owna = BitVec.ofNat 7 (3 % 128) ∧ (3 : Nat) ≠ 0 :=
  ⟨⟨rfl, rfl, rfl⟩, by decide⟩
theorem test_met_revoke : let m := tMsg .home (.l1 0) (.revoke [1])
    l1wFind (tCo m { tHeld with l1w := [tOwn 0 .o] }) 0 260 = some (tOwn 0 .o) ∧ (tOwn 0 .o).st = .o := ⟨rfl, rfl⟩
theorem test_met_revokeAnswer : let m := tMsg (.l1 3) .home (.answer [(1, Part.full 5#32 false)] false)
    (tCo m { tHeld with gwait := [⟨none, 260, .l1 0, .l1 3, none, none, false⟩] }).co.gwait = [{ rdc := none, pa := 256 + 4 * 1, dest := .l1 0, from_ := .l1 3, ans := none, base := none, up := false }] := rfl
theorem test_met_grant : let m := tMsg .home (.l1 0) (.grant [(1, 5#32, false)])
    l1wFind (tCo m { tHeld with l1w := [tOwn 0 .p], regOut := [⟨0, 260, [5]⟩] }) 0 260 = some (tOwn 0 .p) ∧
    noneKept (tCo m { tHeld with l1w := [tOwn 0 .p], regOut := [⟨0, 260, [5]⟩] }) ∧ ∀ z ∈ [tOwn 0 .p, { tOwn 0 .p with evict := true }], z.prev = none :=
  ⟨rfl, (fun _ h => nomatch h), by decide⟩
theorem test_met_writeBack : let m := tMsg (.l1 3) .home (.wb [(1, 5#32, false)])
    (let x := tMsg .home (.l1 3) (.fwd 5 0 [1] [])
     [x] = [x] ∧ x.src = .home ∧ x.dst = .l1 3 ∧ x.pa = 256 ∧ x.body = .fwd 5 0 [1] []) ∧
    homeOwner (tCo m { tHeld with reg := [tReg 3] }) 256 1 = some (.l1 3) ∧ inL2 (tCo m { tHeld with reg := [tReg 3] }) 256 0 tL2 := ⟨⟨rfl, rfl, rfl, rfl, rfl⟩, by decide, rfl, rfl, rfl⟩
theorem test_met_homeRead : let m := tMsg (.l1 0) .home (.read 5 0 [1])
    hostHolds (tCo m tHeld) 256 = false ∧ homeOwner (tCo m tHeld) 256 1 = none ∧ inL2 (tCo m tHeld) 256 0 tL2 ∧ homeOwner (tCo m { tHeld with reg := [tReg 3] }) 256 1 = some (.l1 3) ∧ inL2 (tCo m { tHeld with reg := [tReg 3] }) 256 0 tL2 :=
  ⟨by decide, by decide, ⟨rfl, rfl, rfl⟩, by decide, rfl, rfl, rfl⟩
theorem test_met_fill : let o := tOp (.ld (tMem .unord .w)) .done
    o ∈ (tHas o).ops ∧ o.stale = false ∧ ({ o with stale := true } : Op).stale = true ∧ l1wFind (tCo (tMsg .home (.l1 0) (.fill 5 [(1, 5#32, false)])) { tHeld with l1w := [tOwn 0 .p] }) 0 260 = some (tOwn 0 .p) ∧
    l1wFind (tHas o) 0 260 = none := ⟨List.mem_singleton.2 rfl, rfl, rfl, rfl, rfl⟩

/-! A D-page sector at 256 -/

def tDir (c : Nat) : DirEnt := ⟨none, 256, true, 1#128 <<< c, 0⟩
def tSec (c : Nat) (st : Mesi) : L1Sec := ⟨c, 0, 256, 256, st, 0, List.replicate 16 9#32, 0#16⟩
theorem test_met_settled (m : Msg) (l : List DirEnt) : settled (tCo m { tHeld with dir := l }) 256 ∧ dirbOf (tCo m { tHeld with dir := l }) 256 = 0#8 ∧ inL2 (tCo m { tHeld with dir := l }) 256 0 tL2 :=
  ⟨⟨(fun _ h => nomatch h), (fun _ h => nomatch h), rfl, (fun _ h => nomatch h)⟩, rfl, rfl, rfl, rfl⟩
theorem test_met_directory : ([tDir 3].length < 16 ∧ (tDir 3).holders = 1#128 <<< 3 ∧ 3 ≠ 0 % 128) ∧ l1dFind (tCo (tMsg .home (.l1 0) .inval) { tHeld with l1d := [tSec 0 .m] }) 0 256 = some (tSec 0 .m) := by decide
theorem test_met_returned : let m := tMsg (.l1 3) .home (.dret (some (List.replicate 16 9#32, 0#16)) true false)
    let q := tMsg (.l1 0) .home (.dreq .excl)
    let s := tCo m { tHeld with dwait := [⟨none, 256, some q, [.l1 3]⟩], dir := [tDir 3] }
    (∀ x ∈ s.co.dirRec, x.1 ≠ 256) ∧ (∀ b ∈ s.co.bisnp, b.1 ≠ 256) ∧ hostHolds s 256 = false ∧ inL2 s 256 0 tL2 ∧ 0 / 128 = 3 / 128 ∧ s.co.dwait = [{ rdc := none, pa := 256, req := some q, need := [.l1 3] }] :=
  ⟨(fun _ h => nomatch h), (fun _ h => nomatch h), rfl, ⟨rfl, rfl, rfl⟩, rfl, rfl⟩
theorem test_met_lost : let s := { tState with co := { tHeld with l1w := [tOwn 0 .o], reg := [tReg 0] } }
    s.ras.ctrs.length = 14 ∧ s.co.l1w.filter (fun p => decide (p.cl = 0 ∧ sectorOf p.pa = 256)) = [tOwn 0 .o] ∧ homeOwner s 256 1 = some (.l1 0) ∧ inL2 s 256 0 tL2 ∧
    (∃ n d, instAt s 0 = some n ∧ findInst s n.iid = some n ∧ findCtx s n.ctx = some d) ∧ (∀ p ∈ [tOwn 0 .v], p.cl = 0 → sectorOf p.pa = 256 → p.st = .v) ∧
    l1dFind { s with co := { s.co with l1d := [tSec 0 .e] } } 0 256 = some (tSec 0 .e) ∧ 2 ^ 20 - 1 < 2 ^ 20 :=
  ⟨by decide, by decide, by decide, ⟨rfl, rfl, rfl⟩, ⟨_, _, rfl, rfl, rfl⟩, by decide, rfl, by decide⟩
theorem test_met_line : ofLine 256 256 ∧ ofLine 256 448 := ⟨⟨rfl, 0, by decide, rfl⟩, ⟨rfl, 3, by decide, rfl⟩⟩
theorem test_met_l1Evictions : let s := { tState with co := { tHeld with l1d := [tSec 0 .m] } }
    (l1dFind s 0 256 = some (tSec 0 .m) ∧ homeDie 256 = 0 / 128 ∧ (∀ p ∈ s.co.l1d, p.cl = 0 → p.pa = 256 ∨ p.pa / 256 * 256 ≠ 256) ∧ ∀ p ∈ s.co.l1w, p.cl = 0 → p.pa / 256 * 256 ≠ 256) ∧
    (∀ p ∈ [tOwn 0 .v], p.cl = 0 → p.pa / 256 * 256 = 256 → p.st = .v) ∧ ∀ o ∈ s.ops, o.snap = [] := by decide
theorem test_met_l2Evictions : let y : L2Sec := { tL2 with dirty := true }
    let s : State := { tState with co := { Coh.reset with l2 := [y] } }
    l2Find s 256 = some y ∧ y.data.length = 16 ∧ memWf s.mem = true ∧ (∀ p ∈ s.co.l2, p.pa = 256 ∨ p.pa / 256 * 256 ≠ 256) ∧ quiet s 256 :=
  ⟨rfl, by decide, by decide, by decide, by decide, rfl, by decide, by decide, by decide, by decide, by decide, by decide, by decide, by decide⟩
def tRdc : RdcSec := ⟨0, 2 ^ 48, .m, 0, List.replicate 16 9#32, 0#16⟩
theorem test_met_rdcEvictions : let s : State := { tState with co := { Coh.reset with rdc := [tRdc], snoop := [(2 ^ 48, 1#4)] } }
    ofLine (2 ^ 48) (2 ^ 48) ∧ isHost (2 ^ 48) = true ∧ tRdc.data.length = 16 ∧ memWf s.mem = true ∧ quiet { s with co := { s.co with rdc := [] } } (2 ^ 48) ∧ (2 ^ 48, 1#4) ∈ s.co.snoop :=
  ⟨⟨by decide, 0, by decide, by decide⟩, by decide, by decide, by decide, ⟨by decide, rfl, by decide, by decide, by decide, by decide, by decide, by decide, by decide, by decide⟩, by decide⟩

/-! The host link, the fabric and errors -/

def tFlit (p : Nat) : Flit := ⟨p, 5, 0, 0, 7#20, false⟩
def tFab (p : Nat) (fails : Nat) : State := { tState with fab := { Fabric.reset with up := 1#96 <<< p, fails := [(p, fails)], flits := [tFlit p] } }
theorem test_met_ports : ∀ p ∈ [0, 95], (tFab p 8).fab.up.getLsbD p = true ∧ (tFab p 8).fab.flits = [] ++ tFlit p :: [] ∧ assocGet 0 (tFab p 8).fab.fails p = 8 ∧ assocGet 0 (tFab p 9).fab.fails p = 9 ∧
    (tFab p 8).ras.ctrs.length = 14 := by decide
theorem test_met_twoPorts : (1#96 <<< 95 ||| 1#96 <<< 0) = (1#96 <<< 95) ||| (1#96 <<< 0) ∧ 0 ≠ 95 ∧ 95 < 96 := by decide
theorem test_met_cut : let s : State := { tState with fab := { Fabric.reset with cut := [(7#20, 3)] }, time := 100000003 }
    s.fab.up = 0#96 ∧ (7#20, 3) ∈ s.fab.cut ∧ 3 + 100000000 ≤ s.time := by decide
theorem test_met_refusal : let o := { tAcc (.ld (tMem .unord .d)) .miss .peer with els := [{ tEl .peer with pa := 2 ^ 52 + 7 * 2 ^ 40 }] }
    mineAlone (tHas o) o := ⟨List.mem_singleton.2 rfl, by decide, by decide, rfl, rfl, rfl⟩
def tHomes : State := { tMat with co := { Coh.reset with l2 := [⟨64, zeroSec, false, 0#16, 0⟩] } }
theorem tHomesReady (k : Nat) (h : k < 64) : homeReady tHomes 0 (64 + k) := by
  have e : sectorOf (64 + k) = 64 := by unfold sectorOf; omega
  unfold homeReady quiet
  rw [e]
  exact ⟨⟨by decide, rfl, by decide, by decide, by decide, by decide, by decide, by decide, by decide, by decide⟩, by decide, ⟨_, rfl, rfl, rfl, rfl⟩⟩
theorem test_met_inbound : let s := { tHomes with fab := { Fabric.reset with nv := true, lsin := true, nodeid := 5#20 } }
    s.fab.nv = true ∧ s.fab.lsin = true ∧ (3#20).extractLsb' 14 6 = s.fab.nodeid.extractLsb' 14 6 ∧ (0x4000#20).extractLsb' 14 6 ≠ s.fab.nodeid.extractLsb' 14 6 ∧
    ∀ i ∈ s.inbox, ∀ b, i ≠ .inboundAccess b := ⟨rfl, rfl, by decide, by decide, (fun _ h => nomatch h)⟩
theorem test_met_errs : devicePresent tState 64 = true ∧ l2Find tState 64 = none ∧ settled tState 64 ∧ tState.link.mem = false ∧ tState.ras.ctrs.length = 14 ∧
    tState.fe.loaded = false ∧ tState.ras.inten = false := ⟨by decide, rfl, ⟨(fun _ h => nomatch h), (fun _ h => nomatch h), rfl, (fun _ h => nomatch h)⟩, rfl, rfl, rfl, rfl⟩
theorem test_met_keys : ∀ p ∈ [(0#8, 1#2), (0#8, 2#2), (255#8, 1#2), (255#8, 2#2)],
    let s : State := { tState with ras := { Ras.reset with kbusy := true, ksel := p.1, kcmd := p.2 } }
    s.ras.kbusy = true ∧ (s.ras.ksel = 0#8 ∨ s.co.rdc = [] ∧ ∀ x ∈ s.co.l2, x.key % 256 ≠ s.ras.ksel.toNat) ∧ (s.ras.kcmd = 1#2 ∨ s.ras.kcmd = 2#2) := by decide +kernel
/-- The link in a CXL mode with CACHE and MEM, and a die's modified host sector. -/
def tCxl (cache mem : Bool) (r : List RdcSec) : State :=
  { tState with link := { Link.reset with mode := 2#2, cache := cache, mem := mem }, co := { Coh.reset with rdc := r } }
theorem test_met_link : (cxl (tCxl false false []) ∧ (tCxl false false []).link.cache = false ∧ (tCxl true true []).link.cache = true ∧ (tCxl true true []).link.mem = true) ∧
    (tCxl true true []).co.dirb = [] ∧ Instr.cacheClear ∉ (tCxl true true []).inbox ∧ tState.link.mode ≠ 1#2 ∧ tState.link.mode ≠ 2#2 := by unfold cxl; decide
theorem test_met_snoops : dieHolds (tCxl true false [tRdc]) 0 (2 ^ 48) tRdc ∧ cxl (tCxl true false [tRdc]) ∧ memWf (tCxl true false [tRdc]).mem = true :=
  ⟨⟨by decide, by decide, rfl, rfl, rfl, rfl, rfl, ⟨by decide, rfl, by decide, by decide, by decide, by decide, by decide, by decide, by decide, by decide⟩⟩, rfl, by decide⟩
theorem test_met_go : let s : State := { tCxl true false [] with co := { Coh.reset with rdcReq := [(0, 2 ^ 48, .shared)] } }
    s.co.rdcReq = [(0, 2 ^ 48, .shared)] ∧ rdcFind s 0 (2 ^ 48) = none ∧ (⟨List.replicate 64 1#8, true⟩ : HostData).bytes.length = 64 := by decide
theorem test_met_bisnp : let s : State := { tCxl true true [] with co := { tHeld with bisnp := [(256, true)], dirb := [(256, 0x0B#8)] } }
    s.co.bisnp = [(256, true)] ∧ inL2 s 256 0 tL2 ∧ (∀ x ∈ s.co.dirRec, x.1 ≠ 256) ∧ (∀ w ∈ s.co.dwait, w.pa ≠ 256) ∧ dirbOf s 256 = 0x0B#8 :=
  ⟨rfl, ⟨rfl, rfl, rfl⟩, (fun _ h => nomatch h), (fun _ h => nomatch h), by decide⟩
theorem test_met_hostAccess : let a : HostAcc := ⟨2 ^ 48 + 60, 8, some (List.replicate 8 1#8), false, false, false, 0⟩
    cxl (tCxl true true []) ∧ isHost a.pa = true ∧ isHost (a.pa + a.len - 1) = true ∧ (List.replicate 8 1#8).length = a.len ∧ ∀ i ∈ (tCxl true true []).inbox, isHostAcc i = false :=
  ⟨rfl, by decide, by decide, rfl, (fun _ h => nomatch h)⟩

/-! A packet, the root RCB at 0x800 and RCBs under it at 0x900 (no instance), 0x940 (one) and 0x980 (no weight), and at 0x1000 an image of one cluster, every slot of which holds PASS to slot 1; at 0x4000 and 0x5000 the headers of images of 32 by 15 and 32 by 16 clusters;
at 0x3000 and 0x3040 the descriptors of a full and an empty fault queue, at 0x3100 a context's, at 0x3180 a queue's -/

def tWords : List (Nat × W64) :=
  let h := 2 ^ 48
  [(h, BitVec.ofNat 64 (2 ^ 56)), (h + 8, 0x1000#64), (h + 16, 0x800#64), (h + 0x808, BitVec.ofNat 64 (512 * 2 ^ 32 + 100 * 2 ^ 42 + 2 ^ 24 + 2 ^ 17)),
   (h + 0x1000, BitVec.ofNat 64 (2 ^ 56 + 2 ^ 48 + 2 ^ 32 + 0x315A4F53)), (h + 0x1010, BitVec.ofNat 64 (2 ^ 32 * 1088 + 64)), (h + 0x1018, 16#64), (h + 0x1028, BitVec.ofNat 64 (2 ^ 32 + 1104)),
   (h + 0x1440, 0x0100080000000000#64), (h + 0x1448, 0x0000100000000000#64), (h + 0x4000, BitVec.ofNat 64 (2 ^ 56 * 15 + 2 ^ 53 + 2 ^ 32 + 0x315A4F53)), (h + 0x4010, BitVec.ofNat 64 (2 ^ 32 * 491584 + 64)), (h + 0x4018, 16#64),
   (h + 0x4028, BitVec.ofNat 64 (2 ^ 32 + 491600)), (h + 0x5000, BitVec.ofNat 64 (2 ^ 56 * 16 + 2 ^ 53 + 2 ^ 32 + 0x315A4F53)), (h + 0x5010, BitVec.ofNat 64 (2 ^ 32 * 524352 + 64)), (h + 0x5018, 16#64),
   (h + 0x5028, BitVec.ofNat 64 (2 ^ 32 + 524368)),
   (h + 0x3000, 16#64), (h + 0x3058, 0xFFFF0004#64), (h + 0x3108, BitVec.ofNat 64 tRoot), (h + 0x3110, 0x3040#64), (h + 0x3208, BitVec.ofNat 64 tRoot), (h + 0x3198, 4#64), (h + 0x900, 0x800#64), (h + 0x908, BitVec.ofNat 64 (512 * 2 ^ 32 + 2 ^ 24 + 2 ^ 17)),
   (h + 0x940, 0x800#64), (h + 0x948, BitVec.ofNat 64 (512 * 2 ^ 32 + 2 ^ 42 + 2 ^ 24 + 2 ^ 17)), (h + 0x980, 0x800#64), (h + 0x988, BitVec.ofNat 64 (512 * 2 ^ 32 + 2 ^ 17))]
def tCtxH : Ctx := { tCtxU with rootRcb := 0x800#64, saveSz := 30000 }
def tPkt : List W64 := [BitVec.ofNat 64 (2 ^ 56), 0x1000#64, 0x800#64, 0#64, 0#64, 0#64, 0#64, 0#64]
def tHdr : List W64 := [BitVec.ofNat 64 (2 ^ 56 + 2 ^ 48 + 2 ^ 32 + 0x315A4F53), 0#64, BitVec.ofNat 64 (2 ^ 32 * 1088 + 64), 16#64, 0#64, BitVec.ofNat 64 (2 ^ 32 + 1104), 0#64, 0#64]
@[irreducible] def tStore : Memory := tTable (tLeaf 0 (2 ^ 48)) tWords
/-- The front end f, with one context, over that memory. -/
def tHost (insts : List Inst) (time : Nat) (f : Front) : State := { tUp (tLeaf 0 (2 ^ 48)) [] with mem := tStore, insts := insts, time := time, fe := { f with ctxs := [tCtxH] } }
theorem tHostRoot : (List.range 8).map (fun i => memGet tStore (tRoot + i)) = bytesOfNat (2 ^ 63 + tRoot + 65536) 8 := by decide +kernel
theorem tHostNext : (List.range 8).map (fun i => memGet tStore (tRoot + 65536 + i)) = bytesOfNat (tLeaf 0 (2 ^ 48)).toNat 8 := by decide +kernel
theorem tHostGood (insts : List Inst) (time : Nat) (f : Front) : Good (tLeaf 0 (2 ^ 48)) (tHost insts time f) where
  co := rfl
  link := rfl
  root := tHostRoot
  next := tHostNext
theorem tCtxIn : tIn tCtxH := ⟨rfl, rfl⟩
/-- Bytes of the page. -/
def tByte (va i : Nat) : Byte := memGet tStore (2 ^ 48 + va + i)
def tBytes (va n : Nat) : List (Byte × Bool) := (List.range n).map fun i => (tByte va i, false)
theorem tReadN (insts : List Inst) (time : Nat) (f : Front) (n : Need) (va len : Nat) (h0 : 0 < len) (h1 : va % 65536 + len ≤ 65536) (h : va + len ≤ 2 ^ 33) :
    sysReadN none tCtxH n va len (tHost insts time f) = (.ok (tBytes va len), tHost insts time f) :=
  sysReadN_host (tHostGood insts time f) tCtxIn n va len h0 h1 h
theorem tNoPoison (va w n : Nat) : sysPoison w (tBytes va n) = none := by
  unfold sysPoison tBytes
  have : ((List.range n).map fun i => (tByte va i, false)).findIdx? (fun x => x.2) = none := by
    rw [List.findIdx?_eq_none_iff]; intro x hx; obtain ⟨i, -, rfl⟩ := List.mem_map.1 hx; rfl
  rw [this]; rfl
theorem tImgRead (insts : List Inst) (time : Nat) (f : Front) (base off len rep : Nat) (h0 : 0 < len) (h1 : base + off + len ≤ 0x8000) :
    imgRead tCtxH base off len rep (tHost insts time f) = (.ok (tBytes (base + off) len), tHost insts time f) := by
  unfold imgRead
  rw [tReadN insts time f needImg _ len h0 (by omega) (by omega)]
  simp only [tNoPoison]
def tSlotRd : SlotRd := .ok 1088 [0x0100080000000000#64, 0x0000100000000000#64] (.pass tCtl)
theorem tReadSlot (insts : List Inst) (time : Nat) (f : Front) (k : Nat) (hk : k < 256) : readSlot tCtxH 0x1000 tHdr k (tHost insts time f) = (tSlotRd, tHost insts time f) := by
  have z : ∀ k, k < 256 → natOfBytes ((tBytes (0x1000 + (64 + 4 * k)) 4).map (·.1)) = 0 := by decide +kernel
  unfold readSlot
  simp only [show hdrIdxOff tHdr = 64 from by decide, tImgRead insts time f 0x1000 (64 + 4 * k) 4 _ (by decide) (by omega), z k hk, show hdrRecOff tHdr = 1088 from by decide, show (0 : Nat) ≠ 0xFFFFFFFF from by decide, if_false]
  unfold readRecord
  simp only [show hdrRecOff tHdr = 1088 from by decide, show hdrRecLen tHdr = 16 from by decide, Nat.mul_zero, Nat.add_zero, tImgRead insts time f 0x1000 1088 8 _ (by decide) (by decide),
    show dwAt (tBytes (0x1000 + 1088) 8) 0 = 0x0100080000000000#64 from by decide +kernel, show ¬ (1088 + 16 < 1088 + 8) from by decide, if_false]
  simp only [show recordLen (rawOfWords [0x0100080000000000#64]).xi (if (rawOfWords [0x0100080000000000#64]).nt.toNat ≤ 4 then (rawOfWords [0x0100080000000000#64]).nt.toNat else 0) = 2 from by decide,
    show ¬ (1088 + 16 < 1088 + 8 * 2) from by decide, if_false, tImgRead insts time f 0x1000 1088 (8 * 2) _ (by decide) (by decide)]
  simp only [show dwords (tBytes (0x1000 + 1088) (8 * 2)) = [0x0100080000000000#64, 0x0000100000000000#64] from by decide +kernel,
    show decodeBody [0x0100080000000000#64, 0x0000100000000000#64] = .ok (.pass tCtl) from by rfl]
  rfl
theorem tReadSlots (insts : List Inst) (time : Nat) (f : Front) : ∀ l : List Nat, (∀ k ∈ l, k < 256) →
    readSlots tCtxH 0x1000 tHdr l (tHost insts time f) = (l.map fun _ => tSlotRd, tHost insts time f)
  | [], _ => rfl
  | k :: t, h => by
    unfold readSlots
    simp only [tReadSlot insts time f k (h k (List.mem_cons_self ..)), tReadSlots insts time f t fun q hq => h q (List.mem_cons_of_mem _ hq), List.map_cons]
def tSlotList : List SlotRd := (List.range 256).map fun _ => tSlotRd
def tLoaded : Loaded := { slots := loadedSlots 1 tSlotList 0, entry := [0#64], fmt := [], dirs := [] }
theorem tLoad (insts : List Inst) (time : Nat) (f : Front) : loadImage tCtxH 0x1000 tHdr (tHost insts time f) = (.ok tLoaded, tHost insts time f) := by
  have h : readSlots tCtxH 0x1000 tHdr (List.range (256 * hdrW tHdr * hdrH tHdr)) (tHost insts time f) = (tSlotList, tHost insts time f) :=
    tReadSlots insts time f (List.range 256) fun k hk => List.mem_range.1 hk
  have j : firstNotOk tSlotList (hdrW tHdr) (hdrH tHdr) (List.range (256 * hdrW tHdr * hdrH tHdr)) = none := by decide +kernel
  unfold loadImage
  simp only [h, j]
  unfold loadRest
  have w : readWords tCtxH 0x1000 (hdrEntOff tHdr) 0x0A (fun x => !entryOk tSlotList (hdrW tHdr) (hdrH tHdr) x) (List.range (hdrNent tHdr)) (tHost insts time f) = (.ok [0#64], tHost insts time f) := by
    show readWords tCtxH 0x1000 1104 _ _ [0] (tHost insts time f) = _
    unfold readWords
    simp only [tImgRead insts time f 0x1000 (1104 + 8 * 0) 8 _ (by decide) (by decide)]
    unfold readWords
    simp only [show dwAt (tBytes (0x1000 + (1104 + 8 * 0)) 8) 0 = 0#64 from by decide +kernel, show (!entryOk tSlotList (hdrW tHdr) (hdrH tHdr) 0#64) = false from by decide +kernel, Bool.false_eq_true, if_false]
  have ks : ((List.range 32).filter fun k => (hdrFmtMask tHdr).getLsbD k) = [] := by decide
  simp only [w, ks, readWords, readDirs, List.zip_nil_left, show hdrTdirOff tHdr = 0 from by decide, if_true]
  rfl

/-! Placement, runs, pre-emption and compaction -/

def tRcb : List W64 := [0#64, BitVec.ofNat 64 (512 * 2 ^ 32 + 100 * 2 ^ 42 + 2 ^ 24 + 2 ^ 17), 0#64, 0#64, 0#64, 0#64, 0#64, 0#64]
def tEff : Eff := ⟨100, 512, 0, 1, 2, 0#32⟩
theorem tJudged (insts : List Inst) (time : Nat) (f : Front) (pkt hdr : List W64) (i : pkImage pkt ≤ 0x5000) (r : word pkt 2 = 0x800#64) (h : dwords (tBytes (pkImage pkt + 0) 64) = hdr) (b : hdrBad hdr = none) :
    judge tCtxH pkt none (tHost insts time f) = (judgePath tCtxH hdr pkt none [(0x800#64, tEff)] (tHost insts time f), tHost insts time f) := by
  have q : readHeader tCtxH (pkImage pkt) (tHost insts time f) = (.ok hdr, tHost insts time f) := by
    unfold readHeader
    simp only [tImgRead insts time f (pkImage pkt) 0 64 0 (by decide) (by omega), h, b]
  have p : readPath tCtxH 8 (word pkt 2) (tHost insts time f) = (.ok [(0x800#64, tRcb)], tHost insts time f) := by
    rw [r]
    unfold readPath sysRead
    simp only [show (0x800#64).toNat = 0x800 from by decide, show ¬ (0x800 % 64 ≠ 0) from by decide, if_false, tReadN insts time f needRd 0x800 64 (by decide) (by decide) (by decide),
      show dwords (tBytes 0x800 64) = tRcb from by decide +kernel, show (tBytes 0x800 64).any (·.2) = false from by decide, Bool.false_eq_true]
    rfl
  unfold judge
  simp only [q, p, show effs [(0x800#64, tRcb)] = some [(0x800#64, tEff)] from by decide]
def tLaunch (since : Option Nat) : Launch := ⟨7, 0, 0, tPkt, [], since⟩
def tWait (since : Option Nat) : Front := { Front.reset with launches := [tLaunch since] }
def tAtt : Attempt := { hdr := tHdr, path := [0x800#64], cls := 2, weight := 1, fdom := 0#32, spill := 0, budget := true }
theorem tHdrRead : dwords (tBytes (pkImage tPkt + 0) 64) = tHdr := by decide +kernel
theorem tFits : judgePath tCtxH tHdr tPkt none [(0x800#64, tEff)] (tHost [] 0 (tWait none)) = .ok tAtt := by decide +kernel
theorem test_met_placement : let s := tHost [] 0 (tWait none)
    s.ft.fatal = false ∧ s.fe.launches = [tLaunch none] ∧ s.fe.resident = [] ∧ s.insts = [] ∧ findCtx s 0 = some tCtxH ∧ s.flights = [] ∧
    judge tCtxH tPkt none s = (.ok tAtt, s) ∧ loadImage tCtxH (pkImage tPkt) tHdr s = (.ok tLoaded, s) :=
  ⟨rfl, rfl, rfl, rfl, rfl, rfl, (tJudged _ _ _ _ tHdr (by decide) (by decide) tHdrRead (by decide)).trans (by rw [tFits]), tLoad _ _ _⟩
theorem test_met_placed : pkBad tPkt = false ∧ pkType tPkt = 1 ∧ pkKeep tPkt = false ∧ 1 ≤ tAtt.weight ∧ hdrW tHdr * hdrH tHdr ≤ 512 ∧ tAtt.spill ≤ tCtxH.spoolSz * 65536 ∧
    saveLen (hdrW tHdr) (hdrH tHdr) ≤ tCtxH.saveSz * 65536 ∧ firstFree [] (hdrW tHdr) (hdrH tHdr) = some (0, 0) ∧ 7 < 2 ^ 64 := by decide +kernel
/-- A resident graph with a pending run and a reserved rectangle. -/
def tRes : Resident := ⟨0, 2#4, tPkt, 3, [0x800#64], 1, 0#32, 0, 0, 0, some (3, 4, 1, 1), none, 1#16, false, tHdr, none⟩
theorem test_met_run : let s := tHost [] 0 { Front.reset with resident := [tRes] }
    tRes ∈ s.fe.resident ∧ (∀ y ∈ s.fe.resident, y.ctx = 0 → y.trig = 2#4 → y = tRes) ∧ findCtx s 0 = some tCtxH ∧ tRes.active = none ∧ tRes.ending = false ∧ tRes.pending ≠ 0#16 ∧
    tRes.rect = some (3, 4, 1, 1) ∧ loadImage tCtxH (pkImage tRes.pkt) tRes.hdr s = (.ok tLoaded, s) ∧ ∀ i ∈ s.insts, i.iid ≠ s.nextId :=
  ⟨List.mem_singleton.2 rfl, fun _ h _ _ => List.mem_singleton.1 h, rfl, rfl, rfl, by decide, rfl, tLoad _ _ _, fun _ h => nomatch h⟩
/-- Packets of the images of 32 by 15 and 32 by 16 clusters. -/
def tPkt2 : List W64 := tPkt.set 1 0x4000#64
def tHdr2 : List W64 := [BitVec.ofNat 64 (2 ^ 56 * 15 + 2 ^ 53 + 2 ^ 32 + 0x315A4F53), 0#64, BitVec.ofNat 64 (2 ^ 32 * 491584 + 64), 16#64, 0#64, BitVec.ofNat 64 (2 ^ 32 + 491600), 0#64, 0#64]
theorem tHdr2Read : dwords (tBytes (pkImage tPkt2 + 0) 64) = tHdr2 := by decide +kernel
def tPkt3 : List W64 := tPkt.set 1 0x5000#64
def tHdr3 : List W64 := [BitVec.ofNat 64 (2 ^ 56 * 16 + 2 ^ 53 + 2 ^ 32 + 0x315A4F53), 0#64, BitVec.ofNat 64 (2 ^ 32 * 524352 + 64), 16#64, 0#64, BitVec.ofNat 64 (2 ^ 32 + 524368), 0#64, 0#64]
theorem tHdr3Read : dwords (tBytes (pkImage tPkt3 + 0) 64) = tHdr3 := by decide +kernel
def tCand (pkt hdr : List W64) (since : Option Nat) : Cand := { who := 7, ctx := 0, rcb := word pkt 2, order := 7, att := { tAtt with hdr := hdr }, since := since }
def tWaitS (insts : List Inst) (time : Nat) (pkt : List W64) (since : Option Nat) (off : List Nat) (res : List Resident) : State :=
  tHost insts time { tWait since with off := off, resident := res, launches := [{ tLaunch since with pkt := pkt }] }
theorem tReadies (insts : List Inst) (time : Nat) (pkt hdr : List W64) (since : Option Nat) (off : List Nat) (res : List Resident) (nr : res.filter waitsRun = []) (b : pkBad pkt = false) (ty : pkType pkt = 1)
    (j : judge tCtxH pkt none (tWaitS insts time pkt since off res) = (.ok { tAtt with hdr := hdr }, tWaitS insts time pkt since off res)) :
    readyCands (tWaitS insts time pkt since off res) = (some [tCand pkt hdr since], tWaitS insts time pkt since off res) := by
  have rl : readyLaunch (tWaitS insts time pkt since off res) { tLaunch since with pkt := pkt } = true := by
    have hd : isHead (tWaitS insts time pkt since off res) { tLaunch since with pkt := pkt } = true := by
      unfold isHead
      show (Option.map _ (List.find? _ [{ tLaunch since with pkt := pkt }]) == some 7) = true
      simp [tLaunch]
    unfold readyLaunch
    rw [hd]
    show (true && true && !pkBad pkt && decide (pkType pkt = 1)) = true
    rw [b, ty]
    rfl
  have r : (tWaitS insts time pkt since off res).fe.launches.filter (readyLaunch (tWaitS insts time pkt since off res)) = [{ tLaunch since with pkt := pkt }] :=
    List.filter_cons_of_pos rl
  have hc : candOf 7 0 7 pkt since none (tWaitS insts time pkt since off res) = (some [tCand pkt hdr since], tWaitS insts time pkt since off res) := by
    unfold candOf
    simp only [show findCtx (tWaitS insts time pkt since off res) 0 = some tCtxH from rfl, j]
    rfl
  have c : cands (tWaitS insts time pkt since off res) = (some [tCand pkt hdr since], tWaitS insts time pkt since off res) := by
    unfold cands
    rw [r, show (tWaitS insts time pkt since off res).fe.resident.filter waitsRun = [] from nr]
    show allCands ([candOf 7 0 7 pkt since none] ++ []) _ = _
    simp only [List.append_nil, allCands, hc, Option.map_some]
  unfold readyCands
  rw [c]
  rfl
theorem tWaiting (insts : List Inst) (time : Nat) (pkt hdr : List W64) (since : Option Nat) (off : List Nat) (res : List Resident) (nr : res.filter waitsRun = []) (b : pkBad pkt = false) (ty : pkType pkt = 1)
    (j : judge tCtxH pkt none (tWaitS insts time pkt since off res) = (.ok { tAtt with hdr := hdr }, tWaitS insts time pkt since off res))
    (n : (nextPlaced (tWaitS insts time pkt since off res) [tCand pkt hdr since]).map (·.1) = some (tCand pkt hdr since)) :
    waiting 7 (tWaitS insts time pkt since off res) =
      (if (findSpace (tWaitS insts time pkt since off res) (tCand pkt hdr since)).isNone then some (tCand pkt hdr since) else none, tWaitS insts time pkt since off res) := by
  unfold waiting
  simp only [tReadies insts time pkt hdr since off res nr b ty j]
  cases e : nextPlaced (tWaitS insts time pkt since off res) [tCand pkt hdr since] with
  | none => rw [e] at n; cases n
  | some z =>
    rw [e] at n
    have : z.1 = tCand pkt hdr since := Option.some.inj n
    simp only [this]
    rfl
/-- Work that is swept out. -/
def tSwept0 : Inst := { tInst [0x0100080000000000#64, 0x0000100000000000#64] with phase := .saved, injected := true, sets := [] }
/-- Work of class `cls` on the cluster (0, 1). -/
def tOne (cls : Nat) : Inst := { tInst [] with iid := 4, y0 := 1, cls := cls, injected := true }
def tRes0 : Resident := { tRes with cls := 0, pending := 0#16, path := [0x900#64] }
/-- A launch of class 2 that needs every cluster is kept out by: paddle work; work of class 1, and its own class, for 50 µs; a reservation of paddle work. -/
def tKept (p : Nat × Option Nat × Nat) : State :=
  tWaitS (if p.1 = 9 then [] else [tOne p.1]) p.2.2 tPkt3 p.2.1 [] (if p.1 = 9 then [tRes0] else [])
def tKepts : List (Nat × Option Nat × Nat) := [(0, none, 10), (1, some 5, 50005), (2, some 5, 50005), (9, none, 10)]
/-- The same once the paddle work has been told to leave. -/
def tLeft (p : Nat × Option Nat × Nat) : State :=
  tWaitS (if p.1 = 9 then [] else [if p.1 = 0 then sweeps (tKept p) false (tOne 0) else tOne p.1]) p.2.2 tPkt3 p.2.1 [] (if p.1 = 9 then [{ tRes0 with rect := none }] else [])
theorem tLeaves : ∀ p ∈ tKepts, paddlesGone (tKept p) = tLeft p := by
  intro p h
  simp only [tKepts, List.mem_cons, List.not_mem_nil, or_false] at h
  rcases h with rfl | rfl | rfl | rfl <;> rfl
theorem tKeptOut : ∀ p ∈ tKepts,
    (judgePath tCtxH tHdr3 tPkt3 none [(0x800#64, tEff)] (tKept p) = .ok { tAtt with hdr := tHdr3 } ∧ judgePath tCtxH tHdr3 tPkt3 none [(0x800#64, tEff)] (tLeft p) = .ok { tAtt with hdr := tHdr3 }) ∧
    (nextPlaced (tLeft p) [tCand tPkt3 tHdr3 p.2.1]).map (·.1) = some (tCand tPkt3 tHdr3 p.2.1) ∧ (findSpace (tKept p) (tCand tPkt3 tHdr3 p.2.1)) = none ∧
    ((findSpace (tLeft p) (tCand tPkt3 tHdr3 p.2.1)).isNone = (p.1 != 9)) ∧ distinct (tKept p) ∧
    let v := noteSince (tCand tPkt3 tHdr3 p.2.1) (tLeft p)
    distinct v ∧ (p.1 ≠ 9 → firstFree (takenCls v (fun _ => true) fun _ => true) (hdrW tHdr3) (hdrH tHdr3) = none) ∧
    (p.1 = 1 → victimRect v (tCand tPkt3 tHdr3 p.2.1) 2 = some (0, 0)) ∧ (p.1 = 2 → victimRect v (tCand tPkt3 tHdr3 p.2.1) 2 = none) := by unfold distinct; decide +kernel
/-- All of them are crowded out; once the paddles leave, the reservation's rectangle is free. -/
theorem test_met_preemption : ∀ p ∈ tKepts, readyCands (tKept p) = (some [tCand tPkt3 tHdr3 p.2.1], tKept p) ∧ 1 ≤ (tCand tPkt3 tHdr3 p.2.1).att.cls ∧
    waiting 7 (paddlesGone (tKept p)) = (if p.1 = 9 then none else some (tCand tPkt3 tHdr3 p.2.1), paddlesGone (tKept p)) := by
  intro p hp
  obtain ⟨⟨h, h2⟩, n, -, f, -⟩ := tKeptOut p hp
  have j : ∀ insts time f, judgePath tCtxH tHdr3 tPkt3 none [(0x800#64, tEff)] (tHost insts time f) = .ok { tAtt with hdr := tHdr3 } →
      judge tCtxH tPkt3 none (tHost insts time f) = (.ok { tAtt with hdr := tHdr3 }, tHost insts time f) := fun _ _ _ e =>
    (tJudged _ _ _ _ tHdr3 (by decide) (by decide) tHdr3Read (by decide)).trans (by rw [e])
  refine ⟨?_, by show 1 ≤ 2; decide, ?_⟩
  · unfold tKept at h ⊢
    exact tReadies _ _ tPkt3 tHdr3 _ _ _ (by split <;> decide) (by decide) (by decide) (j _ _ _ h)
  · rw [tLeaves p hp]
    unfold tLeft at h2 n f ⊢
    rw [tWaiting _ _ tPkt3 tHdr3 _ _ _ (by split <;> decide) (by decide) (by decide) (j _ _ _ h2) n, f]
    by_cases e : p.1 = 9 <;> simp [e]
/-- A launch that finds space, and a saved instance that finds none beside paddle work. -/
def tWaitR : State := { tUp (tLeaf 0 (2 ^ 40)) [] with insts := [{ tSwept0 with w := 32, h := 16, cls := 1 }, tOne 0] }
theorem test_met_room : (let s := tWaitS [] 10 tPkt3 none [] []
      readyCands s = (some [tCand tPkt3 tHdr3 none], s) ∧ findSpace s (tCand tPkt3 tHdr3 none) ≠ none) ∧
    (let i := { tSwept0 with w := 32, h := 16, cls := 1 }
     findInst tWaitR i.iid = some i ∧ i.phase = .saved ∧ i.ending = false ∧ 1 ≤ i.cls ∧ cands tWaitR = (some [], tWaitR) ∧ findCtx tWaitR i.ctx = some tCtxU ∧ distinct tWaitR ∧
     firstFree (takenCls tWaitR (fun _ => true) fun _ => true) i.w i.h = none) := by
  have e : judgePath tCtxH tHdr3 tPkt3 none [(0x800#64, tEff)] (tWaitS [] 10 tPkt3 none [] []) = .ok { tAtt with hdr := tHdr3 } ∧ findSpace (tWaitS [] 10 tPkt3 none [] []) (tCand tPkt3 tHdr3 none) ≠ none := by decide +kernel
  refine ⟨⟨tReadies _ _ tPkt3 tHdr3 _ _ _ rfl (by decide) (by decide) ?_, e.2⟩, by decide, rfl, rfl, by decide, rfl, rfl, by unfold distinct; decide, by decide +kernel⟩
  exact (tJudged _ _ _ _ tHdr3 (by decide) (by decide) tHdr3Read (by decide)).trans (by have h := e.1; unfold tWaitS at h; rw [h]; rfl)
/-- A launch of class 2 that needs fifteen full rows: work of its own class stands in the second. -/
def tSplitS : State := tWaitS [tOne 2] 50005 tPkt2 (some 5) [] []
theorem tSplit : judgePath tCtxH tHdr2 tPkt2 none [(0x800#64, tEff)] tSplitS = .ok { tAtt with hdr := tHdr2 } ∧
    (nextPlaced tSplitS [tCand tPkt2 tHdr2 (some 5)]).map (·.1) = some (tCand tPkt2 tHdr2 (some 5)) ∧ (findSpace tSplitS (tCand tPkt2 tHdr2 (some 5))).isNone = true ∧
    distinct tSplitS ∧ 5 + 50000 ≤ 50005 ∧ victimRect tSplitS (tCand tPkt2 tHdr2 (some 5)) 2 = none ∧ hdrW tHdr2 * hdrH tHdr2 ≤ freeOrLower tSplitS 2 ∧
    firstMover tSplitS 2 = some (tOne 2) := by unfold distinct; decide +kernel
theorem test_met_compaction : waiting 7 tSplitS = (some (tCand tPkt2 tHdr2 (some 5)), tSplitS) := by
  have w := tWaiting [tOne 2] 50005 tPkt2 tHdr2 (some 5) [] [] rfl (by decide) (by decide)
    ((tJudged _ _ _ _ tHdr2 (by decide) (by decide) tHdr2Read (by decide)).trans (by have h := tSplit.1; unfold tSplitS tWaitS at h; rw [h]; rfl)) tSplit.2.1
  have f : (findSpace (tWaitS [tOne 2] 50005 tPkt2 (some 5) [] []) (tCand tPkt2 tHdr2 (some 5))).isNone = true := tSplit.2.2.1
  rw [f] at w
  exact w

/-! Queues, the fault queue and commands -/

theorem tReadAt {s : State} (m : s.mem = tStore) (g : Good (tLeaf 0 (2 ^ 48)) s) {c : Ctx} (hc : tIn c) (va len : Nat) (h0 : 0 < len) (h1 : va % 65536 + len ≤ 65536) (h : va + len ≤ 2 ^ 33) :
    sysRead none c va len s = (.ok (tBytes va len), s) := by
  unfold sysRead
  rw [sysReadN_host g hc _ va len h0 h1 h, m]
  rfl
theorem tSound (va n : Nat) : sound (tBytes va n) := by
  intro b h; obtain ⟨i, -, rfl⟩ := List.mem_map.1 h; rfl
theorem tReadyTwo {s : State} (g : Good (tLeaf 0 (2 ^ 48)) s) {c : Ctx} (hc : tIn c) (a b m n : Nat) (ha : a + m ≤ 2 ^ 33) (hb : b + n ≤ 2 ^ 33) :
    sysReady none c [(needWr, a, m), (needWr, b, n)] 0 s = (.ok [], 2, s) := by
  simp only [sysReady, sysReadyBy, sysPrep_host g hc needWr a m ha, sysPrep_host g hc needWr b n hb]
def tQueue (ridx : W64) (halted : Bool) : Queue := ⟨9, 0, 0x2000, 0, 4, ridx, halted, false⟩
def tQs (x : Queue) (l : List Launch) : State := tHost [] 0 { Front.reset with queues := [x], launches := l }
/-- Slot 0 holds a launch packet, slot 1 type 0; and the queue's context may have no page table entry. -/
theorem test_met_packets : (∀ x ∈ [tQueue 0#64 false, tQueue 1#64 false, tQueue 0#64 true], queueIs (tQs x []) x tCtxH) ∧
    (∀ p ∈ [(0, 8), (8, 56), (64, 8)], sysRead none tCtxH p.1 p.2 (tQs (tQueue 0#64 false) []) = (.ok (tBytes p.1 p.2), tQs (tQueue 0#64 false) []) ∧ sound (tBytes p.1 p.2)) ∧
    (tBytes 0 8).length = 8 ∧ pkType (dwords (tBytes 0 8)) = 1 ∧ pkNarg (dwords (tBytes 0 8) ++ dwords (tBytes 8 56)) < 2 ∧ pkType (dwords (tBytes 64 8)) = 0 ∧ noHostWaits (tQs (tQueue 0#64 false) []) ∧
    sysReady none tCtxH [(needWr, 0, 8), (needWr, 0x2008, 8)] 0 (tQs (tQueue 0#64 false) []) = (.ok [], 2, tQs (tQueue 0#64 false) []) := by
  refine ⟨?_, ?_, by decide, by decide +kernel, by decide +kernel, by decide +kernel, (fun _ h => nomatch h), tReadyTwo (tHostGood _ _ _) tCtxIn _ _ _ _ (by decide) (by decide)⟩
  · intro x hx
    simp only [List.mem_cons, List.not_mem_nil, or_false] at hx
    rcases hx with rfl | rfl | rfl <;> exact ⟨List.mem_singleton.2 rfl, fun _ h _ => List.mem_singleton.1 h, rfl⟩
  · intro p hp
    simp only [List.mem_cons, List.not_mem_nil, or_false] at hp
    rcases hp with rfl | rfl | rfl <;> exact ⟨tReadAt rfl (tHostGood _ _ _) tCtxIn _ _ (by decide) (by decide) (by decide), tSound _ _⟩
/-- A context whose table is empty. -/
def tLost : Ctx := { tCtxH with asid := 1#16, ptroot := 2 ^ 48 + 2 ^ 35 }
theorem tLostWalk {s : State} (m : s.mem = tStore) (g : Good (tLeaf 0 (2 ^ 48)) s) (w : Who) (va : Nat) (h : va < 2 ^ 45) : walk w (2 ^ 48 + 2 ^ 35) va s = (.fault 0x01#8 0, s) := by
  have r := read64At_good g (2 ^ 48 + 2 ^ 35) (by decide) (by decide)
  have z : BitVec.ofNat 64 (natOfBytes ((List.range 8).map fun i => memGet tStore (2 ^ 48 + 2 ^ 35 + i))) = 0#64 := by decide +kernel
  rw [m, z] at r
  have i : walkIndex va 0 = 0 := show va / 2 ^ 45 % 2048 = 0 by omega
  unfold walk walkFrom noteHole
  simp only [i, show (2 : Nat) ^ 48 + 2 ^ 35 + 8 * 0 = 2 ^ 48 + 2 ^ 35 from rfl, prepareRange_good g false 0 (2 ^ 48 + 2 ^ 35) 8 (by decide) (by decide), kindAt_host g 2 (2 ^ 48 + 2 ^ 35) (by decide) (by decide), r,
    reduceCtorEq, if_false, Bool.not_true, Bool.false_eq_true, show pteV 0#64 = false from by decide, Bool.not_false, if_true]
theorem tLostFaults {s : State} (m : s.mem = tStore) (g : Good (tLeaf 0 (2 ^ 48)) s) (die : Option Nat) (w : Who) (n : Need) (va len : Nat) (h : va < 2 ^ 45) :
    Machine.translate die w tLost n [(va, len)] s = (.park 1#8 0 va, s) := by
  have f : tlbFind s die 1#16 va 0 = none := by
    have no : ∀ d k, tlbMatch die 1#16 va (tCached (tLeaf 0 (2 ^ 48)) d k) = false := by
      intro d k
      have p : pteG (tLeaf 0 (2 ^ 48)) = false := by decide
      unfold tlbMatch tCached
      generalize tLeaf 0 (2 ^ 48) = leaf at p ⊢
      simp [p]
    have n : s.co.tlb.filter (tlbMatch die 1#16 va) = [] := by
      rw [g.co, List.filter_eq_nil_iff]
      intro x hx
      rcases List.mem_cons.1 hx with rfl | hx
      · rw [no]; decide
      · obtain ⟨k, -, rfl⟩ := List.mem_map.1 hx
        rw [no]; decide
    unfold tlbFind
    rw [n]
    rfl
  have l : lookup die w tLost va 0 s = (.fault 0x01#8 0, s) := by
    unfold lookup
    rw [show tLost.asid = 1#16 from rfl, show tLost.ptroot = 2 ^ 48 + 2 ^ 35 from rfl, f, tLostWalk m g w va h]
  unfold Machine.translate settleLeaves
  simp only [leavesOf, List.length_nil, l, firstPark]
/-- A queue of it. -/
def tLostS : State := { tHost [] 0 Front.reset with fe := { Front.reset with ctxs := [tLost], queues := [tQueue 0#64 false] } }
theorem test_met_noPage : queueIs tLostS (tQueue 0#64 false) tLost ∧ sysRead none tLost 0 8 tLostS = (.noPage 0, tLostS) := by
  refine ⟨⟨List.mem_singleton.2 rfl, fun _ h _ => List.mem_singleton.1 h, rfl⟩, ?_⟩
  have g : Good (tLeaf 0 (2 ^ 48)) tLostS := ⟨rfl, rfl, tHostRoot, tHostNext⟩
  have l := tLostFaults (s := tLostS) rfl g (Option.map dieOf none) (sysWho none) needRd 0 8 (by decide)
  unfold sysRead sysReadN sysPrep
  simp only [winPieces_one 0 8 (by decide) (by decide), l]
  rfl
theorem test_met_launches : let l : Launch := { tLaunch none with waits := [0x3000] }
    launchIs (tQs (tQueue 0#64 false) [l]) l ∧ findCtx (tQs (tQueue 0#64 false) [l]) l.ctx = some tCtxH ∧ pkBad l.pkt = false ∧
    sysRead none tCtxH 0x3000 8 (tQs (tQueue 0#64 false) [l]) = (.ok (tBytes 0x3000 8), tQs (tQueue 0#64 false) [l]) :=
  ⟨⟨List.mem_singleton.2 rfl, fun _ h _ => List.mem_singleton.1 h⟩, rfl, by decide, tReadAt rfl (tHostGood _ _ _) tCtxIn _ _ (by decide) (by decide) (by decide)⟩
/-- A NOP, and a packet of an unknown type. -/
theorem test_met_noops : (let p := tPkt.map fun w => if w = BitVec.ofNat 64 (2 ^ 56) then BitVec.ofNat 64 (2 ^ 57) else 0#64
      pkComp p = 0 ∧ pkBad p = false ∧ pkType p = 2) ∧ pkComp (tPkt.set 0 (BitVec.ofNat 64 (3 * 2 ^ 56))) = 0 ∧ 2 < pkType (tPkt.set 0 (BitVec.ofNat 64 (3 * 2 ^ 56))) := by decide

def tEntry (kind : Byte) : FEntry := ⟨1#32, kind, 4#4, 1#4, 0#8, 64#64, 0#64, 0#64, 0#64, 0#32, 0#64, 0#64, 1⟩
def tFq (desc : Nat) : Ctx := { tCtxH with fqdesc := desc, held := [tEntry 1#8] }
def tFqS (desc : Nat) : State := { tHost [tInst []] 0 Front.reset with fe := { Front.reset with ctxs := [tFq desc] } }
theorem tFqGood (desc : Nat) : Good (tLeaf 0 (2 ^ 48)) (tFqS desc) where
  co := rfl
  link := rfl
  root := tHostRoot
  next := tHostNext
theorem test_met_faultQueue : (∀ d ∈ [0x3000, 0x3040], findCtx (tFqS d) (tFq d).handle = some (tFq d) ∧ sysRead none (tFq d) (tFq d).fqdesc 16 (tFqS d) = (.ok (tBytes d 16), tFqS d) ∧ sound (tBytes d 16)) ∧
    dwAt (tBytes 0x3000 16) 0 - dwAt (tBytes 0x3000 16) 8 = BitVec.ofNat 64 (2 ^ (tFq 0).fqLog) ∧ dwAt (tBytes 0x3040 16) 0 - dwAt (tBytes 0x3040 16) 8 ≠ BitVec.ofNat 64 (2 ^ (tFq 0).fqLog) ∧
    (tFq 0).fqVec = 0xFFFF#16 ∧ sysReady none (tFq 0x3040) [(needWr, 0, 64), (needWr, 0x3040, 8)] 0 (tFqS 0x3040) = (.ok [], 2, tFqS 0x3040) := by
  refine ⟨?_, by decide +kernel, by decide +kernel, rfl, tReadyTwo (tFqGood _) ⟨rfl, rfl⟩ _ _ _ _ (by decide) (by decide)⟩
  intro d hd
  simp only [List.mem_cons, List.not_mem_nil, or_false] at hd
  rcases hd with rfl | rfl <;> exact ⟨rfl, tReadAt rfl (tFqGood _) ⟨rfl, rfl⟩ _ _ (by decide) (by decide) (by decide), tSound _ _⟩
/-- RESUME of FID 1 with an action. -/
def tResume (act : BitVec 2) (kind : Byte) (o : Op) : State :=
  { tState with
    ops := [o], fe := { Front.reset with ctxs := [{ tCtx with out := [tEntry kind] }] }, ft := { FaultRegs.reset with busy := true, cmd := 1#8, arg0 := act ++ 0#2 ++ 0#12 ++ 0#16 ++ 1#32 } }
theorem test_met_resumes : ∀ p ∈ [(0#2, 1#8), (1#2, 3#8), (2#2, 4#8), (0#2, 4#8)], let o := tOp (.ld (tMem .unord .d)) (.parked 1#32)
    resumes (tResume p.1 p.2 o) p.1 { tCtx with out := [tEntry p.2] } (tEntry p.2) := by
  intro p hp
  simp only [List.mem_cons, List.not_mem_nil, or_false] at hp
  rcases hp with rfl | rfl | rfl | rfl <;> exact ⟨rfl, rfl, rfl, by decide, by decide, rfl, by decide, by decide, by decide, _, rfl, rfl⟩
theorem test_met_parked : let o := tOp (.ld (tMem .unord .d)) (.parked 1#32)
    o.ph = .parked (tEntry 1#8).fid ∧ isOrdered o.ins = false ∧ isTileMem o.ins = false ∧ isStream o.ins = false ∧ (tOp (.sysTrap 0#16 [tTgt]) (.trap 1#32)).ph = .trap (tEntry 4#8).fid := by decide
/-- SHOOT of one window of context 0, and its second phase. -/
theorem test_met_shoot : let s : State := { tState with ft := { FaultRegs.reset with busy := true, cmd := 2#8, arg0 := 0x10000#64, arg1 := 1#64 } }
    s.ft.busy = true ∧ s.ft.cmd = 2#8 ∧ s.ft.shoot = none ∧ s.ft.arg0.extractLsb' 56 8 = 0#8 ∧ s.ft.arg0.extractLsb' 0 16 = 0#16 ∧ s.ft.arg1.extractLsb' 60 3 = 0#3 ∧ s.ft.arg1.extractLsb' 32 16 = 0#16 ∧
    findCtx s (s.ft.arg1.extractLsb' 48 12).toNat = some tCtx ∧ s.ops = [] ∧ s.xfers = [] ∧ s.co.l1d = [] := by decide
theorem test_met_fatal : 1 ≤ (1#8).toNat ∧ (4#8).toNat ≤ 4 ∧ tState.ft.fatal = false ∧ tState.link.fatVec = 0xFFFF#16 := by decide

def tCmd (op : Byte) (a0 a1 : W64) : Front := { Front.reset with busy := true, cmd := op, cur0 := a0, cur1 := a1 }
def tCmdS (op : Byte) (a0 a1 : W64) (ctxs : List Ctx) : State := { tHost [] 0 Front.reset with fe := { tCmd op a0 a1 with ctxs := ctxs } }
theorem tCmdGood (op : Byte) (a0 a1 : W64) (ctxs : List Ctx) : Good (tLeaf 0 (2 ^ 48)) (tCmdS op a0 a1 ctxs) where
  co := rfl
  link := rfl
  root := tHostRoot
  next := tHostNext
/-- CTXLOAD of the descriptor at 0x3100 of host memory. -/
theorem test_met_ctxload : let s := tCmdS 1#8 (BitVec.ofNat 64 (2 ^ 48 + 0x3100)) 0#64 []
    commands s 1#8 ∧ physRead (2 ^ 48 + 0x3100) 64 s = (.ok (tBytes 0x3100 64), s) ∧ sound (tBytes 0x3100 64) ∧ ctxFits s (dwords (tBytes 0x3100 64)) ∧ lowest [] 4096 0 ∧
    sysRead none (ctxMade 0 (dwords (tBytes 0x3100 64)) 0 4 0xFFFF#16) (word (dwords (tBytes 0x3100 64)) 2).toNat 64 s = (.ok (tBytes 0x3040 64), s) ∧
    ¬ ctxFits { s with fe := { s.fe with ctxs := [tCtxH] } } (dwords (tBytes 0x3100 64)) := by
  have g := tCmdGood 1#8 (BitVec.ofNat 64 (2 ^ 48 + 0x3100)) 0#64 []
  have m : (tCmdS 1#8 (BitVec.ofNat 64 (2 ^ 48 + 0x3100)) 0#64 []).mem = tStore := rfl
  have d : dwords (tBytes 0x3100 64) = [0#64, BitVec.ofNat 64 tRoot, 0x3040#64, 0#64, 0#64, 0#64, 0#64, 0#64] := by decide +kernel
  have k : kindAt (tCmdS 1#8 (BitVec.ofNat 64 (2 ^ 48 + 0x3100)) 0#64 []) 2 (2 ^ 48 + 0x3100) = .hostu := kindAt_host g _ _ (by decide) (by decide)
  refine ⟨⟨rfl, rfl⟩, ?_, tSound _ _, ?_, ⟨by decide, by decide, fun m h => absurd h (Nat.not_lt_zero m)⟩, ?_, ?_⟩
  · unfold physRead
    simp only [prepareRange_good g false 0 (2 ^ 48 + 0x3100) 64 (by decide) (by decide), placeRead_good g 0 (2 ^ 48 + 0x3100) 64 (by decide) (by decide), k, m]
    rfl
  · rw [d]; unfold ctxFits; decide
  · rw [d]
    exact tReadAt rfl g ⟨by decide, by decide⟩ 0x3040 64 (by decide) (by decide) (by decide)
  · rw [d]
    intro h
    exact h.2.2.2.2.2.2.2.2 tCtxH (List.mem_singleton.2 rfl) (by decide)
theorem test_met_fqDescriptor : let f := dwords (tBytes 0x3040 64)
    (word f 3).extractLsb' 32 32 = 0#32 ∧ (word f 3).extractLsb' 8 8 = 0#8 ∧ (∀ k, k < 4 → word f (4 + k) = 0#64) ∧ (word f 2).toNat % 4096 = 0 ∧ 4 ≤ ((word f 3).extractLsb' 0 8).toNat ∧
    ((word f 3).extractLsb' 0 8).toNat ≤ 16 ∧ (word f 3).extractLsb' 16 16 = 0xFFFF#16 := by decide +kernel
theorem test_met_qmap : let s := tCmdS 3#8 0x3180#64 0#64 [tCtxH]
    commands s 3#8 ∧ findCtx s s.fe.cur1.toNat = some tCtxH ∧ sysRead none tCtxH 0x3180 64 s = (.ok (tBytes 0x3180 64), s) ∧ sound (tBytes 0x3180 64) ∧ lowest [] 16384 0 :=
  ⟨⟨rfl, rfl⟩, rfl, tReadAt rfl (tCmdGood _ _ _ _) tCtxIn _ _ (by decide) (by decide) (by decide), tSound _ _, ⟨by decide, by decide, fun m h => absurd h (Nat.not_lt_zero m)⟩⟩
theorem test_met_qDescriptor : let d := dwords (tBytes 0x3180 64)
    (word d 3).extractLsb' 8 56 = 0#56 ∧ (word d 2).toNat % 4096 = 0 ∧ 4 ≤ ((word d 3).extractLsb' 0 8).toNat ∧ ((word d 3).extractLsb' 0 8).toNat ≤ 20 ∧ ∀ k, k < 4 → word d (4 + k) = 0#64 := by decide +kernel
/-- The other commands, on arguments they take and arguments they refuse. -/
theorem test_met_commands : (∀ op ∈ [2#8, 4#8, 5#8, 6#8, 7#8, 8#8], commands (tCmdS op 0#64 0#64 [tCtxH]) op) ∧ findCtx (tCmdS 2#8 0#64 0#64 [tCtxH]) 0 = some tCtxH ∧ findCtx (tCmdS 2#8 1#64 0#64 [tCtxH]) 1 = none ∧
    (tCmdS 4#8 9#64 0#64 [tCtxH]).fe.queues = [] ∧ (tQs (tQueue 0#64 false) []).fe.queues = [tQueue 0#64 false] ∧ fmtMalformed b32 = false ∧ fmtMalformed 1#64 = true ∧ 511 < (512#64).toNat ∧ (511#64).toNat ≤ 511 ∧
    instAt (tHost [tInst []] 0 Front.reset) 0 = some (tInst []) ∧ instAt (tCmdS 7#8 0#64 0#64 [tCtxH]) 0 = none := by unfold commands; exact ⟨by decide, by decide, by decide, rfl, rfl, by decide, by decide, by decide, by decide, rfl, rfl⟩
def tEnding (e : Bool) : Inst := { tInst [] with ending := e, injected := true, num := 0#32, pkt := [] }
theorem test_met_instend : ∀ e ∈ [false, true], (tEnding e).ctx = tCtxH.handle ∧ (tEnding e).num.toNat = (0#64).toNat ∧ (tEnding e).phase = .running ∧ pkComp (tEnding e).pkt = 0 := by decide

/-! Sweeps and restores, with a save area whose bytes read 0 and are not kept; power and registers -/

theorem tReadyAll {s : State} (g : Good (tLeaf 0 (2 ^ 40)) s) {c : Ctx} (hc : tIn c) (who : Nat → Option Nat) : ∀ (l : List (Nat × List Byte)) (k : Nat),
    (∀ w ∈ l, w.1 + w.2.length ≤ 2 ^ 26 ∧ ((who w.1).map dieOf = none ∨ (who w.1).map dieOf = some 0)) → sysReadyBy who c (l.map fun w => (needWr, w.1, w.2.length)) k s = (.ok [], k + l.length, s)
  | [], k, _ => rfl
  | w :: t, k, h => by
    have w1 := h w (List.mem_cons_self ..)
    simp only [List.map_cons, sysReadyBy, sysPrep_mmioOn g hc needWr w.1 w.2.length w1.1 fun p hp => ⟨by have := winPieces_within _ _ p hp; omega, w1.2⟩, tReadyAll g hc who t (k + 1) fun x hx => h x (List.mem_cons_of_mem _ hx),
      List.length_cons]
    rw [Nat.add_assoc, Nat.add_comm 1]
theorem flatMap_length {α β : Type} (f : α → List β) (n : Nat) (h : ∀ x, (f x).length = n) (l : List α) : (l.flatMap f).length = l.length * n := by
  induction l with
  | nil => simp
  | cons x t ih => rw [List.flatMap_cons, List.length_append, h, ih, List.length_cons, Nat.succ_mul, Nat.add_comm]
theorem bytesOfNat_length (v n : Nat) : (bytesOfNat v n).length = n := by
  induction n generalizing v with
  | zero => rfl
  | succ n ih => unfold bytesOfNat; rw [List.length_cons, ih]
def tSwept (ph : InstPhase) : Inst := { tInst [0x0100080000000000#64, 0x0000100000000000#64] with phase := ph, injected := true, sets := [] }
def tMarks : InstPhase := .sweeping [.cluster 0, .frontEnd] [(.cluster 0, 0), (.frontEnd, 0)]
def tCtxS : Ctx := { tCtxU with saveSz := 80 }
def tSweepS (ph : InstPhase) : State := { tUp (tLeaf 0 (2 ^ 40)) [] with insts := [tSwept ph], fe := { Front.reset with ctxs := [tCtxS] } }
theorem tSweepGood (ph : InstPhase) : Good (tLeaf 0 (2 ^ 40)) (tSweepS ph) where
  co := rfl
  link := rfl
  root := show (List.range 8).map (fun i => memGet (tTable (tLeaf 0 (2 ^ 40)) []) (tRoot + i)) = _ by decide +kernel
  next := show (List.range 8).map (fun i => memGet (tTable (tLeaf 0 (2 ^ 40)) []) (tRoot + 65536 + i)) = _ by decide +kernel
theorem tSaved (ph : InstPhase) : ∀ w ∈ saveWrites (tSweepS ph) tCtxS (tSwept ph), w.1 + w.2.length ≤ 0x500000 := by
  have d : ∀ w : W64, (dwBytes w).length = 8 := fun w => bytesOfNat_length _ _
  intro w hw
  unfold saveWrites clusterWrites at hw
  simp only [show (tSwept ph).w * (tSwept ph).h = 1 from rfl, List.range_one, List.flatMap_cons, List.flatMap_nil, List.append_nil, List.map_cons, List.map_nil, List.cons_append, List.nil_append, List.mem_cons,
    List.not_mem_nil, or_false, show tCtxS.save + (tSwept ph).saveB = 0 from rfl, Nat.mul_zero, Nat.zero_add] at hw
  rcases hw with rfl | rfl | rfl | rfl | rfl | rfl | rfl | rfl | rfl | rfl | rfl
  · dsimp only; rw [flatMap_length _ 8 d]; show 0 + 8 * 8 ≤ _; decide
  · dsimp only; rw [flatMap_length _ 8 d, List.length_map, List.length_range]; decide
  · show 0x10000 + 0 ≤ _; decide
  · dsimp only; rw [flatMap_length _ 16 fun t => by rw [flatMap_length _ 8 d]; rfl, List.length_range]; decide
  · simp only [List.length_append, d, flatMap_length _ 8 d, List.length_map, List.length_range]; decide
  · dsimp only; rw [flatMap_length _ 8 d, List.length_map, List.length_range]; decide
  · dsimp only; rw [flatMap_length _ 8 d, List.length_map, List.length_range]; decide
  · dsimp only; rw [flatMap_length _ 8 d, flatMap_length _ 4 fun n => by unfold padWords; rw [List.length_map, List.length_range], List.length_range]; decide
  · show _ + 0x10000 + 0 ≤ _; decide
  · dsimp only; rw [List.length_map, List.length_range]; decide
  · dsimp only; rw [flatMap_length _ 4 fun n => bytesOfNat_length _ _, List.length_range]; decide
theorem test_met_sweep : let s := tSweepS tMarks
    let ws := (saveWrites s tCtxS (tSwept tMarks)).filter fun w => !w.2.isEmpty
    let who := fun (a : Nat) => let b := tCtxS.save + (tSwept tMarks).saveB + 0x200000
      if a < b then none else some (clusterAt ((tSwept tMarks).x0 + (a - b) / 0x300000 % (tSwept tMarks).w) ((tSwept tMarks).y0 + (a - b) / 0x300000 / (tSwept tMarks).w))
    s.insts = [tSwept tMarks] ∧ findCtx s (tSwept tMarks).ctx = some tCtxS ∧ still s ∧ (∀ n ∈ [SweepNode.cluster 0, .frontEnd], ∀ k, k < 1 → (n, k) ∈ [(SweepNode.cluster 0, 0), (.frontEnd, 0)]) ∧
    sysReadyBy who tCtxS (ws.map fun w => (needWr, w.1, w.2.length)) 0 s = (.ok [], 0 + ws.length, s) ∧ s.ops = [] ∧ s.xfers = [] := by
  refine ⟨rfl, rfl, ⟨rfl, rfl, rfl, rfl, rfl⟩, by decide, tReadyAll (tSweepGood _) ⟨rfl, rfl⟩ _ _ _ fun w h => ?_, rfl, rfl⟩
  obtain ⟨m, n⟩ := List.mem_filter.1 h
  have l := tSaved _ w m
  have z : 0 < w.2.length := by
    cases e : w.2 with
    | nil => rw [e] at n; cases n
    | cons => simp
  refine ⟨by omega, ?_⟩
  dsimp only
  by_cases q : w.1 < tCtxS.save + (tSwept tMarks).saveB + 0x200000
  · rw [if_pos q]; exact .inl rfl
  · rw [if_neg q]
    have q : ¬ w.1 < 0x200000 := q
    have e : clusterAt ((tSwept tMarks).x0 + (w.1 - 0x200000) / 0x300000 % (tSwept tMarks).w) ((tSwept tMarks).y0 + (w.1 - 0x200000) / 0x300000 / (tSwept tMarks).w) = 0 := by
      rw [show (w.1 - 0x200000) / 0x300000 = 0 by omega]; rfl
    exact .inr (congrArg (fun x => some (dieOf x)) e)
theorem test_met_marker : let i := tSwept (.sweeping [.cluster 0, .frontEnd] [])
    findInst (tSweepS i.phase) i.iid = some i ∧ SweepNode.frontEnd ∈ [SweepNode.cluster 0, .frontEnd] ∧ 0 < i.w * i.h ∧ (SweepNode.frontEnd, 0) ∉ ([] : List (SweepNode × Nat)) ∧
    (∀ o ∈ (tSweepS i.phase).ops, o.inst ≠ i.iid) ∧ ∀ f ∈ (tSweepS i.phase).flights, f.inst = i.iid → f.node ≠ .frontEnd :=
  ⟨rfl, by decide, by decide, by decide, (fun _ h => nomatch h), (fun _ h => nomatch h)⟩
def tZeros8 (n : Nat) : List W64 := dwords (List.replicate n (0#8, false))
theorem tBulk {s : State} (g : Good (tLeaf 0 (2 ^ 40)) s) {c : Ctx} (hc : tIn c) : ∀ l : List (Nat × Nat), (∀ p ∈ l, p.1 + p.2 ≤ 2 ^ 26 ∧ ((winPieces p.1 p.2).map (·.2)).sum = p.2) →
    bulkRead c l s = (.ok (l.map fun p => tZeros8 p.2), s)
  | [], _ => rfl
  | (a, n) :: t, h => by
    have ih := tBulk g hc t fun p hp => h p (List.mem_cons_of_mem _ hp)
    have hp := h (a, n) (List.mem_cons_self ..)
    by_cases z : n = 0
    · subst z
      simp only [bulkRead, ih, List.map_cons, if_true]
      rfl
    · have r : sysRead none c a n s = (.ok (List.replicate n (0#8, false)), s) := by
        unfold sysRead sysReadN
        rw [sysPrep_mmio g hc needRd a n hp.1]
        simp only [tEls, sysReadEls_mmio none, hp.2]
      have any : (List.replicate n ((0#8 : Byte), false)).any (·.2) = false := by
        rw [List.any_eq_false]; intro x hx; rw [(List.mem_replicate.1 hx).2]; decide
      simp only [bulkRead, if_neg z, r, any, ih, Bool.false_eq_true, if_false, List.map_cons, tZeros8]
theorem tWindows : ∀ p ∈ [(0, 64), (0x100, 256), (0x100000, 2 ^ 20), (0x200000, 64), (0x10000, 0), (0x200100, 128), (0x200800, 2048), (0x201000, 8192), (0x210000, 0), (0x300000, 2 ^ 20), (0x400000, 2 ^ 20)],
    p.1 + p.2 ≤ 2 ^ 26 ∧ ((winPieces p.1 p.2).map (·.2)).sum = p.2 := by decide +kernel
theorem test_met_restore : let s := tSweepS .saved
    s.insts = [tSwept .saved] ∧ (tSwept .saved).ending = false ∧ (tSwept .saved).w = 1 ∧ (tSwept .saved).h = 1 ∧ (tSwept .saved).cls ≠ 0 ∧ still s ∧ findCtx s (tSwept .saved).ctx = some tCtxS ∧ s.fe.launches = [] ∧ s.fe.resident = [] ∧
    firstFree (s.fe.off ++ s.fe.dead) 1 1 = some (0, 0) ∧ tCtxS.save + (tSwept .saved).saveB = 0 :=
  ⟨rfl, rfl, rfl, rfl, by decide, ⟨rfl, rfl, rfl, rfl, rfl⟩, rfl, rfl, rfl, by decide +kernel, rfl⟩
theorem test_met_restoreReads : let s := tSweepS .saved
    bulkRead tCtxS [(0, 64), (0x100, 256), (0x100000, 2 ^ 20), (0x200000, 64)] s = (.ok [tZeros8 64, tZeros8 256, tZeros8 (2 ^ 20), tZeros8 64], s) ∧
    bulkRead tCtxS [(0x10000, 0), (0x200100, 128), (0x200800, 2048), (0x201000, 8192), (0x210000, 64 * 0), (0x300000, 2 ^ 20), (0x400000, 2 ^ 20)] s =
      (.ok [tZeros8 0, tZeros8 128, tZeros8 2048, tZeros8 8192, tZeros8 0, tZeros8 (2 ^ 20), tZeros8 (2 ^ 20)], s) ∧
    ((word (tZeros8 64) 0).extractLsb' 0 14).toNat = 0 ∧ (word (tZeros8 64) 6).extractLsb' 0 11 = 0#11 ∧ chunks 8 (tZeros8 0) = [] := by
  refine ⟨tBulk (tSweepGood _) ⟨rfl, rfl⟩ _ fun p h => tWindows p ?_, tBulk (tSweepGood _) ⟨rfl, rfl⟩ _ fun p h => tWindows p ?_, by decide, by decide, by decide⟩
  · simp only [List.mem_cons, List.not_mem_nil, or_false] at h ⊢
    rcases h with h | h | h | h <;> simp [h]
  · simp only [List.mem_cons, List.not_mem_nil, or_false] at h ⊢
    rcases h with h | h | h | h | h | h | h <;> simp [h]

theorem test_met_power : PowerOk tState.pwr ∧ (List.replicate 48 1600#16).length = 48 ∧ (∀ k, k < 36 → deg (List.replicate 48 1600#16) k < 1840) ∧ (∀ k, senses 0 k → deg (List.replicate 48 1600#16) k ≤ 1600) ∧ senses 0 0 ∧
    1840 ≤ deg (List.replicate 48 1840#16) 35 ∧ (List.replicate 4 650#16).length = 4 := by
  refine ⟨by unfold PowerOk; decide, by decide, by decide, fun k h => ?_, .inl ⟨rfl, by decide⟩, by decide, by decide⟩
  have : k < 48 := by rcases h with h | h <;> omega
  have l : ∀ k, k < 48 → deg (List.replicate 48 1600#16) k ≤ 1600 := by decide
  exact l k this
theorem test_met_holding : let s : State := { tState with pwr := { Power.reset false with hold := true, holdOn := true, padm := true } }
    s.pwr.holdOn = true ∧ s.pwr.padm = true ∧ s.ft.fatal = false ∧ s.pwr.dieOff = false ∧ s.fe.launches = [] ∧ s.fe.resident = [] ∧ tState.pwr.holdOn = false := by decide
/-- Values of each condition of Tables 22.1 and 15.9 at the edges. -/
theorem test_met_registers : let s : State := { tState with pwr := { Power.reset false with ready := true } }
    (s.pwr.ready = true ∧ s.ft.fatal = false ∧ s.fe.busy = false ∧ s.ft.busy = false) ∧ tState.pwr.ready = false ∧ (0xFF8 % 8 = 0 ∧ 0x28 ≤ 0xFF8 ∧ 0xFF8 < 0x1000) ∧ 1 ≤ (8#64).toNat ∧ (8#64).toNat ≤ 8 ∧ 8 < (9#64).toNat ∧
    (∀ i ∈ s.inbox, isHostAcc i = false) ∧ s.ft.arg0.extractLsb' 62 2 ≠ 3#2 ∧ (0x705850#64).extractLsb' 0 8 = 0x50#8 ∧ 80 ≤ (0x50#8).toNat ∧ (0x70#8).toNat ≤ 112 ∧ (0x5A#64).extractLsb' 0 8 = 0x5A#8 ∧
    ({ Ras.reset with kbusy := true } : Ras).kbusy = true ∧ tState.co.l1w = [] ∧ tState.co.l2 = [] ∧ tState.ras.inten = false := by decide
/-- A device's store of eight bytes to the trigger register 5 of context 0. -/
theorem test_met_trigger : let o := { tAcc (.st (tMem .unord .d)) .miss .mmio with els := [⟨0, 2 ^ 40 + 0x120000 + 8 * (16 * 0 + (5#4).toNat), 8, .mmio, 0, 65536⟩] }
    mineAlone (tHas o) o ∧ ∃ n, findInst (tHas o) o.inst = some n := ⟨⟨List.mem_singleton.2 rfl, by decide, by decide, rfl, rfl, rfl⟩, _, rfl⟩

/-! ### Further premises: PEs that share a tile entry, held threads -/

/-- TZERO.ACC of accumulator 0 in slot 0 of two PEs, both ready: PE 1 of wave 0, PE 0 of wave 1. -/
def tZeroAcc : List W64 := encode (.tzeroAcc 0#4 [tTgt])
def tPairI : Inst :=
  { tInst [] with slots := [(Place.zero, tZeroAcc), (⟨0, 0, 1, 0⟩, tZeroAcc)],
                  sets := [⟨Place.zero, ⟨0#16, 1#24⟩, some (tTok 1), none, none, false, 0, []⟩, ⟨⟨0, 0, 1, 0⟩, Tag.zero, some (tTok 1), none, none, false, 0, []⟩] }
def tPairS : State := { tState with insts := [tPairI], agenda := [.fire 0 0] }
theorem test_met_turn : instAt tPairS 0 = some tPairI ∧ ∃ x i, chosen { tPairS with agenda := [] } tPairI 0 0 = some x ∧ slotInstr tPairI x.place = some i ∧
    otherFirst { tPairS with agenda := [] } tPairI 0 0 x i :=
  ⟨rfl, _, _, rfl, rfl, 1, _, _, by decide, by decide, by decide, rfl, rfl, by unfold Claims.goesBefore; decide, 256, by decide, by decide⟩
theorem test_met_noTurn : (∀ y ∈ (fetchInst State.reset [0x0E200800_00000001#64, 0x00002000_00000000#64]).sets, y.place.slot < 8) ∧
    ∀ x i, ¬ otherFirst { tFetch with agenda := [] } (tInst [0x0E200800_00000001#64, 0x00002000_00000000#64]) 0 0 x i := by
  refine ⟨by decide, ?_⟩
  rintro x i ⟨k, y, q, hk, hne, -, hc, -⟩
  have h : ∀ k, k < 32 → k ≠ 0 → chosen { tFetch with agenda := [] } (tInst [0x0E200800_00000001#64, 0x00002000_00000000#64]) 0 k = none := by decide
  rw [h k hk hne] at hc
  cases hc
/-- An ordered request, and one parked at its own thread's unit, hold the thread. -/
theorem test_met_heldThreads : ∀ ph ∈ [Phase.wouPend, .release], (∃ n, findInst (tThreads .live) 1 = some n ∧
    ({ tThreads .live with ops := [tOp (.ld (tMem .ord .d)) ph] }.ops.any fun o => decide (o.inst = 1 ∧ o.tag.thr = 0#16) && heldRequest (homeCl n 0#16) o) = true) :=
  fun ph h => ⟨_, rfl, by simp only [List.mem_cons, List.not_mem_nil, or_false] at h; rcases h with rfl | rfl <;> decide⟩
/-- Finite arguments of the iterative functions: integers, fractions, powers of two and others. -/
theorem test_met_values : (let t : Int := 3; t.natAbs < 2 ^ (14 + 0) ∧ t % 2 ^ 0 = 0) ∧ (let t : Int := -3; t.natAbs < 2 ^ (14 + 1) ∧ t % 2 ^ 1 ≠ 0) ∧ 2 ^ (14 + 0) ≤ (16384 : Int).natAbs ∧
    8 = 2 ^ Nat.log2 8 ∧ 9 ≠ 2 ^ Nat.log2 9 ∧ (Nat.log2 9 : Int) + -5 < 0 ∧ ¬ ((Nat.log2 9 : Int) + -3 < 0) ∧ 2 ^ 120 - 1 < 2 ^ 120 := by decide
/-- Slot 20 holds FP4 with a band scale too, in slot `b`: slot 14 takes one, slot 13 (EW = 11) does not. -/
def tBanded (b : Nat) : State :=
  { tFmt with insts := tFmt.insts.map fun n => { n with fmt := (n.fmt.set 13 0xEB43FF0000000000#64).set 20 (0xC810012408200000#64 ||| BitVec.ofNat 64 (2 ^ 22 * 8 + 2 ^ 15 * b)) } }
theorem test_met_bands : ∀ b ∈ [13, 14], noErr (tBanded b) ∧ acceptLanes (entry (tBanded b) 20#5) = true ∧ fSCL (entry (tBanded b) 20#5) = 2 ∧ fSCS (entry (tBanded b) 20#5) = 8 ∧ fBSS (entry (tBanded b) 20#5) = b ∧
    acceptBlockScale (fmtOf (tBanded b) 1 8) = true ∧ acceptBandScale (fmtOf (tBanded b) 1 b) = decide (b = 14) ∧ containerOf (entry (tBanded b) 20#5) ≤ containerOf (entry (tBanded b) 0#5) ∧
    containerOf (entry (tBanded b) 20#5) ≤ containerOf (entry (tBanded b) 20#5) := by unfold noErr; decide
theorem test_met_containers : containerOf (entry tFmt 0#5) < 64 ∧ acceptScalar (entry tFmt 13#5) = true ∧ containerOf (entry tFmt 13#5) = 64 ∧ 8 ≤ containerOf (entry tFmt 0#5) := by decide
/-- A floating-point AMO whose slot holds no entry that it takes, and one whose slot does. -/
theorem test_met_slots : noErr tFmt ∧ fresh tFmt ∧ (∀ k ∈ [0#5, 31#5], let i : Instr := .amo .fadd { tMem .unord .w with fs := k }
      (memRecOf i).isSome = true ∧ isOrdered i = false ∧ slotTakes (fmtOf tFmt 1 k.toNat) i = decide (k = 0#5)) := by unfold noErr fresh; decide
/-- A request out of its order at a unit with 256 pending requests. -/
def tCrowdOps : List Op := { tLate with id := 999 } :: (List.range 256).map fun k => { tOp (.mnop (tMem .ord .d)) .wouPend with id := 1000 + k }
theorem test_met_fullUnit : let o := { tLate with id := 999 }
    let s : State := { tState with ops := tCrowdOps }
    findOp s o.id = some o ∧ o.ph = .wouNet ∧ o.tag.wave ≠ (thrOf s o.inst o.tag.thr).cw ∧
    256 ≤ (s.ops.filter fun p => decide (p.cl = o.cl) && (match p.ph with
      | .wouPend | .release | .ftset | .parked _ | .callHold | .retHold => true
      | _ => false)).length := by decide +kernel
/-- A store to words that its L1 owns and that it waits to own. -/
theorem test_met_ownedWords : ∀ st ∈ [WSt.o, .p], let o := tAcc (.st (tMem .unord .d)) .miss .s
    let s : State := { tHas o with co := { Coh.reset with l1w := [{ tWord 64 5#32 with st := st }] } }
    mineAlone s o ∧ l1wFind s o.cl 64 = some { tWord 64 5#32 with st := st } ∧ l1Room s o.cl ((tEl .s).pa / 64 * 64) = true :=
  fun st h => ⟨⟨List.mem_singleton.2 rfl, fun p h _ => List.mem_singleton.1 h, (fun _ h => nomatch h), rfl, rfl, rfl⟩, rfl, by simp only [List.mem_cons, List.not_mem_nil, or_false] at h; rcases h with rfl | rfl <;> decide⟩

/-! Completion records, spilled sets and their records -/

/-- An instance that is to end, with its completion record at 64 of a page of registers, or at 65, which is no multiple of 64. -/
def tDone (comp : Nat) : Inst := { tQuiet (some (2#64, 2#64)) false 2#64 with pkt := [0#64, 0#64, 0#64, BitVec.ofNat 64 comp] }
def tDoneS (comp : Nat) : State := { tUp (tLeaf 0 (2 ^ 40)) [] with insts := [tDone comp] }
theorem tMmioRoot : (List.range 8).map (fun i => memGet (tTable (tLeaf 0 (2 ^ 40)) []) (tRoot + i)) = bytesOfNat (2 ^ 63 + tRoot + 65536) 8 := by decide +kernel
theorem tMmioNext : (List.range 8).map (fun i => memGet (tTable (tLeaf 0 (2 ^ 40)) []) (tRoot + 65536 + i)) = bytesOfNat (tLeaf 0 (2 ^ 40)).toNat 8 := by decide +kernel
theorem tDoneGood (comp : Nat) : Good (tLeaf 0 (2 ^ 40)) (tDoneS comp) where
  co := rfl
  link := rfl
  root := tMmioRoot
  next := tMmioNext
theorem test_met_completion : (∀ comp ∈ [64, 65], findInst (tDoneS comp) (tDone comp).iid = some (tDone comp) ∧ findCtx (tDoneS comp) (tDone comp).ctx = some tCtxU ∧ ((tDone comp).pkt.getD 3 0#64).toNat = comp ∧
      ((tDone comp).pkt.getD 0 0#64).extractLsb' 56 8 ≠ 2#8 ∧ (tDone comp).probe1 = some (2#64, 2#64)) ∧ 65 % 64 ≠ 0 ∧
    completes tCtxU 64 (quietRecord (tDoneS 64) (tDone 64) tCtxU) (tDoneS 64) (tDoneS 64) := by
  have l : (quietRecord (tDoneS 64) (tDone 64) tCtxU).length = 88 := by unfold quietRecord; simp only; rw [flatMap_length _ 8 fun d => bytesOfNat_length _ _]; rfl
  have g := tDoneGood 64
  refine ⟨by decide, by decide, _, _, _, _, tEls (2 ^ 40) .mmio 64 8, tDoneS 64, List.replicate 8 (0#8, false), tDoneS 64, sysPrep_mmio g ⟨rfl, rfl⟩ _ _ _ (by rw [l]; decide), sysPrep_mmio g ⟨rfl, rfl⟩ _ _ _ (by decide), ?_, ?_, by decide, ?_⟩
  · unfold tEls; rw [sysWriteEls_mmio none]; exact sysPrep_mmio g ⟨rfl, rfl⟩ _ _ _ (by decide)
  · unfold tEls; rw [sysReadEls_mmio none]; rfl
  · unfold tEls; rw [sysWriteEls_mmio none]
theorem tSysRead {s : State} (g : Good (tLeaf 0 (2 ^ 40)) s) {c : Ctx} (hc : tIn c) {by_ : Option Nat} (va n : Nat) (h0 : 0 < n) (h1 : va % 65536 + n ≤ 65536) (h : va + n ≤ 2 ^ 26) (d : tOn (by_.map dieOf) va) :
    sysRead by_ c va n s = (.ok (List.replicate n (0#8, false)), s) := by
  unfold sysRead sysReadN
  rw [sysPrep_mmioOn g hc needRd va n h (by rw [winPieces_one va n h0 h1]; intro p hp; rw [List.mem_singleton.1 hp]; exact d)]
  simp only [tEls, winPieces_one va n h0 h1, List.map_cons, List.map_nil, sysReadEls, sysReadEl, List.append_nil]
/-- A spilled set whose token has record 0 of the spill area. -/
def tSpilled : Machine.PSet := { tSet Place.zero (some (tTok 1)) none with spilled := true, recs := [(0, 0)] }
def tSpillS : State := { tUp (tLeaf 0 (2 ^ 40)) [] with insts := [tReady tSpilled] }
theorem test_met_refillReads : findInst tSpillS (tReady tSpilled).iid = some (tReady tSpilled) ∧ findCtx tSpillS (tReady tSpilled).ctx = some tCtxU ∧ setComplete (tReady tSpilled) tSpilled = true ∧
    sysReady (some 0) tCtxU (tSpilled.recs.map fun r => (⟨true, false, false⟩, tCtxU.spool + (tReady tSpilled).spillB + 64 * r.2, 64)) 0 tSpillS = (.ok [], 1, tSpillS) ∧
    readsRecords tCtxU (tReady tSpilled) 0 tSpilled.recs tSpilled tSpillS { tSpilled with a := some { tTok 1 with payload := 0#256 } } tSpillS := by
  have g : Good (tLeaf 0 (2 ^ 40)) tSpillS := ⟨rfl, rfl, tMmioRoot, tMmioNext⟩
  refine ⟨rfl, rfl, by decide, ?_, ?_⟩
  · show sysReady (some 0) tCtxU [(_, 0, 64)] 0 tSpillS = _
    simp only [sysReady, sysReadyBy, sysPrep_mmioOn g (c := tCtxU) ⟨rfl, rfl⟩ (by_ := some 0) ⟨true, false, false⟩ 0 64 (by decide) (by rw [winPieces_one 0 64 (by decide) (by decide)]; intro p hp; rw [List.mem_singleton.1 hp]; exact ⟨by decide, .inr rfl⟩)]
  · refine ⟨List.replicate 8 0#64, tSpillS, rfl, ?_, by decide, rfl⟩
    exact (tSysRead g ⟨rfl, rfl⟩ (by_ := some 0) 0 64 (by decide) (by decide) (by decide) ⟨by decide, .inr rfl⟩).trans (by rfl)
/-- A token at a PE with 64 sets and a spill area of one record's length. -/
def tFullI : Inst := { tInst [] with sets := tCrowd, spillN := 64 }
def tFullS : State := { tUp (tLeaf 0 (2 ^ 40)) [] with insts := [tFullI], flights := [{ tFlight with tok := { tTok 9 with tag := ⟨0#16, 100#24⟩ } }] }
theorem test_met_spills : let f := { tFlight with tok := { tTok 9 with tag := ⟨0#16, 100#24⟩ } }
    tFullS.flights[0]? = some f ∧ findInst tFullS f.inst = some tFullI ∧ mayLand tFullS 0 f ∧ findCtx tFullS tFullI.ctx = some tCtxU ∧ (∀ x ∈ tFullI.sets, ¬ isOf f.dst f.tok.tag x ∧ x.recs = []) ∧
    (let here := tFullI.sets.filter fun x => !x.spilled && decide (x.place.x = f.dst.x ∧ x.place.y = f.dst.y ∧ x.place.pe = f.dst.pe)
     64 ≤ here.length ∧ ∀ x ∈ here, keyOf tFullI x.place x.tag ≤ keyOf tFullI f.dst f.tok.tag) ∧ 64 ≤ tFullI.spillN ∧
    sysReady (some 0) tCtxU [(⟨false, true, false⟩, tCtxU.spool + tFullI.spillB, 64)] 0 tFullS = (.ok [], 1, tFullS) := by
  have g : Good (tLeaf 0 (2 ^ 40)) tFullS := ⟨rfl, rfl, tMmioRoot, tMmioNext⟩
  refine ⟨rfl, rfl, (fun _ h => nomatch h), rfl, by unfold isOf; decide +kernel, by decide +kernel, by decide, ?_⟩
  show sysReady (some 0) tCtxU [(_, 0, 64)] 0 tFullS = _
  simp only [sysReady, sysReadyBy, sysPrep_mmioOn g (c := tCtxU) ⟨rfl, rfl⟩ (by_ := some 0) ⟨false, true, false⟩ 0 64 (by decide) (by rw [winPieces_one 0 64 (by decide) (by decide)]; intro p hp; rw [List.mem_singleton.1 hp]; exact ⟨by decide, .inr rfl⟩)]
/-- TST's bytes are stored; a TCVT and a TTRN whose handles select one tile. -/
theorem test_met_tst : let o := { tOp (.tst 1#8 [tTgt]) .done with act := some (1, tEnt 1 3 0 2 2 0) }
    mineAlone { tTiles 1 with ops := [o] } o ∧ o.ph = .done ∧ sel (tTiles 1) 1#8 = sel (tTiles 1) 1#8 ∧ sel (tTiles 1) 1#8 ≠ sel (tTiles 1) 2#8 := ⟨⟨List.mem_singleton.2 rfl, by decide, by decide, rfl, rfl, rfl⟩, rfl, rfl, by decide⟩

/-! Scaled MMAs, MMA.ACCA, and lookahead -/

/-- Handles 1 and 2 hold FP4 with block scales (slot 20), 3 and 4 those; 5 and 6 FP4 with both scales (slot 21), 7 and 8 the band scales; 9 a C of binary32; 10 a B of bfloat16; and accumulator 1 is FULL. -/
def tMats : State :=
  accPut 0 1 { accGet tFmt 0 1 with st := 1#2, rows := 1#7, cols := 31#7 }
    { tFmt with
      insts := tFmt.insts.map fun n => { n with fmt := (n.fmt.set 20 (0xC810012408100000#64 ||| BitVec.ofNat 64 (2 ^ 22 * 8))).set 21 (0xC810012408200000#64 ||| BitVec.ofNat 64 (2 ^ 22 * 8 + 2 ^ 15 * 14)) },
      tiles := { Tiles.reset with dir := [(1, tEnt 1 0 20 2 32 0), (2, tEnt 1 0 20 32 2 1), (3, tEnt 1 1 8 2 4 2), (4, tEnt 1 1 8 4 2 3), (5, tEnt 1 0 21 2 32 4), (6, tEnt 1 0 21 32 2 5), (7, tEnt 1 3 14 1 1 6),
        (8, tEnt 1 3 14 1 1 7), (9, tEnt 1 3 0 2 2 8), (10, tEnt 1 2 1 32 2 9)] } }
def tQueues (i : Instr) : Bool :=
  match Claims.mmaOf i, mmaParts i with
  | some x, some _ => (x.2.all fun h => decide (tdir tMats 0 (sel tMats h) ≠ 0#64)) && ((mmaFormats tMats i x.1).all fun k => k.2) && mmaShapesFit tMats i x.1
  | _, _ => false
theorem test_met_matrixForms : noErr tMats ∧ fresh tMats ∧ ∀ i ∈ [Instr.mmaMx 3#8 4#8 ⟨3#4, 1#8, 2#8, 9#8, [tTgt]⟩, .mmaTwo 7#8 8#8 3#8 4#8 ⟨3#4, 5#8, 6#8, 0xFF#8, [tTgt]⟩, .mmaTwo 0xFF#8 0xFF#8 3#8 4#8 ⟨3#4, 5#8, 6#8, 9#8, [tTgt]⟩,
    .mmaAcca 1#5 true 60#6 ⟨3#4, 1#8, 10#8, 9#8, [tTgt]⟩], tQueues i = true := by unfold noErr fresh; decide +kernel
theorem test_met_accaEnds : let o := { tOp (.mmaAcca 1#5 true 60#6 ⟨3#4, 1#8, 10#8, 9#8, [tTgt]⟩) .mmaRun with act := some (3, 0#64), left := [1000, 10, 9, 1000, 1000, 1000, 1000], cap := [(1, 0xE0707F0000000000#64), (0, b32)] }
    let s := { tMats with ops := [o] }
    mineAlone s o ∧ s.tiles.badT = [] ∧ s.tiles.badA = [] ∧ teRows (tdir s 0 10) % 16 = 0 ∧ (1#8).toNat % 16 ≠ (3#4).toNat := ⟨⟨List.mem_singleton.2 rfl, by decide, by decide, rfl, rfl, rfl⟩, rfl, rfl, by decide, by decide⟩
/-- A transfer of one chunk has nothing to look ahead to. -/
theorem tNoAhead (x : Xfer) (s : State) (h : xChunks x ≤ x.next + 1) : lookedAhead s x = s := by
  unfold lookedAhead
  split
  · rfl
  · cases ctxOfInst s x.inst with
    | none => rfl
    | some c =>
      unfold lookAhead
      dsimp only
      split
      · rfl
      · next j hj =>
        have m := List.mem_of_find?_eq_some hj
        obtain ⟨k, -, rfl⟩ := List.mem_map.1 m
        rw [if_pos (by omega)]
theorem test_met_ahead : let y := { tXfer (.xcopy tXr) .running (tReq 128 64 8) (some [{ tEl .u with va := 128, pa := 128 }, tEl .u]) with ahead := [(0, List.replicate 8 (1#8, false))] }
    let x := tXfer (.xfill tXr) .running (tReq 64 7 8) (some [tEl .u])
    lookedAhead (tMoves y) y = tMoves y ∧ lookedAhead (tMoves x) x = tMoves x ∧ (y.ahead.find? fun c => decide (c.1 = y.next)) = some (y.next, List.replicate 8 (1#8, false)) ∧
    (List.replicate 8 ((1#8 : Byte), false)).length = 8 ∧ (∀ c ∈ x.ahead, c.2 = []) ∧ (∀ z ∈ (tMoves (tXfer (.xcopy tXr) .port (tReq 64 128 8) none)).xfers, ∀ st fid, z.ph ≠ .again st fid) :=
  ⟨tNoAhead _ _ (by decide), tNoAhead _ _ (by decide), by decide, by decide, (fun _ h => nomatch h), fun z h st fid => by rw [List.mem_singleton.1 h]; exact fun e => nomatch e⟩

/-! Coherence, further premises -/

theorem tOneMsg (s : State) (m : Msg) (h : s.co.msgs = [m]) (c sec : Nat) (k : (∀ l, m.body = .wb l → m.src ≠ .l1 c) ∧ ∀ op k ws cap, m.body = .fwd op k ws cap → m.dst ≠ .l1 c ∧ ∀ y ∈ cap, y.2.1 ≠ c) : uncrossed s c sec := by
  intro x hx _
  rw [h] at hx
  rw [List.mem_singleton.1 hx]
  exact k
/-- A revoke, a recall and a grant that nothing crosses, the grant of a word whose eviction waits or not. -/
theorem test_met_uncrossed : (∀ b ∈ [Body.revoke [1], .recall [1], .grant [(1, 5#32, false)]], uncrossed (tCo (tMsg .home (.l1 0) b) tHeld) 0 256) ∧
    (∀ e ∈ [false, true], let w : L1Word := { tOwn 0 .p with evict := e }
      let s := tCo (tMsg .home (.l1 0) (.grant [(1, 5#32, false)])) { tHeld with l1w := [w], regOut := [⟨0, 260, [5]⟩] }
      l1wFind s 0 260 = some w ∧ s.co.regOut = [⟨0, 260, [5]⟩] ∧ ∀ z ∈ s.co.l1w, z.prev = none ∧ (z.evict = true → z = w)) ∧
    l1wFind (tCo (tMsg .home (.l1 0) (.recall [1])) { tHeld with l1w := [tOwn 0 .o] }) 0 260 = some (tOwn 0 .o) ∧ (tOwn 0 .o).prev = none ∧
    l1wFind (tCo (tMsg .home (.l1 3) (.recall [1])) { tHeld with l1w := [tOwn 3 .o] }) 3 260 = some (tOwn 3 .o) := by
  refine ⟨fun b h => tOneMsg _ _ rfl 0 256 ?_, fun e h => ⟨rfl, rfl, fun z hz => ?_⟩, rfl, rfl, rfl⟩
  · simp only [List.mem_cons, List.not_mem_nil, or_false] at h
    rcases h with rfl | rfl | rfl <;> exact ⟨(fun _ e => nomatch e), fun _ _ _ _ e => nomatch e⟩
  · rw [List.mem_singleton.1 hz]; exact ⟨rfl, fun _ => rfl⟩
/-- A read forwarded to the owner as the word stands, as it stood before the store of its pair, and when it has left. -/
theorem test_met_forwards : (∀ x ∈ [tOwn 3 .o, tOwn 3 .p, { tOwn 3 .p with whole := true }, { tOwn 3 .o with prev := some (Part.full 4#32 false) }, { tOwn 3 .o with prev := some Part.none_ }],
      l1wFind (tCo (tMsg .home (.l1 3) (.fwd 5 0 [1] [])) { tHeld with l1w := [x] }) 3 260 = some x ∧ x.st ≠ .v) ∧ (Part.full 4#32 false).sure = true ∧ Part.none_.sure = false ∧
    ∀ cap ∈ [[], [(1, 3, Part.full 5#32 false)], [(1, 3, Part.none_)]], (tMsg .home (.l1 3) (.fwd 5 0 [1] cap)).body = .fwd 5 0 [1] cap :=
  ⟨by decide, rfl, rfl, fun _ _ => rfl⟩
/-- A load of four bytes at 260 that waits for the word. -/
def tMiss : Op := { tOp (.ld (tMem .unord .w)) .miss with els := [⟨260, 260, 4, .s, 0, 65536⟩], left := [0] }
theorem test_met_fillServes : let m := tMsg .home (.l1 0) (.fill 5 [(1, 5#32, false)])
    let s : State := { tHas tMiss with co := { tHeld with msgs := [m] } }
    mineAlone s tMiss ∧ hasNothing tMiss ∧ s.co.msgs = [m] ∧ l1Room s 0 256 = true ∧ l1wFind s 0 260 = none ∧ reaches s 0 m ∧
    l1Room (tCo m { tHeld with l1w := [tOwn 0 .p] }) 0 256 = true ∧ isPf (Instr.ld (tMem .unord .w)) = false :=
  ⟨⟨List.mem_singleton.2 rfl, fun p h _ => List.mem_singleton.1 h, (fun _ h => nomatch h), rfl, rfl, rfl⟩, ⟨rfl, rfl⟩, rfl, by decide, rfl, ⟨rfl, fun _ h => nomatch h⟩, by decide, rfl⟩
/-- Shared and exclusive requests beside a holder of E or M, and beside holders of S. -/
theorem test_met_shared : ∀ em ∈ [true, false], ∀ k ∈ [DReq.shared, .excl, .upgrade], let e := { tDir 3 with em := em }
    let m := tMsg (.l1 0) .home (.dreq k)
    let s := tCo m { tHeld with dir := [e] }
    reaches s 0 m ∧ settled s 256 ∧ inL2 s 256 0 tL2 ∧ s.co.dir = [e] ∧ tL2.pz = 0#16 ∧ e.rdc = none ∧ e.pa = 256 ∧ e.holders = 1#128 <<< 3 ∧ 3 ≠ 0 % 128 :=
  fun _ _ _ _ => ⟨⟨rfl, fun _ h => nomatch h⟩, ⟨(fun _ h => nomatch h), (fun _ h => nomatch h), rfl, (fun _ h => nomatch h)⟩, ⟨rfl, rfl, rfl⟩, rfl, rfl, rfl, rfl, rfl, by decide⟩
theorem test_met_directoryEntry : (tDir 3).holders = 1#128 <<< (3 % 128) ∧ (tMsg (.l1 0) .home (.dreq .excl)).key = (tMsg (.l1 3) .home (.dret none true false)).key := by decide
/-- Errors in a V word, a sector of L2, and an L1 sector in S. -/
theorem test_met_lostCopies : (∃ p ∈ [tOwn 0 .v], p.cl = 0 ∧ sectorOf p.pa = 256) ∧ l2Find { tState with co := tHeld } 256 = some tL2 ∧ tL2.pa = 256 ∧
    l1dFind { tState with co := { Coh.reset with l1d := [tSec 0 .s] } } 0 256 = some (tSec 0 .s) := ⟨⟨_, List.mem_singleton.2 rfl, rfl, by decide⟩, rfl, rfl, rfl⟩
theorem tNoneOut (s : State) (h : s.co.outCh = []) (sec : Nat) : channelOut s sec = false := by unfold channelOut; rw [h]; rfl
theorem test_met_l2Writes : let s : State := { tState with co := { Coh.reset with l2 := [{ tL2 with dirty := true }] } }
    channelOut s 256 = false ∧ s.ras.badGrp = [] ∧ ∀ r ∈ s.co.reg, r.pa / 256 * 256 ≠ 256 := ⟨tNoneOut _ rfl _, rfl, fun _ h => nomatch h⟩

/-! The fabric -/

/-- A load of the peer window, whose page a table maps, through an aperture that names node 5, or through none. -/
def tPeerS (a : List (Nat × W64)) : State :=
  { tUp (tLeaf 0 (2 ^ 51)) [] with ops := [tLd], fab := { Fabric.reset with nv := true, nodeid := 3#20, up := 1#96 <<< 95, apert := a } }
theorem tPeerGood (a : List (Nat × W64)) : Good (tLeaf 0 (2 ^ 51)) (tPeerS a) where
  co := rfl
  link := rfl
  root := show (List.range 8).map (fun i => memGet (tTable (tLeaf 0 (2 ^ 51)) []) (tRoot + i)) = _ by decide +kernel
  next := show (List.range 8).map (fun i => memGet (tTable (tLeaf 0 (2 ^ 51)) []) (tRoot + 65536 + i)) = _ by decide +kernel
def tPeerEl : El := ⟨64, 2 ^ 51 + 64, 8, .peer, 0, 2 ^ 34⟩
theorem test_met_apertures : ∀ a ∈ [[], [(0, 0xC033000000000005#64)], [(0, 0xC033000000000003#64)]], let s := tPeerS a
    mineAlone s tLd ∧ tLd.replay = 0 ∧ checkAddr tLd = none ∧ ctxOfInst s tLd.inst = some tCtxU ∧ s.fab.up = 1#96 <<< 95 ∧
    Machine.translate (some (dieOf tLd.cl)) (.cluster tLd.cl) tCtxU ⟨true, false, false⟩ (accessOf tLd) s = (.ok [tPeerEl], s) := by
  intro a _
  refine ⟨⟨List.mem_singleton.2 rfl, fun p h _ => List.mem_singleton.1 h, (fun _ h => nomatch h), rfl, rfl, rfl⟩, rfl, by decide, rfl, rfl, ?_⟩
  have e : accessOf tLd = [(64, 8)] := by decide
  rw [e, show some (dieOf tLd.cl) = some 0 from rfl, translate_good (tPeerGood a) (.inr (.inr (.inr rfl))) ⟨rfl, rfl⟩ (die := some 0) (.cluster tLd.cl) _ [(64, 8)] (by unfold tOn; decide)]
  simp only [List.map_cons, List.map_nil, leafPa_open (2 ^ 51) 64 (.inr (.inr (.inr rfl))) (by decide), show kindAt (tPeerS a) 0 (2 ^ 51 + 64) = .peer from rfl]
  rfl
theorem test_met_admitting : let e := 0xC033000000000005#64
    e.getLsbD 63 = true ∧ e.getLsbD 62 = true ∧ (e.extractLsb' 0 20).extractLsb' 14 6 = (3#20).extractLsb' 14 6 ∧ e.extractLsb' 0 20 ≠ 3#20 ∧ tPeerEl.pa / 2 ^ 40 % 2048 = 0 ∧ 95 < 96 := by decide
/-- An XFILL of eight bytes in the peer window, whose aperture is not valid. -/
def tPeerX : Xfer := { tXfer (.xfill tXr) .running (tReq 64 7 8) none with act := some 0 }
def tPeerXS : State := { tPeerS [] with ops := [], xfers := [tPeerX] }
theorem test_met_peerChunks : tPeerX ∈ tPeerXS.xfers ∧ (∀ y ∈ tPeerXS.xfers, y.id = tPeerX.id → y = tPeerX) ∧ 0 < len tPeerX ∧ tPeerXS.pwr.prs.getD (dieOf tPeerX.cl) 0#4 ≠ 3#4 ∧ ctxOfInst tPeerXS tPeerX.inst = some tCtxU ∧
    (∃ u, xlateAll tPeerX.id (dieOf tPeerX.cl) tCtxU (curWrites tPeerX) tPeerXS = (.ok [tPeerEl], none, u) ∧ (∃ v, findX u tPeerX.id = some v) ∧ u.fab = tPeerXS.fab) ∧
    (assocGet 0#64 tPeerXS.fab.apert (tPeerEl.pa / 2 ^ 40 % 2048)).getLsbD 63 = false := by
  have g : Good (tLeaf 0 (2 ^ 51)) tPeerXS := ⟨rfl, rfl, (tPeerGood []).root, (tPeerGood []).next⟩
  have w : curWrites tPeerX = [⟨1, 64, 8, ⟨false, true, false⟩⟩] := by decide
  have l := translate_good g (.inr (.inr (.inr rfl))) (c := tCtxU) ⟨rfl, rfl⟩ (die := some 0) (whoX tPeerX) ⟨false, true, false⟩ [(64, 8)] (by unfold tOn; decide)
  simp only [List.map_cons, List.map_nil, leafPa_open (2 ^ 51) 64 (.inr (.inr (.inr rfl))) (by decide), show kindAt tPeerXS 0 (2 ^ 51 + 64) = .peer from rfl] at l
  have f : leavesOf (some 0) (whoX tPeerX) tCtxU [(64, 8)] tPeerXS = ([(64, 8, .leaf (tLeaf 0 (2 ^ 51)) (2 ^ 34) (tRoot + 65536))], tPeerXS) := by
    unfold leavesOf
    rw [lookup_good g (.inl (.inr (.inr (.inr rfl)))) (c := tCtxU) ⟨rfl, rfl⟩ (die := some 0) (whoX tPeerX) (va := 64) ⟨by decide, .inr rfl⟩]
    rfl
  unfold Machine.translate at l
  rw [f] at l
  refine ⟨List.mem_singleton.2 rfl, fun y h _ => List.mem_singleton.1 h, by decide, by decide, rfl, ?_, by decide⟩
  rw [w]
  unfold xlateAll xlate
  rw [show findX tPeerXS tPeerX.id = some tPeerX from rfl]
  simp only [show tPeerX.pins = [] from rfl, List.find?_nil, show dieOf tPeerX.cl = 0 from rfl, f, l, xlateAll, List.append_nil]
  exact ⟨_, rfl, ⟨_, rfl⟩, rfl⟩

/-! Fabric, errors and the host link, further premises -/

theorem test_met_flits : ∀ p ∈ [0, 95], let s := tFab p 0
    (s.fab.flits.filter fun g => decide (g.port = p)).length ≤ 1 ∧ p ∉ s.fab.asked ∧ p ∈ ({ s.fab with asked := [p] } : Fabric).asked ∧ assocGet 0 s.fab.fails p = 0 ∧ assocGet 0 s.fab.rx p = 0 ∧
    assocGet 0 ({ s.fab with rx := [(p, 8)] } : Fabric).rx p = 8 ∧ s.ras.ctrs.length = 14 := by decide
/-- Accesses of other nodes: a store, a load, and one of a group that is not this one's. -/
theorem test_met_inboundKinds : let s := { tHomes with fab := { Fabric.reset with nv := true, lsin := true, nodeid := 5#20 } }
    (∀ a ∈ [(⟨3#20, 64, 0, .store (List.replicate 8 1#8), 0⟩ : InAcc), ⟨3#20, 64, 0, .load 8, 0⟩], a.src.extractLsb' 14 6 = s.fab.nodeid.extractLsb' 14 6 ∧ ∀ k, k < 8 → homeReady s a.key (a.pa + k)) ∧
    (List.replicate 8 (1#8 : Byte)).length = 8 ∧ s.fab.asked = [] ∧ inBulk (.chunkRead 64) = true ∧ s.fab.bulkin = false ∧ inBulk (.load 8) = false ∧ tState.fab.nv = false ∧ ∀ i ∈ tState.inbox, ∀ b, i ≠ .inboundAccess b := by
  refine ⟨fun a h => ?_, rfl, rfl, rfl, rfl, rfl, rfl, fun _ h => nomatch h⟩
  simp only [List.mem_cons, List.not_mem_nil, or_false] at h
  rcases h with rfl | rfl <;> exact ⟨rfl, fun k hk => tHomesReady k (by omega)⟩
/-- A sector that no burst, four or five bursts in a row have failed for, or whose channel carries a read's or a write's burst again, not in L2 and in it, and one whose next read fails. -/
theorem test_met_hbm : (∀ l ∈ [[], [(64, 4)], [(64, 5)], [(64, 6)], [(64, 7)]], ∀ h ∈ [[], [{ tL2 with pa := 64 }]], let s : State := { tState with co := { Coh.reset with crc := l, l2 := h, rdFail := [64] } }
      devicePresent s 64 = true ∧ channelOut s 64 = false ∧ (l2Find s 64).isSome = !h.isEmpty ∧ assocGet 0 s.co.crc 64 = ((l.head?.map (·.2)).getD 0) ∧ (∀ p ∈ s.co.l2, p.pa = 64 ∨ p.pa / 256 ≠ 0) ∧ 64 ∈ s.co.rdFail) ∧ tState.ras.ctrs.length = 14 := by
  refine ⟨fun l hl h hh => ?_, by decide⟩
  simp only [List.mem_cons, List.not_mem_nil, or_false] at hl hh
  rcases hl with rfl | rfl | rfl | rfl | rfl <;> rcases hh with rfl | rfl <;> exact ⟨by decide, tNoneOut _ rfl _, by decide, by decide, by decide, by decide⟩
/-- KSEL is written while KBUSY is set, before READY, after a fatal error, after the first CTXLOAD, and otherwise, INTEN being set or not; and INTEN is under way. -/
theorem test_met_inten : let s := fun (r k i l f : Bool) => ({ tState with pwr := { Power.reset false with ready := r }, ras := { Ras.reset with kbusy := k, kcmd := 3#2, inten := i }, fe := { Front.reset with loaded := l }, ft := { FaultRegs.reset with fatal := f } } : State)
    (∀ r k i l f, noHostWaits (s r k i l f) ∧ (s r k i l f).pwr.ready = r ∧ (s r k i l f).ras.kbusy = k ∧ (s r k i l f).ras.inten = i ∧ (s r k i l f).fe.loaded = l ∧ (s r k i l f).ft.fatal = f ∧ (s r k i l f).ras.kcmd = 3#2) ∧
    (0x100#64).getLsbD 8 = true ∧ (0#64).getLsbD 8 = false := ⟨fun _ _ _ _ _ => ⟨(fun _ h => nomatch h), rfl, rfl, rfl, rfl, rfl, rfl⟩, by decide, by decide⟩
/-- Vector 2047 is pending; its mask bit is written 0, or 1. -/
theorem test_met_vectors : 2047 < 2048 ∧ (2047 : Nat) ∈ ({ Link.reset with pba := [2047] } : Link).pba ∧ (0#64).getLsbD 32 = false ∧ (0x100000000#64).getLsbD 32 = true ∧ (2047 : Nat) ∉ Link.reset.pba := by decide
theorem test_met_cacheClear : let s := tCxl true false []
    s.co.msgs = [] ∧ s.co.dwait = [] ∧ s.co.rdcReq = [] ∧ s.ops = [] ∧ s.xfers = [] ∧ s.link.cache = true ∧ s.link.mem = false ∧ s.co.rdc = [] ∧ s.co.l1d = [] ∧ s.co.bisnp = [] ∧ s.co.dirb = [] ∧ s.co.snoop = [] :=
  ⟨rfl, rfl, rfl, rfl, rfl, rfl, rfl, rfl, rfl, rfl, rfl, rfl⟩
/-- A GO that finds room in the RDC and in the snoop filter. -/
theorem test_met_goRoom : let s : State := { tCxl true false [] with co := { Coh.reset with rdcReq := [(0, 2 ^ 48, .shared)] } }
    s.co.rdc.length + s.co.reg.length < 262144 ∧ s.co.snoop.length < 1048576 ∧ memWf s.mem = true := by decide
/-- A write and a read of device memory by the host. -/
theorem test_met_hostDevice : let s : State := { tHomes with link := { Link.reset with mode := 2#2, cache := true, mem := true } }
    let w : HostAcc := ⟨64, 8, some (List.replicate 8 1#8), true, true, false, 0⟩
    let r : HostAcc := ⟨64, 8, none, true, false, false, 0⟩
    cxl s ∧ touches w.pa w.len 64 = true ∧ touches w.pa w.len 128 = false ∧ (∀ k, k < 8 → homeReady s 0 (w.pa + k)) ∧ (∀ k, k < 8 → homeReady s 0 (r.pa + k)) ∧ r.wr = none ∧ (∀ i ∈ s.inbox, isHostAcc i = false) ∧ memWf s.mem = true :=
  ⟨rfl, rfl, rfl, fun k h => tHomesReady k (by omega), fun k h => tHomesReady k (by omega), rfl, (fun _ h => nomatch h), by decide⟩
/-- An answer of the host that comes once MEM reads 0; a store to a register behind an access that waits, and one whose turn has come. -/
theorem test_met_hostLate : (let s : State := { tHomes with link := { Link.reset with mode := 2#2 } }
      s.co.bisnp = [] ∧ cxl s ∧ s.link.mem = false ∧ noHostWaits s ∧ ∀ k, k < 64 → homeReady s 0 (64 + k)) ∧
    (let s : State := { tState with inbox := [.hostAccess ⟨64, 8, none, false, false, false, 3⟩] }
     ¬ noHostWaits s) ∧ (let s : State := { tState with link := { Link.reset with mode := 1#2 }, inbox := regStore 0x20 7#64 4 :: [] }
     s.inbox = regStore 0x20 7#64 4 :: [] ∧ 0x20 < 2 ^ 26 ∧ s.link.mode = 1#2) :=
  ⟨⟨rfl, rfl, rfl, (fun _ h => nomatch h), fun k h => tHomesReady k h⟩, (fun h => absurd (h _ (List.mem_singleton.2 rfl)) (by decide)), rfl, by decide, rfl⟩

/-! Budgets, walks, requests that park -/

theorem tReadHeader (insts : List Inst) (time : Nat) (f : Front) : readHeader tCtxH 0x1000 (tHost insts time f) = (.ok tHdr, tHost insts time f) := by
  unfold readHeader
  simp only [tImgRead insts time f 0x1000 0 64 0 (by decide) (by decide), show dwords (tBytes (0x1000 + 0) 64) = tHdr from tHdrRead, show hdrBad tHdr = none from by decide]
def tBudL (a : W64) : Launch := { tLaunch none with pkt := tPkt.set 2 a }
/-- An instance stands under the RCB; it and the root allow one more, none, or the RCB breaks a rule. -/
def tBud (a : W64) : State := tHost [{ tInst [] with path := [0x940#64, 0x800#64] }] 0 { Front.reset with launches := [tBudL a] }
theorem test_met_budgets : (∀ a ∈ [0x900#64, 0x940#64, 0x980#64], launchIs (tBud a) (tBudL a) ∧ findCtx (tBud a) (tBudL a).ctx = some tCtxH ∧ pkBad (tBudL a).pkt = false ∧ pkType (tBudL a).pkt = 1 ∧
      pkKeep (tBudL a).pkt = false ∧ word (tBudL a).pkt 2 = a ∧
      readHeader tCtxH (pkImage (tBudL a).pkt) (tBud a) = (.ok tHdr, tBud a) ∧ sysRead none tCtxH a.toNat 64 (tBud a) = (.ok (tBytes a.toNat 64), tBud a) ∧
      sysRead none tCtxH tCtxH.rootRcb.toNat 64 (tBud a) = (.ok (tBytes 0x800 64), tBud a) ∧ word (dwords (tBytes a.toNat 64)) 0 = tCtxH.rootRcb) ∧
    (let r := dwords (tBytes 0x800 64)
     let b := fun (a : Nat) => dwords (tBytes a 64)
     (rcbFits r ∧ word r 0 = 0#64 ∧ (word r 1).extractLsb' 58 6 = 0#6 ∧ rcbFits (b 0x900) ∧ rcbFits (b 0x940) ∧ ¬ rcbFits (b 0x980)) ∧
     limits (b 0x900) r = (512, 0, 0) ∧ limits (b 0x940) r = (512, 1, 0) ∧ limits r r = (512, 100, 0) ∧ usedAt (tBud 0x940#64) tCtxH.handle 0x940#64 = (1, 1, 0) ∧ (word r 1).getLsbD 58 = false) ∧
    max (hdrSpill tHdr) (256 * pkSpillU (tBudL 0x940#64).pkt) = 0 ∧ saveLen (hdrW tHdr) (hdrH tHdr) ≤ tCtxH.saveSz * 65536 := by
  refine ⟨?_, by unfold rcbFits limits usedAt; decide +kernel, by decide, by decide +kernel⟩
  intro a h
  simp only [List.mem_cons, List.not_mem_nil, or_false] at h
  rcases h with rfl | rfl | rfl <;>
    exact ⟨⟨List.mem_singleton.2 rfl, fun _ h _ => List.mem_singleton.1 h⟩, rfl, by decide, by decide, by decide, rfl, tReadHeader _ _ _, tReadAt rfl (tHostGood _ _ _) tCtxIn _ _ (by decide) (by decide) (by decide),
      tReadAt rfl (tHostGood _ _ _) tCtxIn _ _ (by decide) (by decide) (by decide), by decide +kernel⟩

/-- A root at 64 KiB and a table at 128 KiB of device memory: an empty entry, a malformed one, and leaves that permit everything, marked and
unmarked, and nothing, with F and without it. -/
def tEntries : List W64 := [0#64, 0x8000000000000001#64, tLeaf 0 0, 0xF800000000000000#64, 0xC080000000000000#64, 0xC000000000000000#64]
def tTabs : State :=
  let s := fun (l : List W64) => (List.range 16).map fun k => (word l (k / 2)).extractLsb' (32 * (k % 2)) 32
  { tState with co := { Coh.reset with l2 := [⟨0x10000, s [0x8000000000020000#64], false, 0#16, 0⟩, ⟨0x20000, s tEntries, false, 0#16, 0⟩] } }
theorem tStands (a : Nat) (e : W64) (h : (∀ k, k < 8 → sectorOf (a + k) = 0x10000) ∨ ∀ k, k < 8 → sectorOf (a + k) = 0x20000) (b : ∀ k, k < 8 → byteAt tTabs 0 (a + k) = (e.extractLsb' (8 * k) 8, false)) :
    standsAt tTabs a e := by
  intro k hk
  refine ⟨?_, b k hk⟩
  unfold homeReady quiet
  rcases h with h | h <;> (rw [h k hk]; exact ⟨⟨(fun _ h => nomatch h), rfl, (fun _ h => nomatch h), (fun _ h => nomatch h), (fun _ h => nomatch h), (fun _ h => nomatch h), (fun _ h => nomatch h), (fun _ h => nomatch h), (fun _ h => nomatch h), by decide⟩, by decide, ⟨_, rfl, rfl, rfl, by decide⟩⟩)
theorem tFinds (k : Nat) (e : W64) (f : Found) (hk : k < 6) (he : tEntries[k]? = some e)
    (h : (e.getLsbD 63 = false → f = .fault 1#8 1) ∧ (e.getLsbD 63 = true → ¬ entryFits e 1 → f = .fault 2#8 1) ∧ (e.getLsbD 63 = true → entryFits e 1 → e.getLsbD 62 = true → f = .leaf e (2 ^ 34) (0x20000 + 8 * k)) ∧
      (e.getLsbD 63 = true → entryFits e 1 → e.getLsbD 62 = true)) : finds tTabs (2 ^ 34 * k) 4 0x10000 f := by
  have b0 : ∀ k, k < 8 → byteAt tTabs 0 (0x10000 + k) = ((0x8000000000020000#64).extractLsb' (8 * k) 8, false) := by decide +kernel
  have b1 : ∀ j, j < 6 → ∀ k, k < 8 → byteAt tTabs 0 (0x20000 + 8 * j + k) = ((word tEntries j).extractLsb' (8 * k) 8, false) := by decide +kernel
  have i0 : (levelOf (2 ^ 34 * k) 0).1 = 0 := show 2 ^ 34 * k / 2 ^ 45 % 2 ^ 11 = 0 by omega
  have i1 : (levelOf (2 ^ 34 * k) 1).1 = k := show 2 ^ 34 * k / 2 ^ 34 % 2 ^ 11 = k by omega
  have ew : word tEntries k = e := by unfold word; simp [he]
  refine ⟨0x8000000000020000#64, tStands _ _ (.inl fun j hj => ?_) (fun j hj => ?_), fun n => absurd n (by decide), fun _ n => absurd (by dsimp only [entryFits]; decide) n, fun _ _ n => absurd n (by decide), fun _ _ _ => ⟨e, tStands _ _ (.inr fun j hj => ?_) (fun j hj => ?_), h.1, h.2.1, ?_, fun v ft n => absurd (h.2.2.2 v ft) (by rw [n]; decide)⟩⟩
  · show sectorOf (0x10000 + 8 * (levelOf (2 ^ 34 * k) 0).1 + j) = 0x10000
    rw [i0]; unfold sectorOf; omega
  · show byteAt tTabs 0 (0x10000 + 8 * (levelOf (2 ^ 34 * k) 0).1 + j) = _
    rw [i0]; exact b0 j hj
  · show sectorOf (0x20000 + 8 * (levelOf (2 ^ 34 * k) 1).1 + j) = 0x20000
    rw [i1]; unfold sectorOf; omega
  · show byteAt tTabs 0 (0x20000 + 8 * (levelOf (2 ^ 34 * k) 1).1 + j) = _
    rw [i1, b1 k hk j hj, ew]
  · intro v ft lf
    show f = .leaf e (2 ^ 34) (0x20000 + 8 * (levelOf (2 ^ 34 * k) 1).1)
    rw [i1]
    exact h.2.2.1 v ft lf
/-- The walk finds no entry, a malformed one, and leaves of every kind. -/
theorem test_met_walks : tTabs.co.tlb = [] ∧ ({ tCtx with ptroot := 0x10000 } : Ctx).ptroot % 2 ^ 14 = 0 ∧ finds tTabs (2 ^ 34 * 0) 4 0x10000 (.fault 1#8 1) ∧ finds tTabs (2 ^ 34 * 1) 4 0x10000 (.fault 2#8 1) ∧
    finds tTabs (2 ^ 34 * 2) 4 0x10000 (.leaf (tLeaf 0 0) (2 ^ 34) 0x20010) ∧ finds tTabs (2 ^ 34 * 3) 4 0x10000 (.leaf 0xF800000000000000#64 (2 ^ 34) 0x20018) ∧
    finds tTabs (2 ^ 34 * 4) 4 0x10000 (.leaf 0xC080000000000000#64 (2 ^ 34) 0x20020) ∧ finds tTabs (2 ^ 34 * 5) 4 0x10000 (.leaf 0xC000000000000000#64 (2 ^ 34) 0x20028) := by
  refine ⟨rfl, rfl, tFinds 0 _ _ (by decide) rfl ⟨?_, ?_, ?_, ?_⟩, tFinds 1 _ _ (by decide) rfl ⟨?_, ?_, ?_, ?_⟩, tFinds 2 _ _ (by decide) rfl ⟨?_, ?_, ?_, ?_⟩,
    tFinds 3 _ _ (by decide) rfl ⟨?_, ?_, ?_, ?_⟩, tFinds 4 _ _ (by decide) rfl ⟨?_, ?_, ?_, ?_⟩, tFinds 5 _ _ (by decide) rfl ⟨?_, ?_, ?_, ?_⟩⟩ <;> (try dsimp only [entryFits]) <;>
    first
      | exact fun _ => rfl
      | exact fun _ _ => rfl
      | exact fun _ _ _ => rfl
      | exact fun n => absurd n (by decide)
      | exact fun n _ => absurd n (by decide)
      | exact fun n _ _ => absurd n (by decide)
      | exact fun _ n => absurd n (by decide)
      | exact fun _ n _ => absurd n (by decide)
      | exact fun _ _ => by decide
/-- What the leaves permit a read, and whether their bits are set. -/
theorem test_met_leaves : ((tLeaf 0 0).extractLsb' 57 2 ≠ 3#2 ∧ (tLeaf 0 0).getLsbD 56 = false ∧ (tLeaf 0 0).getLsbD 61 = true ∧ (tLeaf 0 0).getLsbD 54 = true) ∧
    ((0xF800000000000000#64).getLsbD 61 = true ∧ (0xF800000000000000#64).getLsbD 56 = false ∧ (0xF800000000000000#64).getLsbD 54 = false) ∧
    ((0xC080000000000000#64).getLsbD 61 = false ∧ (0xC080000000000000#64).getLsbD 55 = true) ∧ (0xC000000000000000#64).getLsbD 61 = false ∧ (0xC000000000000000#64).getLsbD 55 = false := by decide

/-- A request, or a transfer, of an instance whose table is empty. -/
def tParkS (ops : List Op) (xfers : List Xfer) : State :=
  { tHost [tInst []] 0 Front.reset with ops := ops, xfers := xfers, fe := { Front.reset with ctxs := [tLost] } }
theorem tParkGood (ops : List Op) (xfers : List Xfer) : Good (tLeaf 0 (2 ^ 48)) (tParkS ops xfers) where
  co := rfl
  link := rfl
  root := tHostRoot
  next := tHostNext
def tParkL : List Op :=
  [{ tOp (.ld (tMem .unord .d)) .l1Net with a := tTok 64 }, { tOp (.cas (tMem .unord .d)) .l1Net with a := tTok 64 }, { tOp (.ld (tMem .ord .d)) .release with a := tTok 64 },
   { tOp (.tld 1#8 [tTgt]) .tile with a := tTok 64, act := some (1, tEnt 1 1 1 1 16 0) }, { tOp (.sstrm 0#5 [tTgt]) .stream with a := tTok 64 }]
theorem test_met_parks : ∀ o ∈ tParkL, let s := tParkS [o] []
    (mineAlone s o ∧ findInst s o.inst = some (tInst []) ∧ findCtx s (tInst []).ctx = some tLost ∧ o.replay = 0 ∧ checkAddr o = none) ∧
    Machine.translate (some (dieOf o.cl)) (.cluster o.cl) tLost (needOf o.ins) (accessOf o) s = (.park 1#8 0 64, s) ∧ released s o = true ∧ halting s o.inst = false := by
  intro o h
  have t : ∀ (o : Op) n, accessOf o = [(64, n)] → Machine.translate (some (dieOf o.cl)) (.cluster o.cl) tLost (needOf o.ins) (accessOf o) (tParkS [o] []) = (.park 1#8 0 64, tParkS [o] []) := by
    intro o n e; rw [e]; exact tLostFaults rfl (tParkGood _ _) _ _ _ 64 n (by decide)
  simp only [tParkL, List.mem_cons, List.not_mem_nil, or_false] at h
  rcases h with rfl | rfl | rfl | rfl | rfl <;>
    exact ⟨⟨⟨List.mem_singleton.2 rfl, (fun p h _ => List.mem_singleton.1 h), (fun _ h => nomatch h), rfl, rfl, rfl⟩, rfl, rfl, rfl, by decide⟩, t _ _ (by rfl), rfl, rfl⟩
theorem test_met_parkedXfer : let x := { tXfer (.xfill tXr) .running (tReq 64 7 8) none with act := some 0 }
    let s := tParkS [] [x]
    x ∈ s.xfers ∧ findInst s x.inst = some (tInst []) ∧ s.fab.flits = [] ∧ s.pwr.prs.getD (dieOf x.cl) 0#4 ≠ 3#4 ∧
    max (quarter x 0) ((quarter x 0 / 256 + x.next) * 256) = 64 ∧ min (quarter x 0 + len x) ((quarter x 0 / 256 + x.next + 1) * 256) = 72 ∧
    Machine.translate (some (dieOf x.cl)) (.engine 0) tLost ⟨false, true, false⟩ [(64, 72 - 64)] s = (.park 1#8 0 64, s) :=
  ⟨List.mem_singleton.2 rfl, rfl, rfl, by decide, by decide, by decide, tLostFaults rfl (tParkGood _ _) _ _ _ 64 _ (by decide)⟩

/-! Save blocks, power, and what is left -/

/-- One set of a matching store, or of the spill area, and a transfer, of the instance that is swept. -/
def tSet1 (sp : Bool) : Machine.PSet := ⟨Place.zero, ⟨3#16, 1#24⟩, some (tTok 7), none, none, sp, 0, []⟩
theorem test_met_blocks17 : (∀ sp ∈ [false, true], let i := { tSwept tMarks with sets := [tSet1 sp] }
      i.w ≤ 32 ∧ i.h ≤ 16 ∧ 0 < i.w ∧ i.sets = [tSet1 sp] ∧ (tSet1 sp).place.x = 0 ∧ (tSet1 sp).place.pe < 32 ∧ (tSet1 sp).place.slot < 8 ∧ (tSet1 sp).spilled = sp ∧ (tSet1 sp).get .a = some (tTok 7) ∧
      (i.slots.find? fun q => decide (q.1 = Place.zero)).isSome = true) ∧
    (let x := tXfer (.xfill tXr) (.again 1 5#32) (tReq 64 7 8) none
     ((tMoves x).xfers.filter fun y => decide (y.inst = 1))[0]? = some x ∧ x.todo < 4) := by decide
def tThrTable : List W64 := 0xF800000000000001#64 :: List.replicate 131071 1#64
theorem test_met_threadTable : tThrTable.length = 131072 ∧ word tThrTable (2 * 0) ≠ 0#64 ∧ (word tThrTable (2 * 0)).getLsbD 60 = true ∧ 0 < 65536 := by
  refine ⟨?_, ?_, ?_, by decide⟩
  · unfold tThrTable; rw [List.length_cons, List.length_replicate]
  · show (0xF800000000000001#64 : W64) ≠ 0#64; decide
  · show (0xF800000000000001#64 : W64).getLsbD 60 = true; decide
/-- 115 °C while an L1 owns a word whose sector stands in L2. -/
theorem test_met_trip : let s : State := { tState with co := { Coh.reset with l1w := [tOwn 0 .o], l2 := [tL2] } }
    s.ft.fatal = false ∧ s.pwr.dieOff = false ∧ s.co.l1d = [] ∧ s.co.rdc = [] ∧ s.co.msgs = [] ∧ s.co.gwait = [] ∧ (tOwn 0 .o).st = .o ∧ (tOwn 0 .o).pa % 4 = 0 ∧ inL2 s (sectorOf (tOwn 0 .o).pa) (tOwn 0 .o).key tL2 ∧
    tL2.data.length = 16 ∧ ∀ k, k < 4 → devicePresent s ((tOwn 0 .o).pa + k) = true := by unfold inL2; decide
/-- A set point below, within and above the band of R424, paddle power on, and readings of the package. -/
def tPwr (setpt : Nat) (padm : Bool) : State := { tState with pwr := { Power.reset false with setpt := BitVec.ofNat 16 setpt, hyst := 50#16, padm := padm } }
theorem test_met_updates : (∀ n ∈ [0, 400, 520, 600], PowerOk (tPwr n true).pwr ∧ ∀ d, d < 4 → (tPwr n true).pwr.prs.getD d 0#4 = 0#4) ∧ ((tPwr 0 true).pwr.setpt.toNat = 0) ∧ (tPwr 400 true).pwr.setpt.toNat < (500#16).toNat ∧
    ((500#16).toNat ≤ (tPwr 520 true).pwr.setpt.toNat ∧ (tPwr 520 true).pwr.setpt.toNat ≤ (500#16).toNat + (tPwr 520 true).pwr.hyst.toNat ∧ (tPwr 520 true).pwr.padm = true ∧ (tPwr 520 false).pwr.padm = false) ∧
    (500#16).toNat + (tPwr 600 false).pwr.hyst.toNat < (tPwr 600 false).pwr.setpt.toNat ∧ [500#16, 651#16, 619#16, 630#16].length = 4 := by
  refine ⟨fun n h => ?_, by decide, by decide, by decide, by decide, rfl⟩
  unfold PowerOk
  simp only [List.mem_cons, List.not_mem_nil, or_false] at h
  rcases h with rfl | rfl | rfl | rfl <;> decide
theorem test_met_noHolding : (Power.reset false).holdOn = false ∧ ({ Power.reset false with dieOff := true } : Power).dieOff = true ∧ ({ FaultRegs.reset with fatal := true } : FaultRegs).fatal = true ∧ (Power.reset false).padm = false := by decide
/-- Bring-up before and after READY, with everything found and with less. -/
theorem test_met_bringUp : let b : BringUp := { dieOk := 0xF#4, stkOk := 0xFFF#12, mode := 1#2, width := 16#6, gts := 64#8, memcap := 0x3000000000#64, ports := 0#96, badCl := [] }
    (Power.reset true).ready = false ∧ (1 ≤ b.width.toNat ∧ b.width.toNat ≤ 16 ∧ b.mode = 1#2 ∧ 1 ≤ b.gts.toNat ∧ b.gts.toNat ≤ 128) ∧ b.dieOk = 0xF#4 ∧ b.stkOk = 0xFFF#12 := by decide
/-- Links that do not train, and one under CXL; a stack fewer. -/
theorem test_met_bringUpLess : let b : BringUp := { dieOk := 0xF#4, stkOk := 0x7FF#12, mode := 2#2, width := 16#6, gts := 64#8, memcap := 0x2C00000000#64, ports := 0#96, badCl := [3] }
    let trains := fun (b : BringUp) => 1 ≤ b.width.toNat ∧ b.width.toNat ≤ 16 ∧ ((b.mode = 1#2 ∧ 1 ≤ b.gts.toNat ∧ b.gts.toNat ≤ 128) ∨ (b.mode = 2#2 ∧ b.gts = 64#8))
    trains b ∧ ¬ trains { b with gts := 32#8 } ∧ ¬ trains { b with width := 63#6 } ∧ ¬ trains { b with mode := 0#2 } ∧ b.stkOk ≠ 0xFFF#12 := by decide
/-- Contexts, queues and clusters in use. -/
theorem test_met_inUse : let s := { tCmdS 2#8 0#64 0#64 [tCtxH] with insts := [tInst []] }
    (∃ i ∈ s.insts, i.ctx = tCtxH.handle) ∧ findCtx s 0 = some tCtxH ∧ distinct { tCmdS 7#8 0#64 0#64 [tCtxH] with insts := [tInst []] } ∧
    instAt { tCmdS 7#8 0#64 0#64 [tCtxH] with insts := [tInst []] } 0 = some (tInst []) ∧
    (∃ x ∈ ({ tCmd 4#8 9#64 0#64 with queues := [tQueue 0#64 false] } : Front).queues, x.q = (9#64).toNat) ∧ (tEnding true).ctx = 0 ∧ (tEnding true).num.toNat ≠ (1#64).toNat :=
  ⟨⟨_, List.mem_singleton.2 rfl, rfl⟩, rfl, (by unfold distinct; decide), rfl, ⟨_, List.mem_singleton.2 rfl, rfl⟩, rfl, by decide⟩

/-! Tiles, accumulators and transfers, further premises -/

/-- The descriptor of an accumulator of two rows and two columns. -/
def tAccWord : W64 := BitVec.ofNat 64 (2 ^ 49 + 2 ^ 42)
theorem test_met_accMoves : let o := { tTld with ins := .tldAcc 1#4 [tTgt], act := some (1, tAccWord) }
    let p := { tOp (.tstAcc 1#4 [tTgt]) .done with act := some (1, tAccWord) }
    mineAlone (tHas o) o ∧ mineAlone (tHas p) p ∧ (1 : Nat) < 16 ∧
    o.els.flatMap (fun z => bytesOfWords z o.got) = [1#8, 0#8, 0#8, 0#8, 2#8, 0#8, 0#8, 0#8, 3#8, 0#8, 0#8, 0#8, 4#8, 0#8, 0#8, 0#8].map (fun b => (b, false)) ∧
    16 = 4 * (((tAccWord.extractLsb' 49 7).toNat + 1) * ((tAccWord.extractLsb' 42 7).toNat + 1)) :=
  ⟨⟨List.mem_singleton.2 rfl, by decide, by decide, rfl, rfl, rfl⟩, ⟨List.mem_singleton.2 rfl, by decide, by decide, rfl, rfl, rfl⟩, by decide, by decide, by decide⟩
/-- The only piece of a line of eight bytes, and of the accumulator's sixteen. -/
theorem test_met_tilePieces : let o := { tAcc (.tst 1#8 [tTgt]) .miss .d with act := some (1, tEnt 1 3 0 1 2 0) }
    let p := { tAcc (.tstAcc 1#4 [tTgt]) .miss .d with act := some (1, tAccWord), els := [{ tEl .d with len := 16 }] }
    (∀ q ∈ [o, p], mineAlone (tL1Sec q 64 .e) q ∧ q.left = [0] ∧ l1dFind (tL1Sec q 64 .e) q.cl 64 = some (tSec0 64 .e)) ∧ (tSec0 64 .e).st = .e ∧ (tHas o).tiles.badT = [] ∧ (tHas o).tiles.badA = [] ∧
    8 = min 32 (lineLen (tEnt 1 3 0 1 2 0) - 32 * (0 % ((lineLen (tEnt 1 3 0 1 2 0) + 31) / 32))) ∧ 16 = min 32 (4 * (2 * 2) - 32 * 0) := by
  refine ⟨fun q h => ?_, rfl, rfl, rfl, by decide, by decide⟩
  simp only [List.mem_cons, List.not_mem_nil, or_false] at h
  rcases h with rfl | rfl <;> exact ⟨⟨List.mem_singleton.2 rfl, by decide, by decide, rfl, rfl, rfl⟩, rfl, rfl⟩

/-- Transfers of one chunk of eight bytes between 128 and 64, with their indices read; ESZ 8, LLIM 4, COUNT 1. -/
def tGath (i : Instr) (psn : Bool) (els : Option (List El)) : Xfer := { tXfer i .running (tReq 128 64 512 ||| (BitVec.ofNat 256 (3 * 2 ^ 20 + 4 * 2 ^ 14) <<< 232)) els with idx := [(0#32, psn)] }
def tXtile (out : Nat) (els : Option (List El)) : Xfer := { tXfer (.xtile tXr) .running (tReq 64 out 0) els with entry := tEnt 2 2 1 1 4 0 }
def tXacc (els : Option (List El)) : Xfer := { tXfer (.xacc tXr) .running (tReq 128 64 2) els with cap := [(0, b32)] }
/-- Pages that map windows to themselves. -/
def tPinned (x : Xfer) : Xfer := { x with pins := [⟨0, 0, 0#64, 65536⟩, ⟨1, 0, 0#64, 65536⟩] }
theorem test_met_chunkAccesses : ∀ p ∈ [(tGath (.xgath tXr) false none, [(0, 128, 8), (1, 64, 8)]), (tGath (.xscat tXr) false none, [(0, 128, 8), (1, 64, 8)]), (tXtile 1 none, [(0, 64, 8)]), (tXtile (2 ^ 63) none, [(0, 64, 8)]),
      (tXfer (.xfill tXr) .running (tReq 64 7 8) none, [(1, 64, 8)]), (tXfer (.xcopy tXr) .running (tReq 128 64 8) none, [(0, 128, 8), (1, 64, 8)]), (tXacc none, [(0, 128, 8), (1, 64, 8)])],
    let x := tPinned p.1
    let n := stride x
    x.els = none ∧ (tMoves x).ops = [] ∧ (tMoves x).pwr.prs.getD (dieOf x.cl) 0#4 ≠ 3#4 ∧ ctxOfInst (tMoves x) x.inst = some tCtx ∧ x.next < chunks_ x ∧
    (∀ a ∈ p.2, 1 ≤ a.2.2 ∧ a.2.1 / 65536 = (a.2.1 + a.2.2 - 1) / 65536 ∧ x.pins.find? (fun q => decide (q.stream = a.1 ∧ q.win = a.2.1 / 65536)) = some ⟨a.1, 0, 0#64, 65536⟩) ∧
    (x.ins = .xgath tXr → x.idx.length = howMany x ∧ p.2 = [(0, quarter x 0 + 0 * n, n), (1, quarter x 1 + 0 * n, n)]) ∧ (x.ins = .xscat tXr → x.idx.length = howMany x ∧ p.2 = [(0, quarter x 0 + 0 * n, n), (1, quarter x 1 + 0 * n, n)]) ∧
    (x.ins = .xtile tXr → p.2 = [(0, quarter x 0 + 0 * tePitch x.entry, lineLen x.entry)]) ∧ (x.ins = .xfill tXr → p.2 = [(1, quarter x 0 + offset x 0, pieceLen x 0)]) ∧
    (x.ins = .xcopy tXr ∨ x.ins = .xacc tXr → p.2 = [(0, quarter x 0 + offset x 0, pieceLen x 0), (1, quarter x 1 + offset x 0, pieceLen x 0)]) := by
  intro p h
  simp only [List.mem_cons, List.not_mem_nil, or_false] at h
  rcases h with rfl | rfl | rfl | rfl | rfl | rfl | rfl <;> exact ⟨rfl, rfl, by decide, rfl, by decide, by decide, by decide, by decide, by decide, by decide, by decide⟩
def tSrc : El := { tEl .u with va := 128, pa := 128 }
/-- Two sectors in L2, the upper one with poison or without. -/
def tHolds (x : Xfer) (pz : BitVec 16) : State := { tMoves x with co := { Coh.reset with l2 := [⟨64, zeroSec, false, 0#16, 0⟩, ⟨128, zeroSec, false, pz, 0⟩] } }
theorem test_met_holds (x : Xfer) (pz : BitVec 16) : (∀ k, k < 8 → homeReady (tHolds x pz) 0 (64 + k)) ∧ ∀ k, k < 8 → homeHolds (tHolds x pz) 0 (128 + k) := by
  have a : ∀ k, k < 64 → devicePresent tMat (64 + k) = true := by decide
  have b : ∀ k, k < 64 → devicePresent tMat (128 + k) = true := by decide
  refine ⟨fun k hk => ?_, fun k hk => ?_⟩
  · have e : sectorOf (64 + k) = 64 := by unfold sectorOf; omega
    unfold homeReady quiet
    rw [e]
    exact ⟨⟨(fun _ h => nomatch h), rfl, (fun _ h => nomatch h), (fun _ h => nomatch h), (fun _ h => nomatch h), (fun _ h => nomatch h), (fun _ h => nomatch h), (fun _ h => nomatch h), (fun _ h => nomatch h), rfl⟩,
      a, ⟨_, rfl, rfl, rfl, rfl⟩⟩
  · have e : sectorOf (128 + k) = 128 := by unfold sectorOf; omega
    unfold homeHolds quiet
    rw [e]
    exact ⟨⟨(fun _ h => nomatch h), rfl, (fun _ h => nomatch h), (fun _ h => nomatch h), (fun _ h => nomatch h), (fun _ h => nomatch h), (fun _ h => nomatch h), (fun _ h => nomatch h), (fun _ h => nomatch h), rfl⟩,
      b, ⟨_, rfl, rfl, rfl⟩⟩
/-- Chunks of each form, of sound bytes and with poison met: in the source, in an index, or before. -/
theorem test_met_chunkData : ∀ pz ∈ [0#16, 1#16], ∀ from_ ∈ [none, some 0], ∀ x ∈ [tGath (.xgath tXr) false (some [tSrc, tEl .u]), tGath (.xscat tXr) false (some [tSrc, tEl .u]), tGath (.xgath tXr) true (some [tEl .u]), tGath (.xscat tXr) true (some []),
      { tXtile 1 (some [tSrc]) with req := tReq 128 1 0 }, tXtile (2 ^ 63) (some [tEl .u]), tXacc (some [tSrc, tEl .u]), tXfer (.xcopy tXr) .running (tReq 128 64 8) (some [tSrc, tEl .u]), tXfer (.xfill tXr) .running (tReq 64 7 8) (some [tEl .u])],
    let y := { x with psnFrom := from_ }
    lookedAhead (tHolds y pz) y = tHolds y pz ∧ y.ph = .running ∧ (tHolds y pz).fab.flits = [] ∧ (findInst (tHolds y pz) y.inst).isSome = true ∧ y.next < chunks_ y ∧ y.ahead = [] ∧
    ((y.ins = .xgath tXr ∨ y.ins = .xscat tXr) → y.idx.length = howMany y ∧ stride y = 8 ∧ (quarter y 0 + 0 * 8) / 65536 = (quarter y 0 + 0 * 8 + 8 - 1) / 65536) ∧
    (y.ins = .xtile tXr → y.idx = [] ∧ lineLen y.entry = 8 ∧ memWf (tHolds y pz).tiles.bytes = true ∧ (tHolds y pz).tiles.badT = []) ∧ (y.ins = .xacc tXr → acceptLanes (accEntry y) = true ∧ pieceLen y 0 = 8) ∧
    (y.ins = .xcopy tXr ∨ y.ins = .xfill tXr → pieceLen y 0 = 8) := by
  intro pz hp f hf x h y
  simp only [List.mem_cons, List.not_mem_nil, or_false] at h hp hf
  refine ⟨tNoAhead _ _ ?_, ?_⟩
  · show xChunks x ≤ x.next + 1
    rcases h with rfl | rfl | rfl | rfl | rfl | rfl | rfl | rfl | rfl <;> decide
  · rcases hp with rfl | rfl <;> rcases hf with rfl | rfl <;> rcases h with rfl | rfl | rfl | rfl | rfl | rfl | rfl | rfl | rfl <;>
      exact ⟨rfl, rfl, rfl, by decide, rfl, by decide, by decide, by decide, by decide⟩
theorem test_met_tileLies : tileLies (tEnt 2 2 1 1 4 0) ∧ ((tMoves (tXtile 1 none)).tiles.badT = []) ∧ ∀ i, i < 8 → ∀ k, k < 8 → sectorOf (128 + i) ≠ sectorOf (64 + k) := by unfold tileLies; decide
/-- Index words that come: one in range, one beyond LLIM, the first of more than 64; and the chunks are over, with and without poison. -/
def tIdx (lim count : Nat) : Xfer := { tGath (.xgath tXr) false (some [{ tEl .u with va := 512, pa := 128, len := 4 * min 64 count }]) with idx := [], req := tReq 128 64 512 ||| (BitVec.ofNat 256 (3 * 2 ^ 20 + lim * 2 ^ 14 + (count - 1)) <<< 232) }
theorem test_met_indices : ∀ p ∈ [(4, 1), (0, 1), (4, 65)], let x := tIdx p.1 p.2
    x.idx.length < howMany x ∧ howMany x = p.2 ∧ 4 * min 64 p.2 = 4 * min 64 (howMany x - x.idx.length) ∧ (quarter x 2 + 0) / 65536 = (quarter x 2 + 0 + 256 - 1) / 65536 ∧ 2 ^ ((ctl x).toNat / 2 ^ 14 % 64) = 2 ^ p.1 := by decide
theorem test_met_over : ∀ p ∈ [none, some 0], let x := { tGath (.xgath tXr) false none with next := 1, psnFrom := p }
    x.idx.length = howMany x ∧ chunks_ x ≤ x.next ∧ isXfer x.ins = true := by decide
/-- An XFILL on the page that permits no stores. -/
def tShutX : Xfer := tXfer (.xfill tXr) .running (tReq 64 7 8) none
def tShutS : State := { tUp tShut [] with xfers := [tShutX] }
theorem test_met_noPermission : tShutX.els = none ∧ tShutS.ops = [] ∧ tShutS.pwr.prs.getD (dieOf tShutX.cl) 0#4 ≠ 3#4 ∧ ctxOfInst tShutS tShutX.inst = some tCtxU ∧ tShutX.next < chunks_ tShutX ∧ findX tShutS tShutX.id = some tShutX ∧
    xlateAll tShutX.id (dieOf tShutX.cl) tCtxU (curReads tShutX ++ curWrites tShutX) tShutS = (.perm 64, some ⟨1, 64, 8, needW⟩, tShutS) := by
  refine ⟨rfl, rfl, by decide, rfl, by decide, rfl, ?_⟩
  have g : Good tShut tShutS := ⟨rfl, rfl, by decide +kernel, by decide +kernel⟩
  have d : dieOf tShutX.cl = 0 := rfl
  have p : (findX tShutS tShutX.id) = some tShutX := rfl
  have n : (tShutX.pins.find? fun q => decide (q.stream = 1 ∧ q.win = 64 / 65536)) = none := rfl
  have f : firstPark tShutS needW [(64, 8, .leaf tShut (2 ^ 34) (tRoot + 65536))] = none := by decide
  have m : firstPerm tShutS needW [(64, 8, .leaf tShut (2 ^ 34) (tRoot + 65536))] = some 64 := by decide
  rw [show curReads tShutX ++ curWrites tShutX = [⟨1, 64, 8, needW⟩] from by decide, d]
  unfold xlateAll xlate
  simp only [p, n]
  unfold leavesOf
  rw [lookup_good g (.inr rfl) (c := tCtxU) ⟨rfl, rfl⟩ (die := some 0) (whoX tShutX) (va := 64) ⟨by decide, .inr rfl⟩]
  simp only [leavesOf, settleLeaves, f, m]
  rfl
/-- A finished transfer, sound and failed, of each kind, under its own thread's CTAG and another's. -/
theorem test_met_xferEnds : ([none, some (xferErr 3 0)].all fun e => [0, 2 ^ 216].all fun c =>
    [tXfer (.xcopy tXr) .finish (tReq 128 64 8) none, tGath (.xgath tXr) false none, tXtile 1 none, tXtile (2 ^ 63) none, tXacc none].all fun x =>
      let y := { x with ph := .finish, act := some 0, err := e, as_ := true, req := x.req ||| BitVec.ofNat 256 c }
      decide (y.hsel < 256) && (findInst (tMoves y) y.inst).isSome && (decide ((ctag y).thr ≠ y.tag.thr) == decide (c ≠ 0))) = true := by decide

/-! Commands and restores, further premises -/

/-- Every handle, and every queue number, is in use. -/
def tFullCtxs : List Ctx := (List.range 4096).map fun h => { tCtxH with handle := h, asid := 1#16 }
theorem tFullCtxsAll : (∀ c ∈ tFullCtxs, c.asid = 1#16) ∧ allUsed (tFullCtxs.map (·.handle)) 4096 := by
  refine ⟨fun c hc => ?_, fun n h => List.mem_map.2 ⟨_, List.mem_map.2 ⟨n, List.mem_range.2 h, rfl⟩, rfl⟩⟩
  obtain ⟨h, -, rfl⟩ := List.mem_map.1 hc
  rfl
theorem tFullReads (l : List Ctx) (hl : ∀ c ∈ l, c.asid = 1#16) (hu : allUsed (l.map (·.handle)) 4096) : let s := tCmdS 1#8 (BitVec.ofNat 64 (2 ^ 48 + 0x3100)) 0#64 l
    physRead (2 ^ 48 + 0x3100) 64 s = (.ok (tBytes 0x3100 64), s) ∧ ctxFits s (dwords (tBytes 0x3100 64)) ∧ allUsed (s.fe.ctxs.map (·.handle)) 4096 := by
  have g := tCmdGood 1#8 (BitVec.ofNat 64 (2 ^ 48 + 0x3100)) 0#64 l
  have m : (tCmdS 1#8 (BitVec.ofNat 64 (2 ^ 48 + 0x3100)) 0#64 l).mem = tStore := rfl
  have d : dwords (tBytes 0x3100 64) = [0#64, BitVec.ofNat 64 tRoot, 0x3040#64, 0#64, 0#64, 0#64, 0#64, 0#64] := by decide +kernel
  have k : kindAt (tCmdS 1#8 (BitVec.ofNat 64 (2 ^ 48 + 0x3100)) 0#64 l) 2 (2 ^ 48 + 0x3100) = .hostu := kindAt_host g _ _ (by decide) (by decide)
  refine ⟨?_, ?_, hu⟩
  · unfold physRead
    simp only [prepareRange_good g false 0 (2 ^ 48 + 0x3100) 64 (by decide) (by decide), placeRead_good g 0 (2 ^ 48 + 0x3100) 64 (by decide) (by decide), k, m]
    rfl
  · rw [d]; unfold ctxFits
    exact ⟨by decide, by decide, by decide, by decide, by decide, by decide, by decide, by decide, fun c hc => by rw [hl c hc]; decide⟩
theorem test_met_fullHandles : let s := tCmdS 1#8 (BitVec.ofNat 64 (2 ^ 48 + 0x3100)) 0#64 tFullCtxs
    physRead (2 ^ 48 + 0x3100) 64 s = (.ok (tBytes 0x3100 64), s) ∧ ctxFits s (dwords (tBytes 0x3100 64)) ∧ allUsed (s.fe.ctxs.map (·.handle)) 4096 := tFullReads _ tFullCtxsAll.1 tFullCtxsAll.2
/-- CTXLOAD of the descriptor at 0x3200, whose fault-queue descriptor breaks a rule, and of one that reads poison. -/
theorem test_met_badFaultQueue : let s := tCmdS 1#8 (BitVec.ofNat 64 (2 ^ 48 + 0x3200)) 0#64 []
    physRead (2 ^ 48 + 0x3200) 64 s = (.ok (tBytes 0x3200 64), s) ∧ ctxFits s (dwords (tBytes 0x3200 64)) ∧
    sysRead none (ctxMade 0 (dwords (tBytes 0x3200 64)) 0 4 0xFFFF#16) (word (dwords (tBytes 0x3200 64)) 2).toNat 64 s = (.ok (tBytes 0 64), s) ∧ ¬ fqFits (dwords (tBytes 0 64)) := by
  have g := tCmdGood 1#8 (BitVec.ofNat 64 (2 ^ 48 + 0x3200)) 0#64 []
  have m : (tCmdS 1#8 (BitVec.ofNat 64 (2 ^ 48 + 0x3200)) 0#64 []).mem = tStore := rfl
  have d : dwords (tBytes 0x3200 64) = [0#64, BitVec.ofNat 64 tRoot, 0#64, 0#64, 0#64, 0#64, 0#64, 0#64] := by decide +kernel
  have k : kindAt (tCmdS 1#8 (BitVec.ofNat 64 (2 ^ 48 + 0x3200)) 0#64 []) 2 (2 ^ 48 + 0x3200) = .hostu := kindAt_host g _ _ (by decide) (by decide)
  refine ⟨?_, ?_, ?_, ?_⟩
  · unfold physRead
    simp only [prepareRange_good g false 0 (2 ^ 48 + 0x3200) 64 (by decide) (by decide), placeRead_good g 0 (2 ^ 48 + 0x3200) 64 (by decide) (by decide), k, m]
    rfl
  · rw [d]; unfold ctxFits; decide
  · rw [d]
    exact tReadAt rfl g ⟨by decide, by decide⟩ 0 64 (by decide) (by decide) (by decide)
  · rw [show dwords (tBytes 0 64) = [BitVec.ofNat 64 (2 ^ 56), 0x1000#64, 0x800#64, 0#64, 0#64, 0#64, 0#64, 0#64] from by decide +kernel]
    unfold fqFits; decide
theorem test_met_poisonedDescriptor : (physRead (2 ^ 50) 64 (tCmdS 1#8 (BitVec.ofNat 64 (2 ^ 50)) 0#64 [])).1 = .ok (List.replicate 64 (0#8, true)) ∧ ¬ sound (List.replicate 64 ((0#8 : Byte), true)) := by
  refine ⟨by unfold tCmdS tHost; decide +kernel, fun h => absurd (h _ (List.mem_cons_self ..)) (by decide)⟩
/-- QMAP of what stands at 0x5000, which is no queue descriptor, and with every number in use. -/
def tFullQueues : List Queue := (List.range 16384).map fun q => { tQueue 0#64 false with q := q }
def tQmapS (l : List Queue) : State := { tCmdS 3#8 0x3180#64 0#64 [tCtxH] with fe := { tCmd 3#8 0x3180#64 0#64 with ctxs := [tCtxH], queues := l } }
theorem test_met_badQueue : let s := tCmdS 3#8 0x5000#64 0#64 [tCtxH]
    commands s 3#8 ∧ findCtx s s.fe.cur1.toNat = some tCtxH ∧ sysRead none tCtxH 0x5000 64 s = (.ok (tBytes 0x5000 64), s) ∧ ¬ queueFits (dwords (tBytes 0x5000 64)) :=
  ⟨⟨rfl, rfl⟩, rfl, tReadAt rfl (tCmdGood _ _ _ _) tCtxIn _ _ (by decide) (by decide) (by decide), by unfold queueFits; decide +kernel⟩
theorem tQmapReads (l : List Queue) : commands (tQmapS l) 3#8 ∧ findCtx (tQmapS l) (tQmapS l).fe.cur1.toNat = some tCtxH ∧ sysRead none tCtxH 0x3180 64 (tQmapS l) = (.ok (tBytes 0x3180 64), tQmapS l) ∧ queueFits (dwords (tBytes 0x3180 64)) :=
  ⟨⟨rfl, rfl⟩, rfl, tReadAt rfl ⟨rfl, rfl, tHostRoot, tHostNext⟩ tCtxIn _ _ (by decide) (by decide) (by decide), by unfold queueFits; decide +kernel⟩
theorem test_met_fullNumbers : (commands (tQmapS tFullQueues) 3#8 ∧ sysRead none tCtxH 0x3180 64 (tQmapS tFullQueues) = (.ok (tBytes 0x3180 64), tQmapS tFullQueues)) ∧ allUsed (tFullQueues.map (·.q)) 16384 :=
  ⟨⟨(tQmapReads _).1, (tQmapReads _).2.2.1⟩, fun n h => List.mem_map.2 ⟨_, List.mem_map.2 ⟨n, List.mem_range.2 h, rfl⟩, rfl⟩⟩
/-- QUNMAP of a queue with launches, without a completion record or with one. -/
theorem test_met_unmapped : let s := { tCmdS 4#8 9#64 0#64 [tCtxH] with fe := { tCmd 4#8 9#64 0#64 with ctxs := [tCtxH], queues := [tQueue 0#64 false], launches := [{ tLaunch none with q := 9 }, { tLaunch none with id := 8, q := 9 }, { tLaunch none with id := 9 }] } }
    let u := { s with fe := { s.fe with launches := [{ tLaunch none with q := 9, pkt := tPkt.set 6 0x40#64 }] } }
    commands s 4#8 ∧ (∃ x ∈ s.fe.queues, x.q = (9#64).toNat) ∧ (∀ l ∈ s.fe.launches, ∀ m ∈ s.fe.launches, l.id = m.id → l = m) ∧ (∀ l ∈ s.fe.launches, pkComp l.pkt = 0) ∧
    (u.fe.launches.filter fun m => decide (m.q = 9)) = u.fe.launches := ⟨⟨rfl, rfl⟩, ⟨_, List.mem_singleton.2 rfl, rfl⟩, by decide, by decide, by decide⟩

/-- A save block in host memory: these words at its offsets, and zeros. -/
def tBlockI : Inst := { tSwept .saved with failed := [(7#32, 64)] }
def tBlock (ws : List (Nat × W64)) : State := { tUp (tLeaf 0 (2 ^ 48)) (ws.map fun x => (2 ^ 48 + x.1, x.2)) with insts := [tBlockI], fe := { Front.reset with ctxs := [tCtxS] } }
def tGot (s : State) (p : Nat × Nat) : List (Byte × Bool) := (winPieces p.1 p.2).flatMap fun q => (List.range q.2).map fun i => (memGet s.mem (2 ^ 48 + q.1 + i), false)
theorem tGotEls {s : State} (g : Good (tLeaf 0 (2 ^ 48)) s) : ∀ l : List (Nat × Nat), (∀ p ∈ l, p.1 + p.2 ≤ 2 ^ 33) →
    sysReadEls none (l.map fun p => ⟨p.1, 2 ^ 48 + p.1, p.2, .hostu, 0, 2 ^ 34⟩) s = (l.flatMap fun q => (List.range q.2).map fun i => (memGet s.mem (2 ^ 48 + q.1 + i), false), s)
  | [], _ => rfl
  | p :: t, h => by
    have hp := h p (List.mem_cons_self ..)
    simp only [List.map_cons, sysReadEls, sysReadEl, tGotEls g t fun q hq => h q (List.mem_cons_of_mem _ hq), placeRead_good g 0 (2 ^ 48 + p.1) p.2 (by omega) (by omega), List.flatMap_cons]
theorem tGotBulk {s : State} (g : Good (tLeaf 0 (2 ^ 48)) s) {c : Ctx} (hc : tIn c) : ∀ l : List (Nat × Nat), (∀ p ∈ l, p.1 + p.2 ≤ 2 ^ 33) →
    bulkRead c l s = (.ok (l.map fun p => dwords (tGot s p)), s)
  | [], _ => rfl
  | (a, n) :: t, h => by
    have ih := tGotBulk g hc t fun p hp => h p (List.mem_cons_of_mem _ hp)
    have hp := h (a, n) (List.mem_cons_self ..)
    by_cases z : n = 0
    · subst z
      have e : tGot s (a, 0) = [] := by unfold tGot winPieces; rw [if_pos rfl]; rfl
      simp only [bulkRead, ih, List.map_cons, if_true, e]
      rfl
    · have r : sysRead none c a n s = (.ok (tGot s (a, n)), s) := by
        unfold sysRead sysReadN
        rw [sysPrep_host g hc needRd a n hp]
        simp only [tEls]
        rw [tGotEls g _ fun p h => Nat.le_trans (winPieces_within a n p h).2 hp]
        rfl
      have any : (tGot s (a, n)).any (·.2) = false := by
        rw [List.any_eq_false]; intro x hx
        obtain ⟨q, -, hq⟩ := List.mem_flatMap.1 hx
        obtain ⟨i, -, rfl⟩ := List.mem_map.1 hq
        exact Bool.false_ne_true
      simp only [bulkRead, if_neg z, r, any, ih, Bool.false_eq_true, if_false, List.map_cons]
theorem splitEvery_length {α : Type} (n k : Nat) (l : List α) : (splitEvery n k l).length = k := by
  induction k generalizing l with
  | zero => rfl
  | succ k ih => unfold splitEvery; rw [List.length_cons, ih]
theorem tGot_words (s : State) (a n : Nat) (h0 : 0 < n) (h : a % 65536 + n ≤ 65536) : (dwords (tGot s (a, n))).length = n / 8 := by
  unfold dwords tGot
  rw [winPieces_one a n h0 h]
  simp [splitEvery_length]
/-- What the two readings give, with so many transfers and records. -/
def tRead1 (s : State) : List (List W64) := [(0, 64), (0x100, 256), (0x100000, 2 ^ 20), (0x200000, 64)].map fun p => dwords (tGot s p)
def tRead2 (s : State) (nx nr : Nat) : List (List W64) :=
  [(0x10000, 64 * nx), (0x200100, 128), (0x200800, 2048), (0x201000, 8192), (0x210000, 64 * nr), (0x300000, 2 ^ 20), (0x400000, 2 ^ 20)].map fun p => dwords (tGot s p)
theorem tRead2_at (s : State) (nx nr : Nat) : (tRead2 s nx nr).getD 4 [] = dwords (tGot s (0x210000, 64 * nr)) ∧ (tRead2 s nx nr).getD 0 [] = dwords (tGot s (0x10000, 64 * nx)) := ⟨rfl, rfl⟩
theorem tReadsBack (ws : List (Nat × W64)) (nx nr : Nat) (g : Good (tLeaf 0 (2 ^ 48)) (tBlock ws)) (hx : nx ≤ 1) (hr : nr ≤ 2)
    (ex : ((word (dwords (tGot (tBlock ws) (0, 64))) 6).extractLsb' 0 11).toNat = nx) (er : ((word (dwords (tGot (tBlock ws) (0x200000, 64))) 0).extractLsb' 0 14).toNat = nr) :
    readsBack (tBlock ws) tBlockI tCtxS (0, 0) nx (tRead1 (tBlock ws)) (tRead2 (tBlock ws) nx nr) (tBlock ws) := by
  refine ⟨rfl, rfl, rfl, rfl, rfl, (fun h => absurd (show tBlockI.cls = 0 from h) (by decide)), rfl, rfl, ⟨rfl, rfl, rfl, rfl, rfl⟩, rfl, by show firstFree [] 1 1 = _; decide +kernel, ⟨ex, tBlock ws, ?_, ?_⟩, ?_, ?_, rfl, ⟨rfl, rfl, rfl, rfl, rfl⟩, rfl⟩
  · show bulkRead tCtxS [(0, 64), (0x100, 256), (0x100000, 2 ^ 20), (0x200000, 64)] _ = _
    exact tGotBulk g ⟨rfl, rfl⟩ _ (by decide)
  · show bulkRead tCtxS [(0x10000, 64 * nx), (0x200100, 128), (0x200800, 2048), (0x201000, 8192), (0x210000, 64 * ((word (dwords (tGot (tBlock ws) (0x200000, 64))) 0).extractLsb' 0 14).toNat), (0x300000, 2 ^ 20), (0x400000, 2 ^ 20)] _ = _
    rw [er]
    refine tGotBulk g ⟨rfl, rfl⟩ _ fun p hp => ?_
    simp only [List.mem_cons, List.not_mem_nil, or_false] at hp
    rcases hp with rfl | rfl | rfl | rfl | rfl | rfl | rfl <;> simp only <;> omega
  · show (dwords (tGot (tBlock ws) (0x10000, 64 * nx))).length = 8 * nx
    rcases (by omega : nx = 0 ∨ nx = 1) with rfl | rfl
    · show (dwords (tGot (tBlock ws) (0x10000, 0))).length = 0
      rw [show tGot (tBlock ws) (0x10000, 0) = [] from by unfold tGot winPieces; rw [if_pos rfl]; rfl]
      rfl
    · exact tGot_words _ _ _ (by decide) (by decide)
  · exact tGot_words _ 0x201000 8192 (by decide) (by decide)
/-- A block with the record of one slot and records of a fired request: KIND, ACT, AUX0 and AUX1 of operand a, whose payload is 64. -/
def tSavedRec (n kind act : Nat) (aux0 aux1 : W64) : List (Nat × W64) :=
  [(0x210008 + 64 * n, BitVec.ofNat 64 (2 ^ 63 + 2 ^ 60 * kind + 2 ^ 53 * act)), (0x210010 + 64 * n, 64#64), (0x210030 + 64 * n, aux0), (0x210038 + 64 * n, aux1)]
def tSavedSlot (i : Instr) : List (Nat × W64) := (List.range (encode i).length).map fun k => (0x201000 + 8 * k, word (encode i) k)
def tFired (p : Instr × Nat × Nat × W64) : List (Nat × W64) := (0x200000, 1#64) :: tSavedSlot p.1 ++ tSavedRec 0 p.2.1 p.2.2.1 p.2.2.2 9#64
/-- The words of the block's first slot record are those of the instruction. -/
def tDecodes (s : State) (i : Instr) : Bool :=
  match decode ((dwords (tGot s (0x201000, 32))).take (encode i).length) with
  | .ok x => decide (x = i)
  | .error _ => false
def tFireds : List (Instr × Nat × Nat × W64) :=
  [(.ld (tMem .ord .d), 1, 0, 0#64), (.ld (tMem .ord .d), 1, 0, 7#64), (.ld (tMem .unord .d), 2, 0, 7#64), (.tld 1#8 [tTgt], 3, 0, 7#64), (.sstrm 0#5 [tTgt], 3, 0, 5#64), (.ftsync 0#5 tCtl, 4, 0, 0#64), (.sysTrap 0#16 [tTgt], 4, 0, 7#64),
   (.sysBrk 0#16 [tTgt], 4, 0, 7#64), (.ld (tMem .ord .d), 1, 2, 7#64), (.ld (tMem .unord .d), 2, 2, 7#64), (.tld 1#8 [tTgt], 3, 2, 7#64), (.tld 1#8 [tTgt], 3, 1, 7#64), (.ld (tMem .unord .d), 2, 1, 7#64), (.sysTrap 0#16 [tTgt], 4, 3, 7#64), (.sysBrk 0#16 [tTgt], 4, 3, 7#64)]
def tRecIs (kind act : Nat) (aux0 aux1 : W64) : TokRec := ⟨Place.zero, Tag.zero, kind, false, false, false, 0, act, 64#256, aux0, aux1⟩
theorem tFiredReads : ∀ p ∈ tFireds, let s := tBlock (tFired p)
    ((List.range 8).map (fun i => memGet s.mem (tRoot + i)) = bytesOfNat (2 ^ 63 + tRoot + 65536) 8 ∧ (List.range 8).map (fun i => memGet s.mem (tRoot + 65536 + i)) = bytesOfNat (tLeaf 0 (2 ^ 48)).toNat 8) ∧
    ((word (dwords (tGot s (0, 64))) 6).extractLsb' 0 11).toNat = 0 ∧ ((word (dwords (tGot s (0x200000, 64))) 0).extractLsb' 0 14).toNat = 1 ∧
    (chunks 8 (dwords (tGot s (0x210000, 64)))).map recOfWords = [tRecIs p.2.1 p.2.2.1 p.2.2.2 9#64] ∧
    tDecodes s p.1 = true := by decide +kernel
theorem test_met_fired : ∀ p ∈ tFireds, let s := tBlock (tFired p)
    let recs := (chunks 8 ((tRead2 s 0 1).getD 4 [])).map recOfWords
    readsBack s tBlockI tCtxS (0, 0) 0 (tRead1 s) (tRead2 s 0 1) s ∧ seats tBlockI recs ∧ (recs.filter fun r => decide (r.kind ≠ 0)) = [tRecIs p.2.1 p.2.2.1 p.2.2.2 9#64] ∧ oneRequest [tRecIs p.2.1 p.2.2.1 p.2.2.2 9#64] ∧
    (∀ e ∈ tCtxS.out, e.inst ≠ tBlockI.iid ∨ e.kind ≠ 5#8) ∧ (tBlockI.failed.find? fun f => decide (f.1 = 7#32)) = some (7#32, 64) := by
  intro p hp
  obtain ⟨⟨r, n⟩, ex, er, e, -⟩ := tFiredReads p hp
  have k : p.2.1 ≠ 0 := (show ∀ p ∈ tFireds, p.2.1 ≠ 0 by decide) p hp
  have f : [tRecIs p.2.1 p.2.2.1 p.2.2.2 9#64].filter (fun r => decide (r.kind = 0)) = [] := by simp [tRecIs, k]
  refine ⟨tReadsBack _ 0 1 ⟨rfl, rfl, r, n⟩ (by decide) (by decide) ex er, ?_, ?_, List.pairwise_singleton .., (fun _ h => nomatch h), rfl⟩
  · show seats tBlockI ((chunks 8 (dwords (tGot _ (0x210000, 64)))).map recOfWords)
    rw [e]
    unfold seats
    rw [f]
    exact ⟨(fun _ h => nomatch h), (fun x h => by rw [List.mem_singleton.1 h]; exact ⟨rfl, rfl⟩), fun p => Nat.zero_le _⟩
  · show ((chunks 8 (dwords (tGot _ (0x210000, 64)))).map recOfWords).filter _ = _
    rw [e]
    simp [tRecIs, k]
theorem test_met_firedForms : (∀ i ∈ [Instr.ld (tMem .ord .d), .ld (tMem .unord .d), .tld 1#8 [tTgt]], isStream i = false) ∧ isStream (.sstrm 0#5 [tTgt]) = true ∧ isTileMem (.tld 1#8 [tTgt]) = true ∧ isTileMem (.ld (tMem .unord .d)) = false ∧
    isOrdered (.ld (tMem .unord .d)) = false ∧ captures (.sstrm 0#5 [tTgt]) 0 := ⟨by decide, rfl, rfl, rfl, by decide, .inr (.inr ⟨_, _, rfl, rfl⟩)⟩
/-- Two SYS.TRAPs answered, the later entry first, and a transfer. -/
def tTraps : List (Nat × W64) := (0x200000, 2#64) :: tSavedSlot (.sysTrap 0#16 [tTgt]) ++ tSavedRec 0 4 3 9#64 1#64 ++ tSavedRec 1 4 3 7#64 2#64
def tSavedX : List (Nat × W64) := [(0x30, 1#64)] ++ tSavedSlot (.xcopy tXr) ++ [(0x10000, 128#64), (0x10008, 64#64), (0x10010, 8#64), (0x10028, BitVec.ofNat 64 (2 ^ 62 + 7))]
theorem tBlockGood : ∀ l ∈ [tTraps, tSavedX], (List.range 8).map (fun i => memGet (tBlock l).mem (tRoot + i)) = bytesOfNat (2 ^ 63 + tRoot + 65536) 8 ∧
    (List.range 8).map (fun i => memGet (tBlock l).mem (tRoot + 65536 + i)) = bytesOfNat (tLeaf 0 (2 ^ 48)).toNat 8 := by decide +kernel
theorem tTrapRecs : ((word (dwords (tGot (tBlock tTraps) (0, 64))) 6).extractLsb' 0 11).toNat = 0 ∧ ((word (dwords (tGot (tBlock tTraps) (0x200000, 64))) 0).extractLsb' 0 14).toNat = 2 ∧
    (chunks 8 (dwords (tGot (tBlock tTraps) (0x210000, 128)))).map recOfWords = [tRecIs 4 3 9#64 1#64, tRecIs 4 3 7#64 2#64] ∧ tDecodes (tBlock tTraps) (.sysTrap 0#16 [tTgt]) = true := by decide +kernel
theorem test_met_twoTraps : readsBack (tBlock tTraps) tBlockI tCtxS (0, 0) 0 (tRead1 (tBlock tTraps)) (tRead2 (tBlock tTraps) 0 2) (tBlock tTraps) ∧
    ((chunks 8 ((tRead2 (tBlock tTraps) 0 2).getD 4 [])).map recOfWords) = [tRecIs 4 3 9#64 1#64, tRecIs 4 3 7#64 2#64] ∧ seats tBlockI [tRecIs 4 3 9#64 1#64, tRecIs 4 3 7#64 2#64] ∧
    fidDist tCtxS.nextFid 7#32 < fidDist tCtxS.nextFid 9#32 := by
  refine ⟨tReadsBack _ 0 2 ⟨rfl, rfl, (tBlockGood tTraps (by decide)).1, (tBlockGood tTraps (by decide)).2⟩ (by decide) (by decide) tTrapRecs.1 tTrapRecs.2.1, ?_, ?_, by decide⟩
  · rw [(tRead2_at _ _ _).1]
    exact tTrapRecs.2.2.1
  · unfold seats
    exact ⟨(fun _ h => nomatch h), by decide, fun p => Nat.zero_le _⟩
theorem tXferWords : ((word (dwords (tGot (tBlock tSavedX) (0, 64))) 6).extractLsb' 0 11).toNat = 1 ∧ ((word (dwords (tGot (tBlock tSavedX) (0x200000, 64))) 0).extractLsb' 0 14).toNat = 0 ∧
    (word (dwords (tGot (tBlock tSavedX) (0x10000, 64))) 5).extractLsb' 59 2 = 0#2 ∧ tDecodes (tBlock tSavedX) (.xcopy tXr) = true := by decide +kernel
theorem test_met_savedTransfer : readsBack (tBlock tSavedX) tBlockI tCtxS (0, 0) 1 (tRead1 (tBlock tSavedX)) (tRead2 (tBlock tSavedX) 1 0) (tBlock tSavedX) ∧
    (word ((tRead2 (tBlock tSavedX) 1 0).getD 0 []) 5).extractLsb' 59 2 = 0#2 ∧ seats tBlockI [] := by
  refine ⟨tReadsBack _ 1 0 ⟨rfl, rfl, (tBlockGood tSavedX (by decide)).1, (tBlockGood tSavedX (by decide)).2⟩ (by decide) (by decide) tXferWords.1 tXferWords.2.1, ?_, ?_⟩
  · rw [(tRead2_at _ _ _).2]
    exact tXferWords.2.2.1
  unfold seats
  exact ⟨(fun _ h => nomatch h), (fun _ h => nomatch h), fun p => Nat.zero_le _⟩

end Sys2Proof.Tests
end

section
/-! SUPPORT. Decoding: what the opcode map gives was read from the fields, group by group (Tables 2.6 to 2.11). -/
namespace Sys2Proof
open Sys2Proof.Machine

/-- An instruction that raw fields with this FN are read as has their opcode and FN, the targets that NT counts (none where the table gives
no result) and, if it takes a substitution, the one that IMS and XI ask for. -/
def ReadsFrom (r : Raw) (fn : Nat) (i : Instr) : Prop :=
  opcFn i = (r.opc.toNat, fn) ∧
  (targetsOf i = targetsOfRaw r ∨ (targetsOf i = [] ∧ (shape i).any (·.res.isSome) = false)) ∧
  (substOf i = .none ∨ substOf i = substOfRaw r) ∧ constOk i = true

/-- The instructions of a list are what the fields are read as when FN counts on from `k`. -/
def AllRead (r : Raw) : Nat → List Instr → Prop
  | _, [] => True
  | k, i :: l => ReadsFrom r k i ∧ AllRead r (k + 1) l

theorem AllRead.getElem? {r : Raw} {b k : Nat} {l : List Instr} {i : Instr} (hl : AllRead r b l) (hi : l[k]? = some i) :
    ReadsFrom r (b + k) i := by
  induction l generalizing b k with
  | nil => simp at hi
  | cons j l ih =>
    obtain ⟨hj, hl⟩ := hl
    cases k with
    | zero =>
      obtain rfl : j = i := by simpa using hi
      exact hj
    | succ k =>
      have := ih hl (k := k) (by simpa using hi)
      rwa [show b + (k + 1) = b + 1 + k by omega]

theorem pickFn_eq_ok {r : Raw} {l : List Instr} {i : Instr} : pickFn r l = .ok i ↔ l[r.fn.toNat]? = some i := by
  unfold pickFn
  cases l[r.fn.toNat]? <;> simp

theorem reads_of_pickFn {r : Raw} {l : List Instr} {i : Instr} (hl : AllRead r 0 l) (h : pickFn r l = .ok i) :
    ReadsFrom r r.fn.toNat i := by
  have := hl.getElem? (pickFn_eq_ok.1 h)
  rwa [Nat.zero_add] at this

theorem constOk_built (r : Raw) (t : List Target) :
    constOk (.const (if r.xi then .ext .a r.ext else .imm .a r.imm) t) = true := by
  cases r.xi <;> rfl

/-! In each group every row of its table is checked at once: its list's functions are read off the fields. CONST, FRND and RED stand apart,
whose rows choose by XI or by FN. -/

theorem buildCtl_reads {r : Raw} {i : Instr} (h : buildCtl r = .ok i) : ReadsFrom r r.fn.toNat i := by
  unfold buildCtl at h
  extract_lets t at h
  split at h
  case h_2 hopc =>
    refine reads_of_pickFn ?_ h
    exact ⟨⟨by rw [hopc]; rfl, .inl rfl, .inl rfl, constOk_built r t⟩, trivial⟩
  case h_15 => nomatch h
  all_goals exact reads_of_pickFn (by simp [*, t, AllRead, ReadsFrom, opcFn, targetsOf, substOf, constOk, ctlOf, shape, shN]) h

theorem buildInt_reads {r : Raw} {i : Instr} (h : buildInt r = .ok i) : ReadsFrom r r.fn.toNat i := by
  unfold buildInt at h
  extract_lets t at h
  split at h
  case h_24 => nomatch h
  all_goals exact reads_of_pickFn (by simp [*, t, AllRead, ReadsFrom, opcFn, targetsOf, substOf, constOk, intOf]) h

/-- FRND's functions begin with FN 1 (Table 2.8). -/
theorem reads_of_pickFn_pred {r : Raw} {l : List Instr} {i : Instr} (hl : AllRead r 1 l) (h0 : r.fn ≠ 0#4)
    (h : pickFn { r with fn := r.fn - 1#4 } l = .ok i) : ReadsFrom r r.fn.toNat i := by
  have := hl.getElem? (pickFn_eq_ok.1 h)
  rwa [show 1 + (r.fn - 1#4).toNat = r.fn.toNat by bv_omega] at this

theorem buildFlt_reads {r : Raw} {i : Instr} (h : buildFlt r = .ok i) : ReadsFrom r r.fn.toNat i := by
  unfold buildFlt at h
  extract_lets t at h
  split at h
  case h_19 =>
    split at h
    · nomatch h
    · next h0 => exact reads_of_pickFn_pred (by simp [*, t, AllRead, ReadsFrom, opcFn, targetsOf, substOf, constOk, fltOf]) h0 h
  case h_22 => nomatch h
  all_goals exact reads_of_pickFn (by simp [*, t, AllRead, ReadsFrom, opcFn, targetsOf, substOf, constOk, fltOf]) h

theorem buildVec_reads {r : Raw} {i : Instr} (h : buildVec r = .ok i) : ReadsFrom r r.fn.toNat i := by
  unfold buildVec at h
  extract_lets t at h
  split at h
  case h_15 => nomatch h
  all_goals exact reads_of_pickFn (by simp [*, t, AllRead, ReadsFrom, opcFn, targetsOf, substOf, constOk, vecOf]) h

theorem buildMem_reads {r : Raw} {i : Instr} (h : buildMem r = .ok i) : ReadsFrom r r.fn.toNat i := by
  unfold buildMem at h
  extract_lets t at h
  split at h
  case h_9 =>
    split at h
    · nomatch h
    · exact reads_of_pickFn (by simp [*, t, AllRead, ReadsFrom, opcFn, opcFn.amoFn, targetsOf, substOf, constOk, memOf]) h
  case h_19 => nomatch h
  all_goals exact reads_of_pickFn (by simp [*, t, AllRead, ReadsFrom, opcFn, opcFn.amoFn, targetsOf, substOf, constOk, memOf, ctlOf]) h

theorem buildTile_reads {r : Raw} {i : Instr} (h : buildTile r = .ok i) : ReadsFrom r r.fn.toNat i := by
  unfold buildTile at h
  extract_lets t acc at h
  split at h
  case h_19 => nomatch h
  all_goals exact reads_of_pickFn (by cases hacc : accBit r <;> simp [*, t, acc, AllRead, ReadsFrom, opcFn, targetsOf, substOf, constOk, mmaOf, xferOf]) h

/-- Whatever the opcode map gives was read from the fields. -/
theorem build_reads {r : Raw} {i : Instr} (h : build r = .ok i) : ReadsFrom r r.fn.toNat i := by
  unfold build at h
  split at h
  · exact buildCtl_reads h
  split at h
  · exact buildInt_reads h
  split at h
  · exact buildFlt_reads h
  split at h
  · exact buildVec_reads h
  split at h
  · exact buildMem_reads h
  exact buildTile_reads h

end Sys2Proof
end

section
/-! SUPPORT. The words of raw fields: what is read off a record's words stands for exactly those words (R36, R37). -/
namespace Sys2Proof
open Sys2Proof.Machine

theorem ofBool_getLsbD_eq_extractLsb' (w : W64) (k : Nat) : BitVec.ofBool (w.getLsbD k) = w.extractLsb' k 1 := by
  ext j hj
  obtain rfl : j = 0 := by omega
  simp

/-- The operation word of raw fields (Table 2.3). -/
def operationWord (r : Raw) : W64 :=
  r.opc ++ r.fn ++ r.fs ++ BitVec.ofBool r.v ++ r.nt ++ r.ims ++ BitVec.ofBool r.xi ++ r.md ++ r.imm

/-- The j-th target word: two half-words, the first one high (R37). -/
def targetWord (t : List W32) (j : Nat) : W64 := t.getD (2 * j) 0#32 ++ t.getD (2 * j + 1) 0#32

theorem wordsOfRaw_eq {r : Raw} (h : r.nt.toNat ≤ 4) :
    wordsOfRaw r = operationWord r :: ((if r.xi then [r.ext] else []) ++ (List.range ((r.nt.toNat + 1) / 2)).map (targetWord r.tw)) := by
  unfold wordsOfRaw
  generalize r.nt.toNat = n at h
  match n, h with
  | 0, _ => rfl
  | 1, _ => rfl
  | 2, _ => rfl
  | 3, _ => rfl
  | 4, _ => rfl

/-- Table 2.3 leaves no bit of the operation word out. -/
theorem operationWord_rawOfWords (ws : List W64) : operationWord (rawOfWords ws) = word ws 0 := by
  simp only [operationWord, rawOfWords, ofBool_getLsbD_eq_extractLsb']
  iterate 8 rw [BitVec.extractLsb'_append_extractLsb'_eq_extractLsb' (by rfl)]
  exact BitVec.extractLsb'_eq_self

theorem halves_append (w : W64) : w.extractLsb' 32 32 ++ w.extractLsb' 0 32 = w := by
  rw [BitVec.extractLsb'_append_extractLsb'_eq_extractLsb' (by rfl)]
  exact BitVec.extractLsb'_eq_self

theorem targetWord_rawOfWords (ws : List W64) {j : Nat} (hj : j < 2) :
    targetWord (rawOfWords ws).tw j = word ws (1 + (if (rawOfWords ws).xi then 1 else 0) + j) := by
  have htw : (rawOfWords ws).tw = halves (word ws (if (rawOfWords ws).xi then 2 else 1)) ++
      halves (word ws ((if (rawOfWords ws).xi then 2 else 1) + 1)) := rfl
  have ht : (if (rawOfWords ws).xi then 2 else 1) = 1 + if (rawOfWords ws).xi then 1 else 0 := by
    cases (rawOfWords ws).xi <;> rfl
  rw [htw, ht]
  match j, hj with
  | 0, _ => exact halves_append _
  | 1, _ => exact halves_append _

/-- R36: the fields read off a record's words stand for exactly the words it takes. -/
theorem wordsOfRaw_rawOfWords {ws : List W64} (h : (rawOfWords ws).nt.toNat ≤ 4) :
    wordsOfRaw (rawOfWords ws) = (List.range (wordsNeeded (word ws 0))).map (word ws) := by
  have hn : wordsNeeded (word ws 0) =
    1 + (if (rawOfWords ws).xi then 1 else 0) + ((rawOfWords ws).nt.toNat + 1) / 2 := rfl
  have ht : (List.range (((rawOfWords ws).nt.toNat + 1) / 2)).map (targetWord (rawOfWords ws).tw) =
      (List.range (((rawOfWords ws).nt.toNat + 1) / 2)).map fun j => word ws (1 + (if (rawOfWords ws).xi then 1 else 0) + j) := by
    refine List.map_congr_left fun j hj => targetWord_rawOfWords ws ?_
    have := List.mem_range.1 hj
    omega
  have hext : (rawOfWords ws).ext = if (rawOfWords ws).xi then word ws 1 else 0#64 := rfl
  rw [wordsOfRaw_eq h, hn, List.range_add, List.map_append, List.map_map, operationWord_rawOfWords, ht, hext]
  cases (rawOfWords ws).xi <;> rfl

/-- The words show of raw fields the extended word only with XI, and the target half-words in whole words only. -/
theorem wordsOfRaw_congr {r : Raw} {x : W64} {t : List W32} (hn : r.nt.toNat ≤ 4) (hx : r.xi = true → x = r.ext)
    (ht : ∀ k < 2 * ((r.nt.toNat + 1) / 2), t.getD k 0#32 = r.tw.getD k 0#32) :
    wordsOfRaw { r with ext := x, tw := t } = wordsOfRaw r := by
  have hext : (if r.xi then [x] else []) = if r.xi then [r.ext] else [] := by
    split
    · next h => rw [hx h]
    · rfl
  have htw : (List.range ((r.nt.toNat + 1) / 2)).map (targetWord t) = (List.range ((r.nt.toNat + 1) / 2)).map (targetWord r.tw) := by
    refine List.map_congr_left fun j hj => ?_
    have := List.mem_range.1 hj
    rw [targetWord, targetWord, ht _ (by omega), ht _ (by omega)]
  rw [wordsOfRaw_eq hn, wordsOfRaw_eq (show ({ r with ext := x, tw := t } : Raw).nt.toNat ≤ 4 from hn), hext, htw]
  rfl

/-! ### Targets -/

theorem bitsOfPos_posOfBits {b : BitVec 2} (h : b ≠ 3#2) : bitsOfPos (posOfBits b) = b := by
  revert b
  decide

theorem bitsOfTarget_targetOfBits {w : W32} (hz : w.extractLsb' 0 10 = 0#10) (ho : w.extractLsb' 10 2 ≠ 3#2) :
    bitsOfTarget (targetOfBits w) = w := by
  simp only [bitsOfTarget, targetOfBits, bitsOfPos_posOfBits ho]
  rw [← hz]
  iterate 5 rw [BitVec.extractLsb'_append_extractLsb'_eq_extractLsb' (by rfl)]
  exact BitVec.extractLsb'_eq_self

end Sys2Proof
end

section
/-! SUPPORT. What decodes is well-formed and encodes to the words read; unassigned opcodes are refused (R52 to R54). -/
namespace Sys2Proof
open Sys2Proof.Machine

/-! ### What the decoder has checked -/

/-- An instruction of raw fields that passes the reasons 0x03 to 0x09 of Table 2.12. -/
structure Accepts (r : Raw) (i : Instr) : Prop where
  built : build r = .ok i
  halves : r.tw.length = 4
  count : r.nt.toNat ≤ 4
  result : (shape i).any (·.res.isSome) = true ∨ r.nt = 0#3
  vTable : ((shape i).bind (·.v)).all (fun v => decide (v = r.v)) = true
  v : vOf i = r.v
  field : fieldOk i r = true
  immediate : immediateOk i r = true
  opnd : opndOk r = true

theorem accepts_of_decode {ws : List W64} {i : Instr} (h : decode ws = .ok i) : Accepts (rawOfWords ws) i := by
  unfold decode at h
  split at h
  · nomatch h
  next j hbody =>
  split at h
  · nomatch h
  next hopnd =>
  obtain rfl : j = i := by simpa using h
  simp only [decodeBody] at hbody
  split at hbody
  · nomatch hbody
  · nomatch hbody
  next k hbuild =>
  split at hbody
  · nomatch hbody
  next hcount =>
  split at hbody
  · nomatch hbody
  next hv =>
  split at hbody
  · nomatch hbody
  next hfield =>
  split at hbody
  · nomatch hbody
  next himm =>
  obtain rfl : k = j := by simpa using hbody
  simp only [Bool.not_eq_true', Bool.not_eq_false, Bool.and_eq_true, Bool.or_eq_true, decide_eq_true_eq] at hcount hv hfield himm hopnd
  exact ⟨hbuild, rfl, hcount.1, hcount.2, hv.1, hv.2, hfield, himm, hopnd⟩

/-- Reason FIELD of a record with no refused substitution (R54). -/
structure FieldsMatch (r : Raw) (i : Instr) : Prop where
  rules : fieldsOk i = true
  fs : fsOf i = r.fs
  md : modOf i = r.md
  imm : immOf i = r.imm
  ext : r.xi = true → r.ims = 0#2 → (extOf i).getD 0#64 = r.ext
  targets : targetBitsOk r = true

theorem extOf_of_substOf {i : Instr} {p : Pos} {v : W64} (h : substOf i = .ext p v) : extOf i = some v := by
  unfold extOf
  split
  · nomatch h
  · nomatch h
  · nomatch h
  · nomatch h
  · rw [h]

/-- IMS and XI together ask for the extended word (R42). -/
theorem substOfRaw_of_xi {r : Raw} (hx : r.xi = true) (h0 : r.ims ≠ 0#2) : ∃ p, substOfRaw r = .ext p r.ext := by
  simp only [substOfRaw, if_neg h0, hx, ↓reduceIte]
  split
  · exact ⟨.b, rfl⟩
  split
  · exact ⟨.c, rfl⟩
  · exact ⟨.a, rfl⟩

namespace Accepts
section
variable {r : Raw} {i : Instr} (h : Accepts r i)
include h

theorem reads : ReadsFrom r r.fn.toNat i := build_reads h.built

theorem immediateMatch : imsOf (substOf i) = r.ims ∧ (extOf i).isSome = r.xi ∧ substOk i = true := by
  have := h.immediate
  simp only [immediateOk, Bool.and_eq_true, decide_eq_true_eq] at this
  obtain ⟨⟨hims, hxi⟩, hok⟩ := this
  exact ⟨hims, hxi, hok⟩

theorem subRefused_eq_false : subRefused i r = false := by
  obtain ⟨hims, -, hok⟩ := h.immediateMatch
  have hsub : r.ims ≠ 0#2 → substOf i ≠ .none := fun h0 hn => h0 (by rw [← hims, hn]; rfl)
  simp only [subRefused, hok, Bool.not_true, Bool.or_false, Bool.and_eq_false_iff, decide_eq_false_iff_not]
  by_cases h0 : r.ims = 0#2
  · exact .inl (not_not_intro h0)
  · exact .inr (hsub h0)

theorem fieldsMatch : FieldsMatch r i := by
  have hf := h.field
  obtain ⟨-, hxi, -⟩ := h.immediateMatch
  simp only [fieldOk, classOk, immJudged, h.subRefused_eq_false, Bool.false_eq_true, ↓reduceIte, Bool.not_false, Bool.or_true, Bool.not_true,
    Bool.false_or, Bool.and_eq_true, Bool.or_eq_true, Bool.not_eq_true', Bool.and_eq_false_iff, decide_eq_true_eq, decide_eq_false_iff_not] at hf
  obtain ⟨⟨⟨⟨⟨hrules, hfs⟩, hmd⟩, himm⟩, hext⟩, ht⟩ := hf
  refine ⟨hrules, hfs, hmd, himm, fun hx h0 => ?_, ht⟩
  rcases hext with ((hn | hn) | hn) | hn
  · exact absurd (hn.symm.trans hx) Bool.false_ne_true
  · exact absurd (hn.symm.trans (hxi.trans hx)) Bool.false_ne_true
  · exact absurd h0 hn
  · exact hn

/-- The targets are those that NT counts. -/
theorem targetsOf_eq : targetsOf i = (r.tw.take r.nt.toNat).map targetOfBits := by
  have hraw : targetsOfRaw r = (r.tw.take r.nt.toNat).map targetOfBits := by
    rw [targetsOfRaw, if_pos h.count]
  obtain ⟨-, ht, -⟩ := h.reads
  rcases ht with ht | ⟨ht, hres⟩
  · rw [ht, hraw]
  · have h0 : r.nt = 0#3 := h.result.resolve_left (by rw [hres]; decide)
    rw [ht, h0]
    rfl

theorem extOf_eq (hx : r.xi = true) : (extOf i).getD 0#64 = r.ext := by
  by_cases h0 : r.ims = 0#2
  · exact h.fieldsMatch.ext hx h0
  · obtain ⟨-, -, hsub | hsub, -⟩ := h.reads
    · obtain ⟨hims, -⟩ := h.immediateMatch
      rw [hsub] at hims
      exact absurd hims.symm h0
    · obtain ⟨p, hp⟩ := substOfRaw_of_xi hx h0
      rw [extOf_of_substOf (hsub.trans hp)]
      rfl

theorem targetsOf_length : (targetsOf i).length = r.nt.toNat := by
  have hcount := h.count
  rw [h.targetsOf_eq, List.length_map, List.length_take, h.halves]
  omega

/-- R37: the targets' half-words are those read, which hold nothing beside the targets' fields. -/
theorem targetBits_eq : (targetsOf i).map bitsOfTarget = r.tw.take r.nt.toNat := by
  have hz := h.fieldsMatch.targets
  have ho := h.opnd
  simp only [targetBitsOk, opndOk, Bool.and_eq_true, List.all_eq_true, decide_eq_true_eq] at hz ho
  rw [h.targetsOf_eq, List.map_map]
  refine (List.map_congr_left fun w hw => ?_).trans (List.map_id _)
  exact bitsOfTarget_targetOfBits (hz.1 w hw) (ho w hw)

/-- The half-word that an odd NT leaves unused is zero (R37). -/
theorem unusedHalf_eq_zero (hodd : r.nt.toNat % 2 = 1) : r.tw.getD r.nt.toNat 0#32 = 0#32 := by
  have hz := h.fieldsMatch.targets
  simp only [targetBitsOk, Bool.and_eq_true, Bool.or_eq_true, decide_eq_true_eq, beq_iff_eq] at hz
  exact hz.2.resolve_left (by omega)

theorem rawOf_tw_getD {k : Nat} (hk : k < 2 * ((r.nt.toNat + 1) / 2)) : (rawOf i).tw.getD k 0#32 = r.tw.getD k 0#32 := by
  have hcount := h.count
  have hraw : (rawOf i).tw.getD k 0#32 = (r.tw.take r.nt.toNat).getD k 0#32 := by
    simp only [rawOf, h.targetBits_eq]
    obtain rfl | rfl | rfl | rfl : k = 0 ∨ k = 1 ∨ k = 2 ∨ k = 3 := by omega
    all_goals rfl
  rw [hraw, List.getD_eq_getElem?_getD, List.getElem?_take]
  split
  · rw [List.getD_eq_getElem?_getD]
  · obtain rfl : k = r.nt.toNat := by omega
    rw [h.unusedHalf_eq_zero (by omega)]
    rfl

/-- An accepted instruction has the raw fields that it was read from, as far as words show them. -/
theorem rawOf_eq : rawOf i = { r with ext := (rawOf i).ext, tw := (rawOf i).tw } := by
  obtain ⟨hopc, -⟩ := h.reads
  obtain ⟨hims, hxi, -⟩ := h.immediateMatch
  have hnt : BitVec.ofNat 3 (targetsOf i).length = r.nt := by
    rw [h.targetsOf_length, BitVec.ofNat_toNat, BitVec.setWidth_eq]
  simp only [rawOf, hopc, BitVec.ofNat_toNat, BitVec.setWidth_eq, h.fieldsMatch.fs, h.fieldsMatch.md, h.fieldsMatch.imm, h.v, hims, hxi, hnt]

theorem encode_eq : encode i = wordsOfRaw r := by
  rw [encode, h.rawOf_eq]
  exact wordsOfRaw_congr h.count h.extOf_eq fun _ => h.rawOf_tw_getD

theorem countOk_eq_true : countOk i = true := by
  have hresult := h.result
  unfold countOk
  split
  · rfl
  next sh hsh =>
    simp only [hsh, Option.any_some] at hresult
    simp only [Bool.and_eq_true, decide_eq_true_eq, h.targetsOf_length, h.count, true_and, Bool.or_eq_true, List.isEmpty_iff_length_eq_zero]
    exact hresult.imp_right fun h0 => by rw [h0]; rfl

theorem vectorOk_eq_true : vectorOk i = true := by
  have hv := h.vTable
  unfold vectorOk
  split
  · rfl
  next sh hsh =>
    simp only [hsh, Option.bind_some] at hv
    split
    · rfl
    next v hsv =>
      simp only [hsv, Option.all_some, decide_eq_true_eq] at hv
      exact decide_eq_true (h.v.trans hv.symm)

theorem wellFormed_eq_true : wellFormed i = true := by
  obtain ⟨-, -, -, hconst⟩ := h.reads
  obtain ⟨-, -, hsub⟩ := h.immediateMatch
  simp only [wellFormed, h.countOk_eq_true, h.vectorOk_eq_true, h.fieldsMatch.rules, hconst, hsub, Bool.and_self]

end
end Accepts

/-! ### Unassigned opcodes (R52) -/

/-! Of each group's rows none has the opcode, and what is left is `badOpc`. -/

theorem buildCtl_unassigned {r : Raw} (h : r.opc.toNat = 0x00 ∨ r.opc.toNat = 0x0F) : buildCtl r = .badOpc := by
  unfold buildCtl
  extract_lets t
  split
  rotate_right
  · rfl
  all_goals omega

theorem buildInt_unassigned {r : Raw} (h : 0x27 ≤ r.opc.toNat) : buildInt r = .badOpc := by
  unfold buildInt
  extract_lets i
  split
  rotate_right
  · rfl
  all_goals omega

theorem buildFlt_unassigned {r : Raw} (h : 0x45 ≤ r.opc.toNat) : buildFlt r = .badOpc := by
  unfold buildFlt
  extract_lets f
  split
  rotate_right
  · rfl
  all_goals omega

theorem buildVec_unassigned {r : Raw} (h : 0x5E ≤ r.opc.toNat) : buildVec r = .badOpc := by
  unfold buildVec
  extract_lets f
  split
  rotate_right
  · rfl
  all_goals omega

theorem buildMem_unassigned {r : Raw} (h : 0x66 ≤ r.opc.toNat ∧ r.opc.toNat ≤ 0x6F ∨ 0x76 ≤ r.opc.toNat ∧ r.opc.toNat ≤ 0x7F ∨
    0x83 ≤ r.opc.toNat ∧ r.opc.toNat ≤ 0x87 ∨ 0x8B ≤ r.opc.toNat) : buildMem r = .badOpc := by
  unfold buildMem
  extract_lets m
  split
  rotate_right
  · rfl
  all_goals omega

theorem buildTile_unassigned {r : Raw} (h : 0x9C ≤ r.opc.toNat ∧ r.opc.toNat ≤ 0xAF ∨ 0xB6 ≤ r.opc.toNat) : buildTile r = .badOpc := by
  unfold buildTile
  extract_lets t acc
  split
  rotate_right
  · rfl
  all_goals omega

theorem decode_of_badOpc {ws : List W64} (h : build (rawOfWords ws) = .badOpc) : decode ws = .error .opcode := by
  simp only [decode, decodeBody, h]

theorem unassignedRefused : Claims.UnassignedRefused := by
  intro ws opc hopc
  refine decode_of_badOpc ?_
  have hraw : (rawOfWords ws).opc.toNat = opc := rfl
  unfold build
  split
  · exact buildCtl_unassigned (by omega)
  split
  · exact buildInt_unassigned (by omega)
  split
  · exact buildFlt_unassigned (by omega)
  split
  · exact buildVec_unassigned (by omega)
  split
  · exact buildMem_unassigned (by omega)
  exact buildTile_unassigned (by omega)

/-- Settles O8: the raw fields of an accepted instruction are those read off the words, bit for bit where words show them. -/
theorem decodeAcceptsOnlyEncodings : Obligations.DecodeAcceptsOnlyEncodings := by
  refine ⟨unassignedRefused, fun ws i h => ?_⟩
  have hacc := accepts_of_decode h
  exact ⟨hacc.wellFormed_eq_true, hacc.encode_eq.trans (wordsOfRaw_rawOfWords hacc.count)⟩

end Sys2Proof
end

section
/-! SUPPORT. Selection: the set that a PE chooses has the lowest key among the contenders (R16, R179, R180). -/
namespace Sys2Proof.Machine

/-- The lower of the lowest so far and one more set; of two equal ones the earlier. -/
def lower (i : Inst) (m : Option PSet) (x : PSet) : Option PSet :=
  match m with
  | none => some x
  | some y => if keyOf i x.place x.tag < keyOf i y.place y.tag then some x else some y

theorem lower_some (i : Inst) (y x : PSet) :
    lower i (some y) x = if keyOf i x.place x.tag < keyOf i y.place y.tag then some x else some y := rfl

theorem lowestKey_nil (i : Inst) : lowestKey i [] = none := rfl

theorem lowestKey_cons (i : Inst) (y : PSet) (l : List PSet) : lowestKey i (y :: l) = l.foldl (lower i) (some y) := rfl

/-- What has been taken so far and the rest leave one of them, and none of them is lower. -/
theorem foldl_lower_spec (i : Inst) (l : List PSet) (y : PSet) :
    ∃ x, l.foldl (lower i) (some y) = some x ∧ x ∈ y :: l ∧ ∀ z ∈ y :: l, keyOf i x.place x.tag ≤ keyOf i z.place z.tag := by
  induction l generalizing y with
  | nil =>
    refine ⟨y, rfl, List.mem_singleton_self y, fun z hz => ?_⟩
    obtain rfl := List.mem_singleton.1 hz
    exact Nat.le_refl _
  | cons a l ih =>
    rw [List.foldl_cons, lower_some]
    split
    next hlt =>
      obtain ⟨x, hx, hmem, hle⟩ := ih a
      refine ⟨x, hx, List.mem_cons_of_mem _ hmem, fun z hz => ?_⟩
      rcases List.mem_cons.1 hz with rfl | hz
      · exact Nat.le_trans (hle a List.mem_cons_self) (Nat.le_of_lt hlt)
      · exact hle z hz
    next hge =>
      obtain ⟨x, hx, hmem, hle⟩ := ih y
      refine ⟨x, hx, ?_, fun z hz => ?_⟩
      · rcases List.mem_cons.1 hmem with rfl | hmem
        · exact List.mem_cons_self
        · exact List.mem_cons_of_mem _ (List.mem_cons_of_mem _ hmem)
      · rcases List.mem_cons.1 hz with rfl | hz
        · exact hle z List.mem_cons_self
        rcases List.mem_cons.1 hz with rfl | hz
        · exact Nat.le_trans (hle y List.mem_cons_self) (Nat.le_of_not_lt hge)
        · exact hle z (List.mem_cons_of_mem _ hz)

theorem lowestKey_eq_none {i : Inst} {l : List PSet} : lowestKey i l = none ↔ l = [] := by
  cases l with
  | nil => exact iff_of_true (lowestKey_nil i) rfl
  | cons y l =>
    obtain ⟨x, hx, -⟩ := foldl_lower_spec i l y
    rw [lowestKey_cons, hx]
    exact iff_of_false (fun h => nomatch h) (fun h => nomatch h)

/-- What has the lowest key is one of the sets, and no other's key is lower. -/
theorem lowestKey_spec {i : Inst} {l : List PSet} {x : PSet} (h : lowestKey i l = some x) :
    x ∈ l ∧ ∀ y ∈ l, keyOf i x.place x.tag ≤ keyOf i y.place y.tag := by
  cases l with
  | nil => nomatch h
  | cons a l =>
    obtain ⟨z, hz, hmem, hle⟩ := foldl_lower_spec i l a
    obtain rfl : z = x := Option.some.inj (hz.symm.trans h)
    exact ⟨hmem, hle⟩

/-- A key orders by the window-relative wave, then THR, then the slot (R179, R180). -/
theorem lex_of_keyOf_le {i : Inst} {p q : Place} {t u : Tag} (h : keyOf i p t ≤ keyOf i q u) (hp : p.slot < 8) (hq : q.slot < 8) :
    wrel i p t < wrel i q u ∨ (wrel i p t = wrel i q u ∧ (t.thr.toNat < u.thr.toNat ∨ (t.thr = u.thr ∧ p.slot ≤ q.slot))) := by
  have ht := t.thr.isLt
  have hu := u.thr.isLt
  unfold keyOf at h
  rcases Nat.lt_trichotomy (wrel i p t) (wrel i q u) with hw | hw | hw
  · exact .inl hw
  · rcases Nat.lt_trichotomy t.thr.toNat u.thr.toNat with hthr | hthr | hthr
    · exact .inr ⟨hw, .inl hthr⟩
    · exact .inr ⟨hw, .inr ⟨BitVec.eq_of_toNat_eq hthr, by omega⟩⟩
    · omega
  · omega

theorem foldl_since_eq_foldl_min (l : List PSet) (m : Nat) :
    l.foldl (fun m x => if x.since < m then x.since else m) m = (l.map (·.since)).foldl min m := by
  rw [List.foldl_map]
  congr 1
  funext m x
  split <;> omega

/-- Of sets that are not none, some have been ready longest; `oldest` keeps exactly those. -/
theorem exists_since_oldest {l : List PSet} (h : l ≠ []) :
    ∃ m, oldest l = l.filter (fun x => decide (x.since = m)) ∧ (∃ x ∈ l, x.since = m) ∧ ∀ x ∈ l, m ≤ x.since := by
  obtain ⟨a, t, rfl⟩ := List.exists_cons_of_ne_nil h
  refine ⟨((a :: t).map (·.since)).foldl min a.since, ?_, ?_⟩
  · simp only [oldest, foldl_since_eq_foldl_min]
    rfl
  · obtain ⟨hmem, hle⟩ := List.min?_eq_some_iff.1 (List.min?_cons' (x := a.since) (xs := (a :: t).map (·.since)))
    refine ⟨?_, fun x hx => hle _ (List.mem_cons_of_mem _ (List.mem_map_of_mem hx))⟩
    rcases List.mem_cons.1 hmem with hm | hm
    · exact ⟨a, List.mem_cons_self, hm.symm⟩
    · exact List.mem_map.1 hm

theorem oldest_eq_nil {l : List PSet} : oldest l = [] ↔ l = [] := by
  refine ⟨fun h => Classical.byContradiction fun hl => ?_, fun h => by rw [h]; rfl⟩
  obtain ⟨m, hm, ⟨x, hx, hxm⟩, -⟩ := exists_since_oldest hl
  have : x ∈ oldest l := by
    rw [hm]
    exact List.mem_filter.2 ⟨hx, decide_eq_true hxm⟩
  rw [h] at this
  nomatch this

theorem oldest_eq_filter (l : List PSet) : oldest l = l.filter fun x => l.all fun y => decide (x.since ≤ y.since) := by
  by_cases hl : l = []
  · rw [hl]
    rfl
  obtain ⟨m, hm, ⟨z, hz, hzm⟩, hle⟩ := exists_since_oldest hl
  rw [hm]
  refine List.filter_congr fun x hx => ?_
  rw [Bool.eq_iff_iff]
  simp only [decide_eq_true_eq, List.all_eq_true]
  constructor
  · rintro rfl y hy
    exact hle y hy
  · intro h
    exact Nat.le_antisymm (hzm ▸ h z hz) (hle x hx)

/-- The sets of a PE that are ready and may fire. -/
def readyAt (s : State) (n : Inst) (cl pe : Nat) : List PSet := (readySets n).filter fun x => firesAt n cl pe x && mayFire s n x

/-- Those of them that have been ready for 4,096 cycles or more. -/
def agedAt (s : State) (n : Inst) (cl pe : Nat) : List PSet := (readyAt s n cl pe).filter (aged s.time)

/-- Those that the lowest key decides among when no AGE_OVERRIDE is noted (R180). -/
def contenders (s : State) (n : Inst) (cl pe : Nat) : List PSet :=
  if agedAt s n cl pe = [] then readyAt s n cl pe else oldest (agedAt s n cl pe)

theorem chosen_eq_lowestKey {s : State} {n : Inst} (cl pe : Nat) (h : n.forced = []) :
    chosen s n cl pe = lowestKey n (contenders s n cl pe) := by
  unfold chosen contenders agedAt readyAt
  simp [h]

theorem contenders_eq_nil {s : State} {n : Inst} {cl pe : Nat} : contenders s n cl pe = [] ↔ readyAt s n cl pe = [] := by
  unfold contenders
  split
  · rfl
  next h =>
    rw [oldest_eq_nil]
    exact iff_of_false h fun h0 => h (by rw [agedAt, h0]; rfl)

end Sys2Proof.Machine
end

section
/-! SUPPORT. Which record a PE fires. -/
namespace Sys2Proof
open Sys2Proof.Machine

/-- Settles O3: a PE chooses the lowest key among the contenders, and a key orders by wave, THR and slot. -/
theorem chosenRecordIsLowest : Obligations.ChosenRecordIsLowest := by
  intro s n cl pe hforced ready late among wave
  have hamong : among = contenders s n cl pe := by
    unfold contenders
    rw [oldest_eq_filter]
    rfl
  rw [chosen_eq_lowestKey cl pe hforced, hamong]
  refine ⟨lowestKey_eq_none.trans contenders_eq_nil, fun x hx => ?_⟩
  obtain ⟨hmem, hle⟩ := lowestKey_spec hx
  exact ⟨hmem, fun y hy hxs hys => lex_of_keyOf_le (hle y hy) hxs hys⟩

end Sys2Proof
end

section
/-! SUPPORT. Sending: what nodes count (R182), and what an update of one `Inst` leaves. -/
namespace Sys2Proof.Machine

/-! ### Counting tokens at nodes (R182) -/

/-- What a list of nodes holds of one. -/
def nodeIn (l : List Node) (c : SweepNode) : Option Node := l.find? fun x => decide (x.node = c)

theorem nodeIn_cons_same {x : Node} {l : List Node} {c : SweepNode} (h : x.node = c) : nodeIn (x :: l) c = some x :=
  List.find?_cons_of_pos (decide_eq_true h)

theorem nodeIn_cons_ne {x : Node} {l : List Node} {c : SweepNode} (h : x.node ≠ c) : nodeIn (x :: l) c = nodeIn l c :=
  List.find?_cons_of_neg (by simpa using h)

/-- The node counts what it sends and receives, and has acted. -/
theorem nodeIn_bumpNodes_same (l : List Node) (c : SweepNode) (snt rcv : Nat) :
    nodeIn (bumpNodes l c snt rcv) c =
      some { node := c, sent := ((nodeIn l c).map (·.sent)).getD 0#64 + BitVec.ofNat 64 snt,
             recv := ((nodeIn l c).map (·.recv)).getD 0#64 + BitVec.ofNat 64 rcv, act := true } := by
  induction l with
  | nil => simp [bumpNodes, nodeIn]
  | cons x l ih =>
    by_cases h : x.node = c
    · rw [nodeIn_cons_same h, bumpNodes, if_pos h, nodeIn_cons_same (by exact h), ← h]
      rfl
    · rw [bumpNodes, if_neg h, nodeIn_cons_ne h, nodeIn_cons_ne h, ih]

/-- Every other node counts as before. -/
theorem nodeIn_bumpNodes_ne (l : List Node) {c d : SweepNode} (h : d ≠ c) (snt rcv : Nat) :
    nodeIn (bumpNodes l c snt rcv) d = nodeIn l d := by
  induction l with
  | nil => exact nodeIn_cons_ne (Ne.symm h)
  | cons x l ih =>
    by_cases hx : x.node = c
    · have hd : x.node ≠ d := fun hd => h (hd.symm.trans hx)
      rw [bumpNodes, if_pos hx, nodeIn_cons_ne (by exact hd), nodeIn_cons_ne hd]
    · rw [bumpNodes, if_neg hx]
      by_cases hd : x.node = d
      · rw [nodeIn_cons_same hd, nodeIn_cons_same hd]
      · rw [nodeIn_cons_ne hd, nodeIn_cons_ne hd, ih]

/-! ### What an update of one `Inst` leaves -/

/-- Every other one is as before, when the update keeps the number. -/
theorem modInst_others (id : Nat) {f : Inst → Inst} (hf : ∀ i, (f i).iid = i.iid) (s : State) :
    ((modInst id f s).insts.filter fun m => decide (m.iid ≠ id)) = s.insts.filter fun m => decide (m.iid ≠ id) := by
  rw [modInst_insts]
  induction s.insts with
  | nil => rfl
  | cons i l ih =>
    rw [List.map_cons]
    by_cases h : i.iid = id
    · rw [if_pos h, List.filter_cons_of_neg (by simp [hf, h]), List.filter_cons_of_neg (by simp [h]), ih]
    · rw [if_neg h, List.filter_cons_of_pos (by simp [h]), List.filter_cons_of_pos (by simp [h]), ih]

/-- What the update does not change of an `Inst` stays the same of all of them. -/
theorem modInst_map {α : Type} {f : Inst → Inst} {g : Inst → α} (hg : ∀ i, g (f i) = g i) (id : Nat) (s : State) :
    (modInst id f s).insts.map g = s.insts.map g := by
  rw [modInst_insts, List.map_map]
  refine List.map_congr_left fun i _ => ?_
  rw [Function.comp_apply]
  split
  · exact hg i
  · rfl

theorem findInst_modInst_same {s : State} {id : Nat} {n : Inst} (h : findInst s id = some n) {f : Inst → Inst}
    (hf : ∀ i, (f i).iid = i.iid) : findInst (modInst id f s) id = some (f n) := by
  rw [findInst_modInst _ _ _ _ hf, h, Option.map_some, if_pos rfl]

theorem placeNode_of_findInst {s : State} {id : Nat} {n : Inst} (h : findInst s id = some n) (p : Place) :
    placeNode s id p = .cluster (rowIdx n p) := by
  rw [placeNode, h]

/-- An `Inst` when a node of it has sent and received so many tokens more. -/
def counting (c : SweepNode) (snt rcv : Nat) (n : Inst) : Inst := { n with nodes := bumpNodes n.nodes c snt rcv }

@[simp] theorem counting_iid (c : SweepNode) (snt rcv : Nat) (n : Inst) : (counting c snt rcv n).iid = n.iid := rfl

/-- Sending is one update of the firing's `Inst`, and new tokens in flight. -/
theorem sendFrom_eq_modInst (inst : Nat) (p : Place) (ts : List Target) (k : Tok) (s : State) :
    sendFrom inst p ts k s =
      modInst inst (counting (placeNode s inst p) ts.length 0) { s with flights := (sendFrom inst p ts k s).flights } := rfl

end Sys2Proof.Machine
end

section
/-! SUPPORT. What emitting a token does (R7, R15, R20, R97). -/
namespace Sys2Proof
open Sys2Proof.Machine Sys2Proof.Claims

theorem bare_counting (c : SweepNode) (snt rcv : Nat) (n : Inst) : bare (counting c snt rcv n) = bare n := rfl

theorem countsOf_counting_same (n : Inst) (c : SweepNode) (snt : Nat) :
    countsOf (counting c snt 0 n) c = some { node := c, sent := sentBy n c + BitVec.ofNat 64 snt, recv := recvBy n c, act := true } := by
  refine (nodeIn_bumpNodes_same n.nodes c snt 0).trans ?_
  rw [show BitVec.ofNat 64 0 = 0#64 from rfl, BitVec.add_zero]
  rfl

theorem countsOf_counting_ne (n : Inst) {c d : SweepNode} (h : d ≠ c) (snt rcv : Nat) :
    countsOf (counting c snt rcv n) d = countsOf n d := nodeIn_bumpNodes_ne n.nodes h snt rcv

theorem onlyTokens_sendFrom (inst : Nat) (p : Place) (ts : List Target) (k : Tok) (s : State) :
    OnlyTokens s (sendFrom inst p ts k s) := by
  refine ⟨?_, rfl⟩
  rw [sendFrom_eq_modInst, modInst_map (bare_counting _ _ _)]

/-- Settles O10: sending is one update of the firing's `Inst`, which counts at one node. -/
theorem emitReachesEveryTarget : Obligations.EmitReachesEveryTarget := by
  intro f i k s n hn c t
  have hc : placeNode s f.inst f.place = c := placeNode_of_findInst hn f.place
  have ht : t = modInst f.inst (counting c (targetsOf i).length 0) { s with flights := t.flights } := by
    rw [← hc]
    exact sendFrom_eq_modInst ..
  refine ⟨onlyTokens_sendFrom .., ?_, ?_, counting c (targetsOf i).length 0 n, ?_, rfl, countsOf_counting_same .., fun d hd => ?_⟩
  · rw [← hc]
    exact sendFrom_flights ..
  · rw [ht]
    exact modInst_others f.inst (counting_iid c _ 0) _
  · rw [ht]
    exact findInst_modInst_same (by exact hn) (counting_iid c _ 0)
  · exact countsOf_counting_ne n hd ..

end Sys2Proof
end

section
/-! SUPPORT. Fields read back from the bits that hold them (Tables 2.3 and 2.4, R37 to R51). -/
namespace Sys2Proof
open Sys2Proof.Machine

theorem getLsbD_of_extractLsb' {n k : Nat} {w : BitVec n} {b : Bool} (h : w.extractLsb' k 1 = BitVec.ofBool b) : w.getLsbD k = b := by
  have hk : (w.extractLsb' k 1).getLsbD 0 = (BitVec.ofBool b).getLsbD 0 := by rw [h]
  simpa using hk

@[simp] theorem posOfBits_bitsOfPos (p : Pos) : posOfBits (bitsOfPos p) = p := by cases p <;> rfl
@[simp] theorem rmOfBits_bitsOfRm (m : Option Rm) : rmOfBits (bitsOfRm m) = m := by
  match m with
  | none => rfl
  | some m => cases m <;> rfl
@[simp] theorem ordOfBits_bitsOfOrd (o : Ord) : ordOfBits (bitsOfOrd o) = o := by cases o <;> rfl
@[simp] theorem scopeOfBits_bitsOfScope (c : Scope) : scopeOfBits (bitsOfScope c) = c := by cases c <;> rfl
@[simp] theorem sizeOfBits_bitsOfSize (z : Size) : sizeOfBits (bitsOfSize z) = z := by cases z <;> rfl

@[simp] theorem seqOfBits_bitsOfSeq (q : Seq) : seqOfBits (bitsOfSeq q) = q := by
  simp (disch := decide) only [seqOfBits, bitsOfSeq, BitVec.extractLsb'_append_eq_of_le, BitVec.extractLsb'_append_eq_of_add_le,
    BitVec.extractLsb'_eq_self, Nat.reduceSub]

/-! Table 2.4. -/

@[simp] theorem targetOfBits_bitsOfTarget (t : Target) : targetOfBits (bitsOfTarget t) = t := by
  simp (disch := decide) only [targetOfBits, bitsOfTarget, BitVec.extractLsb'_append_eq_of_le, BitVec.extractLsb'_append_eq_of_add_le,
    BitVec.extractLsb'_eq_self, Nat.reduceSub, posOfBits_bitsOfPos]

theorem bitsOfTarget_reserved (t : Target) : (bitsOfTarget t).extractLsb' 0 10 = 0#10 := BitVec.extractLsb'_append_eq_right

theorem bitsOfTarget_opnd_ne (t : Target) : (bitsOfTarget t).extractLsb' 10 2 ≠ 3#2 := by
  have h : (bitsOfTarget t).extractLsb' 10 2 = bitsOfPos t.opnd := by
    simp (disch := decide) only [bitsOfTarget, BitVec.extractLsb'_append_eq_of_le, BitVec.extractLsb'_append_eq_of_add_le,
      BitVec.extractLsb'_eq_self, Nat.reduceSub]
  rw [h]
  cases t.opnd <;> decide

/-! Table 2.3. -/

theorem word_wordsOfRaw_zero {r : Raw} (hn : r.nt.toNat ≤ 4) : word (wordsOfRaw r) 0 = operationWord r := by
  rw [wordsOfRaw_eq hn]
  rfl

theorem word_wordsOfRaw_one {r : Raw} (hn : r.nt.toNat ≤ 4) (hx : r.xi = true) : word (wordsOfRaw r) 1 = r.ext := by
  rw [wordsOfRaw_eq hn, hx]
  rfl

theorem targetWord_eq_zero {t : List W32} {n j : Nat} (hz : ∀ k, n ≤ k → t.getD k 0#32 = 0#32) (hj : (n + 1) / 2 ≤ j) :
    targetWord t j = 0#64 := by
  rw [targetWord, hz _ (by omega), hz _ (by omega)]
  rfl

/-- Target words that the record leaves out read as zero, which is what they hold. -/
theorem word_wordsOfRaw_target {r : Raw} (hn : r.nt.toNat ≤ 4) (hz : ∀ k, r.nt.toNat ≤ k → r.tw.getD k 0#32 = 0#32) (j : Nat) :
    word (wordsOfRaw r) (j + if r.xi then 2 else 1) = targetWord r.tw j := by
  have hw : word (wordsOfRaw r) (j + if r.xi then 2 else 1) =
      ((List.range ((r.nt.toNat + 1) / 2)).map (targetWord r.tw)).getD j 0#64 := by
    rw [wordsOfRaw_eq hn, word]
    cases r.xi <;> rfl
  rw [hw, List.getD_eq_getElem?_getD, List.getElem?_map]
  rcases Nat.lt_or_ge j ((r.nt.toNat + 1) / 2) with hj | hj
  · rw [List.getElem?_range hj]
    rfl
  · rw [List.getElem?_eq_none (by simpa using hj), targetWord_eq_zero hz hj]
    rfl

theorem halves_targetWord (t : List W32) (j : Nat) : halves (targetWord t j) = [t.getD (2 * j) 0#32, t.getD (2 * j + 1) 0#32] := by
  rw [halves, targetWord, BitVec.extractLsb'_append_eq_left, BitVec.extractLsb'_append_eq_right]

theorem eq_getD_of_length_eq_four {t : List W32} (h : t.length = 4) : [t.getD 0 0#32, t.getD 1 0#32, t.getD 2 0#32, t.getD 3 0#32] = t := by
  match t, h with
  | [_, _, _, _], _ => rfl

/-- Raw fields that hold nothing beside what their words show are read back from those words. -/
theorem rawOfWords_wordsOfRaw {r : Raw} (hn : r.nt.toNat ≤ 4) (hlen : r.tw.length = 4) (hext : r.xi = false → r.ext = 0#64)
    (hz : ∀ k, r.nt.toNat ≤ k → r.tw.getD k 0#32 = 0#32) : rawOfWords (wordsOfRaw r) = r := by
  have hxi : (operationWord r).getLsbD 40 = r.xi := getLsbD_of_extractLsb' (by
    simp (disch := decide) only [operationWord, BitVec.extractLsb'_append_eq_of_le, BitVec.extractLsb'_append_eq_of_add_le,
      BitVec.extractLsb'_eq_self, Nat.reduceSub])
  have hv : (operationWord r).getLsbD 46 = r.v := getLsbD_of_extractLsb' (by
    simp (disch := decide) only [operationWord, BitVec.extractLsb'_append_eq_of_le, BitVec.extractLsb'_append_eq_of_add_le,
      BitVec.extractLsb'_eq_self, Nat.reduceSub])
  have ht0 := word_wordsOfRaw_target hn hz 0
  have ht1 := word_wordsOfRaw_target hn hz 1
  have he : (if r.xi then word (wordsOfRaw r) 1 else 0#64) = r.ext := by
    split
    · next hx => exact word_wordsOfRaw_one hn hx
    · next hx => exact (hext (by simpa using hx)).symm
  simp only [rawOfWords, word_wordsOfRaw_zero hn, hxi, hv, he]
  rw [Nat.zero_add] at ht0
  rw [Nat.add_comm] at ht1
  rw [ht0, ht1, halves_targetWord, halves_targetWord]
  simp only [List.cons_append, List.nil_append, Nat.mul_zero, Nat.mul_one, Nat.zero_add, Nat.reduceAdd, eq_getD_of_length_eq_four hlen]
  simp (disch := decide) only [operationWord, BitVec.extractLsb'_append_eq_of_le, BitVec.extractLsb'_append_eq_of_add_le,
    BitVec.extractLsb'_eq_self, Nat.reduceSub]

end Sys2Proof
end

section
/-! SUPPORT. The raw fields of a well-formed record are read as that record, row by row (Tables 2.6 to 2.11). -/
namespace Sys2Proof
open Sys2Proof.Machine

/-! ### Targets and substitution -/

theorem targetsOf_length_le {i : Instr} (hr : (shape i).isSome = true) (hc : countOk i = true) : (targetsOf i).length ≤ 4 := by
  obtain ⟨sh, hsh⟩ := Option.isSome_iff_exists.1 hr
  simp only [countOk, hsh, Bool.and_eq_true, decide_eq_true_eq] at hc
  exact hc.1

theorem rawOf_nt_toNat {i : Instr} (h : (targetsOf i).length ≤ 4) : (rawOf i).nt.toNat = (targetsOf i).length :=
  (BitVec.toNat_ofNat _ _).trans (Nat.mod_eq_of_lt (by omega))

/-- Four half-words hold up to four targets, the first ones theirs and the others zero. -/
theorem rawOf_tw_eq {i : Instr} (h : (targetsOf i).length ≤ 4) :
    (rawOf i).tw = (targetsOf i).map bitsOfTarget ++ List.replicate (4 - (targetsOf i).length) 0#32 := by
  simp only [rawOf]
  generalize targetsOf i = t at h
  match t, h with
  | [], _ => rfl
  | [_], _ => rfl
  | [_, _], _ => rfl
  | [_, _, _], _ => rfl
  | [_, _, _, _], _ => rfl

theorem rawOf_tw_take {i : Instr} (h : (targetsOf i).length ≤ 4) :
    (rawOf i).tw.take (rawOf i).nt.toNat = (targetsOf i).map bitsOfTarget := by
  rw [rawOf_tw_eq h, rawOf_nt_toNat h]
  exact List.take_left' (List.length_map _)

theorem rawOf_tw_getD_eq_zero {i : Instr} (h : (targetsOf i).length ≤ 4) {k : Nat} (hk : (rawOf i).nt.toNat ≤ k) :
    (rawOf i).tw.getD k 0#32 = 0#32 := by
  rw [rawOf_nt_toNat h] at hk
  rw [rawOf_tw_eq h, List.getD_eq_getElem?_getD, List.getElem?_append_right (by rwa [List.length_map]), List.getElem?_replicate]
  split <;> rfl

theorem targetsOfRaw_rawOf {i : Instr} (h : (targetsOf i).length ≤ 4) : targetsOfRaw (rawOf i) = targetsOf i := by
  rw [targetsOfRaw, if_pos (by rwa [rawOf_nt_toNat h]), rawOf_tw_take h, List.map_map]
  exact (List.map_congr_left fun t _ => targetOfBits_bitsOfTarget t).trans (List.map_id _)

/-- A class without fields of its own in IMM keeps there what a substitution takes (R41, R42). -/
theorem immOf_eq_subImm {i : Instr} (hs : substOf i ≠ .none) (hi : immFields i = false) : immOf i = subImm (substOf i) := by
  unfold immOf
  split
  rotate_right
  · rfl
  all_goals first | exact absurd rfl hs | exact Bool.noConfusion (show true = false from hi)

/-- A substitution from IMM brings no extended word (R44). -/
theorem extOf_of_substOf_imm {i : Instr} {p : Pos} {v : W32} (h : substOf i = .imm p v) : extOf i = none := by
  unfold extOf
  split
  rotate_right
  · rw [h]
  all_goals exact Subst.noConfusion (show Subst.none = .imm p v from h)

theorem substOfRaw_rawOf {i : Instr} (h : substOk i = true) : substOfRaw (rawOf i) = substOf i := by
  unfold substOk at h
  split at h
  next hs => simp [substOfRaw, rawOf, hs, imsOf]
  next p v hs =>
    simp only [Bool.and_eq_true, Bool.not_eq_true'] at h
    have himm : immOf i = v := by rw [immOf_eq_subImm (by rw [hs]; nofun) h.2, hs]; rfl
    cases p <;> simp [substOfRaw, rawOf, hs, imsOf, himm, extOf_of_substOf_imm hs]
  next p v hs => cases p <;> simp [substOfRaw, rawOf, hs, imsOf, extOf_of_substOf hs]

end Sys2Proof
end

section
/-! SUPPORT. The opcode map gives a well-formed record back from its own raw fields, row by row (Tables 2.6 to 2.11). -/
namespace Sys2Proof
open Sys2Proof.Machine

/-! ### Class records (R45 to R51) -/

theorem intMod_lane (f : IntRec) (sh : BitVec 3) : (intMod f sh).extractLsb' 6 2 = f.lane := by
  simp (disch := decide) only [intMod, BitVec.extractLsb'_append_eq_of_le, BitVec.extractLsb'_eq_self, Nat.reduceSub]

theorem fltMod_rm (f : FltRec) : (fltMod f).extractLsb' 5 3 = bitsOfRm f.rm := by
  simp (disch := decide) only [fltMod, BitVec.extractLsb'_append_eq_of_le, BitVec.extractLsb'_eq_self, Nat.reduceSub]

theorem fltMod_flags (f : FltRec) : (fltMod f).getLsbD 4 = f.sat ∧ (fltMod f).getLsbD 3 = f.na ∧ (fltMod f).getLsbD 2 = f.nb ∧
    (fltMod f).getLsbD 1 = f.nc := by
  refine ⟨?_, ?_, ?_, ?_⟩ <;> refine getLsbD_of_extractLsb' ?_ <;>
  simp (disch := decide) only [fltMod, BitVec.extractLsb'_append_eq_of_le, BitVec.extractLsb'_append_eq_of_add_le, BitVec.extractLsb'_eq_self,
    Nat.reduceSub]

theorem vecMod_fields (f : VecRec) : (vecMod f).extractLsb' 5 3 = bitsOfRm f.rm ∧ (vecMod f).getLsbD 4 = f.sat := by
  refine ⟨?_, getLsbD_of_extractLsb' ?_⟩ <;>
  simp (disch := decide) only [vecMod, BitVec.extractLsb'_append_eq_of_le, BitVec.extractLsb'_append_eq_of_add_le, BitVec.extractLsb'_eq_self,
    Nat.reduceSub]

theorem memMod_fields (f : MemRec) : (memMod f).extractLsb' 6 2 = bitsOfOrd f.ord ∧ (memMod f).extractLsb' 4 2 = bitsOfScope f.scope ∧
    (memMod f).extractLsb' 1 3 = bitsOfSize f.size ∧ (memMod f).getLsbD 0 = f.nth := by
  refine ⟨?_, ?_, ?_, getLsbD_of_extractLsb' ?_⟩ <;>
  simp (disch := decide) only [memMod, BitVec.extractLsb'_append_eq_of_le, BitVec.extractLsb'_append_eq_of_add_le, BitVec.extractLsb'_eq_self,
    Nat.reduceSub]

theorem xferMod_nth (f : XferRec) : (xferMod f).getLsbD 0 = f.nth := by
  unfold xferMod
  cases f.nth <;> rfl

section
variable {r : Raw}

theorem ctlOf_eq {f : CtlRec} (hs : substOfRaw r = f.sub) (ht : targetsOfRaw r = f.tgts) (hv : r.v = f.v) : ctlOf r = f := by
  rw [ctlOf, hs, ht, hv]

theorem intOf_eq {f : IntRec} {sh : BitVec 3} (hs : substOfRaw r = f.sub) (ht : targetsOfRaw r = f.tgts) (hv : r.v = f.v)
    (hmd : r.md = intMod f sh) : intOf r = f := by
  rw [intOf, hs, ht, hv, hmd, intMod_lane]

theorem fltOf_eq {f : FltRec} (hs : substOfRaw r = f.sub) (ht : targetsOfRaw r = f.tgts) (hfs : r.fs = f.fs) (hv : r.v = f.v)
    (hmd : r.md = fltMod f) : fltOf r = f := by
  obtain ⟨hsat, hna, hnb, hnc⟩ := fltMod_flags f
  rw [fltOf, hs, ht, hfs, hv, hmd, fltMod_rm, rmOfBits_bitsOfRm, hsat, hna, hnb, hnc]

theorem vecOf_eq {f : VecRec} (hs : substOfRaw r = f.sub) (ht : targetsOfRaw r = f.tgts) (hfs : r.fs = f.fs) (hmd : r.md = vecMod f) :
    vecOf r = f := by
  obtain ⟨hrm, hsat⟩ := vecMod_fields f
  rw [vecOf, hs, ht, hfs, hmd, hrm, rmOfBits_bitsOfRm, hsat]

theorem memOf_eq {f : MemRec} (hs : substOfRaw r = f.sub) (ht : targetsOfRaw r = f.tgts) (hfs : r.fs = f.fs) (hv : r.v = f.v)
    (hmd : r.md = memMod f) (himm : r.imm = bitsOfSeq f.seq) : memOf r = f := by
  obtain ⟨hord, hscope, hsize, hnth⟩ := memMod_fields f
  rw [memOf, hs, ht, hfs, hv, hmd, himm, hord, hscope, hsize, hnth, ordOfBits_bitsOfOrd, scopeOfBits_bitsOfScope, sizeOfBits_bitsOfSize,
    seqOfBits_bitsOfSeq]

theorem xferOf_eq {f : XferRec} (ht : targetsOfRaw r = f.tgts) (hfs : r.fs = f.fs) (hmd : r.md = xferMod f) (himm : r.imm = bitsOfSeq f.seq) :
    xferOf r = f := by
  rw [xferOf, ht, hfs, hmd, himm, xferMod_nth, seqOfBits_bitsOfSeq]

theorem mmaOf_eq {f : MmaRec} (ht : targetsOfRaw r = f.tgts) (himm : r.imm = mmaImm f) : mmaOf r = f := by
  simp (disch := decide) only [mmaOf, ht, himm, mmaImm, BitVec.extractLsb'_append_eq_of_le, BitVec.extractLsb'_append_eq_of_add_le,
    BitVec.extractLsb'_eq_self, Nat.reduceSub]

end

/-! ### Rows

A field of IMM stands in its low bits, the bits above are zero. -/

theorem extractLsb'_zero_append {w : Nat} (k : BitVec w) : (0#(32 - w) ++ k).extractLsb' 0 w = k := BitVec.extractLsb'_append_eq_right

/-- The lowest two bytes of a word (R50). -/
theorem extractLsb'_bytes {n : Nat} (x : BitVec n) (a b : BitVec 8) : (x ++ a ++ b).extractLsb' 8 8 = a ∧ (x ++ a ++ b).extractLsb' 0 8 = b := by
  refine ⟨?_, BitVec.extractLsb'_append_eq_right⟩
  rw [BitVec.extractLsb'_append_eq_of_le (by decide)]
  exact BitVec.extractLsb'_append_eq_right

/-! In each row the operands on the right are written as what is read of them; the opcode map then computes. -/

section
variable {i : Instr} (hs : substOfRaw (rawOf i) = substOf i) (ht : targetsOfRaw (rawOf i) = targetsOf i)
include hs ht

theorem build_rawOf_ctl (hg : grpOf i = .ctl) (hconst : constOk i = true) : build (rawOf i) = .ok i := by
  cases i with
  | pass r | steerT r | steerF r | select r | waveAdv r | waveSet r | loopGate r | loopClose r | spawn r | tagGet r | tagSet r | tagThr r
  | tagWav r | call r | ret r | eosMake r | errTest r | errClear r =>
    have h : ctlOf (rawOf _) = r := ctlOf_eq hs ht rfl
    conv => rhs; rw [← h]
    rfl
  | loopOpen r k | errMake r k =>
    have h : ctlOf (rawOf _) = r := ctlOf_eq hs ht rfl
    conv => rhs; rw [← extractLsb'_zero_append k, ← h]
    rfl
  | const v t =>
    have h : targetsOfRaw (rawOf _) = t := ht
    conv => rhs; rw [← h]
    match v with
    | .imm .a x | .ext .a x => rfl
  | sysTrap k t | sysBrk k t | sysQry k t =>
    have h : targetsOfRaw (rawOf _) = t := ht
    conv => rhs; rw [← extractLsb'_zero_append k, ← h]
    rfl
  | sysClk t =>
    have h : targetsOfRaw (rawOf _) = t := ht
    conv => rhs; rw [← h]
    rfl
  | sinkDrop | sinkEos | sinkCount => rfl
  | _ => nomatch hg

theorem build_rawOf_int (hg : grpOf i = .int) : build (rawOf i) = .ok i := by
  cases i with
  | add r | sub r | mulLo r | mulHis r | mulHiu r | divS r | divU r | remS r | remU r | and r | or r | xor r | andn r | shl r | shrL r | shrA r
  | rotL r | rotR r | bcntClz r | bcntCtz r | bcntPopc r | minS r | minU r | maxS r | maxU r | abs r | bfx r | bfi r | addsS r | addsU r
  | mula r =>
    have h : intOf (rawOf _) = r := intOf_eq hs ht rfl rfl
    conv => rhs; rw [← h]
    rfl
  | cmp fn r | ext fn r =>
    have h : intOf (rawOf _) = r := intOf_eq hs ht rfl rfl
    conv => rhs; rw [← h]
    cases fn <;> rfl
  | lea k r =>
    have h : intOf (rawOf _) = r := intOf_eq hs ht rfl rfl
    have hk : (intMod r k).extractLsb' 0 3 = k := BitVec.extractLsb'_append_eq_right
    calc build (rawOf (.lea k r))
      _ = .ok (.lea ((intMod r k).extractLsb' 0 3) (intOf (rawOf _))) := rfl
      _ = .ok (.lea k r) := by rw [hk, h]
  | _ => nomatch hg

theorem build_rawOf_flt (hg : grpOf i = .flt) : build (rawOf i) = .ok i := by
  cases i with
  | fadd r | fsub r | fmul r | fdiv r | fsqrt r | frcp r | frsq r | fexp2 r | flog2 r | fminNum r | fminIeee r | fmaxNum r | fmaxIeee r | fabs r
  | fneg r | fcps r | fcls r | fcvtFi r | fcvtFiu r | fscl r | fxp r =>
    have h : fltOf (rawOf _) = r := fltOf_eq hs ht rfl rfl rfl
    conv => rhs; rw [← h]
    rfl
  | fma fn r | fcmp fn r =>
    have h : fltOf (rawOf _) = r := fltOf_eq hs ht rfl rfl rfl
    conv => rhs; rw [← h]
    cases fn <;> rfl
  | frnd m r =>
    have h : fltOf (rawOf _) = r := fltOf_eq hs ht rfl rfl rfl
    cases m <;> exact (if_neg (by simp [rawOf, opcFn])).trans (pickFn_eq_ok.2 (by rw [h]; simp [rawOf, opcFn]))
  | fcvtFf k r | fcvtIf k r | fcvtIuf k r =>
    have h : fltOf (rawOf _) = r := fltOf_eq hs ht rfl rfl rfl
    conv => rhs; rw [← extractLsb'_zero_append k, ← h]
    rfl
  | _ => nomatch hg

theorem build_rawOf_vec (hg : grpOf i = .vec) : build (rawOf i) = .ok i := by
  cases i with
  | vbcast r | vlaneGet r | vlanePut r | vperm r | vredAdd r | vredMax r | vredMin r | vredAmax r | vscan r | vmask r | vsel r | vdot r =>
    have h : vecOf (rawOf _) = r := vecOf_eq hs ht rfl rfl
    conv => rhs; rw [← h]
    rfl
  | vshuf p r =>
    have h : vecOf (rawOf _) = r := vecOf_eq hs ht rfl rfl
    conv => rhs; rw [← h]
    rfl
  | vpack k r | vbexp k r | vqnt k r | vdqnt k r =>
    have h : vecOf (rawOf _) = r := vecOf_eq hs ht rfl rfl
    conv => rhs; rw [← extractLsb'_zero_append k, ← h]
    rfl
  | vunpk k hi r =>
    have h : vecOf (rawOf _) = r := vecOf_eq hs ht rfl rfl
    have hk : (0#26 ++ BitVec.ofBool hi ++ k).extractLsb' 0 5 = k := BitVec.extractLsb'_append_eq_right
    have hhi : (0#26 ++ BitVec.ofBool hi ++ k).getLsbD 5 = hi := getLsbD_of_extractLsb' (by
      simp (disch := decide) only [BitVec.extractLsb'_append_eq_of_le, BitVec.extractLsb'_append_eq_right, Nat.reduceSub])
    calc build (rawOf (.vunpk k hi r))
      _ = .ok (.vunpk ((0#26 ++ BitVec.ofBool hi ++ k).extractLsb' 0 5) ((0#26 ++ BitVec.ofBool hi ++ k).getLsbD 5) (vecOf (rawOf _))) := rfl
      _ = .ok (.vunpk k hi r) := by rw [hk, hhi, h]
  | _ => nomatch hg

theorem build_rawOf_mem (hg : grpOf i = .mem) (hf : fieldsOk i = true) : build (rawOf i) = .ok i := by
  cases i with
  | ld r | st r | ldx r | stx r | mnop r | pf r | cas r | xred r | xrd r | fenceAcq r | fenceRel r | fenceAr r | fenceSc r | own r
  | invRegion r | invAll r | wbk r | ftset r =>
    have h : memOf (rawOf _) = r := memOf_eq hs ht rfl rfl rfl rfl
    conv => rhs; rw [← h]
    rfl
  | amo fn r =>
    have h : memOf (rawOf _) = r := memOf_eq hs ht rfl rfl rfl rfl
    conv => rhs; rw [← h]
    cases fn <;> rfl
  | red fn r =>
    have h : memOf (rawOf _) = r := memOf_eq hs ht rfl rfl rfl rfl
    have hfn : fn ≠ .swap := by
      simp only [fieldsOk, Bool.and_eq_true, decide_eq_true_eq] at hf
      exact hf.2
    conv => rhs; rw [← h]
    cases fn
    case swap => exact absurd rfl hfn
    all_goals rfl
  | ftget fs t =>
    have h : targetsOfRaw (rawOf _) = t := ht
    conv => rhs; rw [← h]
    rfl
  | ftsync fs r =>
    have h : ctlOf (rawOf _) = r := ctlOf_eq hs ht rfl
    conv => rhs; rw [← h]
    rfl
  | _ => nomatch hg

end

section
variable {i : Instr} (ht : targetsOfRaw (rawOf i) = targetsOf i)
include ht

/-- R50 and R51: these rows take no substitution. -/
theorem build_rawOf_noSub (hr : (shape i).isSome = true) (hg : grpOf i = .noSub) : build (rawOf i) = .ok i := by
  have hrow : (grpOf i, (shape i).isSome) = (.noSub, true) := by rw [hg, hr]
  cases i with
  | tempty k t | tdesc k t | spacc k t =>
    have h : targetsOfRaw (rawOf _) = t := ht
    conv => rhs; rw [← extractLsb'_zero_append k, ← h]
    rfl
  | tld k t | tst k t | tzero k t | tqry k t =>
    have h : targetsOfRaw (rawOf _) = t := ht
    conv => rhs; rw [← extractLsb'_zero_append k, ← h]
    exact congrArg Built.ok (if_neg (show ¬ (0#8).getLsbD 0 = true by decide))
  | tldAcc k t | tstAcc k t | tzeroAcc k t | tqryAcc k t =>
    have h : targetsOfRaw (rawOf _) = t := ht
    conv => rhs; rw [← extractLsb'_zero_append k, ← h]
    exact congrArg Built.ok (if_pos (show (1#8).getLsbD 0 = true by decide))
  | tcvt a b t =>
    have h : targetsOfRaw (rawOf _) = t := ht
    obtain ⟨ha, hb⟩ := extractLsb'_bytes 0#16 a b
    calc build (rawOf (.tcvt a b t))
      _ = .ok (.tcvt ((0#16 ++ a ++ b).extractLsb' 8 8) ((0#16 ++ a ++ b).extractLsb' 0 8) (targetsOfRaw (rawOf _))) := rfl
      _ = .ok (.tcvt a b t) := by rw [ha, hb, h]
  | ttrn a b t =>
    have h : targetsOfRaw (rawOf _) = t := ht
    obtain ⟨ha, hb⟩ := extractLsb'_bytes 0#16 a b
    calc build (rawOf (.ttrn a b t))
      _ = .ok (.ttrn ((0#16 ++ a ++ b).extractLsb' 8 8) ((0#16 ++ a ++ b).extractLsb' 0 8) (targetsOfRaw (rawOf _))) := rfl
      _ = .ok (.ttrn a b t) := by rw [ha, hb, h]
  | isect t | sstrm fs t =>
    have h : targetsOfRaw (rawOf _) = t := ht
    conv => rhs; rw [← h]
    rfl
  | mmaDense m =>
    have h : mmaOf (rawOf _) = m := mmaOf_eq ht rfl
    conv => rhs; rw [← h]
    rfl
  | mmaAcca fs clmp psh m =>
    have h : mmaOf (rawOf _) = m := mmaOf_eq ht rfl
    have hclmp : (BitVec.ofBool clmp ++ psh ++ 0#1).getLsbD 7 = clmp := getLsbD_of_extractLsb' (by
      simp (disch := decide) only [BitVec.extractLsb'_append_eq_of_le, BitVec.extractLsb'_eq_self, Nat.reduceSub])
    have hpsh : (BitVec.ofBool clmp ++ psh ++ 0#1).extractLsb' 1 6 = psh := by
      simp (disch := decide) only [BitVec.extractLsb'_append_eq_of_le, BitVec.extractLsb'_append_eq_right, Nat.reduceSub]
    calc build (rawOf (.mmaAcca fs clmp psh m))
      _ = .ok (.mmaAcca fs ((BitVec.ofBool clmp ++ psh ++ 0#1).getLsbD 7) ((BitVec.ofBool clmp ++ psh ++ 0#1).extractLsb' 1 6)
            (mmaOf (rawOf _))) := rfl
      _ = .ok (.mmaAcca fs clmp psh m) := by rw [hclmp, hpsh, h]
  | mmaMx sa sb m =>
    have h : mmaOf (rawOf _) = m := mmaOf_eq ht rfl
    obtain ⟨hsa, hsb⟩ := extractLsb'_bytes 0#48 sa sb
    calc build (rawOf (.mmaMx sa sb m))
      _ = .ok (.mmaMx ((0#48 ++ sa ++ sb).extractLsb' 8 8) ((0#48 ++ sa ++ sb).extractLsb' 0 8) (mmaOf (rawOf _))) := rfl
      _ = .ok (.mmaMx sa sb m) := by rw [hsa, hsb, h]
  | mmaTwo ba bb sa sb m =>
    have h : mmaOf (rawOf _) = m := mmaOf_eq ht rfl
    obtain ⟨hba, hbb⟩ := extractLsb'_bytes 0#32 ba bb
    obtain ⟨hsa, hsb⟩ := extractLsb'_bytes (0#32 ++ ba ++ bb) sa sb
    have hhigh : ∀ {k : Nat}, (0#32 ++ ba ++ bb ++ sa ++ sb).extractLsb' (k + 16) 8 = (0#32 ++ ba ++ bb).extractLsb' k 8 := by
      intro k
      rw [BitVec.extractLsb'_append_eq_of_le (by omega), BitVec.extractLsb'_append_eq_of_le (by omega)]
      rfl
    calc build (rawOf (.mmaTwo ba bb sa sb m))
      _ = .ok (.mmaTwo ((0#32 ++ ba ++ bb ++ sa ++ sb).extractLsb' (8 + 16) 8) ((0#32 ++ ba ++ bb ++ sa ++ sb).extractLsb' (0 + 16) 8)
            ((0#32 ++ ba ++ bb ++ sa ++ sb).extractLsb' 8 8) ((0#32 ++ ba ++ bb ++ sa ++ sb).extractLsb' 0 8) (mmaOf (rawOf _))) := rfl
      _ = .ok (.mmaTwo ba bb sa sb m) := by rw [hhigh, hhigh, hba, hbb, hsa, hsb, h]
  | xcopy r | xgath r | xscat r | xtile r | xfill r | xacc r =>
    have h : xferOf (rawOf _) = r := xferOf_eq ht rfl rfl rfl
    conv => rhs; rw [← h]
    rfl
  | _ => nomatch hrow

end
/-- The opcode map inverts the fields of every well-formed record. -/
theorem build_rawOf {i : Instr} (hr : (shape i).isSome = true) (hw : wellFormed i = true) : build (rawOf i) = .ok i := by
  simp only [wellFormed, Bool.and_eq_true] at hw
  obtain ⟨⟨⟨⟨hcount, -⟩, hfields⟩, hconst⟩, hsub⟩ := hw
  have hs := substOfRaw_rawOf hsub
  have ht := targetsOfRaw_rawOf (targetsOf_length_le hr hcount)
  cases hg : grpOf i with
  | ctl => exact build_rawOf_ctl hs ht hg hconst
  | int => exact build_rawOf_int hs ht hg
  | flt => exact build_rawOf_flt hs ht hg
  | vec => exact build_rawOf_vec hs ht hg
  | mem => exact build_rawOf_mem hs ht hg hfields
  | noSub => exact build_rawOf_noSub ht hr hg

end Sys2Proof
end

section
/-! SUPPORT. Decoding inverts encoding: a well-formed record's own words pass every reason of Table 2.12 (R54). -/
namespace Sys2Proof
open Sys2Proof.Machine

section
variable {i : Instr} (ht : (targetsOf i).length ≤ 4)
include ht

theorem rawOfWords_encode : rawOfWords (encode i) = rawOf i := by
  refine rawOfWords_wordsOfRaw (by rwa [rawOf_nt_toNat ht]) rfl (fun hx => ?_) fun k => rawOf_tw_getD_eq_zero ht
  have hnone : extOf i = none := by simpa [rawOf] using hx
  simp only [rawOf, hnone, Option.getD_none]

theorem targetBitsOk_rawOf : targetBitsOk (rawOf i) = true := by
  simp only [targetBitsOk, rawOf_tw_take ht, rawOf_tw_getD_eq_zero ht (Nat.le_refl _), decide_true, Bool.or_true, Bool.and_true, List.all_map,
    List.all_eq_true, Function.comp_apply, bitsOfTarget_reserved, implies_true]

theorem opndOk_rawOf : opndOk (rawOf i) = true := by
  simp only [opndOk, rawOf_tw_take ht, List.all_map, List.all_eq_true, Function.comp_apply, decide_eq_true_eq]
  exact fun t _ => bitsOfTarget_opnd_ne t

theorem fieldOk_rawOf (hf : fieldsOk i = true) (hsub : substOk i = true) : fieldOk i (rawOf i) = true := by
  have hclass : classOk i (rawOf i) = true := by
    have hrefused : subRefused i (rawOf i) = false := by
      simp only [subRefused, hsub, Bool.not_true, Bool.or_false, Bool.and_eq_false_iff, decide_eq_false_iff_not, Decidable.not_not]
      by_cases hs : substOf i = .none
      · exact .inl (by simp [rawOf, hs, imsOf])
      · exact .inr hs
    rw [classOk, hrefused]
    exact hf
  simp only [fieldOk, hclass, decide_true, Bool.or_true, Bool.and_true, targetBitsOk_rawOf ht]

end

theorem immediateOk_rawOf {i : Instr} (h : substOk i = true) : immediateOk i (rawOf i) = true := by
  simp only [immediateOk, rawOf, decide_true, h, Bool.and_self]

/-- Reason COUNT passes when the count is right (R39). -/
theorem countPasses_rawOf {i : Instr} (hr : (shape i).isSome = true) (h : countOk i = true) :
    (decide ((rawOf i).nt.toNat ≤ 4) && ((shape i).any (·.res.isSome) || decide ((rawOf i).nt = 0#3))) = true := by
  have ht := targetsOf_length_le hr h
  obtain ⟨sh, hsh⟩ := Option.isSome_iff_exists.1 hr
  simp only [countOk, hsh, Bool.and_eq_true, Bool.or_eq_true, List.isEmpty_iff] at h
  simp only [rawOf_nt_toNat ht, hsh, Option.any_some, ht, decide_true, Bool.true_and, Bool.or_eq_true, decide_eq_true_eq]
  exact h.2.imp_right fun h0 => by simp [rawOf, h0]

/-- Reason VECTOR passes when V is as the table allows (R39). -/
theorem vectorPasses_rawOf {i : Instr} (h : vectorOk i = true) :
    ((((shape i).bind (·.v)).all fun v => decide (v = (rawOf i).v)) && decide (vOf i = (rawOf i).v)) = true := by
  have hv : (rawOf i).v = vOf i := rfl
  rw [hv, decide_eq_true rfl, Bool.and_true]
  unfold vectorOk at h
  split at h
  next hsh => rw [hsh]; rfl
  next sh hsh =>
    rw [hsh, Option.bind_some]
    split at h
    next hshv => rw [hshv]; rfl
    next v hshv =>
      rw [hshv, Option.all_some]
      exact decide_eq_true (of_decide_eq_true h).symm

theorem decode_encode {i : Instr} (hr : (shape i).isSome = true) (hw : wellFormed i = true) : decode (encode i) = .ok i := by
  have hbuild := build_rawOf hr hw
  simp only [wellFormed, Bool.and_eq_true] at hw
  obtain ⟨⟨⟨⟨hcount, hvector⟩, hfields⟩, -⟩, hsub⟩ := hw
  have ht := targetsOf_length_le hr hcount
  have hbody : decodeBody (encode i) = .ok i := by
    simp only [decodeBody, rawOfWords_encode ht, hbuild, countPasses_rawOf hr hcount, vectorPasses_rawOf hvector, fieldOk_rawOf ht hfields hsub,
      immediateOk_rawOf hsub, Bool.not_true, Bool.false_eq_true, ↓reduceIte]
  simp only [decode, hbody, rawOfWords_encode ht, opndOk_rawOf ht, Bool.not_true, Bool.false_eq_true, ↓reduceIte]

/-- Settles O2: the words give the raw fields back, and the opcode map the instruction of those. -/
theorem decodeInvertsEncode : Obligations.DecodeInvertsEncode := fun _ hr hw => decode_encode hr hw

end Sys2Proof
end

section
/-! SUPPORT. Words that the chapters write out. -/
namespace Sys2Proof
open Sys2Proof.Machine

/-- Words that encode a well-formed record decode to it. -/
theorem decode_of_encode_eq {i : Instr} {ws : List W64} (h : encode i = ws) (hr : (shape i).isSome = true) (hw : wellFormed i = true) :
    decode ws = .ok i := by
  rw [← h]
  exact decode_encode hr hw

/-- Settles O1: the words are those of well-formed records, and opcode 0 is unassigned. -/
theorem decodesWordsOfTheSpec : Obligations.DecodesWordsOfTheSpec := by
  refine ⟨?_, ?_, ?_, ?_, ?_, ?_, ?_, ?_, ?_, decode_of_badOpc rfl⟩
  all_goals exact decode_of_encode_eq (by decide) (by decide) (by decide)

end Sys2Proof
end

section
/-! SUPPORT. The matrix unit at an element entry that Table 4.2 calls malformed. -/
namespace Sys2Proof
open Sys2Proof.Machine Sys2Proof.Claims

/-- A float entry of EW 4 and FW 3 whose SPV is 4. -/
def spvFour : W64 := 0xD030074400000000#64

/-- An MMA.MX of handles 1 and 2 into accumulator 0, its block scales at handles 3 and 4. -/
def mxRec : MmaRec := ⟨0#4, 1#8, 2#8, 0xFF#8, []⟩

/-- It runs, with D EMPTY before it. Slot 1 was captured as `spvFour`, slot 2 as the same format with SPV 1, slot 3 as the scales' E8M0. -/
def mxOp : Op :=
  { id := 0, inst := 0, place := Place.zero, tag := Tag.zero, ins := .mmaMx 3#8 4#8 mxRec, a := Tok.zero, b := Tok.zero, c := Tok.zero, cl := 0,
    cap := [(1, spvFour), (2, 0xD030071400000000#64), (3, 0xA0007F3400000000#64)], ph := .mmaRun, arr := 0, chain := 0, seqNo := 0, err := none,
    got := [], snap := [], els := [], left := [1, 2, 1000, 3, 4, 1000, 1000], stale := false, val := 0#256, n := 0, act := some (0, 0#64),
    todo := none, replay := 0 }

/-- A is 1 by 16 and B 16 by 1, of zeros, each with one block scale in 8-bit containers; A's scale is the NaN 0xFF. -/
def mxState : State :=
  { State.reset with
    ops := [mxOp]
    tiles := { Tiles.reset with
      dir := [(1, 0x4108001E00000000#64), (2, 0x41103C0000200000#64), (3, 0x4118000000400000#64), (4, 0x4118000000600000#64)]
      bytes := [(512, 0xFF#8)] } }

theorem mineAlone_mxOp : mineAlone mxState mxOp :=
  ⟨List.mem_singleton_self _, fun _ hp _ => List.mem_singleton.1 hp, fun _ hr => (List.not_mem_nil hr).elim, rfl, rfl, rfl⟩

/-- R86 as the statement reads it: under a scale that is not finite, an element of an entry whose SPV is not 2 is NaN, and so is the sum. -/
theorem macBlocks_mxOp_isNan :
    (macBlocks (fun x => element mxState mxOp 1 3 1000 true 0 x) (fun x => element mxState mxOp 2 4 1000 false x 0) 1 (.zero false)).isNan = true := by
  decide +kernel

/-- The model takes the largest finite value unless SPV is 0, 1 or 3, and the products with B's zeros add up to zero. -/
theorem exec_mmaComplete_mxState : ∃ t, exec (.mmaComplete 0) mxState = .next t ∧ accElem t 0 0 0 0 = 0#32 :=
  ⟨_, rfl, by decide +kernel⟩

/-- Refutes O44: its rule for MMA_COMPLETE also speaks of a captured entry with SPV 4, for which a scale that is not finite gives NaN in the statement
(`scaledUp`) and the largest finite value in the model (`dequantVal`). Such an entry is malformed, so no MMA that fires captures it. -/
theorem not_matrixUnitQueuesAndComputes : ¬ Obligations.MatrixUnitQueuesAndComputes := by
  rintro ⟨-, -, -, hcomplete⟩
  obtain ⟨t, ht, -, -, -, helems, -⟩ := hcomplete mxState mxOp mxRec _ 1 2 1000 3 4 1000 1000 0#64 mineAlone_mxOp rfl rfl rfl rfl rfl rfl rfl
    (fun _ _ _ _ h => nomatch h)
  obtain ⟨u, hu, hzero⟩ := exec_mmaComplete_mxState
  obtain rfl : u = t := Host.Outcome.next.inj (hu.symm.trans ht)
  have hnan : accElem u 0 0 0 0 = 0x7FC00000#32 := (helems 0 0 (by decide) (by decide)).trans (if_pos macBlocks_mxOp_isNan)
  exact absurd (hzero.symm.trans hnan) (by decide)

end Sys2Proof
end
